-- ==== Sys2Proof/Word.lean ====
section
/-! DEFINITION. The machine's word and byte types (R58, R201). -/

namespace Sys2Proof

/-- A register-store entry, an operand-file entry or q (R58, R62). -/
abbrev Word := BitVec 64

/-- A byte of memory (R201). -/
abbrev Byte := BitVec 8

/-- A data label (R58). -/
abbrev Label := BitVec 3

end Sys2Proof
end

