-- ==== Sys2Proof/Syntax.lean ====
section
/-! DEFINITION. The instructions of the ZIL-8192 and the events of its opcode table, as data (R33 to R44). -/

namespace Sys2Proof

/-- The four instruction lengths, by LEN (R33): a base word, a base word with a literal, an extended form, an extended
form with a literal. -/
inductive Len where
  | w32 | x96l | x96x | x160
  deriving DecidableEq, Repr

/-- LEN of a length. -/
def Len.code : Len → Nat
  | .w32 => 0 | .x96l => 1 | .x96x => 2 | .x160 => 3

/-- The length that LEN selects. -/
def Len.ofCode : Nat → Len
  | 0 => .w32 | 1 => .x96l | 2 => .x96x | _ => .x160

/-- How many words an instruction of this length has (R34). -/
def Len.words : Len → Nat
  | .w32 => 1 | .x96l => 3 | .x96x => 3 | .x160 => 5

/-- Whether the name fields are the 12-bit ones of an extended form (R37). -/
def Len.wide : Len → Bool
  | .w32 => false | .x96l => false | .x96x => true | .x160 => true

/-- What every encoded instruction carries beside its own fields: its length and its switch marker S (R33). -/
structure Hd where
  len : Len
  s : Bool
  deriving DecidableEq, Repr

/-- An operand name (R18, R42).  A c or v name is the w number of its first entry.  `rsv i` is the `i`-th reserved
name code. -/
inductive Name where
  | w (n : Nat)
  | o (n : Nat)
  | q
  | st
  | zr
  | rsv (i : Nat)
  deriving DecidableEq, Repr

/-- The TYPE codes of R39, by name; `implied` is code 0. -/
inductive Ty where
  | implied | i8 | i16 | i32 | z8 | z16 | z32 | f32 | bf16 | f16 | e4m3 | e5m2 | kb2 | kb4 | kb7
  | s8 | sz8 | s16 | sz16 | s32 | sz32 | ld | sb | sh | sw | sd
  deriving DecidableEq, Repr

/-- TYPE of a type (R39). -/
def Ty.code : Ty → Nat
  | .implied => 0 | .i8 => 1 | .i16 => 2 | .i32 => 3 | .z8 => 4 | .z16 => 5 | .z32 => 6 | .f32 => 7 | .bf16 => 8
  | .f16 => 9 | .e4m3 => 10 | .e5m2 => 11 | .kb2 => 12 | .kb4 => 13 | .kb7 => 14 | .s8 => 16 | .sz8 => 17 | .s16 => 18
  | .sz16 => 19 | .s32 => 20 | .sz32 => 21 | .ld => 22 | .sb => 23 | .sh => 24 | .sw => 25 | .sd => 26

/-- The type of a TYPE code; a reserved code, which no decoder passes on, reads as `implied`. -/
def Ty.ofCode : Nat → Ty
  | 1 => .i8 | 2 => .i16 | 3 => .i32 | 4 => .z8 | 5 => .z16 | 6 => .z32 | 7 => .f32 | 8 => .bf16 | 9 => .f16
  | 10 => .e4m3 | 11 => .e5m2 | 12 => .kb2 | 13 => .kb4 | 14 => .kb7 | 16 => .s8 | 17 => .sz8 | 18 => .s16 | 19 => .sz16
  | 20 => .s32 | 21 => .sz32 | 22 => .ld | 23 => .sb | 24 => .sh | 25 => .sw | 26 => .sd | _ => .implied

/-- The type an instruction acts with: its own, or the one its MAJOR implies (R40). -/
def Ty.orImplied (t dflt : Ty) : Ty := if t = .implied then dflt else t

/-- The orderings of R37. -/
inductive Ord where
  | rlx | acq | rel | ar | sc
  deriving DecidableEq, Repr

def Ord.code : Ord → Nat
  | .rlx => 0 | .acq => 1 | .rel => 2 | .ar => 3 | .sc => 4

def Ord.ofCode : Nat → Ord
  | 1 => .acq | 2 => .rel | 3 => .ar | 4 => .sc | _ => .rlx

/-- The scopes of R20. -/
inductive Scope where
  | core | gang | tile | clus | die | part | pkg | sys | fab
  deriving DecidableEq, Repr

def Scope.code : Scope → Nat
  | .core => 0 | .gang => 1 | .tile => 2 | .clus => 3 | .die => 4 | .part => 5 | .pkg => 6 | .sys => 7 | .fab => 8

def Scope.ofCode : Nat → Scope
  | 1 => .gang | 2 => .tile | 3 => .clus | 4 => .die | 5 => .part | 6 => .pkg | 7 => .sys | 8 => .fab | _ => .core

/-- A step of PACKAGE_RESET (R470): the reset itself, or the end of bring-up, with what its checks found and the boot mask that F
firmware loaded, as cores and codes of roles (R468). -/
inductive BringUp where
  | reset
  | finish (ok : Bool) (mask : List (Nat × Nat))
  deriving DecidableEq, Repr

/-- A request that writes a partition's entry, with the pages of HBM that F firmware assigns with it, as address and length (R433). -/
structure TableRequest where
  entry : List (BitVec 8)
  pages : List (Nat × Nat)
  deriving DecidableEq, Repr

/-- What a restore brings to a package (R465): the peer list of each port, and the messages of the lanes, each with its port, its lane,
its bytes and its label. -/
structure MigrationImage where
  peers : List (Nat × List (BitVec 8))
  lanes : List (Nat × Nat × List (BitVec 8) × Nat)
  deriving DecidableEq, Repr

/-- One row of the opcode table each.  The constructors that take a header `h` are the instructions with an
encoding (R43); the others are the table's events, which take the names of what they happen to. -/
inductive Instr where
  /-- ADD (R156). -/
  | add (h : Hd) (d : Name) (a : Name) (b : Name)
  /-- SUB (R156). -/
  | sub (h : Hd) (d : Name) (a : Name) (b : Name)
  /-- MUL (R156). -/
  | mul (h : Hd) (d : Name) (a : Name) (b : Name)
  /-- MULH (R156). -/
  | mulh (h : Hd) (d : Name) (a : Name) (b : Name)
  /-- MULHZ (R156). -/
  | mulhz (h : Hd) (d : Name) (a : Name) (b : Name)
  /-- DIV (R157). -/
  | div (h : Hd) (d : Name) (a : Name) (b : Name)
  /-- DIVZ (R157). -/
  | divz (h : Hd) (d : Name) (a : Name) (b : Name)
  /-- REM (R157). -/
  | rem (h : Hd) (d : Name) (a : Name) (b : Name)
  /-- REMZ (R157). -/
  | remz (h : Hd) (d : Name) (a : Name) (b : Name)
  /-- MIN (R156). -/
  | min (h : Hd) (d : Name) (a : Name) (b : Name)
  /-- MAX (R156). -/
  | max (h : Hd) (d : Name) (a : Name) (b : Name)
  /-- MINZ (R156). -/
  | minz (h : Hd) (d : Name) (a : Name) (b : Name)
  /-- MAXZ (R156). -/
  | maxz (h : Hd) (d : Name) (a : Name) (b : Name)
  /-- AND (R158). -/
  | andW (h : Hd) (d : Name) (a : Name) (b : Name)
  /-- OR (R158). -/
  | orW (h : Hd) (d : Name) (a : Name) (b : Name)
  /-- XOR (R158). -/
  | xor (h : Hd) (d : Name) (a : Name) (b : Name)
  /-- ANDN (R158). -/
  | andn (h : Hd) (d : Name) (a : Name) (b : Name)
  /-- ORN (R158). -/
  | orn (h : Hd) (d : Name) (a : Name) (b : Name)
  /-- XNOR (R158). -/
  | xnor (h : Hd) (d : Name) (a : Name) (b : Name)
  /-- LOGT (R159). -/
  | logt (h : Hd) (d : Name) (a : Name) (b : Name) (c : Name) (table : Nat)
  /-- SHL (R160). -/
  | shl (h : Hd) (d : Name) (a : Name) (b : Name)
  /-- SHR (R160). -/
  | shr (h : Hd) (d : Name) (a : Name) (b : Name)
  /-- SAR (R160). -/
  | sar (h : Hd) (d : Name) (a : Name) (b : Name)
  /-- ROT (R160). -/
  | rot (h : Hd) (d : Name) (a : Name) (b : Name)
  /-- FSHL (R161). -/
  | fshl (h : Hd) (d : Name) (a : Name) (b : Name) (c : Name)
  /-- FSHR (R161). -/
  | fshr (h : Hd) (d : Name) (a : Name) (b : Name) (c : Name)
  /-- CLZ (R162). -/
  | clz (h : Hd) (d : Name) (a : Name)
  /-- CTZ (R162). -/
  | ctz (h : Hd) (d : Name) (a : Name)
  /-- POPC (R162). -/
  | popc (h : Hd) (d : Name) (a : Name)
  /-- BREV (R162). -/
  | brev (h : Hd) (d : Name) (a : Name)
  /-- BSWAP (R162). -/
  | bswap (h : Hd) (d : Name) (a : Name)
  /-- MOV (R162). -/
  | mov (h : Hd) (d : Name) (a : Name)
  /-- SEXT (R163). -/
  | sext (h : Hd) (d : Name) (a : Name) (width1 : Nat)
  /-- ZEXT (R163). -/
  | zext (h : Hd) (d : Name) (a : Name) (width1 : Nat)
  /-- SEQ (R165). -/
  | seq (h : Hd) (d : Name) (a : Name) (b : Name)
  /-- SNE (R165). -/
  | sne (h : Hd) (d : Name) (a : Name) (b : Name)
  /-- SLT (R165). -/
  | slt (h : Hd) (d : Name) (a : Name) (b : Name)
  /-- SLTZ (R165). -/
  | sltz (h : Hd) (d : Name) (a : Name) (b : Name)
  /-- SEL (R165). -/
  | sel (h : Hd) (d : Name) (a : Name) (b : Name)
  /-- BFX (R164). -/
  | bfx (h : Hd) (d : Name) (a : Name) (pos : Nat) (width1 : Nat)
  /-- BFXZ (R164). -/
  | bfxz (h : Hd) (d : Name) (a : Name) (pos : Nat) (width1 : Nat)
  /-- BFI (R164). -/
  | bfi (h : Hd) (d : Name) (a : Name) (pos : Nat) (width1 : Nat)
  /-- ADDI (R166). -/
  | addi (h : Hd) (d : Name) (a : Name) (imm : Int)
  /-- ANDI (R166). -/
  | andi (h : Hd) (d : Name) (a : Name) (imm : Int)
  /-- ORI (R166). -/
  | ori (h : Hd) (d : Name) (a : Name) (imm : Int)
  /-- XORI (R166). -/
  | xori (h : Hd) (d : Name) (a : Name) (imm : Int)
  /-- SHLI (R166). -/
  | shli (h : Hd) (d : Name) (a : Name) (imm : Int)
  /-- SHRI (R166). -/
  | shri (h : Hd) (d : Name) (a : Name) (imm : Int)
  /-- SARI (R166). -/
  | sari (h : Hd) (d : Name) (a : Name) (imm : Int)
  /-- SLTI (R166). -/
  | slti (h : Hd) (d : Name) (a : Name) (imm : Int)
  /-- LI (R166). -/
  | li (h : Hd) (d : Name) (imm : Int)
  /-- BEQ (R167). -/
  | beq (h : Hd) (a : Name) (b : Name) (disp : Int)
  /-- BNE (R167). -/
  | bne (h : Hd) (a : Name) (b : Name) (disp : Int)
  /-- BLT (R167). -/
  | blt (h : Hd) (a : Name) (b : Name) (disp : Int)
  /-- BGE (R167). -/
  | bge (h : Hd) (a : Name) (b : Name) (disp : Int)
  /-- BLO (R167). -/
  | blo (h : Hd) (a : Name) (b : Name) (disp : Int)
  /-- BHS (R167). -/
  | bhs (h : Hd) (a : Name) (b : Name) (disp : Int)
  /-- BZ (R167). -/
  | bz (h : Hd) (a : Name) (disp : Int)
  /-- BNZ (R167). -/
  | bnz (h : Hd) (a : Name) (disp : Int)
  /-- J (R167). -/
  | j (h : Hd) (disp : Int)
  /-- RPT (R170). -/
  | rpt (h : Hd) (n1 : Nat) (steps : Nat) (stride : Nat)
  /-- LNS (R75). -/
  | lns (h : Hd) (a : Name)
  /-- LGET (R76). -/
  | lget (h : Hd) (d : Name)
  /-- LDRAIN (R77). -/
  | ldrain (h : Hd) (a : Name)
  /-- CALLC (R78). -/
  | callc (h : Hd) (k : Nat) (a : Name)
  /-- RET (R79). -/
  | ret (h : Hd) (k : Nat)
  /-- PARK (R80). -/
  | park (h : Hd) (a : Name) (b : Name)
  /-- TRAP (R81). -/
  | trap (h : Hd) (a : Name)
  /-- ERET (R82). -/
  | eret (h : Hd) 
  /-- CALL (R78). -/
  | call (h : Hd) (k : Nat) (disp : Int)
  /-- LSPILL (R83). -/
  | lspill (h : Hd) (d : Name) (a : Name) (b : Name)
  /-- LFILL (R83). -/
  | lfill (h : Hd) (d : Name) (a : Name) (b : Name)
  /-- LMOVE (R83). -/
  | lmove (h : Hd) (d : Name) (a : Name) (b : Name)
  /-- CGET (R107). -/
  | cget (h : Hd) (fsel : Nat) (d : Name) (a : Name)
  /-- CSETADDR (R108). -/
  | csetaddr (h : Hd) (d : Name) (a : Name) (b : Name)
  /-- CINCADDR (R108). -/
  | cincaddr (h : Hd) (d : Name) (a : Name) (b : Name)
  /-- CNARROW (R109). -/
  | cnarrow (h : Hd) (d : Name) (a : Name) (b : Name)
  /-- CNARROWX (R109). -/
  | cnarrowx (h : Hd) (d : Name) (a : Name) (b : Name)
  /-- CDROP (R110). -/
  | cdrop (h : Hd) (d : Name) (a : Name) (b : Name)
  /-- CRAISELBL (R111). -/
  | craiselbl (h : Hd) (d : Name) (a : Name) (b : Name)
  /-- CSEAL (R112). -/
  | cseal (h : Hd) (d : Name) (a : Name) (b : Name)
  /-- CUNSEAL (R113). -/
  | cunseal (h : Hd) (d : Name) (a : Name) (b : Name)
  /-- CGATE (R114). -/
  | cgate (h : Hd) (d : Name) (a : Name)
  /-- CSTRIP (R115). -/
  | cstrip (h : Hd) (d : Name) (a : Name)
  /-- CMOV (R115). -/
  | cmov (h : Hd) (d : Name) (a : Name)
  /-- CWITHIN (R116). -/
  | cwithin (h : Hd) (d : Name) (a : Name) (b : Name)
  /-- CFITLEN (R117). -/
  | cfitlen (h : Hd) (d : Name) (a : Name)
  /-- CFITMASK (R117). -/
  | cfitmask (h : Hd) (d : Name) (a : Name)
  /-- CINCADDRI (R108). -/
  | cincaddri (h : Hd) (d : Name) (a : Name) (imm : Int)
  /-- CRVMARK (R118). -/
  | crvmark (h : Hd) (a : Name) (b : Name)
  /-- CSWEEP (R119). -/
  | csweep (h : Hd) (a : Name)
  /-- LD_S8 (R215). -/
  | ldS8 (h : Hd) (d : Name) (a : Name) (off : Int)
  /-- LD_Z8 (R215). -/
  | ldZ8 (h : Hd) (d : Name) (a : Name) (off : Int)
  /-- LD_S16 (R215). -/
  | ldS16 (h : Hd) (d : Name) (a : Name) (off : Int)
  /-- LD_Z16 (R215). -/
  | ldZ16 (h : Hd) (d : Name) (a : Name) (off : Int)
  /-- LD_S32 (R215). -/
  | ldS32 (h : Hd) (d : Name) (a : Name) (off : Int)
  /-- LD_Z32 (R215). -/
  | ldZ32 (h : Hd) (d : Name) (a : Name) (off : Int)
  /-- LD_D (R215). -/
  | ldD (h : Hd) (d : Name) (a : Name) (off : Int)
  /-- ST_B (R215). -/
  | stB (h : Hd) (d : Name) (a : Name) (off : Int)
  /-- ST_H (R215). -/
  | stH (h : Hd) (d : Name) (a : Name) (off : Int)
  /-- ST_W (R215). -/
  | stW (h : Hd) (d : Name) (a : Name) (off : Int)
  /-- ST_D (R215). -/
  | stD (h : Hd) (d : Name) (a : Name) (off : Int)
  /-- LDC (R216). -/
  | ldc (h : Hd) (d : Name) (a : Name) (off : Int)
  /-- STC (R216). -/
  | stc (h : Hd) (d : Name) (a : Name) (off : Int)
  /-- LDV (R217). -/
  | ldv (h : Hd) (d : Name) (a : Name) (off : Int)
  /-- STV (R217). -/
  | stv (h : Hd) (d : Name) (a : Name) (off : Int)
  /-- LDA (R220). -/
  | lda (h : Hd) (d : Name) (a : Name) (off : Int) (typ : Ty) (ord : Ord) (scope : Scope)
  /-- STL (R220). -/
  | stl (h : Hd) (d : Name) (a : Name) (off : Int) (typ : Ty) (ord : Ord) (scope : Scope)
  /-- LDVG (R218). -/
  | ldvg (h : Hd) (d : Name) (a : Name) (b : Name) (off : Int) (mk : Nat) (typ : Ty)
  /-- LDVG_NF (R218). -/
  | ldvgNf (h : Hd) (d : Name) (a : Name) (b : Name) (c : Name) (off : Int) (mk : Nat) (typ : Ty)
  /-- STVS (R218). -/
  | stvs (h : Hd) (d : Name) (a : Name) (b : Name) (off : Int) (mk : Nat) (typ : Ty)
  /-- BSLEEP (R224). -/
  | bsleep (h : Hd) (g : Nat)
  /-- BWAKE (R224). -/
  | bwake (h : Hd) (g : Nat)
  /-- AMOADD_W (R222). -/
  | amoaddW (h : Hd) (d : Name) (a : Name) (b : Name) (off : Int) (ord : Ord) (scope : Scope)
  /-- AMOAND_W (R222). -/
  | amoandW (h : Hd) (d : Name) (a : Name) (b : Name) (off : Int) (ord : Ord) (scope : Scope)
  /-- AMOOR_W (R222). -/
  | amoorW (h : Hd) (d : Name) (a : Name) (b : Name) (off : Int) (ord : Ord) (scope : Scope)
  /-- AMOXOR_W (R222). -/
  | amoxorW (h : Hd) (d : Name) (a : Name) (b : Name) (off : Int) (ord : Ord) (scope : Scope)
  /-- AMOMIN_W (R222). -/
  | amominW (h : Hd) (d : Name) (a : Name) (b : Name) (off : Int) (ord : Ord) (scope : Scope)
  /-- AMOMAX_W (R222). -/
  | amomaxW (h : Hd) (d : Name) (a : Name) (b : Name) (off : Int) (ord : Ord) (scope : Scope)
  /-- AMOMINZ_W (R222). -/
  | amominzW (h : Hd) (d : Name) (a : Name) (b : Name) (off : Int) (ord : Ord) (scope : Scope)
  /-- AMOMAXZ_W (R222). -/
  | amomaxzW (h : Hd) (d : Name) (a : Name) (b : Name) (off : Int) (ord : Ord) (scope : Scope)
  /-- AMOSWAP_W (R222). -/
  | amoswapW (h : Hd) (d : Name) (a : Name) (b : Name) (off : Int) (ord : Ord) (scope : Scope)
  /-- AMOCAS_W (R222). -/
  | amocasW (h : Hd) (d : Name) (a : Name) (b : Name) (off : Int) (ord : Ord) (scope : Scope)
  /-- AMOADD_D (R222). -/
  | amoaddD (h : Hd) (d : Name) (a : Name) (b : Name) (off : Int) (ord : Ord) (scope : Scope)
  /-- AMOAND_D (R222). -/
  | amoandD (h : Hd) (d : Name) (a : Name) (b : Name) (off : Int) (ord : Ord) (scope : Scope)
  /-- AMOOR_D (R222). -/
  | amoorD (h : Hd) (d : Name) (a : Name) (b : Name) (off : Int) (ord : Ord) (scope : Scope)
  /-- AMOXOR_D (R222). -/
  | amoxorD (h : Hd) (d : Name) (a : Name) (b : Name) (off : Int) (ord : Ord) (scope : Scope)
  /-- AMOMIN_D (R222). -/
  | amominD (h : Hd) (d : Name) (a : Name) (b : Name) (off : Int) (ord : Ord) (scope : Scope)
  /-- AMOMAX_D (R222). -/
  | amomaxD (h : Hd) (d : Name) (a : Name) (b : Name) (off : Int) (ord : Ord) (scope : Scope)
  /-- AMOMINZ_D (R222). -/
  | amominzD (h : Hd) (d : Name) (a : Name) (b : Name) (off : Int) (ord : Ord) (scope : Scope)
  /-- AMOMAXZ_D (R222). -/
  | amomaxzD (h : Hd) (d : Name) (a : Name) (b : Name) (off : Int) (ord : Ord) (scope : Scope)
  /-- AMOSWAP_D (R222). -/
  | amoswapD (h : Hd) (d : Name) (a : Name) (b : Name) (off : Int) (ord : Ord) (scope : Scope)
  /-- AMOCAS_D (R222). -/
  | amocasD (h : Hd) (d : Name) (a : Name) (b : Name) (off : Int) (ord : Ord) (scope : Scope)
  /-- AMOCASC (R223). -/
  | amocasc (h : Hd) (d : Name) (a : Name) (b : Name) (off : Int) (ord : Ord) (scope : Scope)
  /-- WFE (R323). -/
  | wfe (h : Hd) (d : Name) (a : Name)
  /-- SEV (R324). -/
  | sev (h : Hd) (a : Name) (b : Name)
  /-- BARA (R325). -/
  | bara (h : Hd) (a : Name)
  /-- BARW (R325). -/
  | barw (h : Hd) (a : Name)
  /-- SEMP (R326). -/
  | semp (h : Hd) (a : Name)
  /-- SEMV (R326). -/
  | semv (h : Hd) (a : Name)
  /-- FENCE (R312). -/
  | fence (h : Hd) (ord : Ord) (scope : Scope)
  /-- WAITVA (R319). -/
  | waitva (h : Hd) (a : Name) (b : Name) (ord : Ord) (scope : Scope)
  /-- WAKEVA (R320). -/
  | wakeva (h : Hd) (a : Name) (b : Name) (ord : Ord) (scope : Scope)
  /-- MPOST (R328). -/
  | mpost (h : Hd) (a : Name) (b : Name) (ord : Ord) (scope : Scope)
  /-- SEND (R328). -/
  | send (h : Hd) (a : Name) (b : Name) (ord : Ord) (scope : Scope)
  /-- RECV (R329). -/
  | recv (h : Hd) (d : Name) (a : Name) (ord : Ord) (scope : Scope)
  /-- VADD (R184). -/
  | vadd (h : Hd) (d : Name) (a : Name) (b : Name) (mk : Nat) (typ : Ty)
  /-- VSUB (R184). -/
  | vsub (h : Hd) (d : Name) (a : Name) (b : Name) (mk : Nat) (typ : Ty)
  /-- VMUL (R184). -/
  | vmul (h : Hd) (d : Name) (a : Name) (b : Name) (mk : Nat) (typ : Ty)
  /-- VMAD (R184). -/
  | vmad (h : Hd) (d : Name) (a : Name) (b : Name) (mk : Nat) (typ : Ty)
  /-- VMIN (R184). -/
  | vmin (h : Hd) (d : Name) (a : Name) (b : Name) (mk : Nat) (typ : Ty)
  /-- VMAX (R184). -/
  | vmax (h : Hd) (d : Name) (a : Name) (b : Name) (mk : Nat) (typ : Ty)
  /-- VAND (R184). -/
  | vand (h : Hd) (d : Name) (a : Name) (b : Name) (mk : Nat) (typ : Ty)
  /-- VOR (R184). -/
  | vor (h : Hd) (d : Name) (a : Name) (b : Name) (mk : Nat) (typ : Ty)
  /-- VXOR (R184). -/
  | vxor (h : Hd) (d : Name) (a : Name) (b : Name) (mk : Nat) (typ : Ty)
  /-- VSHL (R184). -/
  | vshl (h : Hd) (d : Name) (a : Name) (b : Name) (mk : Nat) (typ : Ty)
  /-- VSHR (R184). -/
  | vshr (h : Hd) (d : Name) (a : Name) (b : Name) (mk : Nat) (typ : Ty)
  /-- VSAR (R184). -/
  | vsar (h : Hd) (d : Name) (a : Name) (b : Name) (mk : Nat) (typ : Ty)
  /-- VABS (R184). -/
  | vabs (h : Hd) (d : Name) (a : Name) (mk : Nat) (typ : Ty)
  /-- VNEG (R184). -/
  | vneg (h : Hd) (d : Name) (a : Name) (mk : Nat) (typ : Ty)
  /-- VLOGT (R185). -/
  | vlogt (h : Hd) (d : Name) (a : Name) (b : Name) (c : Name) (table : Nat) (mk : Nat) (typ : Ty)
  /-- VCMP (R189). -/
  | vcmp (h : Hd) (d : Name) (a : Name) (b : Name) (cc : Nat) (mk : Nat) (typ : Ty)
  /-- VSEL (R190). -/
  | vsel (h : Hd) (d : Name) (a : Name) (b : Name) (mk : Nat) (typ : Ty)
  /-- VBCAST (R190). -/
  | vbcast (h : Hd) (d : Name) (a : Name) (mk : Nat) (typ : Ty)
  /-- VEXT (R191). -/
  | vext (h : Hd) (d : Name) (a : Name) (b : Name) (typ : Ty)
  /-- VINS (R191). -/
  | vins (h : Hd) (d : Name) (a : Name) (b : Name) (typ : Ty)
  /-- VPERM (R192). -/
  | vperm (h : Hd) (d : Name) (a : Name) (b : Name) (mk : Nat) (typ : Ty)
  /-- VRED (R193). -/
  | vred (h : Hd) (d : Name) (a : Name) (op : Nat) (mk : Nat) (typ : Ty)
  /-- VFADD (R186). -/
  | vfadd (h : Hd) (d : Name) (a : Name) (b : Name) (mk : Nat) (typ : Ty)
  /-- VFSUB (R186). -/
  | vfsub (h : Hd) (d : Name) (a : Name) (b : Name) (mk : Nat) (typ : Ty)
  /-- VFMUL (R186). -/
  | vfmul (h : Hd) (d : Name) (a : Name) (b : Name) (mk : Nat) (typ : Ty)
  /-- VFMA (R186). -/
  | vfma (h : Hd) (d : Name) (a : Name) (b : Name) (mk : Nat) (typ : Ty)
  /-- VFNMA (R186). -/
  | vfnma (h : Hd) (d : Name) (a : Name) (b : Name) (mk : Nat) (typ : Ty)
  /-- VFMIN (R186). -/
  | vfmin (h : Hd) (d : Name) (a : Name) (b : Name) (mk : Nat) (typ : Ty)
  /-- VFMAX (R186). -/
  | vfmax (h : Hd) (d : Name) (a : Name) (b : Name) (mk : Nat) (typ : Ty)
  /-- VFDIV (R186). -/
  | vfdiv (h : Hd) (d : Name) (a : Name) (b : Name) (mk : Nat) (typ : Ty)
  /-- VFSQRT (R187). -/
  | vfsqrt (h : Hd) (d : Name) (a : Name) (mk : Nat) (typ : Ty)
  /-- VFRCP (R187). -/
  | vfrcp (h : Hd) (d : Name) (a : Name) (mk : Nat) (typ : Ty)
  /-- VFRSQ (R187). -/
  | vfrsq (h : Hd) (d : Name) (a : Name) (mk : Nat) (typ : Ty)
  /-- VFEXP2 (R187). -/
  | vfexp2 (h : Hd) (d : Name) (a : Name) (mk : Nat) (typ : Ty)
  /-- VFLOG2 (R187). -/
  | vflog2 (h : Hd) (d : Name) (a : Name) (mk : Nat) (typ : Ty)
  /-- VFTANH (R187). -/
  | vftanh (h : Hd) (d : Name) (a : Name) (mk : Nat) (typ : Ty)
  /-- VCVT (R194). -/
  | vcvt (h : Hd) (d : Name) (a : Name) (st : Nat) (rm : Nat) (mk : Nat) (typ : Ty)
  /-- VQUANT (R195). -/
  | vquant (h : Hd) (d : Name) (a : Name) (typ : Ty)
  /-- VDEQ (R196). -/
  | vdeq (h : Hd) (d : Name) (a : Name) (typ : Ty)
  /-- XMAX (R197). -/
  | xmax (h : Hd) (d : Name) (a : Name) (typ : Ty)
  /-- VBADDQ (R200). -/
  | vbaddq (h : Hd) (d : Name) (a : Name) (b : Name) (typ : Ty)
  /-- MLOAD (R248). -/
  | mload (h : Hd) (d : Name) (a : Name) (tb : Nat) (mac : Nat) (plane : Nat) (typ : Ty)
  /-- MSWAP (R249). -/
  | mswap (h : Hd) (d : Name) (tb : Nat) (mask : Nat)
  /-- MRUN (R250). -/
  | mrun (h : Hd) (d : Name) (a : Name) (b : Name) (tb : Nat) (bound1 : Nat) (typ : Ty) (lit : BitVec 64)
  /-- MDRAIN (R251). -/
  | mdrain (h : Hd) (d : Name) (a : Name) (b : Name) (tb : Nat) (scope : Scope) (lit : BitVec 64)
  /-- MSLOT (R252). -/
  | mslot (h : Hd) (a : Name) (slot : Nat)
  /-- MSTAT (R253). -/
  | mstat (h : Hd) (d : Name) (fsel : Nat)
  /-- CPY (R272). -/
  | cpy (h : Hd) (d : Name) (a : Name) (b : Name) (tb : Nat) (scope : Scope) (lit : BitVec 64)
  /-- CPYM (R273). -/
  | cpym (h : Hd) (d : Name) (a : Name) (b : Name) (tb : Nat) (mk : Nat) (scope : Scope) (lit : BitVec 64)
  /-- CONV (R274). -/
  | conv (h : Hd) (d : Name) (a : Name) (b : Name) (tb : Nat) (typ : Ty) (scope : Scope) (lit : BitVec 64)
  /-- JWAIT (R275). -/
  | jwait (h : Hd) (d : Name) (a : Name) (b : Name) (tb : Nat) (slotm : Nat)
  /-- JSTAT (R276). -/
  | jstat (h : Hd) (d : Name) (a : Name) (tb : Nat) (slotm : Nat)
  /-- JCANCEL (R277). -/
  | jcancel (h : Hd) (d : Name) (a : Name)
  /-- GANG (R297). -/
  | gang (h : Hd) (lg : Nat)
  /-- SPLIT (R298). -/
  | split (h : Hd) 
  /-- MPAIR (R299). -/
  | mpair (h : Hd) 
  /-- MUNPAIR (R299). -/
  | munpair (h : Hd) 
  /-- MCHK (R300). -/
  | mchk (h : Hd) (d : Name)
  /-- QPUSH (R356). -/
  | qpush (h : Hd) (d : Name) (a : Name) (b : Name) (rsv : Nat)
  /-- QPUSH_WAIT (R356). -/
  | qpushWait (h : Hd) (d : Name) (a : Name) (b : Name)
  /-- QPOP (R357). -/
  | qpop (h : Hd) (d : Name) (a : Name)
  /-- QPOPG (R358). -/
  | qpopg (h : Hd) (d : Name) (a : Name)
  /-- QSTAT (R359). -/
  | qstat (h : Hd) (d : Name) (a : Name)
  /-- SPAWN (R378). -/
  | spawn (h : Hd) (d : Name) (b : Name)
  /-- SHAPE (R379). -/
  | shape (h : Hd) (d : Name) (dim : Nat)
  /-- KSTAT (R380). -/
  | kstat (h : Hd) (d : Name) (fsel : Nat)
  /-- PRPUSH (R402). -/
  | prpush (h : Hd) (d : Name) (a : Name) (b : Name)
  /-- PRPOP (R403). -/
  | prpop (h : Hd) (d : Name) (a : Name)
  /-- PRCLASS (R404). -/
  | prclass (h : Hd) (d : Name) (a : Name) (b : Name)
  /-- PTWR (R405). -/
  | ptwr (h : Hd) (d : Name) (a : Name) (b : Name) (c : Name) (item : Nat) (kind : Nat)
  /-- PTRD (R406). -/
  | ptrd (h : Hd) (d : Name) (a : Name) (b : Name) (item : Nat) (bank : Nat) (half : Nat)
  /-- PTFLIP (R407). -/
  | ptflip (h : Hd) (a : Name) (mask : Nat)
  /-- TLBW (R427). -/
  | tlbw (h : Hd) (d : Name) (a : Name) (b : Name)
  /-- TLBI (R428). -/
  | tlbi (h : Hd) (a : Name) (b : Name) (ext : Nat)
  /-- FRPOP (R429). -/
  | frpop (h : Hd) (d : Name) (src : Nat)
  /-- CRESUME (R430). -/
  | cresume (h : Hd) (d : Name) (a : Name) (kill : Nat)
  /-- DECL (R442). -/
  | decl (h : Hd) (a : Name) (b : Name)
  /-- SRD (R479). -/
  | srd (h : Hd) (d : Name) (reg : Nat)
  /-- SWR (R479). -/
  | swr (h : Hd) (a : Name) (reg : Nat)
  /-- BKPT (R480). -/
  | bkpt (h : Hd) 
  /-- HALT (R481). -/
  | halt (h : Hd) 
  /-- ILLEGAL_ENCODING (R44), an event. -/
  | illegalEncoding (word : Nat)
  /-- PACKAGE_RESET (R470), an event. -/
  | packageReset (ep : Bool) (stage : BringUp) (hdr : Nat)
  /-- IFETCH_LINE_MISS (R14), an event. -/
  | ifetchLineMiss (p : Nat) (line : Nat)
  /-- TRAP_DELIVERY (R69), an event. -/
  | trapDelivery (p : Nat)
  /-- ASYNC_CAUSE_DELIVERY (R482), an event. -/
  | asyncCauseDelivery (p : Nat)
  /-- PTIMER_EXPIRY (R477), an event. -/
  | ptimerExpiry (p : Nat)
  /-- EXTIRQ (R303), an event. -/
  | extirq (p : Nat)
  /-- LATE_WRITE_LAND (R48), an event. -/
  | lateWriteLand (p : Nat) (id : Nat)
  /-- SPILL_ENGINE_MOVE (R66), an event. -/
  | spillEngineMove (p : Nat)
  /-- FP_EVENT_STOP (R143), an event. -/
  | fpEventStop (p : Nat)
  /-- FP_REPLY_RESUME (R145), an event. -/
  | fpReplyResume (p : Nat) (sq : Nat)
  /-- FP_REPLY_CONVERT (R145), an event. -/
  | fpReplyConvert (p : Nat) (sq : Nat) (cause : Nat)
  /-- PORT_ACCESS (R206), an event. -/
  | portAccess (p : Nat) (src : Nat)
  /-- STORE_ACK (R207), an event. -/
  | storeAck (p : Nat) (id : Nat)
  /-- ACCESS_RETRY (R207), an event. -/
  | accessRetry (p : Nat)
  /-- GROUP_WAKE_COMPLETE (R210), an event. -/
  | groupWakeComplete (p : Nat) (g : Nat)
  /-- XMAX_CONTRIBUTION_ARRIVE (R197), an event. -/
  | xmaxContributionArrive (p : Nat) (src : Nat)
  /-- XMAX_TIMEOUT (R198), an event. -/
  | xmaxTimeout (p : Nat)
  /-- MATRIX_CARD_START (R237), an event. -/
  | matrixCardStart (t : Nat) (e : Nat)
  /-- MLOAD_END (R248), an event. -/
  | mloadEnd (t : Nat) (e : Nat) (n : Nat)
  /-- MRUN_END (R250), an event. -/
  | mrunEnd (t : Nat) (e : Nat) (n : Nat)
  /-- MDRAIN_END (R251), an event. -/
  | mdrainEnd (t : Nat) (e : Nat) (n : Nat)
  /-- MRUN_WATCHDOG (R243), an event. -/
  | mrunWatchdog (t : Nat) (e : Nat)
  /-- MATRIX_SLOT_BOUNDARY (R240), an event. -/
  | matrixSlotBoundary (t : Nat) (n : Nat)
  /-- NOSLOT_TIMEOUT (R252), an event. -/
  | noslotTimeout (t : Nat) (e : Nat)
  /-- CARD_START (R260), an event. -/
  | cardStart (t : Nat) (e : Nat)
  /-- CARD_END (R256), an event. -/
  | cardEnd (t : Nat) (e : Nat) (n : Nat)
  /-- TLB_PROBE_RESULT (R414), an event. -/
  | tlbProbeResult (t : Nat) (m : Nat)
  /-- FAULT_RECORD_POST (R421), an event. -/
  | faultRecordPost (t : Nat) (e : Nat)
  /-- INBOX_MESSAGE_ENTER (R313), an event. -/
  | inboxMessageEnter (p : Nat) (k : Nat)
  /-- EVENT_SIGNAL_ARRIVE (R324), an event. -/
  | eventSignalArrive (p : Nat)
  /-- QUEUE_SEGMENT_REFILL (R345), an event. -/
  | queueSegmentRefill (n : Nat)
  /-- QUEUE_RING_ERROR (R346), an event. -/
  | queueRingError (n : Nat)
  /-- QUEUE_STATE_ON (R346), an event. -/
  | queueStateOn (n : Nat) (cfg : Nat) (ringLo : Nat) (ringHi : Nat)
  /-- QUEUE_STATE_STOP (R346), an event. -/
  | queueStateStop (n : Nat) (cfg : Nat) (ringLo : Nat) (ringHi : Nat)
  /-- QUEUE_STATE_OFF (R346), an event. -/
  | queueStateOff (n : Nat) (cfg : Nat) (ringLo : Nat) (ringHi : Nat)
  /-- QUEUE_DOORBELL (R352), an event. -/
  | queueDoorbell (n : Nat) (tail : Nat)
  /-- LAUNCH_DISPATCH (R362), an event. -/
  | launchDispatch (d : Nat)
  /-- TEAM_PLACEMENT (R370), an event. -/
  | teamPlacement (k : Nat) (t : Nat)
  /-- PAR_SLICE_EXPIRY (R367), an event. -/
  | parSliceExpiry (t : Nat)
  /-- TEAM_SWAP_OUT_COMPLETE (R280), an event. -/
  | teamSwapOutComplete (t : Nat)
  /-- TEAM_SWAP_IN_COMPLETE (R280), an event. -/
  | teamSwapInComplete (t : Nat)
  /-- KERNEL_COMPLETION (R375), an event. -/
  | kernelCompletion (k : Nat)
  /-- KERNEL_ABORT (R376), an event. -/
  | kernelAbort (k : Nat)
  /-- CHAIN_RECORD_ENTER (R384), an event. -/
  | chainRecordEnter (c : Nat)
  /-- CHAIN_RECORD_EXIT (R393), an event. -/
  | chainRecordExit (c : Nat)
  /-- CHAIN_RECIRCULATE (R395), an event. -/
  | chainRecirculate (c : Nat)
  /-- BANK_FLIP (R399), an event. -/
  | bankFlip (c : Nat)
  /-- BANK_DRAIN_COMPLETE (R398), an event. -/
  | bankDrainComplete (c : Nat) (item : Nat) (bank : Nat)
  /-- GANG_FUSE (R283), an event. -/
  | gangFuse (p : Nat)
  /-- MIRROR_COPY_COMPLETE (R288), an event. -/
  | mirrorCopyComplete (p : Nat)
  /-- MIRROR_INTERVAL_END (R291), an event. -/
  | mirrorIntervalEnd (p : Nat)
  /-- MIRROR_COMPARE (R291), an event. -/
  | mirrorCompare (p : Nat)
  /-- SWEEP_CORE_CHECK (R103), an event. -/
  | sweepCoreCheck (p : Nat)
  /-- SWEEP_CHECK_TIMEOUT (R103), an event. -/
  | sweepCheckTimeout (p : Nat)
  /-- SWEEP_COMPLETE (R104), an event. -/
  | sweepComplete (part : Nat)
  /-- HBM_SCRUB (R424), an event. -/
  | hbmScrub (burst : Nat) (bad : Nat)
  /-- PC_DROP_REPAIR (R423), an event. -/
  | pcDropRepair (pc : Nat)
  /-- PARTITION_TABLE_WRITE (R433), an event. -/
  | partitionTableWrite (part : Nat) (entry : TableRequest)
  /-- PARTITION_START (R435), an event. -/
  | partitionStart (part : Nat) (root : Nat)
  /-- PARTITION_STOP (R435), an event. -/
  | partitionStop (part : Nat) (why : Nat)
  /-- PARTITION_STOP_COMPLETE (R338), an event. -/
  | partitionStopComplete (part : Nat)
  /-- PARTITION_RESUME (R435), an event. -/
  | partitionResume (part : Nat)
  /-- PARTITION_RELEASE (R435), an event. -/
  | partitionRelease (part : Nat) (enc : Nat) (key : Nat)
  /-- SHARED_SLOT_START (R436), an event. -/
  | sharedSlotStart (part : Nat)
  /-- CORE_EVICT (R437), an event. -/
  | coreEvict (p : Nat)
  /-- CORE_RESTORE (R437), an event. -/
  | coreRestore (p : Nat)
  /-- FW_IMAGE_STAGE (R446), an event. -/
  | fwImageStage (image : List (BitVec 8)) (ctr : Nat) (sigOk : Bool)
  /-- FW_UPDATE_ACK (R446), an event. -/
  | fwUpdateAck (part : Nat)
  /-- FW_UPDATE_WITHDRAW (R446), an event. -/
  | fwUpdateWithdraw 
  /-- FW_ACTIVATE (R446), an event. -/
  | fwActivate 
  /-- ATTEST_EVIDENCE (R443), an event. -/
  | attestEvidence (part : Nat) (nonce : List (BitVec 8))
  /-- SECRET_UNWRAP (R445), an event. -/
  | secretUnwrap (part : Nat) (layout : Nat) (wrapped : List (BitVec 8))
  /-- KEY_HANDLE_BIND (R453), an event. -/
  | keyHandleBind (part : Nat) (k : Nat) (layout : Nat) (wrapped : List (BitVec 8)) (iv : Nat)
  /-- APERTURE_WRITE (R450), an event. -/
  | apertureWrite (part : Nat) (k : Nat) (lo : Nat) (hi : Nat)
  /-- PORT_TABLE_WRITE (R458), an event. -/
  | portTableWrite (port : Nat) (off : Nat) (val : Nat)
  /-- PORT_YIELD (R464), an event. -/
  | portYield (port : Nat)
  /-- SPARE_REMAP (R472), an event. -/
  | spareRemap (part : Nat) (rank : Nat)
  /-- CORE_KILL (R471), an event. -/
  | coreKill (p : Nat) (rsn : Nat) (idx : Nat)
  /-- INBOUND_WRITE (R451), an event. -/
  | inboundWrite (fn : Nat) (bar : Nat) (off : Nat) (data : List (BitVec 8))
  /-- INBOUND_PIECE_SEND (R451), an event. -/
  | inboundPieceSend (fn : Nat) (id : Nat)
  /-- INBOUND_PIECE_ACK (R451), an event. -/
  | inboundPieceAck (fn : Nat) (id : Nat)
  /-- HOST_READ (R449), an event. -/
  | hostRead (fn : Nat) (bar : Nat) (off : Nat) (n : Nat)
  /-- HOST_CORE_DOORBELL (R449), an event. -/
  | hostCoreDoorbell (fn : Nat) (rank : Nat)
  /-- REGISTRATION_REGISTER (R455), an event. -/
  | registrationRegister (fn : Nat)
  /-- HOST_WAIT_REGISTER (R318), an event. -/
  | hostWaitRegister (fn : Nat) (addr : Nat) (val : Nat) (line : Nat)
  /-- REGISTER_WRITE (R449), an event. -/
  | registerWrite (fn : Nat) (reg : Nat) (x : Nat) (y : Nat)
  /-- HOST_WARM_RESTART (R455), an event. -/
  | hostWarmRestart (fn : Nat)
  /-- BLOCK_ENTRY_SEND (R460), an event. -/
  | blockEntrySend (port : Nat)
  /-- BLOCK_PACKET_RECEIVE (R456), an event. -/
  | blockPacketReceive (port : Nat) (src : Nat) (data : List (BitVec 8)) (label : Nat)
  /-- BLOCK_LANE_DELIVER (R461), an event. -/
  | blockLaneDeliver (port : Nat) (lane : Nat)
  /-- MIGRATION_CUT (R465), an event. -/
  | migrationCut (part : Nat)
  /-- CUT_MARK_RECEIVE (R465), an event. -/
  | cutMarkReceive (port : Nat) (src : Nat)
  /-- MIGRATION_RESTORE (R465), an event. -/
  | migrationRestore (part : Nat) (peers : MigrationImage)
  /-- KUSTAD_LINK_STATE_CHANGE (R458), an event. -/
  | kustadLinkStateChange (port : Nat) (link : Nat)
  deriving DecidableEq, Repr

/-- The header of an instruction; an event has none. -/
def Instr.hd : Instr → Option Hd
  | .add h _ _ _ => some h
  | .sub h _ _ _ => some h
  | .mul h _ _ _ => some h
  | .mulh h _ _ _ => some h
  | .mulhz h _ _ _ => some h
  | .div h _ _ _ => some h
  | .divz h _ _ _ => some h
  | .rem h _ _ _ => some h
  | .remz h _ _ _ => some h
  | .min h _ _ _ => some h
  | .max h _ _ _ => some h
  | .minz h _ _ _ => some h
  | .maxz h _ _ _ => some h
  | .andW h _ _ _ => some h
  | .orW h _ _ _ => some h
  | .xor h _ _ _ => some h
  | .andn h _ _ _ => some h
  | .orn h _ _ _ => some h
  | .xnor h _ _ _ => some h
  | .logt h _ _ _ _ _ => some h
  | .shl h _ _ _ => some h
  | .shr h _ _ _ => some h
  | .sar h _ _ _ => some h
  | .rot h _ _ _ => some h
  | .fshl h _ _ _ _ => some h
  | .fshr h _ _ _ _ => some h
  | .clz h _ _ => some h
  | .ctz h _ _ => some h
  | .popc h _ _ => some h
  | .brev h _ _ => some h
  | .bswap h _ _ => some h
  | .mov h _ _ => some h
  | .sext h _ _ _ => some h
  | .zext h _ _ _ => some h
  | .seq h _ _ _ => some h
  | .sne h _ _ _ => some h
  | .slt h _ _ _ => some h
  | .sltz h _ _ _ => some h
  | .sel h _ _ _ => some h
  | .bfx h _ _ _ _ => some h
  | .bfxz h _ _ _ _ => some h
  | .bfi h _ _ _ _ => some h
  | .addi h _ _ _ => some h
  | .andi h _ _ _ => some h
  | .ori h _ _ _ => some h
  | .xori h _ _ _ => some h
  | .shli h _ _ _ => some h
  | .shri h _ _ _ => some h
  | .sari h _ _ _ => some h
  | .slti h _ _ _ => some h
  | .li h _ _ => some h
  | .beq h _ _ _ => some h
  | .bne h _ _ _ => some h
  | .blt h _ _ _ => some h
  | .bge h _ _ _ => some h
  | .blo h _ _ _ => some h
  | .bhs h _ _ _ => some h
  | .bz h _ _ => some h
  | .bnz h _ _ => some h
  | .j h _ => some h
  | .rpt h _ _ _ => some h
  | .lns h _ => some h
  | .lget h _ => some h
  | .ldrain h _ => some h
  | .callc h _ _ => some h
  | .ret h _ => some h
  | .park h _ _ => some h
  | .trap h _ => some h
  | .eret h => some h
  | .call h _ _ => some h
  | .lspill h _ _ _ => some h
  | .lfill h _ _ _ => some h
  | .lmove h _ _ _ => some h
  | .cget h _ _ _ => some h
  | .csetaddr h _ _ _ => some h
  | .cincaddr h _ _ _ => some h
  | .cnarrow h _ _ _ => some h
  | .cnarrowx h _ _ _ => some h
  | .cdrop h _ _ _ => some h
  | .craiselbl h _ _ _ => some h
  | .cseal h _ _ _ => some h
  | .cunseal h _ _ _ => some h
  | .cgate h _ _ => some h
  | .cstrip h _ _ => some h
  | .cmov h _ _ => some h
  | .cwithin h _ _ _ => some h
  | .cfitlen h _ _ => some h
  | .cfitmask h _ _ => some h
  | .cincaddri h _ _ _ => some h
  | .crvmark h _ _ => some h
  | .csweep h _ => some h
  | .ldS8 h _ _ _ => some h
  | .ldZ8 h _ _ _ => some h
  | .ldS16 h _ _ _ => some h
  | .ldZ16 h _ _ _ => some h
  | .ldS32 h _ _ _ => some h
  | .ldZ32 h _ _ _ => some h
  | .ldD h _ _ _ => some h
  | .stB h _ _ _ => some h
  | .stH h _ _ _ => some h
  | .stW h _ _ _ => some h
  | .stD h _ _ _ => some h
  | .ldc h _ _ _ => some h
  | .stc h _ _ _ => some h
  | .ldv h _ _ _ => some h
  | .stv h _ _ _ => some h
  | .lda h _ _ _ _ _ _ => some h
  | .stl h _ _ _ _ _ _ => some h
  | .ldvg h _ _ _ _ _ _ => some h
  | .ldvgNf h _ _ _ _ _ _ _ => some h
  | .stvs h _ _ _ _ _ _ => some h
  | .bsleep h _ => some h
  | .bwake h _ => some h
  | .amoaddW h _ _ _ _ _ _ => some h
  | .amoandW h _ _ _ _ _ _ => some h
  | .amoorW h _ _ _ _ _ _ => some h
  | .amoxorW h _ _ _ _ _ _ => some h
  | .amominW h _ _ _ _ _ _ => some h
  | .amomaxW h _ _ _ _ _ _ => some h
  | .amominzW h _ _ _ _ _ _ => some h
  | .amomaxzW h _ _ _ _ _ _ => some h
  | .amoswapW h _ _ _ _ _ _ => some h
  | .amocasW h _ _ _ _ _ _ => some h
  | .amoaddD h _ _ _ _ _ _ => some h
  | .amoandD h _ _ _ _ _ _ => some h
  | .amoorD h _ _ _ _ _ _ => some h
  | .amoxorD h _ _ _ _ _ _ => some h
  | .amominD h _ _ _ _ _ _ => some h
  | .amomaxD h _ _ _ _ _ _ => some h
  | .amominzD h _ _ _ _ _ _ => some h
  | .amomaxzD h _ _ _ _ _ _ => some h
  | .amoswapD h _ _ _ _ _ _ => some h
  | .amocasD h _ _ _ _ _ _ => some h
  | .amocasc h _ _ _ _ _ _ => some h
  | .wfe h _ _ => some h
  | .sev h _ _ => some h
  | .bara h _ => some h
  | .barw h _ => some h
  | .semp h _ => some h
  | .semv h _ => some h
  | .fence h _ _ => some h
  | .waitva h _ _ _ _ => some h
  | .wakeva h _ _ _ _ => some h
  | .mpost h _ _ _ _ => some h
  | .send h _ _ _ _ => some h
  | .recv h _ _ _ _ => some h
  | .vadd h _ _ _ _ _ => some h
  | .vsub h _ _ _ _ _ => some h
  | .vmul h _ _ _ _ _ => some h
  | .vmad h _ _ _ _ _ => some h
  | .vmin h _ _ _ _ _ => some h
  | .vmax h _ _ _ _ _ => some h
  | .vand h _ _ _ _ _ => some h
  | .vor h _ _ _ _ _ => some h
  | .vxor h _ _ _ _ _ => some h
  | .vshl h _ _ _ _ _ => some h
  | .vshr h _ _ _ _ _ => some h
  | .vsar h _ _ _ _ _ => some h
  | .vabs h _ _ _ _ => some h
  | .vneg h _ _ _ _ => some h
  | .vlogt h _ _ _ _ _ _ _ => some h
  | .vcmp h _ _ _ _ _ _ => some h
  | .vsel h _ _ _ _ _ => some h
  | .vbcast h _ _ _ _ => some h
  | .vext h _ _ _ _ => some h
  | .vins h _ _ _ _ => some h
  | .vperm h _ _ _ _ _ => some h
  | .vred h _ _ _ _ _ => some h
  | .vfadd h _ _ _ _ _ => some h
  | .vfsub h _ _ _ _ _ => some h
  | .vfmul h _ _ _ _ _ => some h
  | .vfma h _ _ _ _ _ => some h
  | .vfnma h _ _ _ _ _ => some h
  | .vfmin h _ _ _ _ _ => some h
  | .vfmax h _ _ _ _ _ => some h
  | .vfdiv h _ _ _ _ _ => some h
  | .vfsqrt h _ _ _ _ => some h
  | .vfrcp h _ _ _ _ => some h
  | .vfrsq h _ _ _ _ => some h
  | .vfexp2 h _ _ _ _ => some h
  | .vflog2 h _ _ _ _ => some h
  | .vftanh h _ _ _ _ => some h
  | .vcvt h _ _ _ _ _ _ => some h
  | .vquant h _ _ _ => some h
  | .vdeq h _ _ _ => some h
  | .xmax h _ _ _ => some h
  | .vbaddq h _ _ _ _ => some h
  | .mload h _ _ _ _ _ _ => some h
  | .mswap h _ _ _ => some h
  | .mrun h _ _ _ _ _ _ _ => some h
  | .mdrain h _ _ _ _ _ _ => some h
  | .mslot h _ _ => some h
  | .mstat h _ _ => some h
  | .cpy h _ _ _ _ _ _ => some h
  | .cpym h _ _ _ _ _ _ _ => some h
  | .conv h _ _ _ _ _ _ _ => some h
  | .jwait h _ _ _ _ _ => some h
  | .jstat h _ _ _ _ => some h
  | .jcancel h _ _ => some h
  | .gang h _ => some h
  | .split h => some h
  | .mpair h => some h
  | .munpair h => some h
  | .mchk h _ => some h
  | .qpush h _ _ _ _ => some h
  | .qpushWait h _ _ _ => some h
  | .qpop h _ _ => some h
  | .qpopg h _ _ => some h
  | .qstat h _ _ => some h
  | .spawn h _ _ => some h
  | .shape h _ _ => some h
  | .kstat h _ _ => some h
  | .prpush h _ _ _ => some h
  | .prpop h _ _ => some h
  | .prclass h _ _ _ => some h
  | .ptwr h _ _ _ _ _ _ => some h
  | .ptrd h _ _ _ _ _ _ => some h
  | .ptflip h _ _ => some h
  | .tlbw h _ _ _ => some h
  | .tlbi h _ _ _ => some h
  | .frpop h _ _ => some h
  | .cresume h _ _ _ => some h
  | .decl h _ _ => some h
  | .srd h _ _ => some h
  | .swr h _ _ => some h
  | .bkpt h => some h
  | .halt h => some h
  | .illegalEncoding _ => none
  | .packageReset _ _ _ => none
  | .ifetchLineMiss _ _ => none
  | .trapDelivery _ => none
  | .asyncCauseDelivery _ => none
  | .ptimerExpiry _ => none
  | .extirq _ => none
  | .lateWriteLand _ _ => none
  | .spillEngineMove _ => none
  | .fpEventStop _ => none
  | .fpReplyResume _ _ => none
  | .fpReplyConvert _ _ _ => none
  | .portAccess _ _ => none
  | .storeAck _ _ => none
  | .accessRetry _ => none
  | .groupWakeComplete _ _ => none
  | .xmaxContributionArrive _ _ => none
  | .xmaxTimeout _ => none
  | .matrixCardStart _ _ => none
  | .mloadEnd _ _ _ => none
  | .mrunEnd _ _ _ => none
  | .mdrainEnd _ _ _ => none
  | .mrunWatchdog _ _ => none
  | .matrixSlotBoundary _ _ => none
  | .noslotTimeout _ _ => none
  | .cardStart _ _ => none
  | .cardEnd _ _ _ => none
  | .tlbProbeResult _ _ => none
  | .faultRecordPost _ _ => none
  | .inboxMessageEnter _ _ => none
  | .eventSignalArrive _ => none
  | .queueSegmentRefill _ => none
  | .queueRingError _ => none
  | .queueStateOn _ _ _ _ => none
  | .queueStateStop _ _ _ _ => none
  | .queueStateOff _ _ _ _ => none
  | .queueDoorbell _ _ => none
  | .launchDispatch _ => none
  | .teamPlacement _ _ => none
  | .parSliceExpiry _ => none
  | .teamSwapOutComplete _ => none
  | .teamSwapInComplete _ => none
  | .kernelCompletion _ => none
  | .kernelAbort _ => none
  | .chainRecordEnter _ => none
  | .chainRecordExit _ => none
  | .chainRecirculate _ => none
  | .bankFlip _ => none
  | .bankDrainComplete _ _ _ => none
  | .gangFuse _ => none
  | .mirrorCopyComplete _ => none
  | .mirrorIntervalEnd _ => none
  | .mirrorCompare _ => none
  | .sweepCoreCheck _ => none
  | .sweepCheckTimeout _ => none
  | .sweepComplete _ => none
  | .hbmScrub _ _ => none
  | .pcDropRepair _ => none
  | .partitionTableWrite _ _ => none
  | .partitionStart _ _ => none
  | .partitionStop _ _ => none
  | .partitionStopComplete _ => none
  | .partitionResume _ => none
  | .partitionRelease _ _ _ => none
  | .sharedSlotStart _ => none
  | .coreEvict _ => none
  | .coreRestore _ => none
  | .fwImageStage _ _ _ => none
  | .fwUpdateAck _ => none
  | .fwUpdateWithdraw => none
  | .fwActivate => none
  | .attestEvidence _ _ => none
  | .secretUnwrap _ _ _ => none
  | .keyHandleBind _ _ _ _ _ => none
  | .apertureWrite _ _ _ _ => none
  | .portTableWrite _ _ _ => none
  | .portYield _ => none
  | .spareRemap _ _ => none
  | .coreKill _ _ _ => none
  | .inboundWrite _ _ _ _ => none
  | .inboundPieceSend _ _ => none
  | .inboundPieceAck _ _ => none
  | .hostRead _ _ _ _ => none
  | .hostCoreDoorbell _ _ => none
  | .registrationRegister _ => none
  | .hostWaitRegister _ _ _ _ => none
  | .registerWrite _ _ _ _ => none
  | .hostWarmRestart _ => none
  | .blockEntrySend _ => none
  | .blockPacketReceive _ _ _ _ => none
  | .blockLaneDeliver _ _ => none
  | .migrationCut _ => none
  | .cutMarkReceive _ _ => none
  | .migrationRestore _ _ => none
  | .kustadLinkStateChange _ _ => none

end Sys2Proof
end

