-- ==== Sys2Proof/WellFormed.lean ====
section
/-! DEFINITION. Which instructions have an encoding: the range of every field, per length (R35 to R44). -/

namespace Sys2Proof

/-- Whether the opcode map lists this length for the instruction (R43). -/
def Hd.okLen (h : Hd) (l : List Len) : Bool := l.contains h.len

/-- Whether a name code of this length can say the name (R18, R42). -/
def Name.wf (len : Len) : Name → Bool
  | .w n => if len.wide then decide (n ≤ 4079) else decide (n ≤ 47)
  | .o n => decide (n < 8)
  | .q => true
  | .st => true
  | .zr => true
  | .rsv i => decide (i < 5)

/-- Whether a signed field of `bits` bits, in units of `unit`, can hold a value (R36). -/
def signedWf (bits unit : Nat) (v : Int) : Bool :=
  decide (v % unit = 0) &&
    (if bits = 0 then decide (v = 0) else decide (-(2 ^ (bits - 1) : Int) * unit ≤ v ∧ v < (2 ^ (bits - 1) : Int) * unit))

/-- Whether an immediate, offset or displacement fits its instruction's length: a base field of `bits` bits in units of
`ub`, IMM16 in units of `ue`, or a 64-bit literal (R36, R38, R41). -/
def immWf (bits ub ue : Nat) (len : Len) (v : Int) : Bool :=
  match len with
  | .w32 => signedWf bits ub v
  | .x96x => signedWf 16 ue v
  | .x96l => signedWf 64 1 v
  | .x160 => signedWf 64 1 v

/-- Whether every field lies in the range that its encoding admits (R35 to R44), and every event names an object
that exists (R4 to R8). -/
def Instr.wf : Instr → Bool
  | .add h d a b =>
    h.okLen [.w32, .x96x] && d.wf h.len && a.wf h.len && b.wf h.len
  | .sub h d a b =>
    h.okLen [.w32, .x96x] && d.wf h.len && a.wf h.len && b.wf h.len
  | .mul h d a b =>
    h.okLen [.w32, .x96x] && d.wf h.len && a.wf h.len && b.wf h.len
  | .mulh h d a b =>
    h.okLen [.w32, .x96x] && d.wf h.len && a.wf h.len && b.wf h.len
  | .mulhz h d a b =>
    h.okLen [.w32, .x96x] && d.wf h.len && a.wf h.len && b.wf h.len
  | .div h d a b =>
    h.okLen [.w32, .x96x] && d.wf h.len && a.wf h.len && b.wf h.len
  | .divz h d a b =>
    h.okLen [.w32, .x96x] && d.wf h.len && a.wf h.len && b.wf h.len
  | .rem h d a b =>
    h.okLen [.w32, .x96x] && d.wf h.len && a.wf h.len && b.wf h.len
  | .remz h d a b =>
    h.okLen [.w32, .x96x] && d.wf h.len && a.wf h.len && b.wf h.len
  | .min h d a b =>
    h.okLen [.w32, .x96x] && d.wf h.len && a.wf h.len && b.wf h.len
  | .max h d a b =>
    h.okLen [.w32, .x96x] && d.wf h.len && a.wf h.len && b.wf h.len
  | .minz h d a b =>
    h.okLen [.w32, .x96x] && d.wf h.len && a.wf h.len && b.wf h.len
  | .maxz h d a b =>
    h.okLen [.w32, .x96x] && d.wf h.len && a.wf h.len && b.wf h.len
  | .andW h d a b =>
    h.okLen [.w32, .x96x] && d.wf h.len && a.wf h.len && b.wf h.len
  | .orW h d a b =>
    h.okLen [.w32, .x96x] && d.wf h.len && a.wf h.len && b.wf h.len
  | .xor h d a b =>
    h.okLen [.w32, .x96x] && d.wf h.len && a.wf h.len && b.wf h.len
  | .andn h d a b =>
    h.okLen [.w32, .x96x] && d.wf h.len && a.wf h.len && b.wf h.len
  | .orn h d a b =>
    h.okLen [.w32, .x96x] && d.wf h.len && a.wf h.len && b.wf h.len
  | .xnor h d a b =>
    h.okLen [.w32, .x96x] && d.wf h.len && a.wf h.len && b.wf h.len
  | .logt h d a b c table =>
    h.okLen [.x96x] && d.wf h.len && a.wf h.len && b.wf h.len && c.wf h.len && decide (table < 256)
  | .shl h d a b =>
    h.okLen [.w32, .x96x] && d.wf h.len && a.wf h.len && b.wf h.len
  | .shr h d a b =>
    h.okLen [.w32, .x96x] && d.wf h.len && a.wf h.len && b.wf h.len
  | .sar h d a b =>
    h.okLen [.w32, .x96x] && d.wf h.len && a.wf h.len && b.wf h.len
  | .rot h d a b =>
    h.okLen [.w32, .x96x] && d.wf h.len && a.wf h.len && b.wf h.len
  | .fshl h d a b c =>
    h.okLen [.x96x] && d.wf h.len && a.wf h.len && b.wf h.len && c.wf h.len
  | .fshr h d a b c =>
    h.okLen [.x96x] && d.wf h.len && a.wf h.len && b.wf h.len && c.wf h.len
  | .clz h d a =>
    h.okLen [.w32, .x96x] && d.wf h.len && a.wf h.len
  | .ctz h d a =>
    h.okLen [.w32, .x96x] && d.wf h.len && a.wf h.len
  | .popc h d a =>
    h.okLen [.w32, .x96x] && d.wf h.len && a.wf h.len
  | .brev h d a =>
    h.okLen [.w32, .x96x] && d.wf h.len && a.wf h.len
  | .bswap h d a =>
    h.okLen [.w32, .x96x] && d.wf h.len && a.wf h.len
  | .mov h d a =>
    h.okLen [.w32, .x96x] && d.wf h.len && a.wf h.len
  | .sext h d a width1 =>
    h.okLen [.w32, .x96x] && d.wf h.len && a.wf h.len && decide (width1 < 64)
  | .zext h d a width1 =>
    h.okLen [.w32, .x96x] && d.wf h.len && a.wf h.len && decide (width1 < 64)
  | .seq h d a b =>
    h.okLen [.w32, .x96x] && d.wf h.len && a.wf h.len && b.wf h.len
  | .sne h d a b =>
    h.okLen [.w32, .x96x] && d.wf h.len && a.wf h.len && b.wf h.len
  | .slt h d a b =>
    h.okLen [.w32, .x96x] && d.wf h.len && a.wf h.len && b.wf h.len
  | .sltz h d a b =>
    h.okLen [.w32, .x96x] && d.wf h.len && a.wf h.len && b.wf h.len
  | .sel h d a b =>
    h.okLen [.w32, .x96x] && d.wf h.len && a.wf h.len && b.wf h.len
  | .bfx h d a pos width1 =>
    h.okLen [.x96x] && d.wf h.len && a.wf h.len && decide (pos < 64) && decide (width1 < 64) && decide (pos + width1 + 1 ≤ 64)
  | .bfxz h d a pos width1 =>
    h.okLen [.x96x] && d.wf h.len && a.wf h.len && decide (pos < 64) && decide (width1 < 64) && decide (pos + width1 + 1 ≤ 64)
  | .bfi h d a pos width1 =>
    h.okLen [.x96x] && d.wf h.len && a.wf h.len && decide (pos < 64) && decide (width1 < 64) && decide (pos + width1 + 1 ≤ 64)
  | .addi h d a imm =>
    h.okLen [.w32, .x96l, .x96x, .x160] && d.wf h.len && a.wf h.len && immWf 10 1 1 h.len imm
  | .andi h d a imm =>
    h.okLen [.w32, .x96l, .x96x, .x160] && d.wf h.len && a.wf h.len && immWf 10 1 1 h.len imm
  | .ori h d a imm =>
    h.okLen [.w32, .x96l, .x96x, .x160] && d.wf h.len && a.wf h.len && immWf 10 1 1 h.len imm
  | .xori h d a imm =>
    h.okLen [.w32, .x96l, .x96x, .x160] && d.wf h.len && a.wf h.len && immWf 10 1 1 h.len imm
  | .shli h d a imm =>
    h.okLen [.w32, .x96l, .x96x, .x160] && d.wf h.len && a.wf h.len && immWf 10 1 1 h.len imm && decide (0 ≤ imm ∧ imm < 64)
  | .shri h d a imm =>
    h.okLen [.w32, .x96l, .x96x, .x160] && d.wf h.len && a.wf h.len && immWf 10 1 1 h.len imm && decide (0 ≤ imm ∧ imm < 64)
  | .sari h d a imm =>
    h.okLen [.w32, .x96l, .x96x, .x160] && d.wf h.len && a.wf h.len && immWf 10 1 1 h.len imm && decide (0 ≤ imm ∧ imm < 64)
  | .slti h d a imm =>
    h.okLen [.w32, .x96l, .x96x, .x160] && d.wf h.len && a.wf h.len && immWf 10 1 1 h.len imm
  | .li h d imm =>
    h.okLen [.w32, .x96l, .x96x, .x160] && d.wf h.len && immWf 10 1 1 h.len imm
  | .beq h a b disp =>
    h.okLen [.w32, .x96l, .x96x, .x160] && a.wf h.len && b.wf h.len && immWf 10 4 4 h.len disp && decide (disp % 4 = 0)
  | .bne h a b disp =>
    h.okLen [.w32, .x96l, .x96x, .x160] && a.wf h.len && b.wf h.len && immWf 10 4 4 h.len disp && decide (disp % 4 = 0)
  | .blt h a b disp =>
    h.okLen [.w32, .x96l, .x96x, .x160] && a.wf h.len && b.wf h.len && immWf 10 4 4 h.len disp && decide (disp % 4 = 0)
  | .bge h a b disp =>
    h.okLen [.w32, .x96l, .x96x, .x160] && a.wf h.len && b.wf h.len && immWf 10 4 4 h.len disp && decide (disp % 4 = 0)
  | .blo h a b disp =>
    h.okLen [.w32, .x96l, .x96x, .x160] && a.wf h.len && b.wf h.len && immWf 10 4 4 h.len disp && decide (disp % 4 = 0)
  | .bhs h a b disp =>
    h.okLen [.w32, .x96l, .x96x, .x160] && a.wf h.len && b.wf h.len && immWf 10 4 4 h.len disp && decide (disp % 4 = 0)
  | .bz h a disp =>
    h.okLen [.w32, .x96l, .x96x, .x160] && a.wf h.len && immWf 10 4 4 h.len disp && decide (disp % 4 = 0)
  | .bnz h a disp =>
    h.okLen [.w32, .x96l, .x96x, .x160] && a.wf h.len && immWf 10 4 4 h.len disp && decide (disp % 4 = 0)
  | .j h disp =>
    h.okLen [.w32, .x96l, .x96x, .x160] && immWf 22 4 4 h.len disp && decide (disp % 4 = 0)
  | .rpt h n1 steps stride =>
    h.okLen [.w32] && decide (n1 < 64) && decide (steps < 8) && decide (stride < 64) && decide (1 ≤ stride)
  | .lns h a =>
    h.okLen [.w32, .x96x] && a.wf h.len
  | .lget h d =>
    h.okLen [.w32, .x96x] && d.wf h.len
  | .ldrain h a =>
    h.okLen [.w32, .x96x] && a.wf h.len
  | .callc h k a =>
    h.okLen [.w32, .x96x] && decide (k < 64) && a.wf h.len && decide (2 ≤ k ∧ k ≤ 46 ∧ k % 2 = 0)
  | .ret h k =>
    h.okLen [.w32, .x96x] && decide (k < 64) && decide (2 ≤ k ∧ k ≤ 46 ∧ k % 2 = 0)
  | .park h a b =>
    h.okLen [.w32, .x96x] && a.wf h.len && b.wf h.len
  | .trap h a =>
    h.okLen [.w32, .x96x] && a.wf h.len
  | .eret h =>
    h.okLen [.w32, .x96x]
  | .call h k disp =>
    h.okLen [.w32, .x96l, .x96x, .x160] && decide (k < 64) && immWf 16 4 4 h.len disp && decide (disp % 4 = 0) && decide (2 ≤ k ∧ k ≤ 46 ∧ k % 2 = 0)
  | .lspill h d a b =>
    h.okLen [.w32, .x96x] && d.wf h.len && a.wf h.len && b.wf h.len
  | .lfill h d a b =>
    h.okLen [.w32, .x96x] && d.wf h.len && a.wf h.len && b.wf h.len
  | .lmove h d a b =>
    h.okLen [.w32, .x96x] && d.wf h.len && a.wf h.len && b.wf h.len
  | .cget h fsel d a =>
    h.okLen [.w32, .x96x] && decide (fsel < 8) && d.wf h.len && a.wf h.len
  | .csetaddr h d a b =>
    h.okLen [.w32, .x96x] && d.wf h.len && a.wf h.len && b.wf h.len
  | .cincaddr h d a b =>
    h.okLen [.w32, .x96x] && d.wf h.len && a.wf h.len && b.wf h.len
  | .cnarrow h d a b =>
    h.okLen [.w32, .x96x] && d.wf h.len && a.wf h.len && b.wf h.len
  | .cnarrowx h d a b =>
    h.okLen [.w32, .x96x] && d.wf h.len && a.wf h.len && b.wf h.len
  | .cdrop h d a b =>
    h.okLen [.w32, .x96x] && d.wf h.len && a.wf h.len && b.wf h.len
  | .craiselbl h d a b =>
    h.okLen [.w32, .x96x] && d.wf h.len && a.wf h.len && b.wf h.len
  | .cseal h d a b =>
    h.okLen [.w32, .x96x] && d.wf h.len && a.wf h.len && b.wf h.len
  | .cunseal h d a b =>
    h.okLen [.w32, .x96x] && d.wf h.len && a.wf h.len && b.wf h.len
  | .cgate h d a =>
    h.okLen [.w32, .x96x] && d.wf h.len && a.wf h.len
  | .cstrip h d a =>
    h.okLen [.w32, .x96x] && d.wf h.len && a.wf h.len
  | .cmov h d a =>
    h.okLen [.w32, .x96x] && d.wf h.len && a.wf h.len
  | .cwithin h d a b =>
    h.okLen [.w32, .x96x] && d.wf h.len && a.wf h.len && b.wf h.len
  | .cfitlen h d a =>
    h.okLen [.w32, .x96x] && d.wf h.len && a.wf h.len
  | .cfitmask h d a =>
    h.okLen [.w32, .x96x] && d.wf h.len && a.wf h.len
  | .cincaddri h d a imm =>
    h.okLen [.w32, .x96l, .x96x, .x160] && d.wf h.len && a.wf h.len && immWf 10 1 1 h.len imm
  | .crvmark h a b =>
    h.okLen [.w32, .x96x] && a.wf h.len && b.wf h.len
  | .csweep h a =>
    h.okLen [.w32, .x96x] && a.wf h.len
  | .ldS8 h d a off =>
    h.okLen [.w32, .x96l, .x96x, .x160] && d.wf h.len && a.wf h.len && immWf 10 1 1 h.len off
  | .ldZ8 h d a off =>
    h.okLen [.w32, .x96l, .x96x, .x160] && d.wf h.len && a.wf h.len && immWf 10 1 1 h.len off
  | .ldS16 h d a off =>
    h.okLen [.w32, .x96l, .x96x, .x160] && d.wf h.len && a.wf h.len && immWf 10 2 1 h.len off
  | .ldZ16 h d a off =>
    h.okLen [.w32, .x96l, .x96x, .x160] && d.wf h.len && a.wf h.len && immWf 10 2 1 h.len off
  | .ldS32 h d a off =>
    h.okLen [.w32, .x96l, .x96x, .x160] && d.wf h.len && a.wf h.len && immWf 10 4 1 h.len off
  | .ldZ32 h d a off =>
    h.okLen [.w32, .x96l, .x96x, .x160] && d.wf h.len && a.wf h.len && immWf 10 4 1 h.len off
  | .ldD h d a off =>
    h.okLen [.w32, .x96l, .x96x, .x160] && d.wf h.len && a.wf h.len && immWf 10 8 1 h.len off
  | .stB h d a off =>
    h.okLen [.w32, .x96l, .x96x, .x160] && d.wf h.len && a.wf h.len && immWf 10 1 1 h.len off
  | .stH h d a off =>
    h.okLen [.w32, .x96l, .x96x, .x160] && d.wf h.len && a.wf h.len && immWf 10 2 1 h.len off
  | .stW h d a off =>
    h.okLen [.w32, .x96l, .x96x, .x160] && d.wf h.len && a.wf h.len && immWf 10 4 1 h.len off
  | .stD h d a off =>
    h.okLen [.w32, .x96l, .x96x, .x160] && d.wf h.len && a.wf h.len && immWf 10 8 1 h.len off
  | .ldc h d a off =>
    h.okLen [.w32, .x96l, .x96x, .x160] && d.wf h.len && a.wf h.len && immWf 10 16 1 h.len off
  | .stc h d a off =>
    h.okLen [.w32, .x96l, .x96x, .x160] && d.wf h.len && a.wf h.len && immWf 10 16 1 h.len off
  | .ldv h d a off =>
    h.okLen [.w32, .x96l, .x96x, .x160] && d.wf h.len && a.wf h.len && immWf 10 32 1 h.len off
  | .stv h d a off =>
    h.okLen [.w32, .x96l, .x96x, .x160] && d.wf h.len && a.wf h.len && immWf 10 32 1 h.len off
  | .lda h d a off typ ord _ =>
    h.okLen [.w32, .x96l, .x96x, .x160] && d.wf h.len && a.wf h.len && immWf 0 0 1 h.len off && decide (16 ≤ typ.code ∧ typ.code ≤ 22) && decide ((ord.code = 1 ∨ ord.code = 4))
  | .stl h d a off typ ord _ =>
    h.okLen [.w32, .x96l, .x96x, .x160] && d.wf h.len && a.wf h.len && immWf 0 0 1 h.len off && decide (23 ≤ typ.code ∧ typ.code ≤ 26) && decide ((ord.code = 2 ∨ ord.code = 4))
  | .ldvg h d a b off mk typ =>
    h.okLen [.x96x, .x160] && d.wf h.len && a.wf h.len && b.wf h.len && immWf 0 0 1 h.len off && decide (mk < 8) && decide ((typ.code = 0 ∨ typ.code = 3 ∨ typ.code = 6 ∨ typ.code = 7))
  | .ldvgNf h d a b c off mk typ =>
    h.okLen [.x96x, .x160] && d.wf h.len && a.wf h.len && b.wf h.len && c.wf h.len && immWf 0 0 1 h.len off && decide (mk < 8) && decide ((typ.code = 0 ∨ typ.code = 3 ∨ typ.code = 6 ∨ typ.code = 7))
  | .stvs h d a b off mk typ =>
    h.okLen [.x96x, .x160] && d.wf h.len && a.wf h.len && b.wf h.len && immWf 0 0 1 h.len off && decide (mk < 8) && decide ((typ.code = 0 ∨ typ.code = 3 ∨ typ.code = 6 ∨ typ.code = 7))
  | .bsleep h g =>
    h.okLen [.x96x] && decide (g = 1 ∨ g = 2)
  | .bwake h g =>
    h.okLen [.x96x] && decide (g = 1 ∨ g = 2)
  | .amoaddW h d a b off ord scope =>
    h.okLen [.w32, .x96x, .x160] && d.wf h.len && a.wf h.len && b.wf h.len && immWf 0 0 1 h.len off && decide (ord.code ≤ 4) && (h.len != .w32 || decide (ord.code = 0)) && (h.len != .w32 || decide (scope.code = 0))
  | .amoandW h d a b off ord scope =>
    h.okLen [.w32, .x96x, .x160] && d.wf h.len && a.wf h.len && b.wf h.len && immWf 0 0 1 h.len off && decide (ord.code ≤ 4) && (h.len != .w32 || decide (ord.code = 0)) && (h.len != .w32 || decide (scope.code = 0))
  | .amoorW h d a b off ord scope =>
    h.okLen [.w32, .x96x, .x160] && d.wf h.len && a.wf h.len && b.wf h.len && immWf 0 0 1 h.len off && decide (ord.code ≤ 4) && (h.len != .w32 || decide (ord.code = 0)) && (h.len != .w32 || decide (scope.code = 0))
  | .amoxorW h d a b off ord scope =>
    h.okLen [.w32, .x96x, .x160] && d.wf h.len && a.wf h.len && b.wf h.len && immWf 0 0 1 h.len off && decide (ord.code ≤ 4) && (h.len != .w32 || decide (ord.code = 0)) && (h.len != .w32 || decide (scope.code = 0))
  | .amominW h d a b off ord scope =>
    h.okLen [.w32, .x96x, .x160] && d.wf h.len && a.wf h.len && b.wf h.len && immWf 0 0 1 h.len off && decide (ord.code ≤ 4) && (h.len != .w32 || decide (ord.code = 0)) && (h.len != .w32 || decide (scope.code = 0))
  | .amomaxW h d a b off ord scope =>
    h.okLen [.w32, .x96x, .x160] && d.wf h.len && a.wf h.len && b.wf h.len && immWf 0 0 1 h.len off && decide (ord.code ≤ 4) && (h.len != .w32 || decide (ord.code = 0)) && (h.len != .w32 || decide (scope.code = 0))
  | .amominzW h d a b off ord scope =>
    h.okLen [.w32, .x96x, .x160] && d.wf h.len && a.wf h.len && b.wf h.len && immWf 0 0 1 h.len off && decide (ord.code ≤ 4) && (h.len != .w32 || decide (ord.code = 0)) && (h.len != .w32 || decide (scope.code = 0))
  | .amomaxzW h d a b off ord scope =>
    h.okLen [.w32, .x96x, .x160] && d.wf h.len && a.wf h.len && b.wf h.len && immWf 0 0 1 h.len off && decide (ord.code ≤ 4) && (h.len != .w32 || decide (ord.code = 0)) && (h.len != .w32 || decide (scope.code = 0))
  | .amoswapW h d a b off ord scope =>
    h.okLen [.w32, .x96x, .x160] && d.wf h.len && a.wf h.len && b.wf h.len && immWf 0 0 1 h.len off && decide (ord.code ≤ 4) && (h.len != .w32 || decide (ord.code = 0)) && (h.len != .w32 || decide (scope.code = 0))
  | .amocasW h d a b off ord scope =>
    h.okLen [.w32, .x96x, .x160] && d.wf h.len && a.wf h.len && b.wf h.len && immWf 0 0 1 h.len off && decide (ord.code ≤ 4) && (h.len != .w32 || decide (ord.code = 0)) && (h.len != .w32 || decide (scope.code = 0))
  | .amoaddD h d a b off ord scope =>
    h.okLen [.w32, .x96x, .x160] && d.wf h.len && a.wf h.len && b.wf h.len && immWf 0 0 1 h.len off && decide (ord.code ≤ 4) && (h.len != .w32 || decide (ord.code = 0)) && (h.len != .w32 || decide (scope.code = 0))
  | .amoandD h d a b off ord scope =>
    h.okLen [.w32, .x96x, .x160] && d.wf h.len && a.wf h.len && b.wf h.len && immWf 0 0 1 h.len off && decide (ord.code ≤ 4) && (h.len != .w32 || decide (ord.code = 0)) && (h.len != .w32 || decide (scope.code = 0))
  | .amoorD h d a b off ord scope =>
    h.okLen [.w32, .x96x, .x160] && d.wf h.len && a.wf h.len && b.wf h.len && immWf 0 0 1 h.len off && decide (ord.code ≤ 4) && (h.len != .w32 || decide (ord.code = 0)) && (h.len != .w32 || decide (scope.code = 0))
  | .amoxorD h d a b off ord scope =>
    h.okLen [.w32, .x96x, .x160] && d.wf h.len && a.wf h.len && b.wf h.len && immWf 0 0 1 h.len off && decide (ord.code ≤ 4) && (h.len != .w32 || decide (ord.code = 0)) && (h.len != .w32 || decide (scope.code = 0))
  | .amominD h d a b off ord scope =>
    h.okLen [.w32, .x96x, .x160] && d.wf h.len && a.wf h.len && b.wf h.len && immWf 0 0 1 h.len off && decide (ord.code ≤ 4) && (h.len != .w32 || decide (ord.code = 0)) && (h.len != .w32 || decide (scope.code = 0))
  | .amomaxD h d a b off ord scope =>
    h.okLen [.w32, .x96x, .x160] && d.wf h.len && a.wf h.len && b.wf h.len && immWf 0 0 1 h.len off && decide (ord.code ≤ 4) && (h.len != .w32 || decide (ord.code = 0)) && (h.len != .w32 || decide (scope.code = 0))
  | .amominzD h d a b off ord scope =>
    h.okLen [.w32, .x96x, .x160] && d.wf h.len && a.wf h.len && b.wf h.len && immWf 0 0 1 h.len off && decide (ord.code ≤ 4) && (h.len != .w32 || decide (ord.code = 0)) && (h.len != .w32 || decide (scope.code = 0))
  | .amomaxzD h d a b off ord scope =>
    h.okLen [.w32, .x96x, .x160] && d.wf h.len && a.wf h.len && b.wf h.len && immWf 0 0 1 h.len off && decide (ord.code ≤ 4) && (h.len != .w32 || decide (ord.code = 0)) && (h.len != .w32 || decide (scope.code = 0))
  | .amoswapD h d a b off ord scope =>
    h.okLen [.w32, .x96x, .x160] && d.wf h.len && a.wf h.len && b.wf h.len && immWf 0 0 1 h.len off && decide (ord.code ≤ 4) && (h.len != .w32 || decide (ord.code = 0)) && (h.len != .w32 || decide (scope.code = 0))
  | .amocasD h d a b off ord scope =>
    h.okLen [.w32, .x96x, .x160] && d.wf h.len && a.wf h.len && b.wf h.len && immWf 0 0 1 h.len off && decide (ord.code ≤ 4) && (h.len != .w32 || decide (ord.code = 0)) && (h.len != .w32 || decide (scope.code = 0))
  | .amocasc h d a b off ord scope =>
    h.okLen [.w32, .x96x, .x160] && d.wf h.len && a.wf h.len && b.wf h.len && immWf 0 0 1 h.len off && decide (ord.code ≤ 4) && (h.len != .w32 || decide (ord.code = 0)) && (h.len != .w32 || decide (scope.code = 0))
  | .wfe h d a =>
    h.okLen [.w32, .x96x] && d.wf h.len && a.wf h.len
  | .sev h a b =>
    h.okLen [.w32, .x96x] && a.wf h.len && b.wf h.len
  | .bara h a =>
    h.okLen [.w32, .x96x] && a.wf h.len
  | .barw h a =>
    h.okLen [.w32, .x96x] && a.wf h.len
  | .semp h a =>
    h.okLen [.w32, .x96x] && a.wf h.len
  | .semv h a =>
    h.okLen [.w32, .x96x] && a.wf h.len
  | .fence h ord _ =>
    h.okLen [.w32, .x96x] && decide (1 ≤ ord.code ∧ ord.code ≤ 4)
  | .waitva h a b ord scope =>
    h.okLen [.w32, .x96x] && a.wf h.len && b.wf h.len && decide (ord.code ≤ 1) && (h.len != .w32 || decide (ord.code = 0)) && (h.len != .w32 || decide (scope.code = 0))
  | .wakeva h a b ord scope =>
    h.okLen [.w32, .x96x] && a.wf h.len && b.wf h.len && decide ((ord.code = 0 ∨ ord.code = 2)) && (h.len != .w32 || decide (ord.code = 0)) && (h.len != .w32 || decide (scope.code = 0))
  | .mpost h a b ord scope =>
    h.okLen [.w32, .x96x] && a.wf h.len && b.wf h.len && decide ((ord.code = 0 ∨ ord.code = 2)) && (h.len != .w32 || decide (ord.code = 0)) && (h.len != .w32 || decide (scope.code = 0))
  | .send h a b ord scope =>
    h.okLen [.w32, .x96x] && a.wf h.len && b.wf h.len && decide ((ord.code = 0 ∨ ord.code = 2)) && (h.len != .w32 || decide (ord.code = 0)) && (h.len != .w32 || decide (scope.code = 0))
  | .recv h d a ord scope =>
    h.okLen [.w32, .x96x] && d.wf h.len && a.wf h.len && decide (ord.code ≤ 1) && (h.len != .w32 || decide (ord.code = 0)) && (h.len != .w32 || decide (scope.code = 0))
  | .vadd h d a b mk typ =>
    h.okLen [.w32, .x96x] && d.wf h.len && a.wf h.len && b.wf h.len && decide (mk < 8) && decide (typ.code ≤ 6) && (h.len != .w32 || decide (typ = .implied))
  | .vsub h d a b mk typ =>
    h.okLen [.w32, .x96x] && d.wf h.len && a.wf h.len && b.wf h.len && decide (mk < 8) && decide (typ.code ≤ 6) && (h.len != .w32 || decide (typ = .implied))
  | .vmul h d a b mk typ =>
    h.okLen [.w32, .x96x] && d.wf h.len && a.wf h.len && b.wf h.len && decide (mk < 8) && decide (typ.code ≤ 6) && (h.len != .w32 || decide (typ = .implied))
  | .vmad h d a b mk typ =>
    h.okLen [.w32, .x96x] && d.wf h.len && a.wf h.len && b.wf h.len && decide (mk < 8) && decide (typ.code ≤ 6) && (h.len != .w32 || decide (typ = .implied))
  | .vmin h d a b mk typ =>
    h.okLen [.w32, .x96x] && d.wf h.len && a.wf h.len && b.wf h.len && decide (mk < 8) && decide (typ.code ≤ 6) && (h.len != .w32 || decide (typ = .implied ∨ typ = .z32))
  | .vmax h d a b mk typ =>
    h.okLen [.w32, .x96x] && d.wf h.len && a.wf h.len && b.wf h.len && decide (mk < 8) && decide (typ.code ≤ 6) && (h.len != .w32 || decide (typ = .implied ∨ typ = .z32))
  | .vand h d a b mk typ =>
    h.okLen [.w32, .x96x] && d.wf h.len && a.wf h.len && b.wf h.len && decide (mk < 8) && decide (typ.code ≤ 6) && (h.len != .w32 || decide (typ = .implied))
  | .vor h d a b mk typ =>
    h.okLen [.w32, .x96x] && d.wf h.len && a.wf h.len && b.wf h.len && decide (mk < 8) && decide (typ.code ≤ 6) && (h.len != .w32 || decide (typ = .implied))
  | .vxor h d a b mk typ =>
    h.okLen [.w32, .x96x] && d.wf h.len && a.wf h.len && b.wf h.len && decide (mk < 8) && decide (typ.code ≤ 6) && (h.len != .w32 || decide (typ = .implied))
  | .vshl h d a b mk typ =>
    h.okLen [.w32, .x96x] && d.wf h.len && a.wf h.len && b.wf h.len && decide (mk < 8) && decide (typ.code ≤ 6) && (h.len != .w32 || decide (typ = .implied))
  | .vshr h d a b mk typ =>
    h.okLen [.w32, .x96x] && d.wf h.len && a.wf h.len && b.wf h.len && decide (mk < 8) && decide (typ.code ≤ 6) && (h.len != .w32 || decide (typ = .implied))
  | .vsar h d a b mk typ =>
    h.okLen [.w32, .x96x] && d.wf h.len && a.wf h.len && b.wf h.len && decide (mk < 8) && decide (typ.code ≤ 6) && (h.len != .w32 || decide (typ = .implied))
  | .vabs h d a mk typ =>
    h.okLen [.w32, .x96x] && d.wf h.len && a.wf h.len && decide (mk < 8) && decide (typ.code ≤ 3) && (h.len != .w32 || decide (typ = .implied))
  | .vneg h d a mk typ =>
    h.okLen [.w32, .x96x] && d.wf h.len && a.wf h.len && decide (mk < 8) && decide (typ.code ≤ 3) && (h.len != .w32 || decide (typ = .implied))
  | .vlogt h d a b c table mk typ =>
    h.okLen [.x96x] && d.wf h.len && a.wf h.len && b.wf h.len && c.wf h.len && decide (mk < 8) && decide (typ.code ≤ 6) && decide (table < 256)
  | .vcmp h d a b cc mk typ =>
    h.okLen [.x96x] && d.wf h.len && a.wf h.len && b.wf h.len && decide (mk < 8) && decide ((typ.code ≤ 9)) && decide (cc < 8)
  | .vsel h d a b mk typ =>
    h.okLen [.x96x] && d.wf h.len && a.wf h.len && b.wf h.len && decide (mk < 8) && decide (typ.code ≤ 11)
  | .vbcast h d a mk typ =>
    h.okLen [.x96x] && d.wf h.len && a.wf h.len && decide (mk < 8) && decide (typ.code ≤ 11)
  | .vext h d a b typ =>
    h.okLen [.x96x] && d.wf h.len && a.wf h.len && b.wf h.len && decide (typ.code ≤ 11)
  | .vins h d a b typ =>
    h.okLen [.x96x] && d.wf h.len && a.wf h.len && b.wf h.len && decide (typ.code ≤ 11)
  | .vperm h d a b mk typ =>
    h.okLen [.x96x] && d.wf h.len && a.wf h.len && b.wf h.len && decide (mk < 8) && decide (typ.code ≤ 11)
  | .vred h d a op mk typ =>
    h.okLen [.x96x] && d.wf h.len && a.wf h.len && decide (mk < 8) && decide ((typ.code ≤ 9)) && decide (op < 3)
  | .vfadd h d a b mk typ =>
    h.okLen [.w32, .x96x] && d.wf h.len && a.wf h.len && b.wf h.len && decide (mk < 8) && decide ((typ.code = 0 ∨ (7 ≤ typ.code ∧ typ.code ≤ 9))) && (h.len != .w32 || decide (typ = .implied))
  | .vfsub h d a b mk typ =>
    h.okLen [.w32, .x96x] && d.wf h.len && a.wf h.len && b.wf h.len && decide (mk < 8) && decide ((typ.code = 0 ∨ (7 ≤ typ.code ∧ typ.code ≤ 9))) && (h.len != .w32 || decide (typ = .implied))
  | .vfmul h d a b mk typ =>
    h.okLen [.w32, .x96x] && d.wf h.len && a.wf h.len && b.wf h.len && decide (mk < 8) && decide ((typ.code = 0 ∨ (7 ≤ typ.code ∧ typ.code ≤ 9))) && (h.len != .w32 || decide (typ = .implied))
  | .vfma h d a b mk typ =>
    h.okLen [.w32, .x96x] && d.wf h.len && a.wf h.len && b.wf h.len && decide (mk < 8) && decide ((typ.code = 0 ∨ (7 ≤ typ.code ∧ typ.code ≤ 9))) && (h.len != .w32 || decide (typ = .implied))
  | .vfnma h d a b mk typ =>
    h.okLen [.w32, .x96x] && d.wf h.len && a.wf h.len && b.wf h.len && decide (mk < 8) && decide ((typ.code = 0 ∨ (7 ≤ typ.code ∧ typ.code ≤ 9))) && (h.len != .w32 || decide (typ = .implied))
  | .vfmin h d a b mk typ =>
    h.okLen [.w32, .x96x] && d.wf h.len && a.wf h.len && b.wf h.len && decide (mk < 8) && decide ((typ.code = 0 ∨ (7 ≤ typ.code ∧ typ.code ≤ 9))) && (h.len != .w32 || decide (typ = .implied))
  | .vfmax h d a b mk typ =>
    h.okLen [.w32, .x96x] && d.wf h.len && a.wf h.len && b.wf h.len && decide (mk < 8) && decide ((typ.code = 0 ∨ (7 ≤ typ.code ∧ typ.code ≤ 9))) && (h.len != .w32 || decide (typ = .implied))
  | .vfdiv h d a b mk typ =>
    h.okLen [.w32, .x96x] && d.wf h.len && a.wf h.len && b.wf h.len && decide (mk < 8) && decide ((typ.code = 0 ∨ (7 ≤ typ.code ∧ typ.code ≤ 9))) && (h.len != .w32 || decide (typ = .implied))
  | .vfsqrt h d a mk typ =>
    h.okLen [.w32, .x96x] && d.wf h.len && a.wf h.len && decide (mk < 8) && decide ((typ.code = 0 ∨ (7 ≤ typ.code ∧ typ.code ≤ 9))) && (h.len != .w32 || decide (typ = .implied))
  | .vfrcp h d a mk typ =>
    h.okLen [.w32, .x96x] && d.wf h.len && a.wf h.len && decide (mk < 8) && decide ((typ.code = 0 ∨ (7 ≤ typ.code ∧ typ.code ≤ 9))) && (h.len != .w32 || decide (typ = .implied))
  | .vfrsq h d a mk typ =>
    h.okLen [.w32, .x96x] && d.wf h.len && a.wf h.len && decide (mk < 8) && decide ((typ.code = 0 ∨ (7 ≤ typ.code ∧ typ.code ≤ 9))) && (h.len != .w32 || decide (typ = .implied))
  | .vfexp2 h d a mk typ =>
    h.okLen [.w32, .x96x] && d.wf h.len && a.wf h.len && decide (mk < 8) && decide ((typ.code = 0 ∨ (7 ≤ typ.code ∧ typ.code ≤ 9))) && (h.len != .w32 || decide (typ = .implied))
  | .vflog2 h d a mk typ =>
    h.okLen [.w32, .x96x] && d.wf h.len && a.wf h.len && decide (mk < 8) && decide ((typ.code = 0 ∨ (7 ≤ typ.code ∧ typ.code ≤ 9))) && (h.len != .w32 || decide (typ = .implied))
  | .vftanh h d a mk typ =>
    h.okLen [.w32, .x96x] && d.wf h.len && a.wf h.len && decide (mk < 8) && decide ((typ.code = 0 ∨ (7 ≤ typ.code ∧ typ.code ≤ 9))) && (h.len != .w32 || decide (typ = .implied))
  | .vcvt h d a st rm mk typ =>
    h.okLen [.x96x] && d.wf h.len && a.wf h.len && decide (mk < 8) && decide (1 ≤ typ.code ∧ typ.code ≤ 11) && decide (1 ≤ st) && decide (st ≤ 11) && decide (rm ≤ 5)
  | .vquant h d a typ =>
    h.okLen [.x96x] && d.wf h.len && a.wf h.len && decide (12 ≤ typ.code ∧ typ.code ≤ 14)
  | .vdeq h d a typ =>
    h.okLen [.x96x] && d.wf h.len && a.wf h.len && decide (12 ≤ typ.code ∧ typ.code ≤ 14)
  | .xmax h d a typ =>
    h.okLen [.x96x] && d.wf h.len && a.wf h.len && decide ((typ.code = 0 ∨ typ.code = 6 ∨ typ.code = 7))
  | .vbaddq h d a b typ =>
    h.okLen [.x96x] && d.wf h.len && a.wf h.len && b.wf h.len && decide (12 ≤ typ.code ∧ typ.code ≤ 14)
  | .mload h d a tb mac plane typ =>
    h.okLen [.x96x] && d.wf h.len && a.wf h.len && decide (tb < 128) && decide (12 ≤ typ.code ∧ typ.code ≤ 14) && decide (mac < 2) && decide (plane < 2)
  | .mswap h d tb mask =>
    h.okLen [.x96x] && d.wf h.len && decide (tb < 128) && decide (1 ≤ mask) && decide (mask ≤ 3)
  | .mrun h d a b tb bound1 typ lit =>
    h.okLen [.x96x, .x160] && d.wf h.len && a.wf h.len && b.wf h.len && decide (tb < 128) && decide (12 ≤ typ.code ∧ typ.code ≤ 14) && (h.len == .x160 || decide (lit = 0)) && decide (bound1 < 65536) && (h.len != .x160 || decide (bound1 = 0)) && (h.len != .x160 || decide (b = .w 0))
  | .mdrain h d a b tb _ lit =>
    h.okLen [.x96x, .x160] && d.wf h.len && a.wf h.len && b.wf h.len && decide (tb < 128) && (h.len == .x160 || decide (lit = 0)) && (h.len != .x160 || decide (b = .w 0))
  | .mslot h a slot =>
    h.okLen [.x96x] && a.wf h.len && decide (slot < 64)
  | .mstat h d fsel =>
    h.okLen [.x96x] && d.wf h.len && decide (fsel ≤ 2 ∨ fsel = 257)
  | .cpy h d a b tb _ lit =>
    h.okLen [.x96x, .x160] && d.wf h.len && a.wf h.len && b.wf h.len && decide (tb < 128) && (h.len == .x160 || decide (lit = 0))
  | .cpym h d a b tb mk _ lit =>
    h.okLen [.x96x, .x160] && d.wf h.len && a.wf h.len && b.wf h.len && decide (tb < 128) && decide (mk < 8) && (h.len == .x160 || decide (lit = 0)) && decide (1 ≤ mk)
  | .conv h d a b tb typ _ lit =>
    h.okLen [.x96x, .x160] && d.wf h.len && a.wf h.len && b.wf h.len && decide (tb < 128) && decide (1 ≤ typ.code ∧ typ.code ≤ 14) && (h.len == .x160 || decide (lit = 0))
  | .jwait h d a b tb slotm =>
    h.okLen [.x96x] && d.wf h.len && a.wf h.len && b.wf h.len && decide (tb < 64) && decide (slotm ≤ 1) && (if slotm = 1 then decide (a = .w 0) else decide (b = .w 0 ∧ tb = 0))
  | .jstat h d a tb slotm =>
    h.okLen [.x96x] && d.wf h.len && a.wf h.len && decide (tb < 64) && decide (slotm ≤ 1) && (if slotm = 1 then decide (a = .w 0) else decide (tb = 0))
  | .jcancel h d a =>
    h.okLen [.x96x] && d.wf h.len && a.wf h.len
  | .gang h lg =>
    h.okLen [.w32, .x96x] && decide (lg < 64) && decide (1 ≤ lg ∧ lg ≤ 4)
  | .split h =>
    h.okLen [.w32, .x96x]
  | .mpair h =>
    h.okLen [.w32, .x96x]
  | .munpair h =>
    h.okLen [.w32, .x96x]
  | .mchk h d =>
    h.okLen [.w32, .x96x] && d.wf h.len
  | .qpush h d a b rsv =>
    h.okLen [.w32, .x96x] && d.wf h.len && a.wf h.len && b.wf h.len && decide (rsv ≤ 1 ∧ (h.len = .w32 → rsv = 0))
  | .qpushWait h d a b =>
    h.okLen [.w32, .x96x] && d.wf h.len && a.wf h.len && b.wf h.len
  | .qpop h d a =>
    h.okLen [.w32, .x96x] && d.wf h.len && a.wf h.len
  | .qpopg h d a =>
    h.okLen [.w32, .x96x] && d.wf h.len && a.wf h.len
  | .qstat h d a =>
    h.okLen [.w32, .x96x] && d.wf h.len && a.wf h.len
  | .spawn h d b =>
    h.okLen [.w32, .x96x] && d.wf h.len && b.wf h.len
  | .shape h d dim =>
    h.okLen [.w32, .x96x] && d.wf h.len && decide (dim < 64) && decide (dim < 16 ∧ dim % 8 < 6)
  | .kstat h d fsel =>
    h.okLen [.w32, .x96x] && d.wf h.len && decide (fsel < 64) && decide (fsel < 4)
  | .prpush h d a b =>
    h.okLen [.w32, .x96x] && d.wf h.len && a.wf h.len && b.wf h.len
  | .prpop h d a =>
    h.okLen [.w32, .x96x] && d.wf h.len && a.wf h.len
  | .prclass h d a b =>
    h.okLen [.w32, .x96x] && d.wf h.len && a.wf h.len && b.wf h.len
  | .ptwr h d a b c item kind =>
    h.okLen [.x96x] && d.wf h.len && a.wf h.len && b.wf h.len && c.wf h.len && decide (kind < 4) && decide ((item < 8 ∧ 1 ≤ kind) ∨ (item = 8 ∧ kind = 0))
  | .ptrd h d a b item bank half =>
    h.okLen [.x96x] && d.wf h.len && a.wf h.len && b.wf h.len && decide (item < 10) && decide (bank < 2) && decide (half < 2) && decide ((item = 8 → half = 0))
  | .ptflip h a mask =>
    h.okLen [.x96x] && a.wf h.len && decide (1 ≤ mask) && decide (mask < 1024)
  | .tlbw h d a b =>
    h.okLen [.x96x] && d.wf h.len && a.wf h.len && b.wf h.len
  | .tlbi h a b ext =>
    h.okLen [.x96x] && a.wf h.len && b.wf h.len && decide (ext < 4) && (decide (ext < 2) || decide (a = .w 0))
  | .frpop h d src =>
    h.okLen [.x96x] && d.wf h.len && decide (src < 3)
  | .cresume h d a kill =>
    h.okLen [.x96x] && d.wf h.len && a.wf h.len && decide (kill ≤ 1)
  | .decl h a b =>
    h.okLen [.x96x] && a.wf h.len && b.wf h.len
  | .srd h d reg =>
    h.okLen [.w32, .x96x] && d.wf h.len && decide (reg < 64) && decide (reg ≤ 22)
  | .swr h a reg =>
    h.okLen [.w32, .x96x] && a.wf h.len && decide (reg < 64) && decide (reg ≤ 22)
  | .bkpt h =>
    h.okLen [.w32, .x96x]
  | .halt h =>
    h.okLen [.w32, .x96x]
  | .illegalEncoding _ => true
  | .packageReset _ _ _ => true
  | .ifetchLineMiss p _ => decide (p < 8264)
  | .trapDelivery p => decide (p < 8264)
  | .asyncCauseDelivery p => decide (p < 8264)
  | .ptimerExpiry p => decide (p < 8264)
  | .extirq p => decide (p < 8264)
  | .lateWriteLand p _ => decide (p < 8264)
  | .spillEngineMove p => decide (p < 8264)
  | .fpEventStop p => decide (p < 8264)
  | .fpReplyResume p _ => decide (p < 8264)
  | .fpReplyConvert p _ _ => decide (p < 8264)
  | .portAccess p src => decide (p < 8264) && decide (src < 8264)
  | .storeAck p _ => decide (p < 8264)
  | .accessRetry p => decide (p < 8264)
  | .groupWakeComplete p _ => decide (p < 8264)
  | .xmaxContributionArrive p src => decide (p < 8264) && decide (src < 8264)
  | .xmaxTimeout p => decide (p < 8264)
  | .matrixCardStart t e => decide (t < 512) && decide (e < 32)
  | .mloadEnd t e _ => decide (t < 512) && decide (e < 32)
  | .mrunEnd t e _ => decide (t < 512) && decide (e < 32)
  | .mdrainEnd t e _ => decide (t < 512) && decide (e < 32)
  | .mrunWatchdog t e => decide (t < 512) && decide (e < 32)
  | .matrixSlotBoundary t _ => decide (t < 512)
  | .noslotTimeout t e => decide (t < 512) && decide (e < 32)
  | .cardStart t e => decide (t < 512) && decide (e < 32)
  | .cardEnd t e _ => decide (t < 512) && decide (e < 32)
  | .tlbProbeResult t _ => decide (t < 512)
  | .faultRecordPost t e => decide (t < 512) && decide (e < 32)
  | .inboxMessageEnter p _ => decide (p < 8264)
  | .eventSignalArrive p => decide (p < 8264)
  | .queueSegmentRefill n => decide (n < 16384)
  | .queueRingError n => decide (n < 16384)
  | .queueStateOn n _ _ _ => decide (n < 16384)
  | .queueStateStop n _ _ _ => decide (n < 16384)
  | .queueStateOff n _ _ _ => decide (n < 16384)
  | .queueDoorbell n _ => decide (n < 16384)
  | .launchDispatch d => decide (d < 8)
  | .teamPlacement _ t => decide (t < 512)
  | .parSliceExpiry t => decide (t < 512)
  | .teamSwapOutComplete t => decide (t < 512)
  | .teamSwapInComplete t => decide (t < 512)
  | .kernelCompletion _ => true
  | .kernelAbort _ => true
  | .chainRecordEnter c => decide (c < 128)
  | .chainRecordExit c => decide (c < 128)
  | .chainRecirculate c => decide (c < 128)
  | .bankFlip c => decide (c < 128)
  | .bankDrainComplete c _ _ => decide (c < 128)
  | .gangFuse p => decide (p < 8264)
  | .mirrorCopyComplete p => decide (p < 8264)
  | .mirrorIntervalEnd p => decide (p < 8264)
  | .mirrorCompare p => decide (p < 8264)
  | .sweepCoreCheck p => decide (p < 8264)
  | .sweepCheckTimeout p => decide (p < 8264)
  | .sweepComplete part => decide (part < 64)
  | .hbmScrub _ _ => true
  | .pcDropRepair _ => true
  | .partitionTableWrite part _ => decide (part < 64)
  | .partitionStart part _ => decide (part < 64)
  | .partitionStop part _ => decide (part < 64)
  | .partitionStopComplete part => decide (part < 64)
  | .partitionResume part => decide (part < 64)
  | .partitionRelease part _ _ => decide (part < 64)
  | .sharedSlotStart part => decide (part < 64)
  | .coreEvict p => decide (p < 8264)
  | .coreRestore p => decide (p < 8264)
  | .fwImageStage _ _ _ => true
  | .fwUpdateAck part => decide (part < 64)
  | .fwUpdateWithdraw => true
  | .fwActivate => true
  | .attestEvidence part _ => decide (part < 64)
  | .secretUnwrap part _ _ => decide (part < 64)
  | .keyHandleBind part _ _ _ _ => decide (part < 64)
  | .apertureWrite part _ _ _ => decide (part < 64)
  | .portTableWrite port _ _ => decide (port < 18)
  | .portYield port => decide (port < 18)
  | .spareRemap part _ => decide (part < 64)
  | .coreKill p _ _ => decide (p < 8264)
  | .inboundWrite _ _ _ _ => true
  | .inboundPieceSend _ _ => true
  | .inboundPieceAck _ _ => true
  | .hostRead _ _ _ _ => true
  | .hostCoreDoorbell _ _ => true
  | .registrationRegister _ => true
  | .hostWaitRegister _ _ _ _ => true
  | .registerWrite _ _ _ _ => true
  | .hostWarmRestart _ => true
  | .blockEntrySend port => decide (port < 18)
  | .blockPacketReceive port _ _ _ => decide (port < 18)
  | .blockLaneDeliver port _ => decide (port < 18)
  | .migrationCut part => decide (part < 64)
  | .cutMarkReceive port _ => decide (port < 18)
  | .migrationRestore part _ => decide (part < 64)
  | .kustadLinkStateChange port _ => decide (port < 18)

end Sys2Proof
end

