-- ==== Sys2Proof/Decode.lean ====
section
/-! DEFINITION. From instruction words to instructions and back (R33 to R45).  Reading has two layers: the words give
named fields, by the base form of the MAJOR or by the extended form; the fields give an instruction, by the opcode map. -/

namespace Sys2Proof

/-- Why a word is no instruction (R44); every reason raises ILLEGAL. -/
inductive Reject where
  /-- the bytes end before the instruction does -/
  | short
  /-- a MAJOR or FN that the map does not assign -/
  | unassigned
  /-- a LEN that the map does not list for the entry -/
  | length
  /-- a reserved bit that is not zero -/
  | reserved
  /-- a field that the entry does not use and that is not zero -/
  | unusedField
  /-- a TYPE, ORD, SCOPE, MK, raw or immediate value outside the entry's range -/
  | value
  deriving DecidableEq, Repr

/-- The base forms and layouts of R35. -/
inductive Form where
  | a | i | m | b | j | v | mo | jk | p | o
  deriving DecidableEq, Repr

/-- The fields of an instruction, each as the bits it holds.  Base forms fill the fields of the extended form that
R38 moves theirs to, with names in their own 6-bit codes. -/
structure Fields where
  len : Len
  s : Bool
  major : Nat
  fn : Nat := 0
  d : Nat := 0
  a : Nat := 0
  b : Nat := 0
  c : Nat := 0
  msk : Nat := 0
  typ : Nat := 0
  ord : Nat := 0
  scope : Nat := 0
  imm : Nat := 0
  lit : Nat := 0
  deriving DecidableEq, Repr

/-- The name codes of R42, 6 or 12 bits by the length. -/
def Name.code (len : Len) : Name → Nat
  | .w n => n
  | .o n => if len.wide then 0xFF0 + n else 48 + n
  | .q => if len.wide then 0xFF8 else 56
  | .st => if len.wide then 0xFF9 else 57
  | .zr => if len.wide then 0xFFA else 58
  | .rsv i => if len.wide then 0xFFB + i else 59 + i

/-- The name of a code above those of the w names, counted from the first (R42). -/
def Name.ofHigh (k : Nat) : Name :=
  if k < 8 then .o k else if k = 8 then .q else if k = 9 then .st else if k = 10 then .zr else .rsv (k - 11)

/-- The name of a code (R42). -/
def Name.ofCode (len : Len) (c : Nat) : Name :=
  if len.wide then (if c < 0xFF0 then .w c else .ofHigh (c - 0xFF0))
  else (if c < 48 then .w c else .ofHigh (c - 48))

/-- A field of `bits` bits read as a signed two's-complement integer (R35). -/
def sext (bits x : Nat) : Int := if x < 2 ^ (bits - 1) then x else (x : Int) - 2 ^ bits

/-- The immediate, offset or displacement of an instruction: its base field in units of `ub`, IMM16 in units of `ue`,
or the literal (R36, R38, R41). -/
def Fields.immediate (f : Fields) (bits ub ue : Nat) : Int :=
  match f.len with
  | .w32 => sext bits f.imm * ub
  | .x96x => sext 16 f.imm * ue
  | .x96l => sext 64 f.lit
  | .x160 => sext 64 f.lit

/-- A literal stands in place of the immediate field, which must then be zero (R41). -/
abbrev Fields.litPlace (f : Fields) : Prop := (f.len = .x96l ∨ f.len = .x160) → f.imm = 0

/-- The immediate field that says a value. -/
def immField (bits ub ue : Nat) (len : Len) (v : Int) : Nat :=
  match len with
  | .w32 => ((v / ub) % 2 ^ bits).toNat
  | .x96x => ((v / ue) % 2 ^ 16).toNat
  | .x96l => 0
  | .x160 => 0

/-- The literal that says a value, in the lengths that have one. -/
def immLit (len : Len) (v : Int) : Nat :=
  match len with
  | .x96l => (v % 2 ^ 64).toNat
  | .x160 => (v % 2 ^ 64).toNat
  | .w32 => 0
  | .x96x => 0

def Fields.hd (f : Fields) : Hd := ⟨f.len, f.s⟩
def Fields.name (f : Fields) (c : Nat) : Name := Name.ofCode f.len c

/-- One entry of the opcode map: its lengths, the fields it does not use, its range conditions (R44). -/
def Fields.leaf (f : Fields) (lens : List Len) (unused : List Nat) (ok : Prop) [Decidable ok] (i : Instr) :
    Except Reject Instr :=
  if ¬ lens.contains f.len then .error .length
  else if unused.any (· != 0) then .error .unusedField
  else if ¬ ok then .error .value
  else .ok i

/-- The base form of each MAJOR (R35, R43).  A MAJOR without a base form is read as form A and refused later for its
length. -/
def Form.ofMajor (m : Nat) : Form :=
  if (0x10 ≤ m ∧ m ≤ 0x18) ∨ m = 0x32 then .i else
  if (0x20 ≤ m ∧ m ≤ 0x26) then .b else
  if m = 0x27 then .j else
  if m = 0x29 then .jk else
  if (0x40 ≤ m ∧ m ≤ 0x4E) then .m else
  if m = 0x4F then .mo else
  if m = 0x2B then .p else
  if m = 0x59 then .o else
  if (0x60 ≤ m ∧ m ≤ 0x6A) ∨ (0x70 ≤ m ∧ m ≤ 0x75) then .v else
  .a

/-- Bits 31:10 of a base word, read by form (R35).  The fields of MO become those of the extended form (R38): SIZE gives
TYPE 16 + SIZE or 23 + SIZE, and ORD2 gives acq or rel, or sc; a reserved ORD2 becomes the reserved ORD 7. -/
def baseFields (form : Form) (len : Len) (s : Bool) (major x lit : Nat) : Except Reject Fields :=
  match form with
  | .a => .ok { len, s, major, lit, fn := x / 2 ^ 18, b := x / 4096 % 64, a := x / 64 % 64, d := x % 64 }
  | .i => .ok { len, s, major, lit, imm := x / 4096, a := x / 64 % 64, d := x % 64 }
  | .m => .ok { len, s, major, lit, imm := x / 4096, a := x / 64 % 64, d := x % 64 }
  | .b => .ok { len, s, major, lit, imm := x / 4096, b := x / 64 % 64, a := x % 64 }
  | .j => .ok { len, s, major, lit, imm := x }
  | .v => .ok { len, s, major, lit, fn := x / 2 ^ 21, msk := x / 2 ^ 18 % 8, b := x / 4096 % 64, a := x / 64 % 64, d := x % 64 }
  | .mo =>
    let dir := x / 2 ^ 21
    let ord2 := x / 2 ^ 15 % 4
    .ok { len, s, major, lit, fn := dir, scope := x / 2 ^ 17 % 16,
          ord := if ord2 = 0 then 1 + dir else if ord2 = 1 then 4 else 7,
          typ := (if dir = 0 then 16 else 23) + x / 4096 % 8, a := x / 64 % 64, d := x % 64 }
  | .jk => .ok { len, s, major, lit, imm := x / 64, d := x % 64 }
  | .p =>
    if x / 2 ^ 15 ≠ 0 then .error .reserved
    else .ok { len, s, major, lit, b := x / 2 ^ 9 % 64, a := x / 64 % 8, d := x % 64 }
  | .o =>
    if x / 2 ^ 7 ≠ 0 then .error .reserved
    else .ok { len, s, major, lit, ord := x % 8, scope := x / 8 % 16 }

/-- Bits 31:10 of a base word that holds the fields (R35). -/
def Fields.baseBits (f : Fields) : Nat :=
  match Form.ofMajor f.major with
  | .a => f.fn * 2 ^ 18 + f.b * 4096 + f.a * 64 + f.d
  | .i => f.imm * 4096 + f.a * 64 + f.d
  | .m => f.imm * 4096 + f.a * 64 + f.d
  | .b => f.imm * 4096 + f.b * 64 + f.a
  | .j => f.imm
  | .v => f.fn * 2 ^ 21 + f.msk * 2 ^ 18 + f.b * 4096 + f.a * 64 + f.d
  | .mo => f.fn * 2 ^ 21 + f.scope * 2 ^ 17 + (if f.ord = 4 then 1 else 0) * 2 ^ 15
      + (f.typ - if f.fn = 0 then 16 else 23) * 4096 + f.a * 64 + f.d
  | .jk => f.imm * 64 + f.d
  | .p => f.b * 2 ^ 9 + f.a * 64 + f.d
  | .o => f.scope * 8 + f.ord

/-- Bits 9:0 of a first word: MAJOR, S and LEN (R33). -/
def Fields.lowBits (f : Fields) : Nat := f.major * 8 + (if f.s then 4 else 0) + f.len.code

/-- The three words of an extended form (R37), after its literal if it has one. -/
def extFields (len : Len) (s : Bool) (major w0 w1 w2 lit : Nat) : Except Reject Fields :=
  if w0 / 2 ^ 31 ≠ 0 then .error .reserved
  else .ok { len, s, major, lit, msk := w0 / 2 ^ 28 % 8, fn := w0 / 2 ^ 22 % 64, d := w0 / 1024 % 4096,
             ord := w1 / 2 ^ 29, typ := w1 / 2 ^ 24 % 32, b := w1 / 4096 % 4096, a := w1 % 4096,
             imm := w2 / 2 ^ 16, scope := w2 / 4096 % 16, c := w2 % 4096 }

/-- The words of an instruction with the given fields, literal words last and low word first (R34, R37). -/
def Fields.words (f : Fields) : List Nat :=
  let ext := [f.lowBits + f.d * 1024 + f.fn * 2 ^ 22 + f.msk * 2 ^ 28,
              f.a + f.b * 4096 + f.typ * 2 ^ 24 + f.ord * 2 ^ 29,
              f.c + f.scope * 4096 + f.imm * 2 ^ 16]
  let lit := [f.lit % 2 ^ 32, f.lit / 2 ^ 32]
  match f.len with
  | .w32 => [f.lowBits + f.baseBits * 1024]
  | .x96l => (f.lowBits + f.baseBits * 1024) :: lit
  | .x96x => ext
  | .x160 => ext ++ lit

/-- The fields of the instruction that a list of words begins with (R33 to R37).  The first word alone says how many
words there are. -/
def fieldsOfWords : List Nat → Except Reject Fields
  | [] => .error .short
  | w0 :: rest =>
    let len := Len.ofCode (w0 % 4)
    let s := decide (w0 / 4 % 2 = 1)
    let major := w0 / 8 % 128
    match len, rest with
    | .w32, _ => baseFields (Form.ofMajor major) len s major (w0 / 1024) 0
    | .x96l, l0 :: l1 :: _ => baseFields (Form.ofMajor major) len s major (w0 / 1024) (l0 + l1 * 2 ^ 32)
    | .x96x, w1 :: w2 :: _ => extFields len s major w0 w1 w2 0
    | .x160, w1 :: w2 :: l0 :: l1 :: _ => extFields len s major w0 w1 w2 (l0 + l1 * 2 ^ 32)
    | _, _ => .error .short

/-- MAJOR 0x00 of the opcode map (R43). -/
def Fields.decode00 (f : Fields) : Except Reject Instr :=
  match f.fn with
  | 0 => f.leaf [.w32, .x96x] [f.c, f.msk, f.typ, f.ord, f.scope, f.imm]
        (True)
        (.add f.hd (f.name f.d) (f.name f.a) (f.name f.b))
  | 1 => f.leaf [.w32, .x96x] [f.c, f.msk, f.typ, f.ord, f.scope, f.imm]
        (True)
        (.sub f.hd (f.name f.d) (f.name f.a) (f.name f.b))
  | 2 => f.leaf [.w32, .x96x] [f.c, f.msk, f.typ, f.ord, f.scope, f.imm]
        (True)
        (.mul f.hd (f.name f.d) (f.name f.a) (f.name f.b))
  | 3 => f.leaf [.w32, .x96x] [f.c, f.msk, f.typ, f.ord, f.scope, f.imm]
        (True)
        (.mulh f.hd (f.name f.d) (f.name f.a) (f.name f.b))
  | 4 => f.leaf [.w32, .x96x] [f.c, f.msk, f.typ, f.ord, f.scope, f.imm]
        (True)
        (.mulhz f.hd (f.name f.d) (f.name f.a) (f.name f.b))
  | 5 => f.leaf [.w32, .x96x] [f.c, f.msk, f.typ, f.ord, f.scope, f.imm]
        (True)
        (.div f.hd (f.name f.d) (f.name f.a) (f.name f.b))
  | 6 => f.leaf [.w32, .x96x] [f.c, f.msk, f.typ, f.ord, f.scope, f.imm]
        (True)
        (.divz f.hd (f.name f.d) (f.name f.a) (f.name f.b))
  | 7 => f.leaf [.w32, .x96x] [f.c, f.msk, f.typ, f.ord, f.scope, f.imm]
        (True)
        (.rem f.hd (f.name f.d) (f.name f.a) (f.name f.b))
  | 8 => f.leaf [.w32, .x96x] [f.c, f.msk, f.typ, f.ord, f.scope, f.imm]
        (True)
        (.remz f.hd (f.name f.d) (f.name f.a) (f.name f.b))
  | 9 => f.leaf [.w32, .x96x] [f.c, f.msk, f.typ, f.ord, f.scope, f.imm]
        (True)
        (.min f.hd (f.name f.d) (f.name f.a) (f.name f.b))
  | 10 => f.leaf [.w32, .x96x] [f.c, f.msk, f.typ, f.ord, f.scope, f.imm]
        (True)
        (.max f.hd (f.name f.d) (f.name f.a) (f.name f.b))
  | 11 => f.leaf [.w32, .x96x] [f.c, f.msk, f.typ, f.ord, f.scope, f.imm]
        (True)
        (.minz f.hd (f.name f.d) (f.name f.a) (f.name f.b))
  | 12 => f.leaf [.w32, .x96x] [f.c, f.msk, f.typ, f.ord, f.scope, f.imm]
        (True)
        (.maxz f.hd (f.name f.d) (f.name f.a) (f.name f.b))
  | _ => .error .unassigned

/-- MAJOR 0x01 of the opcode map (R43). -/
def Fields.decode01 (f : Fields) : Except Reject Instr :=
  match f.fn with
  | 0 => f.leaf [.w32, .x96x] [f.c, f.msk, f.typ, f.ord, f.scope, f.imm]
        (True)
        (.andW f.hd (f.name f.d) (f.name f.a) (f.name f.b))
  | 1 => f.leaf [.w32, .x96x] [f.c, f.msk, f.typ, f.ord, f.scope, f.imm]
        (True)
        (.orW f.hd (f.name f.d) (f.name f.a) (f.name f.b))
  | 2 => f.leaf [.w32, .x96x] [f.c, f.msk, f.typ, f.ord, f.scope, f.imm]
        (True)
        (.xor f.hd (f.name f.d) (f.name f.a) (f.name f.b))
  | 3 => f.leaf [.w32, .x96x] [f.c, f.msk, f.typ, f.ord, f.scope, f.imm]
        (True)
        (.andn f.hd (f.name f.d) (f.name f.a) (f.name f.b))
  | 4 => f.leaf [.w32, .x96x] [f.c, f.msk, f.typ, f.ord, f.scope, f.imm]
        (True)
        (.orn f.hd (f.name f.d) (f.name f.a) (f.name f.b))
  | 5 => f.leaf [.w32, .x96x] [f.c, f.msk, f.typ, f.ord, f.scope, f.imm]
        (True)
        (.xnor f.hd (f.name f.d) (f.name f.a) (f.name f.b))
  | 6 => f.leaf [.x96x] [f.msk, f.typ, f.ord, f.scope]
        (f.imm < 256)
        (.logt f.hd (f.name f.d) (f.name f.a) (f.name f.b) (f.name f.c) (f.imm))
  | _ => .error .unassigned

/-- MAJOR 0x02 of the opcode map (R43). -/
def Fields.decode02 (f : Fields) : Except Reject Instr :=
  match f.fn with
  | 0 => f.leaf [.w32, .x96x] [f.c, f.msk, f.typ, f.ord, f.scope, f.imm]
        (True)
        (.shl f.hd (f.name f.d) (f.name f.a) (f.name f.b))
  | 1 => f.leaf [.w32, .x96x] [f.c, f.msk, f.typ, f.ord, f.scope, f.imm]
        (True)
        (.shr f.hd (f.name f.d) (f.name f.a) (f.name f.b))
  | 2 => f.leaf [.w32, .x96x] [f.c, f.msk, f.typ, f.ord, f.scope, f.imm]
        (True)
        (.sar f.hd (f.name f.d) (f.name f.a) (f.name f.b))
  | 3 => f.leaf [.w32, .x96x] [f.c, f.msk, f.typ, f.ord, f.scope, f.imm]
        (True)
        (.rot f.hd (f.name f.d) (f.name f.a) (f.name f.b))
  | 4 => f.leaf [.x96x] [f.msk, f.typ, f.ord, f.scope, f.imm]
        (True)
        (.fshl f.hd (f.name f.d) (f.name f.a) (f.name f.b) (f.name f.c))
  | 5 => f.leaf [.x96x] [f.msk, f.typ, f.ord, f.scope, f.imm]
        (True)
        (.fshr f.hd (f.name f.d) (f.name f.a) (f.name f.b) (f.name f.c))
  | _ => .error .unassigned

/-- MAJOR 0x03 of the opcode map (R43). -/
def Fields.decode03 (f : Fields) : Except Reject Instr :=
  match f.fn with
  | 0 => f.leaf [.w32, .x96x] [f.b, f.c, f.msk, f.typ, f.ord, f.scope, f.imm]
        (True)
        (.clz f.hd (f.name f.d) (f.name f.a))
  | 1 => f.leaf [.w32, .x96x] [f.b, f.c, f.msk, f.typ, f.ord, f.scope, f.imm]
        (True)
        (.ctz f.hd (f.name f.d) (f.name f.a))
  | 2 => f.leaf [.w32, .x96x] [f.b, f.c, f.msk, f.typ, f.ord, f.scope, f.imm]
        (True)
        (.popc f.hd (f.name f.d) (f.name f.a))
  | 3 => f.leaf [.w32, .x96x] [f.b, f.c, f.msk, f.typ, f.ord, f.scope, f.imm]
        (True)
        (.brev f.hd (f.name f.d) (f.name f.a))
  | 4 => f.leaf [.w32, .x96x] [f.b, f.c, f.msk, f.typ, f.ord, f.scope, f.imm]
        (True)
        (.bswap f.hd (f.name f.d) (f.name f.a))
  | 7 => f.leaf [.w32, .x96x] [f.b, f.c, f.msk, f.typ, f.ord, f.scope, f.imm]
        (True)
        (.mov f.hd (f.name f.d) (f.name f.a))
  | 5 => f.leaf [.w32, .x96x] [f.c, f.msk, f.typ, f.ord, f.scope, f.imm]
        (f.b < 64)
        (.sext f.hd (f.name f.d) (f.name f.a) f.b)
  | 6 => f.leaf [.w32, .x96x] [f.c, f.msk, f.typ, f.ord, f.scope, f.imm]
        (f.b < 64)
        (.zext f.hd (f.name f.d) (f.name f.a) f.b)
  | _ => .error .unassigned

/-- MAJOR 0x04 of the opcode map (R43). -/
def Fields.decode04 (f : Fields) : Except Reject Instr :=
  match f.fn with
  | 0 => f.leaf [.w32, .x96x] [f.c, f.msk, f.typ, f.ord, f.scope, f.imm]
        (True)
        (.seq f.hd (f.name f.d) (f.name f.a) (f.name f.b))
  | 1 => f.leaf [.w32, .x96x] [f.c, f.msk, f.typ, f.ord, f.scope, f.imm]
        (True)
        (.sne f.hd (f.name f.d) (f.name f.a) (f.name f.b))
  | 2 => f.leaf [.w32, .x96x] [f.c, f.msk, f.typ, f.ord, f.scope, f.imm]
        (True)
        (.slt f.hd (f.name f.d) (f.name f.a) (f.name f.b))
  | 3 => f.leaf [.w32, .x96x] [f.c, f.msk, f.typ, f.ord, f.scope, f.imm]
        (True)
        (.sltz f.hd (f.name f.d) (f.name f.a) (f.name f.b))
  | 4 => f.leaf [.w32, .x96x] [f.c, f.msk, f.typ, f.ord, f.scope, f.imm]
        (True)
        (.sel f.hd (f.name f.d) (f.name f.a) (f.name f.b))
  | _ => .error .unassigned

/-- MAJOR 0x05 of the opcode map (R43). -/
def Fields.decode05 (f : Fields) : Except Reject Instr :=
  match f.fn with
  | 0 => f.leaf [.x96x] [f.b, f.c, f.msk, f.typ, f.ord, f.scope]
        (f.imm < 4096 ∧ f.imm % 64 + f.imm / 64 + 1 ≤ 64)
        (.bfx f.hd (f.name f.d) (f.name f.a) (f.imm % 64) (f.imm / 64))
  | 1 => f.leaf [.x96x] [f.b, f.c, f.msk, f.typ, f.ord, f.scope]
        (f.imm < 4096 ∧ f.imm % 64 + f.imm / 64 + 1 ≤ 64)
        (.bfxz f.hd (f.name f.d) (f.name f.a) (f.imm % 64) (f.imm / 64))
  | 2 => f.leaf [.x96x] [f.b, f.c, f.msk, f.typ, f.ord, f.scope]
        (f.imm < 4096 ∧ f.imm % 64 + f.imm / 64 + 1 ≤ 64)
        (.bfi f.hd (f.name f.d) (f.name f.a) (f.imm % 64) (f.imm / 64))
  | _ => .error .unassigned

/-- MAJOR 0x10 of the opcode map (R43). -/
def Fields.decode10 (f : Fields) : Except Reject Instr :=
  match f.fn with
  | 0 => f.leaf [.w32, .x96l, .x96x, .x160] [f.b, f.c, f.msk, f.typ, f.ord, f.scope]
        (f.litPlace)
        (.addi f.hd (f.name f.d) (f.name f.a) (f.immediate 10 1 1))
  | _ => .error .unassigned

/-- MAJOR 0x11 of the opcode map (R43). -/
def Fields.decode11 (f : Fields) : Except Reject Instr :=
  match f.fn with
  | 0 => f.leaf [.w32, .x96l, .x96x, .x160] [f.b, f.c, f.msk, f.typ, f.ord, f.scope]
        (f.litPlace)
        (.andi f.hd (f.name f.d) (f.name f.a) (f.immediate 10 1 1))
  | _ => .error .unassigned

/-- MAJOR 0x12 of the opcode map (R43). -/
def Fields.decode12 (f : Fields) : Except Reject Instr :=
  match f.fn with
  | 0 => f.leaf [.w32, .x96l, .x96x, .x160] [f.b, f.c, f.msk, f.typ, f.ord, f.scope]
        (f.litPlace)
        (.ori f.hd (f.name f.d) (f.name f.a) (f.immediate 10 1 1))
  | _ => .error .unassigned

/-- MAJOR 0x13 of the opcode map (R43). -/
def Fields.decode13 (f : Fields) : Except Reject Instr :=
  match f.fn with
  | 0 => f.leaf [.w32, .x96l, .x96x, .x160] [f.b, f.c, f.msk, f.typ, f.ord, f.scope]
        (f.litPlace)
        (.xori f.hd (f.name f.d) (f.name f.a) (f.immediate 10 1 1))
  | _ => .error .unassigned

/-- MAJOR 0x14 of the opcode map (R43). -/
def Fields.decode14 (f : Fields) : Except Reject Instr :=
  match f.fn with
  | 0 => f.leaf [.w32, .x96l, .x96x, .x160] [f.b, f.c, f.msk, f.typ, f.ord, f.scope]
        (f.litPlace ∧ 0 ≤ f.immediate 10 1 1 ∧ f.immediate 10 1 1 < 64)
        (.shli f.hd (f.name f.d) (f.name f.a) (f.immediate 10 1 1))
  | _ => .error .unassigned

/-- MAJOR 0x15 of the opcode map (R43). -/
def Fields.decode15 (f : Fields) : Except Reject Instr :=
  match f.fn with
  | 0 => f.leaf [.w32, .x96l, .x96x, .x160] [f.b, f.c, f.msk, f.typ, f.ord, f.scope]
        (f.litPlace ∧ 0 ≤ f.immediate 10 1 1 ∧ f.immediate 10 1 1 < 64)
        (.shri f.hd (f.name f.d) (f.name f.a) (f.immediate 10 1 1))
  | _ => .error .unassigned

/-- MAJOR 0x16 of the opcode map (R43). -/
def Fields.decode16 (f : Fields) : Except Reject Instr :=
  match f.fn with
  | 0 => f.leaf [.w32, .x96l, .x96x, .x160] [f.b, f.c, f.msk, f.typ, f.ord, f.scope]
        (f.litPlace ∧ 0 ≤ f.immediate 10 1 1 ∧ f.immediate 10 1 1 < 64)
        (.sari f.hd (f.name f.d) (f.name f.a) (f.immediate 10 1 1))
  | _ => .error .unassigned

/-- MAJOR 0x17 of the opcode map (R43). -/
def Fields.decode17 (f : Fields) : Except Reject Instr :=
  match f.fn with
  | 0 => f.leaf [.w32, .x96l, .x96x, .x160] [f.b, f.c, f.msk, f.typ, f.ord, f.scope]
        (f.litPlace)
        (.slti f.hd (f.name f.d) (f.name f.a) (f.immediate 10 1 1))
  | _ => .error .unassigned

/-- MAJOR 0x18 of the opcode map (R43). -/
def Fields.decode18 (f : Fields) : Except Reject Instr :=
  match f.fn with
  | 0 => f.leaf [.w32, .x96l, .x96x, .x160] [f.a, f.b, f.c, f.msk, f.typ, f.ord, f.scope]
        (f.litPlace)
        (.li f.hd (f.name f.d) (f.immediate 10 1 1))
  | _ => .error .unassigned

/-- MAJOR 0x20 of the opcode map (R43). -/
def Fields.decode20 (f : Fields) : Except Reject Instr :=
  match f.fn with
  | 0 => f.leaf [.w32, .x96l, .x96x, .x160] [f.d, f.c, f.msk, f.typ, f.ord, f.scope]
        (f.litPlace ∧ f.immediate 10 4 4 % 4 = 0)
        (.beq f.hd (f.name f.a) (f.name f.b) (f.immediate 10 4 4))
  | _ => .error .unassigned

/-- MAJOR 0x21 of the opcode map (R43). -/
def Fields.decode21 (f : Fields) : Except Reject Instr :=
  match f.fn with
  | 0 => f.leaf [.w32, .x96l, .x96x, .x160] [f.d, f.c, f.msk, f.typ, f.ord, f.scope]
        (f.litPlace ∧ f.immediate 10 4 4 % 4 = 0)
        (.bne f.hd (f.name f.a) (f.name f.b) (f.immediate 10 4 4))
  | _ => .error .unassigned

/-- MAJOR 0x22 of the opcode map (R43). -/
def Fields.decode22 (f : Fields) : Except Reject Instr :=
  match f.fn with
  | 0 => f.leaf [.w32, .x96l, .x96x, .x160] [f.d, f.c, f.msk, f.typ, f.ord, f.scope]
        (f.litPlace ∧ f.immediate 10 4 4 % 4 = 0)
        (.blt f.hd (f.name f.a) (f.name f.b) (f.immediate 10 4 4))
  | _ => .error .unassigned

/-- MAJOR 0x23 of the opcode map (R43). -/
def Fields.decode23 (f : Fields) : Except Reject Instr :=
  match f.fn with
  | 0 => f.leaf [.w32, .x96l, .x96x, .x160] [f.d, f.c, f.msk, f.typ, f.ord, f.scope]
        (f.litPlace ∧ f.immediate 10 4 4 % 4 = 0)
        (.bge f.hd (f.name f.a) (f.name f.b) (f.immediate 10 4 4))
  | _ => .error .unassigned

/-- MAJOR 0x24 of the opcode map (R43). -/
def Fields.decode24 (f : Fields) : Except Reject Instr :=
  match f.fn with
  | 0 => f.leaf [.w32, .x96l, .x96x, .x160] [f.d, f.c, f.msk, f.typ, f.ord, f.scope]
        (f.litPlace ∧ f.immediate 10 4 4 % 4 = 0)
        (.blo f.hd (f.name f.a) (f.name f.b) (f.immediate 10 4 4))
  | _ => .error .unassigned

/-- MAJOR 0x25 of the opcode map (R43). -/
def Fields.decode25 (f : Fields) : Except Reject Instr :=
  match f.fn with
  | 0 => f.leaf [.w32, .x96l, .x96x, .x160] [f.d, f.c, f.msk, f.typ, f.ord, f.scope]
        (f.litPlace ∧ f.immediate 10 4 4 % 4 = 0)
        (.bhs f.hd (f.name f.a) (f.name f.b) (f.immediate 10 4 4))
  | _ => .error .unassigned

/-- MAJOR 0x26 of the opcode map (R43). -/
def Fields.decode26 (f : Fields) : Except Reject Instr :=
  if f.fn ≠ 0 then .error .unassigned else
  match f.b with
  | 0 => f.leaf [.w32, .x96l, .x96x, .x160] [f.d, f.c, f.msk, f.typ, f.ord, f.scope]
        (f.litPlace ∧ f.immediate 10 4 4 % 4 = 0)
        (.bz f.hd (f.name f.a) (f.immediate 10 4 4))
  | 1 => f.leaf [.w32, .x96l, .x96x, .x160] [f.d, f.c, f.msk, f.typ, f.ord, f.scope]
        (f.litPlace ∧ f.immediate 10 4 4 % 4 = 0)
        (.bnz f.hd (f.name f.a) (f.immediate 10 4 4))
  | _ => .error .value

/-- MAJOR 0x27 of the opcode map (R43). -/
def Fields.decode27 (f : Fields) : Except Reject Instr :=
  match f.fn with
  | 0 => f.leaf [.w32, .x96l, .x96x, .x160] [f.d, f.a, f.b, f.c, f.msk, f.typ, f.ord, f.scope]
        (f.litPlace ∧ f.immediate 22 4 4 % 4 = 0)
        (.j f.hd (f.immediate 22 4 4))
  | _ => .error .unassigned

/-- MAJOR 0x28 of the opcode map (R43). -/
def Fields.decode28 (f : Fields) : Except Reject Instr :=
  match f.fn with
  | 0 => f.leaf [.w32, .x96x] [f.d, f.b, f.c, f.msk, f.typ, f.ord, f.scope, f.imm]
        (True)
        (.lns f.hd (f.name f.a))
  | 1 => f.leaf [.w32, .x96x] [f.a, f.b, f.c, f.msk, f.typ, f.ord, f.scope, f.imm]
        (True)
        (.lget f.hd (f.name f.d))
  | 2 => f.leaf [.w32, .x96x] [f.d, f.b, f.c, f.msk, f.typ, f.ord, f.scope, f.imm]
        (True)
        (.ldrain f.hd (f.name f.a))
  | 3 => f.leaf [.w32, .x96x] [f.b, f.c, f.msk, f.typ, f.ord, f.scope, f.imm]
        (f.d < 64 ∧ 2 ≤ f.d ∧ f.d ≤ 46 ∧ f.d % 2 = 0)
        (.callc f.hd f.d (f.name f.a))
  | 4 => f.leaf [.w32, .x96x] [f.a, f.b, f.c, f.msk, f.typ, f.ord, f.scope, f.imm]
        (f.d < 64 ∧ 2 ≤ f.d ∧ f.d ≤ 46 ∧ f.d % 2 = 0)
        (.ret f.hd f.d)
  | 5 => f.leaf [.w32, .x96x] [f.d, f.c, f.msk, f.typ, f.ord, f.scope, f.imm]
        (True)
        (.park f.hd (f.name f.a) (f.name f.b))
  | 6 => f.leaf [.w32, .x96x] [f.d, f.b, f.c, f.msk, f.typ, f.ord, f.scope, f.imm]
        (True)
        (.trap f.hd (f.name f.a))
  | 7 => f.leaf [.w32, .x96x] [f.d, f.a, f.b, f.c, f.msk, f.typ, f.ord, f.scope, f.imm]
        (True)
        (.eret f.hd)
  | _ => .error .unassigned

/-- MAJOR 0x29 of the opcode map (R43). -/
def Fields.decode29 (f : Fields) : Except Reject Instr :=
  match f.fn with
  | 0 => f.leaf [.w32, .x96l, .x96x, .x160] [f.a, f.b, f.c, f.msk, f.typ, f.ord, f.scope]
        (f.d < 64 ∧ f.litPlace ∧ f.immediate 16 4 4 % 4 = 0 ∧ 2 ≤ f.d ∧ f.d ≤ 46 ∧ f.d % 2 = 0)
        (.call f.hd f.d (f.immediate 16 4 4))
  | _ => .error .unassigned

/-- MAJOR 0x2A of the opcode map (R43). -/
def Fields.decode2A (f : Fields) : Except Reject Instr :=
  match f.fn with
  | 0 => f.leaf [.w32, .x96x] [f.c, f.msk, f.typ, f.ord, f.scope, f.imm]
        (True)
        (.lspill f.hd (f.name f.d) (f.name f.a) (f.name f.b))
  | 1 => f.leaf [.w32, .x96x] [f.c, f.msk, f.typ, f.ord, f.scope, f.imm]
        (True)
        (.lfill f.hd (f.name f.d) (f.name f.a) (f.name f.b))
  | 2 => f.leaf [.w32, .x96x] [f.c, f.msk, f.typ, f.ord, f.scope, f.imm]
        (True)
        (.lmove f.hd (f.name f.d) (f.name f.a) (f.name f.b))
  | _ => .error .unassigned

/-- MAJOR 0x2B of the opcode map (R43). -/
def Fields.decode2B (f : Fields) : Except Reject Instr :=
  match f.fn with
  | 0 => f.leaf [.w32] [f.c, f.msk, f.typ, f.ord, f.scope, f.imm]
        (f.d < 64 ∧ f.a < 8 ∧ f.b < 64 ∧ 1 ≤ f.b)
        (.rpt f.hd f.d f.a f.b)
  | _ => .error .unassigned

/-- MAJOR 0x30 of the opcode map (R43). -/
def Fields.decode30 (f : Fields) : Except Reject Instr :=
  if 8 ≤ f.fn then .error .unassigned else
  f.leaf [.w32, .x96x] [f.b, f.c, f.msk, f.typ, f.ord, f.scope, f.imm]
        (True)
        (.cget f.hd f.fn (f.name f.d) (f.name f.a))

/-- MAJOR 0x31 of the opcode map (R43). -/
def Fields.decode31 (f : Fields) : Except Reject Instr :=
  match f.fn with
  | 0 => f.leaf [.w32, .x96x] [f.c, f.msk, f.typ, f.ord, f.scope, f.imm]
        (True)
        (.csetaddr f.hd (f.name f.d) (f.name f.a) (f.name f.b))
  | 1 => f.leaf [.w32, .x96x] [f.c, f.msk, f.typ, f.ord, f.scope, f.imm]
        (True)
        (.cincaddr f.hd (f.name f.d) (f.name f.a) (f.name f.b))
  | 2 => f.leaf [.w32, .x96x] [f.c, f.msk, f.typ, f.ord, f.scope, f.imm]
        (True)
        (.cnarrow f.hd (f.name f.d) (f.name f.a) (f.name f.b))
  | 3 => f.leaf [.w32, .x96x] [f.c, f.msk, f.typ, f.ord, f.scope, f.imm]
        (True)
        (.cnarrowx f.hd (f.name f.d) (f.name f.a) (f.name f.b))
  | 4 => f.leaf [.w32, .x96x] [f.c, f.msk, f.typ, f.ord, f.scope, f.imm]
        (True)
        (.cdrop f.hd (f.name f.d) (f.name f.a) (f.name f.b))
  | 5 => f.leaf [.w32, .x96x] [f.c, f.msk, f.typ, f.ord, f.scope, f.imm]
        (True)
        (.craiselbl f.hd (f.name f.d) (f.name f.a) (f.name f.b))
  | 6 => f.leaf [.w32, .x96x] [f.c, f.msk, f.typ, f.ord, f.scope, f.imm]
        (True)
        (.cseal f.hd (f.name f.d) (f.name f.a) (f.name f.b))
  | 7 => f.leaf [.w32, .x96x] [f.c, f.msk, f.typ, f.ord, f.scope, f.imm]
        (True)
        (.cunseal f.hd (f.name f.d) (f.name f.a) (f.name f.b))
  | 8 => f.leaf [.w32, .x96x] [f.b, f.c, f.msk, f.typ, f.ord, f.scope, f.imm]
        (True)
        (.cgate f.hd (f.name f.d) (f.name f.a))
  | 9 => f.leaf [.w32, .x96x] [f.b, f.c, f.msk, f.typ, f.ord, f.scope, f.imm]
        (True)
        (.cstrip f.hd (f.name f.d) (f.name f.a))
  | 10 => f.leaf [.w32, .x96x] [f.b, f.c, f.msk, f.typ, f.ord, f.scope, f.imm]
        (True)
        (.cmov f.hd (f.name f.d) (f.name f.a))
  | 11 => f.leaf [.w32, .x96x] [f.c, f.msk, f.typ, f.ord, f.scope, f.imm]
        (True)
        (.cwithin f.hd (f.name f.d) (f.name f.a) (f.name f.b))
  | 12 => f.leaf [.w32, .x96x] [f.b, f.c, f.msk, f.typ, f.ord, f.scope, f.imm]
        (True)
        (.cfitlen f.hd (f.name f.d) (f.name f.a))
  | 13 => f.leaf [.w32, .x96x] [f.b, f.c, f.msk, f.typ, f.ord, f.scope, f.imm]
        (True)
        (.cfitmask f.hd (f.name f.d) (f.name f.a))
  | _ => .error .unassigned

/-- MAJOR 0x32 of the opcode map (R43). -/
def Fields.decode32 (f : Fields) : Except Reject Instr :=
  match f.fn with
  | 0 => f.leaf [.w32, .x96l, .x96x, .x160] [f.b, f.c, f.msk, f.typ, f.ord, f.scope]
        (f.litPlace)
        (.cincaddri f.hd (f.name f.d) (f.name f.a) (f.immediate 10 1 1))
  | _ => .error .unassigned

/-- MAJOR 0x33 of the opcode map (R43). -/
def Fields.decode33 (f : Fields) : Except Reject Instr :=
  match f.fn with
  | 0 => f.leaf [.w32, .x96x] [f.d, f.c, f.msk, f.typ, f.ord, f.scope, f.imm]
        (True)
        (.crvmark f.hd (f.name f.a) (f.name f.b))
  | 1 => f.leaf [.w32, .x96x] [f.d, f.b, f.c, f.msk, f.typ, f.ord, f.scope, f.imm]
        (True)
        (.csweep f.hd (f.name f.a))
  | _ => .error .unassigned

/-- MAJOR 0x40 of the opcode map (R43). -/
def Fields.decode40 (f : Fields) : Except Reject Instr :=
  match f.fn with
  | 0 => f.leaf [.w32, .x96l, .x96x, .x160] [f.b, f.c, f.msk, f.typ, f.ord, f.scope]
        (f.litPlace)
        (.ldS8 f.hd (f.name f.d) (f.name f.a) (f.immediate 10 1 1))
  | _ => .error .unassigned

/-- MAJOR 0x41 of the opcode map (R43). -/
def Fields.decode41 (f : Fields) : Except Reject Instr :=
  match f.fn with
  | 0 => f.leaf [.w32, .x96l, .x96x, .x160] [f.b, f.c, f.msk, f.typ, f.ord, f.scope]
        (f.litPlace)
        (.ldZ8 f.hd (f.name f.d) (f.name f.a) (f.immediate 10 1 1))
  | _ => .error .unassigned

/-- MAJOR 0x42 of the opcode map (R43). -/
def Fields.decode42 (f : Fields) : Except Reject Instr :=
  match f.fn with
  | 0 => f.leaf [.w32, .x96l, .x96x, .x160] [f.b, f.c, f.msk, f.typ, f.ord, f.scope]
        (f.litPlace)
        (.ldS16 f.hd (f.name f.d) (f.name f.a) (f.immediate 10 2 1))
  | _ => .error .unassigned

/-- MAJOR 0x43 of the opcode map (R43). -/
def Fields.decode43 (f : Fields) : Except Reject Instr :=
  match f.fn with
  | 0 => f.leaf [.w32, .x96l, .x96x, .x160] [f.b, f.c, f.msk, f.typ, f.ord, f.scope]
        (f.litPlace)
        (.ldZ16 f.hd (f.name f.d) (f.name f.a) (f.immediate 10 2 1))
  | _ => .error .unassigned

/-- MAJOR 0x44 of the opcode map (R43). -/
def Fields.decode44 (f : Fields) : Except Reject Instr :=
  match f.fn with
  | 0 => f.leaf [.w32, .x96l, .x96x, .x160] [f.b, f.c, f.msk, f.typ, f.ord, f.scope]
        (f.litPlace)
        (.ldS32 f.hd (f.name f.d) (f.name f.a) (f.immediate 10 4 1))
  | _ => .error .unassigned

/-- MAJOR 0x45 of the opcode map (R43). -/
def Fields.decode45 (f : Fields) : Except Reject Instr :=
  match f.fn with
  | 0 => f.leaf [.w32, .x96l, .x96x, .x160] [f.b, f.c, f.msk, f.typ, f.ord, f.scope]
        (f.litPlace)
        (.ldZ32 f.hd (f.name f.d) (f.name f.a) (f.immediate 10 4 1))
  | _ => .error .unassigned

/-- MAJOR 0x46 of the opcode map (R43). -/
def Fields.decode46 (f : Fields) : Except Reject Instr :=
  match f.fn with
  | 0 => f.leaf [.w32, .x96l, .x96x, .x160] [f.b, f.c, f.msk, f.typ, f.ord, f.scope]
        (f.litPlace)
        (.ldD f.hd (f.name f.d) (f.name f.a) (f.immediate 10 8 1))
  | _ => .error .unassigned

/-- MAJOR 0x47 of the opcode map (R43). -/
def Fields.decode47 (f : Fields) : Except Reject Instr :=
  match f.fn with
  | 0 => f.leaf [.w32, .x96l, .x96x, .x160] [f.b, f.c, f.msk, f.typ, f.ord, f.scope]
        (f.litPlace)
        (.stB f.hd (f.name f.d) (f.name f.a) (f.immediate 10 1 1))
  | _ => .error .unassigned

/-- MAJOR 0x48 of the opcode map (R43). -/
def Fields.decode48 (f : Fields) : Except Reject Instr :=
  match f.fn with
  | 0 => f.leaf [.w32, .x96l, .x96x, .x160] [f.b, f.c, f.msk, f.typ, f.ord, f.scope]
        (f.litPlace)
        (.stH f.hd (f.name f.d) (f.name f.a) (f.immediate 10 2 1))
  | _ => .error .unassigned

/-- MAJOR 0x49 of the opcode map (R43). -/
def Fields.decode49 (f : Fields) : Except Reject Instr :=
  match f.fn with
  | 0 => f.leaf [.w32, .x96l, .x96x, .x160] [f.b, f.c, f.msk, f.typ, f.ord, f.scope]
        (f.litPlace)
        (.stW f.hd (f.name f.d) (f.name f.a) (f.immediate 10 4 1))
  | _ => .error .unassigned

/-- MAJOR 0x4A of the opcode map (R43). -/
def Fields.decode4A (f : Fields) : Except Reject Instr :=
  match f.fn with
  | 0 => f.leaf [.w32, .x96l, .x96x, .x160] [f.b, f.c, f.msk, f.typ, f.ord, f.scope]
        (f.litPlace)
        (.stD f.hd (f.name f.d) (f.name f.a) (f.immediate 10 8 1))
  | _ => .error .unassigned

/-- MAJOR 0x4B of the opcode map (R43). -/
def Fields.decode4B (f : Fields) : Except Reject Instr :=
  match f.fn with
  | 0 => f.leaf [.w32, .x96l, .x96x, .x160] [f.b, f.c, f.msk, f.typ, f.ord, f.scope]
        (f.litPlace)
        (.ldc f.hd (f.name f.d) (f.name f.a) (f.immediate 10 16 1))
  | _ => .error .unassigned

/-- MAJOR 0x4C of the opcode map (R43). -/
def Fields.decode4C (f : Fields) : Except Reject Instr :=
  match f.fn with
  | 0 => f.leaf [.w32, .x96l, .x96x, .x160] [f.b, f.c, f.msk, f.typ, f.ord, f.scope]
        (f.litPlace)
        (.stc f.hd (f.name f.d) (f.name f.a) (f.immediate 10 16 1))
  | _ => .error .unassigned

/-- MAJOR 0x4D of the opcode map (R43). -/
def Fields.decode4D (f : Fields) : Except Reject Instr :=
  match f.fn with
  | 0 => f.leaf [.w32, .x96l, .x96x, .x160] [f.b, f.c, f.msk, f.typ, f.ord, f.scope]
        (f.litPlace)
        (.ldv f.hd (f.name f.d) (f.name f.a) (f.immediate 10 32 1))
  | _ => .error .unassigned

/-- MAJOR 0x4E of the opcode map (R43). -/
def Fields.decode4E (f : Fields) : Except Reject Instr :=
  match f.fn with
  | 0 => f.leaf [.w32, .x96l, .x96x, .x160] [f.b, f.c, f.msk, f.typ, f.ord, f.scope]
        (f.litPlace)
        (.stv f.hd (f.name f.d) (f.name f.a) (f.immediate 10 32 1))
  | _ => .error .unassigned

/-- MAJOR 0x4F of the opcode map (R43). -/
def Fields.decode4F (f : Fields) : Except Reject Instr :=
  match f.fn with
  | 0 => f.leaf [.w32, .x96l, .x96x, .x160] [f.b, f.c, f.msk]
        (f.litPlace ∧ (f.len = .w32 → f.imm = 0) ∧ 16 ≤ f.typ ∧ f.typ ≤ 22 ∧ (f.ord = 1 ∨ f.ord = 4) ∧ f.scope ≤ 8)
        (.lda f.hd (f.name f.d) (f.name f.a) (f.immediate 0 0 1) (Ty.ofCode f.typ) (Ord.ofCode f.ord) (Scope.ofCode f.scope))
  | 1 => f.leaf [.w32, .x96l, .x96x, .x160] [f.b, f.c, f.msk]
        (f.litPlace ∧ (f.len = .w32 → f.imm = 0) ∧ 23 ≤ f.typ ∧ f.typ ≤ 26 ∧ (f.ord = 2 ∨ f.ord = 4) ∧ f.scope ≤ 8)
        (.stl f.hd (f.name f.d) (f.name f.a) (f.immediate 0 0 1) (Ty.ofCode f.typ) (Ord.ofCode f.ord) (Scope.ofCode f.scope))
  | 2 => f.leaf [.x96x, .x160] [f.c, f.ord, f.scope]
        (f.litPlace ∧ (f.typ = 0 ∨ f.typ = 3 ∨ f.typ = 6 ∨ f.typ = 7))
        (.ldvg f.hd (f.name f.d) (f.name f.a) (f.name f.b) (f.immediate 0 0 1) f.msk (Ty.ofCode f.typ))
  | 3 => f.leaf [.x96x, .x160] [f.ord, f.scope]
        (f.litPlace ∧ (f.typ = 0 ∨ f.typ = 3 ∨ f.typ = 6 ∨ f.typ = 7))
        (.ldvgNf f.hd (f.name f.d) (f.name f.a) (f.name f.b) (f.name f.c) (f.immediate 0 0 1) f.msk (Ty.ofCode f.typ))
  | 4 => f.leaf [.x96x, .x160] [f.c, f.ord, f.scope]
        (f.litPlace ∧ (f.typ = 0 ∨ f.typ = 3 ∨ f.typ = 6 ∨ f.typ = 7))
        (.stvs f.hd (f.name f.d) (f.name f.a) (f.name f.b) (f.immediate 0 0 1) f.msk (Ty.ofCode f.typ))
  | 5 => f.leaf [.x96x] [f.d, f.a, f.b, f.c, f.msk, f.typ, f.ord, f.scope]
        ((f.imm = 1 ∨ f.imm = 2))
        (.bsleep f.hd (f.imm))
  | 6 => f.leaf [.x96x] [f.d, f.a, f.b, f.c, f.msk, f.typ, f.ord, f.scope]
        ((f.imm = 1 ∨ f.imm = 2))
        (.bwake f.hd (f.imm))
  | _ => .error .unassigned

/-- MAJOR 0x50 of the opcode map (R43). -/
def Fields.decode50 (f : Fields) : Except Reject Instr :=
  match f.fn with
  | 0 => f.leaf [.w32, .x96x, .x160] [f.c, f.msk, f.typ]
        (f.litPlace ∧ (f.len = .w32 → f.imm = 0) ∧ f.ord ≤ 4 ∧ f.scope ≤ 8)
        (.amoaddW f.hd (f.name f.d) (f.name f.a) (f.name f.b) (f.immediate 0 0 1) (Ord.ofCode f.ord) (Scope.ofCode f.scope))
  | 1 => f.leaf [.w32, .x96x, .x160] [f.c, f.msk, f.typ]
        (f.litPlace ∧ (f.len = .w32 → f.imm = 0) ∧ f.ord ≤ 4 ∧ f.scope ≤ 8)
        (.amoandW f.hd (f.name f.d) (f.name f.a) (f.name f.b) (f.immediate 0 0 1) (Ord.ofCode f.ord) (Scope.ofCode f.scope))
  | 2 => f.leaf [.w32, .x96x, .x160] [f.c, f.msk, f.typ]
        (f.litPlace ∧ (f.len = .w32 → f.imm = 0) ∧ f.ord ≤ 4 ∧ f.scope ≤ 8)
        (.amoorW f.hd (f.name f.d) (f.name f.a) (f.name f.b) (f.immediate 0 0 1) (Ord.ofCode f.ord) (Scope.ofCode f.scope))
  | 3 => f.leaf [.w32, .x96x, .x160] [f.c, f.msk, f.typ]
        (f.litPlace ∧ (f.len = .w32 → f.imm = 0) ∧ f.ord ≤ 4 ∧ f.scope ≤ 8)
        (.amoxorW f.hd (f.name f.d) (f.name f.a) (f.name f.b) (f.immediate 0 0 1) (Ord.ofCode f.ord) (Scope.ofCode f.scope))
  | 4 => f.leaf [.w32, .x96x, .x160] [f.c, f.msk, f.typ]
        (f.litPlace ∧ (f.len = .w32 → f.imm = 0) ∧ f.ord ≤ 4 ∧ f.scope ≤ 8)
        (.amominW f.hd (f.name f.d) (f.name f.a) (f.name f.b) (f.immediate 0 0 1) (Ord.ofCode f.ord) (Scope.ofCode f.scope))
  | 5 => f.leaf [.w32, .x96x, .x160] [f.c, f.msk, f.typ]
        (f.litPlace ∧ (f.len = .w32 → f.imm = 0) ∧ f.ord ≤ 4 ∧ f.scope ≤ 8)
        (.amomaxW f.hd (f.name f.d) (f.name f.a) (f.name f.b) (f.immediate 0 0 1) (Ord.ofCode f.ord) (Scope.ofCode f.scope))
  | 6 => f.leaf [.w32, .x96x, .x160] [f.c, f.msk, f.typ]
        (f.litPlace ∧ (f.len = .w32 → f.imm = 0) ∧ f.ord ≤ 4 ∧ f.scope ≤ 8)
        (.amominzW f.hd (f.name f.d) (f.name f.a) (f.name f.b) (f.immediate 0 0 1) (Ord.ofCode f.ord) (Scope.ofCode f.scope))
  | 7 => f.leaf [.w32, .x96x, .x160] [f.c, f.msk, f.typ]
        (f.litPlace ∧ (f.len = .w32 → f.imm = 0) ∧ f.ord ≤ 4 ∧ f.scope ≤ 8)
        (.amomaxzW f.hd (f.name f.d) (f.name f.a) (f.name f.b) (f.immediate 0 0 1) (Ord.ofCode f.ord) (Scope.ofCode f.scope))
  | 8 => f.leaf [.w32, .x96x, .x160] [f.c, f.msk, f.typ]
        (f.litPlace ∧ (f.len = .w32 → f.imm = 0) ∧ f.ord ≤ 4 ∧ f.scope ≤ 8)
        (.amoswapW f.hd (f.name f.d) (f.name f.a) (f.name f.b) (f.immediate 0 0 1) (Ord.ofCode f.ord) (Scope.ofCode f.scope))
  | 9 => f.leaf [.w32, .x96x, .x160] [f.c, f.msk, f.typ]
        (f.litPlace ∧ (f.len = .w32 → f.imm = 0) ∧ f.ord ≤ 4 ∧ f.scope ≤ 8)
        (.amocasW f.hd (f.name f.d) (f.name f.a) (f.name f.b) (f.immediate 0 0 1) (Ord.ofCode f.ord) (Scope.ofCode f.scope))
  | _ => .error .unassigned

/-- MAJOR 0x51 of the opcode map (R43). -/
def Fields.decode51 (f : Fields) : Except Reject Instr :=
  match f.fn with
  | 0 => f.leaf [.w32, .x96x, .x160] [f.c, f.msk, f.typ]
        (f.litPlace ∧ (f.len = .w32 → f.imm = 0) ∧ f.ord ≤ 4 ∧ f.scope ≤ 8)
        (.amoaddD f.hd (f.name f.d) (f.name f.a) (f.name f.b) (f.immediate 0 0 1) (Ord.ofCode f.ord) (Scope.ofCode f.scope))
  | 1 => f.leaf [.w32, .x96x, .x160] [f.c, f.msk, f.typ]
        (f.litPlace ∧ (f.len = .w32 → f.imm = 0) ∧ f.ord ≤ 4 ∧ f.scope ≤ 8)
        (.amoandD f.hd (f.name f.d) (f.name f.a) (f.name f.b) (f.immediate 0 0 1) (Ord.ofCode f.ord) (Scope.ofCode f.scope))
  | 2 => f.leaf [.w32, .x96x, .x160] [f.c, f.msk, f.typ]
        (f.litPlace ∧ (f.len = .w32 → f.imm = 0) ∧ f.ord ≤ 4 ∧ f.scope ≤ 8)
        (.amoorD f.hd (f.name f.d) (f.name f.a) (f.name f.b) (f.immediate 0 0 1) (Ord.ofCode f.ord) (Scope.ofCode f.scope))
  | 3 => f.leaf [.w32, .x96x, .x160] [f.c, f.msk, f.typ]
        (f.litPlace ∧ (f.len = .w32 → f.imm = 0) ∧ f.ord ≤ 4 ∧ f.scope ≤ 8)
        (.amoxorD f.hd (f.name f.d) (f.name f.a) (f.name f.b) (f.immediate 0 0 1) (Ord.ofCode f.ord) (Scope.ofCode f.scope))
  | 4 => f.leaf [.w32, .x96x, .x160] [f.c, f.msk, f.typ]
        (f.litPlace ∧ (f.len = .w32 → f.imm = 0) ∧ f.ord ≤ 4 ∧ f.scope ≤ 8)
        (.amominD f.hd (f.name f.d) (f.name f.a) (f.name f.b) (f.immediate 0 0 1) (Ord.ofCode f.ord) (Scope.ofCode f.scope))
  | 5 => f.leaf [.w32, .x96x, .x160] [f.c, f.msk, f.typ]
        (f.litPlace ∧ (f.len = .w32 → f.imm = 0) ∧ f.ord ≤ 4 ∧ f.scope ≤ 8)
        (.amomaxD f.hd (f.name f.d) (f.name f.a) (f.name f.b) (f.immediate 0 0 1) (Ord.ofCode f.ord) (Scope.ofCode f.scope))
  | 6 => f.leaf [.w32, .x96x, .x160] [f.c, f.msk, f.typ]
        (f.litPlace ∧ (f.len = .w32 → f.imm = 0) ∧ f.ord ≤ 4 ∧ f.scope ≤ 8)
        (.amominzD f.hd (f.name f.d) (f.name f.a) (f.name f.b) (f.immediate 0 0 1) (Ord.ofCode f.ord) (Scope.ofCode f.scope))
  | 7 => f.leaf [.w32, .x96x, .x160] [f.c, f.msk, f.typ]
        (f.litPlace ∧ (f.len = .w32 → f.imm = 0) ∧ f.ord ≤ 4 ∧ f.scope ≤ 8)
        (.amomaxzD f.hd (f.name f.d) (f.name f.a) (f.name f.b) (f.immediate 0 0 1) (Ord.ofCode f.ord) (Scope.ofCode f.scope))
  | 8 => f.leaf [.w32, .x96x, .x160] [f.c, f.msk, f.typ]
        (f.litPlace ∧ (f.len = .w32 → f.imm = 0) ∧ f.ord ≤ 4 ∧ f.scope ≤ 8)
        (.amoswapD f.hd (f.name f.d) (f.name f.a) (f.name f.b) (f.immediate 0 0 1) (Ord.ofCode f.ord) (Scope.ofCode f.scope))
  | 9 => f.leaf [.w32, .x96x, .x160] [f.c, f.msk, f.typ]
        (f.litPlace ∧ (f.len = .w32 → f.imm = 0) ∧ f.ord ≤ 4 ∧ f.scope ≤ 8)
        (.amocasD f.hd (f.name f.d) (f.name f.a) (f.name f.b) (f.immediate 0 0 1) (Ord.ofCode f.ord) (Scope.ofCode f.scope))
  | _ => .error .unassigned

/-- MAJOR 0x52 of the opcode map (R43). -/
def Fields.decode52 (f : Fields) : Except Reject Instr :=
  match f.fn with
  | 0 => f.leaf [.w32, .x96x, .x160] [f.c, f.msk, f.typ]
        (f.litPlace ∧ (f.len = .w32 → f.imm = 0) ∧ f.ord ≤ 4 ∧ f.scope ≤ 8)
        (.amocasc f.hd (f.name f.d) (f.name f.a) (f.name f.b) (f.immediate 0 0 1) (Ord.ofCode f.ord) (Scope.ofCode f.scope))
  | _ => .error .unassigned

/-- MAJOR 0x58 of the opcode map (R43). -/
def Fields.decode58 (f : Fields) : Except Reject Instr :=
  match f.fn with
  | 0 => f.leaf [.w32, .x96x] [f.b, f.c, f.msk, f.typ, f.ord, f.scope, f.imm]
        (True)
        (.wfe f.hd (f.name f.d) (f.name f.a))
  | 1 => f.leaf [.w32, .x96x] [f.d, f.c, f.msk, f.typ, f.ord, f.scope, f.imm]
        (True)
        (.sev f.hd (f.name f.a) (f.name f.b))
  | 2 => f.leaf [.w32, .x96x] [f.d, f.b, f.c, f.msk, f.typ, f.ord, f.scope, f.imm]
        (True)
        (.bara f.hd (f.name f.a))
  | 3 => f.leaf [.w32, .x96x] [f.d, f.b, f.c, f.msk, f.typ, f.ord, f.scope, f.imm]
        (True)
        (.barw f.hd (f.name f.a))
  | 4 => f.leaf [.w32, .x96x] [f.d, f.b, f.c, f.msk, f.typ, f.ord, f.scope, f.imm]
        (True)
        (.semp f.hd (f.name f.a))
  | 5 => f.leaf [.w32, .x96x] [f.d, f.b, f.c, f.msk, f.typ, f.ord, f.scope, f.imm]
        (True)
        (.semv f.hd (f.name f.a))
  | _ => .error .unassigned

/-- MAJOR 0x59 of the opcode map (R43). -/
def Fields.decode59 (f : Fields) : Except Reject Instr :=
  match f.fn with
  | 0 => f.leaf [.w32, .x96x] [f.d, f.a, f.b, f.c, f.msk, f.typ, f.imm]
        (1 ≤ f.ord ∧ f.ord ≤ 4 ∧ f.scope ≤ 8)
        (.fence f.hd (Ord.ofCode f.ord) (Scope.ofCode f.scope))
  | _ => .error .unassigned

/-- MAJOR 0x5A of the opcode map (R43). -/
def Fields.decode5A (f : Fields) : Except Reject Instr :=
  match f.fn with
  | 0 => f.leaf [.w32, .x96x] [f.d, f.c, f.msk, f.typ, f.imm]
        (f.ord ≤ 1 ∧ f.scope ≤ 8)
        (.waitva f.hd (f.name f.a) (f.name f.b) (Ord.ofCode f.ord) (Scope.ofCode f.scope))
  | 1 => f.leaf [.w32, .x96x] [f.d, f.c, f.msk, f.typ, f.imm]
        ((f.ord = 0 ∨ f.ord = 2) ∧ f.scope ≤ 8)
        (.wakeva f.hd (f.name f.a) (f.name f.b) (Ord.ofCode f.ord) (Scope.ofCode f.scope))
  | 2 => f.leaf [.w32, .x96x] [f.d, f.c, f.msk, f.typ, f.imm]
        ((f.ord = 0 ∨ f.ord = 2) ∧ f.scope ≤ 8)
        (.mpost f.hd (f.name f.a) (f.name f.b) (Ord.ofCode f.ord) (Scope.ofCode f.scope))
  | 3 => f.leaf [.w32, .x96x] [f.d, f.c, f.msk, f.typ, f.imm]
        ((f.ord = 0 ∨ f.ord = 2) ∧ f.scope ≤ 8)
        (.send f.hd (f.name f.a) (f.name f.b) (Ord.ofCode f.ord) (Scope.ofCode f.scope))
  | 4 => f.leaf [.w32, .x96x] [f.b, f.c, f.msk, f.typ, f.imm]
        (f.ord ≤ 1 ∧ f.scope ≤ 8)
        (.recv f.hd (f.name f.d) (f.name f.a) (Ord.ofCode f.ord) (Scope.ofCode f.scope))
  | _ => .error .unassigned

/-- MAJOR 0x60 of the opcode map (R43). -/
def Fields.decode60 (f : Fields) : Except Reject Instr :=
  match f.fn with
  | 0 => f.leaf [.w32, .x96x] [f.c, f.ord, f.scope, f.imm]
        (f.typ ≤ 6)
        (.vadd f.hd (f.name f.d) (f.name f.a) (f.name f.b) f.msk (Ty.ofCode f.typ))
  | 1 => f.leaf [.w32, .x96x] [f.c, f.ord, f.scope, f.imm]
        (f.typ ≤ 6)
        (.vsub f.hd (f.name f.d) (f.name f.a) (f.name f.b) f.msk (Ty.ofCode f.typ))
  | _ => .error .unassigned

/-- MAJOR 0x61 of the opcode map (R43). -/
def Fields.decode61 (f : Fields) : Except Reject Instr :=
  match f.fn with
  | 0 => f.leaf [.w32, .x96x] [f.c, f.ord, f.scope, f.imm]
        (f.typ ≤ 6)
        (.vmul f.hd (f.name f.d) (f.name f.a) (f.name f.b) f.msk (Ty.ofCode f.typ))
  | _ => .error .unassigned

/-- MAJOR 0x62 of the opcode map (R43). -/
def Fields.decode62 (f : Fields) : Except Reject Instr :=
  match f.fn with
  | 0 => f.leaf [.w32, .x96x] [f.c, f.ord, f.scope, f.imm]
        (f.typ ≤ 6)
        (.vmad f.hd (f.name f.d) (f.name f.a) (f.name f.b) f.msk (Ty.ofCode f.typ))
  | _ => .error .unassigned

/-- MAJOR 0x63 of the opcode map (R43). -/
def Fields.decode63 (f : Fields) : Except Reject Instr :=
  if 2 ≤ f.fn ∨ (f.fn = 1 ∧ f.len ≠ .w32) then .error .unassigned else
  f.leaf [.w32, .x96x] [f.c, f.ord, f.scope, f.imm]
        (f.typ ≤ 6)
        (.vmin f.hd (f.name f.d) (f.name f.a) (f.name f.b) f.msk (if f.fn = 1 then .z32 else Ty.ofCode f.typ))

/-- MAJOR 0x64 of the opcode map (R43). -/
def Fields.decode64 (f : Fields) : Except Reject Instr :=
  if 2 ≤ f.fn ∨ (f.fn = 1 ∧ f.len ≠ .w32) then .error .unassigned else
  f.leaf [.w32, .x96x] [f.c, f.ord, f.scope, f.imm]
        (f.typ ≤ 6)
        (.vmax f.hd (f.name f.d) (f.name f.a) (f.name f.b) f.msk (if f.fn = 1 then .z32 else Ty.ofCode f.typ))

/-- MAJOR 0x65 of the opcode map (R43). -/
def Fields.decode65 (f : Fields) : Except Reject Instr :=
  match f.fn with
  | 0 => f.leaf [.w32, .x96x] [f.c, f.ord, f.scope, f.imm]
        (f.typ ≤ 6)
        (.vand f.hd (f.name f.d) (f.name f.a) (f.name f.b) f.msk (Ty.ofCode f.typ))
  | _ => .error .unassigned

/-- MAJOR 0x66 of the opcode map (R43). -/
def Fields.decode66 (f : Fields) : Except Reject Instr :=
  match f.fn with
  | 0 => f.leaf [.w32, .x96x] [f.c, f.ord, f.scope, f.imm]
        (f.typ ≤ 6)
        (.vor f.hd (f.name f.d) (f.name f.a) (f.name f.b) f.msk (Ty.ofCode f.typ))
  | _ => .error .unassigned

/-- MAJOR 0x67 of the opcode map (R43). -/
def Fields.decode67 (f : Fields) : Except Reject Instr :=
  match f.fn with
  | 0 => f.leaf [.w32, .x96x] [f.c, f.ord, f.scope, f.imm]
        (f.typ ≤ 6)
        (.vxor f.hd (f.name f.d) (f.name f.a) (f.name f.b) f.msk (Ty.ofCode f.typ))
  | _ => .error .unassigned

/-- MAJOR 0x68 of the opcode map (R43). -/
def Fields.decode68 (f : Fields) : Except Reject Instr :=
  match f.fn with
  | 0 => f.leaf [.w32, .x96x] [f.c, f.ord, f.scope, f.imm]
        (f.typ ≤ 6)
        (.vshl f.hd (f.name f.d) (f.name f.a) (f.name f.b) f.msk (Ty.ofCode f.typ))
  | _ => .error .unassigned

/-- MAJOR 0x69 of the opcode map (R43). -/
def Fields.decode69 (f : Fields) : Except Reject Instr :=
  match f.fn with
  | 0 => f.leaf [.w32, .x96x] [f.c, f.ord, f.scope, f.imm]
        (f.typ ≤ 6)
        (.vshr f.hd (f.name f.d) (f.name f.a) (f.name f.b) f.msk (Ty.ofCode f.typ))
  | 1 => f.leaf [.w32, .x96x] [f.c, f.ord, f.scope, f.imm]
        (f.typ ≤ 6)
        (.vsar f.hd (f.name f.d) (f.name f.a) (f.name f.b) f.msk (Ty.ofCode f.typ))
  | _ => .error .unassigned

/-- MAJOR 0x6A of the opcode map (R43). -/
def Fields.decode6A (f : Fields) : Except Reject Instr :=
  match f.fn with
  | 0 => f.leaf [.w32, .x96x] [f.b, f.c, f.ord, f.scope, f.imm]
        (f.typ ≤ 3)
        (.vabs f.hd (f.name f.d) (f.name f.a) f.msk (Ty.ofCode f.typ))
  | 1 => f.leaf [.w32, .x96x] [f.b, f.c, f.ord, f.scope, f.imm]
        (f.typ ≤ 3)
        (.vneg f.hd (f.name f.d) (f.name f.a) f.msk (Ty.ofCode f.typ))
  | _ => .error .unassigned

/-- MAJOR 0x6B of the opcode map (R43). -/
def Fields.decode6B (f : Fields) : Except Reject Instr :=
  match f.fn with
  | 0 => f.leaf [.x96x] [f.ord, f.scope]
        (f.typ ≤ 6 ∧ f.imm < 256)
        (.vlogt f.hd (f.name f.d) (f.name f.a) (f.name f.b) (f.name f.c) (f.imm) f.msk (Ty.ofCode f.typ))
  | _ => .error .unassigned

/-- MAJOR 0x6C of the opcode map (R43). -/
def Fields.decode6C (f : Fields) : Except Reject Instr :=
  match f.fn with
  | 0 => f.leaf [.x96x] [f.c, f.ord, f.scope]
        ((f.typ ≤ 9) ∧ f.imm < 8)
        (.vcmp f.hd (f.name f.d) (f.name f.a) (f.name f.b) (f.imm) f.msk (Ty.ofCode f.typ))
  | 1 => f.leaf [.x96x] [f.c, f.ord, f.scope, f.imm]
        (f.typ ≤ 11)
        (.vsel f.hd (f.name f.d) (f.name f.a) (f.name f.b) f.msk (Ty.ofCode f.typ))
  | 2 => f.leaf [.x96x] [f.b, f.c, f.ord, f.scope, f.imm]
        (f.typ ≤ 11)
        (.vbcast f.hd (f.name f.d) (f.name f.a) f.msk (Ty.ofCode f.typ))
  | 3 => f.leaf [.x96x] [f.c, f.msk, f.ord, f.scope, f.imm]
        (f.typ ≤ 11)
        (.vext f.hd (f.name f.d) (f.name f.a) (f.name f.b) (Ty.ofCode f.typ))
  | 4 => f.leaf [.x96x] [f.c, f.msk, f.ord, f.scope, f.imm]
        (f.typ ≤ 11)
        (.vins f.hd (f.name f.d) (f.name f.a) (f.name f.b) (Ty.ofCode f.typ))
  | 5 => f.leaf [.x96x] [f.c, f.ord, f.scope, f.imm]
        (f.typ ≤ 11)
        (.vperm f.hd (f.name f.d) (f.name f.a) (f.name f.b) f.msk (Ty.ofCode f.typ))
  | 6 => f.leaf [.x96x] [f.b, f.c, f.ord, f.scope]
        ((f.typ ≤ 9) ∧ f.imm < 3)
        (.vred f.hd (f.name f.d) (f.name f.a) (f.imm) f.msk (Ty.ofCode f.typ))
  | _ => .error .unassigned

/-- MAJOR 0x70 of the opcode map (R43). -/
def Fields.decode70 (f : Fields) : Except Reject Instr :=
  match f.fn with
  | 0 => f.leaf [.w32, .x96x] [f.c, f.ord, f.scope, f.imm]
        ((f.typ = 0 ∨ (7 ≤ f.typ ∧ f.typ ≤ 9)))
        (.vfadd f.hd (f.name f.d) (f.name f.a) (f.name f.b) f.msk (Ty.ofCode f.typ))
  | 1 => f.leaf [.w32, .x96x] [f.c, f.ord, f.scope, f.imm]
        ((f.typ = 0 ∨ (7 ≤ f.typ ∧ f.typ ≤ 9)))
        (.vfsub f.hd (f.name f.d) (f.name f.a) (f.name f.b) f.msk (Ty.ofCode f.typ))
  | _ => .error .unassigned

/-- MAJOR 0x71 of the opcode map (R43). -/
def Fields.decode71 (f : Fields) : Except Reject Instr :=
  match f.fn with
  | 0 => f.leaf [.w32, .x96x] [f.c, f.ord, f.scope, f.imm]
        ((f.typ = 0 ∨ (7 ≤ f.typ ∧ f.typ ≤ 9)))
        (.vfmul f.hd (f.name f.d) (f.name f.a) (f.name f.b) f.msk (Ty.ofCode f.typ))
  | _ => .error .unassigned

/-- MAJOR 0x72 of the opcode map (R43). -/
def Fields.decode72 (f : Fields) : Except Reject Instr :=
  match f.fn with
  | 0 => f.leaf [.w32, .x96x] [f.c, f.ord, f.scope, f.imm]
        ((f.typ = 0 ∨ (7 ≤ f.typ ∧ f.typ ≤ 9)))
        (.vfma f.hd (f.name f.d) (f.name f.a) (f.name f.b) f.msk (Ty.ofCode f.typ))
  | 1 => f.leaf [.w32, .x96x] [f.c, f.ord, f.scope, f.imm]
        ((f.typ = 0 ∨ (7 ≤ f.typ ∧ f.typ ≤ 9)))
        (.vfnma f.hd (f.name f.d) (f.name f.a) (f.name f.b) f.msk (Ty.ofCode f.typ))
  | _ => .error .unassigned

/-- MAJOR 0x73 of the opcode map (R43). -/
def Fields.decode73 (f : Fields) : Except Reject Instr :=
  match f.fn with
  | 0 => f.leaf [.w32, .x96x] [f.c, f.ord, f.scope, f.imm]
        ((f.typ = 0 ∨ (7 ≤ f.typ ∧ f.typ ≤ 9)))
        (.vfmin f.hd (f.name f.d) (f.name f.a) (f.name f.b) f.msk (Ty.ofCode f.typ))
  | 1 => f.leaf [.w32, .x96x] [f.c, f.ord, f.scope, f.imm]
        ((f.typ = 0 ∨ (7 ≤ f.typ ∧ f.typ ≤ 9)))
        (.vfmax f.hd (f.name f.d) (f.name f.a) (f.name f.b) f.msk (Ty.ofCode f.typ))
  | _ => .error .unassigned

/-- MAJOR 0x74 of the opcode map (R43). -/
def Fields.decode74 (f : Fields) : Except Reject Instr :=
  match f.fn with
  | 0 => f.leaf [.w32, .x96x] [f.c, f.ord, f.scope, f.imm]
        ((f.typ = 0 ∨ (7 ≤ f.typ ∧ f.typ ≤ 9)))
        (.vfdiv f.hd (f.name f.d) (f.name f.a) (f.name f.b) f.msk (Ty.ofCode f.typ))
  | _ => .error .unassigned

/-- MAJOR 0x75 of the opcode map (R43). -/
def Fields.decode75 (f : Fields) : Except Reject Instr :=
  if f.fn ≠ 0 then .error .unassigned else
  match f.b with
  | 0 => f.leaf [.w32, .x96x] [f.c, f.ord, f.scope, f.imm]
        ((f.typ = 0 ∨ (7 ≤ f.typ ∧ f.typ ≤ 9)))
        (.vfsqrt f.hd (f.name f.d) (f.name f.a) f.msk (Ty.ofCode f.typ))
  | 1 => f.leaf [.w32, .x96x] [f.c, f.ord, f.scope, f.imm]
        ((f.typ = 0 ∨ (7 ≤ f.typ ∧ f.typ ≤ 9)))
        (.vfrcp f.hd (f.name f.d) (f.name f.a) f.msk (Ty.ofCode f.typ))
  | 2 => f.leaf [.w32, .x96x] [f.c, f.ord, f.scope, f.imm]
        ((f.typ = 0 ∨ (7 ≤ f.typ ∧ f.typ ≤ 9)))
        (.vfrsq f.hd (f.name f.d) (f.name f.a) f.msk (Ty.ofCode f.typ))
  | 3 => f.leaf [.w32, .x96x] [f.c, f.ord, f.scope, f.imm]
        ((f.typ = 0 ∨ (7 ≤ f.typ ∧ f.typ ≤ 9)))
        (.vfexp2 f.hd (f.name f.d) (f.name f.a) f.msk (Ty.ofCode f.typ))
  | 4 => f.leaf [.w32, .x96x] [f.c, f.ord, f.scope, f.imm]
        ((f.typ = 0 ∨ (7 ≤ f.typ ∧ f.typ ≤ 9)))
        (.vflog2 f.hd (f.name f.d) (f.name f.a) f.msk (Ty.ofCode f.typ))
  | 5 => f.leaf [.w32, .x96x] [f.c, f.ord, f.scope, f.imm]
        ((f.typ = 0 ∨ (7 ≤ f.typ ∧ f.typ ≤ 9)))
        (.vftanh f.hd (f.name f.d) (f.name f.a) f.msk (Ty.ofCode f.typ))
  | _ => .error .value

/-- MAJOR 0x78 of the opcode map (R43). -/
def Fields.decode78 (f : Fields) : Except Reject Instr :=
  match f.fn with
  | 0 => f.leaf [.x96x] [f.b, f.c, f.ord, f.scope]
        (1 ≤ f.typ ∧ f.typ ≤ 11 ∧ f.imm / 32 ≤ 5 ∧ 1 ≤ f.imm % 32 ∧ f.imm % 32 ≤ 11)
        (.vcvt f.hd (f.name f.d) (f.name f.a) (f.imm % 32) (f.imm / 32) f.msk (Ty.ofCode f.typ))
  | 1 => f.leaf [.x96x] [f.b, f.c, f.msk, f.ord, f.scope, f.imm]
        (12 ≤ f.typ ∧ f.typ ≤ 14)
        (.vquant f.hd (f.name f.d) (f.name f.a) (Ty.ofCode f.typ))
  | 2 => f.leaf [.x96x] [f.b, f.c, f.msk, f.ord, f.scope, f.imm]
        (12 ≤ f.typ ∧ f.typ ≤ 14)
        (.vdeq f.hd (f.name f.d) (f.name f.a) (Ty.ofCode f.typ))
  | _ => .error .unassigned

/-- MAJOR 0x79 of the opcode map (R43). -/
def Fields.decode79 (f : Fields) : Except Reject Instr :=
  match f.fn with
  | 0 => f.leaf [.x96x] [f.b, f.c, f.msk, f.ord, f.scope, f.imm]
        ((f.typ = 0 ∨ f.typ = 6 ∨ f.typ = 7))
        (.xmax f.hd (f.name f.d) (f.name f.a) (Ty.ofCode f.typ))
  | 1 => f.leaf [.x96x] [f.c, f.msk, f.ord, f.scope, f.imm]
        (12 ≤ f.typ ∧ f.typ ≤ 14)
        (.vbaddq f.hd (f.name f.d) (f.name f.a) (f.name f.b) (Ty.ofCode f.typ))
  | _ => .error .unassigned

/-- MAJOR 0x7C of the opcode map (R43). -/
def Fields.decode7C (f : Fields) : Except Reject Instr :=
  match f.fn with
  | 0 => f.leaf [.x96x] [f.b, f.msk, f.ord, f.scope]
        (f.c < 128 ∧ 12 ≤ f.typ ∧ f.typ ≤ 14 ∧ f.imm < 4)
        (.mload f.hd (f.name f.d) (f.name f.a) f.c (f.imm % 2) (f.imm / 2) (Ty.ofCode f.typ))
  | 1 => f.leaf [.x96x] [f.a, f.b, f.msk, f.typ, f.ord, f.scope]
        (f.c < 128 ∧ 1 ≤ f.imm ∧ f.imm ≤ 3)
        (.mswap f.hd (f.name f.d) f.c (f.imm))
  | 2 => f.leaf [.x96x, .x160] [f.msk, f.ord, f.scope]
        (f.c < 128 ∧ 12 ≤ f.typ ∧ f.typ ≤ 14 ∧ f.litPlace ∧ (f.len = .x160 → f.b = 0) ∧ f.imm < 65536)
        (.mrun f.hd (f.name f.d) (f.name f.a) (f.name f.b) f.c (f.imm) (Ty.ofCode f.typ) (BitVec.ofNat 64 f.lit))
  | 3 => f.leaf [.x96x, .x160] [f.msk, f.typ, f.ord]
        (f.c < 128 ∧ f.scope ≤ 8 ∧ f.litPlace ∧ (f.len = .x160 → f.b = 0) ∧ f.imm = 0)
        (.mdrain f.hd (f.name f.d) (f.name f.a) (f.name f.b) f.c (Scope.ofCode f.scope) (BitVec.ofNat 64 f.lit))
  | 4 => f.leaf [.x96x] [f.d, f.b, f.c, f.msk, f.typ, f.ord, f.scope]
        (f.imm < 64)
        (.mslot f.hd (f.name f.a) (f.imm))
  | 5 => f.leaf [.x96x] [f.a, f.b, f.c, f.msk, f.typ, f.ord, f.scope]
        ((f.imm ≤ 2 ∨ f.imm = 257))
        (.mstat f.hd (f.name f.d) (f.imm))
  | 8 => f.leaf [.x96x, .x160] [f.msk, f.typ, f.ord]
        (f.c < 128 ∧ f.scope ≤ 8 ∧ f.litPlace ∧ f.imm = 0)
        (.cpy f.hd (f.name f.d) (f.name f.a) (f.name f.b) f.c (Scope.ofCode f.scope) (BitVec.ofNat 64 f.lit))
  | 9 => f.leaf [.x96x, .x160] [f.typ, f.ord]
        (f.c < 128 ∧ f.scope ≤ 8 ∧ f.litPlace ∧ f.imm = 0 ∧ 1 ≤ f.msk)
        (.cpym f.hd (f.name f.d) (f.name f.a) (f.name f.b) f.c f.msk (Scope.ofCode f.scope) (BitVec.ofNat 64 f.lit))
  | 10 => f.leaf [.x96x, .x160] [f.msk, f.ord]
        (f.c < 128 ∧ 1 ≤ f.typ ∧ f.typ ≤ 14 ∧ f.scope ≤ 8 ∧ f.litPlace ∧ f.imm = 0)
        (.conv f.hd (f.name f.d) (f.name f.a) (f.name f.b) f.c (Ty.ofCode f.typ) (Scope.ofCode f.scope) (BitVec.ofNat 64 f.lit))
  | 11 => f.leaf [.x96x] [f.msk, f.typ, f.ord, f.scope]
        (f.c < 64 ∧ f.imm ≤ 1 ∧ (if f.imm = 1 then f.a = 0 else f.b = 0 ∧ f.c = 0))
        (.jwait f.hd (f.name f.d) (f.name f.a) (f.name f.b) f.c (f.imm))
  | 12 => f.leaf [.x96x] [f.b, f.msk, f.typ, f.ord, f.scope]
        (f.c < 64 ∧ f.imm ≤ 1 ∧ (if f.imm = 1 then f.a = 0 else f.c = 0))
        (.jstat f.hd (f.name f.d) (f.name f.a) f.c (f.imm))
  | 13 => f.leaf [.x96x] [f.b, f.c, f.msk, f.typ, f.ord, f.scope, f.imm]
        (True)
        (.jcancel f.hd (f.name f.d) (f.name f.a))
  | _ => .error .unassigned

/-- MAJOR 0x7D of the opcode map (R43). -/
def Fields.decode7D (f : Fields) : Except Reject Instr :=
  match f.fn with
  | 0 => f.leaf [.w32, .x96x] [f.d, f.a, f.c, f.msk, f.typ, f.ord, f.scope, f.imm]
        (f.b < 64 ∧ 1 ≤ f.b ∧ f.b ≤ 4)
        (.gang f.hd f.b)
  | 1 => f.leaf [.w32, .x96x] [f.d, f.a, f.b, f.c, f.msk, f.typ, f.ord, f.scope, f.imm]
        (True)
        (.split f.hd)
  | 2 => f.leaf [.w32, .x96x] [f.d, f.a, f.b, f.c, f.msk, f.typ, f.ord, f.scope, f.imm]
        (True)
        (.mpair f.hd)
  | 3 => f.leaf [.w32, .x96x] [f.d, f.a, f.b, f.c, f.msk, f.typ, f.ord, f.scope, f.imm]
        (True)
        (.munpair f.hd)
  | 4 => f.leaf [.w32, .x96x] [f.a, f.b, f.c, f.msk, f.typ, f.ord, f.scope, f.imm]
        (True)
        (.mchk f.hd (f.name f.d))
  | 5 => f.leaf [.w32, .x96x] [f.c, f.msk, f.typ, f.ord, f.scope]
        (f.imm ≤ 1)
        (.qpush f.hd (f.name f.d) (f.name f.a) (f.name f.b) (f.imm))
  | 6 => f.leaf [.w32, .x96x] [f.c, f.msk, f.typ, f.ord, f.scope, f.imm]
        (True)
        (.qpushWait f.hd (f.name f.d) (f.name f.a) (f.name f.b))
  | 7 => f.leaf [.w32, .x96x] [f.b, f.c, f.msk, f.typ, f.ord, f.scope, f.imm]
        (True)
        (.qpop f.hd (f.name f.d) (f.name f.a))
  | 8 => f.leaf [.w32, .x96x] [f.b, f.c, f.msk, f.typ, f.ord, f.scope, f.imm]
        (True)
        (.qpopg f.hd (f.name f.d) (f.name f.a))
  | 9 => f.leaf [.w32, .x96x] [f.b, f.c, f.msk, f.typ, f.ord, f.scope, f.imm]
        (True)
        (.qstat f.hd (f.name f.d) (f.name f.a))
  | 10 => f.leaf [.w32, .x96x] [f.a, f.c, f.msk, f.typ, f.ord, f.scope, f.imm]
        (True)
        (.spawn f.hd (f.name f.d) (f.name f.b))
  | 11 => f.leaf [.w32, .x96x] [f.a, f.c, f.msk, f.typ, f.ord, f.scope, f.imm]
        (f.b < 64 ∧ f.b < 16 ∧ f.b % 8 < 6)
        (.shape f.hd (f.name f.d) f.b)
  | 12 => f.leaf [.w32, .x96x] [f.a, f.c, f.msk, f.typ, f.ord, f.scope, f.imm]
        (f.b < 64 ∧ f.b < 4)
        (.kstat f.hd (f.name f.d) f.b)
  | 13 => f.leaf [.w32, .x96x] [f.c, f.msk, f.typ, f.ord, f.scope, f.imm]
        (True)
        (.prpush f.hd (f.name f.d) (f.name f.a) (f.name f.b))
  | 14 => f.leaf [.w32, .x96x] [f.b, f.c, f.msk, f.typ, f.ord, f.scope, f.imm]
        (True)
        (.prpop f.hd (f.name f.d) (f.name f.a))
  | 15 => f.leaf [.w32, .x96x] [f.c, f.msk, f.typ, f.ord, f.scope, f.imm]
        (True)
        (.prclass f.hd (f.name f.d) (f.name f.a) (f.name f.b))
  | 16 => f.leaf [.x96x] [f.msk, f.typ, f.ord, f.scope]
        (f.imm < 64 ∧ ((f.imm % 16 < 8 ∧ 1 ≤ f.imm / 16) ∨ (f.imm % 16 = 8 ∧ f.imm / 16 = 0)))
        (.ptwr f.hd (f.name f.d) (f.name f.a) (f.name f.b) (f.name f.c) (f.imm % 16) (f.imm / 16))
  | 17 => f.leaf [.x96x] [f.c, f.msk, f.typ, f.ord, f.scope]
        (f.imm < 64 ∧ f.imm % 16 < 10 ∧ (f.imm % 16 = 8 → f.imm < 32))
        (.ptrd f.hd (f.name f.d) (f.name f.a) (f.name f.b) (f.imm % 16) (f.imm / 16 % 2) (f.imm / 32))
  | 18 => f.leaf [.x96x] [f.d, f.b, f.c, f.msk, f.typ, f.ord, f.scope]
        (1 ≤ f.imm ∧ f.imm < 1024)
        (.ptflip f.hd (f.name f.a) (f.imm))
  | 24 => f.leaf [.x96x] [f.c, f.msk, f.typ, f.ord, f.scope, f.imm]
        (True)
        (.tlbw f.hd (f.name f.d) (f.name f.a) (f.name f.b))
  | 25 => f.leaf [.x96x] [f.d, f.c, f.msk, f.typ, f.ord, f.scope]
        (f.imm < 4 ∧ (f.imm < 2 ∨ f.a = 0))
        (.tlbi f.hd (f.name f.a) (f.name f.b) (f.imm))
  | 26 => f.leaf [.x96x] [f.a, f.b, f.c, f.msk, f.typ, f.ord, f.scope]
        (f.imm < 3)
        (.frpop f.hd (f.name f.d) (f.imm))
  | 27 => f.leaf [.x96x] [f.b, f.c, f.msk, f.typ, f.ord, f.scope]
        (f.imm ≤ 1)
        (.cresume f.hd (f.name f.d) (f.name f.a) (f.imm))
  | 32 => f.leaf [.x96x] [f.d, f.c, f.msk, f.typ, f.ord, f.scope, f.imm]
        (True)
        (.decl f.hd (f.name f.a) (f.name f.b))
  | _ => .error .unassigned

/-- MAJOR 0x7E of the opcode map (R43). -/
def Fields.decode7E (f : Fields) : Except Reject Instr :=
  match f.fn with
  | 0 => f.leaf [.w32, .x96x] [f.a, f.c, f.msk, f.typ, f.ord, f.scope, f.imm]
        (f.b < 64 ∧ f.b ≤ 22)
        (.srd f.hd (f.name f.d) f.b)
  | 1 => f.leaf [.w32, .x96x] [f.d, f.c, f.msk, f.typ, f.ord, f.scope, f.imm]
        (f.b < 64 ∧ f.b ≤ 22)
        (.swr f.hd (f.name f.a) f.b)
  | 2 => f.leaf [.w32, .x96x] [f.d, f.a, f.b, f.c, f.msk, f.typ, f.ord, f.scope, f.imm]
        (True)
        (.bkpt f.hd)
  | 3 => f.leaf [.w32, .x96x] [f.d, f.a, f.b, f.c, f.msk, f.typ, f.ord, f.scope, f.imm]
        (True)
        (.halt f.hd)
  | _ => .error .unassigned

/-- The opcode map, MAJOR by MAJOR (R43); every MAJOR it does not list is no instruction (R44). -/
def Fields.decode (f : Fields) : Except Reject Instr :=
  match f.major with
  | 0x00 => f.decode00
  | 0x01 => f.decode01
  | 0x02 => f.decode02
  | 0x03 => f.decode03
  | 0x04 => f.decode04
  | 0x05 => f.decode05
  | 0x10 => f.decode10
  | 0x11 => f.decode11
  | 0x12 => f.decode12
  | 0x13 => f.decode13
  | 0x14 => f.decode14
  | 0x15 => f.decode15
  | 0x16 => f.decode16
  | 0x17 => f.decode17
  | 0x18 => f.decode18
  | 0x20 => f.decode20
  | 0x21 => f.decode21
  | 0x22 => f.decode22
  | 0x23 => f.decode23
  | 0x24 => f.decode24
  | 0x25 => f.decode25
  | 0x26 => f.decode26
  | 0x27 => f.decode27
  | 0x28 => f.decode28
  | 0x29 => f.decode29
  | 0x2A => f.decode2A
  | 0x2B => f.decode2B
  | 0x30 => f.decode30
  | 0x31 => f.decode31
  | 0x32 => f.decode32
  | 0x33 => f.decode33
  | 0x40 => f.decode40
  | 0x41 => f.decode41
  | 0x42 => f.decode42
  | 0x43 => f.decode43
  | 0x44 => f.decode44
  | 0x45 => f.decode45
  | 0x46 => f.decode46
  | 0x47 => f.decode47
  | 0x48 => f.decode48
  | 0x49 => f.decode49
  | 0x4A => f.decode4A
  | 0x4B => f.decode4B
  | 0x4C => f.decode4C
  | 0x4D => f.decode4D
  | 0x4E => f.decode4E
  | 0x4F => f.decode4F
  | 0x50 => f.decode50
  | 0x51 => f.decode51
  | 0x52 => f.decode52
  | 0x58 => f.decode58
  | 0x59 => f.decode59
  | 0x5A => f.decode5A
  | 0x60 => f.decode60
  | 0x61 => f.decode61
  | 0x62 => f.decode62
  | 0x63 => f.decode63
  | 0x64 => f.decode64
  | 0x65 => f.decode65
  | 0x66 => f.decode66
  | 0x67 => f.decode67
  | 0x68 => f.decode68
  | 0x69 => f.decode69
  | 0x6A => f.decode6A
  | 0x6B => f.decode6B
  | 0x6C => f.decode6C
  | 0x70 => f.decode70
  | 0x71 => f.decode71
  | 0x72 => f.decode72
  | 0x73 => f.decode73
  | 0x74 => f.decode74
  | 0x75 => f.decode75
  | 0x78 => f.decode78
  | 0x79 => f.decode79
  | 0x7C => f.decode7C
  | 0x7D => f.decode7D
  | 0x7E => f.decode7E
  | _ => .error .unassigned

/-- The fields of an instruction, from the same map (R35 to R43); an event has none. -/
def Instr.fields : Instr → Option Fields
  | .add h d a b =>
    some { len := h.len, s := h.s, major := 0x00, d := d.code h.len, a := a.code h.len, b := b.code h.len }
  | .sub h d a b =>
    some { len := h.len, s := h.s, major := 0x00, fn := 1, d := d.code h.len, a := a.code h.len, b := b.code h.len }
  | .mul h d a b =>
    some { len := h.len, s := h.s, major := 0x00, fn := 2, d := d.code h.len, a := a.code h.len, b := b.code h.len }
  | .mulh h d a b =>
    some { len := h.len, s := h.s, major := 0x00, fn := 3, d := d.code h.len, a := a.code h.len, b := b.code h.len }
  | .mulhz h d a b =>
    some { len := h.len, s := h.s, major := 0x00, fn := 4, d := d.code h.len, a := a.code h.len, b := b.code h.len }
  | .div h d a b =>
    some { len := h.len, s := h.s, major := 0x00, fn := 5, d := d.code h.len, a := a.code h.len, b := b.code h.len }
  | .divz h d a b =>
    some { len := h.len, s := h.s, major := 0x00, fn := 6, d := d.code h.len, a := a.code h.len, b := b.code h.len }
  | .rem h d a b =>
    some { len := h.len, s := h.s, major := 0x00, fn := 7, d := d.code h.len, a := a.code h.len, b := b.code h.len }
  | .remz h d a b =>
    some { len := h.len, s := h.s, major := 0x00, fn := 8, d := d.code h.len, a := a.code h.len, b := b.code h.len }
  | .min h d a b =>
    some { len := h.len, s := h.s, major := 0x00, fn := 9, d := d.code h.len, a := a.code h.len, b := b.code h.len }
  | .max h d a b =>
    some { len := h.len, s := h.s, major := 0x00, fn := 10, d := d.code h.len, a := a.code h.len, b := b.code h.len }
  | .minz h d a b =>
    some { len := h.len, s := h.s, major := 0x00, fn := 11, d := d.code h.len, a := a.code h.len, b := b.code h.len }
  | .maxz h d a b =>
    some { len := h.len, s := h.s, major := 0x00, fn := 12, d := d.code h.len, a := a.code h.len, b := b.code h.len }
  | .andW h d a b =>
    some { len := h.len, s := h.s, major := 0x01, d := d.code h.len, a := a.code h.len, b := b.code h.len }
  | .orW h d a b =>
    some { len := h.len, s := h.s, major := 0x01, fn := 1, d := d.code h.len, a := a.code h.len, b := b.code h.len }
  | .xor h d a b =>
    some { len := h.len, s := h.s, major := 0x01, fn := 2, d := d.code h.len, a := a.code h.len, b := b.code h.len }
  | .andn h d a b =>
    some { len := h.len, s := h.s, major := 0x01, fn := 3, d := d.code h.len, a := a.code h.len, b := b.code h.len }
  | .orn h d a b =>
    some { len := h.len, s := h.s, major := 0x01, fn := 4, d := d.code h.len, a := a.code h.len, b := b.code h.len }
  | .xnor h d a b =>
    some { len := h.len, s := h.s, major := 0x01, fn := 5, d := d.code h.len, a := a.code h.len, b := b.code h.len }
  | .logt h d a b c table =>
    some { len := h.len, s := h.s, major := 0x01, fn := 6, d := d.code h.len, a := a.code h.len, b := b.code h.len, c := c.code h.len, imm := table }
  | .shl h d a b =>
    some { len := h.len, s := h.s, major := 0x02, d := d.code h.len, a := a.code h.len, b := b.code h.len }
  | .shr h d a b =>
    some { len := h.len, s := h.s, major := 0x02, fn := 1, d := d.code h.len, a := a.code h.len, b := b.code h.len }
  | .sar h d a b =>
    some { len := h.len, s := h.s, major := 0x02, fn := 2, d := d.code h.len, a := a.code h.len, b := b.code h.len }
  | .rot h d a b =>
    some { len := h.len, s := h.s, major := 0x02, fn := 3, d := d.code h.len, a := a.code h.len, b := b.code h.len }
  | .fshl h d a b c =>
    some { len := h.len, s := h.s, major := 0x02, fn := 4, d := d.code h.len, a := a.code h.len, b := b.code h.len, c := c.code h.len }
  | .fshr h d a b c =>
    some { len := h.len, s := h.s, major := 0x02, fn := 5, d := d.code h.len, a := a.code h.len, b := b.code h.len, c := c.code h.len }
  | .clz h d a =>
    some { len := h.len, s := h.s, major := 0x03, d := d.code h.len, a := a.code h.len }
  | .ctz h d a =>
    some { len := h.len, s := h.s, major := 0x03, fn := 1, d := d.code h.len, a := a.code h.len }
  | .popc h d a =>
    some { len := h.len, s := h.s, major := 0x03, fn := 2, d := d.code h.len, a := a.code h.len }
  | .brev h d a =>
    some { len := h.len, s := h.s, major := 0x03, fn := 3, d := d.code h.len, a := a.code h.len }
  | .bswap h d a =>
    some { len := h.len, s := h.s, major := 0x03, fn := 4, d := d.code h.len, a := a.code h.len }
  | .mov h d a =>
    some { len := h.len, s := h.s, major := 0x03, fn := 7, d := d.code h.len, a := a.code h.len }
  | .sext h d a width1 =>
    some { len := h.len, s := h.s, major := 0x03, fn := 5, d := d.code h.len, a := a.code h.len, b := width1 }
  | .zext h d a width1 =>
    some { len := h.len, s := h.s, major := 0x03, fn := 6, d := d.code h.len, a := a.code h.len, b := width1 }
  | .seq h d a b =>
    some { len := h.len, s := h.s, major := 0x04, d := d.code h.len, a := a.code h.len, b := b.code h.len }
  | .sne h d a b =>
    some { len := h.len, s := h.s, major := 0x04, fn := 1, d := d.code h.len, a := a.code h.len, b := b.code h.len }
  | .slt h d a b =>
    some { len := h.len, s := h.s, major := 0x04, fn := 2, d := d.code h.len, a := a.code h.len, b := b.code h.len }
  | .sltz h d a b =>
    some { len := h.len, s := h.s, major := 0x04, fn := 3, d := d.code h.len, a := a.code h.len, b := b.code h.len }
  | .sel h d a b =>
    some { len := h.len, s := h.s, major := 0x04, fn := 4, d := d.code h.len, a := a.code h.len, b := b.code h.len }
  | .bfx h d a pos width1 =>
    some { len := h.len, s := h.s, major := 0x05, d := d.code h.len, a := a.code h.len, imm := pos + 64 * width1 }
  | .bfxz h d a pos width1 =>
    some { len := h.len, s := h.s, major := 0x05, fn := 1, d := d.code h.len, a := a.code h.len, imm := pos + 64 * width1 }
  | .bfi h d a pos width1 =>
    some { len := h.len, s := h.s, major := 0x05, fn := 2, d := d.code h.len, a := a.code h.len, imm := pos + 64 * width1 }
  | .addi h d a imm =>
    some { len := h.len, s := h.s, major := 0x10, d := d.code h.len, a := a.code h.len, imm := immField 10 1 1 h.len imm, lit := immLit h.len imm }
  | .andi h d a imm =>
    some { len := h.len, s := h.s, major := 0x11, d := d.code h.len, a := a.code h.len, imm := immField 10 1 1 h.len imm, lit := immLit h.len imm }
  | .ori h d a imm =>
    some { len := h.len, s := h.s, major := 0x12, d := d.code h.len, a := a.code h.len, imm := immField 10 1 1 h.len imm, lit := immLit h.len imm }
  | .xori h d a imm =>
    some { len := h.len, s := h.s, major := 0x13, d := d.code h.len, a := a.code h.len, imm := immField 10 1 1 h.len imm, lit := immLit h.len imm }
  | .shli h d a imm =>
    some { len := h.len, s := h.s, major := 0x14, d := d.code h.len, a := a.code h.len, imm := immField 10 1 1 h.len imm, lit := immLit h.len imm }
  | .shri h d a imm =>
    some { len := h.len, s := h.s, major := 0x15, d := d.code h.len, a := a.code h.len, imm := immField 10 1 1 h.len imm, lit := immLit h.len imm }
  | .sari h d a imm =>
    some { len := h.len, s := h.s, major := 0x16, d := d.code h.len, a := a.code h.len, imm := immField 10 1 1 h.len imm, lit := immLit h.len imm }
  | .slti h d a imm =>
    some { len := h.len, s := h.s, major := 0x17, d := d.code h.len, a := a.code h.len, imm := immField 10 1 1 h.len imm, lit := immLit h.len imm }
  | .li h d imm =>
    some { len := h.len, s := h.s, major := 0x18, d := d.code h.len, imm := immField 10 1 1 h.len imm, lit := immLit h.len imm }
  | .beq h a b disp =>
    some { len := h.len, s := h.s, major := 0x20, a := a.code h.len, b := b.code h.len, imm := immField 10 4 4 h.len disp, lit := immLit h.len disp }
  | .bne h a b disp =>
    some { len := h.len, s := h.s, major := 0x21, a := a.code h.len, b := b.code h.len, imm := immField 10 4 4 h.len disp, lit := immLit h.len disp }
  | .blt h a b disp =>
    some { len := h.len, s := h.s, major := 0x22, a := a.code h.len, b := b.code h.len, imm := immField 10 4 4 h.len disp, lit := immLit h.len disp }
  | .bge h a b disp =>
    some { len := h.len, s := h.s, major := 0x23, a := a.code h.len, b := b.code h.len, imm := immField 10 4 4 h.len disp, lit := immLit h.len disp }
  | .blo h a b disp =>
    some { len := h.len, s := h.s, major := 0x24, a := a.code h.len, b := b.code h.len, imm := immField 10 4 4 h.len disp, lit := immLit h.len disp }
  | .bhs h a b disp =>
    some { len := h.len, s := h.s, major := 0x25, a := a.code h.len, b := b.code h.len, imm := immField 10 4 4 h.len disp, lit := immLit h.len disp }
  | .bz h a disp =>
    some { len := h.len, s := h.s, major := 0x26, a := a.code h.len, b := 0, imm := immField 10 4 4 h.len disp, lit := immLit h.len disp }
  | .bnz h a disp =>
    some { len := h.len, s := h.s, major := 0x26, a := a.code h.len, b := 1, imm := immField 10 4 4 h.len disp, lit := immLit h.len disp }
  | .j h disp =>
    some { len := h.len, s := h.s, major := 0x27, imm := immField 22 4 4 h.len disp, lit := immLit h.len disp }
  | .rpt h n1 steps stride =>
    some { len := h.len, s := h.s, major := 0x2B, d := n1, a := steps, b := stride }
  | .lns h a =>
    some { len := h.len, s := h.s, major := 0x28, a := a.code h.len }
  | .lget h d =>
    some { len := h.len, s := h.s, major := 0x28, fn := 1, d := d.code h.len }
  | .ldrain h a =>
    some { len := h.len, s := h.s, major := 0x28, fn := 2, a := a.code h.len }
  | .callc h k a =>
    some { len := h.len, s := h.s, major := 0x28, fn := 3, d := k, a := a.code h.len }
  | .ret h k =>
    some { len := h.len, s := h.s, major := 0x28, fn := 4, d := k }
  | .park h a b =>
    some { len := h.len, s := h.s, major := 0x28, fn := 5, a := a.code h.len, b := b.code h.len }
  | .trap h a =>
    some { len := h.len, s := h.s, major := 0x28, fn := 6, a := a.code h.len }
  | .eret h =>
    some { len := h.len, s := h.s, major := 0x28, fn := 7 }
  | .call h k disp =>
    some { len := h.len, s := h.s, major := 0x29, d := k, imm := immField 16 4 4 h.len disp, lit := immLit h.len disp }
  | .lspill h d a b =>
    some { len := h.len, s := h.s, major := 0x2A, d := d.code h.len, a := a.code h.len, b := b.code h.len }
  | .lfill h d a b =>
    some { len := h.len, s := h.s, major := 0x2A, fn := 1, d := d.code h.len, a := a.code h.len, b := b.code h.len }
  | .lmove h d a b =>
    some { len := h.len, s := h.s, major := 0x2A, fn := 2, d := d.code h.len, a := a.code h.len, b := b.code h.len }
  | .cget h fsel d a =>
    some { len := h.len, s := h.s, major := 0x30, fn := fsel, d := d.code h.len, a := a.code h.len }
  | .csetaddr h d a b =>
    some { len := h.len, s := h.s, major := 0x31, d := d.code h.len, a := a.code h.len, b := b.code h.len }
  | .cincaddr h d a b =>
    some { len := h.len, s := h.s, major := 0x31, fn := 1, d := d.code h.len, a := a.code h.len, b := b.code h.len }
  | .cnarrow h d a b =>
    some { len := h.len, s := h.s, major := 0x31, fn := 2, d := d.code h.len, a := a.code h.len, b := b.code h.len }
  | .cnarrowx h d a b =>
    some { len := h.len, s := h.s, major := 0x31, fn := 3, d := d.code h.len, a := a.code h.len, b := b.code h.len }
  | .cdrop h d a b =>
    some { len := h.len, s := h.s, major := 0x31, fn := 4, d := d.code h.len, a := a.code h.len, b := b.code h.len }
  | .craiselbl h d a b =>
    some { len := h.len, s := h.s, major := 0x31, fn := 5, d := d.code h.len, a := a.code h.len, b := b.code h.len }
  | .cseal h d a b =>
    some { len := h.len, s := h.s, major := 0x31, fn := 6, d := d.code h.len, a := a.code h.len, b := b.code h.len }
  | .cunseal h d a b =>
    some { len := h.len, s := h.s, major := 0x31, fn := 7, d := d.code h.len, a := a.code h.len, b := b.code h.len }
  | .cgate h d a =>
    some { len := h.len, s := h.s, major := 0x31, fn := 8, d := d.code h.len, a := a.code h.len }
  | .cstrip h d a =>
    some { len := h.len, s := h.s, major := 0x31, fn := 9, d := d.code h.len, a := a.code h.len }
  | .cmov h d a =>
    some { len := h.len, s := h.s, major := 0x31, fn := 10, d := d.code h.len, a := a.code h.len }
  | .cwithin h d a b =>
    some { len := h.len, s := h.s, major := 0x31, fn := 11, d := d.code h.len, a := a.code h.len, b := b.code h.len }
  | .cfitlen h d a =>
    some { len := h.len, s := h.s, major := 0x31, fn := 12, d := d.code h.len, a := a.code h.len }
  | .cfitmask h d a =>
    some { len := h.len, s := h.s, major := 0x31, fn := 13, d := d.code h.len, a := a.code h.len }
  | .cincaddri h d a imm =>
    some { len := h.len, s := h.s, major := 0x32, d := d.code h.len, a := a.code h.len, imm := immField 10 1 1 h.len imm, lit := immLit h.len imm }
  | .crvmark h a b =>
    some { len := h.len, s := h.s, major := 0x33, a := a.code h.len, b := b.code h.len }
  | .csweep h a =>
    some { len := h.len, s := h.s, major := 0x33, fn := 1, a := a.code h.len }
  | .ldS8 h d a off =>
    some { len := h.len, s := h.s, major := 0x40, d := d.code h.len, a := a.code h.len, imm := immField 10 1 1 h.len off, lit := immLit h.len off }
  | .ldZ8 h d a off =>
    some { len := h.len, s := h.s, major := 0x41, d := d.code h.len, a := a.code h.len, imm := immField 10 1 1 h.len off, lit := immLit h.len off }
  | .ldS16 h d a off =>
    some { len := h.len, s := h.s, major := 0x42, d := d.code h.len, a := a.code h.len, imm := immField 10 2 1 h.len off, lit := immLit h.len off }
  | .ldZ16 h d a off =>
    some { len := h.len, s := h.s, major := 0x43, d := d.code h.len, a := a.code h.len, imm := immField 10 2 1 h.len off, lit := immLit h.len off }
  | .ldS32 h d a off =>
    some { len := h.len, s := h.s, major := 0x44, d := d.code h.len, a := a.code h.len, imm := immField 10 4 1 h.len off, lit := immLit h.len off }
  | .ldZ32 h d a off =>
    some { len := h.len, s := h.s, major := 0x45, d := d.code h.len, a := a.code h.len, imm := immField 10 4 1 h.len off, lit := immLit h.len off }
  | .ldD h d a off =>
    some { len := h.len, s := h.s, major := 0x46, d := d.code h.len, a := a.code h.len, imm := immField 10 8 1 h.len off, lit := immLit h.len off }
  | .stB h d a off =>
    some { len := h.len, s := h.s, major := 0x47, d := d.code h.len, a := a.code h.len, imm := immField 10 1 1 h.len off, lit := immLit h.len off }
  | .stH h d a off =>
    some { len := h.len, s := h.s, major := 0x48, d := d.code h.len, a := a.code h.len, imm := immField 10 2 1 h.len off, lit := immLit h.len off }
  | .stW h d a off =>
    some { len := h.len, s := h.s, major := 0x49, d := d.code h.len, a := a.code h.len, imm := immField 10 4 1 h.len off, lit := immLit h.len off }
  | .stD h d a off =>
    some { len := h.len, s := h.s, major := 0x4A, d := d.code h.len, a := a.code h.len, imm := immField 10 8 1 h.len off, lit := immLit h.len off }
  | .ldc h d a off =>
    some { len := h.len, s := h.s, major := 0x4B, d := d.code h.len, a := a.code h.len, imm := immField 10 16 1 h.len off, lit := immLit h.len off }
  | .stc h d a off =>
    some { len := h.len, s := h.s, major := 0x4C, d := d.code h.len, a := a.code h.len, imm := immField 10 16 1 h.len off, lit := immLit h.len off }
  | .ldv h d a off =>
    some { len := h.len, s := h.s, major := 0x4D, d := d.code h.len, a := a.code h.len, imm := immField 10 32 1 h.len off, lit := immLit h.len off }
  | .stv h d a off =>
    some { len := h.len, s := h.s, major := 0x4E, d := d.code h.len, a := a.code h.len, imm := immField 10 32 1 h.len off, lit := immLit h.len off }
  | .lda h d a off typ ord scope =>
    some { len := h.len, s := h.s, major := 0x4F, d := d.code h.len, a := a.code h.len, typ := typ.code, ord := ord.code, scope := scope.code, imm := immField 0 0 1 h.len off, lit := immLit h.len off }
  | .stl h d a off typ ord scope =>
    some { len := h.len, s := h.s, major := 0x4F, fn := 1, d := d.code h.len, a := a.code h.len, typ := typ.code, ord := ord.code, scope := scope.code, imm := immField 0 0 1 h.len off, lit := immLit h.len off }
  | .ldvg h d a b off mk typ =>
    some { len := h.len, s := h.s, major := 0x4F, fn := 2, d := d.code h.len, a := a.code h.len, b := b.code h.len, msk := mk, typ := typ.code, imm := immField 0 0 1 h.len off, lit := immLit h.len off }
  | .ldvgNf h d a b c off mk typ =>
    some { len := h.len, s := h.s, major := 0x4F, fn := 3, d := d.code h.len, a := a.code h.len, b := b.code h.len, c := c.code h.len, msk := mk, typ := typ.code, imm := immField 0 0 1 h.len off, lit := immLit h.len off }
  | .stvs h d a b off mk typ =>
    some { len := h.len, s := h.s, major := 0x4F, fn := 4, d := d.code h.len, a := a.code h.len, b := b.code h.len, msk := mk, typ := typ.code, imm := immField 0 0 1 h.len off, lit := immLit h.len off }
  | .bsleep h g =>
    some { len := h.len, s := h.s, major := 0x4F, fn := 5, imm := g }
  | .bwake h g =>
    some { len := h.len, s := h.s, major := 0x4F, fn := 6, imm := g }
  | .amoaddW h d a b off ord scope =>
    some { len := h.len, s := h.s, major := 0x50, d := d.code h.len, a := a.code h.len, b := b.code h.len, ord := ord.code, scope := scope.code, imm := immField 0 0 1 h.len off, lit := immLit h.len off }
  | .amoandW h d a b off ord scope =>
    some { len := h.len, s := h.s, major := 0x50, fn := 1, d := d.code h.len, a := a.code h.len, b := b.code h.len, ord := ord.code, scope := scope.code, imm := immField 0 0 1 h.len off, lit := immLit h.len off }
  | .amoorW h d a b off ord scope =>
    some { len := h.len, s := h.s, major := 0x50, fn := 2, d := d.code h.len, a := a.code h.len, b := b.code h.len, ord := ord.code, scope := scope.code, imm := immField 0 0 1 h.len off, lit := immLit h.len off }
  | .amoxorW h d a b off ord scope =>
    some { len := h.len, s := h.s, major := 0x50, fn := 3, d := d.code h.len, a := a.code h.len, b := b.code h.len, ord := ord.code, scope := scope.code, imm := immField 0 0 1 h.len off, lit := immLit h.len off }
  | .amominW h d a b off ord scope =>
    some { len := h.len, s := h.s, major := 0x50, fn := 4, d := d.code h.len, a := a.code h.len, b := b.code h.len, ord := ord.code, scope := scope.code, imm := immField 0 0 1 h.len off, lit := immLit h.len off }
  | .amomaxW h d a b off ord scope =>
    some { len := h.len, s := h.s, major := 0x50, fn := 5, d := d.code h.len, a := a.code h.len, b := b.code h.len, ord := ord.code, scope := scope.code, imm := immField 0 0 1 h.len off, lit := immLit h.len off }
  | .amominzW h d a b off ord scope =>
    some { len := h.len, s := h.s, major := 0x50, fn := 6, d := d.code h.len, a := a.code h.len, b := b.code h.len, ord := ord.code, scope := scope.code, imm := immField 0 0 1 h.len off, lit := immLit h.len off }
  | .amomaxzW h d a b off ord scope =>
    some { len := h.len, s := h.s, major := 0x50, fn := 7, d := d.code h.len, a := a.code h.len, b := b.code h.len, ord := ord.code, scope := scope.code, imm := immField 0 0 1 h.len off, lit := immLit h.len off }
  | .amoswapW h d a b off ord scope =>
    some { len := h.len, s := h.s, major := 0x50, fn := 8, d := d.code h.len, a := a.code h.len, b := b.code h.len, ord := ord.code, scope := scope.code, imm := immField 0 0 1 h.len off, lit := immLit h.len off }
  | .amocasW h d a b off ord scope =>
    some { len := h.len, s := h.s, major := 0x50, fn := 9, d := d.code h.len, a := a.code h.len, b := b.code h.len, ord := ord.code, scope := scope.code, imm := immField 0 0 1 h.len off, lit := immLit h.len off }
  | .amoaddD h d a b off ord scope =>
    some { len := h.len, s := h.s, major := 0x51, d := d.code h.len, a := a.code h.len, b := b.code h.len, ord := ord.code, scope := scope.code, imm := immField 0 0 1 h.len off, lit := immLit h.len off }
  | .amoandD h d a b off ord scope =>
    some { len := h.len, s := h.s, major := 0x51, fn := 1, d := d.code h.len, a := a.code h.len, b := b.code h.len, ord := ord.code, scope := scope.code, imm := immField 0 0 1 h.len off, lit := immLit h.len off }
  | .amoorD h d a b off ord scope =>
    some { len := h.len, s := h.s, major := 0x51, fn := 2, d := d.code h.len, a := a.code h.len, b := b.code h.len, ord := ord.code, scope := scope.code, imm := immField 0 0 1 h.len off, lit := immLit h.len off }
  | .amoxorD h d a b off ord scope =>
    some { len := h.len, s := h.s, major := 0x51, fn := 3, d := d.code h.len, a := a.code h.len, b := b.code h.len, ord := ord.code, scope := scope.code, imm := immField 0 0 1 h.len off, lit := immLit h.len off }
  | .amominD h d a b off ord scope =>
    some { len := h.len, s := h.s, major := 0x51, fn := 4, d := d.code h.len, a := a.code h.len, b := b.code h.len, ord := ord.code, scope := scope.code, imm := immField 0 0 1 h.len off, lit := immLit h.len off }
  | .amomaxD h d a b off ord scope =>
    some { len := h.len, s := h.s, major := 0x51, fn := 5, d := d.code h.len, a := a.code h.len, b := b.code h.len, ord := ord.code, scope := scope.code, imm := immField 0 0 1 h.len off, lit := immLit h.len off }
  | .amominzD h d a b off ord scope =>
    some { len := h.len, s := h.s, major := 0x51, fn := 6, d := d.code h.len, a := a.code h.len, b := b.code h.len, ord := ord.code, scope := scope.code, imm := immField 0 0 1 h.len off, lit := immLit h.len off }
  | .amomaxzD h d a b off ord scope =>
    some { len := h.len, s := h.s, major := 0x51, fn := 7, d := d.code h.len, a := a.code h.len, b := b.code h.len, ord := ord.code, scope := scope.code, imm := immField 0 0 1 h.len off, lit := immLit h.len off }
  | .amoswapD h d a b off ord scope =>
    some { len := h.len, s := h.s, major := 0x51, fn := 8, d := d.code h.len, a := a.code h.len, b := b.code h.len, ord := ord.code, scope := scope.code, imm := immField 0 0 1 h.len off, lit := immLit h.len off }
  | .amocasD h d a b off ord scope =>
    some { len := h.len, s := h.s, major := 0x51, fn := 9, d := d.code h.len, a := a.code h.len, b := b.code h.len, ord := ord.code, scope := scope.code, imm := immField 0 0 1 h.len off, lit := immLit h.len off }
  | .amocasc h d a b off ord scope =>
    some { len := h.len, s := h.s, major := 0x52, d := d.code h.len, a := a.code h.len, b := b.code h.len, ord := ord.code, scope := scope.code, imm := immField 0 0 1 h.len off, lit := immLit h.len off }
  | .wfe h d a =>
    some { len := h.len, s := h.s, major := 0x58, d := d.code h.len, a := a.code h.len }
  | .sev h a b =>
    some { len := h.len, s := h.s, major := 0x58, fn := 1, a := a.code h.len, b := b.code h.len }
  | .bara h a =>
    some { len := h.len, s := h.s, major := 0x58, fn := 2, a := a.code h.len }
  | .barw h a =>
    some { len := h.len, s := h.s, major := 0x58, fn := 3, a := a.code h.len }
  | .semp h a =>
    some { len := h.len, s := h.s, major := 0x58, fn := 4, a := a.code h.len }
  | .semv h a =>
    some { len := h.len, s := h.s, major := 0x58, fn := 5, a := a.code h.len }
  | .fence h ord scope =>
    some { len := h.len, s := h.s, major := 0x59, ord := ord.code, scope := scope.code }
  | .waitva h a b ord scope =>
    some { len := h.len, s := h.s, major := 0x5A, a := a.code h.len, b := b.code h.len, ord := ord.code, scope := scope.code }
  | .wakeva h a b ord scope =>
    some { len := h.len, s := h.s, major := 0x5A, fn := 1, a := a.code h.len, b := b.code h.len, ord := ord.code, scope := scope.code }
  | .mpost h a b ord scope =>
    some { len := h.len, s := h.s, major := 0x5A, fn := 2, a := a.code h.len, b := b.code h.len, ord := ord.code, scope := scope.code }
  | .send h a b ord scope =>
    some { len := h.len, s := h.s, major := 0x5A, fn := 3, a := a.code h.len, b := b.code h.len, ord := ord.code, scope := scope.code }
  | .recv h d a ord scope =>
    some { len := h.len, s := h.s, major := 0x5A, fn := 4, d := d.code h.len, a := a.code h.len, ord := ord.code, scope := scope.code }
  | .vadd h d a b mk typ =>
    some { len := h.len, s := h.s, major := 0x60, d := d.code h.len, a := a.code h.len, b := b.code h.len, msk := mk, typ := typ.code }
  | .vsub h d a b mk typ =>
    some { len := h.len, s := h.s, major := 0x60, fn := 1, d := d.code h.len, a := a.code h.len, b := b.code h.len, msk := mk, typ := typ.code }
  | .vmul h d a b mk typ =>
    some { len := h.len, s := h.s, major := 0x61, d := d.code h.len, a := a.code h.len, b := b.code h.len, msk := mk, typ := typ.code }
  | .vmad h d a b mk typ =>
    some { len := h.len, s := h.s, major := 0x62, d := d.code h.len, a := a.code h.len, b := b.code h.len, msk := mk, typ := typ.code }
  | .vmin h d a b mk typ =>
    some { len := h.len, s := h.s, major := 0x63, fn := if h.len = .w32 ∧ typ = .z32 then 1 else 0, d := d.code h.len, a := a.code h.len, b := b.code h.len, msk := mk, typ := if h.len = .w32 then 0 else typ.code }
  | .vmax h d a b mk typ =>
    some { len := h.len, s := h.s, major := 0x64, fn := if h.len = .w32 ∧ typ = .z32 then 1 else 0, d := d.code h.len, a := a.code h.len, b := b.code h.len, msk := mk, typ := if h.len = .w32 then 0 else typ.code }
  | .vand h d a b mk typ =>
    some { len := h.len, s := h.s, major := 0x65, d := d.code h.len, a := a.code h.len, b := b.code h.len, msk := mk, typ := typ.code }
  | .vor h d a b mk typ =>
    some { len := h.len, s := h.s, major := 0x66, d := d.code h.len, a := a.code h.len, b := b.code h.len, msk := mk, typ := typ.code }
  | .vxor h d a b mk typ =>
    some { len := h.len, s := h.s, major := 0x67, d := d.code h.len, a := a.code h.len, b := b.code h.len, msk := mk, typ := typ.code }
  | .vshl h d a b mk typ =>
    some { len := h.len, s := h.s, major := 0x68, d := d.code h.len, a := a.code h.len, b := b.code h.len, msk := mk, typ := typ.code }
  | .vshr h d a b mk typ =>
    some { len := h.len, s := h.s, major := 0x69, d := d.code h.len, a := a.code h.len, b := b.code h.len, msk := mk, typ := typ.code }
  | .vsar h d a b mk typ =>
    some { len := h.len, s := h.s, major := 0x69, fn := 1, d := d.code h.len, a := a.code h.len, b := b.code h.len, msk := mk, typ := typ.code }
  | .vabs h d a mk typ =>
    some { len := h.len, s := h.s, major := 0x6A, d := d.code h.len, a := a.code h.len, msk := mk, typ := typ.code }
  | .vneg h d a mk typ =>
    some { len := h.len, s := h.s, major := 0x6A, fn := 1, d := d.code h.len, a := a.code h.len, msk := mk, typ := typ.code }
  | .vlogt h d a b c table mk typ =>
    some { len := h.len, s := h.s, major := 0x6B, d := d.code h.len, a := a.code h.len, b := b.code h.len, c := c.code h.len, msk := mk, typ := typ.code, imm := table }
  | .vcmp h d a b cc mk typ =>
    some { len := h.len, s := h.s, major := 0x6C, d := d.code h.len, a := a.code h.len, b := b.code h.len, msk := mk, typ := typ.code, imm := cc }
  | .vsel h d a b mk typ =>
    some { len := h.len, s := h.s, major := 0x6C, fn := 1, d := d.code h.len, a := a.code h.len, b := b.code h.len, msk := mk, typ := typ.code }
  | .vbcast h d a mk typ =>
    some { len := h.len, s := h.s, major := 0x6C, fn := 2, d := d.code h.len, a := a.code h.len, msk := mk, typ := typ.code }
  | .vext h d a b typ =>
    some { len := h.len, s := h.s, major := 0x6C, fn := 3, d := d.code h.len, a := a.code h.len, b := b.code h.len, typ := typ.code }
  | .vins h d a b typ =>
    some { len := h.len, s := h.s, major := 0x6C, fn := 4, d := d.code h.len, a := a.code h.len, b := b.code h.len, typ := typ.code }
  | .vperm h d a b mk typ =>
    some { len := h.len, s := h.s, major := 0x6C, fn := 5, d := d.code h.len, a := a.code h.len, b := b.code h.len, msk := mk, typ := typ.code }
  | .vred h d a op mk typ =>
    some { len := h.len, s := h.s, major := 0x6C, fn := 6, d := d.code h.len, a := a.code h.len, msk := mk, typ := typ.code, imm := op }
  | .vfadd h d a b mk typ =>
    some { len := h.len, s := h.s, major := 0x70, d := d.code h.len, a := a.code h.len, b := b.code h.len, msk := mk, typ := typ.code }
  | .vfsub h d a b mk typ =>
    some { len := h.len, s := h.s, major := 0x70, fn := 1, d := d.code h.len, a := a.code h.len, b := b.code h.len, msk := mk, typ := typ.code }
  | .vfmul h d a b mk typ =>
    some { len := h.len, s := h.s, major := 0x71, d := d.code h.len, a := a.code h.len, b := b.code h.len, msk := mk, typ := typ.code }
  | .vfma h d a b mk typ =>
    some { len := h.len, s := h.s, major := 0x72, d := d.code h.len, a := a.code h.len, b := b.code h.len, msk := mk, typ := typ.code }
  | .vfnma h d a b mk typ =>
    some { len := h.len, s := h.s, major := 0x72, fn := 1, d := d.code h.len, a := a.code h.len, b := b.code h.len, msk := mk, typ := typ.code }
  | .vfmin h d a b mk typ =>
    some { len := h.len, s := h.s, major := 0x73, d := d.code h.len, a := a.code h.len, b := b.code h.len, msk := mk, typ := typ.code }
  | .vfmax h d a b mk typ =>
    some { len := h.len, s := h.s, major := 0x73, fn := 1, d := d.code h.len, a := a.code h.len, b := b.code h.len, msk := mk, typ := typ.code }
  | .vfdiv h d a b mk typ =>
    some { len := h.len, s := h.s, major := 0x74, d := d.code h.len, a := a.code h.len, b := b.code h.len, msk := mk, typ := typ.code }
  | .vfsqrt h d a mk typ =>
    some { len := h.len, s := h.s, major := 0x75, d := d.code h.len, a := a.code h.len, b := 0, msk := mk, typ := typ.code }
  | .vfrcp h d a mk typ =>
    some { len := h.len, s := h.s, major := 0x75, d := d.code h.len, a := a.code h.len, b := 1, msk := mk, typ := typ.code }
  | .vfrsq h d a mk typ =>
    some { len := h.len, s := h.s, major := 0x75, d := d.code h.len, a := a.code h.len, b := 2, msk := mk, typ := typ.code }
  | .vfexp2 h d a mk typ =>
    some { len := h.len, s := h.s, major := 0x75, d := d.code h.len, a := a.code h.len, b := 3, msk := mk, typ := typ.code }
  | .vflog2 h d a mk typ =>
    some { len := h.len, s := h.s, major := 0x75, d := d.code h.len, a := a.code h.len, b := 4, msk := mk, typ := typ.code }
  | .vftanh h d a mk typ =>
    some { len := h.len, s := h.s, major := 0x75, d := d.code h.len, a := a.code h.len, b := 5, msk := mk, typ := typ.code }
  | .vcvt h d a st rm mk typ =>
    some { len := h.len, s := h.s, major := 0x78, d := d.code h.len, a := a.code h.len, msk := mk, typ := typ.code, imm := st + 32 * rm }
  | .vquant h d a typ =>
    some { len := h.len, s := h.s, major := 0x78, fn := 1, d := d.code h.len, a := a.code h.len, typ := typ.code }
  | .vdeq h d a typ =>
    some { len := h.len, s := h.s, major := 0x78, fn := 2, d := d.code h.len, a := a.code h.len, typ := typ.code }
  | .xmax h d a typ =>
    some { len := h.len, s := h.s, major := 0x79, d := d.code h.len, a := a.code h.len, typ := typ.code }
  | .vbaddq h d a b typ =>
    some { len := h.len, s := h.s, major := 0x79, fn := 1, d := d.code h.len, a := a.code h.len, b := b.code h.len, typ := typ.code }
  | .mload h d a tb mac plane typ =>
    some { len := h.len, s := h.s, major := 0x7C, d := d.code h.len, a := a.code h.len, c := tb, typ := typ.code, imm := mac + 2 * plane }
  | .mswap h d tb mask =>
    some { len := h.len, s := h.s, major := 0x7C, fn := 1, d := d.code h.len, c := tb, imm := mask }
  | .mrun h d a b tb bound1 typ lit =>
    some { len := h.len, s := h.s, major := 0x7C, fn := 2, d := d.code h.len, a := a.code h.len, b := b.code h.len, c := tb, typ := typ.code, imm := bound1, lit := lit.toNat }
  | .mdrain h d a b tb scope lit =>
    some { len := h.len, s := h.s, major := 0x7C, fn := 3, d := d.code h.len, a := a.code h.len, b := b.code h.len, c := tb, scope := scope.code, lit := lit.toNat }
  | .mslot h a slot =>
    some { len := h.len, s := h.s, major := 0x7C, fn := 4, a := a.code h.len, imm := slot }
  | .mstat h d fsel =>
    some { len := h.len, s := h.s, major := 0x7C, fn := 5, d := d.code h.len, imm := fsel }
  | .cpy h d a b tb scope lit =>
    some { len := h.len, s := h.s, major := 0x7C, fn := 8, d := d.code h.len, a := a.code h.len, b := b.code h.len, c := tb, scope := scope.code, lit := lit.toNat }
  | .cpym h d a b tb mk scope lit =>
    some { len := h.len, s := h.s, major := 0x7C, fn := 9, d := d.code h.len, a := a.code h.len, b := b.code h.len, c := tb, msk := mk, scope := scope.code, lit := lit.toNat }
  | .conv h d a b tb typ scope lit =>
    some { len := h.len, s := h.s, major := 0x7C, fn := 10, d := d.code h.len, a := a.code h.len, b := b.code h.len, c := tb, typ := typ.code, scope := scope.code, lit := lit.toNat }
  | .jwait h d a b tb slotm =>
    some { len := h.len, s := h.s, major := 0x7C, fn := 11, d := d.code h.len, a := a.code h.len, b := b.code h.len, c := tb, imm := slotm }
  | .jstat h d a tb slotm =>
    some { len := h.len, s := h.s, major := 0x7C, fn := 12, d := d.code h.len, a := a.code h.len, c := tb, imm := slotm }
  | .jcancel h d a =>
    some { len := h.len, s := h.s, major := 0x7C, fn := 13, d := d.code h.len, a := a.code h.len }
  | .gang h lg =>
    some { len := h.len, s := h.s, major := 0x7D, b := lg }
  | .split h =>
    some { len := h.len, s := h.s, major := 0x7D, fn := 1 }
  | .mpair h =>
    some { len := h.len, s := h.s, major := 0x7D, fn := 2 }
  | .munpair h =>
    some { len := h.len, s := h.s, major := 0x7D, fn := 3 }
  | .mchk h d =>
    some { len := h.len, s := h.s, major := 0x7D, fn := 4, d := d.code h.len }
  | .qpush h d a b rsv =>
    some { len := h.len, s := h.s, major := 0x7D, fn := 5, d := d.code h.len, a := a.code h.len, b := b.code h.len, imm := rsv }
  | .qpushWait h d a b =>
    some { len := h.len, s := h.s, major := 0x7D, fn := 6, d := d.code h.len, a := a.code h.len, b := b.code h.len }
  | .qpop h d a =>
    some { len := h.len, s := h.s, major := 0x7D, fn := 7, d := d.code h.len, a := a.code h.len }
  | .qpopg h d a =>
    some { len := h.len, s := h.s, major := 0x7D, fn := 8, d := d.code h.len, a := a.code h.len }
  | .qstat h d a =>
    some { len := h.len, s := h.s, major := 0x7D, fn := 9, d := d.code h.len, a := a.code h.len }
  | .spawn h d b =>
    some { len := h.len, s := h.s, major := 0x7D, fn := 10, d := d.code h.len, b := b.code h.len }
  | .shape h d dim =>
    some { len := h.len, s := h.s, major := 0x7D, fn := 11, d := d.code h.len, b := dim }
  | .kstat h d fsel =>
    some { len := h.len, s := h.s, major := 0x7D, fn := 12, d := d.code h.len, b := fsel }
  | .prpush h d a b =>
    some { len := h.len, s := h.s, major := 0x7D, fn := 13, d := d.code h.len, a := a.code h.len, b := b.code h.len }
  | .prpop h d a =>
    some { len := h.len, s := h.s, major := 0x7D, fn := 14, d := d.code h.len, a := a.code h.len }
  | .prclass h d a b =>
    some { len := h.len, s := h.s, major := 0x7D, fn := 15, d := d.code h.len, a := a.code h.len, b := b.code h.len }
  | .ptwr h d a b c item kind =>
    some { len := h.len, s := h.s, major := 0x7D, fn := 16, d := d.code h.len, a := a.code h.len, b := b.code h.len, c := c.code h.len, imm := item + 16 * kind }
  | .ptrd h d a b item bank half =>
    some { len := h.len, s := h.s, major := 0x7D, fn := 17, d := d.code h.len, a := a.code h.len, b := b.code h.len, imm := item + 16 * bank + 32 * half }
  | .ptflip h a mask =>
    some { len := h.len, s := h.s, major := 0x7D, fn := 18, a := a.code h.len, imm := mask }
  | .tlbw h d a b =>
    some { len := h.len, s := h.s, major := 0x7D, fn := 24, d := d.code h.len, a := a.code h.len, b := b.code h.len }
  | .tlbi h a b ext =>
    some { len := h.len, s := h.s, major := 0x7D, fn := 25, a := a.code h.len, b := b.code h.len, imm := ext }
  | .frpop h d src =>
    some { len := h.len, s := h.s, major := 0x7D, fn := 26, d := d.code h.len, imm := src }
  | .cresume h d a kill =>
    some { len := h.len, s := h.s, major := 0x7D, fn := 27, d := d.code h.len, a := a.code h.len, imm := kill }
  | .decl h a b =>
    some { len := h.len, s := h.s, major := 0x7D, fn := 32, a := a.code h.len, b := b.code h.len }
  | .srd h d reg =>
    some { len := h.len, s := h.s, major := 0x7E, d := d.code h.len, b := reg }
  | .swr h a reg =>
    some { len := h.len, s := h.s, major := 0x7E, fn := 1, a := a.code h.len, b := reg }
  | .bkpt h =>
    some { len := h.len, s := h.s, major := 0x7E, fn := 2 }
  | .halt h =>
    some { len := h.len, s := h.s, major := 0x7E, fn := 3 }
  | .illegalEncoding _ => none
  | .packageReset _ _ _ => none
  | .ifetchLineMiss _ _ => none
  | .trapDelivery _ => none
  | .asyncCauseDelivery _ => none
  | .ptimerExpiry _ => none
  | .extirq _ => none
  | .lateWriteLand _ _ => none
  | .spillEngineMove _ => none
  | .fpEventStop _ => none
  | .fpReplyResume _ _ => none
  | .fpReplyConvert _ _ _ => none
  | .portAccess _ _ => none
  | .storeAck _ _ => none
  | .accessRetry _ => none
  | .groupWakeComplete _ _ => none
  | .xmaxContributionArrive _ _ => none
  | .xmaxTimeout _ => none
  | .matrixCardStart _ _ => none
  | .mloadEnd _ _ _ => none
  | .mrunEnd _ _ _ => none
  | .mdrainEnd _ _ _ => none
  | .mrunWatchdog _ _ => none
  | .matrixSlotBoundary _ _ => none
  | .noslotTimeout _ _ => none
  | .cardStart _ _ => none
  | .cardEnd _ _ _ => none
  | .tlbProbeResult _ _ => none
  | .faultRecordPost _ _ => none
  | .inboxMessageEnter _ _ => none
  | .eventSignalArrive _ => none
  | .queueSegmentRefill _ => none
  | .queueRingError _ => none
  | .queueStateOn _ _ _ _ => none
  | .queueStateStop _ _ _ _ => none
  | .queueStateOff _ _ _ _ => none
  | .queueDoorbell _ _ => none
  | .launchDispatch _ => none
  | .teamPlacement _ _ => none
  | .parSliceExpiry _ => none
  | .teamSwapOutComplete _ => none
  | .teamSwapInComplete _ => none
  | .kernelCompletion _ => none
  | .kernelAbort _ => none
  | .chainRecordEnter _ => none
  | .chainRecordExit _ => none
  | .chainRecirculate _ => none
  | .bankFlip _ => none
  | .bankDrainComplete _ _ _ => none
  | .gangFuse _ => none
  | .mirrorCopyComplete _ => none
  | .mirrorIntervalEnd _ => none
  | .mirrorCompare _ => none
  | .sweepCoreCheck _ => none
  | .sweepCheckTimeout _ => none
  | .sweepComplete _ => none
  | .hbmScrub _ _ => none
  | .pcDropRepair _ => none
  | .partitionTableWrite _ _ => none
  | .partitionStart _ _ => none
  | .partitionStop _ _ => none
  | .partitionStopComplete _ => none
  | .partitionResume _ => none
  | .partitionRelease _ _ _ => none
  | .sharedSlotStart _ => none
  | .coreEvict _ => none
  | .coreRestore _ => none
  | .fwImageStage _ _ _ => none
  | .fwUpdateAck _ => none
  | .fwUpdateWithdraw => none
  | .fwActivate => none
  | .attestEvidence _ _ => none
  | .secretUnwrap _ _ _ => none
  | .keyHandleBind _ _ _ _ _ => none
  | .apertureWrite _ _ _ _ => none
  | .portTableWrite _ _ _ => none
  | .portYield _ => none
  | .spareRemap _ _ => none
  | .coreKill _ _ _ => none
  | .inboundWrite _ _ _ _ => none
  | .inboundPieceSend _ _ => none
  | .inboundPieceAck _ _ => none
  | .hostRead _ _ _ _ => none
  | .hostCoreDoorbell _ _ => none
  | .registrationRegister _ => none
  | .hostWaitRegister _ _ _ _ => none
  | .registerWrite _ _ _ _ => none
  | .hostWarmRestart _ => none
  | .blockEntrySend _ => none
  | .blockPacketReceive _ _ _ _ => none
  | .blockLaneDeliver _ _ => none
  | .migrationCut _ => none
  | .cutMarkReceive _ _ => none
  | .migrationRestore _ _ => none
  | .kustadLinkStateChange _ _ => none

/-- The instruction that a list of 32-bit words begins with, or why there is none (R44). -/
def decodeWords (ws : List Nat) : Except Reject Instr :=
  match fieldsOfWords ws with
  | .error e => .error e
  | .ok f => f.decode

/-- The words of an instruction (R33 to R43); an event has none. -/
def encode (i : Instr) : List Nat :=
  match i.fields with
  | some f => f.words
  | none => []

/-- The length in bytes that a first word announces (R34). -/
def wordLength (w0 : Nat) : Nat := 4 * (Len.ofCode (w0 % 4)).words

/-- The little-endian word of four bytes (R33). -/
def wordOfBytes (b0 b1 b2 b3 : BitVec 8) : Nat :=
  b0.toNat + b1.toNat * 2 ^ 8 + b2.toNat * 2 ^ 16 + b3.toNat * 2 ^ 24

/-- The whole words that a list of bytes begins with. -/
def wordsOfBytes : List (BitVec 8) → List Nat
  | b0 :: b1 :: b2 :: b3 :: rest => wordOfBytes b0 b1 b2 b3 :: wordsOfBytes rest
  | _ => []

/-- The four bytes of a word, in address order (R33). -/
def bytesOfWord (w : Nat) : List (BitVec 8) :=
  [BitVec.ofNat 8 w, BitVec.ofNat 8 (w / 2 ^ 8), BitVec.ofNat 8 (w / 2 ^ 16), BitVec.ofNat 8 (w / 2 ^ 24)]

/-- The instruction that a list of bytes begins with. -/
def decodeBytes (bs : List (BitVec 8)) : Except Reject Instr := decodeWords (wordsOfBytes bs)

/-- The five words of an instruction given as one number, the first word lowest, every bit above `nbits` zero. -/
def tableWords (nbits w : Nat) : List Nat :=
  let x := w % 2 ^ nbits
  [x % 2 ^ 32, x / 2 ^ 32 % 2 ^ 32, x / 2 ^ 64 % 2 ^ 32, x / 2 ^ 96 % 2 ^ 32, x / 2 ^ 128 % 2 ^ 32]

/-- The instruction that this decoder reads from the bits `w` of a row of the opcode table. -/
def decodeTableWord (nbits w : Nat) : Option Instr :=
  match decodeBytes ((tableWords nbits w).flatMap bytesOfWord) with
  | .ok i => some i
  | .error _ => none

end Sys2Proof
end

