-- ==== Sys2Proof/Machine/Names.lean ====
section
/-! DEFINITION. What each instruction's name fields are: their roles and kinds, which instructions RPT may repeat and
which belong to S mode (R52, R170, R171). -/

namespace Sys2Proof

/-- The name fields of R37, in the order of the checks of R52. -/
inductive Role where
  | d | a | b | c
  deriving DecidableEq, Repr

/-- What a name field may hold: a scalar name, a capability (an even w pair), a vector (four entries), a 64-byte record
(eight entries), a w pair, o1 to o7, or a capability or `zr`. -/
inductive OpKind where
  | scalar | cap | vec | record | pair | mask | capOrZr
  deriving DecidableEq, Repr

structure Operand where
  role : Role
  kind : OpKind
  name : Name
  deriving DecidableEq, Repr

/-- The operand of SRD and SWR: a capability for sy.elens, sy.epcc, sy.hlens and sy.hpcc, else a scalar (R72, R475). -/
def srKind (reg : Nat) : OpKind := if 3 ≤ reg ∧ reg ≤ 6 then .cap else .scalar

/-- The name fields of an instruction in the order D, A, B, C, each with the kind its description gives it (R52). -/
def Instr.operands : Instr → List Operand
  | .add _ d a b => [⟨.d, .scalar, d⟩, ⟨.a, .scalar, a⟩, ⟨.b, .scalar, b⟩]
  | .sub _ d a b => [⟨.d, .scalar, d⟩, ⟨.a, .scalar, a⟩, ⟨.b, .scalar, b⟩]
  | .mul _ d a b => [⟨.d, .scalar, d⟩, ⟨.a, .scalar, a⟩, ⟨.b, .scalar, b⟩]
  | .mulh _ d a b => [⟨.d, .scalar, d⟩, ⟨.a, .scalar, a⟩, ⟨.b, .scalar, b⟩]
  | .mulhz _ d a b => [⟨.d, .scalar, d⟩, ⟨.a, .scalar, a⟩, ⟨.b, .scalar, b⟩]
  | .div _ d a b => [⟨.d, .scalar, d⟩, ⟨.a, .scalar, a⟩, ⟨.b, .scalar, b⟩]
  | .divz _ d a b => [⟨.d, .scalar, d⟩, ⟨.a, .scalar, a⟩, ⟨.b, .scalar, b⟩]
  | .rem _ d a b => [⟨.d, .scalar, d⟩, ⟨.a, .scalar, a⟩, ⟨.b, .scalar, b⟩]
  | .remz _ d a b => [⟨.d, .scalar, d⟩, ⟨.a, .scalar, a⟩, ⟨.b, .scalar, b⟩]
  | .min _ d a b => [⟨.d, .scalar, d⟩, ⟨.a, .scalar, a⟩, ⟨.b, .scalar, b⟩]
  | .max _ d a b => [⟨.d, .scalar, d⟩, ⟨.a, .scalar, a⟩, ⟨.b, .scalar, b⟩]
  | .minz _ d a b => [⟨.d, .scalar, d⟩, ⟨.a, .scalar, a⟩, ⟨.b, .scalar, b⟩]
  | .maxz _ d a b => [⟨.d, .scalar, d⟩, ⟨.a, .scalar, a⟩, ⟨.b, .scalar, b⟩]
  | .andW _ d a b => [⟨.d, .scalar, d⟩, ⟨.a, .scalar, a⟩, ⟨.b, .scalar, b⟩]
  | .orW _ d a b => [⟨.d, .scalar, d⟩, ⟨.a, .scalar, a⟩, ⟨.b, .scalar, b⟩]
  | .xor _ d a b => [⟨.d, .scalar, d⟩, ⟨.a, .scalar, a⟩, ⟨.b, .scalar, b⟩]
  | .andn _ d a b => [⟨.d, .scalar, d⟩, ⟨.a, .scalar, a⟩, ⟨.b, .scalar, b⟩]
  | .orn _ d a b => [⟨.d, .scalar, d⟩, ⟨.a, .scalar, a⟩, ⟨.b, .scalar, b⟩]
  | .xnor _ d a b => [⟨.d, .scalar, d⟩, ⟨.a, .scalar, a⟩, ⟨.b, .scalar, b⟩]
  | .logt _ d a b c _ => [⟨.d, .scalar, d⟩, ⟨.a, .scalar, a⟩, ⟨.b, .scalar, b⟩, ⟨.c, .scalar, c⟩]
  | .shl _ d a b => [⟨.d, .scalar, d⟩, ⟨.a, .scalar, a⟩, ⟨.b, .scalar, b⟩]
  | .shr _ d a b => [⟨.d, .scalar, d⟩, ⟨.a, .scalar, a⟩, ⟨.b, .scalar, b⟩]
  | .sar _ d a b => [⟨.d, .scalar, d⟩, ⟨.a, .scalar, a⟩, ⟨.b, .scalar, b⟩]
  | .rot _ d a b => [⟨.d, .scalar, d⟩, ⟨.a, .scalar, a⟩, ⟨.b, .scalar, b⟩]
  | .fshl _ d a b c => [⟨.d, .scalar, d⟩, ⟨.a, .scalar, a⟩, ⟨.b, .scalar, b⟩, ⟨.c, .scalar, c⟩]
  | .fshr _ d a b c => [⟨.d, .scalar, d⟩, ⟨.a, .scalar, a⟩, ⟨.b, .scalar, b⟩, ⟨.c, .scalar, c⟩]
  | .clz _ d a => [⟨.d, .scalar, d⟩, ⟨.a, .scalar, a⟩]
  | .ctz _ d a => [⟨.d, .scalar, d⟩, ⟨.a, .scalar, a⟩]
  | .popc _ d a => [⟨.d, .scalar, d⟩, ⟨.a, .scalar, a⟩]
  | .brev _ d a => [⟨.d, .scalar, d⟩, ⟨.a, .scalar, a⟩]
  | .bswap _ d a => [⟨.d, .scalar, d⟩, ⟨.a, .scalar, a⟩]
  | .mov _ d a => [⟨.d, .scalar, d⟩, ⟨.a, .scalar, a⟩]
  | .sext _ d a _ => [⟨.d, .scalar, d⟩, ⟨.a, .scalar, a⟩]
  | .zext _ d a _ => [⟨.d, .scalar, d⟩, ⟨.a, .scalar, a⟩]
  | .seq _ d a b => [⟨.d, .scalar, d⟩, ⟨.a, .scalar, a⟩, ⟨.b, .scalar, b⟩]
  | .sne _ d a b => [⟨.d, .scalar, d⟩, ⟨.a, .scalar, a⟩, ⟨.b, .scalar, b⟩]
  | .slt _ d a b => [⟨.d, .scalar, d⟩, ⟨.a, .scalar, a⟩, ⟨.b, .scalar, b⟩]
  | .sltz _ d a b => [⟨.d, .scalar, d⟩, ⟨.a, .scalar, a⟩, ⟨.b, .scalar, b⟩]
  | .sel _ d a b => [⟨.d, .scalar, d⟩, ⟨.a, .scalar, a⟩, ⟨.b, .scalar, b⟩]
  | .bfx _ d a _ _ => [⟨.d, .scalar, d⟩, ⟨.a, .scalar, a⟩]
  | .bfxz _ d a _ _ => [⟨.d, .scalar, d⟩, ⟨.a, .scalar, a⟩]
  | .bfi _ d a _ _ => [⟨.d, .scalar, d⟩, ⟨.a, .scalar, a⟩]
  | .addi _ d a _ => [⟨.d, .scalar, d⟩, ⟨.a, .scalar, a⟩]
  | .andi _ d a _ => [⟨.d, .scalar, d⟩, ⟨.a, .scalar, a⟩]
  | .ori _ d a _ => [⟨.d, .scalar, d⟩, ⟨.a, .scalar, a⟩]
  | .xori _ d a _ => [⟨.d, .scalar, d⟩, ⟨.a, .scalar, a⟩]
  | .shli _ d a _ => [⟨.d, .scalar, d⟩, ⟨.a, .scalar, a⟩]
  | .shri _ d a _ => [⟨.d, .scalar, d⟩, ⟨.a, .scalar, a⟩]
  | .sari _ d a _ => [⟨.d, .scalar, d⟩, ⟨.a, .scalar, a⟩]
  | .slti _ d a _ => [⟨.d, .scalar, d⟩, ⟨.a, .scalar, a⟩]
  | .li _ d _ => [⟨.d, .scalar, d⟩]
  | .beq _ a b _ => [⟨.a, .scalar, a⟩, ⟨.b, .scalar, b⟩]
  | .bne _ a b _ => [⟨.a, .scalar, a⟩, ⟨.b, .scalar, b⟩]
  | .blt _ a b _ => [⟨.a, .scalar, a⟩, ⟨.b, .scalar, b⟩]
  | .bge _ a b _ => [⟨.a, .scalar, a⟩, ⟨.b, .scalar, b⟩]
  | .blo _ a b _ => [⟨.a, .scalar, a⟩, ⟨.b, .scalar, b⟩]
  | .bhs _ a b _ => [⟨.a, .scalar, a⟩, ⟨.b, .scalar, b⟩]
  | .bz _ a _ => [⟨.a, .scalar, a⟩]
  | .bnz _ a _ => [⟨.a, .scalar, a⟩]
  | .j _ _ => []
  | .rpt _ _ _ _ => []
  | .lns _ a => [⟨.a, .cap, a⟩]
  | .lget _ d => [⟨.d, .cap, d⟩]
  | .ldrain _ a => [⟨.a, .cap, a⟩]
  | .callc _ _ a => [⟨.a, .cap, a⟩]
  | .ret _ _ => []
  | .park _ a b => [⟨.a, .cap, a⟩, ⟨.b, .capOrZr, b⟩]
  | .trap _ a => [⟨.a, .scalar, a⟩]
  | .eret _ => []
  | .call _ _ _ => []
  | .lspill _ d a b => [⟨.d, .cap, d⟩, ⟨.a, .cap, a⟩, ⟨.b, .scalar, b⟩]
  | .lfill _ d a b => [⟨.d, .cap, d⟩, ⟨.a, .cap, a⟩, ⟨.b, .scalar, b⟩]
  | .lmove _ d a b => [⟨.d, .cap, d⟩, ⟨.a, .cap, a⟩, ⟨.b, .scalar, b⟩]
  | .cget _ _ d a => [⟨.d, .scalar, d⟩, ⟨.a, .cap, a⟩]
  | .csetaddr _ d a b => [⟨.d, .cap, d⟩, ⟨.a, .cap, a⟩, ⟨.b, .scalar, b⟩]
  | .cincaddr _ d a b => [⟨.d, .cap, d⟩, ⟨.a, .cap, a⟩, ⟨.b, .scalar, b⟩]
  | .cnarrow _ d a b => [⟨.d, .cap, d⟩, ⟨.a, .cap, a⟩, ⟨.b, .scalar, b⟩]
  | .cnarrowx _ d a b => [⟨.d, .cap, d⟩, ⟨.a, .cap, a⟩, ⟨.b, .scalar, b⟩]
  | .cdrop _ d a b => [⟨.d, .cap, d⟩, ⟨.a, .cap, a⟩, ⟨.b, .scalar, b⟩]
  | .craiselbl _ d a b => [⟨.d, .cap, d⟩, ⟨.a, .cap, a⟩, ⟨.b, .scalar, b⟩]
  | .cseal _ d a b => [⟨.d, .cap, d⟩, ⟨.a, .cap, a⟩, ⟨.b, .cap, b⟩]
  | .cunseal _ d a b => [⟨.d, .cap, d⟩, ⟨.a, .cap, a⟩, ⟨.b, .cap, b⟩]
  | .cgate _ d a => [⟨.d, .cap, d⟩, ⟨.a, .cap, a⟩]
  | .cstrip _ d a => [⟨.d, .cap, d⟩, ⟨.a, .cap, a⟩]
  | .cmov _ d a => [⟨.d, .cap, d⟩, ⟨.a, .cap, a⟩]
  | .cwithin _ d a b => [⟨.d, .scalar, d⟩, ⟨.a, .cap, a⟩, ⟨.b, .cap, b⟩]
  | .cfitlen _ d a => [⟨.d, .scalar, d⟩, ⟨.a, .scalar, a⟩]
  | .cfitmask _ d a => [⟨.d, .scalar, d⟩, ⟨.a, .scalar, a⟩]
  | .cincaddri _ d a _ => [⟨.d, .cap, d⟩, ⟨.a, .cap, a⟩]
  | .crvmark _ a b => [⟨.a, .cap, a⟩, ⟨.b, .cap, b⟩]
  | .csweep _ a => [⟨.a, .cap, a⟩]
  | .ldS8 _ d a _ => [⟨.d, .scalar, d⟩, ⟨.a, .cap, a⟩]
  | .ldZ8 _ d a _ => [⟨.d, .scalar, d⟩, ⟨.a, .cap, a⟩]
  | .ldS16 _ d a _ => [⟨.d, .scalar, d⟩, ⟨.a, .cap, a⟩]
  | .ldZ16 _ d a _ => [⟨.d, .scalar, d⟩, ⟨.a, .cap, a⟩]
  | .ldS32 _ d a _ => [⟨.d, .scalar, d⟩, ⟨.a, .cap, a⟩]
  | .ldZ32 _ d a _ => [⟨.d, .scalar, d⟩, ⟨.a, .cap, a⟩]
  | .ldD _ d a _ => [⟨.d, .scalar, d⟩, ⟨.a, .cap, a⟩]
  | .stB _ d a _ => [⟨.d, .scalar, d⟩, ⟨.a, .cap, a⟩]
  | .stH _ d a _ => [⟨.d, .scalar, d⟩, ⟨.a, .cap, a⟩]
  | .stW _ d a _ => [⟨.d, .scalar, d⟩, ⟨.a, .cap, a⟩]
  | .stD _ d a _ => [⟨.d, .scalar, d⟩, ⟨.a, .cap, a⟩]
  | .ldc _ d a _ => [⟨.d, .cap, d⟩, ⟨.a, .cap, a⟩]
  | .stc _ d a _ => [⟨.d, .cap, d⟩, ⟨.a, .cap, a⟩]
  | .ldv _ d a _ => [⟨.d, .vec, d⟩, ⟨.a, .cap, a⟩]
  | .stv _ d a _ => [⟨.d, .vec, d⟩, ⟨.a, .cap, a⟩]
  | .lda _ d a _ _ _ _ => [⟨.d, .scalar, d⟩, ⟨.a, .cap, a⟩]
  | .stl _ d a _ _ _ _ => [⟨.d, .scalar, d⟩, ⟨.a, .cap, a⟩]
  | .ldvg _ d a b _ _ _ => [⟨.d, .vec, d⟩, ⟨.a, .cap, a⟩, ⟨.b, .vec, b⟩]
  | .ldvgNf _ d a b c _ _ _ => [⟨.d, .vec, d⟩, ⟨.a, .cap, a⟩, ⟨.b, .vec, b⟩, ⟨.c, .mask, c⟩]
  | .stvs _ d a b _ _ _ => [⟨.d, .vec, d⟩, ⟨.a, .cap, a⟩, ⟨.b, .vec, b⟩]
  | .bsleep _ _ => []
  | .bwake _ _ => []
  | .amoaddW _ d a b _ _ _ => [⟨.d, .scalar, d⟩, ⟨.a, .cap, a⟩, ⟨.b, .scalar, b⟩]
  | .amoandW _ d a b _ _ _ => [⟨.d, .scalar, d⟩, ⟨.a, .cap, a⟩, ⟨.b, .scalar, b⟩]
  | .amoorW _ d a b _ _ _ => [⟨.d, .scalar, d⟩, ⟨.a, .cap, a⟩, ⟨.b, .scalar, b⟩]
  | .amoxorW _ d a b _ _ _ => [⟨.d, .scalar, d⟩, ⟨.a, .cap, a⟩, ⟨.b, .scalar, b⟩]
  | .amominW _ d a b _ _ _ => [⟨.d, .scalar, d⟩, ⟨.a, .cap, a⟩, ⟨.b, .scalar, b⟩]
  | .amomaxW _ d a b _ _ _ => [⟨.d, .scalar, d⟩, ⟨.a, .cap, a⟩, ⟨.b, .scalar, b⟩]
  | .amominzW _ d a b _ _ _ => [⟨.d, .scalar, d⟩, ⟨.a, .cap, a⟩, ⟨.b, .scalar, b⟩]
  | .amomaxzW _ d a b _ _ _ => [⟨.d, .scalar, d⟩, ⟨.a, .cap, a⟩, ⟨.b, .scalar, b⟩]
  | .amoswapW _ d a b _ _ _ => [⟨.d, .scalar, d⟩, ⟨.a, .cap, a⟩, ⟨.b, .scalar, b⟩]
  | .amocasW _ d a b _ _ _ => [⟨.d, .scalar, d⟩, ⟨.a, .cap, a⟩, ⟨.b, .scalar, b⟩]
  | .amoaddD _ d a b _ _ _ => [⟨.d, .scalar, d⟩, ⟨.a, .cap, a⟩, ⟨.b, .scalar, b⟩]
  | .amoandD _ d a b _ _ _ => [⟨.d, .scalar, d⟩, ⟨.a, .cap, a⟩, ⟨.b, .scalar, b⟩]
  | .amoorD _ d a b _ _ _ => [⟨.d, .scalar, d⟩, ⟨.a, .cap, a⟩, ⟨.b, .scalar, b⟩]
  | .amoxorD _ d a b _ _ _ => [⟨.d, .scalar, d⟩, ⟨.a, .cap, a⟩, ⟨.b, .scalar, b⟩]
  | .amominD _ d a b _ _ _ => [⟨.d, .scalar, d⟩, ⟨.a, .cap, a⟩, ⟨.b, .scalar, b⟩]
  | .amomaxD _ d a b _ _ _ => [⟨.d, .scalar, d⟩, ⟨.a, .cap, a⟩, ⟨.b, .scalar, b⟩]
  | .amominzD _ d a b _ _ _ => [⟨.d, .scalar, d⟩, ⟨.a, .cap, a⟩, ⟨.b, .scalar, b⟩]
  | .amomaxzD _ d a b _ _ _ => [⟨.d, .scalar, d⟩, ⟨.a, .cap, a⟩, ⟨.b, .scalar, b⟩]
  | .amoswapD _ d a b _ _ _ => [⟨.d, .scalar, d⟩, ⟨.a, .cap, a⟩, ⟨.b, .scalar, b⟩]
  | .amocasD _ d a b _ _ _ => [⟨.d, .scalar, d⟩, ⟨.a, .cap, a⟩, ⟨.b, .scalar, b⟩]
  | .amocasc _ d a b _ _ _ => [⟨.d, .cap, d⟩, ⟨.a, .cap, a⟩, ⟨.b, .cap, b⟩]
  | .wfe _ d a => [⟨.d, .scalar, d⟩, ⟨.a, .scalar, a⟩]
  | .sev _ a b => [⟨.a, .scalar, a⟩, ⟨.b, .scalar, b⟩]
  | .bara _ a => [⟨.a, .cap, a⟩]
  | .barw _ a => [⟨.a, .cap, a⟩]
  | .semp _ a => [⟨.a, .cap, a⟩]
  | .semv _ a => [⟨.a, .cap, a⟩]
  | .fence _ _ _ => []
  | .waitva _ a b _ _ => [⟨.a, .cap, a⟩, ⟨.b, .scalar, b⟩]
  | .wakeva _ a b _ _ => [⟨.a, .cap, a⟩, ⟨.b, .scalar, b⟩]
  | .mpost _ a b _ _ => [⟨.a, .cap, a⟩, ⟨.b, .vec, b⟩]
  | .send _ a b _ _ => [⟨.a, .scalar, a⟩, ⟨.b, .vec, b⟩]
  | .recv _ d a _ _ => [⟨.d, .vec, d⟩, ⟨.a, .scalar, a⟩]
  | .vadd _ d a b _ _ => [⟨.d, .vec, d⟩, ⟨.a, .vec, a⟩, ⟨.b, .vec, b⟩]
  | .vsub _ d a b _ _ => [⟨.d, .vec, d⟩, ⟨.a, .vec, a⟩, ⟨.b, .vec, b⟩]
  | .vmul _ d a b _ _ => [⟨.d, .vec, d⟩, ⟨.a, .vec, a⟩, ⟨.b, .vec, b⟩]
  | .vmad _ d a b _ _ => [⟨.d, .vec, d⟩, ⟨.a, .vec, a⟩, ⟨.b, .vec, b⟩]
  | .vmin _ d a b _ _ => [⟨.d, .vec, d⟩, ⟨.a, .vec, a⟩, ⟨.b, .vec, b⟩]
  | .vmax _ d a b _ _ => [⟨.d, .vec, d⟩, ⟨.a, .vec, a⟩, ⟨.b, .vec, b⟩]
  | .vand _ d a b _ _ => [⟨.d, .vec, d⟩, ⟨.a, .vec, a⟩, ⟨.b, .vec, b⟩]
  | .vor _ d a b _ _ => [⟨.d, .vec, d⟩, ⟨.a, .vec, a⟩, ⟨.b, .vec, b⟩]
  | .vxor _ d a b _ _ => [⟨.d, .vec, d⟩, ⟨.a, .vec, a⟩, ⟨.b, .vec, b⟩]
  | .vshl _ d a b _ _ => [⟨.d, .vec, d⟩, ⟨.a, .vec, a⟩, ⟨.b, .vec, b⟩]
  | .vshr _ d a b _ _ => [⟨.d, .vec, d⟩, ⟨.a, .vec, a⟩, ⟨.b, .vec, b⟩]
  | .vsar _ d a b _ _ => [⟨.d, .vec, d⟩, ⟨.a, .vec, a⟩, ⟨.b, .vec, b⟩]
  | .vabs _ d a _ _ => [⟨.d, .vec, d⟩, ⟨.a, .vec, a⟩]
  | .vneg _ d a _ _ => [⟨.d, .vec, d⟩, ⟨.a, .vec, a⟩]
  | .vlogt _ d a b c _ _ _ => [⟨.d, .vec, d⟩, ⟨.a, .vec, a⟩, ⟨.b, .vec, b⟩, ⟨.c, .vec, c⟩]
  | .vcmp _ d a b _ _ _ => [⟨.d, .mask, d⟩, ⟨.a, .vec, a⟩, ⟨.b, .vec, b⟩]
  | .vsel _ d a b _ _ => [⟨.d, .vec, d⟩, ⟨.a, .vec, a⟩, ⟨.b, .vec, b⟩]
  | .vbcast _ d a _ _ => [⟨.d, .vec, d⟩, ⟨.a, .scalar, a⟩]
  | .vext _ d a b _ => [⟨.d, .scalar, d⟩, ⟨.a, .vec, a⟩, ⟨.b, .scalar, b⟩]
  | .vins _ d a b _ => [⟨.d, .vec, d⟩, ⟨.a, .scalar, a⟩, ⟨.b, .scalar, b⟩]
  | .vperm _ d a b _ _ => [⟨.d, .vec, d⟩, ⟨.a, .vec, a⟩, ⟨.b, .vec, b⟩]
  | .vred _ d a _ _ _ => [⟨.d, .scalar, d⟩, ⟨.a, .vec, a⟩]
  | .vfadd _ d a b _ _ => [⟨.d, .vec, d⟩, ⟨.a, .vec, a⟩, ⟨.b, .vec, b⟩]
  | .vfsub _ d a b _ _ => [⟨.d, .vec, d⟩, ⟨.a, .vec, a⟩, ⟨.b, .vec, b⟩]
  | .vfmul _ d a b _ _ => [⟨.d, .vec, d⟩, ⟨.a, .vec, a⟩, ⟨.b, .vec, b⟩]
  | .vfma _ d a b _ _ => [⟨.d, .vec, d⟩, ⟨.a, .vec, a⟩, ⟨.b, .vec, b⟩]
  | .vfnma _ d a b _ _ => [⟨.d, .vec, d⟩, ⟨.a, .vec, a⟩, ⟨.b, .vec, b⟩]
  | .vfmin _ d a b _ _ => [⟨.d, .vec, d⟩, ⟨.a, .vec, a⟩, ⟨.b, .vec, b⟩]
  | .vfmax _ d a b _ _ => [⟨.d, .vec, d⟩, ⟨.a, .vec, a⟩, ⟨.b, .vec, b⟩]
  | .vfdiv _ d a b _ _ => [⟨.d, .vec, d⟩, ⟨.a, .vec, a⟩, ⟨.b, .vec, b⟩]
  | .vfsqrt _ d a _ _ => [⟨.d, .vec, d⟩, ⟨.a, .vec, a⟩]
  | .vfrcp _ d a _ _ => [⟨.d, .vec, d⟩, ⟨.a, .vec, a⟩]
  | .vfrsq _ d a _ _ => [⟨.d, .vec, d⟩, ⟨.a, .vec, a⟩]
  | .vfexp2 _ d a _ _ => [⟨.d, .vec, d⟩, ⟨.a, .vec, a⟩]
  | .vflog2 _ d a _ _ => [⟨.d, .vec, d⟩, ⟨.a, .vec, a⟩]
  | .vftanh _ d a _ _ => [⟨.d, .vec, d⟩, ⟨.a, .vec, a⟩]
  | .vcvt _ d a _ _ _ _ => [⟨.d, .vec, d⟩, ⟨.a, .vec, a⟩]
  | .vquant _ d a _ => [⟨.d, .vec, d⟩, ⟨.a, .vec, a⟩]
  | .vdeq _ d a _ => [⟨.d, .vec, d⟩, ⟨.a, .vec, a⟩]
  | .xmax _ d a _ => [⟨.d, .vec, d⟩, ⟨.a, .vec, a⟩]
  | .vbaddq _ d a b _ => [⟨.d, .vec, d⟩, ⟨.a, .vec, a⟩, ⟨.b, .vec, b⟩]
  | .mload _ d a _ _ _ _ => [⟨.d, .scalar, d⟩, ⟨.a, .cap, a⟩]
  | .mswap _ d _ _ => [⟨.d, .scalar, d⟩]
  | .mrun h d a b _ _ _ _ => if h.len = .x160 then [⟨.d, .scalar, d⟩, ⟨.a, .cap, a⟩] else [⟨.d, .scalar, d⟩, ⟨.a, .cap, a⟩, ⟨.b, .scalar, b⟩]
  | .mdrain h d a b _ _ _ => if h.len = .x160 then [⟨.d, .scalar, d⟩, ⟨.a, .cap, a⟩] else [⟨.d, .scalar, d⟩, ⟨.a, .cap, a⟩, ⟨.b, .scalar, b⟩]
  | .mslot _ a _ => [⟨.a, .scalar, a⟩]
  | .mstat _ d _ => [⟨.d, .scalar, d⟩]
  | .cpy _ d a b _ _ _ => [⟨.d, .scalar, d⟩, ⟨.a, .cap, a⟩, ⟨.b, .cap, b⟩]
  | .cpym _ d a b _ _ _ _ => [⟨.d, .scalar, d⟩, ⟨.a, .cap, a⟩, ⟨.b, .cap, b⟩]
  | .conv _ d a b _ _ _ _ => [⟨.d, .scalar, d⟩, ⟨.a, .cap, a⟩, ⟨.b, .cap, b⟩]
  | .jwait _ d a b _ slotm => if slotm = 1 then [⟨.d, .scalar, d⟩, ⟨.b, .scalar, b⟩] else [⟨.d, .scalar, d⟩, ⟨.a, .scalar, a⟩]
  | .jstat _ d a _ slotm => if slotm = 1 then [⟨.d, .scalar, d⟩] else [⟨.d, .scalar, d⟩, ⟨.a, .scalar, a⟩]
  | .jcancel _ d a => [⟨.d, .scalar, d⟩, ⟨.a, .scalar, a⟩]
  | .gang _ _ => []
  | .split _ => []
  | .mpair _ => []
  | .munpair _ => []
  | .mchk _ d => [⟨.d, .scalar, d⟩]
  | .qpush _ d a b _ => [⟨.d, .scalar, d⟩, ⟨.a, .cap, a⟩, ⟨.b, .record, b⟩]
  | .qpushWait _ d a b => [⟨.d, .scalar, d⟩, ⟨.a, .cap, a⟩, ⟨.b, .record, b⟩]
  | .qpop _ d a => [⟨.d, .record, d⟩, ⟨.a, .cap, a⟩]
  | .qpopg _ d a => [⟨.d, .record, d⟩, ⟨.a, .cap, a⟩]
  | .qstat _ d a => [⟨.d, .scalar, d⟩, ⟨.a, .cap, a⟩]
  | .spawn _ d b => [⟨.d, .scalar, d⟩, ⟨.b, .record, b⟩]
  | .shape _ d _ => [⟨.d, .scalar, d⟩]
  | .kstat _ d _ => [⟨.d, .scalar, d⟩]
  | .prpush _ d a b => [⟨.d, .scalar, d⟩, ⟨.a, .cap, a⟩, ⟨.b, .record, b⟩]
  | .prpop _ d a => [⟨.d, .record, d⟩, ⟨.a, .cap, a⟩]
  | .prclass _ d a b => [⟨.d, .scalar, d⟩, ⟨.a, .cap, a⟩, ⟨.b, .record, b⟩]
  | .ptwr _ d a b c _ _ => [⟨.d, .scalar, d⟩, ⟨.a, .cap, a⟩, ⟨.b, .cap, b⟩, ⟨.c, .scalar, c⟩]
  | .ptrd _ d a b _ _ _ => [⟨.d, .vec, d⟩, ⟨.a, .cap, a⟩, ⟨.b, .scalar, b⟩]
  | .ptflip _ a _ => [⟨.a, .cap, a⟩]
  | .tlbw _ d a b => [⟨.d, .scalar, d⟩, ⟨.a, .pair, a⟩, ⟨.b, .scalar, b⟩]
  | .tlbi _ a b ext => if ext < 2 then [⟨.a, .scalar, a⟩, ⟨.b, .scalar, b⟩] else [⟨.b, .scalar, b⟩]
  | .frpop _ d _ => [⟨.d, .vec, d⟩]
  | .cresume _ d a _ => [⟨.d, .scalar, d⟩, ⟨.a, .scalar, a⟩]
  | .decl _ a b => [⟨.a, .cap, a⟩, ⟨.b, .scalar, b⟩]
  | .srd _ d reg => [⟨.d, (srKind reg), d⟩]
  | .swr _ a reg => [⟨.a, (srKind reg), a⟩]
  | .bkpt _ => []
  | .halt _ => []
  | .illegalEncoding _ => []
  | .packageReset _ _ _ => []
  | .ifetchLineMiss _ _ => []
  | .trapDelivery _ => []
  | .asyncCauseDelivery _ => []
  | .ptimerExpiry _ => []
  | .extirq _ => []
  | .lateWriteLand _ _ => []
  | .spillEngineMove _ => []
  | .fpEventStop _ => []
  | .fpReplyResume _ _ => []
  | .fpReplyConvert _ _ _ => []
  | .portAccess _ _ => []
  | .storeAck _ _ => []
  | .accessRetry _ => []
  | .groupWakeComplete _ _ => []
  | .xmaxContributionArrive _ _ => []
  | .xmaxTimeout _ => []
  | .matrixCardStart _ _ => []
  | .mloadEnd _ _ _ => []
  | .mrunEnd _ _ _ => []
  | .mdrainEnd _ _ _ => []
  | .mrunWatchdog _ _ => []
  | .matrixSlotBoundary _ _ => []
  | .noslotTimeout _ _ => []
  | .cardStart _ _ => []
  | .cardEnd _ _ _ => []
  | .tlbProbeResult _ _ => []
  | .faultRecordPost _ _ => []
  | .inboxMessageEnter _ _ => []
  | .eventSignalArrive _ => []
  | .queueSegmentRefill _ => []
  | .queueRingError _ => []
  | .queueStateOn _ _ _ _ => []
  | .queueStateStop _ _ _ _ => []
  | .queueStateOff _ _ _ _ => []
  | .queueDoorbell _ _ => []
  | .launchDispatch _ => []
  | .teamPlacement _ _ => []
  | .parSliceExpiry _ => []
  | .teamSwapOutComplete _ => []
  | .teamSwapInComplete _ => []
  | .kernelCompletion _ => []
  | .kernelAbort _ => []
  | .chainRecordEnter _ => []
  | .chainRecordExit _ => []
  | .chainRecirculate _ => []
  | .bankFlip _ => []
  | .bankDrainComplete _ _ _ => []
  | .gangFuse _ => []
  | .mirrorCopyComplete _ => []
  | .mirrorIntervalEnd _ => []
  | .mirrorCompare _ => []
  | .sweepCoreCheck _ => []
  | .sweepCheckTimeout _ => []
  | .sweepComplete _ => []
  | .hbmScrub _ _ => []
  | .pcDropRepair _ => []
  | .partitionTableWrite _ _ => []
  | .partitionStart _ _ => []
  | .partitionStop _ _ => []
  | .partitionStopComplete _ => []
  | .partitionResume _ => []
  | .partitionRelease _ _ _ => []
  | .sharedSlotStart _ => []
  | .coreEvict _ => []
  | .coreRestore _ => []
  | .fwImageStage _ _ _ => []
  | .fwUpdateAck _ => []
  | .fwUpdateWithdraw => []
  | .fwActivate => []
  | .attestEvidence _ _ => []
  | .secretUnwrap _ _ _ => []
  | .keyHandleBind _ _ _ _ _ => []
  | .apertureWrite _ _ _ _ => []
  | .portTableWrite _ _ _ => []
  | .portYield _ => []
  | .spareRemap _ _ => []
  | .coreKill _ _ _ => []
  | .inboundWrite _ _ _ _ => []
  | .inboundPieceSend _ _ => []
  | .inboundPieceAck _ _ => []
  | .hostRead _ _ _ _ => []
  | .hostCoreDoorbell _ _ => []
  | .registrationRegister _ => []
  | .hostWaitRegister _ _ _ _ => []
  | .registerWrite _ _ _ _ => []
  | .hostWarmRestart _ => []
  | .blockEntrySend _ => []
  | .blockPacketReceive _ _ _ _ => []
  | .blockLaneDeliver _ _ => []
  | .migrationCut _ => []
  | .cutMarkReceive _ _ => []
  | .migrationRestore _ _ => []
  | .kustadLinkStateChange _ _ => []

/-- The instruction with each name field replaced (the stepping of RPT, R170). -/
def Instr.mapNames (g : Role → Name → Name) : Instr → Instr
  | .add h d a b => .add h (g .d d) (g .a a) (g .b b)
  | .sub h d a b => .sub h (g .d d) (g .a a) (g .b b)
  | .mul h d a b => .mul h (g .d d) (g .a a) (g .b b)
  | .mulh h d a b => .mulh h (g .d d) (g .a a) (g .b b)
  | .mulhz h d a b => .mulhz h (g .d d) (g .a a) (g .b b)
  | .div h d a b => .div h (g .d d) (g .a a) (g .b b)
  | .divz h d a b => .divz h (g .d d) (g .a a) (g .b b)
  | .rem h d a b => .rem h (g .d d) (g .a a) (g .b b)
  | .remz h d a b => .remz h (g .d d) (g .a a) (g .b b)
  | .min h d a b => .min h (g .d d) (g .a a) (g .b b)
  | .max h d a b => .max h (g .d d) (g .a a) (g .b b)
  | .minz h d a b => .minz h (g .d d) (g .a a) (g .b b)
  | .maxz h d a b => .maxz h (g .d d) (g .a a) (g .b b)
  | .andW h d a b => .andW h (g .d d) (g .a a) (g .b b)
  | .orW h d a b => .orW h (g .d d) (g .a a) (g .b b)
  | .xor h d a b => .xor h (g .d d) (g .a a) (g .b b)
  | .andn h d a b => .andn h (g .d d) (g .a a) (g .b b)
  | .orn h d a b => .orn h (g .d d) (g .a a) (g .b b)
  | .xnor h d a b => .xnor h (g .d d) (g .a a) (g .b b)
  | .logt h d a b c table => .logt h (g .d d) (g .a a) (g .b b) (g .c c) table
  | .shl h d a b => .shl h (g .d d) (g .a a) (g .b b)
  | .shr h d a b => .shr h (g .d d) (g .a a) (g .b b)
  | .sar h d a b => .sar h (g .d d) (g .a a) (g .b b)
  | .rot h d a b => .rot h (g .d d) (g .a a) (g .b b)
  | .fshl h d a b c => .fshl h (g .d d) (g .a a) (g .b b) (g .c c)
  | .fshr h d a b c => .fshr h (g .d d) (g .a a) (g .b b) (g .c c)
  | .clz h d a => .clz h (g .d d) (g .a a)
  | .ctz h d a => .ctz h (g .d d) (g .a a)
  | .popc h d a => .popc h (g .d d) (g .a a)
  | .brev h d a => .brev h (g .d d) (g .a a)
  | .bswap h d a => .bswap h (g .d d) (g .a a)
  | .mov h d a => .mov h (g .d d) (g .a a)
  | .sext h d a width1 => .sext h (g .d d) (g .a a) width1
  | .zext h d a width1 => .zext h (g .d d) (g .a a) width1
  | .seq h d a b => .seq h (g .d d) (g .a a) (g .b b)
  | .sne h d a b => .sne h (g .d d) (g .a a) (g .b b)
  | .slt h d a b => .slt h (g .d d) (g .a a) (g .b b)
  | .sltz h d a b => .sltz h (g .d d) (g .a a) (g .b b)
  | .sel h d a b => .sel h (g .d d) (g .a a) (g .b b)
  | .bfx h d a pos width1 => .bfx h (g .d d) (g .a a) pos width1
  | .bfxz h d a pos width1 => .bfxz h (g .d d) (g .a a) pos width1
  | .bfi h d a pos width1 => .bfi h (g .d d) (g .a a) pos width1
  | .addi h d a imm => .addi h (g .d d) (g .a a) imm
  | .andi h d a imm => .andi h (g .d d) (g .a a) imm
  | .ori h d a imm => .ori h (g .d d) (g .a a) imm
  | .xori h d a imm => .xori h (g .d d) (g .a a) imm
  | .shli h d a imm => .shli h (g .d d) (g .a a) imm
  | .shri h d a imm => .shri h (g .d d) (g .a a) imm
  | .sari h d a imm => .sari h (g .d d) (g .a a) imm
  | .slti h d a imm => .slti h (g .d d) (g .a a) imm
  | .li h d imm => .li h (g .d d) imm
  | .beq h a b disp => .beq h (g .a a) (g .b b) disp
  | .bne h a b disp => .bne h (g .a a) (g .b b) disp
  | .blt h a b disp => .blt h (g .a a) (g .b b) disp
  | .bge h a b disp => .bge h (g .a a) (g .b b) disp
  | .blo h a b disp => .blo h (g .a a) (g .b b) disp
  | .bhs h a b disp => .bhs h (g .a a) (g .b b) disp
  | .bz h a disp => .bz h (g .a a) disp
  | .bnz h a disp => .bnz h (g .a a) disp
  | .j h disp => .j h disp
  | .rpt h n1 steps stride => .rpt h n1 steps stride
  | .lns h a => .lns h (g .a a)
  | .lget h d => .lget h (g .d d)
  | .ldrain h a => .ldrain h (g .a a)
  | .callc h k a => .callc h k (g .a a)
  | .ret h k => .ret h k
  | .park h a b => .park h (g .a a) (g .b b)
  | .trap h a => .trap h (g .a a)
  | .eret h => .eret h
  | .call h k disp => .call h k disp
  | .lspill h d a b => .lspill h (g .d d) (g .a a) (g .b b)
  | .lfill h d a b => .lfill h (g .d d) (g .a a) (g .b b)
  | .lmove h d a b => .lmove h (g .d d) (g .a a) (g .b b)
  | .cget h fsel d a => .cget h fsel (g .d d) (g .a a)
  | .csetaddr h d a b => .csetaddr h (g .d d) (g .a a) (g .b b)
  | .cincaddr h d a b => .cincaddr h (g .d d) (g .a a) (g .b b)
  | .cnarrow h d a b => .cnarrow h (g .d d) (g .a a) (g .b b)
  | .cnarrowx h d a b => .cnarrowx h (g .d d) (g .a a) (g .b b)
  | .cdrop h d a b => .cdrop h (g .d d) (g .a a) (g .b b)
  | .craiselbl h d a b => .craiselbl h (g .d d) (g .a a) (g .b b)
  | .cseal h d a b => .cseal h (g .d d) (g .a a) (g .b b)
  | .cunseal h d a b => .cunseal h (g .d d) (g .a a) (g .b b)
  | .cgate h d a => .cgate h (g .d d) (g .a a)
  | .cstrip h d a => .cstrip h (g .d d) (g .a a)
  | .cmov h d a => .cmov h (g .d d) (g .a a)
  | .cwithin h d a b => .cwithin h (g .d d) (g .a a) (g .b b)
  | .cfitlen h d a => .cfitlen h (g .d d) (g .a a)
  | .cfitmask h d a => .cfitmask h (g .d d) (g .a a)
  | .cincaddri h d a imm => .cincaddri h (g .d d) (g .a a) imm
  | .crvmark h a b => .crvmark h (g .a a) (g .b b)
  | .csweep h a => .csweep h (g .a a)
  | .ldS8 h d a off => .ldS8 h (g .d d) (g .a a) off
  | .ldZ8 h d a off => .ldZ8 h (g .d d) (g .a a) off
  | .ldS16 h d a off => .ldS16 h (g .d d) (g .a a) off
  | .ldZ16 h d a off => .ldZ16 h (g .d d) (g .a a) off
  | .ldS32 h d a off => .ldS32 h (g .d d) (g .a a) off
  | .ldZ32 h d a off => .ldZ32 h (g .d d) (g .a a) off
  | .ldD h d a off => .ldD h (g .d d) (g .a a) off
  | .stB h d a off => .stB h (g .d d) (g .a a) off
  | .stH h d a off => .stH h (g .d d) (g .a a) off
  | .stW h d a off => .stW h (g .d d) (g .a a) off
  | .stD h d a off => .stD h (g .d d) (g .a a) off
  | .ldc h d a off => .ldc h (g .d d) (g .a a) off
  | .stc h d a off => .stc h (g .d d) (g .a a) off
  | .ldv h d a off => .ldv h (g .d d) (g .a a) off
  | .stv h d a off => .stv h (g .d d) (g .a a) off
  | .lda h d a off typ ord scope => .lda h (g .d d) (g .a a) off typ ord scope
  | .stl h d a off typ ord scope => .stl h (g .d d) (g .a a) off typ ord scope
  | .ldvg h d a b off mk typ => .ldvg h (g .d d) (g .a a) (g .b b) off mk typ
  | .ldvgNf h d a b c off mk typ => .ldvgNf h (g .d d) (g .a a) (g .b b) (g .c c) off mk typ
  | .stvs h d a b off mk typ => .stvs h (g .d d) (g .a a) (g .b b) off mk typ
  | .bsleep h g => .bsleep h g
  | .bwake h g => .bwake h g
  | .amoaddW h d a b off ord scope => .amoaddW h (g .d d) (g .a a) (g .b b) off ord scope
  | .amoandW h d a b off ord scope => .amoandW h (g .d d) (g .a a) (g .b b) off ord scope
  | .amoorW h d a b off ord scope => .amoorW h (g .d d) (g .a a) (g .b b) off ord scope
  | .amoxorW h d a b off ord scope => .amoxorW h (g .d d) (g .a a) (g .b b) off ord scope
  | .amominW h d a b off ord scope => .amominW h (g .d d) (g .a a) (g .b b) off ord scope
  | .amomaxW h d a b off ord scope => .amomaxW h (g .d d) (g .a a) (g .b b) off ord scope
  | .amominzW h d a b off ord scope => .amominzW h (g .d d) (g .a a) (g .b b) off ord scope
  | .amomaxzW h d a b off ord scope => .amomaxzW h (g .d d) (g .a a) (g .b b) off ord scope
  | .amoswapW h d a b off ord scope => .amoswapW h (g .d d) (g .a a) (g .b b) off ord scope
  | .amocasW h d a b off ord scope => .amocasW h (g .d d) (g .a a) (g .b b) off ord scope
  | .amoaddD h d a b off ord scope => .amoaddD h (g .d d) (g .a a) (g .b b) off ord scope
  | .amoandD h d a b off ord scope => .amoandD h (g .d d) (g .a a) (g .b b) off ord scope
  | .amoorD h d a b off ord scope => .amoorD h (g .d d) (g .a a) (g .b b) off ord scope
  | .amoxorD h d a b off ord scope => .amoxorD h (g .d d) (g .a a) (g .b b) off ord scope
  | .amominD h d a b off ord scope => .amominD h (g .d d) (g .a a) (g .b b) off ord scope
  | .amomaxD h d a b off ord scope => .amomaxD h (g .d d) (g .a a) (g .b b) off ord scope
  | .amominzD h d a b off ord scope => .amominzD h (g .d d) (g .a a) (g .b b) off ord scope
  | .amomaxzD h d a b off ord scope => .amomaxzD h (g .d d) (g .a a) (g .b b) off ord scope
  | .amoswapD h d a b off ord scope => .amoswapD h (g .d d) (g .a a) (g .b b) off ord scope
  | .amocasD h d a b off ord scope => .amocasD h (g .d d) (g .a a) (g .b b) off ord scope
  | .amocasc h d a b off ord scope => .amocasc h (g .d d) (g .a a) (g .b b) off ord scope
  | .wfe h d a => .wfe h (g .d d) (g .a a)
  | .sev h a b => .sev h (g .a a) (g .b b)
  | .bara h a => .bara h (g .a a)
  | .barw h a => .barw h (g .a a)
  | .semp h a => .semp h (g .a a)
  | .semv h a => .semv h (g .a a)
  | .fence h ord scope => .fence h ord scope
  | .waitva h a b ord scope => .waitva h (g .a a) (g .b b) ord scope
  | .wakeva h a b ord scope => .wakeva h (g .a a) (g .b b) ord scope
  | .mpost h a b ord scope => .mpost h (g .a a) (g .b b) ord scope
  | .send h a b ord scope => .send h (g .a a) (g .b b) ord scope
  | .recv h d a ord scope => .recv h (g .d d) (g .a a) ord scope
  | .vadd h d a b mk typ => .vadd h (g .d d) (g .a a) (g .b b) mk typ
  | .vsub h d a b mk typ => .vsub h (g .d d) (g .a a) (g .b b) mk typ
  | .vmul h d a b mk typ => .vmul h (g .d d) (g .a a) (g .b b) mk typ
  | .vmad h d a b mk typ => .vmad h (g .d d) (g .a a) (g .b b) mk typ
  | .vmin h d a b mk typ => .vmin h (g .d d) (g .a a) (g .b b) mk typ
  | .vmax h d a b mk typ => .vmax h (g .d d) (g .a a) (g .b b) mk typ
  | .vand h d a b mk typ => .vand h (g .d d) (g .a a) (g .b b) mk typ
  | .vor h d a b mk typ => .vor h (g .d d) (g .a a) (g .b b) mk typ
  | .vxor h d a b mk typ => .vxor h (g .d d) (g .a a) (g .b b) mk typ
  | .vshl h d a b mk typ => .vshl h (g .d d) (g .a a) (g .b b) mk typ
  | .vshr h d a b mk typ => .vshr h (g .d d) (g .a a) (g .b b) mk typ
  | .vsar h d a b mk typ => .vsar h (g .d d) (g .a a) (g .b b) mk typ
  | .vabs h d a mk typ => .vabs h (g .d d) (g .a a) mk typ
  | .vneg h d a mk typ => .vneg h (g .d d) (g .a a) mk typ
  | .vlogt h d a b c table mk typ => .vlogt h (g .d d) (g .a a) (g .b b) (g .c c) table mk typ
  | .vcmp h d a b cc mk typ => .vcmp h (g .d d) (g .a a) (g .b b) cc mk typ
  | .vsel h d a b mk typ => .vsel h (g .d d) (g .a a) (g .b b) mk typ
  | .vbcast h d a mk typ => .vbcast h (g .d d) (g .a a) mk typ
  | .vext h d a b typ => .vext h (g .d d) (g .a a) (g .b b) typ
  | .vins h d a b typ => .vins h (g .d d) (g .a a) (g .b b) typ
  | .vperm h d a b mk typ => .vperm h (g .d d) (g .a a) (g .b b) mk typ
  | .vred h d a op mk typ => .vred h (g .d d) (g .a a) op mk typ
  | .vfadd h d a b mk typ => .vfadd h (g .d d) (g .a a) (g .b b) mk typ
  | .vfsub h d a b mk typ => .vfsub h (g .d d) (g .a a) (g .b b) mk typ
  | .vfmul h d a b mk typ => .vfmul h (g .d d) (g .a a) (g .b b) mk typ
  | .vfma h d a b mk typ => .vfma h (g .d d) (g .a a) (g .b b) mk typ
  | .vfnma h d a b mk typ => .vfnma h (g .d d) (g .a a) (g .b b) mk typ
  | .vfmin h d a b mk typ => .vfmin h (g .d d) (g .a a) (g .b b) mk typ
  | .vfmax h d a b mk typ => .vfmax h (g .d d) (g .a a) (g .b b) mk typ
  | .vfdiv h d a b mk typ => .vfdiv h (g .d d) (g .a a) (g .b b) mk typ
  | .vfsqrt h d a mk typ => .vfsqrt h (g .d d) (g .a a) mk typ
  | .vfrcp h d a mk typ => .vfrcp h (g .d d) (g .a a) mk typ
  | .vfrsq h d a mk typ => .vfrsq h (g .d d) (g .a a) mk typ
  | .vfexp2 h d a mk typ => .vfexp2 h (g .d d) (g .a a) mk typ
  | .vflog2 h d a mk typ => .vflog2 h (g .d d) (g .a a) mk typ
  | .vftanh h d a mk typ => .vftanh h (g .d d) (g .a a) mk typ
  | .vcvt h d a st rm mk typ => .vcvt h (g .d d) (g .a a) st rm mk typ
  | .vquant h d a typ => .vquant h (g .d d) (g .a a) typ
  | .vdeq h d a typ => .vdeq h (g .d d) (g .a a) typ
  | .xmax h d a typ => .xmax h (g .d d) (g .a a) typ
  | .vbaddq h d a b typ => .vbaddq h (g .d d) (g .a a) (g .b b) typ
  | .mload h d a tb mac plane typ => .mload h (g .d d) (g .a a) tb mac plane typ
  | .mswap h d tb mask => .mswap h (g .d d) tb mask
  | .mrun h d a b tb bound1 typ lit => .mrun h (g .d d) (g .a a) (g .b b) tb bound1 typ lit
  | .mdrain h d a b tb scope lit => .mdrain h (g .d d) (g .a a) (g .b b) tb scope lit
  | .mslot h a slot => .mslot h (g .a a) slot
  | .mstat h d fsel => .mstat h (g .d d) fsel
  | .cpy h d a b tb scope lit => .cpy h (g .d d) (g .a a) (g .b b) tb scope lit
  | .cpym h d a b tb mk scope lit => .cpym h (g .d d) (g .a a) (g .b b) tb mk scope lit
  | .conv h d a b tb typ scope lit => .conv h (g .d d) (g .a a) (g .b b) tb typ scope lit
  | .jwait h d a b tb slotm => .jwait h (g .d d) (g .a a) (g .b b) tb slotm
  | .jstat h d a tb slotm => .jstat h (g .d d) (g .a a) tb slotm
  | .jcancel h d a => .jcancel h (g .d d) (g .a a)
  | .gang h lg => .gang h lg
  | .split h => .split h
  | .mpair h => .mpair h
  | .munpair h => .munpair h
  | .mchk h d => .mchk h (g .d d)
  | .qpush h d a b rsv => .qpush h (g .d d) (g .a a) (g .b b) rsv
  | .qpushWait h d a b => .qpushWait h (g .d d) (g .a a) (g .b b)
  | .qpop h d a => .qpop h (g .d d) (g .a a)
  | .qpopg h d a => .qpopg h (g .d d) (g .a a)
  | .qstat h d a => .qstat h (g .d d) (g .a a)
  | .spawn h d b => .spawn h (g .d d) (g .b b)
  | .shape h d dim => .shape h (g .d d) dim
  | .kstat h d fsel => .kstat h (g .d d) fsel
  | .prpush h d a b => .prpush h (g .d d) (g .a a) (g .b b)
  | .prpop h d a => .prpop h (g .d d) (g .a a)
  | .prclass h d a b => .prclass h (g .d d) (g .a a) (g .b b)
  | .ptwr h d a b c item kind => .ptwr h (g .d d) (g .a a) (g .b b) (g .c c) item kind
  | .ptrd h d a b item bank half => .ptrd h (g .d d) (g .a a) (g .b b) item bank half
  | .ptflip h a mask => .ptflip h (g .a a) mask
  | .tlbw h d a b => .tlbw h (g .d d) (g .a a) (g .b b)
  | .tlbi h a b ext => .tlbi h (g .a a) (g .b b) ext
  | .frpop h d src => .frpop h (g .d d) src
  | .cresume h d a kill => .cresume h (g .d d) (g .a a) kill
  | .decl h a b => .decl h (g .a a) (g .b b)
  | .srd h d reg => .srd h (g .d d) reg
  | .swr h a reg => .swr h (g .a a) reg
  | .bkpt h => .bkpt h
  | .halt h => .halt h
  | .illegalEncoding word => .illegalEncoding word
  | .packageReset ep stage hdr => .packageReset ep stage hdr
  | .ifetchLineMiss p line => .ifetchLineMiss p line
  | .trapDelivery p => .trapDelivery p
  | .asyncCauseDelivery p => .asyncCauseDelivery p
  | .ptimerExpiry p => .ptimerExpiry p
  | .extirq p => .extirq p
  | .lateWriteLand p id => .lateWriteLand p id
  | .spillEngineMove p => .spillEngineMove p
  | .fpEventStop p => .fpEventStop p
  | .fpReplyResume p sq => .fpReplyResume p sq
  | .fpReplyConvert p sq cause => .fpReplyConvert p sq cause
  | .portAccess p src => .portAccess p src
  | .storeAck p id => .storeAck p id
  | .accessRetry p => .accessRetry p
  | .groupWakeComplete p g => .groupWakeComplete p g
  | .xmaxContributionArrive p src => .xmaxContributionArrive p src
  | .xmaxTimeout p => .xmaxTimeout p
  | .matrixCardStart t e => .matrixCardStart t e
  | .mloadEnd t e n => .mloadEnd t e n
  | .mrunEnd t e n => .mrunEnd t e n
  | .mdrainEnd t e n => .mdrainEnd t e n
  | .mrunWatchdog t e => .mrunWatchdog t e
  | .matrixSlotBoundary t n => .matrixSlotBoundary t n
  | .noslotTimeout t e => .noslotTimeout t e
  | .cardStart t e => .cardStart t e
  | .cardEnd t e n => .cardEnd t e n
  | .tlbProbeResult t m => .tlbProbeResult t m
  | .faultRecordPost t e => .faultRecordPost t e
  | .inboxMessageEnter p k => .inboxMessageEnter p k
  | .eventSignalArrive p => .eventSignalArrive p
  | .queueSegmentRefill n => .queueSegmentRefill n
  | .queueRingError n => .queueRingError n
  | .queueStateOn n cfg ringLo ringHi => .queueStateOn n cfg ringLo ringHi
  | .queueStateStop n cfg ringLo ringHi => .queueStateStop n cfg ringLo ringHi
  | .queueStateOff n cfg ringLo ringHi => .queueStateOff n cfg ringLo ringHi
  | .queueDoorbell n tail => .queueDoorbell n tail
  | .launchDispatch d => .launchDispatch d
  | .teamPlacement k t => .teamPlacement k t
  | .parSliceExpiry t => .parSliceExpiry t
  | .teamSwapOutComplete t => .teamSwapOutComplete t
  | .teamSwapInComplete t => .teamSwapInComplete t
  | .kernelCompletion k => .kernelCompletion k
  | .kernelAbort k => .kernelAbort k
  | .chainRecordEnter c => .chainRecordEnter c
  | .chainRecordExit c => .chainRecordExit c
  | .chainRecirculate c => .chainRecirculate c
  | .bankFlip c => .bankFlip c
  | .bankDrainComplete c item bank => .bankDrainComplete c item bank
  | .gangFuse p => .gangFuse p
  | .mirrorCopyComplete p => .mirrorCopyComplete p
  | .mirrorIntervalEnd p => .mirrorIntervalEnd p
  | .mirrorCompare p => .mirrorCompare p
  | .sweepCoreCheck p => .sweepCoreCheck p
  | .sweepCheckTimeout p => .sweepCheckTimeout p
  | .sweepComplete part => .sweepComplete part
  | .hbmScrub burst bad => .hbmScrub burst bad
  | .pcDropRepair pc => .pcDropRepair pc
  | .partitionTableWrite part entry => .partitionTableWrite part entry
  | .partitionStart part root => .partitionStart part root
  | .partitionStop part why => .partitionStop part why
  | .partitionStopComplete part => .partitionStopComplete part
  | .partitionResume part => .partitionResume part
  | .partitionRelease part enc key => .partitionRelease part enc key
  | .sharedSlotStart part => .sharedSlotStart part
  | .coreEvict p => .coreEvict p
  | .coreRestore p => .coreRestore p
  | .fwImageStage image ctr sigOk => .fwImageStage image ctr sigOk
  | .fwUpdateAck part => .fwUpdateAck part
  | .fwUpdateWithdraw => .fwUpdateWithdraw
  | .fwActivate => .fwActivate
  | .attestEvidence part nonce => .attestEvidence part nonce
  | .secretUnwrap part layout wrapped => .secretUnwrap part layout wrapped
  | .keyHandleBind part k layout wrapped iv => .keyHandleBind part k layout wrapped iv
  | .apertureWrite part k lo hi => .apertureWrite part k lo hi
  | .portTableWrite port off val => .portTableWrite port off val
  | .portYield port => .portYield port
  | .spareRemap part rank => .spareRemap part rank
  | .coreKill p rsn idx => .coreKill p rsn idx
  | .inboundWrite fn bar off data => .inboundWrite fn bar off data
  | .inboundPieceSend fn id => .inboundPieceSend fn id
  | .inboundPieceAck fn id => .inboundPieceAck fn id
  | .hostRead fn bar off n => .hostRead fn bar off n
  | .hostCoreDoorbell fn rank => .hostCoreDoorbell fn rank
  | .registrationRegister fn => .registrationRegister fn
  | .hostWaitRegister fn addr val line => .hostWaitRegister fn addr val line
  | .registerWrite fn reg x y => .registerWrite fn reg x y
  | .hostWarmRestart fn => .hostWarmRestart fn
  | .blockEntrySend port => .blockEntrySend port
  | .blockPacketReceive port src data label => .blockPacketReceive port src data label
  | .blockLaneDeliver port lane => .blockLaneDeliver port lane
  | .migrationCut part => .migrationCut part
  | .cutMarkReceive port src => .cutMarkReceive port src
  | .migrationRestore part peers => .migrationRestore part peers
  | .kustadLinkStateChange port link => .kustadLinkStateChange port link

/-- Whether RPT may repeat the instruction (R155, R171 and each description). -/
def Instr.repeatable : Instr → Bool
  | .add _ _ _ _ => true
  | .sub _ _ _ _ => true
  | .mul _ _ _ _ => true
  | .mulh _ _ _ _ => true
  | .mulhz _ _ _ _ => true
  | .div _ _ _ _ => true
  | .divz _ _ _ _ => true
  | .rem _ _ _ _ => true
  | .remz _ _ _ _ => true
  | .min _ _ _ _ => true
  | .max _ _ _ _ => true
  | .minz _ _ _ _ => true
  | .maxz _ _ _ _ => true
  | .andW _ _ _ _ => true
  | .orW _ _ _ _ => true
  | .xor _ _ _ _ => true
  | .andn _ _ _ _ => true
  | .orn _ _ _ _ => true
  | .xnor _ _ _ _ => true
  | .logt _ _ _ _ _ _ => true
  | .shl _ _ _ _ => true
  | .shr _ _ _ _ => true
  | .sar _ _ _ _ => true
  | .rot _ _ _ _ => true
  | .fshl _ _ _ _ _ => true
  | .fshr _ _ _ _ _ => true
  | .clz _ _ _ => true
  | .ctz _ _ _ => true
  | .popc _ _ _ => true
  | .brev _ _ _ => true
  | .bswap _ _ _ => true
  | .mov _ _ _ => true
  | .sext _ _ _ _ => true
  | .zext _ _ _ _ => true
  | .seq _ _ _ _ => true
  | .sne _ _ _ _ => true
  | .slt _ _ _ _ => true
  | .sltz _ _ _ _ => true
  | .sel _ _ _ _ => true
  | .bfx _ _ _ _ _ => true
  | .bfxz _ _ _ _ _ => true
  | .bfi _ _ _ _ _ => true
  | .addi _ _ _ _ => true
  | .andi _ _ _ _ => true
  | .ori _ _ _ _ => true
  | .xori _ _ _ _ => true
  | .shli _ _ _ _ => true
  | .shri _ _ _ _ => true
  | .sari _ _ _ _ => true
  | .slti _ _ _ _ => true
  | .li _ _ _ => true
  | .beq _ _ _ _ => false
  | .bne _ _ _ _ => false
  | .blt _ _ _ _ => false
  | .bge _ _ _ _ => false
  | .blo _ _ _ _ => false
  | .bhs _ _ _ _ => false
  | .bz _ _ _ => false
  | .bnz _ _ _ => false
  | .j _ _ => false
  | .rpt _ _ _ _ => false
  | .lns _ _ => false
  | .lget _ _ => true
  | .ldrain _ _ => true
  | .callc _ _ _ => false
  | .ret _ _ => false
  | .park _ _ _ => false
  | .trap _ _ => false
  | .eret _ => false
  | .call _ _ _ => false
  | .lspill _ _ _ _ => true
  | .lfill _ _ _ _ => true
  | .lmove _ _ _ _ => true
  | .cget _ _ _ _ => true
  | .csetaddr _ _ _ _ => true
  | .cincaddr _ _ _ _ => true
  | .cnarrow _ _ _ _ => true
  | .cnarrowx _ _ _ _ => true
  | .cdrop _ _ _ _ => true
  | .craiselbl _ _ _ _ => true
  | .cseal _ _ _ _ => true
  | .cunseal _ _ _ _ => true
  | .cgate _ _ _ => true
  | .cstrip _ _ _ => true
  | .cmov _ _ _ => true
  | .cwithin _ _ _ _ => true
  | .cfitlen _ _ _ => true
  | .cfitmask _ _ _ => true
  | .cincaddri _ _ _ _ => true
  | .crvmark _ _ _ => false
  | .csweep _ _ => false
  | .ldS8 _ _ _ _ => true
  | .ldZ8 _ _ _ _ => true
  | .ldS16 _ _ _ _ => true
  | .ldZ16 _ _ _ _ => true
  | .ldS32 _ _ _ _ => true
  | .ldZ32 _ _ _ _ => true
  | .ldD _ _ _ _ => true
  | .stB _ _ _ _ => true
  | .stH _ _ _ _ => true
  | .stW _ _ _ _ => true
  | .stD _ _ _ _ => true
  | .ldc _ _ _ _ => true
  | .stc _ _ _ _ => true
  | .ldv _ _ _ _ => true
  | .stv _ _ _ _ => true
  | .lda _ _ _ _ _ _ _ => true
  | .stl _ _ _ _ _ _ _ => true
  | .ldvg _ _ _ _ _ _ _ => true
  | .ldvgNf _ _ _ _ _ _ _ _ => true
  | .stvs _ _ _ _ _ _ _ => true
  | .bsleep _ _ => false
  | .bwake _ _ => false
  | .amoaddW _ _ _ _ _ _ _ => true
  | .amoandW _ _ _ _ _ _ _ => true
  | .amoorW _ _ _ _ _ _ _ => true
  | .amoxorW _ _ _ _ _ _ _ => true
  | .amominW _ _ _ _ _ _ _ => true
  | .amomaxW _ _ _ _ _ _ _ => true
  | .amominzW _ _ _ _ _ _ _ => true
  | .amomaxzW _ _ _ _ _ _ _ => true
  | .amoswapW _ _ _ _ _ _ _ => true
  | .amocasW _ _ _ _ _ _ _ => true
  | .amoaddD _ _ _ _ _ _ _ => true
  | .amoandD _ _ _ _ _ _ _ => true
  | .amoorD _ _ _ _ _ _ _ => true
  | .amoxorD _ _ _ _ _ _ _ => true
  | .amominD _ _ _ _ _ _ _ => true
  | .amomaxD _ _ _ _ _ _ _ => true
  | .amominzD _ _ _ _ _ _ _ => true
  | .amomaxzD _ _ _ _ _ _ _ => true
  | .amoswapD _ _ _ _ _ _ _ => true
  | .amocasD _ _ _ _ _ _ _ => true
  | .amocasc _ _ _ _ _ _ _ => true
  | .wfe _ _ _ => false
  | .sev _ _ _ => false
  | .bara _ _ => false
  | .barw _ _ => false
  | .semp _ _ => false
  | .semv _ _ => false
  | .fence _ _ _ => false
  | .waitva _ _ _ _ _ => false
  | .wakeva _ _ _ _ _ => false
  | .mpost _ _ _ _ _ => false
  | .send _ _ _ _ _ => false
  | .recv _ _ _ _ _ => false
  | .vadd _ _ _ _ _ _ => true
  | .vsub _ _ _ _ _ _ => true
  | .vmul _ _ _ _ _ _ => true
  | .vmad _ _ _ _ _ _ => true
  | .vmin _ _ _ _ _ _ => true
  | .vmax _ _ _ _ _ _ => true
  | .vand _ _ _ _ _ _ => true
  | .vor _ _ _ _ _ _ => true
  | .vxor _ _ _ _ _ _ => true
  | .vshl _ _ _ _ _ _ => true
  | .vshr _ _ _ _ _ _ => true
  | .vsar _ _ _ _ _ _ => true
  | .vabs _ _ _ _ _ => true
  | .vneg _ _ _ _ _ => true
  | .vlogt _ _ _ _ _ _ _ _ => true
  | .vcmp _ _ _ _ _ _ _ => true
  | .vsel _ _ _ _ _ _ => true
  | .vbcast _ _ _ _ _ => true
  | .vext _ _ _ _ _ => true
  | .vins _ _ _ _ _ => true
  | .vperm _ _ _ _ _ _ => true
  | .vred _ _ _ _ _ _ => true
  | .vfadd _ _ _ _ _ _ => true
  | .vfsub _ _ _ _ _ _ => true
  | .vfmul _ _ _ _ _ _ => true
  | .vfma _ _ _ _ _ _ => true
  | .vfnma _ _ _ _ _ _ => true
  | .vfmin _ _ _ _ _ _ => true
  | .vfmax _ _ _ _ _ _ => true
  | .vfdiv _ _ _ _ _ _ => true
  | .vfsqrt _ _ _ _ _ => true
  | .vfrcp _ _ _ _ _ => true
  | .vfrsq _ _ _ _ _ => true
  | .vfexp2 _ _ _ _ _ => true
  | .vflog2 _ _ _ _ _ => true
  | .vftanh _ _ _ _ _ => true
  | .vcvt _ _ _ _ _ _ _ => true
  | .vquant _ _ _ _ => true
  | .vdeq _ _ _ _ => true
  | .xmax _ _ _ _ => false
  | .vbaddq _ _ _ _ _ => true
  | .mload _ _ _ _ _ _ _ => false
  | .mswap _ _ _ _ => false
  | .mrun _ _ _ _ _ _ _ _ => false
  | .mdrain _ _ _ _ _ _ _ => false
  | .mslot _ _ _ => false
  | .mstat _ _ _ => false
  | .cpy _ _ _ _ _ _ _ => false
  | .cpym _ _ _ _ _ _ _ _ => false
  | .conv _ _ _ _ _ _ _ _ => false
  | .jwait _ _ _ _ _ _ => false
  | .jstat _ _ _ _ _ => false
  | .jcancel _ _ _ => false
  | .gang _ _ => false
  | .split _ => false
  | .mpair _ => false
  | .munpair _ => false
  | .mchk _ _ => false
  | .qpush _ _ _ _ _ => false
  | .qpushWait _ _ _ _ => false
  | .qpop _ _ _ => false
  | .qpopg _ _ _ => false
  | .qstat _ _ _ => false
  | .spawn _ _ _ => false
  | .shape _ _ _ => false
  | .kstat _ _ _ => false
  | .prpush _ _ _ _ => false
  | .prpop _ _ _ => false
  | .prclass _ _ _ _ => false
  | .ptwr _ _ _ _ _ _ _ => false
  | .ptrd _ _ _ _ _ _ _ => false
  | .ptflip _ _ _ => false
  | .tlbw _ _ _ _ => false
  | .tlbi _ _ _ _ => false
  | .frpop _ _ _ => false
  | .cresume _ _ _ _ => false
  | .decl _ _ _ => false
  | .srd _ _ _ => false
  | .swr _ _ _ => false
  | .bkpt _ => false
  | .halt _ => false
  | .illegalEncoding _ => false
  | .packageReset _ _ _ => false
  | .ifetchLineMiss _ _ => false
  | .trapDelivery _ => false
  | .asyncCauseDelivery _ => false
  | .ptimerExpiry _ => false
  | .extirq _ => false
  | .lateWriteLand _ _ => false
  | .spillEngineMove _ => false
  | .fpEventStop _ => false
  | .fpReplyResume _ _ => false
  | .fpReplyConvert _ _ _ => false
  | .portAccess _ _ => false
  | .storeAck _ _ => false
  | .accessRetry _ => false
  | .groupWakeComplete _ _ => false
  | .xmaxContributionArrive _ _ => false
  | .xmaxTimeout _ => false
  | .matrixCardStart _ _ => false
  | .mloadEnd _ _ _ => false
  | .mrunEnd _ _ _ => false
  | .mdrainEnd _ _ _ => false
  | .mrunWatchdog _ _ => false
  | .matrixSlotBoundary _ _ => false
  | .noslotTimeout _ _ => false
  | .cardStart _ _ => false
  | .cardEnd _ _ _ => false
  | .tlbProbeResult _ _ => false
  | .faultRecordPost _ _ => false
  | .inboxMessageEnter _ _ => false
  | .eventSignalArrive _ => false
  | .queueSegmentRefill _ => false
  | .queueRingError _ => false
  | .queueStateOn _ _ _ _ => false
  | .queueStateStop _ _ _ _ => false
  | .queueStateOff _ _ _ _ => false
  | .queueDoorbell _ _ => false
  | .launchDispatch _ => false
  | .teamPlacement _ _ => false
  | .parSliceExpiry _ => false
  | .teamSwapOutComplete _ => false
  | .teamSwapInComplete _ => false
  | .kernelCompletion _ => false
  | .kernelAbort _ => false
  | .chainRecordEnter _ => false
  | .chainRecordExit _ => false
  | .chainRecirculate _ => false
  | .bankFlip _ => false
  | .bankDrainComplete _ _ _ => false
  | .gangFuse _ => false
  | .mirrorCopyComplete _ => false
  | .mirrorIntervalEnd _ => false
  | .mirrorCompare _ => false
  | .sweepCoreCheck _ => false
  | .sweepCheckTimeout _ => false
  | .sweepComplete _ => false
  | .hbmScrub _ _ => false
  | .pcDropRepair _ => false
  | .partitionTableWrite _ _ => false
  | .partitionStart _ _ => false
  | .partitionStop _ _ => false
  | .partitionStopComplete _ => false
  | .partitionResume _ => false
  | .partitionRelease _ _ _ => false
  | .sharedSlotStart _ => false
  | .coreEvict _ => false
  | .coreRestore _ => false
  | .fwImageStage _ _ _ => false
  | .fwUpdateAck _ => false
  | .fwUpdateWithdraw => false
  | .fwActivate => false
  | .attestEvidence _ _ => false
  | .secretUnwrap _ _ _ => false
  | .keyHandleBind _ _ _ _ _ => false
  | .apertureWrite _ _ _ _ => false
  | .portTableWrite _ _ _ => false
  | .portYield _ => false
  | .spareRemap _ _ => false
  | .coreKill _ _ _ => false
  | .inboundWrite _ _ _ _ => false
  | .inboundPieceSend _ _ => false
  | .inboundPieceAck _ _ => false
  | .hostRead _ _ _ _ => false
  | .hostCoreDoorbell _ _ => false
  | .registrationRegister _ => false
  | .hostWaitRegister _ _ _ _ => false
  | .registerWrite _ _ _ _ => false
  | .hostWarmRestart _ => false
  | .blockEntrySend _ => false
  | .blockPacketReceive _ _ _ _ => false
  | .blockLaneDeliver _ _ => false
  | .migrationCut _ => false
  | .cutMarkReceive _ _ => false
  | .migrationRestore _ _ => false
  | .kustadLinkStateChange _ _ => false

/-- Whether the instruction is one of the S-mode instructions of R52, row 7. -/
def Instr.sMode : Instr → Bool
  | .add _ _ _ _ => false
  | .sub _ _ _ _ => false
  | .mul _ _ _ _ => false
  | .mulh _ _ _ _ => false
  | .mulhz _ _ _ _ => false
  | .div _ _ _ _ => false
  | .divz _ _ _ _ => false
  | .rem _ _ _ _ => false
  | .remz _ _ _ _ => false
  | .min _ _ _ _ => false
  | .max _ _ _ _ => false
  | .minz _ _ _ _ => false
  | .maxz _ _ _ _ => false
  | .andW _ _ _ _ => false
  | .orW _ _ _ _ => false
  | .xor _ _ _ _ => false
  | .andn _ _ _ _ => false
  | .orn _ _ _ _ => false
  | .xnor _ _ _ _ => false
  | .logt _ _ _ _ _ _ => false
  | .shl _ _ _ _ => false
  | .shr _ _ _ _ => false
  | .sar _ _ _ _ => false
  | .rot _ _ _ _ => false
  | .fshl _ _ _ _ _ => false
  | .fshr _ _ _ _ _ => false
  | .clz _ _ _ => false
  | .ctz _ _ _ => false
  | .popc _ _ _ => false
  | .brev _ _ _ => false
  | .bswap _ _ _ => false
  | .mov _ _ _ => false
  | .sext _ _ _ _ => false
  | .zext _ _ _ _ => false
  | .seq _ _ _ _ => false
  | .sne _ _ _ _ => false
  | .slt _ _ _ _ => false
  | .sltz _ _ _ _ => false
  | .sel _ _ _ _ => false
  | .bfx _ _ _ _ _ => false
  | .bfxz _ _ _ _ _ => false
  | .bfi _ _ _ _ _ => false
  | .addi _ _ _ _ => false
  | .andi _ _ _ _ => false
  | .ori _ _ _ _ => false
  | .xori _ _ _ _ => false
  | .shli _ _ _ _ => false
  | .shri _ _ _ _ => false
  | .sari _ _ _ _ => false
  | .slti _ _ _ _ => false
  | .li _ _ _ => false
  | .beq _ _ _ _ => false
  | .bne _ _ _ _ => false
  | .blt _ _ _ _ => false
  | .bge _ _ _ _ => false
  | .blo _ _ _ _ => false
  | .bhs _ _ _ _ => false
  | .bz _ _ _ => false
  | .bnz _ _ _ => false
  | .j _ _ => false
  | .rpt _ _ _ _ => false
  | .lns _ _ => false
  | .lget _ _ => false
  | .ldrain _ _ => false
  | .callc _ _ _ => false
  | .ret _ _ => false
  | .park _ _ _ => false
  | .trap _ _ => false
  | .eret _ => true
  | .call _ _ _ => false
  | .lspill _ _ _ _ => false
  | .lfill _ _ _ _ => false
  | .lmove _ _ _ _ => false
  | .cget _ _ _ _ => false
  | .csetaddr _ _ _ _ => false
  | .cincaddr _ _ _ _ => false
  | .cnarrow _ _ _ _ => false
  | .cnarrowx _ _ _ _ => false
  | .cdrop _ _ _ _ => false
  | .craiselbl _ _ _ _ => false
  | .cseal _ _ _ _ => false
  | .cunseal _ _ _ _ => false
  | .cgate _ _ _ => false
  | .cstrip _ _ _ => false
  | .cmov _ _ _ => false
  | .cwithin _ _ _ _ => false
  | .cfitlen _ _ _ => false
  | .cfitmask _ _ _ => false
  | .cincaddri _ _ _ _ => false
  | .crvmark _ _ _ => true
  | .csweep _ _ => true
  | .ldS8 _ _ _ _ => false
  | .ldZ8 _ _ _ _ => false
  | .ldS16 _ _ _ _ => false
  | .ldZ16 _ _ _ _ => false
  | .ldS32 _ _ _ _ => false
  | .ldZ32 _ _ _ _ => false
  | .ldD _ _ _ _ => false
  | .stB _ _ _ _ => false
  | .stH _ _ _ _ => false
  | .stW _ _ _ _ => false
  | .stD _ _ _ _ => false
  | .ldc _ _ _ _ => false
  | .stc _ _ _ _ => false
  | .ldv _ _ _ _ => false
  | .stv _ _ _ _ => false
  | .lda _ _ _ _ _ _ _ => false
  | .stl _ _ _ _ _ _ _ => false
  | .ldvg _ _ _ _ _ _ _ => false
  | .ldvgNf _ _ _ _ _ _ _ _ => false
  | .stvs _ _ _ _ _ _ _ => false
  | .bsleep _ _ => false
  | .bwake _ _ => false
  | .amoaddW _ _ _ _ _ _ _ => false
  | .amoandW _ _ _ _ _ _ _ => false
  | .amoorW _ _ _ _ _ _ _ => false
  | .amoxorW _ _ _ _ _ _ _ => false
  | .amominW _ _ _ _ _ _ _ => false
  | .amomaxW _ _ _ _ _ _ _ => false
  | .amominzW _ _ _ _ _ _ _ => false
  | .amomaxzW _ _ _ _ _ _ _ => false
  | .amoswapW _ _ _ _ _ _ _ => false
  | .amocasW _ _ _ _ _ _ _ => false
  | .amoaddD _ _ _ _ _ _ _ => false
  | .amoandD _ _ _ _ _ _ _ => false
  | .amoorD _ _ _ _ _ _ _ => false
  | .amoxorD _ _ _ _ _ _ _ => false
  | .amominD _ _ _ _ _ _ _ => false
  | .amomaxD _ _ _ _ _ _ _ => false
  | .amominzD _ _ _ _ _ _ _ => false
  | .amomaxzD _ _ _ _ _ _ _ => false
  | .amoswapD _ _ _ _ _ _ _ => false
  | .amocasD _ _ _ _ _ _ _ => false
  | .amocasc _ _ _ _ _ _ _ => false
  | .wfe _ _ _ => false
  | .sev _ _ _ => false
  | .bara _ _ => false
  | .barw _ _ => false
  | .semp _ _ => false
  | .semv _ _ => false
  | .fence _ _ _ => false
  | .waitva _ _ _ _ _ => false
  | .wakeva _ _ _ _ _ => false
  | .mpost _ _ _ _ _ => false
  | .send _ _ _ _ _ => false
  | .recv _ _ _ _ _ => false
  | .vadd _ _ _ _ _ _ => false
  | .vsub _ _ _ _ _ _ => false
  | .vmul _ _ _ _ _ _ => false
  | .vmad _ _ _ _ _ _ => false
  | .vmin _ _ _ _ _ _ => false
  | .vmax _ _ _ _ _ _ => false
  | .vand _ _ _ _ _ _ => false
  | .vor _ _ _ _ _ _ => false
  | .vxor _ _ _ _ _ _ => false
  | .vshl _ _ _ _ _ _ => false
  | .vshr _ _ _ _ _ _ => false
  | .vsar _ _ _ _ _ _ => false
  | .vabs _ _ _ _ _ => false
  | .vneg _ _ _ _ _ => false
  | .vlogt _ _ _ _ _ _ _ _ => false
  | .vcmp _ _ _ _ _ _ _ => false
  | .vsel _ _ _ _ _ _ => false
  | .vbcast _ _ _ _ _ => false
  | .vext _ _ _ _ _ => false
  | .vins _ _ _ _ _ => false
  | .vperm _ _ _ _ _ _ => false
  | .vred _ _ _ _ _ _ => false
  | .vfadd _ _ _ _ _ _ => false
  | .vfsub _ _ _ _ _ _ => false
  | .vfmul _ _ _ _ _ _ => false
  | .vfma _ _ _ _ _ _ => false
  | .vfnma _ _ _ _ _ _ => false
  | .vfmin _ _ _ _ _ _ => false
  | .vfmax _ _ _ _ _ _ => false
  | .vfdiv _ _ _ _ _ _ => false
  | .vfsqrt _ _ _ _ _ => false
  | .vfrcp _ _ _ _ _ => false
  | .vfrsq _ _ _ _ _ => false
  | .vfexp2 _ _ _ _ _ => false
  | .vflog2 _ _ _ _ _ => false
  | .vftanh _ _ _ _ _ => false
  | .vcvt _ _ _ _ _ _ _ => false
  | .vquant _ _ _ _ => false
  | .vdeq _ _ _ _ => false
  | .xmax _ _ _ _ => false
  | .vbaddq _ _ _ _ _ => false
  | .mload _ _ _ _ _ _ _ => false
  | .mswap _ _ _ _ => false
  | .mrun _ _ _ _ _ _ _ _ => false
  | .mdrain _ _ _ _ _ _ _ => false
  | .mslot _ _ _ => true
  | .mstat _ _ _ => false
  | .cpy _ _ _ _ _ _ _ => false
  | .cpym _ _ _ _ _ _ _ _ => false
  | .conv _ _ _ _ _ _ _ _ => false
  | .jwait _ _ _ _ _ _ => false
  | .jstat _ _ _ _ _ => false
  | .jcancel _ _ _ => false
  | .gang _ _ => false
  | .split _ => false
  | .mpair _ => false
  | .munpair _ => false
  | .mchk _ _ => false
  | .qpush _ _ _ _ _ => false
  | .qpushWait _ _ _ _ => false
  | .qpop _ _ _ => false
  | .qpopg _ _ _ => false
  | .qstat _ _ _ => false
  | .spawn _ _ _ => false
  | .shape _ _ _ => false
  | .kstat _ _ _ => false
  | .prpush _ _ _ _ => false
  | .prpop _ _ _ => false
  | .prclass _ _ _ _ => false
  | .ptwr _ _ _ _ _ _ _ => false
  | .ptrd _ _ _ _ _ _ _ => false
  | .ptflip _ _ _ => false
  | .tlbw _ _ _ _ => true
  | .tlbi _ _ _ _ => true
  | .frpop _ _ _ => true
  | .cresume _ _ _ _ => true
  | .decl _ _ _ => false
  | .srd _ _ _ => false
  | .swr _ _ _ => false
  | .bkpt _ => false
  | .halt _ => false
  | .illegalEncoding _ => false
  | .packageReset _ _ _ => false
  | .ifetchLineMiss _ _ => false
  | .trapDelivery _ => false
  | .asyncCauseDelivery _ => false
  | .ptimerExpiry _ => false
  | .extirq _ => false
  | .lateWriteLand _ _ => false
  | .spillEngineMove _ => false
  | .fpEventStop _ => false
  | .fpReplyResume _ _ => false
  | .fpReplyConvert _ _ _ => false
  | .portAccess _ _ => false
  | .storeAck _ _ => false
  | .accessRetry _ => false
  | .groupWakeComplete _ _ => false
  | .xmaxContributionArrive _ _ => false
  | .xmaxTimeout _ => false
  | .matrixCardStart _ _ => false
  | .mloadEnd _ _ _ => false
  | .mrunEnd _ _ _ => false
  | .mdrainEnd _ _ _ => false
  | .mrunWatchdog _ _ => false
  | .matrixSlotBoundary _ _ => false
  | .noslotTimeout _ _ => false
  | .cardStart _ _ => false
  | .cardEnd _ _ _ => false
  | .tlbProbeResult _ _ => false
  | .faultRecordPost _ _ => false
  | .inboxMessageEnter _ _ => false
  | .eventSignalArrive _ => false
  | .queueSegmentRefill _ => false
  | .queueRingError _ => false
  | .queueStateOn _ _ _ _ => false
  | .queueStateStop _ _ _ _ => false
  | .queueStateOff _ _ _ _ => false
  | .queueDoorbell _ _ => false
  | .launchDispatch _ => false
  | .teamPlacement _ _ => false
  | .parSliceExpiry _ => false
  | .teamSwapOutComplete _ => false
  | .teamSwapInComplete _ => false
  | .kernelCompletion _ => false
  | .kernelAbort _ => false
  | .chainRecordEnter _ => false
  | .chainRecordExit _ => false
  | .chainRecirculate _ => false
  | .bankFlip _ => false
  | .bankDrainComplete _ _ _ => false
  | .gangFuse _ => false
  | .mirrorCopyComplete _ => false
  | .mirrorIntervalEnd _ => false
  | .mirrorCompare _ => false
  | .sweepCoreCheck _ => false
  | .sweepCheckTimeout _ => false
  | .sweepComplete _ => false
  | .hbmScrub _ _ => false
  | .pcDropRepair _ => false
  | .partitionTableWrite _ _ => false
  | .partitionStart _ _ => false
  | .partitionStop _ _ => false
  | .partitionStopComplete _ => false
  | .partitionResume _ => false
  | .partitionRelease _ _ _ => false
  | .sharedSlotStart _ => false
  | .coreEvict _ => false
  | .coreRestore _ => false
  | .fwImageStage _ _ _ => false
  | .fwUpdateAck _ => false
  | .fwUpdateWithdraw => false
  | .fwActivate => false
  | .attestEvidence _ _ => false
  | .secretUnwrap _ _ _ => false
  | .keyHandleBind _ _ _ _ _ => false
  | .apertureWrite _ _ _ _ => false
  | .portTableWrite _ _ _ => false
  | .portYield _ => false
  | .spareRemap _ _ => false
  | .coreKill _ _ _ => false
  | .inboundWrite _ _ _ _ => false
  | .inboundPieceSend _ _ => false
  | .inboundPieceAck _ _ => false
  | .hostRead _ _ _ _ => false
  | .hostCoreDoorbell _ _ => false
  | .registrationRegister _ => false
  | .hostWaitRegister _ _ _ _ => false
  | .registerWrite _ _ _ _ => false
  | .hostWarmRestart _ => false
  | .blockEntrySend _ => false
  | .blockPacketReceive _ _ _ _ => false
  | .blockLaneDeliver _ _ => false
  | .migrationCut _ => false
  | .cutMarkReceive _ _ => false
  | .migrationRestore _ _ => false
  | .kustadLinkStateChange _ _ => false

end Sys2Proof
end

