-- ==== Sys2Proof/Machine/Caps.lean ====
section
/-! DEFINITION. The capability value, its bounds and what may be derived from it (R85 to R91, R107 to R117). -/

namespace Sys2Proof.Machine

open Sys2Proof

/-- A capability: the fields of R85 in order from bit 127 down, and the tag held outside the 128 bits. -/
structure Cap where
  otype : BitVec 4
  label : Label
  perm : BitVec 14
  rsv : BitVec 1
  e : BitVec 6
  t : BitVec 18
  b : BitVec 18
  addr : Word
  tag : Bool
  deriving DecidableEq, Repr

/-- The null capability (R85). -/
def Cap.null : Cap := ⟨0, 0, 0, 0, 0, 0, 0, 0, false⟩

/-- Bits 127:64 of a capability, the odd entry of its pair (R86). -/
def Cap.hi (c : Cap) : Word := c.otype ++ c.label ++ c.perm ++ c.rsv ++ c.e ++ c.t ++ c.b

/-- The capability of a pair of words and a tag (R86). -/
def Cap.ofWords (lo hi : Word) (tag : Bool) : Cap where
  otype := hi.extractLsb' 60 4
  label := hi.extractLsb' 57 3
  perm := hi.extractLsb' 43 14
  rsv := hi.extractLsb' 42 1
  e := hi.extractLsb' 36 6
  t := hi.extractLsb' 18 18
  b := hi.extractLsb' 0 18
  addr := lo
  tag := tag

/-- The permissions of R87, by their bit of the 14-bit permission value. -/
inductive Perm where
  | load | store | exec | mailbox | barrier | table | declass | caprd | capwr | roam | tether | sealer | opener | sweeper
  deriving DecidableEq, Repr

def Perm.bit : Perm → Nat
  | .load => 0 | .store => 1 | .exec => 2 | .mailbox => 3 | .barrier => 4 | .table => 5 | .declass => 6 | .caprd => 7
  | .capwr => 8 | .roam => 9 | .tether => 10 | .sealer => 11 | .opener => 12 | .sweeper => 13

def Cap.can (c : Cap) (p : Perm) : Bool := c.perm.getLsbD p.bit

/-- The capability without one permission. -/
def Cap.drop (c : Cap) (p : Perm) : Cap := { c with perm := c.perm &&& ~~~(1#14 <<< p.bit) }

/-- The least granule index of the representable region, modulo 2^18 (`rl` of R90). -/
def Cap.rl (c : Cap) : Nat := (c.b.toNat + 2 ^ 18 - 2 ^ 16) % 2 ^ 18

/-- The correction of R90 for a mantissa value. -/
def Cap.below (c : Cap) (m : Nat) : Int := if m < c.rl then 1 else 0

def Cap.granule (c : Cap) : Nat := 2 ^ c.e.toNat
def Cap.amid (c : Cap) : Nat := c.addr.toNat / c.granule % 2 ^ 18
def Cap.ahi (c : Cap) : Nat := c.addr.toNat / (c.granule * 2 ^ 18)

/-- A bound with mantissa `m` (R90). -/
def Cap.bound (c : Cap) (m : Nat) : Int :=
  ((c.ahi : Int) + (c.below m - c.below c.amid)) * ((c.granule : Int) * 2 ^ 18) + (m : Int) * c.granule

/-- Base(c) and Top(c) (R90). -/
def Cap.base (c : Cap) : Int := c.bound c.b.toNat
def Cap.top (c : Cap) : Int := c.bound c.t.toNat

/-- The least address of the representable region (RB of R91). -/
def Cap.regionBase (c : Cap) : Int :=
  ((c.ahi : Int) - c.below c.amid) * ((c.granule : Int) * 2 ^ 18) + (c.rl : Int) * c.granule

/-- Whether an address lies in the representable region of R91. -/
def Cap.inRegion (c : Cap) (n : Int) : Bool :=
  decide (c.regionBase ≤ n ∧ n < c.regionBase + (c.granule : Int) * 2 ^ 18)

/-- Whether [x, x + n) lies inside the bounds. -/
def Cap.covers (c : Cap) (x : Int) (n : Nat) : Bool := decide (c.base ≤ x ∧ x + n ≤ c.top)

/-- The conditions that every tagged capability satisfies (R89). -/
def Cap.sound (c : Cap) : Bool :=
  decide (c.rsv = 0) && decide (c.e.toNat ≤ 47) && decide (c.otype ≠ 15) &&
  decide ((c.t - c.b).toNat ≤ 0x2FFFF) && decide (0 ≤ c.base ∧ c.base ≤ c.top ∧ c.top ≤ 2 ^ 64)

/-- The address moved to an exact value; outside the representable region the tag is lost (R108). -/
def Cap.moveTo (c : Cap) (n : Int) : Cap :=
  { c with
    addr := BitVec.ofInt 64 n
    tag := c.tag && decide (0 ≤ n ∧ n < 2 ^ 64) && c.inRegion n }

/-- The address replaced with no check of representability (R98: the PC; R78: a window base). -/
def Cap.withAddr (c : Cap) (a : Word) : Cap := { c with addr := a }

/-- ceil(x / 2^e). -/
def ceilDiv2 (x e : Nat) : Nat := (x + (2 ^ e - 1)) / 2 ^ e

/-- The least exponent, from `e` up, whose granules cover [lo, hi) in at most 0x2_FFFF (R109, R117); `fuel` bounds
the search. -/
def fitExp (lo hi : Nat) (e : Nat) : Nat → Nat
  | 0 => e
  | fuel + 1 => if ceilDiv2 hi e - lo / 2 ^ e ≤ 0x2FFFF then e else fitExp lo hi (e + 1) fuel

/-- The exponent for bounds [lo, hi), in 0 to 47. -/
def boundsExp (lo hi : Nat) : Nat := fitExp lo hi 0 47

/-- Rounded-outward bounds [lo, hi) laid into a capability, with its address at the base (R109). -/
def Cap.withBounds (c : Cap) (lo hi : Nat) : Cap :=
  let e := boundsExp lo hi
  { c with
    e := BitVec.ofNat 6 e
    b := BitVec.ofNat 18 (lo / 2 ^ e)
    t := BitVec.ofNat 18 (ceilDiv2 hi e)
    addr := BitVec.ofNat 64 lo }

/-- A tagged, unsealed capability with the given bounds, permissions and label, its address at the base. -/
def Cap.make (lo hi : Nat) (perm : BitVec 14) (label : Label) : Cap :=
  Cap.withBounds { Cap.null with perm := perm, label := label, tag := true } lo hi

/-- The memory root of R100: Base 0, Top 2^64, E 47, every permission but SEALER and OPENER, LABEL 7; its ADDR 0 is the model's
(notes/assumptions/99.md). -/
def Cap.memoryRoot : Cap := ⟨0, 7, 0x27FF, 0, 47, 0x20000, 0, 0, true⟩

/-- The sealing root of R100: bounds [0, 16), SEALER, OPENER and ROAM; its LABEL 0 and ADDR 0 are the model's
(notes/assumptions/99.md). -/
def Cap.sealingRoot : Cap := Cap.make 0 16 0x1A00 0

/-- A lens capability over [lo, top) with window base `lb` (R59): otype 2, LOAD and STORE. -/
def Cap.lens (lo top lb : Nat) : Cap :=
  { Cap.make lo top 3 0 with otype := 2, addr := BitVec.ofNat 64 lb }

/-- Whether a capability's bounds and address make a valid lens (R59). -/
def Cap.lensOk (c : Cap) : Bool :=
  decide (c.top ≤ 4096 ∧ 1 ≤ c.top - c.base ∧ c.top - c.base ≤ 4080 ∧
    c.base + 1 ≤ (c.addr.toNat : Int) ∧ (c.addr.toNat : Int) ≤ c.top)

/-- CWITHIN's test (R116). -/
def Cap.within (outer inner : Cap) : Bool :=
  outer.tag && inner.tag && decide (outer.otype = 0) && decide (inner.otype = 0) &&
  decide (outer.base ≤ inner.base ∧ inner.top ≤ outer.top) &&
  decide (inner.perm &&& ~~~outer.perm = 0) && decide (inner.label ≤ outer.label)

end Sys2Proof.Machine
end

