-- ==== Sys2Proof/Machine/Maps.lean ====
section
/-! DEFINITION. Sparse data by key: a sorted list of key and value pairs in which no entry holds what an unlisted key
holds, so that equal contents are equal lists. -/

namespace Sys2Proof.Machine

/-- Values by key, in rising order of keys. -/
abbrev SMap (β : Type) := List (Nat × β)

/-- The listed value of a key. -/
def SMap.listed {β : Type} (m : SMap β) (k : Nat) : Option β :=
  match m with
  | [] => none
  | (j, v) :: rest => if j = k then some v else SMap.listed rest k

/-- The value of a key; `d` says what an unlisted key holds. -/
def SMap.look {β : Type} (d : Nat → β) (m : SMap β) (k : Nat) : β := (m.listed k).getD (d k)

/-- The map without a key. -/
def SMap.drop {β : Type} (m : SMap β) (k : Nat) : SMap β :=
  match m with
  | [] => []
  | (j, v) :: rest => if j = k then SMap.drop rest k else (j, v) :: SMap.drop rest k

/-- The map with a key listed, at its place in the order. -/
def SMap.list {β : Type} (m : SMap β) (k : Nat) (v : β) : SMap β :=
  match m with
  | [] => [(k, v)]
  | (j, w) :: rest =>
    if k < j then (k, v) :: (j, w) :: rest
    else if k = j then (k, v) :: rest
    else (j, w) :: SMap.list rest k v

/-- The map with a key's value replaced; the value an unlisted key holds is not listed. -/
def SMap.put {β : Type} [DecidableEq β] (d : Nat → β) (m : SMap β) (k : Nat) (v : β) : SMap β :=
  if v = d k then m.drop k else m.list k v

/-- The canonical form: keys strictly rising, every key at least `lo`, and no entry equal to what an unlisted key
holds. -/
def SMap.wfFrom {β : Type} [DecidableEq β] (d : Nat → β) (lo : Nat) : SMap β → Bool
  | [] => true
  | (j, v) :: rest => decide (lo ≤ j) && decide (v ≠ d j) && SMap.wfFrom d (j + 1) rest

def SMap.wf {β : Type} [DecidableEq β] (d : Nat → β) (m : SMap β) : Bool := SMap.wfFrom d 0 m

/-- Put consecutive keys, from `k` up. -/
def SMap.putList {β : Type} [DecidableEq β] (d : Nat → β) (m : SMap β) (k : Nat) : List β → SMap β
  | [] => m
  | v :: vs => SMap.putList d (m.put d k v) (k + 1) vs

/-- The values of `n` consecutive keys, from `k` up. -/
def SMap.lookList {β : Type} (d : Nat → β) (m : SMap β) (k n : Nat) : List β :=
  match n with
  | 0 => []
  | n + 1 => m.look d k :: SMap.lookList d m (k + 1) n

/-- The map without the keys of [lo, hi). -/
def SMap.clearRange {β : Type} (m : SMap β) (lo hi : Nat) : SMap β :=
  m.filter (fun p => !(decide (lo ≤ p.1) && decide (p.1 < hi)))

/-- The entries whose keys lie in [lo, hi). -/
def SMap.range {β : Type} (m : SMap β) (lo hi : Nat) : SMap β :=
  m.filter (fun p => decide (lo ≤ p.1) && decide (p.1 < hi))

end Sys2Proof.Machine
end

