-- ==== Sys2Proof/Machine/CoreState.lean ====
section
/-! DEFINITION. What one core holds, as plain data (R54 to R72, R197, R282, R287, R301, R309, R313, R467 to R477). -/

namespace Sys2Proof.Machine

open Sys2Proof

/-- A value with its data label (R58, R62). -/
structure LVal where
  v : Word
  l : Label
  deriving DecidableEq, Repr

/-- The modes of sy.mode (R469). -/
inductive Mode where
  | u | s | f
  deriving DecidableEq, Repr

/-- Core states (R467). -/
inductive CState where
  | reset | boot | idle | running | service | evicted | killed
  deriving DecidableEq, Repr

/-- Roles that the boot mask sets cores aside for (R468). -/
inductive CRole where
  | none | root | loupe | osServer | spare
  deriving DecidableEq, Repr

/-- Bank group states (R210). -/
inductive GroupSt where
  | awake | sleeping | waking
  deriving DecidableEq, Repr

/-- The place a late write lands in, fixed at issue (R48, R63): an entry, a pair, one half of a capability whose other
half a later instruction wrote (R94), the status word of a lens, an operand-file entry, or q. -/
inductive Tgt where
  | entry (e : Nat)
  | pair (e : Nat)
  | half (e : Nat) (upper : Bool)
  | stAt (e : Nat)
  | o (i : Nat)
  | q
  deriving DecidableEq, Repr

/-- One place of a late write with the value it will land: a pair takes both words and a tag, every other place takes
`lo`. -/
structure TWrite where
  tgt : Tgt
  lo : Word
  hi : Word
  tag : Bool
  lab : Label
  deriving DecidableEq, Repr

/-- A pending write (R48): the places it lands in together, the flags it raises with their label and the entry of the
status word they go to, first word and address of its instruction, how many port accesses and buffered card writes it still
waits for, whether later accesses wait for it (R220), whether it is an acquire at clus scope or wider (R483), whether its places
land together (R219), and whether it is an XMAX. -/
structure Pending where
  id : Nat
  writes : List TWrite
  flags : BitVec 5
  flagsLo : Nat
  flagsLab : Label
  word : Nat
  pcAt : Word
  left : Nat
  acq : Bool
  wide : Bool
  joint : Bool
  xmax : Bool
  deriving DecidableEq, Repr

/-- The atomic operations of R222. -/
inductive AmoOp where
  | add | and | or | xor | min | max | minz | maxz | swap | cas
  deriving DecidableEq, Repr

/-- What an access does when its port performs it (R206, R215 to R223).  A load gives `n` bytes to byte
`pos` of the `slot`-th place of the pending write its access names, a value of `total` bytes; a store that is logged in
the trace ring says the size that the log shows.  A ticket keeps the place in the port's order of `n` bytes that a card or the
spill engine will read or write. -/
inductive AccOp where
  | load (slot pos n total : Nat) (signed : Bool)
  | store (data : List Byte) (lab : Label) (log : Option Nat)
  | loadCap (keep : Bool)
  | storeCap (c : Cap) (lab : Label)
  | amo (op : AmoOp) (n : Nat) (y : Word) (expect : Word) (lab : Label)
  | amoCap (expect : Cap) (new : Cap) (lab : Label) (keep : Bool)
  | ticket (n : Nat)
  deriving DecidableEq, Repr

/-- An access on its way to a port or waiting there (R206, R211): the core that made it, the number its pending write
or acknowledgement has there, the offset, the address as the core named it, and whether it has arrived and waits. -/
structure Access where
  src : Nat
  id : Nat
  off : Nat
  addr : Word
  op : AccOp
  arrived : Bool
  deriving DecidableEq, Repr

/-- The kinds of a spill-engine move (R83). -/
inductive MoveKind where
  | spill | fill | move
  deriving DecidableEq, Repr

/-- A request in the spill engine (R66): the range or image it reads and the one it writes, by first register-store
entry and by address; `lab` is the destination capability's LABEL, `keep` its source's CAPRD, `lo` the first entry of the
lens it was issued under. -/
structure SpillReq where
  kind : MoveKind
  src : Nat
  dst : Nat
  addr : Word
  n : Nat
  lab : Label
  keep : Bool
  id : Nat
  lo : Nat
  deriving DecidableEq, Repr

/-- A trap waiting to be delivered (R50): its cause, its value and the address that sy.epcc will hold. -/
structure TrapDue where
  cause : BitVec 8
  tval : Word
  epc : Word
  deriving DecidableEq, Repr

/-- A repetition in progress (R170): how many repetitions RPT asks for, the next one, the fields it steps and by how
much.  The PC stays at the RPT word. -/
structure Rep where
  n : Nat
  i : Nat
  steps : Nat
  stride : Nat
  deriving DecidableEq, Repr

/-- sy.gang (R282). -/
structure GangReg where
  cause : BitVec 4
  leader : BitVec 4
  lsize : BitVec 3
  fused : Bool
  members : BitVec 16
  deriving DecidableEq, Repr

/-- Pair states (R287). -/
inductive PState where
  | unpaired | joining | copying | running | comparing | rollback
  deriving DecidableEq, Repr

/-- sy.pair (R287). -/
structure PairReg where
  rbcount : BitVec 16
  intv : BitVec 16
  pstate : PState
  partner : BitVec 4
  report : Bool
  n : Nat
  deriving DecidableEq, Repr

/-- The kinds of an inbox message (R313). -/
inductive MsgKind where
  | msg | fpevent | error | punt
  deriving DecidableEq, Repr

/-- An inbox entry (R313): four words, its label, its kind, and the rank its sender is known by. -/
structure InMsg where
  kind : MsgKind
  words : List Word
  lab : Label
  src : Nat
  deriving DecidableEq, Repr

/-- A message on its way to an inbox (R313): its destination, the sending core and access when a core sent it, and the
partition it is sent for, 0 for none. -/
structure Flight where
  dst : Nat
  msg : InMsg
  sender : Option (Nat × Nat)
  part : Nat
  deriving DecidableEq, Repr

/-- An arrival record (R309). -/
structure Arrival where
  obj : Nat
  phase : Nat
  deriving DecidableEq, Repr

/-- A contribution held in the exchange buffer (R197): the neighbour, its count, its vector and label. -/
structure XContrib where
  src : Nat
  count : Nat
  words : List Word
  lab : Label
  deriving DecidableEq, Repr

/-- An XMAX that has issued and not landed (R197): its count, its type, its own contribution and the pending write it
lands as, and the cores whose contributions it takes. -/
structure XWait where
  id : Nat
  count : Nat
  need : List Nat
  f32 : Bool
  dst : Nat
  words : List Word
  lab : Label
  deriving DecidableEq, Repr

/-- A store, atomic or message that is not acknowledged, with the parts of it that are not performed and the lens it was
issued under (R47), whether later accesses wait for it (R220), whether it is a message or a signal (R257), and for the
stores of a spill the request that makes them (R68, R77). -/
structure Unacked where
  id : Nat
  left : Nat
  bar : Bool
  lo : Nat
  top : Nat
  msg : Bool
  spill : Option SpillReq
  deriving DecidableEq, Repr

/-- An item of the fingerprint stream (R290): bytes, or the place a late write will fill. -/
inductive StreamItem where
  | bytes (bs : List Byte)
  | late (id : Nat)
  deriving DecidableEq, Repr

/-- The first enabled event that a core has to report (R143, R144): flags raised, word and address of the instruction,
label. -/
structure FpEvent where
  raised : BitVec 5
  word : Nat
  pcAt : Word
  lab : Label
  deriving DecidableEq, Repr

/-- An effect that a mirror pair holds until its interval agrees (R106, R214, R247, R271, R291, R322): an access with the owner
of its port, the lens that it was issued under (R47) and whether later accesses wait for it (R220), a SEV, a message, a sweep over a bitmap, bits of a bitmap's byte, an arrival at a barrier, a unit for a semaphore,
a message for the mailbox at a physical address, a wake of a key (a store's place, or a virtual address), a card or a JCANCEL
with its operands' values, an event message, the image that a spill writes outside the core, granule by granule with the labels; `fence` stands before an effect that waits until everything sent before it is
acknowledged (R220, R310). -/
inductive Held where
  | access (owner lo top : Nat) (bar : Bool) (a : Access)
  | sev (dst : Nat) (bits : BitVec 16)
  | send (f : Flight)
  | sweep (owner off : Nat)
  | mark (owner off : Nat) (bits : Nat)
  | arrive (obj parties : Nat)
  | give (obj : Nat)
  | post (block : Nat) (words : List Word) (lab : Label)
  | wake (store : Option Nat) (off part n : Nat)
  | card (i : Instr)
  | image (owner off : Nat) (addr : Word) (ks : List (Cap × Label))
  | fence
  deriving DecidableEq, Repr

/-- One of a core's own local-store writes, as it must be undone (R292): offset, old bytes, old line labels by line,
old granule tags by granule. -/
structure UndoWrite where
  off : Nat
  bytes : List Byte
  labels : List (Nat × Label)
  tags : List (Nat × Bool)
  deriving DecidableEq, Repr

/-- The registers that a rollback restores (R292): the agreed point. -/
structure Agreed where
  regs : SMap LVal
  tags : SMap Bool
  lens : Cap
  opf : SMap LVal
  q : LVal
  pcc : Cap
  pc : Word
  rptValid : Bool
  rptRemain : Nat
  resume : Option Nat
  rep : Option Rep
  xc : Nat
  g1 : GroupSt
  g2 : GroupSt
  arrivals : List Arrival
  deriving DecidableEq, Repr

/-- A mirror pair's interval as one core holds it (R290 to R292): retired instructions, traps delivered, entries first written, own
local-store writes issued, writes to undo, held effects, the results of effects that are made once (R322), the fingerprint so
far, whether this interval has disagreed before, whether its end is agreed, and the agreed point. -/
structure Interval where
  retired : Nat
  entries : Nat
  firsts : List Nat
  writes : Nat
  undo : List UndoWrite
  held : List Held
  done : List Pending
  stream : List StreamItem
  again : Bool
  atEnd : Bool
  agreed : Agreed
  deriving DecidableEq, Repr

/-- A PTWR that writes its entries one by one (R405): how many it has written, the operands that it read at issue (R49), and the
bank that they go to. -/
structure TabRun where
  done : Nat
  chain : Cap
  image : Cap
  range : Word
  bank : Nat
  deriving DecidableEq, Repr

/-- One core (R5, R58 to R72, R467 to R477).  Registers that only report (sy.rank, sy.pbase, sy.plen, sy.part, sy.clock,
sy.slice, sy.health, sy.seed) are computed where they are read. -/
structure Core where
  /-- physical core id (R5) -/
  phys : Nat
  cstate : CState
  /-- register store, by entry; unlisted entries hold 0 with label 0 (R58) -/
  regs : SMap LVal
  /-- pair tags, by the pair's even entry (R58) -/
  tags : SMap Bool
  /-- the current lens, with address LB (R59) -/
  lens : Cap
  /-- o0 to o7 (R62) -/
  opf : SMap LVal
  q : LVal
  pcc : Cap
  pc : Word
  mode : Mode
  prevMode : Mode
  cause : BitVec 8
  tval : Word
  epcc : Cap
  elens : Cap
  hlens : Cap
  hpcc : Cap
  evt : BitVec 32
  evmask : BitVec 32
  fpsup : Word
  /-- sy.rpt (R174) -/
  rptValid : Bool
  rptRemain : Nat
  /-- the repeat state that ERET loads from sy.rpt (R174) -/
  resume : Option Nat
  /-- the repetition in progress (R170) -/
  rep : Option Rep
  gang : GangReg
  pair : PairReg
  interval : Option Interval
  /-- results of effects that the even core of a mirror pair has for the odd one, oldest first (R214, R322) -/
  gifts : List Pending
  /-- results that a rolled-back interval had of such effects, oldest first: they are not made again (R322) -/
  replay : List Pending
  /-- effects on which a pair has agreed and which its survivor has still to make, in order (R294, R322) -/
  owed : List Held
  ptimer : Word
  /-- asynchronous causes that are due, oldest first, with their sy.tval (R482) -/
  dueSpill : List Word
  dueMirror : Option Word
  dueWatchdog : List Word
  duePreempt : Bool
  trapDue : Option TrapDue
  pending : List Pending
  /-- accesses and messages issued and not acknowledged (R47, R207) -/
  unacked : List Unacked
  /-- the buffered card writes that an acquire which is no load still waits for, under its number (R483) -/
  drain : Option (Nat × Nat)
  nextId : Nat
  spillq : List SpillReq
  /-- accesses stalled at this core's port, oldest first (R206, R211) -/
  portq : List Access
  g1 : GroupSt
  g2 : GroupSt
  /-- the trace ring's arrival number (R209) -/
  traceSeq : Nat
  /-- the last attempt to issue waited (R57) -/
  stalled : Bool
  /-- the instruction has completed on this member of a gang, and where the member goes on (R284) -/
  gangNext : Option (Word × Option Rep)
  /-- first word of the instruction being issued (R44) -/
  word : Nat
  fpEvent : Option FpEvent
  /-- the sequence number whose reply the core waits for (R143) -/
  fpWait : Option Nat
  fpSeq : Nat
  /-- the enabled flags that the message reported (R144, R145) -/
  fpRaised : BitVec 5
  /-- that reply, when it has come (R145) -/
  fpReply : Option InMsg
  xc : Nat
  xbuf : List XContrib
  xwait : Option XWait
  arrivals : List Arrival
  inbox : List InMsg
  /-- instruction buffer, oldest line first: the line's address and its bytes (R14) -/
  ibuf : List (Nat × List Byte)
  /-- partition id, 0 for none (R431) -/
  part : Nat
  /-- kernel that runs on the core: its block's address, the kernel rank, the team (R370, R380) -/
  kernel : Option Nat
  krank : Nat
  team : Nat
  /-- cores already told, by an ERROR message, of this core's kill (R471) -/
  told : List Nat
  /-- the wait-and-wake, barrier, semaphore or queue wait that is registered for the blocking instruction (R309, R319) -/
  waiting : Option Nat
  /-- the event that ended that wait (R311, R320) -/
  woken : Bool
  /-- the PTWR under way (R405) -/
  tabRun : Option TabRun
  deriving DecidableEq, Repr

end Sys2Proof.Machine
end

