-- ==== Sys2Proof/Machine/Topology.lean ====
section
/-! DEFINITION. Where cores stand: physical ids, tile positions, the Hilbert index and chip order (R5 to R8, R463). -/

namespace Sys2Proof.Machine

/-- How many physical ids there are: compute cores, then gateway cores (R5). -/
def coreCount : Nat := 0x2048

/-- A gateway core's id has bit 13 set (R5). -/
def isGateway (p : Nat) : Bool := decide (0x2000 ≤ p)

/-- Gateway number, port and lane of a gateway core (R8, R463). -/
def gatewayNo (p : Nat) : Nat := p - 0x2000
def gatewayPort (p : Nat) : Nat := gatewayNo p / 4
def gatewayLane (p : Nat) : Nat := gatewayNo p % 4
def gatewayCore (port lane : Nat) : Nat := 0x2000 + 4 * port + lane

def dieOf (p : Nat) : Nat := p / 1024 % 8
def yOf (p : Nat) : Nat := p / 32 % 32
def xOf (p : Nat) : Nat := p % 32
def physOf (die y x : Nat) : Nat := die * 1024 + y * 32 + x

/-- Tile position (R6). -/
def tilePos (p : Nat) : Nat := yOf p % 4 * 4 + xOf p % 4

/-- Whether a core is the one of its tile at a position (R6). -/
def atPos (n p : Nat) : Bool := !isGateway p && decide (tilePos p = n)

/-- The two cores of tile positions 2i and 2i + 1 (R287): the even one, and the other one of two. -/
def evenOf (p : Nat) : Nat := p / 2 * 2
def mateOf (p : Nat) : Nat := p / 2 * 2 + (1 - p % 2)

/-- The turn of the Hilbert loop (R7). -/
def hilbertTurn (x y rx ry : Nat) : Nat × Nat :=
  if ry = 0 then (if rx = 1 then (31 - y, 31 - x) else (y, x)) else (x, y)

/-- The loop of R7 over the remaining sizes. -/
def hilbertLoop (x y h : Nat) : List Nat → Nat
  | [] => h
  | s :: rest =>
    let rx := x / s % 2
    let ry := y / s % 2
    let p := hilbertTurn x y rx ry
    hilbertLoop p.1 p.2 (h + s * s * ((3 * rx) ^^^ ry)) rest

/-- The Hilbert index of mesh place (x, y) (R7). -/
def hilbert (x y : Nat) : Nat := hilbertLoop x y 0 [16, 8, 4, 2, 1]

/-- The place whose Hilbert index is `h`: the loop of R7 run backwards. -/
def hilbertInvLoop (t x y : Nat) : List Nat → Nat × Nat
  | [] => (x, y)
  | s :: rest =>
    let rx := t / 2 % 2
    let ry := (t + rx) % 2
    let p := if ry = 0 then (if rx = 1 then (s - 1 - y, s - 1 - x) else (y, x)) else (x, y)
    hilbertInvLoop (t / 4) (p.1 + s * rx) (p.2 + s * ry) rest

def hilbertInv (h : Nat) : Nat × Nat := hilbertInvLoop h 0 0 [1, 2, 4, 8, 16]

/-- The die at a position of chip order: CD0, CD1, CD3, CD2, CD6, CD7, CD5, CD4 (R8). -/
def chipOrderDie (pos : Nat) : Nat := [0, 1, 3, 2, 6, 7, 5, 4].getD pos 0

/-- The position of a die in chip order (R8). -/
def chipOrderPos (die : Nat) : Nat := [0, 1, 3, 2, 7, 6, 4, 5].getD die 0

/-- The chip index of a compute core (R8). -/
def chipIndex (p : Nat) : Nat := chipOrderPos (dieOf p) * 1024 + hilbert (xOf p) (yOf p)

/-- The compute core of a chip index (R8). -/
def physOfChip (i : Nat) : Nat :=
  let xy := hilbertInv (i % 1024)
  physOf (chipOrderDie (i / 1024)) xy.2 xy.1

/-- The tile number, by chip index, of a compute core (R304). -/
def tileOf (p : Nat) : Nat := chipIndex p / 16

/-- The core of a tile at a tile position (R6). -/
def tileCore (t pos : Nat) : Nat :=
  let p := physOfChip (16 * t)
  physOf (dieOf p) (yOf p / 4 * 4 + pos / 4) (xOf p / 4 * 4 + pos % 4)

/-- The sixteen cores of a tile, by position. -/
def tileCores (t : Nat) : List Nat := (List.range 16).map (tileCore t)

/-- The cluster, by chip index, of a compute core: 64 consecutive indices (R7). -/
def clusterOf (p : Nat) : Nat := chipIndex p / 64

/-- The die of a tile. -/
def tileDie (t : Nat) : Nat := chipOrderDie (t / 64)

/-- The last tile of a cluster, where the default boot mask sets cores aside (R468). -/
def lastTile (cluster : Nat) : Nat := 4 * cluster + 3

/-- The roles that a boot mask sets cores aside for (R468). -/
inductive CoreRole where
  | root | loupe | server | spare
  deriving DecidableEq, Repr

/-- The role of a core in the default boot mask (R468). -/
def defaultRole (p : Nat) : Option CoreRole :=
  if isGateway p || decide (tileOf p % 4 ≠ 3) then none
  else if tilePos p = 12 then some .loupe
  else if tilePos p = 11 then some (if clusterOf p % 16 < 8 then .server else .spare)
  else if tilePos p = 10 ∧ clusterOf p % 16 = 15 then some .root
  else none

end Sys2Proof.Machine
end

