-- ==== Sys2Proof/Machine/Units.lean ====
section
/-! DEFINITION. What the package holds beside its cores, as plain data: tiles with their job windows, engines and
translation caches, queues, chains, dispatchers, kernels, partitions, ports and the host link (R227, R255, R265, R343,
R363, R374, R382, R411, R415, R421, R432, R446, R451, R453, R458). -/

namespace Sys2Proof.Machine

open Sys2Proof

/-- Mantissa width of a block format (R132). -/
inductive KFmt where
  | kb2 | kb4 | kb7
  deriving DecidableEq, Repr

/-- The card kinds (R236, R254). -/
inductive CardKind where
  | cpy | cpym | conv | mload | mswap | mrun | mdrain
  deriving DecidableEq, Repr

/-- Card states (R256); a FREE entry holds no card. -/
inductive CardSt where
  | waiting | running | faulted | ended | held
  deriving DecidableEq, Repr

/-- What a card's footprint names (R236, R258): bytes of a core's store, of virtual memory, a plane, accumulator rows. -/
inductive Region where
  | store (p off n : Nat)
  | virt (a n : Nat)
  | plane (m j : Nat)
  | rows (m r n : Nat)
  deriving DecidableEq, Repr

/-- A fault that a card has met and not yet recorded (R420, R421). -/
structure FaultDue where
  kind : Nat
  terminal : Bool
  write : Bool
  va : Nat
  /-- bits 31:0 of sy.clock at the fault -/
  clock : Nat
  deriving DecidableEq, Repr

/-- A line that waits on a miss slot (R415): the slot, the address, whether the line writes. -/
structure MissWait where
  slot : Nat
  va : Nat
  write : Bool
  deriving DecidableEq, Repr

/-- A job card (R255 to R264): its captured operands, what must come before it, how far it is and how it ended. -/
structure Card where
  kind : CardKind
  /-- SEQ of its handle -/
  seq : Nat
  core : Nat
  part : Nat
  /-- lo of the lens it was issued under (R240) -/
  owner : Nat
  slot : Option Nat
  scope : Nat
  /-- destination, or the weight image or activation rows of a matrix card -/
  dst : Cap
  src : Cap
  desc : Word
  typ : Ty
  /-- CPYM: selected destinations; MSWAP: macros -/
  mask : Nat
  /-- MRUN: the bound; MLOAD: macro × 2 + plane -/
  bound : Nat
  /-- CONV: st as sampled at issue, its seed as the draws leave it -/
  sampled : Word
  /-- MRUN: the planes fixed at issue (R231) -/
  plane0 : Nat
  plane1 : Nat
  reads : List Region
  writes : List Region
  /-- entries of the earlier cards with an edge to it that have not ended -/
  preds : List Nat
  /-- stores and atomics of the issuing core that must be acknowledged first (R257) -/
  after : List Nat
  state : CardSt
  /-- its start checks are made (R272) -/
  begun : Bool
  status : Nat
  flags : BitVec 5
  dmask : Nat
  /-- bytes of the source shape, lines or rows done -/
  offset : Nat
  cancel : Bool
  /-- a host warm restart has met one of its lines (R455) -/
  doomed : Bool
  /-- it was there at the last warm restart: its lines do not reach the host link any more (R455) -/
  stale : Bool
  due : Option FaultDue
  /-- what it waits for (R415) -/
  miss : Option MissWait
  /-- CPYM: destinations that failed at start, with their status (R273) -/
  failed : List (Nat × Nat)
  /-- the status it ends with, once its buffered writes are performed (R483) -/
  ending : Option Nat
  /-- it started in a slot of its owner, which holds the slot clock until it ends (R241, R252) -/
  timed : Bool
  /-- slot-clock cycles since no slot of the table would serve it (R252) -/
  starve : Nat
  deriving DecidableEq, Repr

/-- A transfer barrier slot (R265), and whether an arrival not taken yet is of a card at clus scope or wider (R275, R483). -/
structure TSlot where
  count : Nat
  sticky : Nat
  wide : Bool
  deriving DecidableEq, Repr

/-- Weight plane states (R230). -/
inductive PlaneSt where
  | empty | loading | latched | active | draining
  deriving DecidableEq, Repr

/-- A weight plane (R227, R229): its state, format, image and label. -/
structure Plane where
  st : PlaneSt
  fmt : KFmt
  image : List Byte
  lab : Label
  deriving DecidableEq, Repr

/-- One macro (R227, R231): its planes, issue-order and engine selector, accumulator cells by row × 128 + column, row
labels, sticky flags. -/
structure Macro where
  p0 : Plane
  p1 : Plane
  isel : Nat
  esel : Nat
  acc : SMap (BitVec 32)
  rowLab : SMap Label
  sticky : BitVec 5
  deriving DecidableEq, Repr

/-- Miss slot states (R415); a FREE slot is not listed. -/
inductive MissSt where
  | probing | waiting | walking
  deriving DecidableEq, Repr

/-- A miss slot in use (R415, R416). -/
structure Miss where
  st : MissSt
  va : Nat
  part : Nat
  write : Bool
  prot : Bool
  /-- card id of the first card that waits (R420) -/
  card : Nat
  gen : Nat
  deriving DecidableEq, Repr

/-- A tile (R227, R255, R265, R413, R415). -/
structure Tile where
  cards : SMap Card
  /-- cards entered, modulo 2^24 -/
  seq : Nat
  slots : SMap TSlot
  /-- cores that wait at a slot, oldest first -/
  slotWaits : List (Nat × Nat)
  m0 : Macro
  m1 : Macro
  /-- matrix slot table (R240) -/
  table : SMap (BitVec 16)
  /-- slot-clock cycles, modulo 65,536 -/
  slotClock : Nat
  /-- the current slot's entry as it was when the slot became current (R241, R252) -/
  slotEntry : BitVec 16
  /-- first cycles of the current slot in which its owner starts no card (R241) -/
  stall : Nat
  overrun : SMap Nat
  /-- translation entries, oldest first (R411, R413) -/
  tlb : List (BitVec 128)
  gen : Nat
  misses : SMap Miss
  /-- kernel and team placed on the tile, or that claim it (R369) -/
  team : Option (Nat × Nat)
  deriving DecidableEq, Repr

/-- A queue entry (R345): eight words, four granule tags, one label. -/
structure QEntry where
  words : List Word
  tags : List Bool
  lab : Label
  deriving DecidableEq, Repr

/-- Queue states (R346). -/
inductive QSt where
  | off | on | stopped | fault
  deriving DecidableEq, Repr

/-- A parked record (R54, R80): the capability that named it and its physical address, its partition, the core that parked it, and
the kernel and team with whose image the store that holds it is swapped out (R281). -/
structure Parked where
  cap : Cap
  pa : Nat
  part : Nat
  core : Nat
  swapped : Option (Nat × Nat)
  deriving DecidableEq, Repr

/-- A queue (R343 to R352): the fields of its descriptor, its on-chip segment, the records parked on it and the cores
that wait to push, oldest first, and since when its head has been the head (R368). -/
structure Queue where
  part : Nat
  prio : Nat
  weight : Nat
  kind : Nat
  bin : Bool
  hostp : Bool
  st : QSt
  rlen : Nat
  ring : Cap
  head : Nat
  tail : Nat
  drops : Nat
  seg : List QEntry
  parked : List Parked
  pushers : List Nat
  since : Nat
  deriving DecidableEq, Repr

/-- A hardware push that its object holds (R347, R348): the object, the record, the die it goes to, the queue once one is
chosen. -/
structure HeldPush where
  obj : Nat
  record : Parked
  die : Nat
  queue : Option Nat
  deriving DecidableEq, Repr

/-- An entry of a table (R388, R389): key, mask or upper bound, action, datum. -/
structure TabEntry where
  key : Nat
  mask : Nat
  act : Nat
  d : Nat
  /-- its image's VALID; an invalid entry matches nothing -/
  valid : Bool
  deriving DecidableEq, Repr

/-- A bank of an item (R382, R388): table kind 0 none, 1 exact, 2 ternary, 3 range and its valid entries; or column
entries; or the class descriptor's eight words; and the bank label. -/
structure Bank where
  kind : Nat
  tab : SMap TabEntry
  col : SMap Cap
  cls : List Word
  lab : Label
  deriving DecidableEq, Repr

/-- The primitives that a facet has still to run for a record (R393, R394): with the datum and index of its lookup, and whether they
stand for a RECIRC beyond its limit (R395). -/
structure Doing where
  prims : List Nat
  d : BitVec 32
  idx : BitVec 32
  limited : Bool
  deriving DecidableEq, Repr

/-- A record in a chain (R383): sixteen words, label, stamp, recirculation count, facet, exit status with the queue
status. -/
structure PRec where
  words : List (BitVec 32)
  lab : Label
  stamp : Nat
  rc : Nat
  facet : Nat
  status : Nat
  qst : Nat
  /-- what its facet has still to do, where a primitive could not be performed -/
  doing : Option Doing
  /-- the status under which it waits for room in the output FIFO -/
  leave : Option Nat
  deriving DecidableEq, Repr

/-- A chain (R382): the parts, and what of each is current or draining by 2 × item + bank; PTFLIPs that wait, by core. -/
structure Chain where
  inq : List PRec
  pipe : List PRec
  recirc : List PRec
  outq : List PRec
  banks : SMap Bank
  current : Nat
  drain : List Nat
  flips : List (Nat × Nat)
  /-- the record at the end could not leave (R384) -/
  stuck : Bool
  deriving DecidableEq, Repr

/-- A fault record with its partition (R420). -/
structure FRec where
  words : List Word
  part : Nat
  deriving DecidableEq, Repr

/-- A child in the pool or a backing ring (R374): the record and the kernel that spawned it. -/
structure Child where
  words : List Word
  part : Nat
  parent : Option Nat
  since : Nat
  /-- its entry's tags and label, which the queue engine keeps (R93, R361) -/
  tags : List Bool
  lab : Label
  deriving DecidableEq, Repr

/-- A compute die's dispatcher and rings (R368, R374, R421): deficit counters by queue, the pool's under 16,384; backing
rings by partition. -/
structure Die where
  retry : List FRec
  term : List FRec
  pool : List Child
  backing : SMap (List Child)
  deficits : SMap Nat
  visit : Nat
  deriving DecidableEq, Repr

/-- A local store saved whole: bytes, line labels and granule tags, and the records bound to its ARMED mailboxes, by offset. -/
structure StoreImg where
  bytes : SMap (BitVec 8)
  labels : SMap Label
  tags : SMap Bool
  armed : SMap Parked
  deriving DecidableEq, Repr

/-- A saved core (R281, R437): its state and store, the messages held in flight to it (R313), and the STATE word that says how its
context rests (R54, R56; notes/assumptions/91.md). -/
structure CoreImg where
  core : Core
  store : StoreImg
  flights : List Flight
  state : Word
  deriving DecidableEq, Repr

/-- A hardware semaphore's or barrier's waiter (R311): a core in a blocking instruction, or a parked record. -/
inductive Waiter where
  | core (p : Nat)
  | record (r : Parked)
  deriving DecidableEq, Repr

/-- A hardware semaphore (R304, R307): its count, and who waits, oldest first. -/
structure Sem where
  count : Nat
  waiters : List Waiter
  deriving DecidableEq, Repr

/-- A barrier (R304, R308): completed phases modulo 2^16, arrivals of the current phase, the parties latched from its first,
and the records parked on it, oldest first. -/
structure Barrier where
  phase : Nat
  arrived : Nat
  parties : Nat
  parked : List Parked
  deriving DecidableEq, Repr

/-- A saved tile (R267, R281): its state, semaphores and barriers, by place in the tile. -/
structure TileImg where
  tile : Tile
  sems : SMap Sem
  bars : SMap Barrier
  deriving DecidableEq, Repr

/-- Team states (R280). -/
inductive TeamSt where
  | unplaced | placed | swappingOut | swapped | swappingIn | done
  deriving DecidableEq, Repr

/-- A team (R280, R281, R367): size, state, its tile, since when it is swapped or its time counts, cycles left in its slice, whether its
time does not count now (R438), its image. -/
structure Team where
  n : Nat
  st : TeamSt
  tile : Nat
  since : Nat
  left : Nat
  paused : Bool
  image : List CoreImg
  tileImg : Option TileImg
  deriving DecidableEq, Repr

/-- The cycles that a placed team has run since they were last counted (R364, R438). -/
def Team.ran (m : Team) (clock : Nat) : Nat := if m.st = .placed ∧ !m.paused then clock - m.since else 0

/-- Kernel states (R363). -/
inductive KSt where
  | submitted | accepted | running | draining | done | rejected | aborted
  deriving DecidableEq, Repr

/-- A kernel (R360 to R363): what its header, record, shape and RCB gave at acceptance, the kernel that spawned it, its tiles
and teams, whether an abort is due, and whether its completion message is still to be posted. -/
structure Kernel where
  part : Nat
  parent : Option Nat
  kid : Nat
  cls : Nat
  header : Nat
  user : List Word
  cookie : Word
  pcc : Cap
  image : Cap
  imgctl : Word
  shape : List Word
  rcb : Cap
  /-- physical addresses of its RCB and those above it, as they were last found (R364, R365) -/
  path : List Nat
  st : KSt
  status : Nat
  used : Nat
  tiles : List Nat
  teams : List Team
  cores : Nat
  abort : Bool
  post : Bool
  deriving DecidableEq, Repr

/-- Partition states (R434); a FREE partition is not listed. -/
inductive PartSt where
  | configured | run | stopping | stopped
  deriving DecidableEq, Repr

/-- A partition's entry (R432) and VF status (R439), its kernel counter (R372), whether it has acknowledged the staged
update (R446), and the peers that take part in a cut of it (R465). -/
structure Part where
  base : Nat
  len : Nat
  shared : Bool
  st : PartSt
  slots : Nat
  weight : Nat
  keyBase : Nat
  keyCount : Nat
  chains : Nat
  dbar : Nat
  pbar : Nat
  save : Nat
  dlog : Nat
  vfring : Nat
  ready : Nat
  child : Nat
  root : Cap
  stopwhy : Nat
  updpend : Bool
  acked : Bool
  kids : Nat
  cut : Bool
  deriving DecidableEq, Repr

/-- A key handle's binding (R453). -/
structure KeyHandle where
  part : Nat
  key : List Byte
  iv : Nat
  deriving DecidableEq, Repr

/-- A piece of an inbound posted write (R451): its function (0 the PF) and write number, its route, where it goes, whether
it has left, whether it is performed, whether it is acknowledged while its write is not yet, the partition it reaches, and for a write of a register or doorbell, which one (R336, R352,
R449). -/
structure Piece where
  fn : Nat
  wid : Nat
  route : Nat
  store : Option Nat
  addr : Nat
  data : List Byte
  left : Bool
  performed : Bool
  acked : Bool
  part : Nat
  reg : Option Nat
  deriving DecidableEq, Repr

/-- A block message (R459, R460): its words, its label and its entry's tag bits. -/
structure BlockMsg where
  words : List Word
  lab : Label
  tags : List Bool
  deriving DecidableEq, Repr

/-- A Kustad port (R458, R461, R465): its entry's fields, its lanes, the entry it has popped and not sent with the package
that it is for (none: this one), packets sent and the marks received. -/
structure KPort where
  part : Nat
  sendq : Nat
  enable : Bool
  link : Nat
  drops : Nat
  peermap : Nat
  gwhdr : Nat
  gwsave : Nat
  /-- a port yield has been asked for, and not every gateway core of it is evicted (R464) -/
  yielding : Bool
  lanes : SMap (List BlockMsg)
  popped : Option (Option Nat × BlockMsg)
  sent : List (Nat × BlockMsg)
  marks : List Nat
  deriving DecidableEq, Repr

/-- The side-band record of an HBM burst (R419, R424): mode, key, poison; of a poisoned one also the card that wrote to it last, by
tile and SEQ, and which of its bytes that card has written. -/
structure Burst where
  enc : Nat
  key : Nat
  poison : Bool
  writer : Nat × Nat
  written : Nat
  deriving DecidableEq, Repr

def Burst.reset : Burst := ⟨0, 0, false, (0, 0), 0⟩

/-- What the hardware reports to F firmware, or F firmware through the PF: a burst found uncorrectable (R424), a bring-up check that
failed (R470). -/
inductive Report where
  | poisoned (burst : Nat)
  | bootFailed
  deriving DecidableEq, Repr

/-- A fatal dump (R474): its header's bytes and the images, masked by label. -/
structure Dump where
  header : List Byte
  regs : SMap LVal
  tags : SMap Bool
  inbox : List InMsg
  store : StoreImg
  deriving DecidableEq, Repr

/-- Firmware (R446): the active image and its counter, the staged one, and whether activation is under way. -/
structure Firmware where
  active : List Byte
  ctr : Nat
  staged : Option (List Byte × Nat)
  activating : Bool
  deriving DecidableEq, Repr

/-- What the host's or the PF's last request was answered (R443, R445, R449), or the package that a block packet came from (R457). -/
inductive Answer where
  | none
  | data (bs : List Byte)
  | unsupported
  | accepted
  | refused
  | unwrap
  | retry
  | evidence (head signature : List Byte)
  deriving DecidableEq, Repr

end Sys2Proof.Machine
end

