-- ==== Sys2Proof/Machine/State.lean ====
section
/-! DEFINITION. The state of the package, as plain data, why a step can stop, and the state after reset. -/

namespace Sys2Proof.Machine

open Sys2Proof

/-- Why the machine stops with a fault. -/
inductive Fault where
  /-- An event of the opcode table names a core, tile, queue, chain, port or partition that the package does not have
  (R4, R5).  Raised by the events' meanings; safe: no such event happens. -/
  | noSuchSubject
  deriving DecidableEq, Repr

/-- Why an instruction has no meaning. -/
inductive Refusal where
  /-- The instruction is not modelled.  Raised by an arm of `exec` that has no meaning yet; safe. -/
  | notModelled (mnemonic : String)
  deriving DecidableEq, Repr

/-- An entry of the agenda: an event that happens next, or the core that issues next. -/
inductive Turn where
  | event (i : Instr)
  | core (p : Nat)
  deriving DecidableEq, Repr

/-- A SEV, or a doorbell of the host, on its way (R324, R449): the core and access that sent it, and the partition it is
sent for. -/
structure Signal where
  dst : Nat
  bits : BitVec 32
  sender : Nat × Nat
  part : Nat
  deriving DecidableEq, Repr

/-- A contribution on its way (R197): its destination, what it brings, and the partition it is sent in. -/
structure XFlight where
  dst : Nat
  x : XContrib
  part : Nat
  deriving DecidableEq, Repr

/-- A key of the wait-and-wake table (R318): a place in a local store, or a virtual address. -/
inductive WaitKey where
  | store (p off : Nat)
  | virt (a : Nat)
  deriving DecidableEq, Repr

/-- Who waits in the table (R318): a core, or a host thread with its wake value and wake line. -/
inductive WaitWho where
  | core (p : Nat)
  | host (val line : Nat)
  deriving DecidableEq, Repr

/-- An entry of the wait-and-wake table (R318). -/
structure WaitEntry where
  key : WaitKey
  part : Nat
  who : WaitWho
  deriving DecidableEq, Repr

/-- A running sweep of a partition (R102): the bitmap's owner and offset, what it covers, the bitmap's nonzero bytes by
index at the sweep's start, and the cores that have made their check. -/
structure Sweep where
  owner : Nat
  off : Nat
  cvbase : Nat
  cvlen : Nat
  marks : SMap (BitVec 8)
  checked : List Nat
  deriving DecidableEq, Repr

/-- A card's write that is in a cluster's inbound card buffer (R483): the tile and SEQ of the card that makes it, its partition and
scope, the store and offset, the bytes, their label and granule tags, and the acquires that wait for it, by core and number. -/
structure FarWrite where
  tile : Nat
  card : Nat
  part : Nat
  scope : Scope
  /-- the translation entry that it goes through (R428) -/
  via : Option (BitVec 128)
  store : Nat
  off : Nat
  bytes : List Byte
  lab : Label
  tags : List Bool
  notify : List (Nat × Nat)
  deriving DecidableEq, Repr

/-- The package. -/
structure State where
  /-- the core whose turn it is -/
  core : Core
  /-- the other cores, by physical id; a core that is not listed is as after reset -/
  others : SMap Core
  /-- bytes by physical address (R11), unlisted bytes 0; the stores of gateway cores, which R11's map does not hold,
  follow at 0x8000_0000_0000 -/
  mem : SMap (BitVec 8)
  /-- line labels by address / 64 (R202), unlisted lines 0 -/
  labels : SMap Label
  /-- granule tags by address / 16 (R92), unlisted granules untagged -/
  tags : SMap Bool
  /-- messages that have not entered their inbox, oldest first (R313) -/
  flights : List Flight
  /-- signals that have not arrived, oldest first (R324) -/
  signals : List Signal
  /-- contributions that have not arrived, oldest first (R197) -/
  xflights : List XFlight
  /-- the clusters' inbound card buffers, oldest write first (R483); under 128 the gateway cores' -/
  cardbuf : SMap (List FarWrite)
  parts : SMap Part
  /-- ranks remapped to spares: chip index of the rank to the spare's physical id (R472) -/
  remap : SMap Nat
  sweeps : SMap Sweep
  /-- semaphores and barriers by object address (R304) -/
  sems : SMap Sem
  bars : SMap Barrier
  /-- records bound to ARMED mailboxes, by the block's physical address (R316) -/
  armed : SMap Parked
  /-- the wait-and-wake table, oldest entry first (R318) -/
  waits : List WaitEntry
  /-- cores that wait to post at HELD mailboxes, oldest first: the block's physical address and the core (R316, R328) -/
  posters : List (Nat × Nat)
  tiles : SMap Tile
  /-- miss messages at the loupe cores' ports by cluster, oldest first, as tile and slot (R416) -/
  missq : SMap (List (Nat × Nat))
  /-- the partition that a loupe core's port served last, and how many messages of it in a row (R416) -/
  missrr : SMap (Nat × Nat)
  /-- miss messages in flight by cluster, as tile, slot and partition (R416) -/
  inflight : SMap (List (Nat × Nat × Nat))
  queues : SMap Queue
  /-- hardware pushes that objects hold, oldest first (R347) -/
  heldq : List HeldPush
  chains : SMap Chain
  dies : SMap Die
  /-- kernels by number, and the next number -/
  kernels : SMap Kernel
  nextKernel : Nat
  /-- images of evicted cores by partition × 16,384 + rank, and of gateway cores by 2^20 + core; of tiles by partition ×
  512 + tile (R437, R464) -/
  images : SMap CoreImg
  tileImages : SMap TileImg
  ports : SMap KPort
  /-- what the firmware holds: layout counter, images, secrets installed by session (R444 to R446) -/
  layout : Nat
  fw : Firmware
  secrets : SMap (List Byte)
  /-- aperture entries by partition × 16 + aperture (R450), key handles (R453) -/
  apertures : SMap (BitVec 128)
  handles : SMap KeyHandle
  /-- the partitions whose drivers have not written the registration register since the last warm restart, the PF's as 0 (R3, R455) -/
  unregistered : List Nat
  inbound : List Piece
  /-- the stores that a host's read through BAR2 waits for, with the partition (R436, R452) -/
  awaited : List (Nat × Nat)
  nextWrite : Nat
  /-- dropped host writes logged through AER (R449) -/
  aer : Nat
  answer : Answer
  /-- side-band records by burst, and the pseudo-channels dropped (R419, R423, R424) -/
  bursts : SMap Burst
  dead : List Nat
  /-- the pages of HBM that F firmware has assigned, as partition, address and length (R419, R450) -/
  pages : List (Nat × Nat × Nat)
  /-- the pseudo-channel that a repair is dropping (R423) -/
  repair : Option Nat
  reports : List Report
  dumps : List Dump
  /-- the boot mask where it is not the default one: the roles of the cores set aside, by physical id (R468) -/
  mask : Option (SMap CoreRole)
  /-- the personality strap reads EP (R447); the package id (R456) -/
  endpoint : Bool
  pkg : Nat
  /-- cores killed since manufacture, spares in use and pseudo-channels dropped by die (R473) -/
  kills : Nat
  spused : SMap Nat
  pcdrop : SMap Nat
  /-- sy.clock (R475) -/
  clock : Nat
  /-- the MODEL'S own: what happens next beside the current core's instruction -/
  agenda : List Turn
  /-- the MODEL'S own: the counter that free values are drawn with -/
  freeCtr : Nat
  /-- the MODEL'S own: whether accesses, landings and acknowledgements wait for their events -/
  hold : Bool
  deriving DecidableEq, Repr

/-- Whether a core is the root of trust of its die: cluster 15, position 10 (R468). -/
def isRoot (p : Nat) : Bool := !isGateway p && decide (p = tileCore (64 * chipOrderPos (dieOf p) + 63) 10)

/-- A core right after reset (R100, R467, R476; notes/assumptions/1.md and 2.md for the values no rule gives). -/
def Core.reset (p : Nat) : Core where
  phys := p
  cstate := if isRoot p then .boot else .idle
  regs := if isRoot p then
    [(16, ⟨Cap.memoryRoot.addr, 0⟩), (17, ⟨Cap.memoryRoot.hi, 0⟩), (19, ⟨Cap.sealingRoot.hi, 0⟩)].filter
      (fun e => decide (e.2 ≠ ⟨0, 0⟩)) else []
  tags := if isRoot p then [(16, true), (18, true)] else []
  lens := Cap.lens 15 4095 16
  opf := []
  q := ⟨0, 0⟩
  pcc := if isRoot p then Cap.memoryRoot else Cap.null
  pc := if isRoot p then 0xFFF8000000000000#64 else 0
  mode := if isRoot p then .f else .s
  prevMode := .u
  cause := 0
  tval := 0
  epcc := Cap.null
  elens := Cap.null
  hlens := Cap.null
  hpcc := Cap.null
  evt := 0
  evmask := 0
  fpsup := 0xFFFFFFFF#64
  rptValid := false
  rptRemain := 0
  resume := none
  rep := none
  gang := ⟨0, 0, 0, false, 0⟩
  pair := ⟨0, 0, .unpaired, 0, false, 256⟩
  interval := none
  gifts := []
  replay := []
  owed := []
  ptimer := 0
  dueSpill := []
  dueMirror := none
  dueWatchdog := []
  duePreempt := false
  trapDue := none
  pending := []
  unacked := []
  drain := none
  nextId := 0
  spillq := []
  portq := []
  g1 := .awake
  g2 := .awake
  traceSeq := 0
  stalled := false
  gangNext := none
  word := 0
  fpEvent := none
  fpWait := none
  fpSeq := 0
  fpRaised := 0
  fpReply := none
  xc := 0
  xbuf := []
  xwait := none
  arrivals := []
  inbox := []
  ibuf := []
  part := 0
  kernel := none
  krank := 0
  team := 0
  told := []
  waiting := none
  woken := false
  tabRun := none

/-- The root-of-trust core of CD0, whose turn is first after reset. -/
def rootCore : Nat := tileCore 63 10

/-- A plane, a macro and a tile as after reset (R231, R235, R240, R244, R265). -/
def Plane.reset : Plane := ⟨.empty, .kb2, [], 0⟩
def Macro.reset : Macro := ⟨Plane.reset, Plane.reset, 0, 0, [], [], 0⟩
def Tile.reset : Tile where
  cards := []
  seq := 0
  slots := []
  slotWaits := []
  m0 := Macro.reset
  m1 := Macro.reset
  table := []
  slotClock := 0
  slotEntry := 0x8000#16
  stall := 0
  overrun := []
  tlb := []
  gen := 0
  misses := []
  team := none

/-- A queue as after reset: OFF (R344, R346). -/
def Queue.reset : Queue where
  part := 0
  prio := 0
  weight := 1
  kind := 0
  bin := false
  hostp := false
  st := .off
  rlen := 0
  ring := Cap.null
  head := 0
  tail := 0
  drops := 0
  seg := []
  parked := []
  pushers := []
  since := 0

/-- A chain as after its reset (R382, R398). -/
def Chain.reset : Chain := ⟨[], [], [], [], [], 0, [], [], false⟩

/-- The banks of a chain that is as after reset: the class is OFF everywhere with NEXT = END (R382). -/
def Bank.reset (k : Nat) : Bank := ⟨0, [], [], if k / 2 = 9 then List.replicate 8 0x80000#64 else [], 0⟩

def Die.reset : Die := ⟨[], [], [], [], [], 0⟩

/-- A port as after reset (R458). -/
def KPort.reset : KPort := ⟨0, 0, false, 0, 0, 0, 0, 0, false, [], none, [], []⟩

/-- A partition that has no entry: FREE, with no cores (R431, R434). -/
def Part.free : Part where
  base := 0
  len := 0
  shared := false
  st := .configured
  slots := 0
  weight := 0
  keyBase := 0
  keyCount := 0
  chains := 0
  dbar := 0
  pbar := 0
  save := 0
  dlog := 0
  vfring := 0
  ready := 0
  child := 0
  root := Cap.null
  stopwhy := 0
  updpend := false
  acked := false
  kids := 0
  cut := false

/-- The package right after reset (R470, R476). -/
def State.reset : State where
  core := Core.reset rootCore
  others := []
  mem := []
  labels := []
  tags := []
  flights := []
  signals := []
  xflights := []
  cardbuf := []
  parts := []
  remap := []
  sweeps := []
  sems := []
  bars := []
  armed := []
  waits := []
  posters := []
  tiles := []
  missq := []
  missrr := []
  inflight := []
  queues := []
  heldq := []
  chains := []
  dies := []
  kernels := []
  nextKernel := 0
  images := []
  tileImages := []
  ports := []
  layout := 0
  fw := ⟨[], 0, none, false⟩
  secrets := []
  apertures := []
  handles := []
  unregistered := []
  inbound := []
  awaited := []
  nextWrite := 0
  aer := 0
  answer := .none
  bursts := []
  dead := []
  pages := []
  repair := none
  reports := []
  dumps := []
  mask := none
  endpoint := true
  pkg := 0
  kills := 0
  spused := []
  pcdrop := []
  clock := 0
  agenda := []
  freeCtr := 0
  hold := false

end Sys2Proof.Machine
end

