-- ==== Sys2Proof/Machine/Operands.lean ====
section
/-! DEFINITION. Reading and writing what operand names say (R30, R58 to R63, R149), and where late writes land (R48). -/

namespace Sys2Proof.Machine

open Sys2Proof

/-- Little-endian bytes of a number. -/
def bytesOf (n v : Nat) : List Byte :=
  match n with
  | 0 => []
  | n + 1 => BitVec.ofNat 8 v :: bytesOf n (v / 256)

/-- The number that little-endian bytes say. -/
def ofBytes : List Byte → Nat
  | [] => 0
  | b :: bs => b.toNat + 256 * ofBytes bs

/-- The higher of two labels. -/
def Label.max (a b : Label) : Label := if a < b then b else a

/-- The highest of a list of labels. -/
def Label.maxOf (ls : List Label) : Label := ls.foldl Label.max 0

def zeroVal : LVal := ⟨0, 0⟩

/-- lo, top and LB of the current lens (R59). -/
def Core.lo (c : Core) : Nat := c.lens.base.toNat
def Core.top (c : Core) : Nat := c.lens.top.toNat
def Core.lb (c : Core) : Nat := c.lens.addr.toNat

/-- A register-store entry, and the tag of its pair (R58). -/
def Core.ent (c : Core) (e : Nat) : LVal := c.regs.look (fun _ => zeroVal) e
def Core.tagAt (c : Core) (e : Nat) : Bool := c.tags.look (fun _ => false) (e / 2 * 2)

/-- The capability of the pair at an even entry (R86). -/
def Core.capAt (c : Core) (e : Nat) : Cap := Cap.ofWords (c.ent e).v (c.ent (e + 1)).v (c.tagAt e)

/-- The higher entry label of a pair (R97). -/
def Core.pairLabel (c : Core) (e : Nat) : Label := Label.max (c.ent e).l (c.ent (e + 1)).l

/-- The places that hold nothing: a late write that is void, or has landed, stands there, a pair's in the second. -/
def Tgt.nowhere : Tgt := .o 8
def Tgt.nowherePair : Tgt := .o 9

/-- The place where nothing is left of a write to a place. -/
def Tgt.gone : Tgt → Tgt
  | .pair _ => .nowherePair
  | .half _ _ => .nowherePair
  | .o i => if i = 9 then .nowherePair else .nowhere
  | _ => .nowhere

/-- Whether a place is one that can be written. -/
def Tgt.real : Tgt → Bool
  | .o i => decide (i < 8)
  | _ => true

/-- What a scalar name reads (R30, R149, R151). -/
def Core.rd (c : Core) : Name → LVal
  | .w n => c.ent (c.lb + n)
  | .o i => c.opf.look (fun _ => zeroVal) i
  | .q => c.q
  | .st => c.ent c.lo
  | .zr => zeroVal
  | .rsv _ => zeroVal

/-- The entry a w, c or v name stands for (Phys of R30). -/
def Core.physOf (c : Core) : Name → Nat
  | .w n => c.lb + n
  | _ => c.lo

/-- What a c name reads; `zr` reads as the null capability. -/
def Core.rdCap (c : Core) : Name → Cap
  | .w n => c.capAt (c.lb + n)
  | _ => Cap.null

/-- The label of a c operand (R97). -/
def Core.capLabel (c : Core) : Name → Label
  | .w n => c.pairLabel (c.lb + n)
  | _ => 0

/-- `k` consecutive entries from an entry up. -/
def Core.ents (c : Core) (e k : Nat) : List LVal := (List.range k).map (fun i => c.ent (e + i))

/-- The entries of a vector, pair or record name. -/
def Core.rdMany (c : Core) (n : Name) (k : Nat) : List LVal := c.ents (c.physOf n) k

/-- The number that stands for a name in sy.tval: the w number of a w, c or v name, else the name's code (R52, R95). -/
def nameNum : Name → Nat
  | .w n => n
  | .o i => 0xFF0 + i
  | .q => 0xFF8
  | .st => 0xFF9
  | .zr => 0xFFA
  | .rsv i => 0xFFB + i

/-- The register entries a place covers. -/
def Tgt.entries : Tgt → List Nat
  | .entry e => [e]
  | .pair e => [e, e + 1]
  | .half e _ => [e]
  | .stAt e => [e]
  | .o _ => []
  | .q => []

/-- What is left of a late write when a later instruction writes a place (R48): the whole of it, the other half of a pair,
or nothing. -/
def TWrite.without (t : Tgt) (w : TWrite) : Option TWrite :=
  let es := t.entries
  match w.tgt with
  | .pair e =>
    match es.contains e, es.contains (e + 1) with
    | true, true => none
    | true, false => some { w with tgt := .half (e + 1) true }
    | false, true => some { w with tgt := .half e false }
    | false, false => some w
  | x => if x = t ∨ x.entries.any es.contains then none else some w

/-- Earlier late writes to a place no longer land there (R48). -/
def Core.cancel (c : Core) (t : Tgt) : Core :=
  { c with pending := c.pending.map (fun p => { p with writes := p.writes.map (fun w =>
      (w.without t).getD { w with tgt := w.tgt.gone }) }) }

/-- Earlier late writes to the entries of [e, e + n) no longer land there. -/
def Core.cancelRange (c : Core) (e n : Nat) : Core :=
  if c.pending.isEmpty then c else (List.range n).foldl (fun c i => c.cancel (.entry (e + i))) c

/-- An item of the fingerprint stream (R290); an unpaired core keeps none. -/
def Core.note (c : Core) (x : StreamItem) : Core :=
  match c.interval with
  | none => c
  | some v => { c with interval := some { v with stream := v.stream ++ [x] } }

/-- A value and its label as the stream holds them: 8 bytes and one (R290). -/
def LVal.stream (v : LVal) : List Byte := bytesOf 8 v.v.toNat ++ [v.l.setWidth 8]

def Core.noteVal (c : Core) (v : LVal) : Core := c.note (.bytes v.stream)

/-- An entry counts among those first written in the interval (R291). -/
def Core.noteEntry (c : Core) (e : Nat) : Core :=
  match c.interval with
  | none => c
  | some v => if v.firsts.contains e then c else { c with interval := some { v with firsts := e :: v.firsts } }

/-- Entries first written, for the entry limit of R291. -/
def Core.noteEntries (c : Core) (es : List Nat) : Core := es.foldl Core.noteEntry c

/-- A 64-bit write to an entry: value and label replaced, the pair's tag cleared (R58). -/
def Core.putEnt (c : Core) (e : Nat) (v : LVal) : Core :=
  { c with
    regs := c.regs.put (fun _ => zeroVal) e v
    tags := c.tags.put (fun _ => false) (e / 2 * 2) false }

/-- A capability write to a pair: both entries, both labels, the tag (R58). -/
def Core.putPair (c : Core) (e : Nat) (k : Cap) (l : Label) : Core :=
  { c with
    regs := (c.regs.put (fun _ => zeroVal) e ⟨k.addr, l⟩).put (fun _ => zeroVal) (e + 1) ⟨k.hi, l⟩
    tags := c.tags.put (fun _ => false) (e / 2 * 2) k.tag }

/-- The bits of a status word that a write keeps: 31:14 are stored as zero (R61). -/
def stMask (w : Word) : Word := w &&& 0xFFFFFFFF00003FFF#64

/-- The place a scalar name writes; `zr` has none. -/
def Core.place (c : Core) : Name → Option Tgt
  | .w n => some (.entry (c.lb + n))
  | .o i => some (.o i)
  | .q => some .q
  | .st => some (.stAt c.lo)
  | .zr => none
  | .rsv _ => none

/-- Write a place with a value and label; a status word loses its reserved bits (R58, R61, R62). -/
def Core.setTgt (c : Core) (t : Tgt) (v : LVal) : Core :=
  match t with
  | .entry e => c.putEnt e v
  | .pair e => c.putEnt e v
  | .half e _ => c.putEnt e v
  | .stAt e => c.putEnt e ⟨stMask v.v, v.l⟩
  | .o i => if i < 8 then { c with opf := c.opf.put (fun _ => zeroVal) i v } else c
  | .q => { c with q := v }

/-- A write by the instruction that issues: earlier late writes to the place are void, and a mirror pair notes it (R48,
R290). -/
def Core.wrTgt (c : Core) (t : Tgt) (v : LVal) : Core :=
  (((c.cancel t).setTgt t v).noteVal v).noteEntries t.entries
/-- Write a scalar name (R30): `zr` discards. -/
def Core.wr (c : Core) (n : Name) (v : LVal) : Core :=
  match c.place n with
  | some t => c.wrTgt t v
  | none => c

/-- Write a c name with a capability (R58). -/
def Core.wrCap (c : Core) (n : Name) (k : Cap) (l : Label) : Core :=
  let e := c.physOf n
  ((((c.cancel (.pair e)).putPair e k l).noteVal ⟨k.addr, l⟩).noteVal ⟨k.hi, l⟩).noteEntries [e, e + 1]

/-- Write consecutive entries with 64-bit values. -/
def Core.wrEnts (c : Core) (e : Nat) : List LVal → Core
  | [] => c
  | v :: vs => Core.wrEnts (c.wrTgt (.entry e) v) (e + 1) vs

/-- Write a v name: four entries, both pair tags lost (R58, R176). -/
def Core.wrVec (c : Core) (n : Name) (vs : List LVal) : Core := c.wrEnts (c.physOf n) vs

/-- Write a scalar result and q (R149): `zr` discards both, q is written once. -/
def Core.wrQ (c : Core) (n : Name) (v : LVal) : Core :=
  match n with
  | .zr => c
  | .q => c.wr .q v
  | n => (c.wr n v).wr .q v

end Sys2Proof.Machine
end

