-- ==== Sys2Proof/Machine/Crypto.lean ====
section
/-! DEFINITION. SHAKE256 of FIPS 202, AES-256 and its key unwrap with padding (KWP), as R443 and R445 use them. -/

namespace Sys2Proof.Machine

open Sys2Proof

/-- The lanes of the permutation, by x + 5y. -/
abbrev Lanes := List (BitVec 64)

def lane (a : Lanes) (x y : Nat) : BitVec 64 := a.getD (x % 5 + 5 * (y % 5)) 0

def laneTable (f : Nat → Nat → BitVec 64) : Lanes := (List.range 25).map (fun i => f (i % 5) (i / 5))

/-- Rotation of the lane at x + 5y. -/
def rhoOffsets : List Nat := [0, 1, 62, 28, 27, 36, 44, 6, 55, 20, 3, 10, 43, 25, 39, 41, 45, 15, 21, 8, 18, 2, 61, 56, 14]

/-- The constants of the 24 rounds. -/
def roundConsts : List (BitVec 64) :=
  [0x1, 0x8082, 0x800000000000808A, 0x8000000080008000, 0x808B, 0x80000001, 0x8000000080008081, 0x8000000000008009, 0x8A, 0x88,
    0x80008009, 0x8000000A] ++
  [0x8000808B, 0x800000000000008B, 0x8000000000008089, 0x8000000000008003, 0x8000000000008002, 0x8000000000000080, 0x800A,
    0x800000008000000A, 0x8000000080008081, 0x8000000000008080, 0x80000001, 0x8000000080008008]

/-- One round of the permutation. -/
def keccakRound (a : Lanes) (rc : BitVec 64) : Lanes :=
  let col := (List.range 5).map (fun x => lane a x 0 ^^^ lane a x 1 ^^^ lane a x 2 ^^^ lane a x 3 ^^^ lane a x 4)
  let mix := fun x => col.getD ((x + 4) % 5) 0 ^^^ (col.getD ((x + 1) % 5) 0).rotateLeft 1
  let t := laneTable (fun x y => (lane a x y ^^^ mix x).rotateLeft (rhoOffsets.getD (x + 5 * y) 0))
  let p := laneTable (fun x y => lane t (x + 3 * y) x)
  let c := laneTable (fun x y => lane p x y ^^^ (~~~lane p (x + 1) y &&& lane p (x + 2) y))
  c.set 0 (lane c 0 0 ^^^ rc)

def keccak (a : Lanes) : Lanes := roundConsts.foldl keccakRound a

/-- Bytes of each block that the sponge takes or gives. -/
def spongeRate : Nat := 136

/-- A block's bytes as lanes, and lanes as bytes. -/
def lanesOf (bs : List Byte) : Lanes := (List.range 25).map (fun i => BitVec.ofNat 64 (ofBytes ((bs.drop (8 * i)).take 8)))
def lanesBytes (a : Lanes) : List Byte := a.flatMap (fun w : BitVec 64 => bytesOf 8 w.toNat)

/-- The message with its padding. -/
def spongePad (bs : List Byte) : List Byte :=
  let n := spongeRate - bs.length % spongeRate
  if n = 1 then bs ++ [0x9F] else bs ++ [0x1F] ++ List.replicate (n - 2) 0 ++ [0x80]

/-- Blocks taken in; `n` bounds their number. -/
def absorb (a : Lanes) (bs : List Byte) : Nat → Lanes
  | 0 => a
  | n + 1 =>
    if bs.isEmpty then a
    else absorb (keccak (List.zipWith (· ^^^ ·) a (lanesOf (bs.take spongeRate)))) (bs.drop spongeRate) n

/-- The first `n` bytes of SHAKE256, at most one block. -/
def shake256 (n : Nat) (bs : List Byte) : List Byte :=
  let m := spongePad bs
  (lanesBytes (absorb (List.replicate 25 0) m (m.length / spongeRate))).take n

/-- Doubling and the product in the field of AES. -/
def aesDouble (a : Byte) : Byte := a <<< 1 ^^^ (if a.getLsbD 7 then 0x1B else 0)
def aesMul (a b : Byte) : Byte :=
  ((List.range 8).foldl (fun acc i => (aesDouble acc.1, if b.getLsbD i then acc.2 ^^^ acc.1 else acc.2)) (a, (0 : Byte))).2

/-- The inverse, as the 254th power. -/
def aesInv (a : Byte) : Byte :=
  let x2 := aesMul a a
  let x3 := aesMul x2 a
  let x6 := aesMul x3 x3
  let x12 := aesMul x6 x6
  let x15 := aesMul x12 x3
  let x30 := aesMul x15 x15
  let x60 := aesMul x30 x30
  let x120 := aesMul x60 x60
  let x126 := aesMul x120 x6
  let x127 := aesMul x126 a
  aesMul x127 x127

def sbox (a : Byte) : Byte :=
  let b := aesInv a
  b ^^^ b.rotateLeft 1 ^^^ b.rotateLeft 2 ^^^ b.rotateLeft 3 ^^^ b.rotateLeft 4 ^^^ 0x63
def sboxInv (b : Byte) : Byte := aesInv (b.rotateLeft 1 ^^^ b.rotateLeft 3 ^^^ b.rotateLeft 6 ^^^ 0x05)

/-- The next words of the key schedule, newest first; `i` counts them. -/
def aesExpand (i : Nat) (ws : List (List Byte)) : Nat → List (List Byte)
  | 0 => ws
  | n + 1 =>
    let t := ws.headD []
    let t1 := if i % 8 = 0 then
        let r := (t.drop 1 ++ t.take 1).map sbox
        List.zipWith (· ^^^ ·) r [(1 : Byte) <<< (i / 8 - 1), 0, 0, 0]
      else if i % 8 = 4 then t.map sbox
      else t
    aesExpand (i + 1) (List.zipWith (· ^^^ ·) (ws.getD 7 []) t1 :: ws) n

/-- The fifteen round keys of a 32-byte key. -/
def aesKeys (key : List Byte) : List (List Byte) :=
  let ws := (aesExpand 8 ((List.range 8).map (fun i => (key.drop (4 * i)).take 4)).reverse 52).reverse
  (List.range 15).map (fun r => ((ws.drop (4 * r)).take 4).flatten)

/-- The rows of a block shifted back, and its columns unmixed. -/
def aesUnshift (b : List Byte) : List Byte := (List.range 16).map (fun i => b.getD ((i + 16 - 4 * (i % 4)) % 16) 0)
def aesUnmix (b : List Byte) : List Byte :=
  (List.range 16).map (fun i =>
    let at_ := fun k => b.getD (i / 4 * 4 + (i + k) % 4) 0
    aesMul (at_ 0) 14 ^^^ aesMul (at_ 1) 11 ^^^ aesMul (at_ 2) 13 ^^^ aesMul (at_ 3) 9)

/-- AES-256 decryption of one block. -/
def aesDecrypt (key b : List Byte) : List Byte :=
  let ks := aesKeys key
  let xor := fun x y : List Byte => List.zipWith (· ^^^ ·) x y
  let round := fun (c : List Byte) (r : Nat) => aesUnmix (xor ((aesUnshift c).map sboxInv) (ks.getD r []))
  let c := ((List.range 13).map (fun i => 13 - i)).foldl round (xor b (ks.getD 14 []))
  xor ((aesUnshift c).map sboxInv) (ks.getD 0 [])

/-- A number as `n` bytes, the most significant first. -/
def bytesBig (n v : Nat) : List Byte := (bytesOf n v).reverse

/-- One step of the unwrap: the check half and the parts, and the step's number. -/
def unwrapStep (key : List Byte) (n : Nat) (x : List Byte × List (List Byte)) (j : Nat) : List Byte × List (List Byte) :=
  let i := (j + n - 1) % n
  let a := List.zipWith (· ^^^ ·) x.1 (bytesBig 8 j)
  let c := aesDecrypt key (a ++ x.2.getD i [])
  (c.take 8, x.2.set i (c.drop 8))

/-- The key unwrap with padding of SP 800-38F (R445): none when the integrity check fails. -/
def kwpUnwrap (key c : List Byte) : Option (List Byte) :=
  if c.length % 8 ≠ 0 ∨ c.length < 16 then none
  else
    let n := c.length / 8 - 1
    let parts := (List.range n).map (fun i => (c.drop (8 * (i + 1))).take 8)
    let r := if n = 1 then
        let d := aesDecrypt key c
        (d.take 8, [d.drop 8])
      else ((List.range (6 * n)).map (fun i => 6 * n - i)).foldl (unwrapStep key n) (c.take 8, parts)
    let len := ofBytes (r.1.drop 4).reverse
    let data := r.2.flatten
    if r.1.take 4 = [0xA6, 0x59, 0x59, 0xA6] ∧ 8 * (n - 1) < len ∧ len ≤ 8 * n ∧ (data.drop len).all (fun b => decide (b = 0)) then
      some (data.take len)
    else none

end Sys2Proof.Machine
end

