-- ==== Sys2Proof/Config.lean ====
section
/-! DEFINITION. What an implementation fixes and the spec leaves open: free values, of which nothing can be proved. -/

namespace Sys2Proof.Config

open Sys2Proof

/-- A free 64-bit value for each number (sy.seed of R475, notes/assumptions/6.md). -/
opaque freeWord : Nat → BitVec 64

/-- The device's own results of the approximated functions (R187, notes/assumptions/9.md): function, rounding mode, and
the operand's f32 pattern to the result's. -/
opaque approx : Nat → Nat → Nat → BitVec 32

/-- Bytes that keyed copies put on the host link (R454, notes/assumptions/11.md): by key, tweak, data and place. -/
opaque xtsByte : List (BitVec 8) → Nat → List (BitVec 8) → Nat → BitVec 8

/-- Whether the MAC or the version of an ENCIR burst fails to verify at a read (R418, notes/assumptions/62.md): by burst and clock. -/
opaque integrityFails : Nat → Nat → Bool

/-- Elements of a block that bf16 cannot hold, dequantised to it (R136, notes/assumptions/90.md): by mantissa and exponent. -/
opaque blockElem : Int → Int → BitVec 16

/-- Whether the receiver of a block packet has a place for it, or answers RETRY (R457, notes/assumptions/95.md): by attempt. -/
opaque reserved : Nat → Bool

/-- What a session's opening agreed with a partition's tenant (R445, notes/assumptions/12.md). -/
opaque sessionSecret : Nat → List (BitVec 8)

/-- The bytes of the identity key's signature over a header (R443, notes/assumptions/12.md). -/
opaque signatureByte : List (BitVec 8) → Nat → BitVec 8

end Sys2Proof.Config
end

