-- ==== Sys2Proof/Machine/Flags.lean ====
section
/-! DEFINITION. The floating-point flags, the enables and the landing of late writes (R48, R60, R63, R142, R143). -/

namespace Sys2Proof.Machine

open Sys2Proof

/-- The five flags as st holds them (R60, R142). -/
structure Flags where
  nv : Bool
  dz : Bool
  of : Bool
  uf : Bool
  nx : Bool
  deriving DecidableEq, Repr

def Flags.none : Flags := ⟨false, false, false, false, false⟩

def Flags.or (a b : Flags) : Flags := ⟨a.nv || b.nv, a.dz || b.dz, a.of || b.of, a.uf || b.uf, a.nx || b.nx⟩

/-- Bit 4 NV, 3 DZ, 2 OF, 1 UF, 0 NX. -/
def Flags.bits (f : Flags) : BitVec 5 :=
  BitVec.ofNat 5 (16 * f.nv.toNat + 8 * f.dz.toNat + 4 * f.of.toNat + 2 * f.uf.toNat + f.nx.toNat)

/-- Fields of a status word (R60). -/
def stEnables (st : Word) : BitVec 5 := st.extractLsb' 5 5
def stRM (st : Word) : Nat := (st.extractLsb' 10 3).toNat
def stSR (st : Word) : Bool := st.getLsbD 13
def stSeed (st : Word) : BitVec 32 := st.extractLsb' 32 32

/-- The status word with another seed. -/
def stWithSeed (st : Word) (seed : BitVec 32) : Word := seed ++ st.extractLsb' 0 32

/-- An enabled flag raised: the first event keeps the word and the address of its instruction (R143, R144). -/
def Core.noteEvent (c : Core) (en : BitVec 5) (lab : Label) (word : Nat) (pcAt : Word) : Core :=
  if en = 0 then c
  else
    match c.fpEvent with
    | none => { c with fpEvent := some ⟨en, word, pcAt, lab⟩ }
    | some e => { c with fpEvent := some { e with raised := e.raised ||| en } }

/-- Flags raised by OR into the status word at an entry, whose label rises (R142), with the enabled event they make
(R143). -/
def Core.raiseAt (c : Core) (e : Nat) (fl : BitVec 5) (lab : Label) (word : Nat) (pcAt : Word) : Core :=
  if fl = 0 then c
  else
    let old := c.ent e
    let new : LVal := ⟨old.v ||| fl.setWidth 64, Label.max old.l lab⟩
    (((c.putEnt e new).noteVal new).noteEntry e).noteEvent (fl &&& stEnables old.v) lab word pcAt

/-- The address of the instruction that issues: after its RPT word, in a repetition (R144, R170). -/
def Core.issuePc (c : Core) : Word := if c.rep.isSome then c.pc + 4 else c.pc

/-- Flags raised by the instruction that issues, in its own status word (R142). -/
def Core.raise (c : Core) (fl : BitVec 5) (lab : Label) : Core := c.raiseAt c.lo fl lab c.word c.issuePc

/-- One place of a late write lands (R63). -/
def Core.landOne (c : Core) (w : TWrite) : Core :=
  match w.tgt with
  | .pair e => c.putPair e (Cap.ofWords w.lo w.hi w.tag) w.lab
  | .half e true => c.putEnt e ⟨w.hi, w.lab⟩
  | t => c.setTgt t ⟨w.lo, w.lab⟩

/-- The bytes that a late write gives to the fingerprint stream, whether its place is written or void (R290). -/
def TWrite.stream (w : TWrite) : List Byte :=
  if w.tgt.gone = .nowherePair then LVal.stream ⟨w.lo, w.lab⟩ ++ LVal.stream ⟨w.hi, w.lab⟩ else LVal.stream ⟨w.lo, w.lab⟩

/-- Bytes put where a late write has its place in the stream (R290). -/
def Core.fillStream (c : Core) (id : Nat) (bs : List Byte) : Core :=
  match c.interval with
  | none => c
  | some v =>
    { c with interval := some { v with stream := v.stream.map (fun x => if x = .late id then .bytes bs else x) } }

/-- Flags raised in the status word at an entry (R142), and the entry's value then. -/
def Core.orFlags (c : Core) (e : Nat) (fl : BitVec 5) (lab : Label) : LVal :=
  ⟨(c.ent e).v ||| fl.setWidth 64, Label.max (c.ent e).l lab⟩

/-- The flags of a late write are raised; the status word that they make stands in the stream with its values (R142, R290). -/
def Core.landFlags (c : Core) (p : Pending) : Core :=
  let bs := p.writes.flatMap TWrite.stream
  if p.flags = 0 then c.fillStream p.id bs
  else
    let new := c.orFlags p.flagsLo p.flags p.flagsLab
    ((c.putEnt p.flagsLo new).fillStream p.id (bs ++ new.stream)).noteEvent
      (p.flags &&& stEnables (c.ent p.flagsLo).v) p.flagsLab p.word p.pcAt

/-- The pending writes without one of them. -/
def Core.forget (c : Core) (id : Nat) : Core :=
  { c with
    pending := c.pending.filter (fun x => decide (x.id ≠ id))
    xwait := c.xwait.filter (fun x => decide (x.id ≠ id)) }

/-- A pending write lands: every place of it, then its flags (R48, R142). -/
def Core.land (c : Core) (p : Pending) : Core := (p.writes.foldl Core.landOne (c.forget p.id)).landFlags p

/-- One place of a pending write lands, by its number: each entry lands on its own (R49, R181), unless its places land together
(R219); with the last one that is left its flags are raised.  A number that no place has lands them all. -/
def Core.landPlace (c : Core) (p : Pending) (k : Nat) : Core :=
  match (if p.joint then none else p.writes[k]?) with
  | none => c.land p
  | some w =>
    let q := { p with writes := p.writes.set k { w with tgt := w.tgt.gone } }
    let c1 := c.landOne w
    if q.writes.any (fun x => x.tgt.real) then
      { c1 with pending := c1.pending.map (fun x => if x.id = p.id then q else x) }
    else (c1.forget p.id).landFlags q

/-- Every pending write that has all its parts lands, in issue order. -/
def Core.landReady (c : Core) : Core :=
  (c.pending.filter (fun p => decide (p.left = 0) && !p.xmax)).foldl Core.land c

/-- A late write issued (R48): its places are fixed now, and earlier late writes to them are void.  `left` parts of it come
from ports. -/
def Core.later (c : Core) (ws : List TWrite) (fl : BitVec 5) (fll : Label) (left : Nat) (acq : Bool) : Core :=
  let c1 := ws.foldl (fun c w => c.cancel w.tgt) c
  { ((c1.note (.late c.nextId)).noteEntries
      (ws.flatMap (fun w => w.tgt.entries) ++ (if fl = 0 then [] else [c.lo]))) with
    pending := c1.pending ++ [⟨c.nextId, ws, fl, c.lo, fll, c.word, c.issuePc, left, acq, false, false, false⟩]
    nextId := c.nextId + 1 }

/-- The places of the late write just issued land together (R200, R219, R329, R357). -/
def Core.joinPlaces (id : Nat) (c : Core) : Core :=
  { c with pending := c.pending.map (fun p => if p.id = id then { p with joint := true } else p) }

/-- The place of a late 64-bit write; `zr` has none. -/
def Core.latePlace (c : Core) (n : Name) (v : LVal) : List TWrite :=
  match c.place n with
  | some t => [⟨t, v.v, 0, false, v.l⟩]
  | none => []

/-- A late scalar result that goes to q as well (R149, R157). -/
def Core.lateQ (c : Core) (n : Name) (v : LVal) : List TWrite :=
  match n with
  | .zr => []
  | .q => c.latePlace .q v
  | n => c.latePlace n v ++ c.latePlace .q v

/-- Whether a pending write still has a place to land in, or flags. -/
def Pending.live (p : Pending) : Bool := p.writes.any (fun w => w.tgt.real) || decide (p.flags ≠ 0)

/-- Whether something of a pending write is still to be done: a place or flags, or an access that a port has not performed,
though its value is no longer wanted (R47, R50). -/
def Pending.open (p : Pending) : Bool := p.live || decide (p.left ≠ 0) || p.xmax

/-- Whether a pending write lands in entries of [lo, top), in o0 to o7 or in q (R47). -/
def Pending.within (lo top : Nat) (p : Pending) : Bool :=
  p.writes.any (fun w =>
    match w.tgt with
    | .o i => decide (i < 8)
    | .q => true
    | t => t.entries.any (fun e => decide (lo ≤ e ∧ e < top))) ||
  (decide (p.flags ≠ 0) && decide (lo ≤ p.flagsLo ∧ p.flagsLo < top))

/-- Whether a marker may let the next instruction issue (R47). -/
def Core.markerReady (c : Core) : Bool :=
  !(c.pending.any (Pending.within c.lo c.top)) && !(c.unacked.any (fun u => decide (u.lo = c.lo ∧ u.top = c.top)))

/-- Whether everything the core has issued has landed, is performed and is acknowledged (R50), and no acquire of its waits for card
writes (R483). -/
def Core.quiet (c : Core) : Bool := !(c.pending.any Pending.open) && c.unacked.isEmpty && c.drain.all (fun d => decide (d.2 = 0))

end Sys2Proof.Machine
end

