-- ==== Sys2Proof/Machine/Memory.lean ====
section
/-! DEFINITION. Cores by number, bytes, line labels and granule tags by physical address, and the windows through which
cores reach local stores (R8 to R11, R92, R201 to R205). -/

namespace Sys2Proof.Machine

open Sys2Proof

/-- The core of a physical id. -/
def State.coreAt (s : State) (p : Nat) : Core := if p = s.core.phys then s.core else s.others.look Core.reset p

/-- The core of a physical id replaced. -/
def State.setCoreAt (s : State) (p : Nat) (c : Core) : State :=
  if p = s.core.phys then { s with core := c } else { s with others := s.others.put Core.reset p c }

/-- The core of a physical id changed. -/
def State.onCore (s : State) (p : Nat) (f : Core → Core) : State := s.setCoreAt p (f (s.coreAt p))

/-- The state with another core's turn. -/
def State.focus (s : State) (p : Nat) : State :=
  if p = s.core.phys then s
  else { s with core := s.coreAt p, others := (s.others.put Core.reset s.core.phys s.core).drop p }

/-- First physical address of a core's local store; gateway cores' stores stand at addresses of the model's own (R11,
notes/assumptions/7.md). -/
def lsBase (p : Nat) : Nat := if isGateway p then 0x800000000000 + p * 0x80000 else 0x010000000000 + p * 0x80000

/-- The canonical form of memory: addresses rising, no listed byte that reads as an unlisted one does. -/
def Memory.wf (m : SMap (BitVec 8)) : Bool := SMap.wf (fun _ => 0) m

/-- The byte at a physical address. -/
def State.byteAt (s : State) (a : Nat) : Byte := s.mem.look (fun _ => 0) a

/-- `n` bytes from a physical address up, and the number they say, little-endian. -/
def State.bytesAt (s : State) (a n : Nat) : List Byte := s.mem.lookList (fun _ => 0) a n
def State.numAt (s : State) (a n : Nat) : Nat := ofBytes (s.bytesAt a n)

/-- A line's label by its physical address (R202), a granule's tag (R92). -/
def State.labelAt (s : State) (a : Nat) : Label := s.labels.look (fun _ => 0) (a / 64)
def State.memTagAt (s : State) (a : Nat) : Bool := s.tags.look (fun _ => false) (a / 16)

/-- The units of `g` bytes that [a, a + n) meets. -/
def unitsOf (g a n : Nat) : List Nat := if n = 0 then [] else (List.range ((a + n - 1) / g - a / g + 1)).map (a / g + ·)

/-- The highest label of the lines that [a, a + n) meets (R202). -/
def State.labelOver (s : State) (a n : Nat) : Label :=
  Label.maxOf ((unitsOf 64 a n).map (fun k => s.labels.look (fun _ => 0) k))

/-- Bytes written, and nothing else. -/
def State.putBytes (s : State) (a : Nat) (bs : List Byte) : State :=
  { s with mem := s.mem.putList (fun _ => 0) a bs }

/-- The lines that [a, a + n) meets raised to a label (R202). -/
def State.raiseLabel (s : State) (a n : Nat) (l : Label) : State :=
  { s with
    labels := (unitsOf 64 a n).foldl (fun m k => m.put (fun _ => 0) k (Label.max (m.look (fun _ => 0) k) l)) s.labels }

/-- The tags of the granules that [a, a + n) meets cleared (R92). -/
def State.clearTags (s : State) (a n : Nat) : State :=
  { s with tags := (unitsOf 16 a n).foldl (fun m k => m.put (fun _ => false) k false) s.tags }

/-- A store of data with a label (R92, R202). -/
def State.store (s : State) (a : Nat) (bs : List Byte) (l : Label) : State :=
  ((s.putBytes a bs).raiseLabel a bs.length l).clearTags a bs.length

/-- A granule written whole with its tag (R92, R94). -/
def State.putGranule (s : State) (a : Nat) (k : Cap) (l : Label) : State :=
  let t := (s.putBytes a (bytesOf 8 k.addr.toNat ++ bytesOf 8 k.hi.toNat)).raiseLabel a 16 l
  { t with tags := t.tags.put (fun _ => false) (a / 16) k.tag }

/-- Granule tags set, for granules from a 16-aligned address up (R93). -/
def State.setTags (s : State) (a : Nat) (ts : List Bool) : State :=
  { s with tags := ts.zipIdx.foldl (fun m x => m.put (fun _ => false) (a / 16 + x.2) x.1) s.tags }

/-- The capability of a granule (R86, R94). -/
def State.granule (s : State) (a : Nat) : Cap :=
  Cap.ofWords (BitVec.ofNat 64 (s.numAt a 8)) (BitVec.ofNat 64 (s.numAt (a + 8) 8)) (s.memTagAt a)

/-- The lines of [a, a + n) set to a label, whatever they held (R212, R442). -/
def State.setLabels (s : State) (a n : Nat) (l : Label) : State :=
  { s with labels := (unitsOf 64 a n).foldl (fun m k => m.put (fun _ => 0) k l) s.labels }

/-- [a, a + n), aligned to lines, as after a wake: zero bytes, label 0, tags clear (R212). -/
def State.zeroRange (s : State) (a n : Nat) : State :=
  { s with
    mem := s.mem.clearRange a (a + n)
    labels := s.labels.clearRange (a / 64) ((a + n) / 64)
    tags := s.tags.clearRange (a / 16) ((a + n) / 16) }

/-- Keys of a map in [lo, lo + n) moved to stand from `dst` up, replacing what stood there. -/
def SMap.copyRange {β : Type} (m : SMap β) (lo n dst : Nat) : SMap β :=
  (m.range lo (lo + n)).foldl (fun acc e => acc.list (dst + (e.1 - lo)) e.2) (m.clearRange dst (dst + n))

/-- [a, a + n), aligned to lines, copied to `b` with labels and tags. -/
def State.copyRange (s : State) (a n b : Nat) : State :=
  { s with
    mem := s.mem.copyRange a n b
    labels := s.labels.copyRange (a / 64) (n / 64) (b / 64)
    tags := s.tags.copyRange (a / 16) (n / 16) (b / 16) }

/-- sy.pbase and sy.plen of a core (R431): 0 for a core of no partition. -/
def State.partOf (s : State) (c : Core) : Part := (s.parts.listed c.part).getD Part.free

/-- The role that the boot mask sets a core aside for (R468). -/
def State.roleOf (s : State) (p : Nat) : Option CoreRole :=
  match s.mask with
  | none => defaultRole p
  | some m => m.listed p

/-- The cores of a role on a die, in chip order where the mask is the default one (R468). -/
def State.roleCores (s : State) (r : CoreRole) (die : Nat) : List Nat :=
  match s.mask with
  | some m => (m.filter (fun e => decide (e.2 = r ∧ dieOf e.1 = die) && !isGateway e.1)).map (fun e => e.1)
  | none =>
    let at_ := fun (xs : List Nat) (pos : Nat) => xs.map (fun k => tileCore (lastTile (16 * chipOrderPos die + k)) pos)
    match r with
    | .root => at_ [15] 10
    | .loupe => at_ (List.range 16) 12
    | .server => at_ (List.range 8) 11
    | .spare => at_ ((List.range 8).map (fun k => 8 + k)) 11

def State.isLoupe (s : State) (p : Nat) : Bool := decide (s.roleOf p = some .loupe)
def State.isServer (s : State) (p : Nat) : Bool := decide (s.roleOf p = some .server)

/-- The core that a chip index reaches (R8, R472). -/
def State.physOfIndex (s : State) (i : Nat) : Nat := (s.remap.listed i).getD (physOfChip i)

/-- The chip index that a core answers to: the rank's it replaces, or its own (R8, R472). -/
def State.indexOf (s : State) (p : Nat) : Nat :=
  match s.remap.find? (fun e => decide (e.2 = p)) with
  | some e => e.1
  | none => chipIndex p

/-- The rank of a core in its partition (R8).  For a gateway core, which has no chip index, the number is the model's
(notes/assumptions/98.md). -/
def State.rankOf (s : State) (c : Core) : Nat := s.indexOf c.phys - (s.partOf c).base

/-- The core of a rank in a core's partition; none when the rank is not below sy.plen (R8, R10). -/
def State.ofRank (s : State) (c : Core) (r : Nat) : Option Nat :=
  if r < (s.partOf c).len then some (s.physOfIndex ((s.partOf c).base + r)) else none

/-- First addresses of the two windows, the size of a store, and the size of a rank's part of the remote window (R9). -/
def selfWindow : Nat := 0xFFF8000000000000
def remoteWindow : Nat := 0xFFF0000000000000
def lsSize : Nat := 0x60000
def rankSpan : Nat := 0x80000

/-- The size of a core's store: a gateway core has group 0 only (R463). -/
def storeSize (p : Nat) : Nat := if isGateway p then 0x20000 else lsSize

/-- The local store and offset that `n` bytes at a core address reach (R9, R10); none raises BOUNDS. -/
def State.reach (s : State) (c : Core) (x : Word) (n : Nat) : Option (Nat × Nat) :=
  let a := x.toNat
  if selfWindow ≤ a then
    if a - selfWindow + n ≤ storeSize c.phys then some (c.phys, a - selfWindow) else none
  else if remoteWindow ≤ a then
    let off := (a - remoteWindow) % rankSpan
    if off + n ≤ lsSize then (s.ofRank c ((a - remoteWindow) / rankSpan)).map (fun p => (p, off)) else none
  else none

/-- A core that stands for a partition's windows. -/
def partCore (part : Nat) : Core := { Core.reset 0 with part := part }

/-- Whether a core holds the context of another partition than the one that an access or a message is made for: its port
answers RETRY (R436). -/
def State.away (s : State) (part p : Nat) : Bool :=
  let c := s.coreAt p
  decide (part ≠ 0 ∧ c.part ≠ 0 ∧ c.part ≠ part ∧ c.cstate ≠ .killed)

/-- Whether an object cannot reach a record or an image in a core's store now: its port answers RETRY (R207, R339, R436). -/
def State.unreachable (s : State) (part p : Nat) : Bool := s.away part p || decide ((s.coreAt p).cstate = .evicted)

/-- The side-band record of a burst (R419, R424). -/
def State.burst (s : State) (pa : Nat) : Burst := s.bursts.look (fun _ => Burst.reset) (pa / 64)

def State.setBurst (s : State) (pa : Nat) (b : Burst) : State := { s with bursts := s.bursts.put (fun _ => Burst.reset) (pa / 64) b }

/-- A burst written whole: what was wrong with it is gone (R424). -/
def State.mendBurst (s : State) (pa : Nat) : State := s.setBurst pa { s.burst pa with poison := false, writer := (0, 0), written := 0 }

/-- A poisoned burst after a card's write of `n` of its bytes: the mark is gone when the card has written them all (R424). -/
def State.cardMends (s : State) (who : Nat × Nat) (pa n : Nat) : State :=
  let b := s.burst pa
  if !b.poison then s
  else
    let done := (if b.writer = who then b.written else 0) ||| ((2 ^ n - 1) * 2 ^ (pa % 64))
    if done % 2 ^ 64 = 2 ^ 64 - 1 then s.mendBurst pa else s.setBurst pa { b with writer := who, written := done % 2 ^ 64 }

/-- The core whose local store holds a physical address. -/
def ownerOf (a : Nat) : Nat := if 0x800000000000 ≤ a then (a - 0x800000000000) / 0x80000 else (a - 0x10000000000) / 0x80000

/-- The running sweep of a core's partition (R102). -/
def State.sweepOf (s : State) (c : Core) : Option Sweep := s.sweeps.listed c.part

/-- Whether a base address lies in a granule that a sweep has marked (R101). -/
def Sweep.marked (w : Sweep) (base : Int) : Bool :=
  let i := (base.toNat - w.cvbase) / 256
  decide ((w.cvbase : Int) ≤ base ∧ base < w.cvbase + w.cvlen) && (w.marks.look (fun _ => 0) (i / 8)).getLsbD (i % 8)

/-- A capability as loads and stores of it during a sweep deliver it: with tag 0 when its base is marked (R103). -/
def State.sweptCap (s : State) (c : Core) (k : Cap) : Cap :=
  match s.sweepOf c with
  | some w => if w.marked k.base then { k with tag := false } else k
  | none => k

end Sys2Proof.Machine
end

