-- ==== Sys2Proof/Machine/Domain.lean ====
section
/-! DEFINITION. Scopes: the parties of the package and the domain of each scope around one (R333), and the clusters' inbound card
buffers (R483). -/

namespace Sys2Proof.Machine

open Sys2Proof

/-- A party of R333: a core, a tile's engines working for a partition, a die's dispatcher, its queue engine, a prism chain, a queue,
a barrier or semaphore, a partition's tables, the IOD, the wait-and-wake table, the host's processors and functions for a partition,
another package. -/
inductive Party where
  | core (p : Nat)
  | engine (t part : Nat)
  | dispatcher (d : Nat)
  | queueEngine (d : Nat)
  | chain (n : Nat)
  | queue (n : Nat)
  | object (a part : Nat)
  | tables (part : Nat)
  | iod
  | waitTable
  | host (part : Nat)
  | package (n : Nat)
  deriving DecidableEq, Repr

/-- The tile that a party stands in; only cores and engines stand in one, and no gateway core. -/
def Party.tile : Party → Option Nat
  | .core p => if isGateway p then none else some (tileOf p)
  | .engine t _ => some t
  | _ => none

/-- The die of a party, by its place in chip order: of a core or engine, a dispatcher, a queue engine or a prism chain (R333). -/
def Party.die (x : Party) : Option Nat :=
  match x with
  | .dispatcher d => some (chipOrderPos d)
  | .queueEngine d => some (chipOrderPos d)
  | .chain n => some (chipOrderPos (n / 16))
  | _ => x.tile.map (fun t => chipOrderPos (tileDie t))

/-- Whether two parties stand in one tile, or in one group of `k` tiles. -/
def Party.share (k : Nat) (a b : Party) : Bool :=
  match a.tile, b.tile with
  | some x, some y => decide (x / k = y / k)
  | _, _ => false

/-- Whether two parties stand in one die. -/
def Party.shareDie (a b : Party) : Bool :=
  match a.die, b.die with
  | some x, some y => decide (x = y)
  | _, _ => false

/-- Whether a party is of the package itself. -/
def Party.inside : Party → Bool
  | .host _ => false
  | .package _ => false
  | _ => true

/-- The partition that a party is placed in, or belongs to; none for the package's own parties. -/
def State.partyPart (s : State) : Party → Option Nat
  | .core p => some (s.coreAt p).part
  | .engine _ n => some n
  | .queue n => some (s.queues.look (fun _ => Queue.reset) n).part
  | .object _ n => some n
  | .tables n => some n
  | .host n => some n
  | _ => none

/-- Whether a core is of the gang that another one is fused in. -/
def Core.gangsWith (c : Core) (q : Nat) : Bool :=
  c.gang.fused && !isGateway q && decide (tileOf q = tileOf c.phys) && c.gang.members.getLsbD (tilePos q)

/-- Whether a party lies in the domain of a scope around a party (R333). -/
def State.inDomain (s : State) (sc : Scope) (a b : Party) : Bool :=
  match sc with
  | .core =>
    match a with
    | .engine _ _ => a.share 1 b
    | _ => decide (a = b)
  | .gang =>
    match a, b with
    | .engine _ _, _ => a.share 1 b
    | .core p, .core q => decide (p = q) || (s.coreAt p).gangsWith q
    | _, _ => decide (a = b)
  | .tile => decide (a = b) || a.share 1 b
  | .clus => decide (a = b) || a.share 4 b
  | .die => decide (a = b) || a.shareDie b
  | .part => decide (a = b) || (a.inside && b.inside && (s.partyPart a).isSome && decide (s.partyPart a = s.partyPart b))
  | .pkg => decide (a = b) || (a.inside && b.inside)
  | .sys =>
    match a, b with
    | .package n, _ => decide (b = .package n)
    | _, .package _ => false
    | _, _ => true
  | .fab => true

/-- Whether a card is a matrix card. -/
def CardKind.isMatrix : CardKind → Bool
  | .cpy => false | .cpym => false | .conv => false | _ => true

/-- Whether a matrix card of a tile has started and not ended (R242). -/
def Tile.matrixRuns (x : Tile) : Bool := x.cards.any (fun e => e.2.kind.isMatrix && decide (e.2.state = .running))

/-- Whether a core is the arithmetic core of a tile whose matrix engine has started cards (R242). -/
def State.matrixHolds (s : State) (p : Nat) : Bool :=
  atPos 15 p && Tile.matrixRuns (s.tiles.look (fun _ => Tile.reset) (tileOf p))

/-- The scope of a code; codes above 8 are not scopes. -/
def scopeOf (n : Nat) : Scope := [Scope.core, .gang, .tile, .clus, .die, .part, .pkg, .sys, .fab].getD n .fab

/-- Whether an acquire at a scope waits for its cluster's inbound card buffer (R483). -/
def isWide (sc : Scope) : Bool := decide (3 ≤ sc.code)

/-- The key of a core's cluster in the card buffers; the gateway cores' own is 128. -/
def bufKey (p : Nat) : Nat := if isGateway p then 128 else clusterOf p

/-- A cluster's inbound card buffer (R483). -/
def State.bufAt (s : State) (k : Nat) : List FarWrite := SMap.look (fun _ => []) s.cardbuf k
def State.setBuf (s : State) (k : Nat) (ws : List FarWrite) : State :=
  { s with cardbuf := s.cardbuf.put (fun _ => []) k ws }

/-- Whether a card's write goes through a buffer: its store lies outside the issuing cluster (R334). -/
def isFar (t p : Nat) : Bool := decide (bufKey p ≠ t / 4)

/-- Whether the card buffers hold a write of a card that its completion at a scope waits for (R483). -/
def State.farWaits (s : State) (t card part : Nat) (sc : Scope) : Bool :=
  s.cardbuf.any (fun e => e.2.any (fun w => decide (w.tile = t ∧ w.card = card) &&
    s.inDomain sc (.engine t part) (.core w.store)))

/-- Whether the card buffers hold a write of a tile's cards, or of a partition's. -/
def State.farFrom (s : State) (t : Nat) : Bool := s.cardbuf.any (fun e => e.2.any (fun w => decide (w.tile = t)))
def State.farOf (s : State) (part : Nat) : Bool := s.cardbuf.any (fun e => e.2.any (fun w => decide (w.part = part)))

def State.farHere (s : State) (t part : Nat) : Bool := s.cardbuf.any (fun e => e.2.any (fun w => decide (w.tile = t ∧ w.part = part)))

/-- Whether the card of a buffered write has ended. -/
def State.farOver (s : State) (w : FarWrite) : Bool :=
  !((s.tiles.look (fun _ => Tile.reset) w.tile).cards.any (fun e => decide (e.2.seq = w.card ∧ e.2.state ≠ .ended)))

/-- Whether a buffered write is one that a core of its domain has to see: its card has ended (R334). -/
def State.farSeen (s : State) (p : Nat) (w : FarWrite) : Bool := s.farOver w && s.inDomain w.scope (.engine w.tile w.part) (.core p)

end Sys2Proof.Machine
end

