-- ==== Sys2Proof/Machine/Port.lean ====
section
/-! DEFINITION. Memory ports, inboxes and signals: how an access, a message or a SEV has its effect and is acknowledged
(R201 to R212, R289, R292, R313, R324, R331, R471). -/

namespace Sys2Proof.Machine

open Sys2Proof

/-- Whether cores wait for their events, or land and acknowledge at once, is `hold` (notes/assumptions/8.md). -/
def Core.dropAcked (hold : Bool) (c : Core) : Core :=
  if hold then c else { c with unacked := c.unacked.filter (fun u => decide (0 < u.left)) }

/-- One part of a store, atomic or message is performed (R207). -/
def Core.partDone (hold : Bool) (id : Nat) (c : Core) : Core :=
  Core.dropAcked hold { c with unacked := c.unacked.map (fun u => if u.id = id then { u with left := u.left - 1 } else u) }

/-- A part of a late write, when it is the one of a number. -/
def Pending.part (id : Nat) (f : Bool → Pending → Pending) (p : Pending) : Pending :=
  if p.id = id then { f (decide (p.left ≤ 1)) p with left := p.left - 1 } else p

/-- A part of a late write has its value (R48); a mirror core keeps the value with what its interval has done (R322). -/
def Core.fill (id : Nat) (f : Bool → Pending → Pending) (c : Core) : Core :=
  { c with
    pending := c.pending.map (Pending.part id f)
    replay := c.replay.map (Pending.part id f)
    interval := c.interval.map (fun v => { v with done := v.done.map (Pending.part id f) }) }

/-- A part of a result that the odd core of a pair waits for has its value (R214). -/
def Core.fillGift (id : Nat) (f : Bool → Pending → Pending) (c : Core) : Core :=
  { c with gifts := c.gifts.map (Pending.part id f) }

/-- A signed value of `n` bytes as a 64-bit word. -/
def sextBytes (n v : Nat) : Word := (BitVec.ofNat (8 * n) v).signExtend 64

/-- The `i`-th element of a list changed. -/
def onNth {α : Type} (f : α → α) : Nat → List α → List α
  | _, [] => []
  | 0, x :: xs => f x :: xs
  | i + 1, x :: xs => x :: onNth f i xs

/-- Loaded bytes laid into their place of a pending write, whose first four places take the line's label; the last part is
extended (R215, R217, R218). -/
def Pending.load (slot pos total : Nat) (signed : Bool) (v : Nat) (l : Label) (last : Bool) (p : Pending) : Pending :=
  let place := fun w : TWrite =>
    let raw := w.lo ||| BitVec.ofNat 64 (v * 256 ^ pos)
    { w with lo := if last && signed && decide (total < 8) then sextBytes total (raw.toNat % 256 ^ total) else raw }
  let ws := onNth place slot p.writes
  { p with writes := (ws.take 4).map (fun w => { w with lab := Label.max w.lab l }) ++ ws.drop 4 }

/-- A loaded capability laid into its place (R216, R223). -/
def Pending.loadCap (k : Cap) (l : Label) (_ : Bool) (p : Pending) : Pending :=
  { p with writes := onNth (fun w => { w with lo := k.addr, hi := k.hi, tag := k.tag, lab := l }) 0 p.writes }

/-- Whether a core runs in a mirror pair (R287). -/
def Core.paired (c : Core) : Bool :=
  match c.pair.pstate with
  | .running => true
  | .comparing => true
  | .rollback => true
  | _ => false

/-- Groups that [off, off + n) of a local store meets (R201). -/
def groupsOf (off n : Nat) : List Nat := unitsOf 0x20000 off n

def Core.groupSt (c : Core) (g : Nat) : GroupSt := if g = 1 then c.g1 else if g = 2 then c.g2 else .awake

def Core.setGroup (c : Core) (g : Nat) (x : GroupSt) : Core :=
  if g = 1 then { c with g1 := x } else if g = 2 then { c with g2 := x } else c

/-- A sleeping group that an access meets starts to wake (R210, R211). -/
def Core.wake (c : Core) (g : Nat) : Core := if c.groupSt g = .sleeping then c.setGroup g .waking else c

def AccOp.bytes : AccOp → Nat
  | .load _ _ n _ _ => n
  | .store data _ _ => data.length
  | .loadCap _ => 16
  | .storeCap _ _ => 16
  | .amo _ n _ _ _ => n
  | .amoCap _ _ _ _ => 16
  | .ticket n => n

/-- Whether an access writes. -/
def AccOp.writes : AccOp → Bool
  | .load _ _ _ _ _ => false
  | .loadCap _ => false
  | _ => true

/-- Whether a port cannot perform an access now: its group is not awake (R211), its core is evicted (R207), or its store
is being copied to a mirror core (R288). -/
def Core.blocks (c : Core) (src off n : Nat) : Bool :=
  decide (c.cstate ≠ .killed) &&
    ((groupsOf off n).any (fun g => decide (c.groupSt g ≠ .awake)) || decide (c.cstate = .evicted) ||
      (decide (c.pair.pstate = .copying) && decide (src ≠ c.phys)))

/-- The stores whose bytes a write from `src` to `o` changes: a write from outside a running pair goes to both (R289). -/
def State.copiesOf (s : State) (o src : Nat) : List Nat :=
  if (s.coreAt o).paired ∧ src ≠ o ∧ src ≠ mateOf o then [o, mateOf o] else [o]

/-- Whether a port cannot perform an access now, or for a write the port of one of its copies (R211, R289). -/
def State.copyBlocks (s : State) (o src off n : Nat) (write : Bool) : Bool :=
  (if write then s.copiesOf o src else [o]).any (fun p => (s.coreAt p).blocks src off n)

/-- The groups that an access meets start to wake, for a write in every copy (R210, R211, R289). -/
def State.copyWake (s : State) (o src off n : Nat) (write : Bool) : State :=
  (if write then s.copiesOf o src else [o]).foldl (fun t p => t.onCore p (fun c => (groupsOf off n).foldl Core.wake c)) s

/-- Whether a port cannot perform an access of a partition now; and the wakes that the access causes there (R211, R436). -/
def State.portBlocks (s : State) (part o src off n : Nat) (write : Bool := true) : Bool :=
  s.copyBlocks o src off n write || s.away part o
def State.portWake (s : State) (part o src off n : Nat) (write : Bool := true) : State :=
  if s.away part o then s else s.copyWake o src off n write

/-- The address of the trace descriptor and what it holds (R209). -/
def traceOff : Nat := 0x5FFC0
def State.traceLen (s : State) (p : Nat) : Nat :=
  let n := s.numAt (lsBase p + traceOff) 4
  if n ≤ 4096 then n else 0

/-- floor of log2: SIZE of a part of 3, 5, 6 or 7 bytes too (R209, notes/assumptions/17.md). -/
def log2 (n : Nat) : Nat := Nat.log2 n

/-- One trace entry (R209), when tracing is on: `kind` 0 store, 1 atomic, 2 STC, 3 AMOCASC. -/
def State.trace (s : State) (o src off kind size len : Nat) : State :=
  if len = 0 then s
  else
    let base := lsBase o
    let head := s.numAt (base + traceOff + 4) 4 % len
    let c := s.coreAt o
    let entry := (s.rankOf (s.coreAt src) % 0x2000) * 2 ^ 48 + kind * 2 ^ 40 + size * 2 ^ 32
    let bs := bytesOf 8 entry ++ bytesOf 4 (off % 2 ^ 19) ++ bytesOf 4 c.traceSeq
    let at_ := base + traceOff - 16 * len + 16 * head
    let s1 := (s.putBytes at_ bs).clearTags at_ 16
    let s2 := (s1.setLabels at_ 16 0).putBytes (base + traceOff + 4) (bytesOf 4 ((head + 1) % len))
    s2.setCoreAt o { c with traceSeq := (c.traceSeq + 1) % 2 ^ 32 }

/-- A write to a port's descriptor line sets TRLEN: arrival numbers count from there (R209). -/
def State.retrace (s : State) (o off n : Nat) : State :=
  if traceOff < off + n ∧ off < traceOff + 4 then s.onCore o (fun c => { c with traceSeq := 0 }) else s

/-- What a mirror core must undo of its own write (R292): the aligned 8-byte parts that it meets. -/
def State.undoOf (s : State) (o off n : Nat) : UndoWrite where
  off := off / 8 * 8
  bytes := s.bytesAt (lsBase o + off / 8 * 8) ((off + n + 7) / 8 * 8 - off / 8 * 8)
  labels := (unitsOf 64 off n).map (fun k => (k, s.labels.look (fun _ => 0) (lsBase o / 64 + k)))
  tags := (unitsOf 16 off n).map (fun k => (k, s.tags.look (fun _ => false) (lsBase o / 16 + k)))

/-- A mirror core's own local-store write is logged (R214, R292). -/
def State.logUndo (s : State) (o src off n : Nat) : State :=
  if src ≠ o then s
  else
    match (s.coreAt o).interval with
    | none => s
    | some v => s.setCoreAt o { s.coreAt o with interval := some { v with undo := s.undoOf o off n :: v.undo } }

/-- A write performed at one port: its effect, a reread of the descriptor, an entry of the trace ring (R206, R209). -/
def State.writeAt (s : State) (p src off n kind : Nat) (log : Option Nat) (f : Nat → State → State) : State :=
  let s1 := (f (lsBase p + off) s).retrace p off n
  match log with
  | some size => s1.trace p src off kind size (s.traceLen p)
  | none => s1

/-- A write at a port: undo log, and the write at the port of every copy (R206, R289, R292). -/
def State.portWrite (s : State) (o src off n kind : Nat) (log : Option Nat) (f : Nat → State → State) : State :=
  (s.copiesOf o src).foldl (fun t p => t.writeAt p src off n kind log f) (s.logUndo o src off n)

/-- The new value of an atomic (R222). -/
def AmoOp.apply (op : AmoOp) (n old y expect : Nat) : Nat :=
  let m := 256 ^ n
  let sg := fun v : Nat => if v < m / 2 then (v : Int) else (v : Int) - m
  match op with
  | .add => (old + y) % m
  | .and => old &&& y
  | .or => old ||| y
  | .xor => old ^^^ y
  | .min => if sg y < sg old then y else old
  | .max => if sg old < sg y then y else old
  | .minz => if y < old then y else old
  | .maxz => if old < y then y else old
  | .swap => y
  | .cas => if old = expect then y else old

/-- An ERROR message (R471, R476). -/
def errorMsg (rank phys cause : Nat) (addr val : Word) : InMsg where
  kind := .error
  words := [BitVec.ofNat 64 (rank % 2 ^ 16 + phys * 2 ^ 16 + cause * 2 ^ 32), addr, val, 0]
  lab := 0
  src := rank

/-- Cores that a message to `p` enters: both of a pair (R313). -/
def State.inboxesOf (s : State) (p : Nat) : List Nat := if (s.coreAt p).paired then [p, mateOf p] else [p]

/-- A message put into an inbox, with sy.evt bit INBOX (R301, R313). -/
def Core.takeMsg (m : InMsg) (c : Core) : Core := { c with inbox := c.inbox ++ [m], evt := c.evt ||| 0x10000#32 }


/-- An acknowledgement for a sender (R207). -/
def State.ack (s : State) (who : Option (Nat × Nat)) : State :=
  match who with
  | some (p, id) => s.onCore p (Core.partDone s.hold id)
  | none => s

/-- Whether a message is the reply a core waits for (R314): kind MSG, from the core that sy.fpsup names. -/
def Core.isReply (c : Core) (m : InMsg) : Bool :=
  c.fpWait.isSome && decide (m.kind = .msg) && decide (BitVec.ofNat 64 m.src = c.fpsup)

/-- Whether a message cannot enter now: the core is evicted or being copied to, or its inbox is full, where a reply that the
core waits for passes by the inbox (R313, R314, R339). -/
def Core.refusesMsg (c : Core) (m : InMsg) : Bool :=
  decide (c.cstate = .evicted) || decide (c.pair.pstate = .copying) ||
    (if c.isReply m then c.fpReply.isSome else decide (64 ≤ c.inbox.length))

/-- A message put on its way without more ado; it enters at its event (R313). -/
def State.addFlight (s : State) (f : Flight) : State := { s with flights := s.flights ++ [f] }

/-- A message meets its destination, which can take it: a killed core discards it and answers its sender with one ERROR
message (R313, R314, R471). -/
def State.enterMsg (s : State) (f : Flight) : State :=
  let c := s.coreAt f.dst
  if c.cstate = .killed then
    match f.sender with
    | none => s
    | some (p, id) =>
      let s1 := s.ack (some (p, id))
      if (s.inboxesOf p).any c.told.contains then s1
      else
        (s1.setCoreAt f.dst { c with told := p :: c.told }).addFlight
          ⟨p, errorMsg (s.rankOf c) f.dst 0 0 0, none, 0⟩
  else if c.isReply f.msg then
    (s.inboxesOf f.dst).foldl (fun t p => t.onCore p (fun k => { k with fpReply := some f.msg })) (s.ack f.sender)
  else (s.inboxesOf f.dst).foldl (fun t p => t.onCore p (Core.takeMsg f.msg)) (s.ack f.sender)

/-- Whether a message cannot enter now: one for a core of a pair needs room in both inboxes (R313, R436). -/
def State.refuses (s : State) (f : Flight) : Bool :=
  (s.inboxesOf f.dst).any (fun p => (s.coreAt p).refusesMsg f.msg) || s.away f.part f.dst

/-- Whether a message stands behind another one on its way to its core: a reply that the core waits for passes those of other
senders (R313, R314). -/
def State.behind (s : State) (f : Flight) : Bool :=
  let reply := (s.coreAt f.dst).isReply f.msg
  s.flights.any (fun g => decide (g.dst = f.dst ∧ g.part = f.part) && (!reply || decide (g.msg.src = f.msg.src)))

/-- A message sent (R313): it enters at once unless it has to wait. -/
def State.sendMsg (s : State) (f : Flight) : State :=
  if s.hold || s.behind f || s.refuses f then s.addFlight f else s.enterMsg f

/-- One ERROR message for each killed core to each core whose access it answered, in whose mate's inbox it enters too when the core
runs in a pair (R313, R471). -/
def State.tell (s : State) (o src : Nat) (addr : Word) : State :=
  let c := s.coreAt o
  if (s.inboxesOf src).any c.told.contains ∨ coreCount ≤ src then s
  else (s.setCoreAt o { c with told := src :: c.told }).sendMsg ⟨src, errorMsg (s.rankOf c) o 0 addr 0, none, 0⟩

/-- An acquire at clus scope or wider whose load is performed waits for every write that its cluster's inbound card buffer
holds (R483). -/
def State.awaitBuf (s : State) (p id : Nat) : State :=
  let k := bufKey p
  let n := (s.bufAt k).length
  if n = 0 ∨ !((s.coreAt p).pending.any (fun w => decide (w.id = id) && w.wide)) then s
  else
    let more := fun w : Pending => if w.id = id then { w with left := w.left + n } else w
    (s.setBuf k ((s.bufAt k).map (fun w => { w with notify := w.notify ++ [(p, id)] }))).onCore p
      (fun c => { c with pending := c.pending.map more })

/-- A buffered write is performed: what waits for it waits for one less (R483). -/
def Core.bufDone (id : Nat) (c : Core) : Core :=
  { c.fill id (fun _ w => w) with
    drain := c.drain.map (fun d => if d.1 = id then (d.1, d.2 - 1) else d) }

/-- The result of an atomic goes to its core and, for a mirror pair, to the odd core as well (R214). -/
def State.give (s : State) (a : Access) (f : Bool → Pending → Pending) : State :=
  let s1 := s.onCore a.src (Core.fill a.id f)
  if (s.coreAt a.src).interval.isSome then s1.onCore (mateOf a.src) (Core.fillGift a.id f) else s1

/-- A killed core's port answers: reads give 0 with label 0, writes are discarded (R471). -/
def State.answerKilled (s : State) (o : Nat) (a : Access) : State :=
  let s1 :=
    match a.op with
    | .load slot pos _ total sg => s.onCore a.src (Core.fill a.id (Pending.load slot pos total sg 0 0))
    | .loadCap _ => s.onCore a.src (Core.fill a.id (Pending.loadCap Cap.null 0))
    | .store _ _ _ => s.onCore a.src (Core.partDone s.hold a.id)
    | .storeCap _ _ => s.onCore a.src (Core.partDone s.hold a.id)
    | .amo _ _ _ _ _ =>
      (s.give a (Pending.load 0 0 8 false 0 0)).onCore a.src (Core.partDone s.hold a.id)
    | .amoCap _ _ _ _ =>
      (s.give a (Pending.loadCap Cap.null 0)).onCore a.src (Core.partDone s.hold a.id)
    | .ticket _ => s
  (s1.awaitBuf a.src a.id).tell o a.src a.addr

/-- A capability with its tag kept or not (R96). -/
def Cap.keepTag (k : Cap) (keep : Bool) : Cap := { k with tag := k.tag && keep }

/-- The result of a 32-bit atomic extended to 64 bits: by zeros for MINZ and MAXZ, else by sign (R222). -/
def AmoOp.result (op : AmoOp) (n old : Nat) : Nat :=
  if op = .minz ∨ op = .maxz ∨ n = 8 then old else (sextBytes n old).toNat

/-- An atomic performed at a place (R222): each copy of it takes the new value of its own old one. -/
def State.amoAt (op : AmoOp) (n : Nat) (y e : Word) (lab : Label) (x : Nat) (s : State) : State :=
  s.store x (bytesOf n (op.apply n (s.numAt x n) (y.toNat % 256 ^ n) (e.toNat % 256 ^ n))) lab

/-- AMOCASC performed at a place (R223). -/
def State.casAt (c : Core) (expect new : Cap) (lab : Label) (x : Nat) (s : State) : State :=
  s.putGranule x (if s.granule x = expect then s.sweptCap c new else s.granule x) lab

/-- What a port does with an access (R206, R215 to R223). -/
def State.performOp (s : State) (o : Nat) (a : Access) : State :=
  let x := lsBase o + a.off
  match a.op with
  | .load slot pos n total sg =>
    s.onCore a.src (Core.fill a.id (Pending.load slot pos total sg (s.numAt x n) (s.labelOver x n)))
  | .loadCap keep =>
    let k := s.sweptCap (s.coreAt a.src) (s.granule x)
    s.onCore a.src (Core.fill a.id (Pending.loadCap (k.keepTag keep) (s.labelAt x)))
  | .store data lab log =>
    (s.portWrite o a.src a.off data.length 0 log (fun y t => t.store y data lab)).onCore a.src (Core.partDone s.hold a.id)
  | .storeCap k lab =>
    let k1 := s.sweptCap (s.coreAt a.src) k
    (s.portWrite o a.src a.off 16 2 (some 4) (fun y t => t.putGranule y k1 lab)).onCore a.src (Core.partDone s.hold a.id)
  | .amo op n y e lab =>
    let old := s.numAt x n
    let s1 := s.portWrite o a.src a.off n 1 (some (log2 n)) (State.amoAt op n y e lab)
    (s1.give a (Pending.load 0 0 8 false (op.result n old) (s.labelAt x))).onCore a.src (Core.partDone s.hold a.id)
  | .amoCap expect new lab keep =>
    let old := s.sweptCap (s.coreAt a.src) (s.granule x)
    let s1 := s.portWrite o a.src a.off 16 3 (some 4) (State.casAt (s.coreAt a.src) expect new lab)
    (s1.give a (Pending.loadCap (old.keepTag keep) (s.labelAt x))).onCore a.src (Core.partDone s.hold a.id)
  | .ticket _ => s

/-- A list without the first element equal to a given one. -/
def dropFirst {α : Type} [DecidableEq α] (x : α) : List α → List α
  | [] => []
  | y :: ys => if y = x then ys else y :: dropFirst x ys

/-- The first access of a list that satisfies a test, and the list without it. -/
def takeFirst {α : Type} (f : α → Bool) : List α → Option (α × List α)
  | [] => none
  | x :: xs => if f x then some (x, xs) else (takeFirst f xs).map (fun r => (r.1, x :: r.2))

/-- The oldest access that has arrived, or the oldest from a source when none waits at the port (R206, R211). -/
def Core.nextAccess (c : Core) (src : Nat) : Option (Access × List Access) :=
  match takeFirst (fun a => a.arrived) c.portq with
  | some r => some r
  | none => takeFirst (fun a => decide (a.src = src)) c.portq

/-- The number that stands for the cards at a port, and those of the tickets of a card, of a core's spill engine, of an instruction
that a core waits with, of its fetch, of a function's inbound writes, and of a prism chain. -/
def engineSrc : Nat := coreCount
def cardSrc (t e : Nat) : Nat := 0x10000 + t * 64 + e
def spillSrc (p : Nat) : Nat := 0x20000 + p
def atSrc (p : Nat) : Nat := 0x28000 + p
def fetchSrc (p : Nat) : Nat := 0x30000 + p
def hostSrc (fn : Nat) : Nat := 0x40000 + fn
def chainSrc (n : Nat) : Nat := 0x50000 + n

/-- Whether a core still stands at the instruction that a ticket of its was taken for. -/
def Core.standsAt (c : Core) (pc : Word) : Bool :=
  decide (c.pc = pc) && c.trapDue.isNone && decide (c.cstate = .boot ∨ c.cstate = .running ∨ c.cstate = .service)

/-- The core that an access or a ticket comes from; none for cards and the host. -/
def srcCore (src : Nat) : Option Nat :=
  if src < coreCount then some src
  else if 0x40000 ≤ src then none
  else if 0x30000 ≤ src then some (src - 0x30000)
  else if 0x28000 ≤ src then some (src - 0x28000)
  else if 0x20000 ≤ src then some (src - 0x20000)
  else none

/-- The partition that an access or a ticket comes from. -/
def State.srcPart (s : State) (src : Nat) : Nat :=
  match srcCore src with
  | some p => (s.coreAt p).part
  | none =>
    if 0x50000 ≤ src then ((s.parts.find? (fun e => e.2.chains.testBit (src - 0x50000))).map (fun e => e.1)).getD 0
    else if 0x40000 ≤ src then ((s.inbound.find? (fun x => decide (x.fn = src - 0x40000))).map Piece.part).getD 0
    else (((s.tiles.listed ((src - 0x10000) / 64)).bind (fun t => t.cards.listed ((src - 0x10000) % 64))).map Card.part).getD 0

/-- Whether a ticket's card, spill request, instruction, fetch, inbound write or chain still wants its place in the port's order (R206,
R211). -/
def State.ticketLive (s : State) (a : Access) : Bool :=
  let src := a.src
  if 0x50000 ≤ src then ((s.chains.listed (src - 0x50000)).map Chain.stuck).getD false
  else if 0x40000 ≤ src then s.inbound.any (fun x => decide (x.fn = src - 0x40000) && x.left && !x.performed)
  else if 0x30000 ≤ src then (s.coreAt (src - 0x30000)).standsAt a.addr
  else if 0x28000 ≤ src then (s.coreAt (src - 0x28000)).standsAt a.addr
  else if 0x20000 ≤ src then !(s.coreAt (src - 0x20000)).spillq.isEmpty
  else
    let x := (src - 0x10000) / 64
    match ((s.tiles.listed x).bind (fun t => t.cards.listed ((src - 0x10000) % 64))) with
    | some k => decide (k.state = .running) && k.miss.isNone && k.due.isNone && k.ending.isNone
    | none => false

/-- The first access that has arrived at a port and waits there, tickets that nobody wants left aside. -/
def State.portHead (s : State) (o : Nat) : Option Access :=
  (s.coreAt o).portq.find? (fun a => a.arrived && (match a.op with
    | .ticket _ => s.ticketLive a
    | _ => true))

/-- Whether a port can serve a card, the spill engine or the host now: the groups are awake and nothing that has arrived before
waits (R206, R211). -/
def State.portReady (s : State) (part o src off n : Nat) (write : Bool := true) : Bool :=
  !s.portBlocks part o src off n write && (match s.portHead o with
    | some a => decide (a.src = src)
    | none => true)

/-- An access that is made at once arrives at a port that cannot serve it: it wakes its groups and takes its place in the port's order
(R206, R211); where the port's core holds another partition's context, it waits to arrive (R436).  `pc` is the instruction that it is
made for, 0 for an engine's. -/
def State.portPlace (s : State) (part o src off n : Nat) (pc : Word := 0) (write : Bool := true) : State :=
  let here := !s.away part o
  let s1 := if here then s.copyWake o src off n write else s
  let mine := fun a : Access => decide (a.src = src ∧ a.addr = pc)
  s1.onCore o (fun c =>
    let q := c.portq.filter (fun a => decide (a.src ≠ src) || mine a)
    if q.any mine then { c with portq := q.map (fun a => if mine a then { a with arrived := a.arrived || here } else a) }
    else { c with portq := q ++ [⟨src, 0, off, pc, .ticket n, here⟩] })

/-- It leaves the port's order again. -/
def State.portLeave (s : State) (o src : Nat) : State :=
  if (s.coreAt o).portq.any (fun a => decide (a.src = src)) then
    s.onCore o (fun c => { c with portq := c.portq.filter (fun a => decide (a.src ≠ src)) })
  else s

/-- Whether every port that a request meets can serve it; else it stands in the order of those that cannot. -/
def State.portsReady (s : State) (part src : Nat) (xs : List (Nat × Nat × Nat)) : Bool :=
  xs.all (fun x => s.portReady part x.1 src x.2.1 x.2.2)
def State.portsPlace (s : State) (part src : Nat) (xs : List (Nat × Nat × Nat)) : State :=
  xs.foldl (fun t x => if t.portReady part x.1 src x.2.1 x.2.2 then t.portLeave x.1 src
    else t.portPlace part x.1 src x.2.1 x.2.2) s

/-- A write of a card performed at the port of a local store (R92, R202). -/
def State.cardStore (s : State) (p off : Nat) (bs : List Byte) (l : Label) (ts : List Bool) : State :=
  s.portWrite p engineSrc off bs.length 0 none (fun y t => (t.store y bs l).setTags ((y + 15) / 16 * 16) ts)

/-- A card whose write has reached a killed core's store ends TERMFAULT (R471), unless it has ended before. -/
def killedLine (n : Nat) (k : Card) : Card :=
  if k.seq = n ∧ k.state ≠ .ended then { k with ending := some 0x43 } else k

/-- A buffered write performed (R483): the acquires that wait for it have one less to wait for. -/
def State.performFar (s : State) (w : FarWrite) : State :=
  let s1 :=
    if (s.coreAt w.store).cstate = .killed then
      { s with tiles := s.tiles.map (fun e =>
          if e.1 = w.tile then (e.1, { e.2 with cards := e.2.cards.map (fun x => (x.1, killedLine w.card x.2)) }) else e) }
    else s.cardStore w.store w.off w.bytes w.lab w.tags
  w.notify.foldl (fun t q => t.onCore q.1 (Core.bufDone q.2)) s1

/-- Buffered writes of a cluster performed in order, those for a store up to the first that its port cannot perform; `stuck`
lists the stores that have met one. -/
def drainList (k : Nat) : List FarWrite → List Nat → State → State
  | [], _, s => s
  | w :: rest, stuck, s =>
    if stuck.contains w.store then drainList k rest stuck s
    else if s.portReady w.part w.store engineSrc w.off w.bytes.length then
      drainList k rest stuck ((s.setBuf k (dropFirst w (s.bufAt k))).performFar w)
    else drainList k rest (w.store :: stuck) (s.portWake w.part w.store engineSrc w.off w.bytes.length)

/-- The buffered writes of a cluster that satisfy a test performed. -/
def State.drainBuf (s : State) (k : Nat) (f : FarWrite → Bool) : State := drainList k ((s.bufAt k).filter f) [] s

/-- Before an access of a core, the buffered card writes that its core has to see are performed with those before them (R334,
notes/assumptions/109.md). -/
def State.farFirst (s : State) (o : Nat) (a : Access) : State :=
  let mine := fun w : FarWrite => decide (w.store = o)
  if decide (a.src < coreCount) && (s.bufAt (bufKey o)).any (fun w => mine w && s.farSeen a.src w) then s.drainBuf (bufKey o) mine
  else s

/-- An access is performed, or answered by a killed core (R206, R471). -/
def State.perform (s : State) (o : Nat) (a : Access) : State :=
  if (s.coreAt o).cstate = .killed then s.answerKilled o a else ((s.farFirst o a).performOp o a).awaitBuf a.src a.id

/-- An access queued at a port; it wakes the groups it meets there (R211). -/
def State.queueAccess (s : State) (o : Nat) (a : Access) (arrived : Bool) : State :=
  State.onCore (if arrived then s.copyWake o a.src a.off a.op.bytes a.op.writes else s) o
    (fun c => { c with portq := c.portq ++ [{ a with arrived := arrived }] })

/-- Whether the ports that an access needs cannot perform it now. -/
def State.accBlocks (s : State) (o : Nat) (a : Access) : Bool := s.copyBlocks o a.src a.off a.op.bytes a.op.writes

/-- An access leaves its core for a port (R206): performed at once unless accesses wait for their events or the port
cannot perform it. -/
def State.access (s : State) (o : Nat) (a : Access) : State :=
  let q := (s.coreAt o).portq
  if s.hold || s.away (s.coreAt a.src).part o || q.any (fun b => decide (b.src = a.src) && !b.arrived) then s.queueAccess o a false
  else if q.any (fun b => b.arrived) || s.accBlocks o a then s.queueAccess o a true
  else s.perform o a

/-- The oldest buffered write for a store performed (R483). -/
def State.farStep (s : State) (p : Nat) : State :=
  match (s.bufAt (bufKey p)).find? (fun w => decide (w.store = p)) with
  | none => s
  | some w => s.drainBuf (bufKey p) (fun x => decide (x = w))

/-- Every buffered write that can be performed. -/
def State.drainBufs (s : State) : State := (s.cardbuf.map (fun e => e.1)).foldl (fun t k => t.drainBuf k (fun _ => true)) s

/-- One access of a port's queue performed, or kept there when the port cannot perform it (R206, R211); for the cards, the
oldest buffered write. -/
def State.portStep (s : State) (o src : Nat) : State :=
  let c := s.coreAt o
  if src = engineSrc then s.farStep o
  else match c.nextAccess src with
  | none => s
  | some (a, rest) =>
    if s.away (s.srcPart a.src) o then s
    else if (match a.op with
      | .ticket _ => s.ticketLive a
      | _ => false) then s
    else if s.accBlocks o a then
      (s.copyWake o a.src a.off a.op.bytes a.op.writes).onCore o (fun c => { c with
        portq := c.portq.map (fun b => if b = a then { b with arrived := true } else b) })
    else (s.setCoreAt o { c with portq := rest }).perform o a

/-- The accesses that have arrived at a port performed in order, as far as they can be; `n` bounds their number. -/
def State.drainPort (s : State) (o : Nat) : Nat → State
  | 0 => s
  | n + 1 =>
    match takeFirst (fun a => a.arrived) (s.coreAt o).portq with
    | none => s
    | some (a, rest) =>
      if s.portBlocks (s.srcPart a.src) o a.src a.off a.op.bytes a.op.writes then
        s.portWake (s.srcPart a.src) o a.src a.off a.op.bytes a.op.writes
      else if (match a.op with
        | .ticket _ => s.ticketLive a
        | _ => false) then s
      else State.drainPort ((s.setCoreAt o { s.coreAt o with portq := rest }).perform o a) o n

/-- A port works off what has arrived, up to the place of a card or a spill engine. -/
def State.drain (s : State) (o : Nat) : State := s.drainPort o (s.coreAt o).portq.length

/-- A signal meets its core (R324, R449, R471): an evicted core keeps it waiting. -/
def State.arrive (s : State) (g : Signal) : State :=
  let c := s.coreAt g.dst
  let s1 := s.ack (some g.sender)
  if c.cstate = .killed then s1.tell g.dst g.sender.1 0
  else (s.inboxesOf g.dst).foldl
    (fun t p => t.onCore p (fun c => { c with evt := c.evt ||| g.bits })) s1

/-- A signal sent (R324). -/
def State.signal (s : State) (g : Signal) : State :=
  if s.hold || decide ((s.coreAt g.dst).cstate = .evicted) || s.away g.part g.dst then { s with signals := s.signals ++ [g] } else s.arrive g

end Sys2Proof.Machine
end

