-- ==== Sys2Proof/Machine/Ops.lean ====
section
/-! DEFINITION. Taking a trap and returning from one, and what every instruction does around its own effect: the checks
of R52 on its names, the advance of the PC, RPT, gangs and mirror pairs (R31, R50 to R52, R57, R69, R82, R98, R170 to
R175, R284, R285, R290, R291, R476, R482). -/

namespace Sys2Proof.Machine

open Sys2Proof

/-- The trap causes of R71. -/
inductive Cause where
  | illegal | illopnd | lenslimit | align | tag | bounds | perm | seal | label | revoked | window | windowunder | syscall
  | priv | preempt | extirq | mirror | spillfault | brk | watchdog
  deriving DecidableEq, Repr

/-- The 8-bit codes of R71. -/
def Cause.code : Cause → BitVec 8
  | .illegal => 0x01 | .illopnd => 0x02 | .lenslimit => 0x03 | .align => 0x04 | .tag => 0x05 | .bounds => 0x06
  | .perm => 0x07 | .seal => 0x08 | .label => 0x09 | .revoked => 0x0A | .window => 0x0B | .windowunder => 0x0C
  | .syscall => 0x0D | .priv => 0x0E | .preempt => 0x0F | .extirq => 0x10 | .mirror => 0x11 | .spillfault => 0x12
  | .brk => 0x13 | .watchdog => 0x14

/-- The causes that CONVERT may name (R145). -/
def Cause.ofCode : Nat → Option Cause
  | 0x01 => some .illegal | 0x02 => some .illopnd | 0x03 => some .lenslimit | 0x04 => some .align | 0x05 => some .tag
  | 0x06 => some .bounds | 0x07 => some .perm | 0x08 => some .seal | 0x09 => some .label | 0x0A => some .revoked
  | 0x0B => some .window | 0x0C => some .windowunder | 0x0D => some .syscall | 0x0E => some .priv | 0x0F => some .preempt
  | 0x10 => some .extirq | 0x11 => some .mirror | 0x12 => some .spillfault | 0x13 => some .brk | 0x14 => some .watchdog
  | _ => none

/-- Length of an instruction in bytes (R34). -/
def instrBytes (i : Instr) : Nat :=
  match i.hd with
  | some h => 4 * h.len.words
  | none => 0

/-- The die of a core; a gateway core's is the one of its partition's first core, or CD0 without a partition (R463). -/
def State.homeDie (s : State) (p : Nat) : Nat :=
  if isGateway p then chipOrderDie ((s.partOf (s.coreAt p)).base / 1024) else dieOf p

/-- An ERROR message to every OS server core of a core's die (R471, R476). -/
def State.tellServers (s : State) (p : Nat) (m : InMsg) : State :=
  (s.roleCores .server (s.homeDie p)).foldl (fun t q => t.sendMsg ⟨q, m, none, 0⟩) s

/-- The capability that saves a PC, and the PC when the bounds cannot represent it (R98). -/
def Core.savedPc (c : Core) (a : Word) : Cap × Option Word :=
  if c.pcc.tag && !c.pcc.inRegion a.toNat then (c.pcc.withAddr (BitVec.ofInt 64 c.pcc.base), some a)
  else (c.pcc.withAddr a, none)

/-- What a trap saves (R69, R98): lens, PC, cause, value. -/
def Core.saveTrap (c : Core) (cause : BitVec 8) (tval : Word) (epc : Word) : Core :=
  { c with
    elens := c.lens
    epcc := (c.savedPc epc).1
    cause := cause
    tval := (c.savedPc epc).2.getD tval }

/-- Repetitions that are not complete: of the RPT in progress, or of one that ERET has resumed and that has not issued again
(R173, R174). -/
def Core.remaining (c : Core) : Option Nat :=
  match c.rep with
  | some r => some (r.n - r.i)
  | none => c.resume

/-- Entering the handler (R69): repeat state saved (R173, R174), mode, lens and PCC switched, the instruction buffer emptied
(R14). -/
def Core.enterHandler (c : Core) : Core :=
  { c with
    rptValid := c.remaining.isSome
    rptRemain := c.remaining.getD 0
    rep := none
    resume := none
    prevMode := c.mode
    mode := if c.mode = .f then .f else .s
    lens := c.hlens
    pcc := c.hpcc
    pc := c.hpcc.addr
    ibuf := []
    trapDue := none
    stalled := false
    waiting := none
    woken := false }

/-- A mirror core's trap entries count toward the place that it has reached in its interval (R291, R295). -/
def Core.countEntry (c : Core) : Core := { c with interval := c.interval.map (fun v => { v with entries := v.entries + 1 }) }

/-- A core that halts (R481): IDLE. -/
def Core.halt (c : Core) : Core := { c with cstate := .idle, stalled := false, trapDue := none }

def noSem : Sem := ⟨0, []⟩
def noBarrier : Barrier := ⟨0, 0, 0, []⟩

/-- The units of a semaphore that go to the records at the head of its waiters (R311): what is left of both, and the
records. -/
def takeUnits : Nat → List Waiter → Nat × List Waiter × List Parked
  | 0, ws => (0, ws, [])
  | n + 1, .record r :: rest =>
    let x := takeUnits n rest
    (x.1, x.2.1, r :: x.2.2)
  | n, ws => (n, ws, [])

/-- A core no longer waits at a semaphore: the records that then stand first take the units that are left, and their pushes are
made by the object (R311, R347). -/
def State.leaveSem (s : State) (obj p : Nat) : State :=
  let m := s.sems.look (fun _ => noSem) obj
  let x := takeUnits m.count (m.waiters.filter (fun w => decide (w ≠ .core p)))
  let push := fun r : Parked => (⟨obj, r, tileDie ((obj - 0x8000) / 64), none⟩ : HeldPush)
  { s with sems := s.sems.put (fun _ => noSem) obj ⟨x.1, x.2.1⟩, heldq := s.heldq ++ x.2.2.map push }

/-- A core no longer waits at any object: its blocking instruction issues again from the start (R57, R319).  Object numbers
below 0x1_0000 are semaphores, those from 0x1_0000 queues, those from 0x2_0000 tiles, at whose slots the core waits, those from
0x4_0000 chains, whose flip it waits for. -/
def State.unwait (s : State) (p : Nat) : State :=
  let s1 := { s with
    waits := s.waits.filter (fun e => decide (e.who ≠ .core p))
    posters := s.posters.filter (fun e => decide (e.2 ≠ p)) }
  match (s.coreAt p).waiting with
  | none => s1
  | some obj =>
    if obj < 0x10000 then s1.leaveSem obj p
    else if obj < 0x20000 then
      let q := s.queues.look (fun _ => Queue.reset) (obj - 0x10000)
      let q1 := { q with pushers := q.pushers.filter (fun x => decide (x ≠ p)) }
      { s1 with queues := s.queues.put (fun _ => Queue.reset) (obj - 0x10000) q1 }
    else if 0x40000 ≤ obj then
      { s1 with chains := s.chains.map (fun e => (e.1, { e.2 with flips := e.2.flips.filter (fun f => decide (f.1 ≠ p)) })) }
    else
      let t := s.tiles.look (fun _ => Tile.reset) (obj - 0x20000)
      let t1 := { t with slotWaits := t.slotWaits.filter (fun x => decide (x.1 ≠ p)) }
      { s1 with tiles := s.tiles.put (fun _ => Tile.reset) (obj - 0x20000) t1 }

/-- Trap delivery, in one step (R69): the core waits at no object any more; without a handler it stops and tells its die's OS
servers (R476). -/
def State.deliver (s : State) (cause : BitVec 8) (tval : Word) (epc : Word) : State :=
  let s0 := s.unwait s.core.phys
  let c := s0.core.saveTrap cause tval epc
  if c.hlens.tag && c.hpcc.tag then { s0 with core := c.enterHandler.countEntry }
  else
    let m := errorMsg (s.rankOf c) c.phys cause.toNat c.epcc.addr c.tval
    State.tellServers { s0 with core := c.halt } c.phys m

/-- A trap is raised (R50): delivered once everything the core has issued has landed and is acknowledged. -/
def State.raiseAt (s : State) (cause : BitVec 8) (tval : Word) (epc : Word) : State :=
  let c := if s.hold then s.core else s.core.landReady
  if c.quiet then State.deliver { s with core := c } cause tval epc
  else { s with core := { c with trapDue := some ⟨cause, tval, epc⟩, stalled := true } }

/-- A synchronous fault: sy.epcc at the instruction, or at its RPT word (R70, R173). -/
def State.raise (s : State) (cause : Cause) (tval : Word) : State := s.raiseAt cause.code tval s.core.pc

/-- ERET's effect on the core (R82, R174): lens, LB, PCC, PC and mode from what the trap saved, repeat state from
sy.rpt, which is cleared as the table after R175 shows, instruction buffer emptied (R14). -/
def Core.eret (c : Core) : Core :=
  { c with
    lens := c.elens
    pcc := c.epcc
    pc := c.epcc.addr
    mode := c.prevMode
    resume := if c.rptValid then some c.rptRemain else none
    rptValid := false
    rptRemain := 0
    ibuf := [] }

/-- How an instruction's own effect ends: it completes; it takes its own next PC; it has set the whole of what comes
next; it traps, with sy.epcc at itself or at the next instruction (R70); it waits and issues again (R57). -/
inductive Res where
  | done (s : State)
  | jump (s : State) (pc : Word)
  | enter (s : State)
  | trap (s : State) (cause : Cause) (tval : Word)
  | trapNext (s : State) (cause : BitVec 8) (tval : Word)
  | wait (s : State)
  deriving DecidableEq, Repr

/-- ILLOPND of row 8: a reserved code, or a misuse of R19. -/
def operandIllegal (o : Operand) : Bool :=
  match o.kind, o.name with
  | .scalar, .rsv _ => true
  | .scalar, _ => false
  | .cap, .w n => decide (n % 2 ≠ 0)
  | .capOrZr, .w n => decide (n % 2 ≠ 0)
  | .capOrZr, .zr => false
  | .vec, .w n => decide (n % 4 ≠ 0)
  | .record, .w n => decide (n % 4 ≠ 0)
  | .pair, .rsv _ => true
  | .pair, _ => false
  | .mask, .o k => decide (k = 0)
  | _, _ => true

/-- ALIGN of row 9: a c or v name misaligned in the register store. -/
def operandMisaligned (lb : Nat) (o : Operand) : Bool :=
  match o.kind, o.name with
  | .cap, .w n => decide ((lb + n) % 2 ≠ 0)
  | .capOrZr, .w n => decide ((lb + n) % 2 ≠ 0)
  | .vec, .w n => decide ((lb + n) % 4 ≠ 0)
  | .record, .w n => decide ((lb + n) % 4 ≠ 0)
  | _, _ => false

/-- How many entries Phys checks for a kind of operand (R30). -/
def kindWidth : OpKind → Nat
  | .scalar => 1 | .cap => 2 | .capOrZr => 2 | .vec => 4 | .record => 4 | .pair => 1 | .mask => 0

/-- LENSLIMIT of row 10, and of a name that RPT steps past w4079 (R52, R170). -/
def operandBeyond (lb top : Nat) (o : Operand) : Bool :=
  match o.name with
  | .w n => decide (top ≤ lb + n + (kindWidth o.kind - 1) ∨ 4079 < n)
  | _ => false

/-- What a record needs beyond row 10: its own LENSLIMIT and the value it shows. -/
def operandTail (lb top : Nat) (o : Operand) : Option Nat :=
  match o.kind, o.name with
  | .record, .w n => if top ≤ lb + n + 7 then some (n + 4) else none
  | _, _ => none

/-- Row 7 of R52: an instruction of S mode in U mode. -/
def privTrap (i : Instr) (c : Core) : Option (Cause × Word) :=
  if i.sMode && decide (c.mode = .u) then some (.priv, BitVec.ofNat 64 c.word) else none

/-- The tile positions that issue an instruction of the engine cores (R228, R254). -/
def enginePos : Instr → List Nat
  | .mload .. => [15] | .mswap .. => [15] | .mrun .. => [15] | .mdrain .. => [15] | .mslot .. => [15] | .mstat .. => [15]
  | .cpy .. => [13] | .cpym .. => [13] | .conv .. => [14]
  | .jwait .. => [13, 14, 15] | .jstat .. => [13, 14, 15] | .jcancel .. => [13, 14, 15] | _ => []

/-- Instructions of the engine cores, whose other members raise ILLEGAL in a gang (R228, R254, R285). -/
def isEngineInstr (i : Instr) : Bool := !(enginePos i).isEmpty

/-- Whether a core is none of those that issue an instruction; a core of a mirror pair counts with its mate (R271). -/
def wrongEngine (i : Instr) (c : Core) : Bool :=
  isEngineInstr i && !((enginePos i).any (fun n => atPos n c.phys || (c.interval.isSome && atPos n (mateOf c.phys))))

/-- ILLEGAL of R228 and R254, rows 8 to 10 of R52 in their order, and the LENSLIMIT of record operands. -/
def rowsTrap (i : Instr) (c : Core) : Option (Cause × Word) :=
  let os := i.operands
  let len := (i.hd.map Hd.len).getD .w32
  if wrongEngine i c then some (.illegal, BitVec.ofNat 64 c.word)
  else
    match os.find? operandIllegal with
    | some o => some (.illopnd, BitVec.ofNat 64 (o.name.code len))
    | none =>
      match os.find? (operandMisaligned c.lb) with
      | some o => some (.align, BitVec.ofNat 64 (nameNum o.name))
      | none =>
        match os.find? (operandBeyond c.lb c.top) with
        | some o => some (.lenslimit, BitVec.ofNat 64 (nameNum o.name))
        | none =>
          match os.findSome? (operandTail c.lb c.top) with
          | some n => some (.lenslimit, BitVec.ofNat 64 n)
          | none => none

/-- Row 7 of R52, the engine cores' ILLEGAL, rows 8 to 10, and the LENSLIMIT of record operands. -/
def nameTrap (i : Instr) (c : Core) : Option (Cause × Word) :=
  match privTrap i c with
  | some t => some t
  | none => rowsTrap i c

/-- The PC and repetition after an instruction that completes (R34, R170): the next repetition, or the first byte after
the instruction and its RPT word. -/
def Core.after (c : Core) (bytes : Nat) : Word × Option Rep :=
  match c.rep with
  | none => (c.pc + BitVec.ofNat 64 bytes, none)
  | some r =>
    if r.i + 1 < r.n then (c.pc, some { r with i := r.i + 1 }) else (c.pc + BitVec.ofNat 64 (4 + bytes), none)

/-- An instruction completes. -/
def Core.retire (c : Core) (bytes : Nat) : Core :=
  { c with pc := (c.after bytes).1, rep := (c.after bytes).2, resume := none, stalled := false, waiting := none,
           woken := false }

def State.mapCore (s : State) (f : Core → Core) : State := { s with core := f s.core }

/-- The state after an instruction's own effect, for a core that issues alone. -/
def Res.finish (i : Instr) : Res → State
  | .done t => t.mapCore (fun c => c.retire (instrBytes i))
  | .jump t pc => t.mapCore (fun c => { c.retire (instrBytes i) with pc := pc, rep := none })
  | .enter t => t
  | .trap t cause tval => t.raise cause tval
  | .trapNext t cause tval => t.raiseAt cause tval (t.core.pc + BitVec.ofNat 64 (instrBytes i))
  | .wait t => t.mapCore (fun c => { c with stalled := true })

/-- One issue of an instruction: the checks on its names, then its own effect. -/
def runBody (i : Instr) (body : State → Res) (s : State) : Res :=
  match nameTrap i s.core with
  | some (cause, tval) => .trap s cause tval
  | none => body s

/-- Instructions before which an interval of a mirror pair ends (R291, R322, R355, R377, R401, R426, R439). -/
def endsInterval : Instr → Bool
  | .park .. => true | .xmax .. => true | .bsleep .. => true | .mslot .. => true | .crvmark .. => true | .csweep .. => true
  | .lspill .. => true | .lfill .. => true | .lmove .. => true | .mchk .. => true | .barw .. => true | .semp .. => true
  | .waitva .. => true | .recv .. => true | .halt .. => true | .qpush .. => true | .qpushWait .. => true
  | .qpop .. => true | .qpopg .. => true | .qstat .. => true | .spawn .. => true | .prpush .. => true | .prpop .. => true
  | .prclass .. => true | .ptwr .. => true | .ptrd .. => true | .ptflip .. => true | .tlbw .. => true | .tlbi .. => true
  | .frpop .. => true | .cresume .. => true | .decl .. => true | .munpair .. => true | _ => false

/-- Instructions after which an interval of a mirror pair ends: bulk moves (R84), and the cards and cancels that it holds until
its fingerprints agree, whose results both cores then take (R247, R271, R291; notes/assumptions/34.md). -/
def endsAfter : Instr → Bool
  | .lspill .. => true | .lfill .. => true | .lmove .. => true
  | .cpy .. => true | .cpym .. => true | .conv .. => true | .jcancel .. => true | .mload .. => true | .mswap .. => true
  | .mrun .. => true | .mdrain .. => true | _ => false

/-- The interval ends here: the core compares with its mate before it goes on (R291). -/
def Core.endInterval (c : Core) : Core := { c with pair := { c.pair with pstate := .comparing }, stalled := true }

/-- Whether an instruction's effect went past what the logs of an interval and its outbound buffer hold (R214, R291, R292). -/
def Interval.over (v : Interval) : Bool :=
  decide (1024 < v.firsts.length) || decide (256 < v.writes) || decide (64 < (v.held.filter (fun h => decide (h ≠ .fence))).length)

/-- A retired instruction counts; after N of them, or after one whose effect is held for its result, the interval ends (R287,
R291). -/
def Core.countRetired (i : Instr) (c : Core) : Core :=
  match c.interval with
  | none => c
  | some v =>
    let c1 := { c with interval := some { v with retired := v.retired + 1 } }
    if c.pair.n ≤ v.retired + 1 ∨ endsAfter i then c1.endInterval else c1

/-- How far a core of a running mirror pair has come in its interval: instructions retired and traps delivered. -/
def Interval.steps (v : Interval) : Nat := v.retired + v.entries
def Core.retiredIn (c : Core) : Nat :=
  match c.interval with
  | some v => v.steps
  | none => 0

/-- The fingerprint stream as it was before an instruction that did not retire (R290). -/
def Core.unnote (v : Interval) (c : Core) : Core :=
  { c with interval := c.interval.map (fun w => { w with stream := v.stream }) }

/-- Whether an instruction retired: it neither waits nor traps; PARK enters the handler when it has completed (R80). -/
def Res.retired : Res → Bool
  | .done _ => true
  | .jump _ _ => true
  | .enter _ => true
  | .trapNext _ k _ => decide (k = 0)
  | _ => false

/-- One issue on a core of a mirror pair (R290, R291). -/
def runPaired (i : Instr) (v : Interval) (body : State → Res) (s : State) : State :=
  if endsInterval i && decide (v.steps ≠ 0) then s.mapCore Core.endInterval
  else
    let r := runBody i body (s.mapCore (fun c => c.note (.bytes (bytesOf 4 c.word))))
    let t := r.finish i
    match t.core.interval with
    | none => t
    | some w =>
      if w.over && decide (v.steps ≠ 0) then s.mapCore Core.endInterval
      else if r.retired then t.mapCore (Core.countRetired i) else t.mapCore (Core.unnote v)

/-- One issue on a core that is not in a gang. -/
def runOne (i : Instr) (body : State → Res) (s : State) : State :=
  match s.core.interval with
  | none => (runBody i body s).finish i
  | some v => runPaired i v body s

/-- The physical ids of a gang's members (R282). -/
def Core.members (c : Core) : List Nat :=
  ((List.range 16).filter (fun k => c.gang.members.getLsbD k)).map (tileCore (tileOf c.phys))

/-- A member of a gang that is not its leader follows the leader's issue (R282). -/
def Core.follows (c : Core) : Bool := c.gang.fused && decide (tilePos c.phys ≠ c.gang.leader.toNat)

/-- A member of a gang goes on alone at its own next PC (R285). -/
def Core.leaveGang (cause : Nat) (diverge : Bool) (c0 : Core) : Core :=
  let c := { c0 with gifts := if c0.interval.isNone then [] else c0.gifts }
  { c with
    gang := { c.gang with cause := BitVec.ofNat 4 cause, lsize := 0, fused := false }
    pc := match c.gangNext with
      | some n => n.1
      | none => c.pc
    rep := match c.gangNext with
      | some n => n.2
      | none => c.rep
    gangNext := none
    evt := if diverge then c.evt ||| 0x80000000#32 else c.evt }

/-- Every member of the current core's gang goes on alone (R285). -/
def State.dissolve (s : State) (cause : Nat) (diverge : Bool) : State :=
  s.core.members.foldl (fun t p => t.onCore p (Core.leaveGang cause diverge)) s

/-- One member's issue in a gang: the leader has made the check of row 7. -/
def memberRes (i : Instr) (body : State → Res) (s : State) : Res :=
  match rowsTrap i s.core with
  | some (cause, tval) => .trap s cause tval
  | none => body s

/-- One member's issue in a gang: a trap is kept until the gang has dissolved (R284, R285). -/
def runMember (i : Instr) (body : State → Res) (s : State) : State :=
  match memberRes i body s with
  | .trap t cause tval => t.mapCore (fun c => { c with trapDue := some ⟨cause.code, tval, c.pc⟩, stalled := false })
  | .trapNext t cause tval =>
    t.mapCore (fun c => { c with trapDue := some ⟨cause, tval, c.pc + BitVec.ofNat 64 (instrBytes i)⟩, stalled := false })
  | r => r.finish i

/-- A member whose issue is complete waits for the others, at the PC they have (R284). -/
def Core.holdMember (pc : Word) (rep : Option Rep) (c : Core) : Core :=
  if c.stalled || c.gangNext.isSome then c else { c with gangNext := some (c.pc, c.rep), pc := pc, rep := rep }

/-- A member goes on where its issue left it. -/
def Core.releaseMember (c : Core) : Core :=
  match c.gangNext with
  | some n => { c with pc := n.1, rep := n.2, gangNext := none }
  | none => c

/-- Blocking instructions, which each member of a gang completes on its own (R56, R284, R322, R355). -/
def isBlocking : Instr → Bool
  | .wfe .. => true | .barw .. => true | .semp .. => true | .waitva .. => true | .recv .. => true | .bara .. => true
  | .mpost .. => true | .jwait .. => true | .qpushWait .. => true | .ptflip .. => true | .xmax .. => true | _ => false

/-- A trap that every member of a gang takes together (R52, R285), or that a core takes alone. -/
def State.raiseAll (s : State) (cause : Cause) (tval : Word) : State :=
  if s.core.gang.fused then
    let pc := s.core.pc
    let due := fun c : Core => { c.leaveGang 2 false with trapDue := some ⟨cause.code, tval, pc⟩ }
    s.core.members.foldl (fun t p => t.onCore p due) s
  else s.raise cause tval

/-- The gang after every member's issue (R169, R285): it dissolves on a trap, an enabled event, or a branch that `taken` says
some members took and some did not.  Where some members' PARK traps and the others park, the cause is TRAP with DIVERGE set
(notes/assumptions/110.md). -/
def State.settleGang (s : State) (i : Instr) (ms : List Nat) (taken : List Bool) : State :=
  let cs := ms.map s.coreAt
  let trapped := cs.filter (fun c => c.trapDue.isSome)
  let real := trapped.filter (fun c => decide (c.trapDue.map TrapDue.cause ≠ some 0))
  let split := fun (t : State) cause d => ms.foldl (fun u p => u.onCore p (Core.leaveGang cause d)) t
  if !trapped.isEmpty then
    split s (if real.isEmpty then 5 else if isEngineInstr i then 7 else 2)
      (!real.isEmpty && (isEngineInstr i || decide (real.length < cs.length)))
  else if taken.any (fun b => b ≠ taken.headD b) then split s 1 true
  else if cs.any (fun c => c.fpEvent.isSome) then split s 3 true
  else s

/-- A member's turn in a gang's issue: at the leader's PC, repetition and first word. -/
def State.member (s t : State) (p : Nat) : State :=
  (t.focus p).mapCore (fun c => { c with word := s.core.word, pc := s.core.pc, rep := s.core.rep })

/-- Whether an issue waits, and whether it takes its own next PC. -/
def Res.waits : Res → Bool
  | .wait _ => true
  | _ => false
def Res.jumps : Res → Bool
  | .jump _ _ => true
  | _ => false

/-- One issue of a gang's leader, for every member (R284).  PRIV is the leader's check for all (R52).  Where a member cannot issue
an instruction that does not block, none does; members that have completed a blocking instruction wait for the others; a trap of
any member ends the gang at once. -/
def runGang (i : Instr) (body : State → Res) (s : State) : State :=
  let lead := s.core.phys
  let ms := s.core.members
  let results := ms.map (fun p => memberRes i body (s.member s p))
  let late := ms.filter (fun p => (memberRes i body (s.member s p)).waits)
  let one := fun (t : State) p =>
    if (t.coreAt p).gangNext.isSome || (t.coreAt p).trapDue.isSome then t else runMember i body (s.member t p)
  match privTrap i s.core with
  | some (cause, tval) => s.raiseAll cause tval
  | none =>
    if !isBlocking i && !late.isEmpty then ((late.foldl one s).focus lead).mapCore (fun c => { c with stalled := true })
    else
      let t := (ms.foldl one s).focus lead
      let cs := ms.map t.coreAt
      if cs.any (fun c => c.stalled) && !cs.any (fun c => c.trapDue.isSome) then
        (ms.foldl (fun u p => u.onCore p (Core.holdMember s.core.pc s.core.rep)) t).mapCore (fun c => { c with stalled := true })
      else (ms.foldl (fun u p => u.onCore p Core.releaseMember) t).settleGang i ms (results.map Res.jumps)

/-- What every instruction does: its own effect on the core that issues it, or on every member of its gang. -/
def run (i : Instr) (s : State) (body : State → Res) : Host.Outcome State Fault Refusal :=
  .next (if s.core.gang.fused then runGang i body s else runOne i body s)

end Sys2Proof.Machine
end

