-- ==== Sys2Proof/Machine/Boundary.lean ====
section
/-! DEFINITION. What happens at an instruction boundary: asynchronous causes, enabled floating-point events, sweep
checks, the pre-emption timer (R57, R103, R143 to R148, R302, R303, R477, R482). -/

namespace Sys2Proof.Machine

open Sys2Proof

/-- The first asynchronous cause that is due, with its value (R482). -/
def Core.dueCause (c : Core) : Option (Cause × Word) :=
  match c.dueSpill, c.dueMirror, c.dueWatchdog with
  | v :: _, _, _ => some (.spillfault, v)
  | [], some v, _ => some (.mirror, v)
  | [], none, v :: _ => some (.watchdog, v)
  | [], none, [] =>
    if c.duePreempt then some (.preempt, 0)
    else if c.evt &&& c.evmask ≠ 0 then some (.extirq, (c.evt &&& c.evmask).setWidth 64)
    else none

/-- That cause is delivered: it is no longer due; EXTIRQ takes its bits (R302, R482). -/
def Core.takeDue (c : Core) (k : Cause) : Core :=
  match k with
  | .spillfault => { c with dueSpill := c.dueSpill.tail }
  | .mirror => { c with dueMirror := none }
  | .watchdog => { c with dueWatchdog := c.dueWatchdog.tail }
  | .preempt => { c with duePreempt := false }
  | .extirq => { c with evt := c.evt &&& ~~~c.evmask }
  | _ => c

/-- A core no longer waits for a reply (R146); one that waits at MPAIR no longer joins (R57). -/
def Core.leaveWaits (c : Core) : Core :=
  { c with
    fpReply := none
    fpWait := none
    pair := if c.pair.pstate = .joining then { c.pair with pstate := .unpaired } else c.pair }

/-- A reply that has come to a core which no longer waits for it stands in its inbox, or before it while the inbox is full (R146). -/
def State.leaveWaits (s : State) : State :=
  let c := s.core
  match c.fpReply with
  | none => s.mapCore Core.leaveWaits
  | some m =>
    if c.inbox.length < 64 then s.mapCore (fun c => c.leaveWaits.takeMsg m)
    else State.mapCore { s with flights := ⟨c.phys, m, none, c.part⟩ :: s.flights } Core.leaveWaits

/-- An asynchronous cause delivered to the current core, with sy.epcc at the next instruction not yet issued (R70). -/
def State.deliverAsync (s : State) (k : Cause) (v : Word) : State :=
  ((s.mapCore (fun c => c.takeDue k)).leaveWaits).deliver k.code v s.core.pc

/-- A cause delivered to both cores of the current core's pair (R295); EXTIRQ with the enabled bits of both. -/
def State.deliverBoth (s : State) (k : Cause) (v : Word) : State :=
  let m := s.coreAt (mateOf s.core.phys)
  let w := if k = .extirq then v ||| (m.evt &&& m.evmask).setWidth 64 else v
  ((s.deliverAsync k w).focus (mateOf s.core.phys) |>.deliverAsync k w).focus s.core.phys

/-- Whether a cause for one core of a pair is delivered to both (R295). -/
def Cause.forBoth (k : Cause) : Bool := decide (k = .preempt ∨ k = .extirq ∨ k = .watchdog)

/-- Whether everything that a cause waits for has ended (R50), PREEMPT on an arithmetic core also the started matrix cards
(R242). -/
def State.quietFor (s : State) (c : Core) (k : Cause) : Bool :=
  c.quiet && !(decide (k = .preempt) && s.matrixHolds c.phys)

/-- The current core's asynchronous boundary (R482): in a gang every member first goes on alone (R285); in a mirror pair
the interval ends first, and both cores take the cause where both stand at that boundary (R295). -/
def State.asyncBoundary (s : State) (k : Cause) (v : Word) : State :=
  let c := s.core
  if c.gang.fused then s.dissolve 6 false
  else if !s.quietFor c k then s.mapCore (fun c => { c with stalled := true })
  else
    match c.interval with
    | none => s.deliverAsync k v
    | some iv =>
      let m := s.coreAt (mateOf c.phys)
      if iv.steps ≠ 0 then s.mapCore Core.endInterval
      else if !k.forBoth then s.deliverAsync k v
      else if m.retiredIn = 0 ∧ s.quietFor m k then s.deliverBoth k v
      else s.mapCore (fun c => { c with stalled := true })

/-- A synchronous trap that waited is delivered, or an asynchronous cause in its place (R482); PARK's entry is not
displaced. -/
def State.trapBoundary (s : State) (t : TrapDue) : State :=
  if !s.core.quiet then s.mapCore (fun c => { c with stalled := true })
  else
    match s.core.dueCause with
    | some (k, v) => if t.cause = 0 then s.deliver t.cause t.tval t.epc else s.asyncBoundary k v
    | none => s.deliver t.cause t.tval t.epc

/-- The message of R144. -/
def fpMessage (s : State) (c : Core) (e : FpEvent) : InMsg where
  kind := .fpevent
  words := [e.pcAt, BitVec.ofNat 64 (e.raised.toNat + e.word * 2 ^ 32),
    BitVec.ofNat 64 (c.lo + c.top * 2 ^ 16 + c.lb * 2 ^ 32 + c.phys * 2 ^ 48),
    BitVec.ofNat 64 (s.rankOf c + c.fpSeq * 2 ^ 32)]
  lab := e.lab
  src := s.rankOf c

/-- A core that an enabled event stops inside RPT saves where it stands; after the last repetition, and where no RPT is in progress,
VALID is 0 (R173, notes/assumptions/75.md). -/
def Core.saveRepeat (c : Core) : Core :=
  match c.rep with
  | some r => { c with epcc := (c.savedPc c.pc).1, rptValid := true, rptRemain := r.n - r.i }
  | none => { c with rptValid := false, rptRemain := 0 }

/-- The core stops for an enabled event (R143): it waits as at a marker, sends the message of R144 and waits for the
reply; a supervisor rank that is not below sy.plen answers RESUME at once, after the same stop (R147).  In a mirror pair the interval ends first, and
the even core alone sends (R148, R291). -/
def State.fpStop (s : State) (e : FpEvent) : State :=
  let c := s.core
  if c.gang.fused then s.dissolve 3 true
  else if !c.markerReady then s.mapCore (fun c => { c with stalled := true })
  else if c.interval.isSome && decide (c.retiredIn ≠ 0) then s.mapCore Core.endInterval
  else
    match s.ofRank c c.fpsup.toNat with
    | none => s.mapCore (fun c => { c.saveRepeat with fpEvent := none })
    | some q =>
      let c1 := { c.saveRepeat with
        fpEvent := none
        fpWait := some c.fpSeq
        fpRaised := e.raised
        fpSeq := (c.fpSeq + 1) % 2 ^ 32
        stalled := true }
      let s1 := { s with core := c1 }
      if c.paired && decide (c.phys % 2 = 1) then s1 else s1.sendMsg ⟨q, fpMessage s c e, none, c.part⟩

/-- A reply of R145: its code, cause and sequence number, when it is one. -/
def fpReplyOf (ws : List Word) : Option (Nat × Nat × Nat) :=
  let w0 := (ws.getD 0 0).toNat
  let code := w0 % 256
  let cause := w0 / 256 % 256
  if ws.getD 1 0 ≠ 0 ∨ ws.getD 2 0 ≠ 0 ∨ ws.getD 3 0 ≠ 0 ∨ w0 / 65536 % 65536 ≠ 0 then none
  else if code = 1 ∨ (code = 2 ∧ (Cause.ofCode cause).isSome) then some (code, cause, w0 / 2 ^ 32) else none

/-- RESUME: issue goes on at the resume point (R145). -/
def Core.fpResume (c : Core) : Core := { c with fpWait := none, fpReply := none, stalled := false }

/-- CONVERT: a trap with the named cause, sy.tval the enabled flags raised, sy.epcc the resume point (R145), delivered as R50 and
R69 state.  Until it can be delivered the core keeps the reply and waits on, so that a cause which goes first leaves it in the inbox
(R146, notes/assumptions/89.md). -/
def State.fpConvert (s : State) (cause : Nat) (raised : BitVec 5) : State :=
  let c := if s.hold then s.core else s.core.landReady
  if c.quiet then State.deliver { s with core := c.fpResume } (BitVec.ofNat 8 cause) (raised.setWidth 64) s.core.pc
  else { s with core := { c with stalled := true } }

/-- The reply that has come is acted on, or discarded while the core keeps waiting (R145), also one of an earlier SEQ
(notes/assumptions/89.md). -/
def State.fpReplyBoundary (s : State) (sq : Nat) (ws : List Word) : State :=
  match fpReplyOf ws with
  | some (1, _, q) => if q = sq then s.mapCore Core.fpResume else s.mapCore (fun c => { c with fpReply := none, stalled := true })
  | some (_, cause, q) =>
    if q = sq then s.fpConvert cause s.core.fpRaised else s.mapCore (fun c => { c with fpReply := none, stalled := true })
  | none => s.mapCore (fun c => { c with fpReply := none, stalled := true })

/-- A capability that is on its way into the register store, with tag 0 when a sweep has marked it (R103). -/
def TWrite.sweep (w : Sweep) (x : TWrite) : TWrite :=
  match x.tgt with
  | .pair _ => { x with tag := x.tag && !w.marked (Cap.ofWords x.lo x.hi x.tag).base }
  | _ => x
def Pending.sweep (w : Sweep) (p : Pending) : Pending := { p with writes := p.writes.map (TWrite.sweep w) }

/-- What a mirror core goes back to (R292), as a check leaves it. -/
def Agreed.sweep (w : Sweep) (g : Agreed) : Agreed :=
  let word := fun e => (SMap.look (fun _ => zeroVal) g.regs e).v
  { g with tags := g.tags.filter (fun e => !w.marked (Cap.ofWords (word e.1) (word (e.1 + 1)) e.2).base) }

/-- A mirror core's interval: its agreed point, and the results that it keeps (R322). -/
def Interval.sweep (w : Sweep) (v : Interval) : Interval :=
  { v with done := v.done.map (Pending.sweep w), agreed := v.agreed.sweep w }

/-- A core's revocation check (R103): the tag of every marked pair of its register store is cleared, as it is in what has been
loaded and has not landed, and in what a mirror core goes back to. -/
def State.sweepCheck (s : State) (p : Nat) : State :=
  let c := s.coreAt p
  match s.sweepOf c with
  | none => s
  | some w =>
    if w.checked.contains p then s
    else
      let keep := fun e : Nat × Bool => !(w.marked (c.capAt e.1).base)
      let c1 := { c with
        tags := c.tags.filter keep
        pending := c.pending.map (Pending.sweep w)
        gifts := c.gifts.map (Pending.sweep w)
        replay := c.replay.map (Pending.sweep w)
        interval := c.interval.map (Interval.sweep w) }
      { s.setCoreAt p c1 with
        sweeps := s.sweeps.list c.part { w with checked := p :: w.checked } }

/-- One cycle of the pre-emption timer, in U mode (R477). -/
def Core.tick (c : Core) : Core :=
  if c.mode = .u ∧ c.ptimer ≠ 0 then { c with ptimer := c.ptimer - 1, duePreempt := c.duePreempt || decide (c.ptimer = 1) }
  else c

end Sys2Proof.Machine
end

