-- ==== Sys2Proof/Machine/Access.lean ====
section
/-! DEFINITION. The checks of a use of a capability, and the issue of accesses to local stores (R47, R95 to R97, R204,
R205, R214, R220). -/

namespace Sys2Proof.Machine

open Sys2Proof

/-- A trap and its value, when a check fails. -/
abbrev Fails := Option (Cause × Word)

/-- The first check that fails. -/
def firstOf : List Fails → Fails
  | [] => none
  | some t :: _ => some t
  | none :: rest => firstOf rest

def failIf (p : Bool) (k : Cause) (v : Word) : Fails := if p then some (k, v) else none

/-- A body that ends in the first failing check, or goes on. -/
def guarded (f : Fails) (s : State) (body : State → Res) : Res :=
  match f with
  | some (k, v) => .trap s k v
  | none => body s

/-- ILLEGAL with the first word, where a core may not issue the instruction. -/
def State.illegalIf (s : State) (p : Bool) : Fails := failIf p .illegal (BitVec.ofNat 64 s.core.word)

/-- The operand name as sy.tval shows it. -/
def nameVal (n : Name) : Word := BitVec.ofNat 64 (nameNum n)

/-- Whether a use of a capability meets a running sweep before the core's check (R95, R103). -/
def State.revoked (s : State) (c : Core) (k : Cap) : Bool :=
  match s.sweepOf c with
  | some w => !w.checked.contains c.phys && w.marked k.base
  | none => false

/-- Checks 1 to 4 of R95: tag, sweep, seal, permission. -/
def State.useTrap (s : State) (n : Name) (k : Cap) (perm : Bool) : Fails :=
  firstOf [failIf (!k.tag) .tag (nameVal n), failIf (s.revoked s.core k) .revoked (nameVal n),
    failIf (decide (k.otype ≠ 0)) .seal (nameVal n), failIf (!perm) .perm (nameVal n)]

/-- Checks 5 to 7 of R95, and R10: alignment, bounds, data label, windows. -/
def State.placeTrap (s : State) (n : Name) (k : Cap) (align size : Nat) (x : Word) (lab : Option Label) : Fails :=
  firstOf [failIf (decide (x.toNat % align ≠ 0)) .align (nameVal n), failIf (!k.covers x.toNat size) .bounds x,
    failIf (match lab with
      | some l => decide (k.label < l)
      | none => false) .label x,
    failIf (s.reach s.core x size).isNone .bounds x]

/-- The checks of R95 and R10 for an access. -/
def State.accessTrap (s : State) (n : Name) (k : Cap) (perm : Bool) (align size : Nat) (x : Word) (lab : Option Label) :
    Fails :=
  firstOf [s.useTrap n k perm, s.placeTrap n k align size x lab]

/-- The permissions that writing a capability needs beside STORE (R96). -/
def Cap.mayHold (c k : Cap) : Bool := !k.tag || (c.can .capwr && (k.can .roam || c.can .tether))

/-- The aligned 8-byte parts of [off, off + n): position in the access, length (R205); `fuel` bounds their number. -/
def partsFrom (off pos left : Nat) : Nat → List (Nat × Nat)
  | 0 => []
  | fuel + 1 =>
    if left = 0 then []
    else
      let k := min left (8 - off % 8)
      (pos, k) :: partsFrom (off + k) (pos + k) (left - k) fuel

def partsOf (off n : Nat) : List (Nat × Nat) := partsFrom off 0 n 5

/-- Whether an earlier acquire holds the core's later accesses (R220). -/
def Core.acqWaits (c : Core) : Bool := c.pending.any (fun p => p.acq) || c.unacked.any (fun u => u.bar)

/-- An unacknowledged store or atomic, with its parts and the lens it is issued under (R47). -/
def Core.addUnacked (c : Core) (id parts : Nat) (bar : Bool) : Core :=
  { c with unacked := c.unacked ++ [⟨id, parts, bar, c.lo, c.top, false, none⟩] }

/-- A message or signal that is not acknowledged (R47, R257), under a number of its own. -/
def Core.addMessage (c : Core) : Core :=
  { c with unacked := c.unacked ++ [⟨c.nextId, 1, false, c.lo, c.top, true, none⟩], nextId := c.nextId + 1 }

/-- Accesses sent to their port one after another. -/
def State.accesses (s : State) (o : Nat) (as : List Access) : State := as.foldl (fun t a => t.access o a) s

/-- Whether an access leaves the pair that issues it: then it is held until its interval agrees (R214, R291). -/
def Core.outbound (c : Core) (o : Nat) : Bool := c.interval.isSome && decide (o ≠ c.phys)

def Core.hold (c : Core) (xs : List Held) : Core :=
  match c.interval with
  | none => c
  | some v => { c with interval := some { v with held := v.held ++ xs } }

/-- A mirror core's own local-store writes count toward its interval's limit as they are issued (R214). -/
def Core.countWrites (c : Core) (n : Nat) : Core :=
  { c with interval := c.interval.map (fun v => { v with writes := v.writes + n }) }

/-- The bytes that a store gives to the fingerprint stream (R290). -/
def storeStream (x : Word) (data : List Byte) : List Byte := bytesOf 8 x.toNat ++ data

/-- A store issued in parts: unacknowledged until its port has performed them, or held by a mirror pair, behind a fence when it
releases.  Each part counts as one write of the interval (R214, notes/assumptions/117.md). -/
def State.issueStore (s : State) (o off : Nat) (x : Word) (stream : List Byte) (rel bar : Bool) (ops : List (Nat × AccOp)) :
    State :=
  let c := s.core.note (.bytes (storeStream x stream))
  let as := ops.map (fun a => (⟨c.phys, c.nextId, off + a.1, x + BitVec.ofNat 64 a.1, a.2, false⟩ : Access))
  let c1 := { c with nextId := c.nextId + 1 }
  if c.outbound o then { s with core := c1.hold ((if rel then [Held.fence] else []) ++ as.map (Held.access o c.lo c.top bar)) }
  else
    let c2 := if o = c.phys then c1.countWrites as.length else c1
    State.accesses { s with core := c2.addUnacked c.nextId as.length bar } o as

/-- A late write just issued is an acquire at clus scope or wider (R483). -/
def Core.widen (wide : Bool) (id : Nat) (c : Core) : Core :=
  if wide then { c with pending := c.pending.map (fun p => if p.id = id then { p with wide := true } else p) } else c

/-- A load issued in parts, as a late write to its places. -/
def State.issueLoad (s : State) (o off : Nat) (x : Word) (ws : List TWrite) (acq wide : Bool) (ops : List (Nat × AccOp)) :
    State :=
  let c := s.core
  let as := ops.map (fun a => (⟨c.phys, c.nextId, off + a.1, x + BitVec.ofNat 64 a.1, a.2, false⟩ : Access))
  State.accesses { s with core := (c.later ws 0 0 as.length acq).widen wide c.nextId } o as

/-- Whether every earlier store, atomic and message of a core is acknowledged (R220, R310, R312); a mirror pair's are those of
both, as the even core sends what they hold. -/
def Core.released (c : Core) : Bool := c.unacked.isEmpty
def State.released (s : State) : Bool :=
  s.core.released && (s.core.interval.isNone || (s.coreAt (mateOf s.core.phys)).released)

/-- A result that an interval has had of an effect made once (R322): a rollback keeps it. -/
def Core.recordDone (g : Pending) (c : Core) : Core :=
  { c with interval := c.interval.map (fun v => { v with done := v.done ++ [g] }) }

/-- The next result that a core of a pair has without making the effect (R214, R322): from before a rollback, or from its mate. -/
def Core.shared (c : Core) : Option (Pending × Core) :=
  match c.replay, c.gifts with
  | g :: rest, _ => some (g, { c with replay := rest })
  | [], g :: rest => some (g, { c with gifts := rest })
  | [], [] => none

/-- Such a result becomes a late write of the core's own (R48, R290). -/
def Core.adopt (g : Pending) (c : Core) : Core :=
  let c1 := g.writes.foldl (fun c w => c.cancel w.tgt) c
  let mine := { g with id := c.nextId }
  Core.recordDone mine { ((c1.note (.late c.nextId)).noteEntries (g.writes.flatMap (fun w => w.tgt.entries))) with
    pending := c1.pending ++ [mine]
    nextId := c.nextId + 1 }

/-- Whether a mirror pair holds effects that are to be sent. -/
def Core.holds (c : Core) : Bool :=
  match c.interval with
  | some v => !v.held.isEmpty
  | none => false

/-- Whether a mirror core's interval holds a store that later accesses wait for (R220). -/
def Core.holdsBar (c : Core) : Bool :=
  match c.interval with
  | some v => v.held.any (fun h => match h with
    | .access _ _ _ bar _ => bar
    | _ => false)
  | none => false

/-- An access that an earlier acquire holds waits (R220); in a mirror pair also for what the even core has sent for both, and a store
that the interval holds is first sent. -/
def afterAcquire (s : State) (body : State → Res) : Res :=
  if s.core.acqWaits || (s.core.interval.isSome && (s.coreAt (mateOf s.core.phys)).unacked.any (fun u => u.bar)) then .wait s
  else if s.core.holdsBar then .wait (s.mapCore Core.endInterval)
  else body s

/-- An effect of the core itself that releases waits for every earlier store, atomic and message (R220); those that a mirror pair
holds leave with the interval's end. -/
def afterRelease (rel : Bool) (s : State) (body : State → Res) : Res :=
  if rel && !s.released then .wait s
  else if rel && s.core.holds then .wait (s.mapCore Core.endInterval)
  else body s

/-- The same for an effect that leaves the core: a mirror pair holds it behind a fence. -/
def afterReleaseOut (rel : Bool) (s : State) (body : State → Res) : Res :=
  if rel && !s.released then .wait s else body s

/-- An acquire at clus scope or wider that is no load ends once its cluster's inbound card buffer has performed what it holds
now (R483): until then the core issues nothing more. -/
def State.awaitDrain (s : State) (wide : Bool) : State :=
  let c := s.core
  let k := bufKey c.phys
  let n := (s.bufAt k).length
  if !wide || decide (n = 0) then s
  else
    let s1 := s.setBuf k ((s.bufAt k).map (fun w => { w with notify := w.notify ++ [(c.phys, c.nextId)] }))
    s1.mapCore (fun c => { c with drain := some (c.nextId, n), nextId := c.nextId + 1 })

/-- An instruction that is an acquire and no load ends behind its cluster's inbound card buffer (R483). -/
def Res.acquire (wide : Bool) : Res → Res
  | .done t => .done (t.awaitDrain wide)
  | r => r

/-- Whether an access that a core makes at once, known by `src` at the port, can be made now: it passes by no access that comes before
it, of the core itself or arrived there (R206, R211). -/
def State.portOpen (s : State) (src o off n : Nat) (write : Bool := true) : Bool :=
  let c := s.core
  !s.portBlocks c.part o c.phys off n write && !((s.coreAt o).portq.any (fun a => decide (a.src = c.phys))) &&
    (match s.portHead o with
    | some a => decide (a.src = src)
    | none => true)

/-- It takes its place in the port's order, behind those of the core itself (R206, R211). -/
def State.portTake (s : State) (src o off n : Nat) (write : Bool := true) : State :=
  let c := s.core
  if (s.coreAt o).portq.any (fun a => decide (a.src = c.phys)) then s.portWake c.part o c.phys off n write
  else s.portPlace c.part o src off n c.pc write

/-- The same for the instruction that the core issues. -/
def State.portClear (s : State) (o off n : Nat) : Bool := s.portOpen (atSrc s.core.phys) o off n
def State.portWait (s : State) (o off n : Nat) : State := s.portTake (atSrc s.core.phys) o off n
def State.portEnter (s : State) (o : Nat) : State := s.portLeave o (atSrc s.core.phys)

/-- A read or write at a port made at once: it waits, and wakes the groups it meets, until it can be. -/
def atPort (o off n : Nat) (s : State) (body : State → Res) : Res :=
  if s.portClear o off n then body (s.portEnter o) else .wait (s.portWait o off n)

end Sys2Proof.Machine
end

