-- ==== Sys2Proof/Machine/Context.lean ====
section
/-! DEFINITION. Contexts and lenses: lens switches, calls, traps by instruction, and the spill engine (R54 to R84). -/

namespace Sys2Proof.Machine

open Sys2Proof

/-- LNS's checks of its lens (R75). -/
def lnsTrap (n : Name) (k : Cap) : Fails :=
  firstOf [failIf (!k.tag) .tag (nameVal n), failIf (decide (k.otype ≠ 2)) .seal (nameVal n),
    failIf (!(k.can .load && k.can .store)) .perm (nameVal n), failIf (!k.lensOk) .bounds k.addr]

/-- The lens switched; o0 to o7 and q are 0 with label 0, and late writes to them are void (R62, R63, R75); a mirror pair notes the nine
values (R290). -/
def Core.switchLens (c : Core) (k : Cap) : Core :=
  let c1 := (List.range 8).foldl (fun c i => c.cancel (.o i)) (c.cancel .q)
  (List.range 9).foldl (fun c _ => c.noteVal zeroVal) { c1 with lens := k, opf := [], q := zeroVal }

/-- LNS (R75). -/
def execLns (h : Hd) (a : Name) (s : State) :=
  run (.lns h a) s (fun s =>
    let k := s.core.rdCap a
    guarded (lnsTrap a k) s (fun s => .done (s.mapCore (fun c => c.switchLens k))))

/-- LGET (R76): the lens capability with address LB, tag 1 and labels 0. -/
def execLget (h : Hd) (d : Name) (s : State) :=
  run (.lget h d) s (fun s => .done (s.mapCore (fun c => c.wrCap d { c.lens with tag := true } 0)))

/-- The register entries that a spill-engine request holds (R66). -/
def SpillReq.holds (r : SpillReq) (e : Nat) : Bool :=
  match r.kind with
  | .spill => decide (r.src ≤ e ∧ e < r.src + r.n)
  | .fill => decide (r.dst ≤ e ∧ e < r.dst + r.n)
  | .move => decide ((r.src ≤ e ∧ e < r.src + r.n) ∨ (r.dst ≤ e ∧ e < r.dst + r.n))

/-- Whether the spill engine holds an entry of [lo, top) (R66). -/
def Core.engineHolds (c : Core) (lo top : Nat) : Bool :=
  c.spillq.any (fun r =>
    let meets := fun b => decide (max lo b < min top (b + r.n))
    match r.kind with
    | .spill => meets r.src
    | .fill => meets r.dst
    | .move => meets r.src || meets r.dst)

/-- LDRAIN (R77): waits until no late write and no spill-engine request touches the region, and the engine's stores of it are
acknowledged. -/
def execLdrain (h : Hd) (a : Name) (s : State) :=
  run (.ldrain h a) s (fun s =>
    let k := s.core.rdCap a
    guarded (firstOf [failIf (!k.tag) .tag (nameVal a), failIf (decide (k.otype ≠ 2)) .seal (nameVal a)]) s (fun s =>
      let lo := k.base.toNat
      let top := k.top.toNat
      let busy := s.core.pending.any (fun p => p.writes.any (fun w => w.tgt.entries.any (fun e => decide (lo ≤ e ∧ e < top)))
        || (decide (p.flags ≠ 0) && decide (lo ≤ p.flagsLo ∧ p.flagsLo < top)))
      let unacked := s.core.unacked.any (fun u => match u.spill with
        | some r => decide (max lo r.src < min top (r.src + r.n))
        | none => false)
      if busy || s.core.engineHolds lo top || unacked then .wait s else .done s))

/-- The checks of CALL and CALLC on the window (R65, R78). -/
def windowTrap (c : Core) (k : Nat) : Fails :=
  firstOf [failIf (decide (c.lb % 2 = 1)) .align 0, failIf (decide (c.top < c.lb + k + 48)) .window (BitVec.ofNat 64 k)]

/-- The return capability (R78): otype 7, tethered, tagged. -/
def Core.returnCap (c : Core) (bytes : Nat) : Cap :=
  { (c.pcc.withAddr (c.pc + BitVec.ofNat 64 bytes)).drop .roam with otype := 7, tag := true }

/-- The window moved up by k, with the return capability in the callee's w0:w1 (R78). -/
def Core.pushWindow (c : Core) (k bytes : Nat) : Core :=
  let e := c.lb + k
  let r := c.returnCap bytes
  { ((((c.cancel (.pair e)).putPair e r 0).noteVal ⟨r.addr, 0⟩).noteVal ⟨r.hi, 0⟩).noteEntries [e, e + 1] with
    lens := { c.lens with addr := BitVec.ofNat 64 e } }

/-- CALL (R78). -/
def execCall (h : Hd) (k : Nat) (disp : Int) (s : State) :=
  run (.call h k disp) s (fun s =>
    guarded (windowTrap s.core k) s (fun s =>
      .jump (s.mapCore (fun c => c.pushWindow k (4 * h.len.words))) (s.core.pc + BitVec.ofInt 64 disp)))

/-- CALLC (R78): the gate is unsealed into the PCC. -/
def execCallc (h : Hd) (k : Nat) (a : Name) (s : State) :=
  run (.callc h k a) s (fun s =>
    let g := s.core.rdCap a
    guarded (firstOf [failIf (!g.tag) .tag (nameVal a), failIf (decide (g.otype ≠ 1)) .seal (nameVal a),
      failIf (!g.can .exec) .perm (nameVal a), windowTrap s.core k]) s (fun s =>
      .jump (s.mapCore (fun c => { c.pushWindow k (4 * h.len.words) with pcc := { g with otype := 0 } })) g.addr))

/-- RET (R79): c0 is unsealed into the PCC and the window moves down. -/
def execRet (h : Hd) (k : Nat) (s : State) :=
  run (.ret h k) s (fun s =>
    let c := s.core
    let r := c.capAt c.lb
    guarded (firstOf [failIf (decide (c.lb % 2 = 1)) .align 0, failIf (decide (c.top ≤ c.lb + 1)) .lenslimit 0,
      failIf (!r.tag) .tag 0, failIf (decide (r.otype ≠ 7)) .seal 0,
      failIf (decide (c.lb < c.lo + 1 + k)) .windowunder (BitVec.ofNat 64 k)]) s (fun s =>
      .jump (s.mapCore (fun c => { c with
        lens := { c.lens with addr := BitVec.ofNat 64 (c.lb - k) }
        pcc := { r with otype := 0 } })) r.addr))

/-- TRAP (R81): SYSCALL with the operand's value. -/
def execTrap (h : Hd) (a : Name) (s : State) :=
  run (.trap h a) s (fun s => .trapNext s Cause.syscall.code (s.core.rd a).v)

/-- ERET (R82). -/
def execEret (h : Hd) (s : State) := run (.eret h) s (fun s => .enter (s.mapCore Core.eret))

/-- First and one past the last entry of the pairs that [e, e + n) meets, and the bytes of its image (R67). -/
def imageFirst (e : Nat) : Nat := e / 2 * 2
def imageBytes (e n : Nat) : Nat := 8 * ((e + n + 1) / 2 * 2 - imageFirst e)

/-- The entries of [e, e + n) whose label is at most `lab`, up to the first that is above it (R68). -/
def Core.spillCount (c : Core) (e n : Nat) (lab : Label) : Nat :=
  ((List.range n).takeWhile (fun i => decide ((c.ent (e + i)).l ≤ lab))).length

/-- One pair of an image, as the granule that memory takes and its label (R67): pad entries are zero, and the tag goes along when both
entries lie in the range [e, e + n). -/
def State.imagePair (s : State) (p e n pair : Nat) : Cap × Label :=
  let c := s.coreAt p
  let inside := fun x => decide (e ≤ x ∧ x < e + n)
  let v := fun x => if inside x then c.ent x else zeroVal
  let both := inside pair && inside (pair + 1)
  (s.sweptCap c (Cap.ofWords (v pair).v (v (pair + 1)).v (both && c.tagAt pair)), Label.max (v pair).l (v (pair + 1)).l)

/-- The image of [e, e + n), pair by pair (R67).  Where the label check stops a move at the second entry of a pair, that entry's place is
a pad, with the granule's tag 0 (notes/assumptions/86.md). -/
def State.imagePairs (s : State) (p e n : Nat) : List (Cap × Label) :=
  if n = 0 then [] else (List.range ((e + n + 1) / 2 - e / 2)).map (fun i => s.imagePair p e n (imageFirst e + 2 * i))

/-- Granules written at a port one after another. -/
def State.putImage (s : State) (src o off : Nat) (ks : List (Cap × Label)) : State :=
  ks.zipIdx.foldl (fun t k => t.portWrite o src (off + 16 * k.2) 16 0 none (fun y t => t.putGranule y k.1.1 k.1.2)) s

/-- What a mirror pair notes of an image that it stores (R290). -/
def Core.noteImage (addr : Word) (ks : List (Cap × Label)) (c : Core) : Core :=
  ks.zipIdx.foldl (fun c k => c.note (.bytes (storeStream (addr + BitVec.ofNat 64 (16 * k.2))
    (bytesOf 8 k.1.1.addr.toNat ++ bytesOf 8 k.1.1.hi.toNat)))) c

/-- What a write of an entry stores when the status word of the lens at `lo` may be meant (R61). -/
def entryVal (lo e : Nat) (v : LVal) : LVal := if e = lo then ⟨stMask v.v, v.l⟩ else v

/-- Whether a word stored at an entry is stored whole: the status word's reserved bits are not (R61), and a capability that loses them
loses its tag (R89). -/
def storedWhole (lo e : Nat) (w : Word) : Bool := decide (e ≠ lo ∨ stMask w = w)

/-- One entry filled from an image (R67): its label is its line's; a whole pair keeps its granule's tag with CAPRD.  A killed
core's store reads as 0 (R471). -/
def State.fillEntry (s : State) (p o off e n lo x : Nat) (keep : Bool) : State :=
  let a := lsBase o + off + 8 * (x - imageFirst e)
  let c := s.coreAt p
  let dead := decide ((s.coreAt o).cstate = .killed)
  let v : LVal := if dead then zeroVal else entryVal lo x ⟨BitVec.ofNat 64 (s.numAt a 8), s.labelAt a⟩
  let g := lsBase o + off + 8 * (x / 2 * 2 - imageFirst e)
  let whole := decide (e ≤ x / 2 * 2 ∧ x / 2 * 2 + 1 < e + n)
  let k := if dead then Cap.null else s.sweptCap c (s.granule g)
  let c1 := ((c.putEnt x v).noteVal v).noteEntry x
  let same := storedWhole lo (x / 2 * 2) k.addr && storedWhole lo (x / 2 * 2 + 1) k.hi
  if whole && decide (x % 2 = 1) then
    s.setCoreAt p { c1 with tags := c1.tags.put (fun _ => false) (x / 2 * 2) (k.tag && keep && same) }
  else s.setCoreAt p c1

def State.fillImage (s : State) (p o off e n lo : Nat) (keep : Bool) : State :=
  (List.range n).foldl (fun t i => t.fillEntry p o off e n lo (e + i) keep) s

/-- A move within the register store, as if through a copy (R83): a pair keeps its tag when it moves whole onto a pair (R61, R89). -/
def Core.moveEntries (c : Core) (src dst n lo : Nat) : Core :=
  let old := c
  let val := fun i => entryVal lo (dst + i) (old.ent (src + i))
  let put := fun (c : Core) i => ((c.putEnt (dst + i) (val i)).noteVal (val i)).noteEntry (dst + i)
  let c1 := (List.range n).foldl put c
  let tag := fun (c : Core) i =>
    if (dst + i) % 2 = 0 ∧ (src + i) % 2 = 0 ∧ i + 1 < n then
      let same := storedWhole lo (dst + i) (old.ent (src + i)).v && storedWhole lo (dst + i + 1) (old.ent (src + i + 1)).v
      { c with tags := c.tags.put (fun _ => false) (dst + i) (old.tagAt (src + i) && same) }
    else c
  (List.range n).foldl tag c1

/-- The local store and offset of a request's image; a move has none. -/
def State.spillPlace (s : State) (p : Nat) (r : SpillReq) : Option (Nat × Nat) :=
  match r.kind with
  | .spill => s.reach (s.coreAt p) r.addr (imageBytes r.src r.n)
  | .fill => s.reach (s.coreAt p) r.addr (imageBytes r.dst r.n)
  | .move => none

/-- Bytes of a request's image. -/
def SpillReq.bytes (r : SpillReq) : Nat :=
  match r.kind with
  | .fill => imageBytes r.dst r.n
  | _ => imageBytes r.src r.n

/-- An image stored at its port; a mirror pair notes it, and holds one for another core's store until its interval agrees (R290,
R291). -/
def State.storeImage (s : State) (p o off : Nat) (addr : Word) (ks : List (Cap × Label)) : State :=
  let s1 := s.onCore p (Core.noteImage addr ks)
  if (s.coreAt p).outbound o then (if ks.isEmpty then s1 else s1.onCore p (fun c => c.hold [.image o off addr ks]))
  else if (s.coreAt o).cstate = .killed then s1.tell o p addr
  else s1.putImage p o off ks

/-- A spill or a fill carried out at the port of the image's store (R66 to R68).  A spill that meets an entry above its
capability's label leaves those before it moved, and SPILLFAULT is due. -/
def State.spillMove (s : State) (p o off : Nat) (r : SpillReq) : State :=
  match r.kind with
  | .fill =>
    let s1 := s.fillImage p o off r.dst r.n r.lo r.keep
    if (s.coreAt o).cstate = .killed then s1.tell o p r.addr else s1
  | _ =>
    let k := (s.coreAt p).spillCount r.src r.n r.lab
    let s2 := s.storeImage p o off r.addr (s.imagePairs p r.src k)
    let s3 := s2.onCore p (Core.partDone s.hold r.id)
    if k = r.n then s3 else s3.onCore p (fun c => { c with dueSpill := c.dueSpill ++ [BitVec.ofNat 64 k] })

/-- The oldest request of a core's spill engine carried out (R66 to R68), or kept in the port's order while the port cannot take
it (R206, R211). -/
def State.spillStep (s : State) (p : Nat) : State :=
  let c := s.coreAt p
  match c.spillq with
  | [] => s
  | r :: rest =>
    let s1 := s.setCoreAt p { c with spillq := rest }
    match r.kind with
    | .move => s1.onCore p (fun c => c.moveEntries r.src r.dst r.n r.lo)
    | _ =>
      match s.spillPlace p r with
      | none => s1
      | some (o, off) =>
        if s.portReady c.part o (spillSrc p) off r.bytes then
          ((s1.portLeave o (spillSrc p)).spillMove p o off r).drain o
        else s.portPlace c.part o (spillSrc p) off r.bytes

/-- Requests carried out in order as far as they can be; `n` bounds their number. -/
def State.runSpills (s : State) (p : Nat) : Nat → State
  | 0 => s
  | n + 1 => State.runSpills (s.spillStep p) p n

/-- Whether two requests' images meet in one store. -/
def State.imagesMeet (s : State) (p : Nat) (a b : SpillReq) : Bool :=
  match s.spillPlace p a, s.spillPlace p b with
  | some x, some y => decide (x.1 = y.1 ∧ max x.2 y.2 < min (x.2 + a.bytes) (y.2 + b.bytes))
  | _, _ => false

/-- The stores that a request makes count under the lens of its issue; those of an earlier spill count under the lens of a fill
from the same area too (R68). -/
def State.spillCounts (s : State) (c : Core) (r : SpillReq) : List Unacked :=
  match r.kind with
  | .spill => [⟨r.id, 1, false, c.lo, c.top, false, some r⟩]
  | .fill => c.unacked.filterMap (fun u => match u.spill with
    | some x => if s.imagesMeet c.phys x r then some ⟨u.id, u.left, false, c.lo, c.top, false, none⟩ else none
    | none => none)
  | .move => []

/-- The entries that a request writes: earlier late writes to them are void, as if the move happened at issue (R48, R66). -/
def Core.cancelMoved (r : SpillReq) (c : Core) : Core :=
  match r.kind with
  | .spill => c
  | _ => c.cancelRange r.dst r.n

/-- A request handed to the spill engine (R66): carried out at once unless it has to wait. -/
def State.addSpill (s : State) (r : SpillReq) : State :=
  let c := s.core.cancelMoved r
  let q := { r with id := c.nextId, lo := c.lo }
  let c2 := { c with
    spillq := c.spillq ++ [q]
    unacked := c.unacked ++ s.spillCounts c q
    nextId := c.nextId + 1 }
  let s1 := { s with core := c2 }
  if s.hold then s1 else s1.runSpills c.phys c2.spillq.length

/-- The value a range outside bounds shows: its first address outside them. -/
def outside (lo top : Int) (x n : Nat) : Option Nat :=
  if (x : Int) < lo ∨ top ≤ (x : Int) then some x else if top < (x : Int) + n then some top.toNat else none

def outsideTrap (lo top : Int) (x n : Nat) : Fails := (outside lo top x n).map (fun v => (.bounds, BitVec.ofNat 64 v))

/-- A lens operand of a bulk move (R84, check 2). -/
def lensUse (n : Name) (k : Cap) (p : Perm) : Fails :=
  firstOf [failIf (!k.tag) .tag (nameVal n), failIf (decide (k.otype ≠ 2)) .seal (nameVal n),
    failIf (!k.can p) .perm (nameVal n)]

/-- Its range (R84, check 4), inside the register store. -/
def lensRange (k : Cap) (n : Nat) : Fails := outsideTrap k.base (min k.top 4096) k.addr.toNat n

/-- The image of a bulk move (R84, checks 3 and 4). -/
def State.imageTrap (s : State) (k : Cap) (bytes : Nat) : Fails :=
  firstOf [outsideTrap k.base k.top k.addr.toNat bytes, failIf (s.reach s.core k.addr bytes).isNone .bounds k.addr]

def alignTrap (nm : Name) (k : Cap) : Fails := failIf (decide (k.addr.toNat % 16 ≠ 0)) .align (nameVal nm)

def countTrap (n : Word) : Fails := failIf (decide (n.toNat < 1 ∨ 4080 < n.toNat)) .bounds n

/-- The tagged pairs that lie in [e, e + n), for an `n` that R84 allows. -/
def Core.taggedPairs (c : Core) (e n : Nat) : List Cap :=
  ((List.range (min n 4080 / 2 + 1)).map (fun i => (e + 1) / 2 * 2 + 2 * i)).filterMap (fun x =>
    if x + 1 < e + n ∧ c.tagAt x then some (c.capAt x) else none)

/-- LSPILL (R83, R84, R96). -/
def execLspill (h : Hd) (d a b : Name) (s : State) :=
  run (.lspill h d a b) s (fun s =>
    let m := s.core.rdCap d
    let l := s.core.rdCap a
    let nv := (s.core.rd b).v
    let n := nv.toNat
    let e := l.addr.toNat
    let mayWrite := m.can .store && (s.core.taggedPairs e n).all m.mayHold
    guarded (firstOf [countTrap nv, s.useTrap d m mayWrite, lensUse a l .load, alignTrap d m, lensRange l n,
      s.imageTrap m (imageBytes e n)]) s (fun s =>
      .done (s.addSpill ⟨.spill, e, 0, m.addr, n, m.label, false, 0, 0⟩)))

/-- LFILL (R83, R84). -/
def execLfill (h : Hd) (d a b : Name) (s : State) :=
  run (.lfill h d a b) s (fun s =>
    let l := s.core.rdCap d
    let m := s.core.rdCap a
    let nv := (s.core.rd b).v
    let n := nv.toNat
    let e := l.addr.toNat
    guarded (firstOf [countTrap nv, lensUse d l .store, s.useTrap a m (m.can .load), alignTrap a m, lensRange l n,
      s.imageTrap m (imageBytes e n)]) s (fun s =>
      .done (s.addSpill ⟨.fill, 0, e, m.addr, n, 0, m.can .caprd, 0, 0⟩)))

/-- LMOVE (R83, R84). -/
def execLmove (h : Hd) (d a b : Name) (s : State) :=
  run (.lmove h d a b) s (fun s =>
    let t := s.core.rdCap d
    let l := s.core.rdCap a
    let nv := (s.core.rd b).v
    let n := nv.toNat
    guarded (firstOf [countTrap nv, lensUse d t .store, lensUse a l .load, lensRange t n, lensRange l n]) s (fun s =>
      .done (s.addSpill ⟨.move, l.addr.toNat, t.addr.toNat, 0, n, 0, false, 0, 0⟩)))

end Sys2Proof.Machine
end

