-- ==== Sys2Proof/Machine/Scalar.lean ====
section
/-! DEFINITION. Scalar words: arithmetic, logic, shifts, fields, compares, branches and RPT (R149 to R175). -/

namespace Sys2Proof.Machine

open Sys2Proof

/-- A scalar result written to d and q (R149). -/
def scalarOut (d : Name) (v : LVal) (s : State) : Res := .done (s.mapCore (fun c => c.wrQ d v))

/-- A result of one, two or three operands, whose label is the highest of theirs (R149). -/
def scalar1 (d a : Name) (f : Word → Word) (s : State) : Res :=
  scalarOut d ⟨f (s.core.rd a).v, (s.core.rd a).l⟩ s

def scalar2 (d a b : Name) (f : Word → Word → Word) (s : State) : Res :=
  scalarOut d ⟨f (s.core.rd a).v (s.core.rd b).v, Label.max (s.core.rd a).l (s.core.rd b).l⟩ s

def scalar3 (d a b c : Name) (f : Word → Word → Word → Word) (s : State) : Res :=
  scalarOut d ⟨f (s.core.rd a).v (s.core.rd b).v (s.core.rd c).v,
    Label.max (Label.max (s.core.rd a).l (s.core.rd b).l) (s.core.rd c).l⟩ s

/-- A division's result, which lands late in d and in q (R152, R157). -/
def divide (d a b : Name) (f : Word → Word → Word) (s : State) : Res :=
  let v : LVal := ⟨f (s.core.rd a).v (s.core.rd b).v, Label.max (s.core.rd a).l (s.core.rd b).l⟩
  .done (s.mapCore (fun c => c.later (c.lateQ d v) 0 0 0 false))

/-- An immediate as a word (R166). -/
def immWord (imm : Int) : Word := BitVec.ofInt 64 imm

/-- The word whose bit `i` is `f i`. -/
def wordOfBits (f : Nat → Bool) : Word :=
  BitVec.ofNat 64 ((List.range 64).foldl (fun acc i => acc + (f i).toNat * 2 ^ i) 0)

/-- Results of R156. -/
def mulhS (x y : Word) : Word := BitVec.ofInt 64 (x.toInt * y.toInt / 2 ^ 64)
def mulhU (x y : Word) : Word := BitVec.ofNat 64 (x.toNat * y.toNat / 2 ^ 64)
def minS (x y : Word) : Word := if x.slt y then x else y
def maxS (x y : Word) : Word := if x.slt y then y else x
def minU (x y : Word) : Word := if x.ult y then x else y
def maxU (x y : Word) : Word := if x.ult y then y else x

/-- Quotients and remainders of R157. -/
def divS (x y : Word) : Word := if y = 0 then BitVec.allOnes 64 else BitVec.ofInt 64 (x.toInt.tdiv y.toInt)
def remS (x y : Word) : Word := if y = 0 then x else BitVec.ofInt 64 (x.toInt.tmod y.toInt)
def divU (x y : Word) : Word := if y = 0 then BitVec.allOnes 64 else BitVec.ofNat 64 (x.toNat / y.toNat)
def remU (x y : Word) : Word := if y = 0 then x else BitVec.ofNat 64 (x.toNat % y.toNat)

/-- A three-input table applied bit by bit (R159). -/
def table3 (t : Nat) (x y z : Word) : Word :=
  wordOfBits (fun i => t.testBit (4 * (x.getLsbD i).toNat + 2 * (y.getLsbD i).toNat + (z.getLsbD i).toNat))

/-- Shift counts are the low six bits (R160). -/
def count6 (y : Word) : Nat := y.toNat % 64
def rotl (x : Word) (n : Nat) : Word := if n = 0 then x else x <<< n ||| x >>> (64 - n)
def fshlW (x y z : Word) : Word := ((x ++ y : BitVec 128) <<< count6 z).extractLsb' 64 64
def fshrW (x y z : Word) : Word := ((x ++ y : BitVec 128) >>> count6 z).extractLsb' 0 64

/-- Bit counts and reversals of R162. -/
def clzW (x : Word) : Word := if x = 0 then 64 else BitVec.ofNat 64 (63 - log2 x.toNat)
def ctzW (x : Word) : Word := if x = 0 then 64 else BitVec.ofNat 64 (log2 (x &&& -x).toNat)
def popcW (x : Word) : Word := BitVec.ofNat 64 ((List.range 64).filter x.getLsbD).length
def brevW (x : Word) : Word := wordOfBits (fun i => x.getLsbD (63 - i))
def bswapW (x : Word) : Word := BitVec.ofNat 64 (ofBytes (bytesOf 8 x.toNat).reverse)

/-- Low bits of a word, extended (R163). -/
def sextW (width : Nat) (x : Word) : Word := (x.setWidth width).signExtend 64
def zextW (width : Nat) (x : Word) : Word := (x.setWidth width).setWidth 64

/-- Bits pos + width − 1 to pos of `x` replaced by the low bits of `y` (R164). -/
def insertW (pos width : Nat) (x y : Word) : Word :=
  wordOfBits (fun i => if pos ≤ i ∧ i < pos + width then y.getLsbD (i - pos) else x.getLsbD i)

def boolW (b : Bool) : Word := if b then 1 else 0

/-- A field that reaches past bit 63 is no field (R164). -/
def withField (pos width1 : Nat) (body : State → Res) (s : State) : Res :=
  if 64 < pos + width1 + 1 then .trap s .illegal (BitVec.ofNat 64 s.core.word) else body s

/-- A branch (R167): its target when the condition holds. -/
def branch (taken : Bool) (disp : Int) (s : State) : Res :=
  if taken then .jump s (s.core.pc + BitVec.ofInt 64 disp) else .done s

def branch2 (a b : Name) (disp : Int) (cond : Word → Word → Bool) (s : State) : Res :=
  branch (cond (s.core.rd a).v (s.core.rd b).v) disp s

/-- ADD to MAXZ (R156). -/
def execAdd (h : Hd) (d a b : Name) (s : State) := run (.add h d a b) s (scalar2 d a b (· + ·))
def execSub (h : Hd) (d a b : Name) (s : State) := run (.sub h d a b) s (scalar2 d a b (· - ·))
def execMul (h : Hd) (d a b : Name) (s : State) := run (.mul h d a b) s (scalar2 d a b (· * ·))
def execMulh (h : Hd) (d a b : Name) (s : State) := run (.mulh h d a b) s (scalar2 d a b mulhS)
def execMulhz (h : Hd) (d a b : Name) (s : State) := run (.mulhz h d a b) s (scalar2 d a b mulhU)
def execMin (h : Hd) (d a b : Name) (s : State) := run (.min h d a b) s (scalar2 d a b minS)
def execMax (h : Hd) (d a b : Name) (s : State) := run (.max h d a b) s (scalar2 d a b maxS)
def execMinz (h : Hd) (d a b : Name) (s : State) := run (.minz h d a b) s (scalar2 d a b minU)
def execMaxz (h : Hd) (d a b : Name) (s : State) := run (.maxz h d a b) s (scalar2 d a b maxU)

/-- DIV, DIVZ, REM, REMZ (R157). -/
def execDiv (h : Hd) (d a b : Name) (s : State) := run (.div h d a b) s (divide d a b divS)
def execDivz (h : Hd) (d a b : Name) (s : State) := run (.divz h d a b) s (divide d a b divU)
def execRem (h : Hd) (d a b : Name) (s : State) := run (.rem h d a b) s (divide d a b remS)
def execRemz (h : Hd) (d a b : Name) (s : State) := run (.remz h d a b) s (divide d a b remU)

/-- AND to XNOR (R158), LOGT (R159). -/
def execAndW (h : Hd) (d a b : Name) (s : State) := run (.andW h d a b) s (scalar2 d a b (· &&& ·))
def execOrW (h : Hd) (d a b : Name) (s : State) := run (.orW h d a b) s (scalar2 d a b (· ||| ·))
def execXor (h : Hd) (d a b : Name) (s : State) := run (.xor h d a b) s (scalar2 d a b (· ^^^ ·))
def execAndn (h : Hd) (d a b : Name) (s : State) := run (.andn h d a b) s (scalar2 d a b (fun x y => x &&& ~~~y))
def execOrn (h : Hd) (d a b : Name) (s : State) := run (.orn h d a b) s (scalar2 d a b (fun x y => x ||| ~~~y))
def execXnor (h : Hd) (d a b : Name) (s : State) := run (.xnor h d a b) s (scalar2 d a b (fun x y => ~~~(x ^^^ y)))
def execLogt (h : Hd) (d a b c : Name) (table : Nat) (s : State) :=
  run (.logt h d a b c table) s (scalar3 d a b c (table3 table))

/-- SHL, SHR, SAR, ROT (R160), FSHL and FSHR (R161). -/
def execShl (h : Hd) (d a b : Name) (s : State) := run (.shl h d a b) s (scalar2 d a b (fun x y => x <<< count6 y))
def execShr (h : Hd) (d a b : Name) (s : State) := run (.shr h d a b) s (scalar2 d a b (fun x y => x >>> count6 y))
def execSar (h : Hd) (d a b : Name) (s : State) :=
  run (.sar h d a b) s (scalar2 d a b (fun x y => x.sshiftRight (count6 y)))
def execRot (h : Hd) (d a b : Name) (s : State) := run (.rot h d a b) s (scalar2 d a b (fun x y => rotl x (count6 y)))
def execFshl (h : Hd) (d a b c : Name) (s : State) := run (.fshl h d a b c) s (scalar3 d a b c fshlW)
def execFshr (h : Hd) (d a b c : Name) (s : State) := run (.fshr h d a b c) s (scalar3 d a b c fshrW)

/-- CLZ to MOV (R162), SEXT and ZEXT (R163). -/
def execClz (h : Hd) (d a : Name) (s : State) := run (.clz h d a) s (scalar1 d a clzW)
def execCtz (h : Hd) (d a : Name) (s : State) := run (.ctz h d a) s (scalar1 d a ctzW)
def execPopc (h : Hd) (d a : Name) (s : State) := run (.popc h d a) s (scalar1 d a popcW)
def execBrev (h : Hd) (d a : Name) (s : State) := run (.brev h d a) s (scalar1 d a brevW)
def execBswap (h : Hd) (d a : Name) (s : State) := run (.bswap h d a) s (scalar1 d a bswapW)
def execMov (h : Hd) (d a : Name) (s : State) := run (.mov h d a) s (scalar1 d a (fun x => x))
def execSext (h : Hd) (d a : Name) (width1 : Nat) (s : State) := run (.sext h d a width1) s (scalar1 d a (sextW (width1 + 1)))
def execZext (h : Hd) (d a : Name) (width1 : Nat) (s : State) := run (.zext h d a width1) s (scalar1 d a (zextW (width1 + 1)))

/-- SEQ to SLTZ, SEL (R165). -/
def execSeq (h : Hd) (d a b : Name) (s : State) := run (.seq h d a b) s (scalar2 d a b (fun x y => boolW (x == y)))
def execSne (h : Hd) (d a b : Name) (s : State) := run (.sne h d a b) s (scalar2 d a b (fun x y => boolW (x != y)))
def execSlt (h : Hd) (d a b : Name) (s : State) := run (.slt h d a b) s (scalar2 d a b (fun x y => boolW (x.slt y)))
def execSltz (h : Hd) (d a b : Name) (s : State) := run (.sltz h d a b) s (scalar2 d a b (fun x y => boolW (x.ult y)))
def execSel (h : Hd) (d a b : Name) (s : State) :=
  run (.sel h d a b) s (scalar3 d .q a b (fun q x y => if q ≠ 0 then x else y))

/-- BFX, BFXZ, BFI (R164). -/
def execBfx (h : Hd) (d a : Name) (pos width1 : Nat) (s : State) :=
  run (.bfx h d a pos width1) s (withField pos width1 (scalar1 d a (fun x => sextW (width1 + 1) (x >>> pos))))
def execBfxz (h : Hd) (d a : Name) (pos width1 : Nat) (s : State) :=
  run (.bfxz h d a pos width1) s (withField pos width1 (scalar1 d a (fun x => zextW (width1 + 1) (x >>> pos))))
def execBfi (h : Hd) (d a : Name) (pos width1 : Nat) (s : State) :=
  run (.bfi h d a pos width1) s (withField pos width1 (scalar2 d d a (insertW pos (width1 + 1))))

/-- The immediate forms and LI (R166). -/
def execAddi (h : Hd) (d a : Name) (imm : Int) (s : State) := run (.addi h d a imm) s (scalar1 d a (· + immWord imm))
def execAndi (h : Hd) (d a : Name) (imm : Int) (s : State) := run (.andi h d a imm) s (scalar1 d a (· &&& immWord imm))
def execOri (h : Hd) (d a : Name) (imm : Int) (s : State) := run (.ori h d a imm) s (scalar1 d a (· ||| immWord imm))
def execXori (h : Hd) (d a : Name) (imm : Int) (s : State) := run (.xori h d a imm) s (scalar1 d a (· ^^^ immWord imm))
def execShli (h : Hd) (d a : Name) (imm : Int) (s : State) :=
  run (.shli h d a imm) s (scalar1 d a (fun x => x <<< count6 (immWord imm)))
def execShri (h : Hd) (d a : Name) (imm : Int) (s : State) :=
  run (.shri h d a imm) s (scalar1 d a (fun x => x >>> count6 (immWord imm)))
def execSari (h : Hd) (d a : Name) (imm : Int) (s : State) :=
  run (.sari h d a imm) s (scalar1 d a (fun x => x.sshiftRight (count6 (immWord imm))))
def execSlti (h : Hd) (d a : Name) (imm : Int) (s : State) :=
  run (.slti h d a imm) s (scalar1 d a (fun x => boolW (x.slt (immWord imm))))
def execLi (h : Hd) (d : Name) (imm : Int) (s : State) := run (.li h d imm) s (scalarOut d ⟨immWord imm, 0⟩)

/-- Branches and J (R167). -/
def execBeq (h : Hd) (a b : Name) (disp : Int) (s : State) := run (.beq h a b disp) s (branch2 a b disp (· == ·))
def execBne (h : Hd) (a b : Name) (disp : Int) (s : State) := run (.bne h a b disp) s (branch2 a b disp (· != ·))
def execBlt (h : Hd) (a b : Name) (disp : Int) (s : State) := run (.blt h a b disp) s (branch2 a b disp BitVec.slt)
def execBge (h : Hd) (a b : Name) (disp : Int) (s : State) :=
  run (.bge h a b disp) s (branch2 a b disp (fun x y => !(x.slt y)))
def execBlo (h : Hd) (a b : Name) (disp : Int) (s : State) := run (.blo h a b disp) s (branch2 a b disp BitVec.ult)
def execBhs (h : Hd) (a b : Name) (disp : Int) (s : State) :=
  run (.bhs h a b disp) s (branch2 a b disp (fun x y => !(x.ult y)))
def execBz (h : Hd) (a : Name) (disp : Int) (s : State) :=
  run (.bz h a disp) s (fun s => branch ((s.core.rd a).v == 0) disp s)
def execBnz (h : Hd) (a : Name) (disp : Int) (s : State) :=
  run (.bnz h a disp) s (fun s => branch ((s.core.rd a).v != 0) disp s)
def execJ (h : Hd) (disp : Int) (s : State) := run (.j h disp) s (branch true disp)

/-- The first repetition RPT issues (R170): where sy.rpt left off after ERET, else the first. -/
def firstRep (resume : Option Nat) (n : Nat) : Nat :=
  match resume with
  | some r => if 1 ≤ r ∧ r ≤ n then n - r else 0
  | none => 0

/-- RPT (R170): the repetition begins; the PC stays at the RPT word until the last one completes. -/
def repeatNext (n1 steps stride : Nat) (s : State) : Res :=
  .enter (s.mapCore (fun c =>
    { c with rep := some ⟨n1 + 1, firstRep c.resume (n1 + 1), steps, stride⟩, resume := none, stalled := false }))
def execRpt (h : Hd) (n1 steps stride : Nat) (s : State) := run (.rpt h n1 steps stride) s (repeatNext n1 steps stride)

end Sys2Proof.Machine
end

