-- ==== Sys2Proof/Machine/Capab.lean ====
section
/-! DEFINITION. The capability instructions and revocation (R85 to R119). -/

namespace Sys2Proof.Machine

open Sys2Proof

/-- "The result's labels" (R106 to R114): the highest entry label of the operands read. -/
def Core.labelsOf (c : Core) (caps scalars : List Name) : Label :=
  Label.maxOf (caps.map c.capLabel ++ scalars.map (fun n => (c.rd n).l))

/-- A capability result with its labels. -/
def capOut (d : Name) (k : Cap) (l : Label) (s : State) : Res := .done (s.mapCore (fun c => c.wrCap d k l))

/-- A word result of a capability instruction; q is not written. -/
def wordOut (d : Name) (v : LVal) (s : State) : Res := .done (s.mapCore (fun c => c.wr d v))

/-- A number as a word, saturated at 2^64 - 1 and at 0 (R107, R117). -/
def satWord (n : Int) : Word := if n < 0 then 0 else if 2 ^ 64 ≤ n then BitVec.allOnes 64 else BitVec.ofInt 64 n

/-- CGET's selectors (R107). -/
def Cap.field (k : Cap) (fsel : Nat) : Word :=
  match fsel with
  | 0 => BitVec.ofInt 64 k.base
  | 1 => satWord k.top
  | 2 => satWord (k.top - k.base)
  | 3 => k.addr
  | 4 => k.perm.setWidth 64
  | 5 => k.otype.setWidth 64
  | 6 => k.label.setWidth 64
  | _ => boolW k.tag

/-- CGET (R107). -/
def execCget (h : Hd) (fsel : Nat) (d a : Name) (s : State) :=
  run (.cget h fsel d a) s (fun s => wordOut d ⟨(s.core.rdCap a).field fsel, s.core.capLabel a⟩ s)

/-- SEAL for a tagged, sealed source. -/
def sealedTrap (n : Name) (k : Cap) : Fails := failIf (k.tag && decide (k.otype ≠ 0)) .seal (nameVal n)

/-- A new address (R108). -/
def moveAddr (d a : Name) (l : Label) (n : Int) (s : State) : Res :=
  let k := s.core.rdCap a
  guarded (sealedTrap a k) s (capOut d (k.moveTo n) l)

/-- CSETADDR, CINCADDR, CINCADDRI (R108). -/
def execCsetaddr (h : Hd) (d a b : Name) (s : State) :=
  run (.csetaddr h d a b) s (fun s => moveAddr d a (s.core.labelsOf [a] [b]) (s.core.rd b).v.toNat s)
def execCincaddr (h : Hd) (d a b : Name) (s : State) :=
  run (.cincaddr h d a b) s (fun s =>
    moveAddr d a (s.core.labelsOf [a] [b]) ((s.core.rdCap a).addr.toNat + (s.core.rd b).v.toInt) s)
def execCincaddri (h : Hd) (d a : Name) (imm : Int) (s : State) :=
  run (.cincaddri h d a imm) s (fun s =>
    moveAddr d a (s.core.labelsOf [a] []) ((s.core.rdCap a).addr.toNat + imm) s)

/-- The bounds that CNARROW lays over [lo, hi): rounded outward (R109). -/
def narrowed (lo hi : Nat) : Nat × Nat :=
  let g := 2 ^ boundsExp lo hi
  (lo / g * g, (hi + g - 1) / g * g)

/-- CNARROW and CNARROWX (R109). -/
def narrow (exact : Bool) (d a b : Name) (s : State) : Res :=
  let k := s.core.rdCap a
  let len := (s.core.rd b).v
  let lo := k.addr.toNat
  let hi := lo + len.toNat
  guarded (firstOf [failIf (!k.tag) .tag (nameVal a), failIf (decide (k.otype ≠ 0)) .seal (nameVal a),
    failIf (decide ((lo : Int) < k.base ∨ k.top < (hi : Int))) .bounds k.addr,
    failIf (exact && decide (narrowed lo hi ≠ (lo, hi))) .bounds len]) s
    (capOut d (k.withBounds lo hi) (s.core.labelsOf [a] [b]))

def execCnarrow (h : Hd) (d a b : Name) (s : State) := run (.cnarrow h d a b) s (narrow false d a b)
def execCnarrowx (h : Hd) (d a b : Name) (s : State) := run (.cnarrowx h d a b) s (narrow true d a b)

/-- CDROP (R110). -/
def execCdrop (h : Hd) (d a b : Name) (s : State) :=
  run (.cdrop h d a b) s (fun s =>
    let k := s.core.rdCap a
    guarded (sealedTrap a k) s
      (capOut d { k with perm := k.perm &&& (s.core.rd b).v.setWidth 14 } (s.core.labelsOf [a] [b])))

/-- CRAISELBL (R111). -/
def execCraiselbl (h : Hd) (d a b : Name) (s : State) :=
  run (.craiselbl h d a b) s (fun s =>
    let k := s.core.rdCap a
    let v := (s.core.rd b).v
    guarded (firstOf [failIf (decide (7 < v.toNat)) .bounds v, sealedTrap a k,
      failIf (k.tag && decide (k.label < v.setWidth 3) && !k.can .declass) .perm (nameVal a)]) s
      (capOut d { k with label := v.setWidth 3 } (s.core.labelsOf [a] [b])))

/-- A capability without ROAM unless another has it too (R112, R113). -/
def Cap.roamIf (k : Cap) (p : Bool) : Cap := if p then k else k.drop .roam

/-- CSEAL (R112). -/
def execCseal (h : Hd) (d a b : Name) (s : State) :=
  run (.cseal h d a b) s (fun s =>
    let k := s.core.rdCap a
    let w := s.core.rdCap b
    let t := w.addr.toNat
    guarded (firstOf [failIf (!k.tag) .tag (nameVal a), failIf (!w.tag) .tag (nameVal b),
      failIf (decide (k.otype ≠ 0)) .seal (nameVal a), failIf (decide (w.otype ≠ 0)) .seal (nameVal b),
      failIf (!w.can .sealer) .perm (nameVal b),
      failIf (!w.covers t 1 || decide (t = 0 ∨ t = 1 ∨ t = 7 ∨ 15 ≤ t)) .bounds w.addr]) s
      (capOut d ({ k with otype := BitVec.ofNat 4 t }.roamIf (w.can .roam)) (s.core.labelsOf [a, b] [])))

/-- CUNSEAL (R113). -/
def execCunseal (h : Hd) (d a b : Name) (s : State) :=
  run (.cunseal h d a b) s (fun s =>
    let k := s.core.rdCap a
    let w := s.core.rdCap b
    guarded (firstOf [failIf (!k.tag) .tag (nameVal a), failIf (!w.tag) .tag (nameVal b),
      failIf (decide (k.otype = 0 ∨ k.otype = 1 ∨ k.otype = 7)) .seal (nameVal a),
      failIf (decide (w.otype ≠ 0)) .seal (nameVal b), failIf (!w.can .opener) .perm (nameVal b),
      failIf (!w.covers w.addr.toNat 1) .bounds w.addr, failIf (decide (w.addr ≠ k.otype.setWidth 64)) .seal (nameVal b)]) s
      (capOut d ({ k with otype := 0 }.roamIf (w.can .roam)) (s.core.labelsOf [a, b] [])))

/-- CGATE (R114). -/
def execCgate (h : Hd) (d a : Name) (s : State) :=
  run (.cgate h d a) s (fun s =>
    let k := s.core.rdCap a
    guarded (firstOf [failIf (!k.tag) .tag (nameVal a), failIf (decide (k.otype ≠ 0)) .seal (nameVal a),
      failIf (!k.can .exec) .perm (nameVal a)]) s (capOut d { k with otype := 1 } (s.core.labelsOf [a] [])))

/-- A pair copied, each entry with its own label (R115). -/
def Core.copyPair (c : Core) (d a : Name) (keep : Bool) : Core :=
  let x := c.physOf a
  let e := c.physOf d
  let lo := c.ent x
  let hi := c.ent (x + 1)
  let t := c.tagAt x && keep
  let c1 := ((c.cancel (.pair e)).putEnt e lo).putEnt (e + 1) hi
  (({ c1 with tags := c1.tags.put (fun _ => false) (e / 2 * 2) t }.noteVal lo).noteVal hi).noteEntries [e, e + 1]

/-- CSTRIP and CMOV (R115). -/
def execCstrip (h : Hd) (d a : Name) (s : State) :=
  run (.cstrip h d a) s (fun s => .done (s.mapCore (fun c => c.copyPair d a false)))
def execCmov (h : Hd) (d a : Name) (s : State) :=
  run (.cmov h d a) s (fun s => .done (s.mapCore (fun c => c.copyPair d a true)))

/-- CWITHIN (R116). -/
def execCwithin (h : Hd) (d a b : Name) (s : State) :=
  run (.cwithin h d a b) s (fun s =>
    wordOut d ⟨boolW ((s.core.rdCap a).within (s.core.rdCap b)), s.core.labelsOf [a, b] []⟩ s)

/-- CFITLEN and CFITMASK (R117). -/
def execCfitlen (h : Hd) (d a : Name) (s : State) :=
  run (.cfitlen h d a) s (fun s =>
    let n := (s.core.rd a).v.toNat
    let e := boundsExp 0 n
    wordOut d ⟨satWord (ceilDiv2 n e * 2 ^ e : Nat), (s.core.rd a).l⟩ s)
def execCfitmask (h : Hd) (d a : Name) (s : State) :=
  run (.cfitmask h d a) s (fun s =>
    let e := boundsExp 0 (s.core.rd a).v.toNat
    wordOut d ⟨~~~(BitVec.ofNat 64 (2 ^ e - 1)), (s.core.rd a).l⟩ s)

/-- CVBASE and CVLEN of the descriptor at a place (R101); a killed core's store reads as 0 (R471). -/
def State.bitmapAt (s : State) (o off : Nat) : Nat × Nat :=
  if (s.coreAt o).cstate = .killed then (0, 0) else (s.numAt (lsBase o + off) 8, s.numAt (lsBase o + off + 8) 8)

/-- Bytes of a bitmap that covers `cvlen` bytes, with its descriptor (R101). -/
def bitmapBytes (cvlen : Nat) : Nat := 32 + (cvlen + 2047) / 2048

/-- Whether a bitmap capability covers its bitmap, and one local store holds it (R101). -/
def State.bitmapFits (s : State) (m : Cap) (cvlen : Nat) : Bool :=
  m.covers m.base (bitmapBytes cvlen) && (s.reach s.core (BitVec.ofInt 64 m.base) (bitmapBytes cvlen)).isSome

/-- The bitmap's bytes that cover [lo, hi), by number, each with the bits to set (R101). -/
def markBytes (cvbase lo hi : Nat) : List (Nat × Nat) :=
  if hi ≤ lo then []
  else
    let a := lo / 256 - cvbase / 256
    let b := (hi - 1) / 256 - cvbase / 256
    (List.range (b / 8 - a / 8 + 1)).map (fun j =>
      let k := a / 8 + j
      (k, 2 ^ (min b (8 * k + 7) - 8 * k + 1) - 2 ^ (max a (8 * k) - 8 * k)))

/-- Bits of a bitmap's byte set: read and written at the port (R118); in a killed core's store nothing is (R471). -/
def State.markAt (s : State) (p o off bits : Nat) : State :=
  if (s.coreAt o).cstate = .killed then s
  else s.portWrite o p off 1 0 (some 0) (fun y t => t.store y (bytesOf 1 (t.numAt y 1 ||| bits)) 0)

/-- The bits of a region set, or held by a mirror pair when the bitmap is in another core's store (R106, R118). -/
def State.markAll (s : State) (o off : Nat) (ms : List (Nat × Nat)) : State :=
  let c := s.core
  if c.outbound o then s.mapCore (fun c => c.hold (ms.map (fun m => Held.mark o (off + 32 + m.1) m.2)))
  else ms.foldl (fun t m => t.markAt c.phys o (off + 32 + m.1) m.2) (s.mapCore (fun c => c.countWrites ms.length))

/-- An access that a killed core's port answers is reported (R471). -/
def State.answered (s : State) (o : Nat) (x : Word) : State :=
  if (s.coreAt o).cstate = .killed then s.tell o s.core.phys x else s

/-- CRVMARK (R118).  A descriptor or a bitmap that no local store holds, or that the capability does not cover, raises BOUNDS with
Base(m) (notes/assumptions/87.md). -/
def execCrvmark (h : Hd) (a b : Name) (s : State) :=
  run (.crvmark h a b) s (fun s =>
    let r := s.core.rdCap a
    let m := s.core.rdCap b
    let x := BitVec.ofInt 64 m.base
    let place := s.reach s.core x 32
    let o := (place.getD (0, 0)).1
    let off := (place.getD (0, 0)).2
    let d := s.bitmapAt o off
    if s.core.gang.fused then .trap s .illegal (BitVec.ofNat 64 s.core.word)
    else
      guarded (firstOf [failIf (!r.tag) .tag (nameVal a), failIf (!m.tag) .tag (nameVal b),
        failIf (decide (m.otype ≠ 0)) .seal (nameVal b),
        failIf (!(m.can .sweeper && m.can .load && m.can .store)) .perm (nameVal b),
        failIf (decide (m.base % 32 ≠ 0)) .align (nameVal b), failIf place.isNone .bounds x]) s (fun s =>
        afterAcquire s (fun s => atPort o off (bitmapBytes d.2) s (fun s =>
          guarded (firstOf [failIf (decide (r.base < d.1 ∨ (d.1 : Int) + d.2 < r.top)) .bounds (BitVec.ofInt 64 r.base),
            failIf (!s.bitmapFits m d.2) .bounds x]) (s.answered o x) (fun s =>
            .done (s.markAll o off (markBytes d.1 r.base.toNat r.top.toNat)))))))

/-- The nonzero bytes of a bitmap, by index (R101). -/
def State.marksAt (s : State) (o off cvlen : Nat) : SMap (BitVec 8) :=
  let a := lsBase o + off + 32
  (s.mem.range a (a + (cvlen + 2047) / 2048)).map (fun e => (e.1 - a, e.2))

/-- A sweep of a core's partition begins (R102, R103): its core makes its own check at once. -/
def State.startSweep (s : State) (p o off : Nat) : State :=
  let d := s.bitmapAt o off
  State.sweepCheck { s with
    sweeps := s.sweeps.list (s.coreAt p).part ⟨o, off, d.1, d.2, s.marksAt o off d.2, []⟩ } p

/-- CSWEEP (R119): the notices are sent and the issuing core makes its own check; one sweep of a partition at a time
(R104).  A mirror pair holds the start until its interval agrees (R106). -/
def execCsweep (h : Hd) (a : Name) (s : State) :=
  run (.csweep h a) s (fun s =>
    let m := s.core.rdCap a
    let place := s.reach s.core (BitVec.ofInt 64 m.base) 32
    let o := (place.getD (0, 0)).1
    let off := (place.getD (0, 0)).2
    let d := s.bitmapAt o off
    let bad := decide (d.1 % 256 ≠ 0 ∨ d.1 < 0x10000 ∨ d.2 = 0 ∨ d.2 % 256 ≠ 0) || !s.bitmapFits m d.2
    if s.core.gang.fused then .trap s .illegal (BitVec.ofNat 64 s.core.word)
    else
      guarded (firstOf [failIf (!m.tag) .tag (nameVal a), failIf (decide (m.otype ≠ 0)) .seal (nameVal a),
        failIf (!(m.can .sweeper && m.can .load)) .perm (nameVal a), failIf place.isNone .bounds m.addr]) s (fun s =>
        afterAcquire s (fun s => atPort o off 32 s (fun s =>
          guarded (failIf bad .bounds m.addr) (s.answered o m.addr) (fun s =>
            if (s.sweepOf s.core).isSome then .wait s
            else if s.core.interval.isSome then .done (s.mapCore (fun c => c.hold [.sweep o off]))
            else .done (s.startSweep s.core.phys o off))))))

end Sys2Proof.Machine
end

