-- ==== Sys2Proof/Machine/Line.lean ====
section
/-! DEFINITION. Lines: loads, stores, gathers, scatters, atomics, and the bank groups (R201 to R224). -/

namespace Sys2Proof.Machine

open Sys2Proof

/-- The address of an access (R215). -/
def accessAddr (k : Cap) (off : Int) : Word := k.addr + BitVec.ofInt 64 off

/-- The store and offset that an access reaches; its checks have passed. -/
def State.placeOf (s : State) (x : Word) (n : Nat) : Nat × Nat := (s.reach s.core x n).getD (0, 0)

/-- LD (R215): one load for each aligned 8-byte part. -/
def loadScalar (n : Nat) (signed : Bool) (d a : Name) (off : Int) (s : State) : Res :=
  let k := s.core.rdCap a
  let x := accessAddr k off
  guarded (s.accessTrap a k (k.can .load) 1 n x none) s (fun s => afterAcquire s (fun s =>
    let p := s.placeOf x n
    .done (s.issueLoad p.1 p.2 x (s.core.latePlace d zeroVal) false false
      ((partsOf p.2 n).map (fun q => (q.1, .load 0 q.1 q.2 n signed))))))

/-- ST (R215): one store for each aligned 8-byte part. -/
def storeScalar (n : Nat) (d a : Name) (off : Int) (s : State) : Res :=
  let k := s.core.rdCap a
  let x := accessAddr k off
  let v := s.core.rd d
  guarded (s.accessTrap a k (k.can .store) 1 n x (some v.l)) s (fun s => afterAcquire s (fun s =>
    let p := s.placeOf x n
    let data := bytesOf n v.v.toNat
    .done (s.issueStore p.1 p.2 x data false false
      ((partsOf p.2 n).map (fun q => (q.1, .store ((data.drop q.1).take q.2) v.l (some (log2 q.2))))))))

def execLdS8 (h : Hd) (d a : Name) (off : Int) (s : State) := run (.ldS8 h d a off) s (loadScalar 1 true d a off)
def execLdZ8 (h : Hd) (d a : Name) (off : Int) (s : State) := run (.ldZ8 h d a off) s (loadScalar 1 false d a off)
def execLdS16 (h : Hd) (d a : Name) (off : Int) (s : State) := run (.ldS16 h d a off) s (loadScalar 2 true d a off)
def execLdZ16 (h : Hd) (d a : Name) (off : Int) (s : State) := run (.ldZ16 h d a off) s (loadScalar 2 false d a off)
def execLdS32 (h : Hd) (d a : Name) (off : Int) (s : State) := run (.ldS32 h d a off) s (loadScalar 4 true d a off)
def execLdZ32 (h : Hd) (d a : Name) (off : Int) (s : State) := run (.ldZ32 h d a off) s (loadScalar 4 false d a off)
def execLdD (h : Hd) (d a : Name) (off : Int) (s : State) := run (.ldD h d a off) s (loadScalar 8 false d a off)
def execStB (h : Hd) (d a : Name) (off : Int) (s : State) := run (.stB h d a off) s (storeScalar 1 d a off)
def execStH (h : Hd) (d a : Name) (off : Int) (s : State) := run (.stH h d a off) s (storeScalar 2 d a off)
def execStW (h : Hd) (d a : Name) (off : Int) (s : State) := run (.stW h d a off) s (storeScalar 4 d a off)
def execStD (h : Hd) (d a : Name) (off : Int) (s : State) := run (.stD h d a off) s (storeScalar 8 d a off)

/-- The pair that a capability load writes (R94). -/
def Core.latePair (c : Core) (d : Name) : List TWrite := [⟨.pair (c.physOf d), 0, 0, false, 0⟩]

/-- LDC and STC (R216). -/
def execLdc (h : Hd) (d a : Name) (off : Int) (s : State) :=
  run (.ldc h d a off) s (fun s =>
    let k := s.core.rdCap a
    let x := accessAddr k off
    guarded (s.accessTrap a k (k.can .load) 16 16 x none) s (fun s => afterAcquire s (fun s =>
      let p := s.placeOf x 16
      .done (s.issueLoad p.1 p.2 x (s.core.latePair d) false false [(0, .loadCap (k.can .caprd))]))))

/-- The bytes of a capability in memory (R86). -/
def Cap.bytes (k : Cap) : List Byte := bytesOf 8 k.addr.toNat ++ bytesOf 8 k.hi.toNat

def execStc (h : Hd) (d a : Name) (off : Int) (s : State) :=
  run (.stc h d a off) s (fun s =>
    let k := s.core.rdCap a
    let x := accessAddr k off
    let v := s.core.rdCap d
    let l := s.core.capLabel d
    guarded (s.accessTrap a k (k.can .store && k.mayHold v) 16 16 x (some l)) s (fun s => afterAcquire s (fun s =>
      let p := s.placeOf x 16
      .done (s.issueStore p.1 p.2 x v.bytes false false [(0, .storeCap v l)]))))

/-- The four entries that a vector load writes (R176). -/
def Core.lateVec (c : Core) (d : Name) : List TWrite :=
  (List.range 4).map (fun i => ⟨.entry (c.physOf d + i), 0, 0, false, 0⟩)

/-- LDV and STV (R217): four 8-byte parts. -/
def execLdv (h : Hd) (d a : Name) (off : Int) (s : State) :=
  run (.ldv h d a off) s (fun s =>
    let k := s.core.rdCap a
    let x := accessAddr k off
    guarded (s.accessTrap a k (k.can .load) 32 32 x none) s (fun s => afterAcquire s (fun s =>
      let p := s.placeOf x 32
      .done (s.issueLoad p.1 p.2 x (s.core.lateVec d) false false
        ((List.range 4).map (fun i => (8 * i, .load i 0 8 8 false)))))))

def execStv (h : Hd) (d a : Name) (off : Int) (s : State) :=
  run (.stv h d a off) s (fun s =>
    let k := s.core.rdCap a
    let x := accessAddr k off
    let vs := s.core.rdMany d 4
    let l := Label.maxOf (vs.map LVal.l)
    guarded (s.accessTrap a k (k.can .store) 32 32 x (some l)) s (fun s => afterAcquire s (fun s =>
      let p := s.placeOf x 32
      let data := vs.flatMap (fun v => bytesOf 8 v.v.toNat)
      .done (s.issueStore p.1 p.2 x data false false
        ((List.range 4).map (fun i =>
          (8 * i, .store ((data.drop (8 * i)).take 8) l (if i = 0 then some 5 else none))))))))

/-- The bytes and the extension of a load type (R215). -/
def loadType : Ty → Nat × Bool
  | .s8 => (1, true) | .sz8 => (1, false) | .s16 => (2, true) | .sz16 => (2, false) | .s32 => (4, true)
  | .sz32 => (4, false) | _ => (8, false)

/-- The bytes of a store type (R215). -/
def storeType : Ty → Nat
  | .sb => 1 | .sh => 2 | .sw => 4 | _ => 8

/-- LDA (R220, R483): one access of the whole; later accesses wait until it has landed; `sc` waits for earlier stores; at clus
scope or wider it lands behind the cluster's inbound card buffer. -/
def execLda (h : Hd) (d a : Name) (off : Int) (typ : Ty) (ord : Ord) (scope : Scope) (s : State) :=
  run (.lda h d a off typ ord scope) s (fun s =>
    let k := s.core.rdCap a
    let x := accessAddr k off
    let n := (loadType typ).1
    guarded (s.accessTrap a k (k.can .load) n n x none) s (fun s => afterAcquire s (fun s =>
      afterRelease (decide (ord = .sc)) s (fun s =>
        let p := s.placeOf x n
        .done (s.issueLoad p.1 p.2 x (s.core.latePlace d zeroVal) true (isWide scope) [(0, .load 0 0 n n (loadType typ).2)])))))

/-- STL (R220): waits for every earlier store, atomic and message; after `sc` later accesses wait for it. -/
def execStl (h : Hd) (d a : Name) (off : Int) (typ : Ty) (ord : Ord) (scope : Scope) (s : State) :=
  run (.stl h d a off typ ord scope) s (fun s =>
    let k := s.core.rdCap a
    let x := accessAddr k off
    let v := s.core.rd d
    let n := storeType typ
    let p := s.placeOf x n
    let data := bytesOf n v.v.toNat
    let issue := fun s : State =>
      Res.done (s.issueStore p.1 p.2 x data true (decide (ord = .sc)) [(0, .store data v.l (some (log2 n)))])
    guarded (s.accessTrap a k (k.can .store) n n x (some v.l)) s (fun s => afterAcquire s (fun s =>
      if s.core.outbound p.1 then afterReleaseOut true s issue else afterRelease true s issue)))

/-- The lane mask that MK names, and its label (R177): every lane for MK 0. -/
def Core.mask (c : Core) (mk : Nat) : LVal := if mk = 0 then ⟨BitVec.allOnes 64, 0⟩ else c.rd (.o mk)

/-- The 32-bit value of lane `i` of a vector (R176). -/
def lane32 (vs : List LVal) (i : Nat) : BitVec 32 := ((vs.getD (i / 2) zeroVal).v).extractLsb' (32 * (i % 2)) 32

/-- A lane of a gather or scatter (R218): its number, its address, whether it faults and whether by alignment alone. -/
structure GLane where
  i : Nat
  x : Word
  bad : Bool
  alignOnly : Bool
  deriving DecidableEq, Repr

/-- The active lanes of a gather or scatter with their checks (R218). -/
def State.lanes (s : State) (k : Cap) (b : Name) (off : Int) (mk : Nat) : List GLane :=
  let vs := s.core.rdMany b 4
  let m := (s.core.mask mk).v
  ((List.range 8).filter m.getLsbD).map (fun i =>
    let x := accessAddr k off + (lane32 vs i).signExtend 64
    let mis := decide (x.toNat % 4 ≠ 0)
    let out := !k.covers x.toNat 4 || (s.reach s.core x 4).isNone
    ⟨i, x, mis || out, mis && !out⟩)

/-- A set of lanes as bits. -/
def laneBits (ls : List Nat) : Nat := ls.foldl (fun acc i => acc ||| 2 ^ i) 0

/-- sy.tval of a gather or scatter with faulting lanes, and whether there are any (R218). -/
def faultBits (ls : List GLane) : Nat := laneBits ((ls.filter (fun l => l.bad)).map GLane.i)
def alignBits (ls : List GLane) : Nat := laneBits ((ls.filter (fun l => l.bad && l.alignOnly)).map GLane.i)
def laneTval (ls : List GLane) : Word := BitVec.ofNat 64 (alignBits ls * 256 + faultBits ls)

/-- The places that a gather writes (R218, R219): the destination with the performed lanes still empty, and for LDVG.nf
the register that takes the faulting lanes. -/
def Core.gatherPlaces (c : Core) (d : Name) (mk : Nat) (good : List Nat) (nf : Option (Nat × Nat)) : List TWrite :=
  let old := c.rdMany d 4
  let l0 := if mk = 0 then 0 else (c.mask mk).l
  let lab := if good.length = 8 then l0 else Label.max l0 (Label.maxOf (old.map LVal.l))
  let keep := fun j => (if good.contains (2 * j) then 0 else (lane32 old (2 * j)).toNat) +
    (if good.contains (2 * j + 1) then 0 else (lane32 old (2 * j + 1)).toNat * 2 ^ 32)
  (List.range 4).map (fun j => ⟨.entry (c.physOf d + j), BitVec.ofNat 64 (keep j), 0, false, lab⟩) ++
    (match nf with
      | some (o, f) => [⟨.o o, BitVec.ofNat 64 f, 0, false, 0⟩]
      | none => [])

/-- LDVG and LDVG.nf (R218, R219).  An LDVG that traps with no lane performed writes
nothing. -/
def gather (d a b : Name) (off : Int) (mk : Nat) (nf : Option Nat) (s : State) : Res :=
  let k := s.core.rdCap a
  guarded (s.useTrap a k (k.can .load)) s (fun s => afterAcquire s (fun s =>
    let ls := s.lanes k b off mk
    let good := ls.filter (fun l => !l.bad)
    let traps := decide (faultBits ls ≠ 0 ∧ nf = none)
    let ws := s.core.gatherPlaces d mk (good.map GLane.i) (nf.map (fun o => (o, faultBits ls)))
    let c := s.core
    let s1 := { s with core := (c.later ws 0 0 good.length false).joinPlaces c.nextId }
    let t := good.foldl (fun t l =>
      let p := s.placeOf l.x 4
      t.access p.1 ⟨c.phys, c.nextId, p.2, l.x, .load (l.i / 2) (4 * (l.i % 2)) 4 8 false, false⟩) s1
    if traps then .trap (if good.isEmpty then s else t) .bounds (laneTval ls) else .done t))

def execLdvg (h : Hd) (d a b : Name) (off : Int) (mk : Nat) (typ : Ty) (s : State) :=
  run (.ldvg h d a b off mk typ) s (gather d a b off mk none)
def execLdvgNf (h : Hd) (d a b c : Name) (off : Int) (mk : Nat) (typ : Ty) (s : State) :=
  run (.ldvgNf h d a b c off mk typ) s (gather d a b off mk (some (match c with
    | .o i => i
    | _ => 0)))

/-- STVS (R218, R219): lanes in increasing order, after the label check of each. -/
def execStvs (h : Hd) (d a b : Name) (off : Int) (mk : Nat) (typ : Ty) (s : State) :=
  run (.stvs h d a b off mk typ) s (fun s =>
    let k := s.core.rdCap a
    guarded (s.useTrap a k (k.can .store)) s (fun s => afterAcquire s (fun s =>
      let ls := s.lanes k b off mk
      let vs := s.core.rdMany d 4
      let good := ls.filter (fun l => !l.bad)
      let lab := fun l : GLane => (vs.getD (l.i / 2) zeroVal).l
      guarded ((good.find? (fun l => decide (k.label < lab l))).map (fun l => (.label, l.x))) s (fun s =>
        let c := s.core
        let one := fun (t : State) (l : GLane) =>
          let p := s.placeOf l.x 4
          t.issueStore p.1 p.2 l.x (bytesOf 4 (lane32 vs l.i).toNat) false false
            [(0, .store (bytesOf 4 (lane32 vs l.i).toNat) (lab l) (some 2))]
        let t := good.foldl one { s with core := c }
        if faultBits ls ≠ 0 then .trap t .bounds (laneTval ls) else .done t))))

/-- A remote atomic of a mirror pair (R214): it ends the interval first, the even core alone sends it, and the odd core
takes its result; a result that a rolled-back interval had is taken again. -/
def pairedAtomic (o : Nat) (s : State) (body : State → Res) : Res :=
  match s.core.interval with
  | none =>
    match s.core.replay with
    | [] => body s
    | g :: rest =>
      if o = s.core.phys then body s
      else if g.left ≠ 0 then .wait s
      else .done { s with core := Core.adopt g { s.core with replay := rest } }
  | some v =>
    if o = s.core.phys then body s
    else if v.retired ≠ 0 then .wait (s.mapCore Core.endInterval)
    else if s.core.phys % 2 = 0 ∧ s.core.replay = [] then body s
    else
      match s.core.shared with
      | none => .wait s
      | some (g, c) => if g.left ≠ 0 then .wait s else .done { s with core := c.adopt g }

/-- An atomic issued (R222, R223): a late write and an unacknowledged access at once; a mirror pair's odd core is owed the
result. -/
def State.issueAtomic (s : State) (o off : Nat) (x : Word) (ws : List TWrite) (acq wide bar : Bool) (op : AccOp) : State :=
  let c := s.core
  let c1 := ((c.later ws 0 0 1 acq).widen (acq && wide) c.nextId).addUnacked c.nextId 1 bar
  let gift : Pending := ⟨c.nextId, ws, 0, c.lo, 0, c.word, c.issuePc, 1, acq, acq && wide, false, false⟩
  let s2 :=
    if o = c.phys then { s with core := c1.countWrites 1 }
    else if c.interval.isSome then
      State.onCore { s with core := c1.recordDone gift } (mateOf c.phys) (fun m => { m with gifts := m.gifts ++ [gift] })
    else { s with core := c1 }
  s2.access o ⟨c.phys, c.nextId, off, x, op, false⟩

/-- Which orders act as acquire, and as release (R220, R222). -/
def isAcq (ord : Ord) : Bool := decide (ord = .acq ∨ ord = .ar ∨ ord = .sc)
def isRel (ord : Ord) : Bool := decide (ord = .rel ∨ ord = .ar ∨ ord = .sc)

/-- AMO (R222). -/
def atomic (op : AmoOp) (n : Nat) (d a b : Name) (off : Int) (ord : Ord) (scope : Scope) (s : State) : Res :=
  let k := s.core.rdCap a
  let x := accessAddr k off
  let y := s.core.rd b
  let e := s.core.rd d
  let lab := if op = .cas then Label.max y.l e.l else y.l
  guarded (s.accessTrap a k (k.can .load && k.can .store) n n x (some lab)) s (fun s => afterAcquire s (fun s =>
    afterRelease (isRel ord) s (fun s =>
      let p := s.placeOf x n
      pairedAtomic p.1 s (fun s =>
        .done (s.issueAtomic p.1 p.2 x (s.core.latePlace d zeroVal) (isAcq ord) (isWide scope) (decide (ord = .sc))
          (.amo op n y.v e.v lab))))))

def execAmoaddW (h : Hd) (d a b : Name) (off : Int) (ord : Ord) (scope : Scope) (s : State) :=
  run (.amoaddW h d a b off ord scope) s (atomic .add 4 d a b off ord scope)
def execAmoandW (h : Hd) (d a b : Name) (off : Int) (ord : Ord) (scope : Scope) (s : State) :=
  run (.amoandW h d a b off ord scope) s (atomic .and 4 d a b off ord scope)
def execAmoorW (h : Hd) (d a b : Name) (off : Int) (ord : Ord) (scope : Scope) (s : State) :=
  run (.amoorW h d a b off ord scope) s (atomic .or 4 d a b off ord scope)
def execAmoxorW (h : Hd) (d a b : Name) (off : Int) (ord : Ord) (scope : Scope) (s : State) :=
  run (.amoxorW h d a b off ord scope) s (atomic .xor 4 d a b off ord scope)
def execAmominW (h : Hd) (d a b : Name) (off : Int) (ord : Ord) (scope : Scope) (s : State) :=
  run (.amominW h d a b off ord scope) s (atomic .min 4 d a b off ord scope)
def execAmomaxW (h : Hd) (d a b : Name) (off : Int) (ord : Ord) (scope : Scope) (s : State) :=
  run (.amomaxW h d a b off ord scope) s (atomic .max 4 d a b off ord scope)
def execAmominzW (h : Hd) (d a b : Name) (off : Int) (ord : Ord) (scope : Scope) (s : State) :=
  run (.amominzW h d a b off ord scope) s (atomic .minz 4 d a b off ord scope)
def execAmomaxzW (h : Hd) (d a b : Name) (off : Int) (ord : Ord) (scope : Scope) (s : State) :=
  run (.amomaxzW h d a b off ord scope) s (atomic .maxz 4 d a b off ord scope)
def execAmoswapW (h : Hd) (d a b : Name) (off : Int) (ord : Ord) (scope : Scope) (s : State) :=
  run (.amoswapW h d a b off ord scope) s (atomic .swap 4 d a b off ord scope)
def execAmocasW (h : Hd) (d a b : Name) (off : Int) (ord : Ord) (scope : Scope) (s : State) :=
  run (.amocasW h d a b off ord scope) s (atomic .cas 4 d a b off ord scope)
def execAmoaddD (h : Hd) (d a b : Name) (off : Int) (ord : Ord) (scope : Scope) (s : State) :=
  run (.amoaddD h d a b off ord scope) s (atomic .add 8 d a b off ord scope)
def execAmoandD (h : Hd) (d a b : Name) (off : Int) (ord : Ord) (scope : Scope) (s : State) :=
  run (.amoandD h d a b off ord scope) s (atomic .and 8 d a b off ord scope)
def execAmoorD (h : Hd) (d a b : Name) (off : Int) (ord : Ord) (scope : Scope) (s : State) :=
  run (.amoorD h d a b off ord scope) s (atomic .or 8 d a b off ord scope)
def execAmoxorD (h : Hd) (d a b : Name) (off : Int) (ord : Ord) (scope : Scope) (s : State) :=
  run (.amoxorD h d a b off ord scope) s (atomic .xor 8 d a b off ord scope)
def execAmominD (h : Hd) (d a b : Name) (off : Int) (ord : Ord) (scope : Scope) (s : State) :=
  run (.amominD h d a b off ord scope) s (atomic .min 8 d a b off ord scope)
def execAmomaxD (h : Hd) (d a b : Name) (off : Int) (ord : Ord) (scope : Scope) (s : State) :=
  run (.amomaxD h d a b off ord scope) s (atomic .max 8 d a b off ord scope)
def execAmominzD (h : Hd) (d a b : Name) (off : Int) (ord : Ord) (scope : Scope) (s : State) :=
  run (.amominzD h d a b off ord scope) s (atomic .minz 8 d a b off ord scope)
def execAmomaxzD (h : Hd) (d a b : Name) (off : Int) (ord : Ord) (scope : Scope) (s : State) :=
  run (.amomaxzD h d a b off ord scope) s (atomic .maxz 8 d a b off ord scope)
def execAmoswapD (h : Hd) (d a b : Name) (off : Int) (ord : Ord) (scope : Scope) (s : State) :=
  run (.amoswapD h d a b off ord scope) s (atomic .swap 8 d a b off ord scope)
def execAmocasD (h : Hd) (d a b : Name) (off : Int) (ord : Ord) (scope : Scope) (s : State) :=
  run (.amocasD h d a b off ord scope) s (atomic .cas 8 d a b off ord scope)

/-- AMOCASC (R223). -/
def execAmocasc (h : Hd) (d a b : Name) (off : Int) (ord : Ord) (scope : Scope) (s : State) :=
  run (.amocasc h d a b off ord scope) s (fun s =>
    let k := s.core.rdCap a
    let x := accessAddr k off
    let new := s.core.rdCap b
    let old := s.core.rdCap d
    let lab := Label.max (s.core.capLabel b) (s.core.capLabel d)
    guarded (s.accessTrap a k (k.can .load && k.can .store && k.mayHold new) 16 16 x (some lab)) s (fun s =>
      afterAcquire s (fun s => afterRelease (isRel ord) s (fun s =>
        let p := s.placeOf x 16
        pairedAtomic p.1 s (fun s =>
          .done (s.issueAtomic p.1 p.2 x (s.core.latePair d) (isAcq ord) (isWide scope) (decide (ord = .sc))
            (.amoCap old new lab (k.can .caprd))))))))

/-- A bank group put to sleep: its contents are lost (R210, R212, R224). -/
def State.sleepGroup (s : State) (p g : Nat) : State :=
  (s.zeroRange (lsBase p + 0x20000 * g) 0x20000).onCore p (fun c => c.setGroup g .sleeping)

/-- BSLEEP (R224, R463): once every access to the group that the port has accepted is performed. -/
def execBsleep (h : Hd) (g : Nat) (s : State) :=
  run (.bsleep h g) s (fun s => guarded (s.illegalIf (isGateway s.core.phys)) s (fun s =>
    let c := s.core
    let busy := c.portq.any (fun a => a.arrived && (groupsOf a.off a.op.bytes).contains g) || !c.spillq.isEmpty
    if busy || decide (c.groupSt g = .waking) then .wait s
    else if c.groupSt g = .sleeping then .done s else .done (s.sleepGroup c.phys g)))

/-- BWAKE (R224). -/
def execBwake (h : Hd) (g : Nat) (s : State) :=
  run (.bwake h g) s (fun s => guarded (s.illegalIf (isGateway s.core.phys)) s (fun s => .done (s.mapCore (fun c => c.wake g))))

end Sys2Proof.Machine
end

