-- ==== Sys2Proof/Machine/Once.lean ====
section
/-! DEFINITION. Instructions that act outside their core and answer: once for a mirror pair, whose even core performs them
while their result lands in both cores (R322, R355, R377, R401, R426). -/

namespace Sys2Proof.Machine

open Sys2Proof

/-- How such an effect ends: it waits, it traps, or it is done and writes places. -/
inductive Once where
  | wait (s : State)
  | trap (s : State) (cause : Cause) (tval : Word)
  | done (s : State) (ws : List TWrite)
  deriving DecidableEq, Repr

/-- Results written before the next issue. -/
def Core.putNow (c : Core) (ws : List TWrite) : Core :=
  ws.foldl (fun c w => (((c.cancel w.tgt).landOne w).note (.bytes w.stream)).noteEntries w.tgt.entries) c

/-- Results written now, or as one late write whose places land together (R329, R357, R403). -/
def Core.putResult (c : Core) (late : Bool) (ws : List TWrite) : Core :=
  if late then (c.later ws 0 0 0 false).joinPlaces c.nextId else c.putNow ws

/-- Results for the mate, kept until its own issue of the instruction takes them. -/
def giftOf (id : Nat) (ws : List TWrite) : Pending := ⟨id, ws, 0, 0, 0, 0, 0, 0, false, false, false, false⟩

def Core.addGift (g : Pending) (c : Core) : Core := { c with gifts := c.gifts ++ [g] }

/-- An effect performed by one core of a pair for both (R322): its results go to the mate, and stay with the interval. -/
def State.share (s : State) (ws : List TWrite) : State :=
  let g := giftOf s.core.nextId ws
  (s.mapCore (fun c => { c.recordDone g with nextId := c.nextId + 1 })).onCore (mateOf s.core.phys) (Core.addGift g)

/-- Performed by the core alone, or by the one of a pair that `mine` names, for both; an interval that runs again takes the
results that it had, as the survivor of a pair does. -/
def onceBy (mine : Bool) (late : Bool) (s : State) (body : State → Once) : Res :=
  let paired := s.core.interval.isSome
  if (paired && !mine) || !s.core.replay.isEmpty then
    match s.core.shared with
    | none => .wait s
    | some (g, c) => .done { s with core := (c.recordDone g).putResult late g.writes }
  else
    match body s with
    | .wait t => .wait t
    | .trap t k v => .trap t k v
    | .done t ws =>
      let t1 := if paired then t.share ws else t
      .done (t1.mapCore (fun c => c.putResult late ws))

/-- Performed by the core alone, or by the even core for both of a pair. -/
def once (late : Bool) (s : State) (body : State → Once) : Res := onceBy (decide (s.core.phys % 2 = 0)) late s body

/-- A word result with label 0 for a scalar name. -/
def Core.wordResult (c : Core) (d : Name) (v : Word) : List TWrite := c.latePlace d ⟨v, 0⟩

/-- A record result: eight entries, as four pairs with their tags, under one label. -/
def Core.recordResult (c : Core) (d : Name) (ws : List Word) (tags : List Bool) (l : Label) : List TWrite :=
  (List.range 4).map (fun i =>
    ⟨.pair (c.physOf d + 2 * i), ws.getD (2 * i) 0, ws.getD (2 * i + 1) 0, tags.getD i false, l⟩)

/-- A vector result: four entries under one label, both pairs untagged. -/
def Core.vectorResult (c : Core) (d : Name) (ws : List Word) (l : Label) : List TWrite :=
  (List.range 4).map (fun i => ⟨.entry (c.physOf d + i), ws.getD i 0, 0, false, l⟩)

def qResult (v : Word) : List TWrite := [⟨.q, v, 0, false, 0⟩]

/-- The eight words of a record operand, its four tags, its highest label (R354). -/
def Core.recordWords (c : Core) (n : Name) : List Word := (c.rdMany n 8).map LVal.v
def Core.recordTags (c : Core) (n : Name) : List Bool := (List.range 4).map (fun i => c.tagAt (c.physOf n + 2 * i))
def Core.recordLabel (c : Core) (n : Name) : Label := Label.maxOf ((c.rdMany n 8).map LVal.l)

end Sys2Proof.Machine
end

