-- ==== Sys2Proof/Machine/SysReg.lean ====
section
/-! DEFINITION. The system registers and SRD, SWR, BKPT (R72, R282, R287, R301, R469, R473, R475 to R480). -/

namespace Sys2Proof.Machine

open Sys2Proof

def Mode.code : Mode → Nat
  | .u => 0 | .s => 1 | .f => 2

/-- Whether a mode may read and may write a register (R475): S and F read all, U all but 1 to 6. -/
def mayRead (m : Mode) (reg : Nat) : Bool := decide (m ≠ .u) || decide (reg = 0 ∨ 7 ≤ reg)
def mayWrite (m : Mode) (reg : Nat) : Bool :=
  if m = .u then decide (reg = 12 ∨ reg = 16)
  else decide (reg ≤ 6 ∨ (12 ≤ reg ∧ reg ≤ 16) ∨ reg = 22)

/-- State codes of sy.pair (R287). -/
def PState.code : PState → Nat
  | .unpaired => 0 | .joining => 1 | .copying => 2 | .running => 3 | .comparing => 4 | .rollback => 5

/-- sy.pair (R287). -/
def PairReg.word (p : PairReg) : Word :=
  BitVec.ofNat 64 (p.rbcount.toNat * 2 ^ 48 + p.intv.toNat * 2 ^ 32 + p.pstate.code * 2 ^ 16 + p.partner.toNat * 2 ^ 12 +
    p.report.toNat * 2 ^ 9 + p.n)

/-- sy.gang (R282). -/
def GangReg.word (g : GangReg) : Word :=
  BitVec.ofNat 64 (g.cause.toNat * 2 ^ 28 + g.leader.toNat * 2 ^ 24 + g.lsize.toNat * 2 ^ 17 + g.fused.toNat * 2 ^ 16 +
    g.members.toNat)

/-- STATE of sy.health (R473). -/
def State.healthState (s : State) : Nat :=
  if s.spused.any (fun e => decide (e.2 = 8)) ∨ s.pcdrop.any (fun e => decide (2 ≤ e.2)) then 2
  else if s.spused.any (fun e => decide (e.2 ≠ 0)) ∨ s.pcdrop.any (fun e => decide (e.2 ≠ 0)) then 1 else 0

/-- sy.health of a die (R473). -/
def State.healthWord (s : State) (die : Nat) : Word :=
  BitVec.ofNat 64 (min s.kills (2 ^ 32 - 1) * 2 ^ 32 + s.pcdrop.look (fun _ => 0) die % 256 * 2 ^ 16 +
    s.spused.look (fun _ => 0) die % 256 * 2 ^ 8 + s.healthState)

/-- sy.rpt (R174). -/
def Core.rptWord (c : Core) : Word := BitVec.ofNat 64 (c.rptValid.toNat * 2 ^ 63 + c.rptRemain % 128)

/-- sy.slice (R475): cycles left in the team's slice, 0 outside PAR. -/
def State.sliceOf (s : State) (c : Core) : Word :=
  match c.kernel.bind (fun n => s.kernels.listed n) with
  | some k =>
    match k.teams[c.team]? with
    | some t => if k.cls = 1 then BitVec.ofNat 64 (t.left - t.ran s.clock) else 0
    | none => 0
  | none => 0

/-- What a 64-bit register reads (R475). -/
def State.sysRead (s : State) (c : Core) (reg : Nat) : Word :=
  match reg with
  | 0 => BitVec.ofNat 64 (c.prevMode.code * 4 + c.mode.code)
  | 1 => c.cause.setWidth 64
  | 2 => c.tval
  | 7 => BitVec.ofNat 64 (s.rankOf c)
  | 8 => BitVec.ofNat 64 c.phys
  | 9 => BitVec.ofNat 64 (s.partOf c).base
  | 10 => BitVec.ofNat 64 (s.partOf c).len
  | 11 => BitVec.ofNat 64 c.part
  | 12 => c.evt.setWidth 64
  | 13 => c.evmask.setWidth 64
  | 14 => c.fpsup
  | 15 => c.rptWord
  | 16 => c.pair.word
  | 17 => c.gang.word
  | 18 => BitVec.ofNat 64 s.clock
  | 19 => Config.freeWord s.freeCtr
  | 20 => s.sliceOf c
  | 21 => s.healthWord (s.homeDie c.phys)
  | 22 => c.ptimer
  | _ => 0

/-- What a capability register holds (R72). -/
def Core.sysCap (c : Core) (reg : Nat) : Cap :=
  match reg with
  | 3 => c.epcc
  | 4 => c.elens
  | 5 => c.hlens
  | _ => c.hpcc

/-- The core whose value a mirror pair reads: the even one's of registers 7, 8, 18 and 19 (R479). -/
def State.srdCore (s : State) (reg : Nat) : Core :=
  if s.core.interval.isSome ∧ s.core.phys % 2 = 1 ∧ (reg = 7 ∨ reg = 8) then s.coreAt (mateOf s.core.phys) else s.core

/-- A read of a 64-bit register lands late with label 0; sy.seed draws (R475, R479). -/
def srdWord (d : Name) (reg : Nat) (v : Word) (s : State) : State :=
  let s1 := s.mapCore (fun c => c.later (c.latePlace d ⟨v, 0⟩) 0 0 0 false)
  if reg = 19 then { s1 with freeCtr := s1.freeCtr + 1 } else s1

/-- sy.clock and sy.seed on a mirror pair: the odd core takes what the even core read (R479). -/
def srdShared (d : Name) (reg : Nat) (s : State) : Res :=
  once true s (fun s => .done (if reg = 19 then { s with freeCtr := s.freeCtr + 1 } else s)
    (s.core.wordResult d (s.sysRead s.core reg)))

/-- SRD (R479). -/
def execSrd (h : Hd) (d : Name) (reg : Nat) (s : State) :=
  run (.srd h d reg) s (fun s =>
    if !mayRead s.core.mode reg then .trap s .priv (BitVec.ofNat 64 s.core.word)
    else if srKind reg = .cap then
      let k := s.core.sysCap reg
      .done (s.mapCore (fun c => c.later [⟨.pair (c.physOf d), k.addr, k.hi, k.tag, 0⟩] 0 0 0 false))
    else if s.core.interval.isSome ∧ (reg = 18 ∨ reg = 19) then srdShared d reg s
    else .done (srdWord d reg (s.sysRead (s.srdCore reg) reg) s))

/-- The checks of R72 on a capability written to registers 3 to 6. -/
def swrTrap (reg : Nat) (n : Name) (k : Cap) : Fails :=
  if reg = 4 ∨ reg = 5 then lnsTrap n k
  else firstOf [failIf (!k.tag) .tag (nameVal n), failIf (decide (k.otype ≠ 0)) .seal (nameVal n)]

/-- A capability register written (R72). -/
def Core.setSysCap (c : Core) (reg : Nat) (k : Cap) : Core :=
  match reg with
  | 3 => { c with epcc := k }
  | 4 => { c with elens := k }
  | 5 => { c with hlens := k }
  | _ => { c with hpcc := k }

/-- The previous mode that a value names, when the mode may write it (R469). -/
def prevModeOf (m : Mode) (v : Word) : Option Mode :=
  match (v.toNat / 4) % 4 with
  | 0 => some .u
  | 1 => some .s
  | 2 => if m = .f then some .f else none
  | _ => none

/-- N as it is stored: 16 to 256 (R287). -/
def clampN (n : Nat) : Nat := if n < 16 then 16 else if 256 < n then 256 else n

/-- A 64-bit register written by its field rules (R174, R287, R301, R469, R475). -/
def Core.setSys (c : Core) (reg : Nat) (v : Word) : Core :=
  match reg with
  | 0 => { c with prevMode := (prevModeOf c.mode v).getD c.prevMode }
  | 1 => { c with cause := v.setWidth 8 }
  | 2 => { c with tval := v }
  | 12 => { c with evt := c.evt &&& ~~~(v.setWidth 32) }
  | 13 => { c with evmask := v.setWidth 32 }
  | 14 => { c with fpsup := v }
  | 15 => { c with rptValid := v.getLsbD 63, rptRemain := v.toNat % 128 }
  | 16 => { c with pair := { c.pair with report := v.getLsbD 9, n := clampN (v.toNat % 512) } }
  | 22 => { c with ptimer := v }
  | _ => c

/-- SWR (R479). -/
def execSwr (h : Hd) (a : Name) (reg : Nat) (s : State) :=
  run (.swr h a reg) s (fun s =>
    if !mayWrite s.core.mode reg then .trap s .priv (BitVec.ofNat 64 s.core.word)
    else if srKind reg = .cap then
      let k := s.core.rdCap a
      guarded (swrTrap reg a k) s (fun s => .done (s.mapCore (fun c => ((c.setSysCap reg k).noteVal ⟨k.addr, 0⟩).noteVal ⟨k.hi, 0⟩)))
    else .done (s.mapCore (fun c => (c.setSys reg (c.rd a).v).noteVal (c.rd a))))

/-- BKPT (R480). -/
def execBkpt (h : Hd) (s : State) := run (.bkpt h) s (fun s => .trap s .brk 0)

end Sys2Proof.Machine
end

