-- ==== Sys2Proof/Machine/Turn.lean ====
section
/-! DEFINITION. A core's turn: which core is next, instruction fetch, the fetch and decode checks, markers and repetition
(R14, R46, R47, R51, R52, R170, R171, R467). -/

namespace Sys2Proof.Machine

open Sys2Proof

/-- Core states in which a core issues (R467). -/
def Core.awake (c : Core) : Bool := decide (c.cstate = .boot ∨ c.cstate = .running ∨ c.cstate = .service)

def Core.issues (c : Core) : Bool := c.awake && !c.follows

/-- The root-of-trust cores, which issue from reset (R467, R468). -/
def rootCores : List Nat := (List.range 8).map (fun k => tileCore (64 * k + 63) 10)

/-- The core whose turn comes after the current one's: the next one that issues, in rising order of physical ids from
the current one and round again (notes/assumptions/4.md). -/
def State.nextCore (s : State) : Nat :=
  let ids := ((s.others.map (fun e => e.1)) ++ rootCores).filter (fun p => (s.coreAt p).issues)
  let above := ids.filter (fun p => decide (s.core.phys < p))
  match above, ids with
  | a :: as, _ => as.foldl min a
  | [], b :: bs => bs.foldl min b
  | [], [] => s.core.phys

/-- The turn passes on. -/
def State.rotate (s : State) : State := s.focus s.nextCore

/-- The 64 bytes of a line for fetch (R14): from the instruction buffer, or read at the owning port and kept there; none
when the port cannot perform the read yet.  A line is known by its address in the window that the PC goes through
(notes/assumptions/88.md). -/
def State.fetchLine (s : State) (line : Nat) : State × Option (List Byte) :=
  match s.core.ibuf.find? (fun e => decide (e.1 = line)) with
  | some e => (s, some e.2)
  | none =>
    match s.reach s.core (BitVec.ofNat 64 line) 64 with
    | none => (s, none)
    | some (o, off) =>
      let owner := s.coreAt o
      let src := fetchSrc s.core.phys
      if !s.portOpen src o off 64 false then (s.portTake src o off 64 false, none)
      else
        let s := s.portLeave o src
        let bs := if owner.cstate = .killed then List.replicate 64 0 else s.bytesAt (lsBase o + off) 64
        let c := s.core
        let old := if 128 ≤ c.ibuf.length then c.ibuf.tail else c.ibuf
        let s1 := { s with core := { c with ibuf := old ++ [(line, bs)] } }
        (if owner.cstate = .killed then s1.tell o c.phys (BitVec.ofNat 64 line) else s1, some bs)

/-- `n` bytes of code at an address, out of one or two lines. -/
def State.fetch (s : State) (x n : Nat) : State × Option (List Byte) :=
  let l0 := x / 64 * 64
  match s.fetchLine l0 with
  | (s1, none) => (s1, none)
  | (s1, some b0) =>
    if x + n ≤ l0 + 64 then (s1, some ((b0.drop (x - l0)).take n))
    else
      match s1.fetchLine (l0 + 64) with
      | (s2, none) => (s2, none)
      | (s2, some b1) => (s2, some (((b0 ++ b1).drop (x - l0)).take n))

/-- Rows 1 to 5 of R52, for `n` bytes of code at an address: the cause of the first that fails. -/
def State.fetchTrap (s : State) (x n : Nat) : Option Cause :=
  let k := s.core.pcc
  if x % 4 ≠ 0 then some .align
  else if !k.tag then some .tag
  else if k.otype ≠ 0 then some .seal
  else if !k.can .exec then some .perm
  else if !k.covers x n then some .bounds
  else if (s.reach s.core (BitVec.ofNat 64 x) n).isNone then some .bounds
  else none

/-- What fetch gives: an instruction's words, a trap, or a wait for a port. -/
inductive Fetched where
  | words (s : State) (ws : List Nat)
  | trap (cause : Cause)
  | wait (s : State)
  deriving DecidableEq, Repr

/-- The words of the instruction at an address (R33, R34, R52). -/
def State.fetchWords (s : State) (x : Nat) : Fetched :=
  match s.fetchTrap x 4 with
  | some k => .trap k
  | none =>
    match s.fetch x 4 with
    | (s1, none) => .wait s1
    | (s1, some b) =>
      let n := wordLength (ofBytes b)
      if n = 4 then .words s1 (wordsOfBytes b)
      else
        match s1.fetchTrap x n with
        | some k => .trap k
        | none =>
          match s1.fetch x n with
          | (s2, none) => .wait s2
          | (s2, some bs) => .words s2 (wordsOfBytes bs)

/-- ILLEGAL_ENCODING (R44). -/
def execIllegalEncoding (word : Nat) (s : State) : Host.Outcome State Fault Refusal :=
  .next (s.raiseAll .illegal (BitVec.ofNat 64 word))

/-- The bit of STEP that steps a field (R170); C is never stepped. -/
def stepsRole (steps : Nat) : Role → Bool
  | .d => steps.testBit 0
  | .a => steps.testBit 1
  | .b => steps.testBit 2
  | .c => false

/-- The names of a repetition (R170). -/
def stepName (r : Rep) (role : Role) (n : Name) : Name :=
  match n with
  | .w k => if stepsRole r.steps role then .w (k + r.i * r.stride) else .w k
  | n => n

/-- Whether RPT may repeat an instruction with these steps (R171): a stepped field holds a w, c or v name; a code that names
nothing is left to row 8 of R52. -/
def mayRepeat (r : Rep) (i : Instr) : Bool :=
  i.repeatable && [Role.d, Role.a, Role.b].all (fun role => !stepsRole r.steps role ||
    i.operands.any (fun o => decide (o.role = role) && (match o.name with
      | .w _ => true
      | .rsv _ => true
      | _ => false)))

/-- How many entries an operand of a kind reads or writes. -/
def entryCount : OpKind → Nat
  | .record => 8
  | .pair => 2
  | k => kindWidth k

/-- Instructions that read or write the status word without naming it: they round under it, draw from its seed or raise flags in
it (R60, R129, R131, R142). -/
def usesSt : Instr → Bool
  | .vfadd .. => true | .vfsub .. => true | .vfmul .. => true | .vfma .. => true | .vfnma .. => true | .vfmin .. => true
  | .vfmax .. => true | .vfdiv .. => true | .vfsqrt .. => true | .vfrcp .. => true | .vfrsq .. => true | .vfexp2 .. => true
  | .vflog2 .. => true | .vftanh .. => true | .vcmp .. => true | .vred .. => true | .vcvt .. => true | .vquant .. => true
  | .vdeq .. => true | .vbaddq .. => true | .xmax .. => true | .conv .. => true | _ => false

/-- Whether an instruction is RPT. -/
def isRpt : Instr → Bool
  | .rpt .. => true
  | _ => false

/-- The entries of a bulk move's range, from a lens operand's address, as many as a word says (R83). -/
def Core.bulkRange (c : Core) (n k : Name) : Nat × Nat :=
  let e := (c.rdCap n).addr.toNat
  (e, e + (c.rd k).v.toNat)

/-- The entries that an instruction reads or writes, as ranges: those its names cover, the callee's or caller's w0:w1 of a call
or return, the ranges of a bulk move, the status word (R66, R78, R79, R83). -/
def touched (i : Instr) (c : Core) : List (Nat × Nat) :=
  i.operands.filterMap (fun o =>
    match o.name with
    | .w n => some (c.lb + n, c.lb + n + entryCount o.kind)
    | .st => some (c.lo, c.lo + 1)
    | _ => none) ++
  (match i with
   | .call _ k _ => [(c.lb + k, c.lb + k + 2)]
   | .callc _ k _ => [(c.lb + k, c.lb + k + 2)]
   | .ret _ _ => [(c.lb, c.lb + 2)]
   | .lspill _ _ a b => [c.bulkRange a b]
   | .lfill _ d _ b => [c.bulkRange d b]
   | .lmove _ d a b => [c.bulkRange d b, c.bulkRange a b]
   | _ => []) ++
  (if usesSt i then [(c.lo, c.lo + 1)] else [])

/-- Whether the spill engine holds an entry that an instruction reads or writes (R66). -/
def engineStalls (i : Instr) (c : Core) : Bool := (touched i c).any (fun r => c.engineHolds r.1 r.2)

/-- The cores that issue together: a gang's members, or the core alone. -/
def Core.together (c : Core) : List Nat := if c.gang.fused then c.members else [c.phys]

/-- Whether the spill engine of any core that issues holds an entry that it reads or writes there (R66, R284). -/
def State.enginesStall (s : State) (i : Instr) : Bool := s.core.together.any (fun p => engineStalls i (s.coreAt p))

/-- Whether a core has sent stores under a lens that are not acknowledged (R47). -/
def Core.sentUnder (lo top : Nat) (c : Core) : Bool := c.unacked.any (fun u => decide (u.lo = lo ∧ u.top = top))

/-- Whether a marker holds issue, for every core that issues together (R47, R51); a core of a mirror pair waits for its own lens, and for
the stores under it that the mate has sent for both. -/
def State.markerHolds (s : State) (i : Instr) : Bool :=
  match i.hd with
  | some h => h.s && (s.core.together.any (fun p => !(s.coreAt p).markerReady) ||
      (s.core.interval.isSome && (s.coreAt (mateOf s.core.phys)).sentUnder s.core.lo s.core.top))
  | none => false

/-- A core's revocation check at a marker (R103). -/
def State.markerCheck (s : State) (i : Instr) : State :=
  match i.hd with
  | some h => if h.s then s.core.together.foldl State.sweepCheck s else s
  | none => s

def Core.stall (c : Core) : Core := { c with stalled := true }

/-- What issues: the instruction, ready, or a state in which the core waits or has trapped. -/
inductive Ready where
  | go (i : Instr) (s : State)
  | stop (s : State)
  deriving DecidableEq, Repr

/-- An instruction that is not the RPT at the resume address clears the repeat state that ERET has loaded (R174). -/
def Core.noResume (c : Core) : Core := { c with resume := none }
def State.noResumes (s : State) : State := s.core.together.foldl (fun t p => t.onCore p Core.noResume) s

/-- The instruction at the PC, or at the word after RPT, made ready to issue (R44, R46, R47, R52, R66, R170, R171). -/
def State.prepare (s : State) : Ready :=
  let x := match s.core.rep with
    | some _ => s.core.pc + 4
    | none => s.core.pc
  match s.fetchWords x.toNat with
  | .trap k => .stop (s.raiseAll k x)
  | .wait t => .stop (t.mapCore Core.stall)
  | .words t ws =>
    let w := ws.headD 0
    let t0 := t.mapCore (fun c => { c with word := w })
    match decodeWords ws with
    | .error _ => .go (.illegalEncoding w) t0.noResumes
    | .ok i =>
      let t1 := if isRpt i then t0 else t0.noResumes
      match t1.core.rep with
      | none => if t1.markerHolds i || t1.enginesStall i then .stop (t1.mapCore Core.stall) else .go i (t1.markerCheck i)
      | some r =>
        if !mayRepeat r i then .stop (t1.raiseAll .illegal (BitVec.ofNat 64 w))
        else
          let j := i.mapNames (stepName r)
          if t1.markerHolds j || t1.enginesStall j then .stop (t1.mapCore Core.stall) else .go j (t1.markerCheck j)

/-- Everything of a core that has its value lands (R48), unless landings wait for their events. -/
def State.landAll (s : State) : State :=
  if s.hold then s else s.core.together.foldl (fun t p => t.onCore p Core.landReady) s

/-- The cause that a mirror core takes because its mate has it due, where both stand at the boundary (R295). -/
def State.dueForBoth (s : State) : Option (Cause × Word) :=
  let m := s.coreAt (mateOf s.core.phys)
  if s.core.interval.isSome && decide (s.core.retiredIn = 0 ∧ m.retiredIn = 0) then m.dueCause.filter (fun d => d.1.forBoth) else none

/-- The first core of those that issue together that has an asynchronous cause due, or of a mirror pair (R285, R295, R482). -/
def State.dueTogether (s : State) : Option (Cause × Word) :=
  (s.core.together.findSome? (fun p => (s.coreAt p).dueCause)).or s.dueForBoth

/-- Whether a wake has ended a wait that its core has not gone on from yet, of one that issues with the current core or of its
mate (R320). -/
def State.wokenTogether (s : State) : Bool :=
  s.core.together.any (fun p => (s.coreAt p).woken) || (s.core.interval.isSome && (s.coreAt (mateOf s.core.phys)).woken)

/-- Whether a core waits for buffered card writes that an acquire of its has met (R483). -/
def Core.draining (c : Core) : Bool :=
  match c.drain with
  | some d => decide (d.2 ≠ 0)
  | none => false

/-- Whether a pair's core stands at an exchange that it does not go on from alone (R288, R291). -/
def Core.exchanging (c : Core) : Bool :=
  decide (c.pair.pstate = .comparing ∨ c.pair.pstate = .copying ∨ c.pair.pstate = .rollback)

/-- Whether the mate of a mirror core has gone further in the interval: it ends at one instruction on both cores (R291). -/
def State.mateAhead (s : State) : Bool :=
  s.core.interval.isSome && decide (s.core.retiredIn < (s.coreAt (mateOf s.core.phys)).retiredIn)

/-- Whether the mate has ended the interval at the place, counted in instructions and trap entries, that the core has reached. -/
def State.mateEnded (s : State) : Bool :=
  let m := s.coreAt (mateOf s.core.phys)
  s.core.interval.isSome && decide (m.pair.pstate = .comparing ∧ m.retiredIn ≤ s.core.retiredIn)

/-- Whether a PTWR is under way, which stops by itself when a cause is due, on the core or on its mate (R405). -/
def State.tabRuns (s : State) : Bool :=
  s.core.tabRun.isSome || (s.core.interval.isSome && (s.coreAt (mateOf s.core.phys)).tabRun.isSome)

/-- Whether a due cause is delivered at this boundary: not before a wake has ended its wait or inside a PTWR, and in a mirror pair not
where the mate has gone further, but for MIRROR and SPILLFAULT, which each core has of its own (R68, R291, R294, R320, R405). -/
def State.causeMay (s : State) (k : Cause) : Bool :=
  !s.wokenTogether && !s.tabRuns && (!s.mateAhead || decide (k = .mirror ∨ k = .spillfault))

/-- What a core does at a boundary before it issues: none when it goes on to issue.  A waiting trap goes before an enabled event,
an enabled event before an asynchronous cause (notes/assumptions/89.md). -/
def State.boundary (s : State) : Option State :=
  let c := s.core
  if c.draining || c.exchanging || !c.owed.isEmpty then some (s.mapCore Core.stall)
  else match c.trapDue with
  | some t => some (if s.mateEnded then s.mapCore Core.endInterval else s.trapBoundary t)
  | none =>
    match c.fpWait with
    | some sq =>
      match c.dueCause with
      | some (k, v) => some (s.asyncBoundary k v)
      | none =>
        match c.fpReply with
        | some m => some (s.fpReplyBoundary sq m.words)
        | none => some (s.mapCore Core.stall)
    | none =>
      if s.mateEnded then some (s.mapCore Core.endInterval)
      else
        match (s.core.together.findSome? (fun p => (s.coreAt p).fpEvent)) with
        | some e => some (s.fpStop e)
        | none =>
          match s.dueTogether with
          | some (k, v) => if s.causeMay k then some (s.asyncBoundary k v) else none
          | none => none

/-- The cores whose timers count with a core's turn: those that issue together; both of a mirror pair at the even core's turn, which
hold one value (R477, notes/assumptions/5.md). -/
def State.timed (s : State) : List Nat :=
  if s.core.interval.isNone then s.core.together
  else if s.core.phys % 2 = 0 then [s.core.phys, mateOf s.core.phys] else []

/-- Cycle by cycle: the timers (R477), and what lands. -/
def State.tickTurn (s : State) : State := (s.timed.foldl (fun t p => t.onCore p Core.tick) s).landAll

end Sys2Proof.Machine
end

