-- ==== Sys2Proof/Machine/CoreEvents.lean ====
section
/-! DEFINITION. The events of one core: landings, acknowledgements, ports, deliveries, timers, the spill engine, replies,
messages and checks (R14, R48, R50, R66, R69, R103, R143, R145, R206, R207, R210, R303, R313, R324, R477, R482).  An
event whose condition does not hold does not happen: the state stays as it is. -/

namespace Sys2Proof.Machine

open Sys2Proof

/-- An event of a core, which does not change whose turn it is. -/
def coreEvent (p : Nat) (s : State) (f : State → State) : Host.Outcome State Fault Refusal :=
  if p < coreCount then .next ((f (s.focus p)).focus s.core.phys) else .fault .noSuchSubject

/-- IFETCH_LINE_MISS (R14): the line of the PC, or one of the two lines after it, where the PCC allows fetch. -/
def execIfetchLineMiss (p line : Nat) (s : State) : Host.Outcome State Fault Refusal :=
  coreEvent p s (fun s =>
    let pcLine := s.core.pc.toNat / 64 * 64
    let first := if line = pcLine then s.core.pc.toNat else line
    if (line = pcLine ∨ line = pcLine + 64 ∨ line = pcLine + 128) ∧ (s.fetchTrap first 4).isNone then (s.fetchLine line).1 else s)

/-- TRAP_DELIVERY (R50, R69). -/
def execTrapDelivery (p : Nat) (s : State) : Host.Outcome State Fault Refusal :=
  coreEvent p s (fun s =>
    match s.core.trapDue with
    | some t => if s.core.quiet && !s.core.exchanging && !s.mateEnded then s.trapBoundary t else s
    | none => s)

/-- Whether the current core stands at a boundary at which an asynchronous cause can be delivered (R57, R288, R467, R482). -/
def State.atBoundary (s : State) (k : Cause) : Bool :=
  let c := s.core
  c.awake && s.quietFor c k && c.trapDue.isNone && !c.exchanging && !c.draining && s.causeMay k && !s.mateEnded

/-- ASYNC_CAUSE_DELIVERY (R482). -/
def execAsyncCauseDelivery (p : Nat) (s : State) : Host.Outcome State Fault Refusal :=
  coreEvent p s (fun s =>
    match s.core.dueCause with
    | some (k, v) => if s.atBoundary k then s.asyncBoundary k v else s
    | none => s)

/-- The cores that hold one timer with the current one: itself, and its mate in a mirror pair (R477). -/
def State.timedWith (s : State) : List Nat :=
  if s.core.interval.isNone then [s.core.phys] else [s.core.phys, mateOf s.core.phys]

/-- PTIMER_EXPIRY (R477). -/
def execPtimerExpiry (p : Nat) (s : State) : Host.Outcome State Fault Refusal :=
  coreEvent p s (fun s =>
    if s.core.awake ∧ s.core.mode = .u ∧ s.core.ptimer ≠ 0 then
      s.timedWith.foldl (fun t q => t.onCore q (fun c => { c with ptimer := 0, duePreempt := true })) s
    else s)

/-- EXTIRQ (R303): an enabled bit is set and no other cause is due before it. -/
def execExtirq (p : Nat) (s : State) : Host.Outcome State Fault Refusal :=
  coreEvent p s (fun s =>
    match s.core.dueCause with
    | some (.extirq, v) => if s.atBoundary .extirq then s.asyncBoundary .extirq v else s
    | _ => s)

/-- LATE_WRITE_LAND (R48): 64 · w + k names place k of the late write w, or all its places where it has no place k (R49, R181). -/
def execLateWriteLand (p id : Nat) (s : State) : Host.Outcome State Fault Refusal :=
  coreEvent p s (fun s =>
    match s.core.pending.find? (fun w => decide (w.id = id / 64 ∧ w.left = 0) && !w.xmax) with
    | some w => s.mapCore (fun c => c.landPlace w (id % 64))
    | none => s)

/-- SPILL_ENGINE_MOVE (R66). -/
def execSpillEngineMove (p : Nat) (s : State) : Host.Outcome State Fault Refusal :=
  coreEvent p s (fun s => s.spillStep p)

/-- FP_EVENT_STOP (R143). -/
def execFpEventStop (p : Nat) (s : State) : Host.Outcome State Fault Refusal :=
  coreEvent p s (fun s =>
    match s.core.fpEvent, s.core.fpWait with
    | some e, none => if s.core.awake && s.core.trapDue.isNone && !s.core.exchanging then s.fpStop e else s
    | _, _ => s)

/-- The reply that a core waits for and has, when it is valid (R145). -/
def Core.validReply (c : Core) : Option (Nat × Nat × Nat) :=
  match c.fpWait, c.fpReply with
  | some sq, some m => (fpReplyOf m.words).bind (fun r => if r.2.2 = sq then some r else none)
  | _, _ => none

/-- FP_REPLY_RESUME (R145). -/
def execFpReplyResume (p sq : Nat) (s : State) : Host.Outcome State Fault Refusal :=
  coreEvent p s (fun s =>
    match s.core.validReply with
    | some (1, _, q) => if q = sq then s.mapCore Core.fpResume else s
    | _ => s)

/-- FP_REPLY_CONVERT (R145). -/
def execFpReplyConvert (p sq cause : Nat) (s : State) : Host.Outcome State Fault Refusal :=
  coreEvent p s (fun s =>
    match s.core.validReply with
    | some (2, k, q) => if q = sq ∧ k = cause then s.fpConvert k s.core.fpRaised else s
    | _ => s)

/-- PORT_ACCESS (R206): the oldest access that waits at the port, or the oldest one from a source. -/
def execPortAccess (p src : Nat) (s : State) : Host.Outcome State Fault Refusal :=
  coreEvent p s (fun s => s.portStep p src)

/-- STORE_ACK (R207). -/
def execStoreAck (p id : Nat) (s : State) : Host.Outcome State Fault Refusal :=
  coreEvent p s (fun s =>
    s.mapCore (fun c => { c with unacked := c.unacked.filter (fun u => !decide (u.id = id ∧ u.left = 0)) }))

/-- ACCESS_RETRY (R207): the accesses that an evicted core's port holds go back to their sources, which repeat them; tickets
leave it. -/
def execAccessRetry (p : Nat) (s : State) : Host.Outcome State Fault Refusal :=
  coreEvent p s (fun s =>
    if s.core.cstate = .evicted then
      s.mapCore (fun c => { c with portq := (c.portq.filter (fun a => decide (a.src < engineSrc))).map (fun a =>
        { a with arrived := false }) })
    else s)

/-- A waking group is AWAKE, its contents zero; what waited for it goes on, at the mate's port too in a mirror pair (R210, R212,
R289). -/
def State.wakeGroup (s : State) (p g : Nat) : State :=
  let t := State.drain ((s.zeroRange (lsBase p + 0x20000 * g) 0x20000).onCore p (fun c => c.setGroup g .awake)) p
  if (t.coreAt p).paired then t.drain (mateOf p) else t

/-- GROUP_WAKE_COMPLETE (R210). -/
def execGroupWakeComplete (p g : Nat) (s : State) : Host.Outcome State Fault Refusal :=
  coreEvent p s (fun s => if s.core.groupSt g = .waking ∧ (g = 1 ∨ g = 2) then s.wakeGroup p g else s)

/-- The messages on their way to a core, each with whether it may enter now: no earlier one of its sender is on its way
(R313). -/
def nthFlight (p k : Nat) (fs : List Flight) : Option Flight :=
  match (fs.filter (fun f => decide (f.dst = p)))[k]? with
  | some f =>
    if ((fs.filter (fun g => decide (g.dst = p))).take k).any (fun g => decide (g.msg.src = f.msg.src)) then none else some f
  | none => none

/-- INBOX_MESSAGE_ENTER (R313): the `k`-th message on its way to the core; one that meets a full inbox stays on its way. -/
def execInboxMessageEnter (p k : Nat) (s : State) : Host.Outcome State Fault Refusal :=
  coreEvent p s (fun s =>
    match nthFlight p k s.flights with
    | some f =>
      if s.refuses f && decide (s.core.cstate ≠ .killed) then s
      else State.enterMsg { s with flights := dropFirst f s.flights } f
    | none => s)

/-- EVENT_SIGNAL_ARRIVE (R324). -/
def execEventSignalArrive (p : Nat) (s : State) : Host.Outcome State Fault Refusal :=
  coreEvent p s (fun s =>
    match s.signals.find? (fun g => decide (g.dst = p) && !s.away g.part p) with
    | some g => if s.core.cstate = .evicted then s else State.arrive { s with signals := dropFirst g s.signals } g
    | none => s)

/-- SWEEP_CORE_CHECK (R103). -/
def execSweepCoreCheck (p : Nat) (s : State) : Host.Outcome State Fault Refusal :=
  coreEvent p s (fun s => s.sweepCheck p)

/-- SWEEP_CHECK_TIMEOUT (R103): the check at the next boundary, 65,536 cycles after the notice. -/
def execSweepCheckTimeout (p : Nat) (s : State) : Host.Outcome State Fault Refusal :=
  coreEvent p s (fun s => s.sweepCheck p)

end Sys2Proof.Machine
end

