-- ==== Sys2Proof/Machine/Queue.lean ====
section
/-! DEFINITION. Queues, the hardware pushes of objects, and ready sets (R343 to R359). -/

namespace Sys2Proof.Machine

open Sys2Proof

def State.queueAt (s : State) (n : Nat) : Queue := s.queues.look (fun _ => Queue.reset) n
def State.setQueue (s : State) (n : Nat) (q : Queue) : State := { s with queues := s.queues.put (fun _ => Queue.reset) n q }
def State.partAt (s : State) (i : Nat) : Part := (s.parts.listed i).getD Part.free

/-- Entries held (R344), and how many there may be (R347). -/
def Queue.count (q : Queue) : Nat := (q.tail + 2 ^ 64 - q.head) % 2 ^ 64
def Queue.capacity (q : Queue) : Nat := if q.hostp then q.rlen else 16 + q.rlen

/-- The ring slot of entry `k` (R345, R352). -/
def Queue.slotAddr (q : Queue) (k : Nat) : Nat := q.ring.base.toNat + 64 * (k % q.rlen)

/-- 64 bytes of memory as an entry (R93, R345), and an entry written there. -/
def State.entryAt (s : State) (a : Nat) : QEntry :=
  ⟨(List.range 8).map (fun i => BitVec.ofNat 64 (s.numAt (a + 8 * i) 8)), (List.range 4).map (fun i => s.memTagAt (a + 16 * i)),
    s.labelOver a 64⟩

def State.putEntry (s : State) (a : Nat) (e : QEntry) : State :=
  (List.range 4).foldl (fun t i =>
    t.putGranule (a + 16 * i) (Cap.ofWords (e.words.getD (2 * i) 0) (e.words.getD (2 * i + 1) 0) (e.tags.getD i false)) e.lab) s

/-- One entry taken from the ring into the segment (R345); an uncorrectable error on the read puts the queue into FAULT
(R346). -/
def State.refillOne (s : State) (n : Nat) : State :=
  let q := s.queueAt n
  let a := q.slotAddr (q.head + q.seg.length)
  if q.seg.length < 16 ∧ q.seg.length < q.count then
    if (s.burst a).poison then (if q.st = .on then s.setQueue n { q with st := .fault } else s)
    else s.setQueue n { q with seg := q.seg ++ [s.entryAt a] }
  else s

/-- The segment refilled in order (R345). -/
def State.refill (s : State) (n : Nat) : State := (List.range 16).foldl (fun t _ => t.refillOne n) s

/-- The entries that stand in the ring. -/
def State.ringEntries (s : State) (q : Queue) : List QEntry :=
  (List.range (q.count - q.seg.length)).map (fun i => s.entryAt (q.slotAddr (q.head + q.seg.length + i)))

/-- Whether a read of the ring meets an uncorrectable error (R346). -/
def State.ringPoison (s : State) (q : Queue) : Bool :=
  (List.range (q.count - q.seg.length)).any (fun i => (s.burst (q.slotAddr (q.head + q.seg.length + i))).poison)

/-- Every entry in order. -/
def State.allEntries (s : State) (q : Queue) : List QEntry := q.seg ++ s.ringEntries q

/-- The key of a bin (R351). -/
def QEntry.key (e : QEntry) : Word := e.words.headD 0

/-- The keys of the open bins, in the order of their oldest entries (R351). -/
def binKeys (es : List QEntry) : List Word :=
  es.foldl (fun ks e => if ks.contains e.key then ks else ks ++ [e.key]) []

/-- The state that a queue answers by: one of id 0 is not usable (R346, R431). -/
def Queue.answering (q : Queue) : QSt := if q.part = 0 then .off else q.st

/-- The status of a push (R346, R347, R351). -/
def State.pushStatus (s : State) (q : Queue) (e : QEntry) (rsv : Bool) : Nat :=
  match q.answering with
  | .off => 4
  | .stopped => 4
  | .fault => 6
  | .on =>
    if q.hostp then 5
    else if (if rsv then q.capacity else q.capacity - 2) ≤ q.count then 2
    else if q.bin then
      let ks := binKeys (s.allEntries q)
      if ks.contains e.key || decide (ks.length < 8) then 0 else 3
    else 0

/-- An entry appended (R345). -/
def State.append (s : State) (n : Nat) (e : QEntry) : State :=
  let s1 := s.refill n
  let q := s1.queueAt n
  let q1 := { q with
    tail := (q.tail + 1) % 2 ^ 64
    since := if q.count = 0 then s.clock else q.since }
  if q.count < 16 ∧ q.seg.length = q.count then s1.setQueue n { q1 with seg := q.seg ++ [e] }
  else (State.mendBurst (s1.putEntry (q.slotAddr q.tail) e) (q.slotAddr q.tail)).setQueue n q1

/-- Fields of a record's STATE word (R54). -/
def recCode (w : Word) : Nat := (w.extractLsb' 12 4).toNat
def recPrio (w : Word) : Nat := (w.extractLsb' 19 4).toNat
def recSize (w : Word) : Nat := (w.extractLsb' 0 12).toNat
def recWoff (w : Word) : Nat := (w.extractLsb' 40 12).toNat
def recOdd (w : Word) : Nat := (w.extractLsb' 31 1).toNat
def recWithCode (w : Word) (code : Nat) : Word := w &&& ~~~0xF000#64 ||| BitVec.ofNat 64 (code * 2 ^ 12)

/-- A malformed record (R55). -/
def recMalformed (w : Word) : Bool :=
  decide (5 < recCode w ∨ recSize w = 0 ∨ 4080 < recSize w ∨ recWoff w = 0 ∨ recSize w < recWoff w)

/-- A write of an object at a physical address of a local store: at the port of every copy (R206, R289); a killed core's store
takes none (R471). -/
def State.objWrite (s : State) (a n : Nat) (f : Nat → State → State) : State :=
  let p := ownerOf a
  if (s.coreAt p).cstate = .killed then s else s.portWrite p engineSrc (a - lsBase p) n 0 none f

/-- The STATE word of a record in memory, and that word written by the object that queues it (R54, R56). -/
def State.recState (s : State) (pa : Nat) : Word := BitVec.ofNat 64 (s.numAt (pa + 48) 8)
def State.setRecState (s : State) (pa : Nat) (w : Word) : State := s.objWrite (pa + 48) 8 (fun y t => t.store y (bytesOf 8 w.toNat) 0)

/-- A partition's ready-set queues on a die (R348, R432). -/
def State.readySet (s : State) (part die : Nat) : List Nat :=
  ((List.range 16).map (fun i => s.numAt ((s.partAt part).ready + 2 * (16 * die + i)) 2)).filter
    (fun n => decide (n < 16384 ∧ (s.queueAt n).part = part))

/-- The one of some queues that R348 chooses for a PRIO. -/
def State.choosePrio (s : State) (prio : Nat) (qs : List Nat) : Option Nat :=
  let below := qs.filter (fun n => decide ((s.queueAt n).prio ≤ prio))
  match below, qs with
  | b :: bs, _ => some (bs.foldl (fun a n => if (s.queueAt a).prio < (s.queueAt n).prio then n else a) b)
  | [], q :: rest => some (rest.foldl (fun a n => if (s.queueAt n).prio < (s.queueAt a).prio then n else a) q)
  | [], [] => none

/-- The ready-set queue for a record: on the named die, else on the first die after it in chip order that has one
(R348). -/
def State.readyQueue (s : State) (part die prio : Nat) : Option Nat :=
  if part = 0 then none
  else
    (List.range 8).findSome? (fun i =>
      s.choosePrio prio (s.readySet part (chipOrderDie ((chipOrderPos die + i) % 8))))

/-- Whether a record cannot be reached now: its team is swapped out, or its core is evicted or holds another partition's context
(R281, R339, R436); and its ready-set queue, none yet while it cannot be. -/
def State.recordGone (s : State) (r : Parked) : Bool := r.swapped.isSome || s.unreachable r.part (ownerOf r.pa)
def State.recordQueue (s : State) (r : Parked) (die : Nat) : Option Nat :=
  if s.recordGone r then none else s.readyQueue r.part die (recPrio (s.recState r.pa))

/-- What a held push pushes: the record as it stands, its CODE QUEUED (R56). -/
def State.recordEntry (s : State) (pa : Nat) : QEntry :=
  let e := s.entryAt pa
  { e with words := onNth (fun w => recWithCode w 1) 6 e.words }

/-- The object number that stands for a queue in waits and held pushes. -/
def queueObj (n : Nat) : Nat := 0x10000 + n

/-- The die that holds a queue (R343). -/
def queueDie (n : Nat) : Nat := n / 2048

/-- Whether a push that an object holds comes before another one of it (R347); one whose record cannot be reached now holds back
none (R339). -/
def State.heldFirst (s : State) (x h : HeldPush) : Bool := decide (x.obj = h.obj) && !s.recordGone x.record
def State.holdsBefore (s : State) (h : HeldPush) : Bool := s.heldq.any (fun x => s.heldFirst x h)

def State.holdPush (s : State) (h : HeldPush) : State := { s with heldq := s.heldq ++ [h] }

/-- A hardware push (R347, R348): the record is QUEUED when its entry is in, and the oldest record parked on the queue is queued
in turn (R350), held in the queue when its push does not succeed.  `fuel` bounds how many follow one another. -/
def State.hwPush (s : State) : Nat → HeldPush → Option State
  | 0, _ => none
  | fuel + 1, h =>
    match h.queue with
    | none => none
    | some n =>
      let e := s.recordEntry h.record.pa
      if s.recordGone h.record then none
      else if s.pushStatus (s.queueAt n) e true ≠ 0 then none
      else
        let t := (s.append n e).setRecState h.record.pa (recWithCode (s.recState h.record.pa) 1)
        match (t.queueAt n).parked with
        | [] => some t
        | r :: rest =>
          let t1 := t.setQueue n { t.queueAt n with parked := rest }
          let h1 : HeldPush := ⟨queueObj n, r, queueDie n, t1.recordQueue r (queueDie n)⟩
          if t1.holdsBefore h1 then some (t1.holdPush h1)
          else
            match State.hwPush t1 fuel h1 with
            | some u => some u
            | none => some (t1.holdPush h1)

/-- An attempt to make a hardware push. -/
def State.tryHeld (s : State) (h : HeldPush) : Option State :=
  s.hwPush ((s.queues.map (fun e => e.2.parked.length)).sum + 1) h

/-- Held pushes tried again, oldest first; those that fail stay where they are, and hold back the later ones of their object. -/
def retryHeld (pick : HeldPush → Bool) : List HeldPush → State → State
  | [], s => s
  | h :: rest, s =>
    if pick h && !(s.heldq.takeWhile (fun x => decide (x ≠ h))).any (fun x => s.heldFirst x h) then
      match State.tryHeld { s with heldq := dropFirst h s.heldq } h with
      | some t => retryHeld pick rest t
      | none => retryHeld pick rest s
    else retryHeld pick rest s

/-- The held pushes that a test names tried again. -/
def State.retryWhere (s : State) (pick : HeldPush → Bool) : State := retryHeld pick s.heldq s

/-- The pushes of the objects that hold one for a queue tried again (R347). -/
def State.retryFor (s : State) (n : Nat) : State :=
  s.retryWhere (fun h => s.heldq.any (fun x => decide (x.obj = h.obj ∧ x.queue = some n)))

/-- A record that an object queues (R311, R348): pushed, or held in the object behind what it already holds. -/
def State.queueRecord (s : State) (obj die : Nat) (r : Parked) : State :=
  let h : HeldPush := ⟨obj, r, die, s.recordQueue r die⟩
  if s.holdsBefore h then s.holdPush h
  else
    match s.tryHeld h with
    | some t => t
    | none => s.holdPush h

/-- The WAIT of the records parked on a queue where it does not name the next one yet, because the record could not be reached when that
one was linked (R339, R350). -/
def State.relinkQueue (s : State) (part : Nat) (q : Queue) : State :=
  (q.parked.zip q.parked.tail).foldl (fun u x =>
    if x.1.part ≠ part || u.recordGone x.1 || decide (u.numAt (x.1.pa + 56) 8 = x.2.cap.addr.toNat) then u
    else u.objWrite (x.1.pa + 56) 8 (fun y t => t.store y (bytesOf 8 x.2.cap.addr.toNat) 0)) s
def State.relink (s : State) (part : Nat) : State := s.queues.foldl (fun u e => u.relinkQueue part e.2) s

/-- Held pushes that no ready set took are tried again when a partition's ready sets change, or when its records can be reached
again, with the links that its records lack (R339, R348, R350). -/
def State.readyChanged (s0 : State) (part : Nat) : State :=
  let s := s0.relink part
  let hs := s.heldq.map (fun h =>
    if h.record.part = part ∧ h.queue.isNone then
      { h with queue := s.recordQueue h.record h.die } else h)
  State.retryWhere { s with heldq := hs } (fun h => decide (h.record.part = part))

/-- A successful push by an instruction or the host queues the oldest record parked on the queue (R350). -/
def State.wakeParked (s : State) (n : Nat) : State :=
  let q := s.queueAt n
  match q.parked with
  | [] => s
  | r :: rest => State.queueRecord (s.setQueue n { q with parked := rest }) (queueObj n) (queueDie n) r

/-- A push with its status (R347, R356). -/
def State.push (s : State) (n : Nat) (e : QEntry) (rsv : Bool) : State × Nat :=
  let st := s.pushStatus (s.queueAt n) e rsv
  if st = 0 then ((s.append n e).wakeParked n, 0) else (s, st)

/-- The oldest entry leaves the segment. -/
def State.dropHead (s : State) (n : Nat) : State :=
  let q := s.queueAt n
  s.setQueue n { q with seg := q.seg.tail, head := (q.head + 1) % 2 ^ 64, since := s.clock }

/-- How a pop ends: with a status, with an entry, or it waits for a refill (R345, R347). -/
inductive Popped where
  | status (s : State) (st : Nat)
  | entry (s : State) (e : QEntry)
  | wait (s : State)
  deriving DecidableEq, Repr

/-- The oldest entry taken; malformed records of a CONTEXT queue are discarded (R345, R349).  `fuel` bounds their number. -/
def State.popFrom (s : State) (n : Nat) : Nat → Popped
  | 0 => .status s 1
  | fuel + 1 =>
    let s1 := if s.hold then s else s.refill n
    let q := s1.queueAt n
    if q.st = .fault then .status s1 6
    else if q.count = 0 then .status s1 1
    else
      match q.seg with
      | [] => .wait s1
      | e :: _ =>
        let t := s1.dropHead n
        if q.kind = 1 ∧ recMalformed (e.words.getD 6 0) then
          State.popFrom (t.setQueue n { t.queueAt n with drops := min (q.drops + 1) (2 ^ 64 - 1) }) n fuel
        else .entry t e

/-- A pop by an instruction (R347, R357): a LAUNCH queue is the dispatcher's alone. -/
def State.pop (s : State) (n : Nat) : Popped :=
  let q := s.queueAt n
  match q.answering with
  | .off => .status s 4
  | .stopped => .status s 4
  | .fault => .status s 6
  | .on =>
    if q.kind = 2 then .status s 5
    else
      match s.popFrom n (q.count + 1) with
      | .entry t e => .entry (t.retryFor n) e
      | .status t k => .status (t.retryFor n) k
      | .wait t => .wait (if (t.queueAt n).head = q.head then t else t.retryFor n)

/-- The key of the fullest bin; of equal ones the one whose oldest entry is oldest (R351). -/
def fullestBin (es : List QEntry) : Word :=
  let size := fun k : Word => (es.filter (fun e => decide (e.key = k))).length
  (binKeys es).foldl (fun best k => if size best < size k then k else best) ((binKeys es).headD 0)

/-- A queue's entries replaced, `k` fewer than before, in their order. -/
def State.setEntries (s : State) (n k : Nat) (es : List QEntry) : State :=
  let q := s.queueAt n
  let q1 := { q with head := (q.head + k) % 2 ^ 64, seg := es.take 16, since := s.clock }
  ((es.drop 16).zipIdx.foldl (fun t e => t.putEntry (q.slotAddr (q1.head + 16 + e.2)) e.1) s).setQueue n q1

/-- `k` entries of a bin taken, oldest first (R358): those taken, those that are `bad` and met on the way, which are discarded
(R349), and the rest. -/
def takeBin (key : Word) (bad : QEntry → Bool) : Nat → List QEntry → List QEntry × List QEntry × List QEntry
  | _, [] => ([], [], [])
  | 0, es => ([], [], es)
  | k + 1, e :: es =>
    if e.key ≠ key then
      let r := takeBin key bad (k + 1) es
      (r.1, r.2.1, e :: r.2.2)
    else if bad e then
      let r := takeBin key bad (k + 1) es
      (r.1, e :: r.2.1, r.2.2)
    else
      let r := takeBin key bad k es
      (e :: r.1, r.2.1, r.2.2)

/-- Discarded records counted (R349). -/
def State.countDrops (s : State) (n k : Nat) : State :=
  s.setQueue n { s.queueAt n with drops := min ((s.queueAt n).drops + k) (2 ^ 64 - 1) }

/-- A malformed record of a CONTEXT queue (R349). -/
def Queue.bad (q : Queue) (e : QEntry) : Bool := decide (q.kind = 1) && recMalformed (e.words.getD 6 0)

/-- The malformed records of a segment discarded, before a pop that meets them all waits for a refill (R345, R349). -/
def State.shedSeg (s : State) (n : Nat) : State :=
  let q := s.queueAt n
  let k := (q.seg.filter q.bad).length
  (s.setQueue n { q with seg := q.seg.filter (fun e => !q.bad e), head := (q.head + k) % 2 ^ 64 }).countDrops n k

/-- Up to `k` pops in one step (R358): the entries taken. -/
def State.popMany (s : State) (n k : Nat) : List QEntry × State × Option Nat :=
  let q := s.queueAt n
  if q.bin ∧ q.st = .on ∧ q.kind ≠ 2 ∧ q.part ≠ 0 then
    if s.ringPoison q then ([], s.setQueue n { q with st := .fault }, some 6)
    else
    let es := s.allEntries q
    let r := takeBin (fullestBin es) q.bad k es
    (r.1, ((s.setEntries n (r.1.length + r.2.1.length) r.2.2).countDrops n r.2.1.length).retryFor n, none)
  else
    (List.range k).foldl (fun acc _ =>
      match acc.2.2 with
      | some _ => acc
      | none =>
        match acc.2.1.pop n with
        | .entry t e => (acc.1 ++ [e], t, none)
        | .status t st => (acc.1, t, some st)
        | .wait t => (acc.1, t, some 255)) ([], s, none)

/-- The checks on a queue capability (R355). -/
def queueTrap (n : Name) (k : Cap) (perm : Bool) : Fails :=
  firstOf [failIf (!k.tag) .tag (nameVal n), failIf (decide (k.otype ≠ 5)) .seal (nameVal n), failIf (!perm) .perm (nameVal n)]

/-- A core's place among those that wait to push (R356). -/
def State.joinPushers (s : State) (n : Nat) : State :=
  let q := s.queueAt n
  let p := s.core.phys
  let q1 := if q.pushers.contains p then q else { q with pushers := q.pushers ++ [p] }
  (s.setQueue n q1).mapCore (fun c => { c with waiting := some (queueObj n) })

def State.leavePushers (s : State) (n : Nat) : State :=
  let q := s.queueAt n
  s.setQueue n { q with pushers := q.pushers.filter (fun p => decide (p ≠ s.core.phys)) }

/-- The checks of a push (R355). -/
def pushTrap (s : State) (a b : Name) (rsv : Bool) : Fails :=
  let k := s.core.rdCap a
  firstOf [queueTrap a k (k.can .store),
    failIf (rsv && decide (s.core.mode = .u)) .priv (BitVec.ofNat 64 s.core.word),
    failIf (decide (k.label < s.core.recordLabel b)) .label k.addr,
    failIf ((s.core.recordTags b).any (fun t => t) && !k.can .capwr) .perm (nameVal a)]

/-- QPUSH, QPUSH.rsv and QPUSH.wait (R356). -/
def pushInstr (d a b : Name) (rsv wait : Bool) (s : State) : Res :=
  guarded (pushTrap s a b rsv) s (fun s => afterAcquire s (fun s => afterRelease true s (fun s =>
    once false s (fun s =>
      let c := s.core
      let n := (c.rdCap a).addr.toNat
      let e : QEntry := ⟨c.recordWords b, c.recordTags b, c.recordLabel b⟩
      let ahead := (s.queueAt n).pushers.headD c.phys
      let r := s.push n e rsv
      if wait && (decide (r.2 = 2) || (decide (r.2 = 0) && decide (ahead ≠ c.phys))) then .wait (s.joinPushers n)
      else .done ((if wait then r.1.leavePushers n else r.1)) (c.wordResult d (BitVec.ofNat 64 r.2))))))

def execQpush (h : Hd) (d a b : Name) (rsv : Nat) (s : State) :=
  run (.qpush h d a b rsv) s (pushInstr d a b (decide (rsv = 1)) false)
def execQpushWait (h : Hd) (d a b : Name) (s : State) := run (.qpushWait h d a b) s (pushInstr d a b false true)

/-- q after a pop (R357). -/
def popQ (st count : Nat) : List TWrite := qResult (BitVec.ofNat 64 (st + min count (2 ^ 32 - 1) * 2 ^ 16))

/-- What a popped entry lands (R357): tags only under CAPRD. -/
def Core.popResult (c : Core) (d : Name) (k : Cap) (e : QEntry) (count : Nat) : List TWrite :=
  c.recordResult d e.words (e.tags.map (fun t => t && k.can .caprd)) e.lab ++ popQ 0 count

/-- QPOP (R357), an acquire at part scope (R353). -/
def execQpop (h : Hd) (d a : Name) (s : State) :=
  run (.qpop h d a) s (fun s =>
    let k := s.core.rdCap a
    guarded (queueTrap a k (k.can .load)) s (fun s => afterAcquire s (fun s => (once true s (fun s =>
      let n := k.addr.toNat
      match s.pop n with
      | .wait t => .wait t
      | .status t st => .done t (popQ st (t.queueAt n).count)
      | .entry t e => .done t (s.core.popResult d k e (t.queueAt n).count))).acquire true)))

/-- QPOPG (R358): a gang's leader takes for every member, in tile-position order; it waits where the segment holds fewer entries
than it takes and the ring holds more. -/
def execQpopg (h : Hd) (d a : Name) (s : State) :=
  run (.qpopg h d a) s (fun s =>
    let k := s.core.rdCap a
    guarded (queueTrap a k (k.can .load)) s (fun s => afterAcquire s (fun s => (once true s (fun s =>
      let n := k.addr.toNat
      let c := s.core
      let follower := c.follows
      match follower, c.gifts with
      | true, g :: rest =>
        let c1 := { c with gifts := rest }
        let ws := g.writes
        let vs := ws.filter (fun w => decide (w.tgt ≠ .q))
        .done { s with core := c1 }
          (if vs.isEmpty then ws else c.recordResult d (vs.flatMap (fun w => [w.lo, w.hi]))
            (vs.map (fun w => w.tag && k.can .caprd)) ((vs.map TWrite.lab).headD 0) ++ ws.filter (fun w => decide (w.tgt = .q)))
      | true, [] => .done s (popQ 1 (s.queueAt n).count)
      | false, _ =>
        let others := if c.gang.fused then c.members.filter (fun p => decide (p ≠ c.phys)) else []
        let r := s.popMany n (others.length + 1)
        if r.2.2 = some 255 then .wait (if r.1.isEmpty then r.2.1 else s.shedSeg n)
        else
          let cnt := (r.2.1.queueAt n).count
          let st := r.2.2.getD 1
          let res := fun (e : Option QEntry) => match e with
            | some e => c.recordResult d e.words e.tags e.lab ++ popQ 0 cnt
            | none => popQ st cnt
          let t := others.zipIdx.foldl (fun t p => t.onCore p.1 (Core.addGift (giftOf 0 (res r.1[p.2 + 1]?)))) r.2.1
          .done t (match r.1.head? with
            | some e => c.popResult d k e cnt
            | none => popQ st cnt))).acquire true)))

/-- QSTAT (R359). -/
def execQstat (h : Hd) (d a : Name) (s : State) :=
  run (.qstat h d a) s (fun s =>
    let k := s.core.rdCap a
    guarded (queueTrap a k (k.can .load)) s (fun s => afterAcquire s (fun s => once true s (fun s =>
      let n := k.addr.toNat
      let q := s.queueAt n
      let st := match q.st with
        | .off => 0
        | .on => 1
        | .stopped => 2
        | .fault => 3
      let bins := if q.bin then (binKeys (s.allEntries q)).length else 0
      let held := s.heldq.any (fun x => decide (x.queue = some n))
      .done s (s.core.wordResult d (BitVec.ofNat 64 (min q.count (2 ^ 32 - 1) + st * 2 ^ 32 + bins * 2 ^ 36 +
        (!q.parked.isEmpty).toNat * 2 ^ 40 + held.toNat * 2 ^ 41)))))))

end Sys2Proof.Machine
end

