-- ==== Sys2Proof/Machine/Barrier.lean ====
section
/-! DEFINITION. Barriers, semaphores, events, fences, messages, mailboxes and the wait-and-wake table (R301 to R330). -/

namespace Sys2Proof.Machine

open Sys2Proof

/-- Whether an object address is a semaphore's (`true`) or a barrier's (R304); none for a reserved one. -/
def objKind (a : Nat) : Option Bool :=
  if 0x8000 ≤ a ∧ a < 0x10000 then
    if a % 64 < 32 then some true else if a % 64 < 48 then some false else none
  else if 0x4000 ≤ a ∧ a < 0x4080 then some false
  else if 0x4800 ≤ a ∧ a < 0x4840 then some false
  else none

/-- Tile number, or die position, of an object. -/
def objTile (a : Nat) : Nat := (a - 0x8000) / 64
def objPos (a : Nat) : Nat := (a - 0x4000) / 16

/-- Whether a core may use an object (R304). -/
def State.mayUse (s : State) (c : Core) (a : Nat) : Bool :=
  if 0x8000 ≤ a then !isGateway c.phys && decide (tileOf c.phys = objTile a)
  else if a < 0x4080 then
    !isGateway c.phys && decide (dieOf c.phys = chipOrderDie (objPos a)) && (s.partAt c.part).dbar.testBit (a - 0x4000) &&
      decide (c.part ≠ 0)
  else (s.partAt c.part).pbar.testBit (a - 0x4800) && decide (c.part ≠ 0)

/-- The die that holds an object, or for a package barrier the one of the core that parked (R311). -/
def State.objDie (s : State) (a parker : Nat) : Nat :=
  if 0x8000 ≤ a then tileDie (objTile a) else if a < 0x4080 then chipOrderDie (objPos a) else s.homeDie parker

/-- What an object capability names (R305): the object, the parties, the bound region, and whether R305 holds. -/
structure Named where
  obj : Option Nat
  parties : Nat
  region : Option (Int × Int)
  ok : Bool
  deriving DecidableEq, Repr

/-- Where the binding block of a bound capability stands (R305), when its bounds and its address can be one. -/
def State.bindingBlock (s : State) (c : Core) (k : Cap) : Option (Nat × Nat) :=
  let a := k.addr.toNat
  if 0x10000 ≤ a ∧ k.base = a ∧ k.top = (a : Int) + 32 ∧ a % 32 = 0 then s.reach c k.addr 32 else none

/-- The object of a capability (R305), read as R306 check 4 reads it; a killed core's port answers with zeros (R471). -/
def State.named (s : State) (c : Core) (k : Cap) : Named :=
  let a := k.addr.toNat
  if a < 0x10000 then
    let n := (k.top - k.base).toNat
    let good := match objKind a with
      | some sem => decide (k.base = a) && decide (1 ≤ k.top - k.base) && (!sem || decide (n = 1))
      | none => false
    ⟨some a, n, none, good⟩
  else
    match s.bindingBlock c k with
    | none => ⟨none, 0, none, false⟩
    | some (p, off) =>
      if (s.coreAt p).cstate = .killed then ⟨none, 0, none, false⟩ else
      let x := lsBase p + off
      let r := s.sweptCap c (s.granule x)
      let obj := s.numAt (x + 16) 8
      let n := s.numAt (x + 24) 8
      let good := match objKind obj with
        | some sem => r.tag && decide (r.otype = 0) && decide (1 ≤ n ∧ n ≤ 65535) && (!sem || decide (n = 1))
        | none => false
      ⟨if (objKind obj).isSome then some obj else none, n, some (r.base, r.top), good⟩

/-- Checks 1 to 3 of R306, on the capability itself. -/
def Cap.objTrap (k : Cap) (n : Name) : Fails :=
  firstOf [failIf (!k.tag) .tag (nameVal n), failIf (decide (k.otype ≠ 4)) .seal (nameVal n),
    failIf (!k.can .barrier) .perm (nameVal n)]

/-- Checks 4 and 5 of R306, on the object; `sem` says which kind is needed. -/
def State.objTrap (s : State) (n : Name) (sem : Bool) : Fails :=
  let k := s.core.rdCap n
  let o := s.named s.core k
  firstOf [failIf (match o.obj with
      | some a => (objKind a).isSome && decide (objKind a ≠ some sem)
      | none => false) .seal (nameVal n),
    failIf (!o.ok || !s.mayUse s.core (o.obj.getD 0)) .bounds k.addr]

/-- A killed core whose store an immediate read or write meets tells the core that makes it (R471). -/
def State.tellKilled (s : State) (p : Nat) (x : Word) : State :=
  if (s.coreAt p).cstate = .killed then s.tell p s.core.phys x else s

/-- A body that uses an object: the checks of R306, with a binding block read as a load at its port (R305, R206, R220). -/
def atObject (n : Name) (sem : Bool) (s : State) (body : State → Res) : Res :=
  let k := s.core.rdCap n
  guarded (k.objTrap n) s (fun s =>
    match s.bindingBlock s.core k with
    | none => guarded (s.objTrap n sem) s body
    | some (p, off) => afterAcquire s (fun s => atPort p off 32 s (fun s => guarded (s.objTrap n sem) (s.tellKilled p k.addr) body)))

/-- Whether two ranges meet. -/
def meets (a n b m : Int) : Bool := decide (0 < n ∧ 0 < m ∧ a < b + m ∧ b < a + n)

/-- Whether a range of a core's addresses meets a region (R258, R310). -/
def State.rangeMeets (s : State) (c : Core) (lo hi : Int) : Region → Bool
  | .store p off n =>
    (decide (p = c.phys) && meets lo (hi - lo) (selfWindow + off : Nat) n) ||
      (decide (s.indexOf p < (s.partOf c).base + (s.partOf c).len ∧ (s.partOf c).base ≤ s.indexOf p) &&
        meets lo (hi - lo) (remoteWindow + rankSpan * (s.indexOf p - (s.partOf c).base) + off : Nat) n)
  | .virt a n => meets lo (min hi (2 ^ 47) - lo) a n
  | _ => false

def State.tileAt (s : State) (t : Nat) : Tile := s.tiles.look (fun _ => Tile.reset) t
def State.setTile (s : State) (t : Nat) (x : Tile) : State := { s with tiles := s.tiles.put (fun _ => Tile.reset) t x }
def State.onTile (s : State) (t : Nat) (f : Tile → Tile) : State := s.setTile t (f (s.tileAt t))

/-- The scope at which an object acts (R304). -/
def objScope (a : Nat) : Scope := if 0x8000 ≤ a then .tile else if a < 0x4080 then .die else .pkg

/-- Whether a card of the core's window that has not ended writes to a bound region, or one that has ended has a write to it in a card
buffer which the release at the object's scope carries (R310, R483). -/
def State.regionBusy (s : State) (c : Core) (obj : Nat) (r : Option (Int × Int)) : Bool :=
  match r with
  | none => false
  | some (lo, hi) =>
    !isGateway c.phys && ((s.tileAt (tileOf c.phys)).cards.any (fun e =>
      decide (e.2.state ≠ .ended) && e.2.writes.any (s.rangeMeets c lo hi)) ||
    s.cardbuf.any (fun e => e.2.any (fun w => decide (w.tile = tileOf c.phys) &&
      s.inDomain (objScope obj) (.core c.phys) (.core w.store) && s.rangeMeets c lo hi (.store w.store w.off w.bytes.length))))

def State.barAt (s : State) (a : Nat) : Barrier := s.bars.look (fun _ => noBarrier) a
def State.setBar (s : State) (a : Nat) (b : Barrier) : State := { s with bars := s.bars.put (fun _ => noBarrier) a b }
def State.semAt (s : State) (a : Nat) : Sem := s.sems.look (fun _ => noSem) a
def State.setSem (s : State) (a : Nat) (m : Sem) : State := { s with sems := s.sems.put (fun _ => noSem) a m }

/-- An arrival at a barrier (R308): the phase may complete, and then queues the records parked on it. -/
def State.arriveAt (s : State) (a parties : Nat) : State :=
  let b := s.barAt a
  let n := if b.arrived = 0 then parties else b.parties
  if b.arrived + 1 < n then s.setBar a { b with arrived := b.arrived + 1, parties := n }
  else
    b.parked.foldl (fun t r => t.queueRecord a (t.objDie a r.core) r) (s.setBar a ⟨(b.phase + 1) % 2 ^ 16, 0, 0, []⟩)

/-- Whether an arrival record's phase is complete (R309). -/
def State.phaseDone (s : State) (r : Arrival) : Bool := decide ((s.barAt r.obj).phase ≠ r.phase)

/-- A record among the four: an empty place, or the oldest completed one (R309). -/
def State.addArrival (s : State) (c : Core) (r : Arrival) : Core :=
  if c.arrivals.length < 4 then { c with arrivals := c.arrivals ++ [r] }
  else
    match takeFirst s.phaseDone c.arrivals with
    | some (_, rest) => { c with arrivals := rest ++ [r] }
    | none => c

/-- An outbound effect: made now, or held by a mirror pair until its interval agrees (R291, R322), behind a fence when it
releases (R220, R310). -/
def outbound (s : State) (rel : Bool) (h : Held) (now : State → State) : State :=
  if s.core.interval.isSome then s.mapCore (fun c => c.hold ((if rel then [Held.fence] else []) ++ [h])) else now s

/-- Whether an acquire or release of an object acts at clus scope or wider (R304, R483). -/
def objWide (obj : Nat) : Bool := decide (obj < 0x8000)

/-- The arrivals that a mirror core holds. -/
def Core.heldArrivals (c : Core) : List Nat :=
  match c.interval with
  | some v => v.held.filterMap (fun h => match h with
    | .arrive obj _ => some obj
    | _ => none)
  | none => []

/-- An arrival made by a core: its record, then its effect (R308, R309); a mirror pair keeps the record in both cores. -/
def State.arriveOf (s : State) (p obj parties : Nat) : State :=
  let r : Arrival := ⟨obj, (s.barAt obj).phase⟩
  State.arriveAt ((s.inboxesOf p).foldl (fun t q => t.onCore q (fun c => s.addArrival c r)) s) obj parties

/-- BARA (R308 to R310, R325).  Arrivals that a mirror pair holds are made, and so recorded, before it waits for their phases. -/
def execBara (h : Hd) (a : Name) (s : State) :=
  run (.bara h a) s (fun s => atObject a false s (fun s =>
    let c := s.core
    let k := c.rdCap a
    let o := s.named c k
    let obj := o.obj.getD 0
    let held := c.heldArrivals
    if c.arrivals.any (fun r => decide (r.obj = obj) && !s.phaseDone r) then .wait s
    else if decide (4 + (c.arrivals.filter s.phaseDone).length ≤ c.arrivals.length) then .wait s
    else if held.contains obj || decide (4 + (c.arrivals.filter s.phaseDone).length ≤ c.arrivals.length + held.length) then
      .wait (s.mapCore Core.endInterval)
    else if !s.released || s.regionBusy c obj o.region then .wait s
    else if (s.barAt obj).arrived ≠ 0 ∧ (s.barAt obj).parties ≠ o.parties then .trap s .bounds k.addr
    else .done (outbound s true (.arrive obj o.parties) (fun t => t.arriveOf c.phys obj o.parties))))

/-- The last of some arrival records for an object. -/
def lastArrival (obj : Nat) (rs : List Arrival) : Option Arrival := (rs.filter (fun r => decide (r.obj = obj))).getLast?

/-- BARW (R309, R325). -/
def execBarw (h : Hd) (a : Name) (s : State) :=
  run (.barw h a) s (fun s => atObject a false s (fun s =>
    let obj := (s.named s.core (s.core.rdCap a)).obj.getD 0
    (once false s (fun s =>
      match lastArrival obj s.core.arrivals with
      | none => .done s []
      | some r => if s.phaseDone r then .done s [] else .wait s)).acquire (objWide obj)))

/-- Units given to the records at the head of a semaphore's waiters (R311). -/
def State.serve (s : State) (a : Nat) : Nat → State
  | 0 => s
  | n + 1 =>
    let m := s.semAt a
    match m.waiters with
    | .record r :: rest =>
      if m.count = 0 then s
      else State.serve (State.queueRecord (s.setSem a ⟨m.count - 1, rest⟩) a (s.objDie a r.core) r) a n
    | _ => s

def State.serveAll (s : State) (a : Nat) : State := s.serve a (s.semAt a).waiters.length

/-- A unit given (R326). -/
def State.giveUnit (s : State) (a : Nat) : State :=
  let m := s.semAt a
  (s.setSem a { m with count := min 65535 (m.count + 1) }).serveAll a

/-- SEMP (R311, R326); semaphores act at tile scope, and so wait for no buffer (R304, R483). -/
def execSemp (h : Hd) (a : Name) (s : State) :=
  run (.semp h a) s (fun s => atObject a true s (fun s => once false s (fun s =>
    let p := s.core.phys
    let obj := (s.named s.core (s.core.rdCap a)).obj.getD 0
    let m := s.semAt obj
    if m.count ≠ 0 ∧ (m.waiters.head?.getD (.core p)) = .core p then
      .done (State.serveAll (s.setSem obj ⟨m.count - 1, m.waiters.filter (fun w => decide (w ≠ .core p))⟩) obj) []
    else
      let ws := if m.waiters.contains (.core p) then m.waiters else m.waiters ++ [.core p]
      .wait ((s.setSem obj { m with waiters := ws }).mapCore (fun c => { c with waiting := some obj })))))

/-- SEMV (R310, R326). -/
def execSemv (h : Hd) (a : Name) (s : State) :=
  run (.semv h a) s (fun s => atObject a true s (fun s =>
    let o := s.named s.core (s.core.rdCap a)
    let obj := o.obj.getD 0
    if !s.released || s.regionBusy s.core obj o.region then .wait s
    else .done (outbound s true (.give obj) (fun t => t.giveUnit obj))))

/-- WFE (R302, R323). -/
def execWfe (h : Hd) (d a : Name) (s : State) :=
  run (.wfe h d a) s (fun s =>
    let m0 : BitVec 32 := (s.core.rd a).v.setWidth 32
    let m := if m0 = 0 then 0xFFFFFFFF#32 else m0
    let taken := s.core.evt &&& m
    if taken = 0 then .wait s
    else .done (s.mapCore (fun c =>
      let c1 := { c with evt := c.evt &&& ~~~taken }
      c1.later (c1.latePlace d ⟨taken.setWidth 64, 0⟩) 0 0 0 false)))

/-- SEV (R324). -/
def execSev (h : Hd) (a b : Name) (s : State) :=
  run (.sev h a b) s (fun s =>
    let r := (s.core.rd a).v
    let bits : BitVec 16 := (s.core.rd b).v.setWidth 16
    match s.ofRank s.core r.toNat with
    | none => .trap s .bounds r
    | some q => afterAcquire s (fun s =>
      let c := s.core
      .done (outbound s false (.sev q bits) (fun s =>
        State.signal { s with core := c.addMessage } ⟨q, bits.setWidth 32, (c.phys, c.nextId), c.part⟩))))

/-- FENCE (R312): an acquiring one waits until every late write has landed and every load and atomic is performed, also those
whose value nobody takes. -/
def execFence (h : Hd) (ord : Ord) (scope : Scope) (s : State) :=
  run (.fence h ord scope) s (fun s =>
    let acq := decide (ord ≠ .rel)
    if acq && s.core.pending.any Pending.open then .wait s
    else (afterRelease (decide (ord ≠ .acq)) s Res.done).acquire (acq && isWide scope))

/-- The key of an address (R258, R318): none when it is neither local nor virtual. -/
def State.waitKey (s : State) (c : Core) (x : Word) : Option WaitKey :=
  if x.toNat < 2 ^ 47 then some (.virt x.toNat) else (s.reach c x 8).map (fun p => .store p.1 p.2)

/-- The checks of WAITVA and WAKEVA (R327). -/
def State.keyTrap (s : State) (n : Name) (perm : Perm) : Fails :=
  let k := s.core.rdCap n
  let x := k.addr
  firstOf [s.useTrap n k (k.can perm), failIf (decide (x.toNat % 8 ≠ 0)) .align (nameVal n), failIf (!k.covers x.toNat 8) .bounds x,
    failIf (s.waitKey s.core x).isNone .bounds x]

/-- Whether the doubleword at a local key differs from what is expected (R319). -/
def State.keyDiffers (s : State) (key : WaitKey) (v : Word) : Bool :=
  match key with
  | .store p off => decide ((if (s.coreAt p).cstate = .killed then 0 else s.numAt (lsBase p + off) 8) ≠ v.toNat)
  | .virt _ => false

/-- A body that reads the doubleword of a key: at its port when it is local (R206, R319). -/
def atKey (key : WaitKey) (x : Word) (s : State) (body : State → Once) : Once :=
  match key with
  | .virt _ => body s
  | .store p off => if s.portClear p off 8 then body ((s.portEnter p).tellKilled p x) else .wait (s.portWait p off 8)

/-- Whether a core's WAITVA has ended: by a wake, or in a mirror pair by the end that its mate has met (R320, R322). -/
def Core.waitEnded (c : Core) : Bool := c.woken || (c.interval.isSome && c.shared.isSome)

/-- WAITVA (R319, R327). -/
def execWaitva (h : Hd) (a b : Name) (ord : Ord) (scope : Scope) (s : State) :=
  run (.waitva h a b ord scope) s (fun s =>
    if s.core.waitEnded then (once false s (fun s => .done s [])).acquire (isAcq ord && isWide scope)
    else guarded (s.keyTrap a .load) s (fun s => afterAcquire s (fun s =>
      once false s (fun s =>
        let c := s.core
        let x := (c.rdCap a).addr
        match s.waitKey c x with
        | none => .done s []
        | some key =>
          if s.waits.any (fun e => decide (e.who = .core c.phys)) then .wait s
          else atKey key x s (fun s =>
            if 65536 ≤ s.waits.length ∨ s.keyDiffers key (c.rd b).v then .done s []
            else .wait { s with waits := s.waits ++ [⟨key, c.part, .core c.phys⟩] })))))

/-- One wake (R320): a core's wait ends; a host's wake line is written. -/
def State.wakeOne (s : State) (e : WaitEntry) : State :=
  match e.who with
  | .core p => s.onCore p (fun c => { c with woken := true })
  | .host val line => s.store (0x400000000000 + line) (bytesOf 8 val) 0

/-- The first `n` elements of a list that satisfy a test, and the others. -/
def firstsOf {α : Type} (f : α → Bool) : List α → Nat → List α × List α
  | [], _ => ([], [])
  | x :: xs, n =>
    if f x && decide (n ≠ 0) then (x :: (firstsOf f xs (n - 1)).1, (firstsOf f xs (n - 1)).2)
    else ((firstsOf f xs n).1, x :: (firstsOf f xs n).2)

/-- The entries of a key and partition, up to `n` of them or all for 0, in the order of registration (R320). -/
def State.wakeKey (s : State) (key : WaitKey) (part n : Nat) : State :=
  let r := firstsOf (fun e : WaitEntry => decide (e.key = key ∧ e.part = part)) s.waits (if n = 0 then s.waits.length else n)
  r.1.foldl State.wakeOne { s with waits := r.2 }

def heldWake (key : WaitKey) (part n : Nat) : Held :=
  match key with
  | .store p off => .wake (some p) off part n
  | .virt a => .wake none a part n

/-- WAKEVA (R320, R327). -/
def execWakeva (h : Hd) (a b : Name) (ord : Ord) (scope : Scope) (s : State) :=
  run (.wakeva h a b ord scope) s (fun s => guarded (s.keyTrap a .store) s (fun s => afterAcquire s (fun s =>
    afterReleaseOut (isRel ord) s (fun s =>
      match s.waitKey s.core (s.core.rdCap a).addr with
      | none => .done s
      | some key =>
        let n := (s.core.rd b).v.toNat % 2 ^ 16
        .done (outbound s (isRel ord) (heldWake key s.core.part n) (fun t => t.wakeKey key s.core.part n))))))

/-- A mailbox block's physical address (R315); none raises BOUNDS. -/
def State.mailbox (s : State) (c : Core) (k : Cap) : Option (Nat × Nat) :=
  let a := k.addr.toNat
  if a % 64 = 0 ∧ k.base = a ∧ k.top = (a : Int) + 64 then s.reach c k.addr 64 else none

/-- MSTATE of a block (R315) and its state code; in a killed core's store every block is CLOSED (R471). -/
def State.mstate (s : State) (block : Nat) : Word :=
  if (s.coreAt (ownerOf block)).cstate = .killed then 3 else BitVec.ofNat 64 (s.numAt (block + 48) 8)
def mcode (w : Word) : Nat := w.toNat % 4

/-- MSTATE written: a state, a held label, and one more delivery or none. -/
def State.setMstate (s : State) (block state : Nat) (lab : Label) (delivered : Bool) : State :=
  let w := s.mstate block
  let count := (w.toNat / 2 ^ 32 + delivered.toNat) % 2 ^ 32
  s.objWrite (block + 48) 8 (fun y t => t.store y (bytesOf 8 (state + lab.toNat * 2 ^ 8 + count * 2 ^ 32)) 0)

/-- Where a parked record's register image stands `n` bytes at an offset of it, named as its core named it (R80, R317). -/
def State.imageSpot (s : State) (r : Parked) (off n : Nat) : Option (Nat × Nat) :=
  s.reach { partCore r.part with phys := r.core } ((s.granule (r.pa + 16)).addr + BitVec.ofNat 64 off) n

/-- Delivery (R317): the message into the bound record's image, and the record queued. -/
def State.deliverTo (s : State) (block : Nat) (r : Parked) (words : List Word) (lab : Label) : State :=
  let st := s.recState r.pa
  let k := min 4 (recSize st - recWoff st)
  let bs := (words.take k).flatMap (fun w : Word => bytesOf 8 w.toNat)
  let s1 := match s.imageSpot r (8 * (recWoff st + recOdd st)) (8 * k) with
    | some (p, off) => s.objWrite (lsBase p + off) (8 * k) (fun y t => t.store y bs lab)
    | none => s
  s1.queueRecord block (s.homeDie (ownerOf block)) r

/-- The record that an ARMED mailbox holds. -/
def State.armedRecord (s : State) (block : Nat) : Option Parked := s.armed.listed block

/-- Whether a parked record, or its image, cannot be reached now: its core is evicted or holds another partition's context (R339,
R436). -/
def State.recordAway (s : State) (r : Parked) : Bool :=
  s.recordGone r ||
    (match s.imageSpot r 0 8 with
     | some (p, _) => s.unreachable r.part p
     | none => false)
def State.armedAway (s : State) (block : Nat) : Bool :=
  match s.armedRecord block with
  | none => false
  | some r => s.recordAway r

/-- What an MPOST does at its mailbox (R316): none while it waits there. -/
def State.postAt (s : State) (block : Nat) (words : List Word) (lab : Label) : Option State :=
  match mcode (s.mstate block) with
  | 0 => some ((s.objWrite block 32 (fun y t =>
      t.store y (words.flatMap (fun w : Word => bytesOf 8 w.toNat)) lab)).setMstate block 2 lab false)
  | 1 =>
    if s.armedAway block then none
    else
    let s1 := (s.objWrite (block + 32) 16 (fun y t => t.putGranule y Cap.null 0)).setMstate block 0 0 true
    match s.armedRecord block with
    | some r => some (State.deliverTo { s1 with armed := s1.armed.drop block } block r words lab)
    | none => some s1
  | 2 => none
  | _ => some s

/-- Whether no core waits at a mailbox before another one; a core's place among those that wait, taken and left (R206, R328). -/
def State.postFirst (s : State) (block p : Nat) : Bool :=
  match s.posters.find? (fun e => decide (e.1 = block)) with
  | some e => decide (e.2 = p)
  | none => true
def State.joinPost (s : State) (block p : Nat) : State :=
  if s.posters.any (fun e => decide (e.2 = p)) then s else { s with posters := s.posters ++ [(block, p)] }
def State.leavePost (s : State) (p : Nat) : State := { s with posters := s.posters.filter (fun e => decide (e.2 ≠ p)) }

/-- A post made by a core when its turn at the mailbox has come; none while it waits there. -/
def State.postBy (s : State) (p block : Nat) (words : List Word) (lab : Label) : Option State :=
  if s.postFirst block p then (s.postAt block words lab).map (fun t => t.leavePost p) else none

/-- MPOST (R316, R328): its step is made at the mailbox's port; those that find the mailbox HELD wait in the order in which they
came. -/
def execMpost (h : Hd) (a b : Name) (ord : Ord) (scope : Scope) (s : State) :=
  run (.mpost h a b ord scope) s (fun s =>
    let k := s.core.rdCap a
    guarded (firstOf [failIf (!k.tag) .tag (nameVal a), failIf (decide (k.otype ≠ 3)) .seal (nameVal a),
        failIf (!k.can .mailbox) .perm (nameVal a), failIf (s.mailbox s.core k).isNone .bounds k.addr]) s (fun s =>
      afterAcquire s (fun s => afterReleaseOut (isRel ord) s (fun s =>
        match s.mailbox s.core k with
        | none => .done s
        | some (p, off) =>
          let c := s.core
          let block := lsBase p + off
          let vs := c.rdMany b 4
          let lab := Label.maxOf (vs.map LVal.l)
          atPort p off 64 s (fun s =>
            if mcode (s.mstate block) = 3 then .trap (s.tellKilled p k.addr) .revoked k.addr
            else if c.interval.isSome then .done (outbound s (isRel ord) (.post block (vs.map LVal.v) lab) id)
            else
              match s.postBy c.phys block (vs.map LVal.v) lab with
              | some t => .done t
              | none => .wait (s.joinPost block c.phys))))))

/-- SEND (R328). -/
def execSend (h : Hd) (a b : Name) (ord : Ord) (scope : Scope) (s : State) :=
  run (.send h a b ord scope) s (fun s =>
    let r := (s.core.rd a).v
    match s.ofRank s.core r.toNat with
    | none => .trap s .bounds r
    | some q => afterAcquire s (fun s => afterReleaseOut (isRel ord) s (fun s =>
      let c := s.core
      let vs := c.rdMany b 4
      let m : InMsg := ⟨.msg, vs.map LVal.v, Label.maxOf (vs.map LVal.l), s.rankOf c⟩
      .done (outbound s (isRel ord) (.send ⟨q, m, none, c.part⟩) (fun s =>
        State.sendMsg { s with core := c.addMessage } ⟨q, m, some (c.phys, c.nextId), c.part⟩)))))

/-- Kind codes of R313. -/
def MsgKind.code : MsgKind → Nat
  | .msg => 0 | .fpevent => 1 | .error => 2 | .punt => 3

/-- The oldest message for a core that may enter now, behind no earlier one of its sender, and the messages without it (R313). -/
def takeMayEnter (p : Nat) (may : Flight → Bool) : List Flight → List Nat → Option (Flight × List Flight)
  | [], _ => none
  | f :: rest, seen =>
    if f.dst ≠ p then (takeMayEnter p may rest seen).map (fun r => (r.1, f :: r.2))
    else if may f && !seen.contains f.msg.src then some (f, rest)
    else (takeMayEnter p may rest (f.msg.src :: seen)).map (fun r => (r.1, f :: r.2))

/-- Messages that wait for room in an inbox enter it, oldest first, each sender's in order (R313). -/
def State.enterWaiting (s : State) (p : Nat) : Nat → State
  | 0 => s
  | n + 1 =>
    match takeMayEnter p (fun f => !s.refuses f) s.flights [] with
    | none => s
    | some (f, rest) => State.enterWaiting (State.enterMsg { s with flights := rest } f) p n

/-- The oldest message of a kind that a mask names, and the inbox without it (R329). -/
def takeKind (mask : Nat) (ms : List InMsg) : Option (InMsg × List InMsg) :=
  takeFirst (fun m : InMsg => mask.testBit m.kind.code) ms

/-- The late write just issued holds later accesses until it has landed (R220, R332). -/
def Core.lastAcq (acq : Bool) (c : Core) : Core :=
  { c with pending := c.pending.map (fun p => if p.id + 1 = c.nextId then { p with acq := p.acq || acq } else p) }

/-- An instruction that writes late and acquires (R220, R332, R483). -/
def Res.acquireLate (acq wide : Bool) : Res → Res
  | .done t => (Res.done (t.mapCore (Core.lastAcq acq))).acquire (acq && wide)
  | r => r

/-- RECV (R329). -/
def execRecv (h : Hd) (d a : Name) (ord : Ord) (scope : Scope) (s : State) :=
  run (.recv h d a ord scope) s (fun s => afterAcquire s (fun s => (once true s (fun s =>
    let c := s.core
    let m0 := (c.rd a).v.toNat % 16
    let mask := if m0 = 0 then 15 else m0
    match takeKind mask c.inbox with
    | none => .wait s
    | some (m, rest) =>
      let drop := fun (k : Core) => { k with inbox := ((takeKind mask k.inbox).map (fun r => r.2)).getD k.inbox }
      let s1 := s.mapCore (fun c => { c with inbox := rest })
      let s2 := if c.interval.isSome then s1.onCore (mateOf c.phys) drop else s1
      let s3 := if s.hold then s2 else s2.enterWaiting c.phys s2.flights.length
      let src := if m.kind = .punt then 0x1FFF else m.src
      .done s3 (c.vectorResult d m.words m.lab ++ qResult (BitVec.ofNat 64 (m.kind.code * 2 ^ 32 + src))))).acquireLate (isAcq ord) (isWide scope)))

end Sys2Proof.Machine
end

