-- ==== Sys2Proof/Machine/Num.lean ====
section
/-! DEFINITION. Number formats, exact values and rounding, and the Kustad blocks (R120 to R141). -/

namespace Sys2Proof.Machine

open Sys2Proof

/-- Rounding modes of R125. -/
inductive RMode where
  | rne | rtz | rdn | rup | sr
  deriving DecidableEq, Repr

/-- The mode of a value of st field RM (R60); 4 to 7 are reserved. -/
def RMode.ofRM : Nat → Option RMode
  | 0 => some .rne | 1 => some .rtz | 2 => some .rdn | 3 => some .rup | _ => none

/-- A floating-point format (R121): exponent and fraction bits, bias, and what its top exponent means. -/
structure FFmt where
  ebits : Nat
  mbits : Nat
  bias : Nat
  /-- has infinities -/
  inf : Bool
  /-- conversion into it saturates, and its NaNs are quiet (R122, R127) -/
  sat : Bool
  deriving DecidableEq, Repr

def FFmt.f32 : FFmt := ⟨8, 23, 127, true, false⟩
def FFmt.f16 : FFmt := ⟨5, 10, 15, true, false⟩
def FFmt.bf16 : FFmt := ⟨8, 7, 127, true, false⟩
def FFmt.e4m3 : FFmt := ⟨4, 3, 7, false, true⟩
def FFmt.e5m2 : FFmt := ⟨5, 2, 15, true, true⟩

def FFmt.width (f : FFmt) : Nat := 1 + f.ebits + f.mbits

/-- The exponent of the smallest subnormal, and of the smallest normal (R121). -/
def FFmt.emin (f : FFmt) : Int := 1 - (f.bias : Int) - f.mbits
def FFmt.enorm (f : FFmt) : Int := 1 - (f.bias : Int)

/-- The largest finite value as bits, sign 0 (R121). -/
def FFmt.maxBits (f : FFmt) : Nat :=
  if f.inf then (2 ^ f.ebits - 1) * 2 ^ f.mbits - 1 else 2 ^ (f.ebits + f.mbits) - 2

def FFmt.infBits (f : FFmt) : Nat := (2 ^ f.ebits - 1) * 2 ^ f.mbits

/-- The canonical NaN (R121). -/
def FFmt.nanBits (f : FFmt) : Nat := if f.inf then f.infBits + 2 ^ (f.mbits - 1) else 2 ^ (f.ebits + f.mbits) - 1

def FFmt.signed (f : FFmt) (neg : Bool) (b : Nat) : Nat := if neg then 2 ^ (f.ebits + f.mbits) + b else b

/-- A value of a floating-point format: a NaN, an infinity, or sign and exact magnitude m × 2^e. -/
inductive FVal where
  | nan (signalling : Bool)
  | inf (neg : Bool)
  | fin (neg : Bool) (m : Nat) (e : Int)
  deriving DecidableEq, Repr

/-- The value of a bit pattern (R121, R122). -/
def FFmt.decode (f : FFmt) (bits : Nat) : FVal :=
  let neg := bits.testBit (f.ebits + f.mbits)
  let b := bits % 2 ^ (f.ebits + f.mbits)
  let ef := b / 2 ^ f.mbits
  let m := b % 2 ^ f.mbits
  if f.inf ∧ ef = 2 ^ f.ebits - 1 then
    if m = 0 then .inf neg else .nan (!f.sat && !m.testBit (f.mbits - 1))
  else if !f.inf ∧ b = 2 ^ (f.ebits + f.mbits) - 1 then .nan false
  else if ef = 0 then .fin neg m f.emin
  else .fin neg (2 ^ f.mbits + m) (f.emin + ef - 1)

/-- How a magnitude m × 2^e compares with another. -/
def magLt (m : Nat) (e : Int) (n : Nat) (d : Int) : Bool :=
  let k := min e d
  decide (m * 2 ^ (e - k).toNat < n * 2 ^ (d - k).toNat)

/-- Where the exact magnitude (m + δ) × 2^e lies between two multiples of 2^q, δ in (0, 1) when `sticky` holds: the lower
multiple, and the rest as a part of 2^q, whose numerator and power of two follow. -/
structure Split where
  lower : Nat
  rem : Nat
  shift : Nat
  sticky : Bool
  deriving DecidableEq, Repr

def splitAt (m : Nat) (e q : Int) (sticky : Bool) : Split :=
  if q ≤ e then ⟨m * 2 ^ (e - q).toNat, 0, 0, sticky⟩
  else
    let s := (q - e).toNat
    ⟨m / 2 ^ s, m % 2 ^ s, s, sticky⟩

def Split.inexact (x : Split) : Bool := decide (x.rem ≠ 0) || x.sticky

/-- The part as a number of 2^-32, rounded down, measured toward +∞ (R130). -/
def Split.part32 (x : Split) (neg : Bool) : Nat :=
  (if neg then 2 ^ x.shift - x.rem else x.rem) * 2 ^ 32 / 2 ^ x.shift

/-- Whether a mode takes the multiple of greater magnitude (R125, R130); `r` is the draw. -/
def Split.up (x : Split) (mode : RMode) (neg : Bool) (r : Nat) : Bool :=
  x.inexact &&
  match mode with
  | .rne =>
    let half := 2 ^ x.shift / 2
    if x.shift = 0 then false
    else if half < x.rem then true
    else if x.rem = half then x.sticky || decide (x.lower % 2 = 1) else false
  | .rtz => false
  | .rdn => neg
  | .rup => !neg
  | .sr => if neg then !decide (r < x.part32 true) else decide (r < x.part32 false)

/-- A result with the flags it raises. -/
structure Rounded where
  bits : Nat
  fl : Flags
  deriving DecidableEq, Repr

def nxFlag : Flags := ⟨false, false, false, false, true⟩
def nvFlag : Flags := ⟨true, false, false, false, false⟩
def dzFlag : Flags := ⟨false, true, false, false, false⟩
def ofFlag : Flags := ⟨false, false, true, false, false⟩
def ufFlag : Flags := ⟨false, false, false, true, false⟩

def canonNan (f : FFmt) (invalid : Bool) : Rounded := ⟨f.nanBits, if invalid then nvFlag else Flags.none⟩

/-- The bits of a rounded magnitude M × 2^q, with M at most 2^(mbits + 1) and q at least the exponent of a subnormal. -/
def FFmt.encodeMag (f : FFmt) (m : Nat) (q : Int) : Nat :=
  if m < 2 ^ f.mbits then m
  else if m = 2 ^ (f.mbits + 1) then ((q - f.emin).toNat + 2) * 2 ^ f.mbits
  else ((q - f.emin).toNat + 1) * 2 ^ f.mbits + (m - 2 ^ f.mbits)

/-- The result of overflow (R126, R127). -/
def overflow (f : FFmt) (mode : RMode) (neg : Bool) : Rounded :=
  let toInf :=
    !f.sat && (match mode with
      | .rne => true
      | .rdn => neg
      | .rup => !neg
      | _ => false)
  ⟨f.signed neg (if toInf then f.infBits else f.maxBits), ofFlag.or nxFlag⟩

/-- Round (R123, R125 to R127, R130): the exact magnitude (m + δ) × 2^e, not zero, to a format. -/
def FFmt.round (f : FFmt) (mode : RMode) (r : Nat) (neg : Bool) (m : Nat) (e : Int) (sticky : Bool) : Rounded :=
  let top := (Nat.log2 m : Int) + e
  let q := max (top - f.mbits) f.emin
  let x := splitAt m e q sticky
  let up := x.up mode neg r
  let b := f.encodeMag (x.lower + up.toNat) q
  let y := splitAt m e (top - f.mbits) sticky
  let tiny := decide (top < f.enorm) &&
    !(decide (top = f.enorm - 1) && decide (y.lower + (y.up mode neg r).toNat = 2 ^ (f.mbits + 1)))
  let max := f.decode f.maxBits
  let beyond := match max with
    | .fin _ mm me => magLt mm me m e || (decide (¬ magLt m e mm me) && sticky)
    | _ => false
  if f.maxBits < b ∨ (mode = .sr ∧ beyond = true) then overflow f mode neg
  else ⟨f.signed neg b, ⟨false, false, false, tiny && x.inexact, x.inexact⟩⟩

/-- A signed exact value n × 2^e rounded; an exact zero takes the sign given (R125). -/
def FFmt.roundInt (f : FFmt) (mode : RMode) (r : Nat) (n : Int) (e : Int) (zeroNeg : Bool) : Rounded :=
  if n = 0 then ⟨f.signed zeroNeg 0, Flags.none⟩ else f.round mode r (decide (n < 0)) n.natAbs e false

/-- The signed numerator of a finite value at an exponent not above its own. -/
def scaled (neg : Bool) (m : Nat) (e k : Int) : Int :=
  let v : Int := (m : Int) * 2 ^ (e - k).toNat
  if neg then -v else v

/-- The sign of an exact zero sum (R125). -/
def zeroSign (mode : RMode) (a b : Bool) : Bool := if a = b then a else decide (mode = .rdn)

def FVal.isNan : FVal → Bool
  | .nan _ => true
  | _ => false

def FVal.isSnan : FVal → Bool
  | .nan g => g
  | _ => false

def FVal.neg : FVal → FVal
  | .nan g => .nan g
  | .inf n => .inf (!n)
  | .fin n m e => .fin (!n) m e

/-- x + y (R122, R125, R186). -/
def FFmt.add (f : FFmt) (mode : RMode) (x y : FVal) : Rounded :=
  match x, y with
  | .nan a, y => canonNan f (a || y.isSnan)
  | _, .nan b => canonNan f b
  | .inf a, .inf b => if a = b then ⟨f.signed a f.infBits, Flags.none⟩ else canonNan f true
  | .inf a, .fin _ _ _ => ⟨f.signed a f.infBits, Flags.none⟩
  | .fin _ _ _, .inf b => ⟨f.signed b f.infBits, Flags.none⟩
  | .fin a m e, .fin b n d =>
    let k := min e d
    f.roundInt mode 0 (scaled a m e k + scaled b n d k) k (zeroSign mode a b)

/-- The exact product of two values, or why it is none. -/
def FVal.times (x y : FVal) : Option FVal :=
  match x, y with
  | .nan a, y => some (.nan (a || y.isSnan))
  | x, .nan b => some (.nan (b || x.isSnan))
  | .inf a, .inf b => some (.inf (a != b))
  | .inf a, .fin b n _ => if n = 0 then none else some (.inf (a != b))
  | .fin a m _, .inf b => if m = 0 then none else some (.inf (a != b))
  | .fin a m e, .fin b n d => some (.fin (a != b) (m * n) (e + d))

/-- x × y. -/
def FFmt.mul (f : FFmt) (mode : RMode) (x y : FVal) : Rounded :=
  match x.times y with
  | none => canonNan f true
  | some (.nan g) => canonNan f g
  | some (.inf a) => ⟨f.signed a f.infBits, Flags.none⟩
  | some (.fin a m e) => if m = 0 then ⟨f.signed a 0, Flags.none⟩ else f.round mode 0 a m e false

/-- z + x × y, or z − x × y, with one rounding. -/
def FFmt.fma (f : FFmt) (mode : RMode) (minus : Bool) (z x y : FVal) : Rounded :=
  match x.times y with
  | none => canonNan f true
  | some p => f.add mode (if minus then p.neg else p) z

/-- x ÷ y (R186). -/
def FFmt.div (f : FFmt) (mode : RMode) (x y : FVal) : Rounded :=
  match x, y with
  | .nan a, y => canonNan f (a || y.isSnan)
  | _, .nan b => canonNan f b
  | .inf _, .inf _ => canonNan f true
  | .inf a, .fin b _ _ => ⟨f.signed (a != b) f.infBits, Flags.none⟩
  | .fin a _ _, .inf b => ⟨f.signed (a != b) 0, Flags.none⟩
  | .fin a m e, .fin b n d =>
    if n = 0 then (if m = 0 then canonNan f true else ⟨f.signed (a != b) f.infBits, dzFlag⟩)
    else if m = 0 then ⟨f.signed (a != b) 0, Flags.none⟩
    else f.round mode 0 (a != b) (m * 2 ^ 80 / n) (e - d - 80) (decide (m * 2 ^ 80 % n ≠ 0))

/-- Whether x lies below y, −0 below +0 (R124); neither is a NaN. -/
def FVal.below (x y : FVal) : Bool :=
  match x, y with
  | .inf a, .inf b => a && !b
  | .inf a, .fin _ _ _ => a
  | .fin _ _ _, .inf b => !b
  | .fin a m e, .fin b n d =>
    if a && !b then true
    else if !a && b then false
    else if a then magLt n d m e
    else magLt m e n d
  | _, _ => false

/-- Minimum and maximum of two patterns (R124). -/
def FFmt.minmax (f : FFmt) (greater : Bool) (a b : Nat) : Rounded :=
  let x := f.decode a
  let y := f.decode b
  if x.isNan || y.isNan then canonNan f (x.isSnan || y.isSnan)
  else if (if greater then x.below y else y.below x) then ⟨b, Flags.none⟩ else ⟨a, Flags.none⟩

/-- Integer square root, bit by bit from bit `k` down. -/
def isqrtFrom (n acc : Nat) : Nat → Nat
  | 0 => acc
  | k + 1 => isqrtFrom n (if (acc + 2 ^ k) * (acc + 2 ^ k) ≤ n then acc + 2 ^ k else acc) k

def isqrt (n : Nat) : Nat := isqrtFrom n 0 (Nat.log2 n / 2 + 1)

/-- √x of a finite positive value, to many bits: magnitude, exponent, and whether something is left. -/
def sqrtMag (m : Nat) (e : Int) : Nat × Int × Bool :=
  let m1 := if e % 2 = 0 then m else 2 * m
  let e1 := if e % 2 = 0 then e else e - 1
  let n := m1 * 2 ^ 80
  (isqrt n, (e1 - 80) / 2, decide (isqrt n * isqrt n ≠ n))

/-- VFSQRT (R187, R188). -/
def FFmt.sqrt (f : FFmt) (mode : RMode) (x : FVal) : Rounded :=
  match x with
  | .nan g => canonNan f g
  | .inf neg => if neg then canonNan f true else ⟨f.infBits, Flags.none⟩
  | .fin neg m e =>
    if m = 0 then ⟨f.signed neg 0, Flags.none⟩
    else if neg then canonNan f true
    else
      let r := sqrtMag m e
      f.round mode 0 false r.1 r.2.1 r.2.2

/-- The integer a finite value rounds to (R128, R134). -/
def roundToInt (mode : RMode) (r : Nat) (neg : Bool) (m : Nat) (e : Int) : Int × Bool :=
  let x := splitAt m e 0 false
  let v : Int := (x.lower + (x.up mode neg r).toNat : Nat)
  (if neg then -v else v, x.inexact)

/-- One draw of the generator (R131): its next state, which is the draw. -/
def draw (seed : BitVec 32) : BitVec 32 :=
  let x0 := if seed = 0 then 0x6D2B79F5#32 else seed
  let x1 := x0 ^^^ (x0 <<< 13)
  let x2 := x1 ^^^ (x1 >>> 17)
  x2 ^^^ (x2 <<< 5)

/-- `n` draws in order, and the state after them. -/
def draws (seed : BitVec 32) : Nat → List Nat × BitVec 32
  | 0 => ([], seed)
  | n + 1 =>
    let x := draw seed
    let r := draws x n
    (x.toNat :: r.1, r.2)

/-- Mantissa width of a block format (R132). -/
def KFmt.m : KFmt → Nat
  | .kb2 => 2 | .kb4 => 4 | .kb7 => 7

/-- Bytes of a block (R132). -/
def KFmt.bytes (k : KFmt) : Nat := 2 + 2 * (k.m + 1)

/-- What a block's elements are (R133): all NaN, or signed integers with their group shifts and the shared exponent. -/
inductive Block where
  | nan
  | vals (e : Nat) (xs : List (Int × Nat))
  deriving DecidableEq, Repr

/-- Element `j`'s signed value and group shift in a block of exponent neither 0 nor 255. -/
def blockElem (k : KFmt) (b j : Nat) : Int × Nat :=
  let mu := b / 2 ^ 8 / 4 ^ (j / 4) % 4
  let c := b / 2 ^ (16 + j * (k.m + 1)) % 2 ^ (k.m + 1)
  let mag := c % 2 ^ k.m
  (if 2 ^ k.m ≤ c then -(mag : Int) else mag, mu)

/-- A block read (R133). -/
def KFmt.decode (k : KFmt) (b : Nat) : Block :=
  let e := b % 256
  if e = 255 then .nan
  else if e = 0 then .vals 127 (List.replicate 16 (0, 0))
  else .vals e ((List.range 16).map (blockElem k b))

/-- The exact value of an element: n × 2^x (R133). -/
def KFmt.exp (k : KFmt) (e mu : Nat) : Int := (e : Int) - 127 - ((k.m : Int) - 1) - (mu : Int)

/-- An input of quantisation: a value n × 2^e, or a NaN or infinity. -/
inductive QIn where
  | bad
  | val (n : Int) (e : Int)
  deriving DecidableEq, Repr

def QIn.ofF (x : FVal) : QIn :=
  match x with
  | .fin neg m e => .val (if neg then -(m : Int) else m) e
  | _ => .bad

/-- floor(Nat.log2 |x|) of a value that is not 0. -/
def QIn.log : QIn → Option Int
  | .val n e => if n = 0 then none else some ((Nat.log2 n.natAbs : Int) + e)
  | .bad => none

/-- The greatest of a list of optional exponents. -/
def maxLog (xs : List QIn) : Option Int :=
  xs.foldl (fun acc x =>
    match acc, x.log with
    | some a, some b => some (max a b)
    | none, b => b
    | a, none => a) none

/-- One element quantised (R134): its code, and whether it is inexact, clamped, lost. -/
structure QElem where
  code : Nat
  mag : Nat
  inexact : Bool
  clamped : Bool
  lost : Bool
  deriving DecidableEq, Repr

def quantElem (k : KFmt) (mode : RMode) (r : Nat) (ue : Int) (x : QIn) : QElem :=
  match x with
  | .bad => ⟨0, 0, false, false, false⟩
  | .val n e =>
    let v := roundToInt mode r (decide (n < 0)) n.natAbs (e - ue)
    let big := decide (2 ^ k.m - 1 < v.1.natAbs)
    let mag := min v.1.natAbs (2 ^ k.m - 1)
    let code := if v.1 < 0 ∧ mag ≠ 0 then 2 ^ k.m + mag else mag
    ⟨code, mag, v.2 || big, big, decide (n ≠ 0) && decide (mag = 0)⟩

/-- Quantisation of 16 values (R134, R135): the block as a number, and its flags; `rs` are the draws. -/
def quantise (k : KFmt) (mode : RMode) (rs : List Nat) (xs : List QIn) : Rounded :=
  if xs.any (fun x => decide (x = .bad)) then ⟨255, nvFlag⟩
  else
    match maxLog xs with
    | none => ⟨0, Flags.none⟩
    | some l =>
      let e : Int := max 1 (min 254 (l + 127))
      let mu : Nat → Nat := fun g => match maxLog ((xs.drop (4 * g)).take 4) with
        | none => 3
        | some lg => (max 0 (min 3 ((e - 127) - lg))).toNat
      let es := (List.range 16).map (fun j =>
        quantElem k mode (rs.getD j 0) (e - 127 - ((k.m : Int) - 1) - (mu (j / 4) : Int)) (xs.getD j (.val 0 0)))
      let fl : Flags := ⟨false, false, es.any QElem.clamped, es.any QElem.lost, es.any QElem.inexact⟩
      if es.all (fun q => decide (q.mag = 0)) then ⟨0, fl⟩
      else
        let muByte := mu 0 + 4 * mu 1 + 16 * mu 2 + 64 * mu 3
        let elems := es.foldr (fun q acc => q.code + 2 ^ (k.m + 1) * acc) 0
        ⟨e.toNat + 2 ^ 8 * muByte + 2 ^ 16 * elems, fl⟩

/-- The exact values of a block's elements (R133); a NaN block's are NaNs. -/
def KFmt.values (k : KFmt) (b : Nat) : List QIn :=
  match k.decode b with
  | .nan => List.replicate 16 .bad
  | .vals e xs => xs.map (fun x => .val x.1 (k.exp e x.2))

/-- The sum of two exact values (R141). -/
def QIn.add (x y : QIn) : QIn :=
  match x, y with
  | .val a e, .val b d =>
    let q := min e d
    .val (a * 2 ^ (e - q).toNat + b * 2 ^ (d - q).toNat) q
  | _, _ => .bad

/-- Dequantisation of an element to a format (R136); exact in f32 and bf16. -/
def dequant (f : FFmt) (mode : RMode) (x : QIn) : Rounded :=
  match x with
  | .bad => ⟨f.nanBits, Flags.none⟩
  | .val n e => f.roundInt mode 0 n e false

end Sys2Proof.Machine
end

