-- ==== Sys2Proof/Machine/Approx.lean ====
section
/-! DEFINITION. The functions of MAJOR 0x75 (R187, R188): special operands, exact cases, and the bound that a result of
the device, otherwise free, keeps (notes/assumptions/9.md). -/

namespace Sys2Proof.Machine

open Sys2Proof

/-- The functions of MAJOR 0x75 beside the square root. -/
inductive SFun where
  | rcp | rsq | exp2 | log2 | tanh
  deriving DecidableEq, Repr

def SFun.code : SFun → Nat
  | .rcp => 1 | .rsq => 2 | .exp2 => 3 | .log2 => 4 | .tanh => 5

/-- A true value: its sign, and a magnitude that lies above m × 2^e and below top × 2^e. -/
structure Truth where
  neg : Bool
  m : Nat
  top : Nat
  e : Int
  deriving DecidableEq, Repr

/-- 2^(1/2), 2^(1/4), … in units of 2^-96, from `c` = 2^(2 × first). -/
def rootsOfTwo (c : Nat) : Nat → List Nat
  | 0 => []
  | n + 1 => isqrt (c * 2 ^ 96) :: rootsOfTwo (isqrt (c * 2 ^ 96)) n

/-- 2^f for f = `frac` × 2^-64 in [0, 1), in units of 2^-96. -/
def exp2Frac (frac : Nat) : Nat :=
  ((rootsOfTwo (2 ^ 97) 64).zipIdx).foldl
    (fun acc c => if frac.testBit (63 - c.2) then acc * c.1 / 2 ^ 96 else acc) (2 ^ 96)

/-- 2^w for a w that is no integer, v ≤ w ≤ v + 1 in units of 2^-64: `exp2Frac` lies below by less than 2^10, and w may lie above v
by a unit. -/
def exp2Truth (v : Int) : Truth :=
  let y := exp2Frac (v % 2 ^ 64).toNat
  ⟨false, y, min (2 ^ 97) (y + y / 2 ^ 64 + 2 ^ 10 + 1), v / 2 ^ 64 - 96⟩

/-- `n` bits of log2 y after the point, for y in [1, 2) in units of 2^-160. -/
def logBits (y : Nat) : Nat → Nat
  | 0 => 0
  | n + 1 =>
    let z := y * y / 2 ^ 160
    if 2 ^ 161 ≤ z then 2 ^ n + logBits (z / 2) n else logBits z n

/-- log2 of a positive finite value in units of 2^-64. -/
def log2Fixed (m : Nat) (e : Int) : Int :=
  let t := Nat.log2 m
  ((t : Int) + e) * 2 ^ 64 + logBits (m * 2 ^ 160 / 2 ^ t) 64

/-- A value in units of 2^-64, rounded down. -/
def fixed64 (neg : Bool) (m : Nat) (e : Int) : Int :=
  let x := splitAt m e (-64) false
  if neg then -(x.lower : Int) - (if x.rem = 0 then 0 else 1) else x.lower

/-- 2 × log2 of Euler's number, in units of 2^-128. -/
def twoLogE : Nat := 2 * 490923683258796565746369346286093237521

/-- (z − 1) / (z + 1) for z in units of 2^-96, in units of 2^-100. -/
def tanhOf (z : Nat) : Nat := (z - 2 ^ 96) * 2 ^ 100 / (z + 2 ^ 96)

/-- tanh of a positive value: between x − x³/3 + 2x⁵/15 − 17x⁷/315 and the same without its last term below 2^-12, else from the
exponential; 1 bounds it. -/
def tanhTruth (m : Nat) (e : Int) : Truth :=
  if (Nat.log2 m : Int) + e < -12 then
    let y := (splitAt (m * m) (2 * e) (-128) false).lower
    let y2 := y * y / 2 ^ 128
    let up := 2 ^ 128 - y / 3 + 2 * y2 / 15 + 2
    ⟨false, m * (up - 17 * (y2 * y / 2 ^ 128) / 315 - 4), m * min (2 ^ 128) up, e - 128⟩
  else
    let x := min (fixed64 false m e) (30 * 2 ^ 64)
    let v := x * twoLogE / 2 ^ 128
    let lo := exp2Truth v
    let hi := exp2Truth (v + 3)
    let at_ := fun (z : Nat) (k : Int) => tanhOf (z * 2 ^ (k + 96).toNat)
    ⟨false, at_ lo.m lo.e, if 30 * 2 ^ 64 ≤ x then 2 ^ 100 else min (2 ^ 100) (at_ hi.top hi.e + 1), -100⟩

/-- 1/√x of a positive value that is no even power of two. -/
def rsqTruth (m : Nat) (e : Int) : Truth :=
  let m1 := if e % 2 = 0 then m else 2 * m
  let e1 := if e % 2 = 0 then e else e - 1
  let r := isqrt (m1 * 2 ^ 200)
  ⟨false, 2 ^ 300 / (r + 1), 2 ^ 300 / r + 1, -300 - (e1 - 200) / 2⟩

/-- The true value of a function at a finite operand that is not 0 and whose result is not exact (R187). -/
def SFun.truth (g : SFun) (neg : Bool) (m : Nat) (e : Int) : Truth :=
  match g with
  | .rcp => ⟨neg, 2 ^ 100 / m, 2 ^ 100 / m + 1, -100 - e⟩
  | .rsq => rsqTruth m e
  | .exp2 => exp2Truth (max (-400 * 2 ^ 64) (min (400 * 2 ^ 64) (fixed64 neg m e)))
  | .log2 =>
    let v := log2Fixed m e
    if v < 0 then ⟨true, v.natAbs - 2, v.natAbs, -64⟩ else ⟨false, v.natAbs, v.natAbs + 2, -64⟩
  | .tanh => { tanhTruth m e with neg := neg }

/-- The exponent of a unit in the last place of f32 at a true value (R187). -/
def Truth.ulp (t : Truth) : Int := max ((Nat.log2 t.m : Int) + t.e - 23) (-149)

/-- The distance that a result may keep from the true value, as n × 2^q (R187). -/
def SFun.bound (g : SFun) (t : Truth) (near : Bool) : Nat × Int :=
  match g with
  | .rcp => (1, t.ulp)
  | .rsq => (1, t.ulp)
  | .exp2 => (2, t.ulp)
  | .log2 => if near then (1, -22) else (2, t.ulp)
  | .tanh => (2, t.ulp)

/-- Whether a pattern of f32, the infinities taken as ±2^128, lies within a bound of a true value: of both ends of where it lies. -/
def within (t : Truth) (b : Nat × Int) (bits : Nat) : Bool :=
  let c := bits % 2 ^ 31
  let neg := decide (2 ^ 31 ≤ bits)
  let v : Option (Nat × Int) :=
    if c = FFmt.f32.infBits then some (1, 128)
    else match FFmt.f32.decode c with
      | .fin _ m e => some (m, e)
      | _ => none
  match v with
  | none => false
  | some (m, e) =>
    let k := min (min e t.e) b.2
    let far := fun y : Nat => (scaled neg m e k - scaled t.neg y t.e k).natAbs
    decide (far t.m ≤ b.1 * 2 ^ (b.2 - k).toNat ∧ far t.top ≤ b.1 * 2 ^ (b.2 - k).toNat)

/-- Operands whose result is exact (R188), with the result; `none` for every other finite operand that is not 0.  "1 / x normal" is
judged in f32, in which the result is computed (notes/assumptions/27.md). -/
def SFun.exact (g : SFun) (neg : Bool) (m : Nat) (e : Int) : Option (Bool × Nat × Int) :=
  let t := (Nat.log2 m : Int) + e
  let pow := decide (m = 2 ^ Nat.log2 m)
  match g with
  | .rcp => if pow && decide (-126 ≤ -t ∧ -t ≤ 127) then some (neg, 1, -t) else none
  | .rsq => if pow && decide (t % 2 = 0) then some (false, 1, -t / 2) else none
  | .exp2 =>
    let n := splitAt m e 0 false
    let v : Int := if neg then -(n.lower : Int) else n.lower
    if n.rem = 0 ∧ -149 ≤ v ∧ v ≤ 127 then some (false, 1, v) else none
  | .log2 => if pow then some (decide (t < 0), t.natAbs, 0) else none
  | .tanh => none

/-- What a function gives in f32 before the rounding to its type: a NaN, an infinity, a zero, or a finite value that is or
is not one of the exact cases; `over` lies beyond the largest finite value. -/
inductive SVal where
  | nan (nv : Bool)
  | inf (neg dz : Bool)
  | zero (neg : Bool)
  | val (neg : Bool) (m : Nat) (e : Int) (exact : Bool)
  | over (neg : Bool)
  deriving DecidableEq, Repr

/-- A finite nonzero operand (R187, R188): the exact case, or the device's own result where it keeps the bound, else the
correctly rounded one. -/
def SFun.finite (g : SFun) (mode : RMode) (rm bits : Nat) (neg : Bool) (m : Nat) (e : Int) : SVal :=
  match g.exact neg m e with
  | some (n, k, x) => if k = 0 then .zero false else .val n k x true
  | none =>
    let t := g.truth neg m e
    let near := decide (g = .log2) && !(magLt m e 3 (-2)) && !(magLt 3 (-1) m e)
    let r := FFmt.f32.round mode 0 t.neg t.m t.e true
    let c := (Config.approx g.code rm bits).toNat
    let ok := within t (g.bound t near) c && (g != .tanh || decide (c % 2 ^ 31 ≤ 0x3F800000)) &&
      (g = .log2 || decide (2 ^ 31 ≤ c) == t.neg)
    let x := if ok then c else if r.fl.of then (if t.neg then 2 ^ 31 else 0) + FFmt.f32.infBits else r.bits
    if decide (128 ≤ (Nat.log2 t.m : Int) + t.e) || decide (x % 2 ^ 31 = FFmt.f32.infBits) then .over t.neg
    else match FFmt.f32.decode x with
      | .fin n k q => .val n k q false
      | _ => .over t.neg

/-- A function at any operand (R187, R188). -/
def SFun.apply (g : SFun) (mode : RMode) (rm bits : Nat) : SVal :=
  match FFmt.f32.decode bits with
  | .nan s => .nan s
  | .inf neg =>
    match g with
    | .rcp => .zero neg
    | .rsq => if neg then .nan true else .zero false
    | .exp2 => if neg then .zero false else .inf false false
    | .log2 => if neg then .nan true else .inf false false
    | .tanh => .val neg 1 0 true
  | .fin neg m e =>
    if m = 0 then
      match g with
      | .rcp => .inf neg true
      | .rsq => .inf neg true
      | .exp2 => .val false 1 0 true
      | .log2 => .inf true true
      | .tanh => .zero neg
    else if neg && (g = .rsq || g = .log2) then .nan true
    else g.finite mode rm bits neg m e

/-- Whether the bits of a type hold a magnitude below its smallest normal. -/
def FFmt.belowNormal (f : FFmt) (bits : Nat) : Bool := decide (bits % 2 ^ (f.ebits + f.mbits) < 2 ^ f.mbits)

/-- A function's result in its type (R187): the f32 result rounded once to it. -/
def SVal.toType (f : FFmt) (mode : RMode) : SVal → Rounded
  | .nan nv => canonNan f nv
  | .inf neg dz => ⟨f.signed neg f.infBits, if dz then dzFlag else Flags.none⟩
  | .zero neg => ⟨f.signed neg 0, Flags.none⟩
  | .over neg => overflow f mode neg
  | .val neg m e exact =>
    let r : Rounded := if m = 0 then ⟨f.signed neg 0, Flags.none⟩ else f.round mode 0 neg m e false
    if exact then r
    else ⟨r.bits, { r.fl with nx := true, uf := r.fl.uf || f.belowNormal r.bits }⟩

/-- MAJOR 0x75 functions 1 to 5 on an element of a type; bf16 and f16 operands are f32 values (R187). -/
def FFmt.special (f : FFmt) (g : SFun) (mode : RMode) (rm bits : Nat) : Rounded :=
  let x := match f.decode bits with
    | .nan s => if s then 0x7FA00000 else FFmt.f32.nanBits
    | .inf neg => FFmt.f32.signed neg FFmt.f32.infBits
    | .fin neg m e => if m = 0 then FFmt.f32.signed neg 0 else (FFmt.f32.round .rne 0 neg m e false).bits
  (g.apply mode rm x).toType f mode

/-- VFSQRT on an element of a type: the f32 root, correctly rounded, rounded once to the type (R187). -/
def FFmt.root (f : FFmt) (mode : RMode) (bits : Nat) : Rounded :=
  let r := FFmt.f32.sqrt mode (f.decode bits)
  if f = .f32 then r
  else
    match FFmt.f32.decode r.bits with
    | .fin neg m e =>
      if m = 0 then ⟨f.signed neg 0, Flags.none⟩
      else
        let x := f.round mode 0 neg m e false
        ⟨x.bits, { x.fl with nx := x.fl.nx || r.fl.nx, uf := x.fl.uf || (r.fl.nx && f.belowNormal x.bits) }⟩
    | .inf neg => ⟨f.signed neg f.infBits, Flags.none⟩
    | .nan _ => ⟨f.nanBits, r.fl⟩

end Sys2Proof.Machine
end

