-- ==== Sys2Proof/Machine/Lane.lean ====
section
/-! DEFINITION. Lanes: vector, format and exchange instructions (R176 to R200). -/

namespace Sys2Proof.Machine

open Sys2Proof

/-- The 256-bit value of four entries (R176). -/
def vecOf (vs : List LVal) : Nat := vs.foldr (fun v acc => v.v.toNat + 2 ^ 64 * acc) 0

/-- Element `i` at width `w` (R176). -/
def elemAt (v w i : Nat) : Nat := v / 2 ^ (w * i) % 2 ^ w

/-- A value of elements at width `w`. -/
def packElems (w : Nat) (xs : List Nat) : Nat := xs.foldr (fun x acc => x % 2 ^ w + 2 ^ w * acc) 0

/-- Four entries that hold a value, under one label (R178). -/
def vecVals (v : Nat) (l : Label) : List LVal :=
  (List.range 4).map (fun j => ⟨BitVec.ofNat 64 (v / 2 ^ (64 * j)), l⟩)

/-- Width in bits of an element type (R39). -/
def tyWidth : Ty → Nat
  | .i8 => 8 | .z8 => 8 | .e4m3 => 8 | .e5m2 => 8 | .i16 => 16 | .z16 => 16 | .bf16 => 16 | .f16 => 16 | _ => 32

/-- The floating-point format of a type (R121). -/
def tyFmt : Ty → Option FFmt
  | .f32 => some .f32 | .bf16 => some .bf16 | .f16 => some .f16 | .e4m3 => some .e4m3 | .e5m2 => some .e5m2 | _ => none

/-- Whether an integer type is signed (R39). -/
def tySigned : Ty → Bool
  | .i8 => true | .i16 => true | .i32 => true | _ => false

/-- The block format of a type (R132). -/
def tyBlock : Ty → KFmt
  | .kb2 => .kb2 | .kb4 => .kb4 | _ => .kb7

/-- The signed value of an element. -/
def asInt (w x : Nat) : Int := if x < 2 ^ (w - 1) then (x : Int) else (x : Int) - 2 ^ w

def ofInt (w : Nat) (v : Int) : Nat := (v % 2 ^ w).toNat

/-- What a vector name reads: value and highest label. -/
def Core.rdVec (c : Core) (n : Name) : Nat := vecOf (c.rdMany n 4)
def Core.vecLabel (c : Core) (n : Name) (k : Nat) : Label := Label.maxOf ((c.rdMany n k).map LVal.l)

/-- Whether element `i` is active under the mask that MK names (R177). -/
def Core.active (c : Core) (mk i : Nat) : Bool := (c.mask mk).v.getLsbD i

/-- Label of a vector result (R178) whose data have label `l`. -/
def Core.laneLabel (c : Core) (d : Name) (mk k : Nat) (l : Label) : Label :=
  let l1 := if mk = 0 then l else Label.max l (c.mask mk).l
  if (List.range k).all (c.active mk) then l1 else Label.max l1 (c.vecLabel d 4)

/-- A vector result: its value, label and flags. -/
structure VRes where
  v : Nat
  l : Label
  fl : Flags
  deriving DecidableEq, Repr

/-- An element-wise result over `k` elements of width `w`: active elements take `f`, the others keep what they hold and
raise nothing (R177, R178). -/
def Core.lanewise (c : Core) (d : Name) (mk w k : Nat) (l : Label) (f : Nat → Rounded) : VRes :=
  let old := c.rdVec d
  let es := (List.range k).map (fun i => if c.active mk i then f i else ⟨elemAt old w i, Flags.none⟩)
  ⟨packElems w (es.map Rounded.bits), c.laneLabel d mk k l, (es.map Rounded.fl).foldl Flags.or Flags.none⟩

/-- A vector result written at once, and its flags (R142, R180). -/
def Core.putVec (c : Core) (d : Name) (r : VRes) : Core := (c.wrVec d (vecVals r.v r.l)).raise r.fl.bits r.l

/-- The same, landing late (R48, R180). -/
def Core.putVecLate (c : Core) (d : Name) (r : VRes) : Core :=
  c.later ((vecVals r.v r.l).zipIdx.map (fun v => ⟨.entry (c.physOf d + v.2), v.1.v, 0, false, v.1.l⟩)) r.fl.bits r.l 0 false

def vecOut (d : Name) (f : Core → VRes) (s : State) : Res := .done (s.mapCore (fun c => c.putVec d (f c)))
def vecOutLate (d : Name) (f : Core → VRes) (s : State) : Res := .done (s.mapCore (fun c => c.putVecLate d (f c)))

/-- Integer lanes of two operands (R184); `rd` says whether vd is read. -/
def intLanes (t : Ty) (d a b : Name) (mk : Nat) (rd : Bool) (f : Nat → Nat → Nat → Nat → Nat) (s : State) : Res :=
  let w := tyWidth t
  vecOut d (fun c =>
    let l := Label.max (c.vecLabel a 4) (c.vecLabel b 4)
    c.lanewise d mk w (256 / w) (if rd then Label.max l (c.vecLabel d 4) else l)
      (fun i => ⟨f w (elemAt (c.rdVec d) w i) (elemAt (c.rdVec a) w i) (elemAt (c.rdVec b) w i) % 2 ^ w, Flags.none⟩)) s

/-- One source (R184). -/
def intLanes1 (t : Ty) (d a : Name) (mk : Nat) (f : Nat → Nat → Nat) (s : State) : Res :=
  let w := tyWidth t
  vecOut d (fun c =>
    c.lanewise d mk w (256 / w) (c.vecLabel a 4) (fun i => ⟨f w (elemAt (c.rdVec a) w i) % 2 ^ w, Flags.none⟩)) s

/-- Lesser and greater of R184, by the type's sign. -/
def laneMin (sg : Bool) (w x y : Nat) : Nat :=
  if sg then (if asInt w y < asInt w x then y else x) else (if y < x then y else x)
def laneMax (sg : Bool) (w x y : Nat) : Nat :=
  if sg then (if asInt w x < asInt w y then y else x) else (if x < y then y else x)

/-- The implied type of the integer lanes (R40, R184). -/
def i32Of (t : Ty) : Ty := t.orImplied .i32

def execVadd (h : Hd) (d a b : Name) (mk : Nat) (typ : Ty) (s : State) :=
  run (.vadd h d a b mk typ) s (intLanes (i32Of typ) d a b mk false (fun _ _ x y => x + y))
def execVsub (h : Hd) (d a b : Name) (mk : Nat) (typ : Ty) (s : State) :=
  run (.vsub h d a b mk typ) s (intLanes (i32Of typ) d a b mk false (fun w _ x y => x + (2 ^ w - y)))
def execVmul (h : Hd) (d a b : Name) (mk : Nat) (typ : Ty) (s : State) :=
  run (.vmul h d a b mk typ) s (intLanes (i32Of typ) d a b mk false (fun _ _ x y => x * y))
def execVmad (h : Hd) (d a b : Name) (mk : Nat) (typ : Ty) (s : State) :=
  run (.vmad h d a b mk typ) s (intLanes (i32Of typ) d a b mk true (fun _ z x y => z + x * y))
def execVmin (h : Hd) (d a b : Name) (mk : Nat) (typ : Ty) (s : State) :=
  run (.vmin h d a b mk typ) s (intLanes (i32Of typ) d a b mk false (fun w _ x y => laneMin (tySigned (i32Of typ)) w x y))
def execVmax (h : Hd) (d a b : Name) (mk : Nat) (typ : Ty) (s : State) :=
  run (.vmax h d a b mk typ) s (intLanes (i32Of typ) d a b mk false (fun w _ x y => laneMax (tySigned (i32Of typ)) w x y))
def execVand (h : Hd) (d a b : Name) (mk : Nat) (typ : Ty) (s : State) :=
  run (.vand h d a b mk typ) s (intLanes (i32Of typ) d a b mk false (fun _ _ x y => x &&& y))
def execVor (h : Hd) (d a b : Name) (mk : Nat) (typ : Ty) (s : State) :=
  run (.vor h d a b mk typ) s (intLanes (i32Of typ) d a b mk false (fun _ _ x y => x ||| y))
def execVxor (h : Hd) (d a b : Name) (mk : Nat) (typ : Ty) (s : State) :=
  run (.vxor h d a b mk typ) s (intLanes (i32Of typ) d a b mk false (fun _ _ x y => x ^^^ y))
def execVshl (h : Hd) (d a b : Name) (mk : Nat) (typ : Ty) (s : State) :=
  run (.vshl h d a b mk typ) s (intLanes (i32Of typ) d a b mk false (fun w _ x y => x * 2 ^ (y % w)))
def execVshr (h : Hd) (d a b : Name) (mk : Nat) (typ : Ty) (s : State) :=
  run (.vshr h d a b mk typ) s (intLanes (i32Of typ) d a b mk false (fun w _ x y => x / 2 ^ (y % w)))
def execVsar (h : Hd) (d a b : Name) (mk : Nat) (typ : Ty) (s : State) :=
  run (.vsar h d a b mk typ) s (intLanes (i32Of typ) d a b mk false (fun w _ x y => ofInt w (asInt w x / 2 ^ (y % w))))
def execVabs (h : Hd) (d a : Name) (mk : Nat) (typ : Ty) (s : State) :=
  run (.vabs h d a mk typ) s (intLanes1 (i32Of typ) d a mk (fun w x => (asInt w x).natAbs))
def execVneg (h : Hd) (d a : Name) (mk : Nat) (typ : Ty) (s : State) :=
  run (.vneg h d a mk typ) s (intLanes1 (i32Of typ) d a mk (fun w x => 2 ^ w - x))

/-- VLOGT (R185): LOGT on all 256 bit positions. -/
def table3Lane (t w x y z : Nat) : Nat :=
  (List.range w).foldl (fun acc i =>
    acc + (t.testBit (4 * (x.testBit i).toNat + 2 * (y.testBit i).toNat + (z.testBit i).toNat)).toNat * 2 ^ i) 0

def execVlogt (h : Hd) (d a b c : Name) (table : Nat) (mk : Nat) (typ : Ty) (s : State) :=
  run (.vlogt h d a b c table mk typ) s (vecOut d (fun k =>
    let w := tyWidth (i32Of typ)
    k.lanewise d mk w (256 / w) (Label.maxOf [k.vecLabel a 4, k.vecLabel b 4, k.vecLabel c 4])
      (fun i => ⟨table3Lane table w (elemAt (k.rdVec a) w i) (elemAt (k.rdVec b) w i) (elemAt (k.rdVec c) w i), Flags.none⟩)))

/-- An instruction that rounds under st field RM: ILLEGAL when RM is reserved (R61, R182). -/
def withRM (s : State) (body : RMode → Res) : Res :=
  match RMode.ofRM (stRM (s.core.rd .st).v) with
  | some m => body m
  | none => .trap s .illegal (BitVec.ofNat 64 s.core.word)

/-- The format of a float lane instruction (R186). -/
def f32Of (t : Ty) : FFmt := (tyFmt (t.orImplied .f32)).getD .f32

/-- Float lanes of two operands (R186). -/
def floatLanes (g : FFmt) (d a b : Name) (mk : Nat) (rd : Bool) (f : Nat → Nat → Nat → Rounded) (c : Core) : VRes :=
  let w := g.width
  let l := Label.max (c.vecLabel a 4) (c.vecLabel b 4)
  c.lanewise d mk w (256 / w) (if rd then Label.max l (c.vecLabel d 4) else l)
    (fun i => f (elemAt (c.rdVec d) w i) (elemAt (c.rdVec a) w i) (elemAt (c.rdVec b) w i))

/-- One source. -/
def floatLanes1 (g : FFmt) (d a : Name) (mk : Nat) (f : Nat → Rounded) (c : Core) : VRes :=
  let w := g.width
  c.lanewise d mk w (256 / w) (c.vecLabel a 4) (fun i => f (elemAt (c.rdVec a) w i))

def execVfadd (h : Hd) (d a b : Name) (mk : Nat) (typ : Ty) (s : State) :=
  run (.vfadd h d a b mk typ) s (fun s => withRM s (fun m => vecOut d (floatLanes (f32Of typ) d a b mk false
    (fun _ x y => (f32Of typ).add m ((f32Of typ).decode x) ((f32Of typ).decode y))) s))
def execVfsub (h : Hd) (d a b : Name) (mk : Nat) (typ : Ty) (s : State) :=
  run (.vfsub h d a b mk typ) s (fun s => withRM s (fun m => vecOut d (floatLanes (f32Of typ) d a b mk false
    (fun _ x y => (f32Of typ).add m ((f32Of typ).decode x) ((f32Of typ).decode y).neg)) s))
def execVfmul (h : Hd) (d a b : Name) (mk : Nat) (typ : Ty) (s : State) :=
  run (.vfmul h d a b mk typ) s (fun s => withRM s (fun m => vecOut d (floatLanes (f32Of typ) d a b mk false
    (fun _ x y => (f32Of typ).mul m ((f32Of typ).decode x) ((f32Of typ).decode y))) s))
def execVfma (h : Hd) (d a b : Name) (mk : Nat) (typ : Ty) (s : State) :=
  run (.vfma h d a b mk typ) s (fun s => withRM s (fun m => vecOut d (floatLanes (f32Of typ) d a b mk true
    (fun z x y => (f32Of typ).fma m false ((f32Of typ).decode z) ((f32Of typ).decode x) ((f32Of typ).decode y))) s))
def execVfnma (h : Hd) (d a b : Name) (mk : Nat) (typ : Ty) (s : State) :=
  run (.vfnma h d a b mk typ) s (fun s => withRM s (fun m => vecOut d (floatLanes (f32Of typ) d a b mk true
    (fun z x y => (f32Of typ).fma m true ((f32Of typ).decode z) ((f32Of typ).decode x) ((f32Of typ).decode y))) s))
def execVfmin (h : Hd) (d a b : Name) (mk : Nat) (typ : Ty) (s : State) :=
  run (.vfmin h d a b mk typ) s (vecOut d (floatLanes (f32Of typ) d a b mk false
    (fun _ x y => (f32Of typ).minmax false x y)))
def execVfmax (h : Hd) (d a b : Name) (mk : Nat) (typ : Ty) (s : State) :=
  run (.vfmax h d a b mk typ) s (vecOut d (floatLanes (f32Of typ) d a b mk false
    (fun _ x y => (f32Of typ).minmax true x y)))
def execVfdiv (h : Hd) (d a b : Name) (mk : Nat) (typ : Ty) (s : State) :=
  run (.vfdiv h d a b mk typ) s (fun s => withRM s (fun m => vecOutLate d (floatLanes (f32Of typ) d a b mk false
    (fun _ x y => (f32Of typ).div m ((f32Of typ).decode x) ((f32Of typ).decode y))) s))

def execVfsqrt (h : Hd) (d a : Name) (mk : Nat) (typ : Ty) (s : State) :=
  run (.vfsqrt h d a mk typ) s (fun s => withRM s (fun m =>
    vecOutLate d (floatLanes1 (f32Of typ) d a mk ((f32Of typ).root m)) s))

/-- VFRCP to VFTANH (R187, R188). -/
def special (g : SFun) (d a : Name) (mk : Nat) (typ : Ty) (s : State) : Res :=
  withRM s (fun m =>
    vecOutLate d (floatLanes1 (f32Of typ) d a mk ((f32Of typ).special g m (stRM (s.core.rd .st).v))) s)

def execVfrcp (h : Hd) (d a : Name) (mk : Nat) (typ : Ty) (s : State) := run (.vfrcp h d a mk typ) s (special .rcp d a mk typ)
def execVfrsq (h : Hd) (d a : Name) (mk : Nat) (typ : Ty) (s : State) := run (.vfrsq h d a mk typ) s (special .rsq d a mk typ)
def execVfexp2 (h : Hd) (d a : Name) (mk : Nat) (typ : Ty) (s : State) := run (.vfexp2 h d a mk typ) s (special .exp2 d a mk typ)
def execVflog2 (h : Hd) (d a : Name) (mk : Nat) (typ : Ty) (s : State) := run (.vflog2 h d a mk typ) s (special .log2 d a mk typ)
def execVftanh (h : Hd) (d a : Name) (mk : Nat) (typ : Ty) (s : State) := run (.vftanh h d a mk typ) s (special .tanh d a mk typ)

/-- The order of two elements, when neither is a NaN: less, equal (−0 equals +0), greater (R189). -/
def FVal.order (x y : FVal) : Ordering :=
  match x, y with
  | .fin _ 0 _, .fin _ 0 _ => .eq
  | _, _ => if x.below y then .lt else if y.below x then .gt else .eq

/-- A condition of R189 under an order, or when a NaN leaves none. -/
def ccHolds (cc : Nat) (o : Option Ordering) : Bool :=
  match o with
  | none => decide (cc = 1 ∨ cc = 6)
  | some o =>
    match cc with
    | 0 => o == .eq
    | 1 => o != .eq
    | 2 => o == .lt
    | 3 => o != .gt
    | 4 => o == .gt
    | 5 => o != .lt
    | 6 => false
    | _ => true

/-- One element's comparison and whether it raises NV (R189). -/
def cmpElem (t : Ty) (cc x y : Nat) : Bool × Bool :=
  match tyFmt t with
  | some f =>
    let u := f.decode x
    let v := f.decode y
    if u.isNan || v.isNan then
      (ccHolds cc none, u.isSnan || v.isSnan || decide (2 ≤ cc ∧ cc ≤ 5))
    else (ccHolds cc (some (u.order v)), false)
  | none =>
    let w := tyWidth t
    (ccHolds cc (some (if tySigned t then compare (asInt w x) (asInt w y) else compare x y)), false)

/-- VCMP (R189). -/
def execVcmp (h : Hd) (d a b : Name) (cc : Nat) (mk : Nat) (typ : Ty) (s : State) :=
  run (.vcmp h d a b cc mk typ) s (fun s =>
    let c := s.core
    let t := typ.orImplied .f32
    let w := tyWidth t
    let rs := (List.range (256 / w)).map (fun i =>
      if c.active mk i then cmpElem t cc (elemAt (c.rdVec a) w i) (elemAt (c.rdVec b) w i) else (false, false))
    let bits := rs.foldr (fun r acc => r.1.toNat + 2 * acc) 0
    let l0 := Label.max (c.vecLabel a 4) (c.vecLabel b 4)
    let l1 := if mk = 0 then l0 else Label.max l0 (c.mask mk).l
    let fl := if rs.any (fun r => r.2) then nvFlag else Flags.none
    .done (s.mapCore (fun c => (c.wr d ⟨BitVec.ofNat 64 bits, l1⟩).raise fl.bits l1)))

/-- VSEL (R190): every element is written; R178 gives the label, to which vb adds its own with MK 0 too (notes/assumptions/115.md). -/
def execVsel (h : Hd) (d a b : Name) (mk : Nat) (typ : Ty) (s : State) :=
  run (.vsel h d a b mk typ) s (vecOut d (fun c =>
    let w := tyWidth (i32Of typ)
    let es := (List.range (256 / w)).map (fun i => elemAt (if c.active mk i then c.rdVec a else c.rdVec b) w i)
    ⟨packElems w es, c.laneLabel d mk (256 / w) (Label.max (c.vecLabel a 4) (c.vecLabel b 4)), Flags.none⟩))

/-- VBCAST (R190). -/
def execVbcast (h : Hd) (d a : Name) (mk : Nat) (typ : Ty) (s : State) :=
  run (.vbcast h d a mk typ) s (vecOut d (fun c =>
    let w := tyWidth (i32Of typ)
    c.lanewise d mk w (256 / w) (c.rd a).l (fun _ => ⟨(c.rd a).v.toNat % 2 ^ w, Flags.none⟩)))

/-- VEXT (R191). -/
def execVext (h : Hd) (d a b : Name) (typ : Ty) (s : State) :=
  run (.vext h d a b typ) s (fun s =>
    let c := s.core
    let t := i32Of typ
    let w := tyWidth t
    let j := (c.rd b).v.toNat
    let x := elemAt (c.rdVec a) w j
    let v : Word := if 256 / w ≤ j then 0 else if tySigned t then BitVec.ofInt 64 (asInt w x) else BitVec.ofNat 64 x
    .done (s.mapCore (fun c => c.wr d ⟨v, Label.max (c.vecLabel a 4) (c.rd b).l⟩)))

/-- VINS (R191). -/
def execVins (h : Hd) (d a b : Name) (typ : Ty) (s : State) :=
  run (.vins h d a b typ) s (vecOut d (fun c =>
    let w := tyWidth (i32Of typ)
    let j := (c.rd b).v.toNat
    let es := (List.range (256 / w)).map (fun i => if i = j then (c.rd a).v.toNat else elemAt (c.rdVec d) w i)
    ⟨packElems w es, Label.maxOf [c.vecLabel d 4, (c.rd a).l, (c.rd b).l], Flags.none⟩))

/-- VPERM (R192). -/
def execVperm (h : Hd) (d a b : Name) (mk : Nat) (typ : Ty) (s : State) :=
  run (.vperm h d a b mk typ) s (vecOut d (fun c =>
    let w := tyWidth (i32Of typ)
    c.lanewise d mk w (256 / w) (Label.max (c.vecLabel a 4) (c.vecLabel b 4)) (fun i =>
      let j := elemAt (c.rdVec b) w i
      ⟨if j < 256 / w then elemAt (c.rdVec a) w j else 0, Flags.none⟩)))

/-- One level of the pairwise tree (R140). -/
def pairUp {α : Type} (f : α → α → α) : List α → List α
  | x :: y :: rest => f x y :: pairUp f rest
  | xs => xs

/-- The tree over 2^n leaves. -/
def treeOf {α : Type} (f : α → α → α) : Nat → List α → List α
  | 0, xs => xs
  | n + 1, xs => treeOf f n (pairUp f xs)

/-- Two nodes of the tree, of which the mask may have turned either off (R140). -/
def mergeNodes (f : Rounded → Rounded → Rounded) (x y : Option Rounded) : Option Rounded :=
  match x, y with
  | some a, some b => some ⟨(f a b).bits, (a.fl.or b.fl).or (f a b).fl⟩
  | some a, none => some a
  | none, y => y

/-- How two elements are combined (R140, R193). -/
def redOp (t : Ty) (op : Nat) (m : RMode) (a b : Rounded) : Rounded :=
  match tyFmt t with
  | some f =>
    if op = 0 then f.add m (f.decode a.bits) (f.decode b.bits) else f.minmax (decide (op = 2)) a.bits b.bits
  | none =>
    let w := tyWidth t
    ⟨if op = 0 then (a.bits + b.bits) % 2 ^ w
      else if op = 1 then laneMin (tySigned t) w a.bits b.bits else laneMax (tySigned t) w a.bits b.bits, Flags.none⟩

/-- The result when every element is turned off for a minimum or maximum (R140). -/
def redEmpty (t : Ty) (op : Nat) : Nat :=
  let w := tyWidth t
  match tyFmt t with
  | some f => f.nanBits
  | none =>
    if op = 1 then (if tySigned t then 2 ^ (w - 1) - 1 else 2 ^ w - 1) else (if tySigned t then 2 ^ (w - 1) else 0)

/-- An element as a leaf of the tree: a NaN of a minimum or maximum is the canonical one (R122, R124). -/
def redLeaf (t : Ty) (op bits : Nat) : Rounded :=
  match tyFmt t with
  | some f => if op ≠ 0 ∧ (f.decode bits).isNan then canonNan f (f.decode bits).isSnan else ⟨bits, Flags.none⟩
  | none => ⟨bits, Flags.none⟩

/-- VRED's result (R140, R193). -/
def Core.reduce (c : Core) (t : Ty) (op mk : Nat) (m : RMode) (a : Name) : Rounded :=
  let w := tyWidth t
  let leaves := (List.range (256 / w)).map (fun i =>
    if c.active mk i then some (redLeaf t op (elemAt (c.rdVec a) w i))
    else if op = 0 then some ⟨0, Flags.none⟩ else none)
  match (treeOf (mergeNodes (redOp t op m)) 5 leaves).head? with
  | some (some r) => r
  | _ => ⟨redEmpty t op, Flags.none⟩

/-- VRED (R193); only a float sum rounds under RM. -/
def execVred (h : Hd) (d a : Name) (op : Nat) (mk : Nat) (typ : Ty) (s : State) :=
  run (.vred h d a op mk typ) s (fun s =>
    let t := typ.orImplied .f32
    let go := fun m : RMode =>
      let c := s.core
      let r := c.reduce t op mk m a
      let w := tyWidth t
      let v : Word := if tySigned t then BitVec.ofInt 64 (asInt w r.bits) else BitVec.ofNat 64 r.bits
      let l := if mk = 0 then c.vecLabel a 4 else Label.max (c.vecLabel a 4) (c.mask mk).l
      Res.done (s.mapCore (fun c => c.later (c.latePlace d ⟨v, l⟩) r.fl.bits l 0 false))
    if op = 0 ∧ (tyFmt t).isSome then withRM s go else go .rne)

/-- The new seed after an instruction's draws, written when it issues (R131). -/
def Core.putSeed (c : Core) (seed : BitVec 32) : Core :=
  c.wrTgt (.stAt c.lo) ⟨stWithSeed (c.rd .st).v seed, (c.rd .st).l⟩

/-- A float converted to an integer type (R128). -/
def toIntElem (w : Nat) (sg : Bool) (m : RMode) (r : Nat) (x : FVal) : Rounded :=
  let lo : Int := if sg then -(2 ^ (w - 1)) else 0
  let hi : Int := if sg then 2 ^ (w - 1) - 1 else 2 ^ w - 1
  match x with
  | .nan _ => ⟨0, nvFlag⟩
  | .inf neg => ⟨ofInt w (if neg then lo else hi), nvFlag⟩
  | .fin neg k e =>
    let v := roundToInt m r neg k e
    if v.1 < lo then ⟨ofInt w lo, nvFlag⟩
    else if hi < v.1 then ⟨ofInt w hi, nvFlag⟩
    else ⟨ofInt w v.1, if v.2 then nxFlag else Flags.none⟩

/-- A float converted to a float (R122, R125 to R127). -/
def toFloatElem (f : FFmt) (m : RMode) (r : Nat) (x : FVal) : Rounded :=
  match x with
  | .nan s => canonNan f s
  | .inf neg =>
    if f = .e4m3 then canonNan f true
    else ⟨f.signed neg f.infBits, Flags.none⟩
  | .fin neg k e => if k = 0 then ⟨f.signed neg 0, Flags.none⟩ else f.round m r neg k e false

/-- An integer saturated to an integer type (R194). -/
def satInt (w : Nat) (sg : Bool) (v : Int) : Nat :=
  let lo : Int := if sg then -(2 ^ (w - 1)) else 0
  let hi : Int := if sg then 2 ^ (w - 1) - 1 else 2 ^ w - 1
  ofInt w (max lo (min hi v))

/-- One element converted (R194). -/
def cvtElem (dt st : Ty) (m : RMode) (r x : Nat) : Rounded :=
  let ws := tyWidth st
  let iv : Int := if tySigned st then asInt ws x else x
  match tyFmt dt, tyFmt st with
  | some f, some g => toFloatElem f m r (g.decode x)
  | some f, none => f.roundInt m r iv 0 false
  | none, some g => toIntElem (tyWidth dt) (tySigned dt) m r (g.decode x)
  | none, none => ⟨satInt (tyWidth dt) (tySigned dt) iv, Flags.none⟩

/-- Whether every value of `st` is representable in `dt`, so that nothing is rounded (R194). -/
def representable (dt st : Ty) : Bool :=
  match tyFmt dt, tyFmt st with
  | some f, some g =>
    decide (f = g) || (decide (f = .f32)) || (decide (g = .e4m3) && decide (f ≠ .e5m2)) || (decide (g = .e5m2) && decide (f ≠ .e4m3))
  | some f, none =>
    decide ((if tySigned st then tyWidth st - 1 else tyWidth st) ≤ f.mbits + 1)
  | none, some _ => false
  | none, none => true

/-- The mode of a VCVT (R129, R194). -/
def cvtMode (rm : Nat) (st : Word) : Option RMode :=
  match rm with
  | 0 => if stSR st then some .sr else RMode.ofRM (stRM st)
  | 1 => some .rne
  | 2 => some .rtz
  | 3 => some .rdn
  | 4 => some .rup
  | _ => some .sr

/-- Draws for the active ones of `k` elements, in order, and the seed after them (R131). -/
def laneDraws (active : Nat → Bool) (seed : BitVec 32) (k : Nat) : List Nat × BitVec 32 :=
  (List.range k).foldl (fun acc i =>
    if active i then (acc.1 ++ [(draw acc.2).toNat], draw acc.2) else (acc.1 ++ [0], acc.2)) ([], seed)

/-- VCVT (R194); its label joins every entry of the source (R178, notes/assumptions/115.md). -/
def execVcvt (h : Hd) (d a : Name) (st : Nat) (rm : Nat) (mk : Nat) (typ : Ty) (s : State) :=
  run (.vcvt h d a st rm mk typ) s (fun s =>
    let src := Ty.ofCode st
    let ws := tyWidth src
    let wd := tyWidth typ
    let n := 256 / max ws wd
    let mode := if representable typ src then some RMode.rne else cvtMode rm (s.core.rd .st).v
    match mode with
    | none => .trap s .illegal (BitVec.ofNat 64 s.core.word)
    | some m =>
      let c := s.core
      let ds := if m = .sr then laneDraws (c.active mk) (stSeed (c.rd .st).v) n else ([], stSeed (c.rd .st).v)
      let r := c.lanewise d mk wd n (c.vecLabel a 4)
        (fun i => cvtElem typ src m (ds.1.getD i 0) (elemAt (c.rdVec a) ws i))
      .done (s.mapCore (fun c => (if m = .sr then c.putSeed ds.2 else c).putVecLate d r)))

/-- The mode of a block quantisation, and the draws it takes (R129, R131). -/
def Core.blockMode (c : Core) : RMode := if stSR (c.rd .st).v then .sr else .rne

/-- A quantised block with the core's draws: the result and the core after them. -/
def Core.quantiseBlock (c : Core) (k : KFmt) (xs : List QIn) : Rounded × Core :=
  if c.blockMode = .sr then
    let ds := draws (stSeed (c.rd .st).v) 16
    (quantise k .sr ds.1 xs, c.putSeed ds.2)
  else (quantise k .rne [] xs, c)

/-- VQUANT (R195). -/
def execVquant (h : Hd) (d a : Name) (typ : Ty) (s : State) :=
  run (.vquant h d a typ) s (fun s =>
    let c := s.core
    if c.top ≤ c.physOf a + 7 then .trap s .lenslimit (nameVal a + 4)
    else
      let v := vecOf (c.rdMany a 8)
      let r := c.quantiseBlock (tyBlock typ) ((List.range 16).map (fun i => QIn.ofF (FFmt.f32.decode (elemAt v 32 i))))
      .done (s.mapCore (fun _ => r.2.putVec d ⟨r.1.bits, c.vecLabel a 8, r.1.fl⟩)))

/-- The block in a vector. -/
def blockOf (k : KFmt) (v : Nat) : Nat := v % 256 ^ k.bytes

/-- VDEQ (R196).  Every entry that the source names counts as read, also beyond the block (R178, notes/assumptions/115.md). -/
def execVdeq (h : Hd) (d a : Name) (typ : Ty) (s : State) :=
  run (.vdeq h d a typ) s (fun s =>
    let c := s.core
    if c.top ≤ c.physOf d + 7 then .trap s .lenslimit (nameVal d + 4)
    else
      let xs := ((tyBlock typ).values (blockOf (tyBlock typ) (c.rdVec a))).map (fun x => (dequant .f32 .rne x).bits)
      let l := c.vecLabel a 4
      .done (s.mapCore (fun c =>
        c.wrEnts (c.physOf d) (vecVals (packElems 32 (xs.take 8)) l ++ vecVals (packElems 32 (xs.drop 8)) l))))

/-- VBADDQ (R141, R200). -/
def execVbaddq (h : Hd) (d a b : Name) (typ : Ty) (s : State) :=
  run (.vbaddq h d a b typ) s (fun s =>
    let c := s.core
    let k := tyBlock typ
    let sums := List.zipWith QIn.add (k.values (blockOf k (c.rdVec a))) (k.values (blockOf k (c.rdVec b)))
    let r := c.quantiseBlock k sums
    .done (s.mapCore (fun _ => (r.2.putVecLate d ⟨r.1.bits, Label.max (c.vecLabel a 4) (c.vecLabel b 4), r.1.fl⟩).joinPlaces r.2.nextId)))

/-- The other members of a core's exchange group (R197). -/
def State.exchangeGroup (s : State) (p : Nat) : List Nat :=
  if isGateway p then []
  else
    let x := s.partOf (s.coreAt p)
    ((List.range 4).map (fun i => p / 4 * 4 + i)).filter
      (fun q => decide (q ≠ p) && decide (x.base ≤ s.indexOf q ∧ s.indexOf q < x.base + x.len))

/-- The greatest of contributions in one lane (R197). -/
def xmaxLane (f32 : Bool) (vs : List Nat) (i : Nat) : Rounded :=
  let xs := vs.map (fun v => elemAt v 32 i)
  if f32 then
    let ds := xs.map FFmt.f32.decode
    if ds.any FVal.isNan then canonNan .f32 (ds.any FVal.isSnan)
    else ⟨xs.foldl (fun acc x => max acc (x % 2 ^ 31)) 0, Flags.none⟩
  else ⟨xs.foldl max 0, Flags.none⟩

/-- Vector results laid into the places of a pending write. -/
def Pending.fillVec (r : VRes) (p : Pending) : Pending :=
  { p with
    writes := p.writes.zipIdx.map (fun w => { w.1 with lo := BitVec.ofNat 64 (r.v / 2 ^ (64 * w.2)), lab := r.l })
    flags := r.fl.bits
    flagsLab := r.l
    xmax := false }

/-- An XMAX gets its result (R197, R198), which a mirror core's interval keeps. -/
def Core.xmaxResult (c : Core) (w : XWait) (r : VRes) : Core :=
  let fill := fun p : Pending => if p.id = w.id then p.fillVec r else p
  { c with
    pending := c.pending.map fill
    interval := c.interval.map (fun v => { v with done := v.done.map fill })
    xbuf := c.xbuf.filter (fun x => decide (x.count ≠ w.count)) }

/-- A core's XMAX has every contribution it needs, or is as it was (R197). -/
def Core.xmaxTry (c : Core) : Core :=
  match c.xwait with
  | none => c
  | some w =>
    let mine := c.xbuf.filter (fun x => decide (x.count = w.count) && w.need.contains x.src)
    if c.pending.any (fun p => decide (p.id = w.id) && p.xmax) && w.need.all (fun q => mine.any (fun x => decide (x.src = q))) then
      let vs := vecOf (w.words.map (fun x => ⟨x, 0⟩)) :: mine.map (fun x => vecOf (x.words.map (fun y => ⟨y, 0⟩)))
      let es := (List.range 8).map (xmaxLane w.f32 vs)
      c.xmaxResult w ⟨packElems 32 (es.map Rounded.bits), Label.maxOf (w.lab :: mine.map XContrib.lab),
        (es.map Rounded.fl).foldl Flags.or Flags.none⟩
    else c

/-- An XMAX lands incomplete (R198). -/
def Core.xmaxIncomplete (c : Core) : Core :=
  match c.xwait with
  | none => c
  | some w =>
    let e := if w.f32 then FFmt.f32.nanBits else 0xFFFFFFFF
    c.xmaxResult w ⟨packElems 32 (List.replicate 8 e),
      Label.maxOf (w.lab :: (c.xbuf.filter (fun x => decide (x.count = w.count))).map XContrib.lab),
      if w.f32 then nvFlag else Flags.none⟩

/-- A contribution arrives (R197): held when its count is expected or the next, in its neighbour's slot for that count, else
discarded. -/
def Core.takeContribution (x : XContrib) (c : Core) : Core :=
  let want := match c.xwait with
    | some w => w.count
    | none => c.xc
  if x.count = want ∨ x.count = (want + 1) % 2 ^ 16 then
    ({ c with xbuf := c.xbuf.filter (fun y : XContrib => decide (y.src ≠ x.src ∨ y.count ≠ x.count)) ++ [x] }).xmaxTry
  else c

/-- Whether a contribution cannot arrive now: its core does not hold the partition's context, or is evicted, and the exchange buffer
with it (R197, R436). -/
def State.xwaits (s : State) (f : XFlight) : Bool := s.unreachable f.part f.dst

/-- A contribution sent (R197): it arrives at once unless arrivals wait for their events. -/
def State.sendContribution (s : State) (f : XFlight) : State :=
  if s.hold || s.xwaits f then { s with xflights := s.xflights ++ [f] } else s.onCore f.dst (Core.takeContribution f.x)

/-- An XMAX that a rolled-back interval had completed: its result is taken, its exchange is not made again (R292, R322). -/
def Core.xmaxReplay (c : Core) : Option Core :=
  match c.replay with
  | [] => none
  | g :: rest => some { ({ c with replay := rest }).adopt g with xc := (c.xc + 1) % 2 ^ 16 }

/-- XMAX (R197, R199). -/
def execXmax (h : Hd) (d a : Name) (typ : Ty) (s : State) :=
  run (.xmax h d a typ) s (fun s => guarded (s.illegalIf (isGateway s.core.phys)) s (fun s =>
    let c := s.core
    if c.xwait.isSome then .wait s
    else match c.xmaxReplay with
    | some c1 => .done { s with core := c1 }
    | none =>
      let need := s.exchangeGroup c.phys
      let vs := c.rdMany a 4
      let lab := c.vecLabel a 4
      let c1 := c.later (c.lateVec d) 0 lab 0 false
      let mark := fun p : Pending => if p.id = c.nextId then { p with xmax := true } else p
      let c2 : Core := { c1 with
        pending := c1.pending.map mark
        xwait := some ⟨c.nextId, c.xc, need, decide (typ ≠ .z32), c.physOf d, vs.map LVal.v, lab⟩
        xc := (c.xc + 1) % 2 ^ 16 }
      let kept := c2.pending.filter (fun p => decide (p.id = c.nextId))
      let c3 := if c2.interval.isSome then kept.foldl (fun c p => c.recordDone p) c2 else c2
      let s1 := { s with core := c3.xmaxTry }
      .done (need.foldl (fun t q => t.sendContribution ⟨q, ⟨c.phys, c.xc, vs.map LVal.v, lab⟩, c.part⟩) s1)))

/-- XMAX_CONTRIBUTION_ARRIVE (R197): the oldest one on its way from `src` to `p`. -/
def execXmaxContributionArrive (p src : Nat) (s : State) : Host.Outcome State Fault Refusal :=
  coreEvent p s (fun s =>
    match takeFirst (fun f : XFlight => decide (f.dst = p ∧ f.x.src = src)) s.xflights with
    | none => s
    | some (f, rest) => if s.xwaits f then s else State.mapCore { s with xflights := rest } (Core.takeContribution f.x))

/-- Every contribution that can arrive. -/
def State.xflightsGoOn (s : State) : State :=
  (s.xflights.filter (fun f => !s.xwaits f)).foldl (fun u f => u.onCore f.dst (Core.takeContribution f.x))
    { s with xflights := s.xflights.filter s.xwaits }

/-- The contributions on their way to cores that are saved are in their exchange buffers (R197, R281). -/
def State.landContributions (s : State) (part : Nat) (ps : List Nat) : State :=
  let mine := fun f : XFlight => ps.contains f.dst && decide (f.part = part)
  (s.xflights.filter mine).foldl (fun u f => u.onCore f.dst (Core.takeContribution f.x))
    { s with xflights := s.xflights.filter (fun f => !mine f) }

/-- Whether a contribution that an XMAX needs can no longer come (R198): its core is killed, or has left the partition. -/
def State.missing (s : State) (c : Core) (w : XWait) : Bool :=
  w.need.any (fun q => decide ((s.coreAt q).cstate = .killed) || !(s.exchangeGroup c.phys).contains q)

/-- XMAX_TIMEOUT (R198): a trap is to be delivered and waits, or a contribution counts as missing. -/
def execXmaxTimeout (p : Nat) (s : State) : Host.Outcome State Fault Refusal :=
  coreEvent p s (fun s =>
    match s.core.xwait with
    | none => s
    | some w =>
      if (s.core.trapDue.isSome || s.core.dueCause.isSome || s.missing s.core w) &&
          s.core.pending.any (fun p => decide (p.id = w.id) && p.xmax) then s.mapCore Core.xmaxIncomplete
      else s)

end Sys2Proof.Machine
end

