-- ==== Sys2Proof/Machine/Cards.lean ====
section
/-! DEFINITION. Job cards: the window of a tile, footprints and edges, status words, ends and arrivals (R236, R254 to R265,
R269, R271, R277). -/

namespace Sys2Proof.Machine

open Sys2Proof

def State.cardAt (s : State) (t e : Nat) : Option Card := (s.tileAt t).cards.listed e
def State.setCard (s : State) (t e : Nat) (k : Card) : State := s.onTile t (fun x => { x with cards := x.cards.list e k })

/-- State codes of a card (R256). -/
def CardSt.code : CardSt → Nat
  | .waiting => 1 | .running => 2 | .faulted => 3 | .ended => 4 | .held => 5

/-- Statuses that are no trap code (R238, R264). -/
def stNoweights : Nat := 0x40
def stBaddesc : Nat := 0x41
def stNoslot : Nat := 0x42
def stTermfault : Nat := 0x43
def stPartial : Nat := 0x44
def stCancelled : Nat := 0x45
def stHostreset : Nat := 0x46
def stGone : Nat := 0x47

/-- The status word of a card (R263), and the one of a handle whose card has gone (R264). -/
def Card.word (k : Card) : Word :=
  BitVec.ofNat 64 (k.status + k.flags.toNat * 2 ^ 8 + k.state.code * 2 ^ 13 + k.dmask * 2 ^ 16 + k.offset % 2 ^ 32 * 2 ^ 32)
def goneWord : Word := BitVec.ofNat 64 (stGone + 4 * 2 ^ 13)

/-- The handle of a card (R255), and its card id (R420). -/
def Card.handle (k : Card) (e : Nat) : Nat := k.seq * 256 + e
def Card.id (k : Card) (t e : Nat) : Nat := k.handle e + t * 2 ^ 32

/-- The entry and card that a handle names, compared as a whole word (R275, notes/assumptions/118.md). -/
def Tile.byHandle (x : Tile) (v : Word) : Option (Nat × Card) :=
  let e := v.toNat % 32
  match x.cards.listed e with
  | some k => if v = BitVec.ofNat 64 (k.handle e) then some (e, k) else none
  | none => none

/-- Whether a card entered before another one (R255). -/
def Card.before (a b : Card) : Bool :=
  let d := (b.seq + 2 ^ 24 - a.seq) % 2 ^ 24
  decide (0 < d ∧ d < 2 ^ 23)

/-- Whether two regions meet (R260, R261). -/
def Region.meets (a b : Region) : Bool :=
  match a, b with
  | .store p o n, .store q x m => decide (p = q) && Machine.meets o n x m
  | .virt o n, .virt x m => Machine.meets o n x m
  | .plane m j, .plane k l => decide (m = k ∧ j = l)
  | .rows m r n, .rows k x y => decide (m = k) && Machine.meets r n x y
  | _, _ => false

def anyMeet (xs ys : List Region) : Bool := xs.any (fun a => ys.any a.meets)

/-- Whether a new card has an edge to an earlier one (R260). -/
def Card.edge (new old : Card) : Bool :=
  anyMeet new.reads old.writes || anyMeet new.writes old.reads || anyMeet new.writes old.writes

/-- The core whose windows a card's local addresses go through: its issuing core, in the partition it issued in. -/
def State.cardCore (s : State) (k : Card) : Core := { s.coreAt k.core with part := k.part }

/-- The region of `n` bytes at an address (R258); an address that is neither local nor virtual has none. -/
def State.region (s : State) (c : Core) (x : Word) (n : Nat) : List Region :=
  if x.toNat < 2 ^ 47 then [.virt x.toNat n]
  else
    match s.reach c x 1 with
    | some (p, off) => [.store p off n]
    | none => []

/-- The copy descriptor (R269). -/
structure Shape where
  rnd : Nat
  styp : Nat
  ds : Nat
  ss : Nat
  rows : Nat
  rb : Nat
  deriving DecidableEq, Repr

def shapeOf (w : Word) : Shape where
  rnd := (w.extractLsb' 61 3).toNat
  styp := (w.extractLsb' 56 5).toNat
  ds := 16 * (w.extractLsb' 43 13).toNat
  ss := 16 * (w.extractLsb' 30 13).toNat
  rows := (w.extractLsb' 20 10).toNat + 1
  rb := (w.extractLsb' 0 20).toNat + 1

/-- Bytes of a range of rows, from first to last byte (R259). -/
def spanOf (rows stride n : Nat) : Nat := (rows - 1) * stride + n

/-- Bytes of a group of 16 elements of a type (R274). -/
def groupBytes (t : Ty) : Nat :=
  match t with
  | .kb2 => KFmt.kb2.bytes
  | .kb4 => KFmt.kb4.bytes
  | .kb7 => KFmt.kb7.bytes
  | t => 16 * (tyWidth t / 8)

def isBlock (t : Ty) : Bool := decide (t = .kb2 ∨ t = .kb4 ∨ t = .kb7)

/-- The bytes that a row of `rb` source bytes becomes (R274): the last group may be short. -/
def convRow (dt st : Ty) (rb : Nat) : Nat :=
  if isBlock dt ∨ isBlock st then rb / groupBytes st * groupBytes dt else rb / (tyWidth st / 8) * (tyWidth dt / 8)

/-- A fresh card, WAITING. -/
def Card.fresh (kind : CardKind) (c : Core) (tb : Nat) (scope : Nat) (dst src : Cap) (desc : Word) (typ : Ty) : Card where
  kind := kind
  seq := 0
  core := c.phys
  part := c.part
  owner := c.lo
  slot := if tb / 64 % 2 = 1 then some (tb % 64) else none
  scope := scope
  dst := dst
  src := src
  desc := desc
  typ := typ
  mask := 0
  bound := 0
  sampled := (c.rd .st).v
  plane0 := 0
  plane1 := 0
  reads := []
  writes := []
  preds := []
  after := (c.unacked.filter (fun u => !u.msg)).map Unacked.id
  state := .waiting
  begun := false
  status := 0
  flags := 0
  dmask := 0
  offset := 0
  cancel := false
  doomed := false
  stale := false
  due := none
  miss := none
  failed := []
  ending := none
  timed := false
  starve := 0

/-- The lowest-numbered entry that is FREE or ENDED (R255). -/
def Tile.freeEntry (x : Tile) : Option Nat :=
  (List.range 32).find? (fun e => match x.cards.listed e with
    | some k => decide (k.state = .ended)
    | none => true)

/-- A card enters an entry of a tile's window with its edges (R255, R260). -/
def State.enterCard (s : State) (t e : Nat) (k : Card) : State :=
  s.onTile t (fun x =>
    let earlier := x.cards.filter (fun j => decide (j.1 ≠ e) && decide (j.2.state ≠ .ended) && k.edge j.2)
    { x with cards := x.cards.list e { k with seq := x.seq, preds := earlier.map (fun j => j.1) }, seq := (x.seq + 1) % 2 ^ 24 })

def noArrivals : TSlot := ⟨0, 0, false⟩

/-- A transfer barrier slot after one more arrival (R265). -/
def TSlot.arrive (v : TSlot) (status scope : Nat) : TSlot :=
  ⟨min 65535 (v.count + 1), if v.sticky = 0 then status else v.sticky, v.wide || isWide (scopeOf scope)⟩

/-- An arrival at a transfer barrier slot (R265), of a card at a scope. -/
def Tile.arrive (slot status scope : Nat) (x : Tile) : Tile :=
  { x with slots := x.slots.put (fun _ => noArrivals) slot ((x.slots.look (fun _ => noArrivals) slot).arrive status scope) }
def State.arriveSlot (s : State) (t slot status scope : Nat) : State := s.onTile t (Tile.arrive slot status scope)

/-- The destinations of a CPYM, by number: the core and offset of each, or none outside R10 (R273). -/
def State.cpymDest (s : State) (k : Card) (n i : Nat) : Option (Nat × Nat) :=
  s.reach (s.cardCore k) (k.dst.addr + BitVec.ofNat 64 (i * 16 * 0x80000)) n

def Card.selected (k : Card) : List Nat := (List.range 16).filter k.mask.testBit

/-- The arrivals that a card makes as it ends, as tile, slot and status (R265, R273, R277); an MSWAP that has started has made its
own. -/
def State.cardArrivals (s : State) (t : Nat) (k : Card) : List (Nat × Nat × Nat) :=
  match k.slot with
  | none => []
  | some slot =>
    match k.kind with
    | .mswap => if k.status = 0 then [] else [(t, slot, k.status)]
    | .cpym =>
      k.selected.filterMap (fun i => (s.cpymDest k 1 i).map (fun d =>
        (tileOf d.1, slot, ((k.failed.find? (fun f => decide (f.1 = i))).map (fun f => f.2)).getD
          (if k.status = stPartial then 0 else k.status))))
    | _ => [(t, slot, k.status)]

def State.arriveCard (s : State) (t : Nat) (k : Card) : State :=
  (s.cardArrivals t k).foldl (fun u a => u.arriveSlot a.1 a.2.1 a.2.2 k.scope) s

/-- Whether an MRUN card that has not ended reads a plane (R230). -/
def Tile.planeRead (x : Tile) (m j : Nat) : Bool :=
  x.cards.any (fun e => decide (e.2.kind = .mrun) && decide (e.2.state ≠ .ended) && e.2.reads.contains (.plane m j))

def Tile.macro (x : Tile) (m : Nat) : Macro := if m = 0 then x.m0 else x.m1
def Tile.setMacro (x : Tile) (m : Nat) (y : Macro) : Tile := if m = 0 then { x with m0 := y } else { x with m1 := y }
def Macro.plane (y : Macro) (j : Nat) : Plane := if j = 0 then y.p0 else y.p1
def Macro.setPlane (y : Macro) (j : Nat) (p : Plane) : Macro := if j = 0 then { y with p0 := p } else { y with p1 := p }
def Tile.setPlane (x : Tile) (m j : Nat) (p : Plane) : Tile := x.setMacro m ((x.macro m).setPlane j p)

/-- Draining planes that no MRUN reads any more are LATCHED (R230). -/
def Tile.settlePlanes (x : Tile) : Tile :=
  [(0, 0), (0, 1), (1, 0), (1, 1)].foldl (fun x mj =>
    let p := (x.macro mj.1).plane mj.2
    if p.st = .draining ∧ !x.planeRead mj.1 mj.2 then x.setPlane mj.1 mj.2 { p with st := .latched } else x) x

/-- The number under which the image of a partition's context on a core is kept (R437), and that image. -/
def State.imageNo (s : State) (part p : Nat) : Nat := part * 16384 + (s.indexOf p - (s.partAt part).base)
def State.imageOf (s : State) (part p : Nat) : Option CoreImg := s.images.listed (s.imageNo part p)

/-- Bits of sy.evt set in a core, for a partition whose context of it may be saved (R301, R302, R437). -/
def State.setEvt (s : State) (part p : Nat) (bits : BitVec 32) : State :=
  let flag := fun c : Core => { c with evt := c.evt ||| bits }
  if !s.away part p then s.onCore p flag
  else
    match s.imageOf part p with
    | some x => { s with images := s.images.list (s.imageNo part p) { x with core := flag x.core } }
    | none => s

/-- A card that ends otherwise than OK sets bit FAULT of its tile's cores (R301). -/
def State.flagTile (s : State) (t status part : Nat) : State :=
  if status = 0 then s else (tileCores t).foldl (fun u p => u.setEvt part p 0x20000#32) s

/-- A card has ended (R256, R260, R265, R301): its successors' counts fall, and it arrives at its slot. -/
def State.cardEnded (s : State) (t e : Nat) (k : Card) (status : Nat) : State :=
  let k1 := { k with state := .ended, status := status, due := none, miss := none, cancel := false, ending := none }
  let s1 := s.onTile t (fun x =>
    let drop := fun j : Nat × Card => (j.1, { j.2 with preds := j.2.preds.filter (fun y => decide (y ≠ e)) })
    Tile.settlePlanes { x with cards := SMap.list (x.cards.map drop) e k1 })
  (s1.arriveCard t k1).flagTile t status k.part

/-- A card ends: at once, or when the card buffers have performed its writes to the domain of its scope (R262, R483). -/
def State.endCard (s : State) (t e : Nat) (k : Card) (status : Nat) : State :=
  if s.farWaits t k.seq k.part (scopeOf k.scope) then s.setCard t e { k with due := none, miss := none, ending := some status }
  else s.cardEnded t e k status

/-- A miss slot freed: the lines that wait on it look up again (R415). -/
def State.freeMiss (s : State) (t m : Nat) : State :=
  s.onTile t (fun x =>
    let again := fun j : Nat × Card => (j.1, if j.2.miss.map MissWait.slot = some m then { j.2 with miss := none } else j.2)
    { x with misses := x.misses.drop m, cards := x.cards.map again })

/-- The messages of a miss slot, or of a whole tile, that still wait at its loupe core's port leave it. -/
def State.dropMissMsgs (s : State) (f : Nat × Nat → Bool) : State :=
  { s with missq := (s.missq.map (fun e => (e.1, e.2.filter (fun m => !f m)))).filter (fun e => !e.2.isEmpty) }

/-- The core of a pair that issues for both: the engine core, or the even one of two. -/
def State.engineMine (s : State) (ok : Nat → Bool) : Bool :=
  let p := s.core.phys
  ok p && (decide (p % 2 = 0) || !ok (mateOf p))

/-- A card entered into the window of its core's tile, with its handle (R255); none while the window is full. -/
def State.enterNew (s : State) (mk : State → Card) (post : State → Nat → State) : Option (State × Word) :=
  let t := tileOf s.core.phys
  (s.tileAt t).freeEntry.map (fun e =>
    let s1 := s.enterCard t e (mk s)
    let h := match s1.cardAt t e with
      | some k => k.handle e
      | none => 0
    (post s1 e, BitVec.ofNat 64 h))

/-- A card or a cancel made and its handle or status written at once (R255, R277); a mirror pair holds it until its interval
agrees, and the engine core then makes it once (R247, R271). -/
def issueHeld (i : Instr) (d : Name) (enter : State → Option (State × Word)) (s : State) : Res :=
  if s.core.interval.isSome then .done (s.mapCore (fun c => c.hold [.card i]))
  else
    match enter s with
    | none => .wait s
    | some (t, h) => .done (t.mapCore (fun c => c.putNow (c.wordResult d h)))

/-- A card issued, behind the core's earlier acquires (R220). -/
def issueCard (i : Instr) (d : Name) (enter : State → Option (State × Word)) (s : State) : Res :=
  afterAcquire s (issueHeld i d enter)

/-- The descriptor of a card: the literal, or the entry that names it (R245, R269). -/
def Core.descOf (c : Core) (h : Hd) (n : Name) (lit : BitVec 64) : Word := if h.len = .x160 then lit else (c.rd n).v

/-- Copy and conversion cards (R259, R272 to R274). -/
def copyCard (kind : CardKind) (desc : Word) (a b : Name) (tb scope : Nat) (typ : Ty) (mask : Nat) (s : State) : Card :=
  let c := s.core
  let k := Card.fresh kind c tb scope (c.rdCap a) (c.rdCap b) desc typ
  let f := shapeOf desc
  let db := if kind = .conv then convRow typ (Ty.ofCode f.styp) f.rb else f.rb
  let dn := spanOf f.rows f.ds db
  let k1 := { k with mask := mask }
  let outs :=
    if kind = .cpym then k1.selected.flatMap (fun i => s.region c (k.dst.addr + BitVec.ofNat 64 (i * 16 * 0x80000)) dn)
    else s.region c k.dst.addr dn
  { k1 with reads := s.region c k.src.addr (spanOf f.rows f.ss f.rb), writes := outs }

/-- The cards that CPY, CPYM and CONV enter. -/
def enterCpy (h : Hd) (d a b : Name) (tb : Nat) (scope : Scope) (lit : BitVec 64) (s : State) : Option (State × Word) :=
  s.enterNew (fun s => copyCard .cpy (s.core.descOf h d lit) a b tb scope.code .implied 0 s) (fun s _ => s)
def enterCpym (h : Hd) (d a b : Name) (tb mk : Nat) (scope : Scope) (lit : BitVec 64) (s : State) : Option (State × Word) :=
  s.enterNew (fun s => copyCard .cpym (s.core.descOf h d lit) a b tb scope.code .implied
    ((s.core.mask mk).v.toNat % 2 ^ 16) s) (fun s _ => s)
def enterConv (h : Hd) (d a b : Name) (tb : Nat) (typ : Ty) (scope : Scope) (lit : BitVec 64) (s : State) : Option (State × Word) :=
  s.enterNew (fun s => copyCard .conv (s.core.descOf h d lit) a b tb scope.code typ 0 s) (fun s _ => s)

def execCpy (h : Hd) (d a b : Name) (tb : Nat) (scope : Scope) (lit : BitVec 64) (s : State) :=
  run (.cpy h d a b tb scope lit) s (issueCard (.cpy h d a b tb scope lit) d (enterCpy h d a b tb scope lit))
def execCpym (h : Hd) (d a b : Name) (tb mk : Nat) (scope : Scope) (lit : BitVec 64) (s : State) :=
  run (.cpym h d a b tb mk scope lit) s (issueCard (.cpym h d a b tb mk scope lit) d (enterCpym h d a b tb mk scope lit))
def execConv (h : Hd) (d a b : Name) (tb : Nat) (typ : Ty) (scope : Scope) (lit : BitVec 64) (s : State) :=
  run (.conv h d a b tb typ scope lit) s (issueCard (.conv h d a b tb typ scope lit) d (enterConv h d a b tb typ scope lit))

/-- The engine cores of R254. -/
def anyEngine (p : Nat) : Bool := atPos 13 p || atPos 14 p || atPos 15 p

/-- A word instruction of the window, issued by an engine core for both of a pair (R271). -/
def windowInstr (late : Bool) (s : State) (body : State → Once) : Res :=
  onceBy (s.engineMine anyEngine) late s body

/-- Whether a core of a pair takes the result that its mate, or an earlier run, has made (R214, R322). -/
def Core.takesShared (c : Core) (mine : Bool) : Bool := (c.interval.isSome && !mine) || !c.replay.isEmpty

/-- Whether JWAIT acquires completions at clus scope or wider (R275, R483): of every card that has ended in the window, or of the
arrivals that it counts; a core that takes a shared result acquires what came with it. -/
def State.jwaitWide (s : State) (slotm slot : Nat) : Bool :=
  let x := s.tileAt (tileOf s.core.phys)
  if slotm = 0 then x.cards.any (fun e => decide (e.2.state = .ended) && isWide (scopeOf e.2.scope))
  else if s.core.takesShared (s.engineMine anyEngine) then ((s.core.shared.map (fun g => g.1.wide)).getD false)
  else (x.slots.look (fun _ => noArrivals) slot).wide

/-- The result just shared says whether its acquire is at clus scope or wider. -/
def State.shareWide (s : State) (wide : Bool) : State :=
  let mark := fun gs : List Pending => gs.map (fun g => if g.id + 1 = s.core.nextId then { g with wide := wide } else g)
  if s.core.interval.isNone || !wide then s
  else (s.mapCore (fun c => { c with interval := c.interval.map (fun v => { v with done := mark v.done }) })).onCore
    (mateOf s.core.phys) (fun c => { c with gifts := mark c.gifts })

/-- An acquire of a window instruction (R483). -/
def Res.acquireShared (wide : Bool) : Res → Res
  | .done t => (Res.done (t.shareWide wide)).acquire wide
  | r => r

/-- A core's place among those that wait at its tile's slots (R265). -/
def State.joinSlot (s : State) (t slot : Nat) : State :=
  let p := s.core.phys
  (s.onTile t (fun x => if x.slotWaits.contains (p, slot) then x else { x with slotWaits := x.slotWaits ++ [(p, slot)] })).mapCore
    (fun c => { c with waiting := some (0x20000 + t) })

def State.leaveSlots (s : State) (t : Nat) : State :=
  s.onTile t (fun x => { x with slotWaits := x.slotWaits.filter (fun w => decide (w.1 ≠ s.core.phys)) })

/-- JWAIT (R275): a handle's card, or `n` arrivals at a slot, first come first served. -/
def execJwait (h : Hd) (d a b : Name) (tb slotm : Nat) (s : State) :=
  run (.jwait h d a b tb slotm) s (fun s => (windowInstr false s (fun s =>
    let t := tileOf s.core.phys
    let x := s.tileAt t
    if slotm = 0 then
      match x.byHandle (s.core.rd a).v with
      | none => .done s (s.core.wordResult d goneWord)
      | some (_, k) => if k.state = .ended then .done s (s.core.wordResult d k.word) else .wait s
    else
      let slot := tb % 64
      let n := (s.core.rd b).v.toNat % 2 ^ 16
      let v := x.slots.look (fun _ => noArrivals) slot
      let ahead := ((x.slotWaits.find? (fun w => decide (w.2 = slot))).map (fun w => w.1)).getD s.core.phys
      if n = 0 ∨ (n ≤ v.count ∧ ahead = s.core.phys) then
        let v1 : TSlot := ⟨v.count - n, 0, v.wide && decide (v.count - n ≠ 0)⟩
        let s1 := (s.leaveSlots t).onTile t (fun x => { x with slots := x.slots.put (fun _ => noArrivals) slot v1 })
        .done s1 (s.core.wordResult d (BitVec.ofNat 64 v.sticky))
      else .wait (s.joinSlot t slot))).acquireShared (s.jwaitWide slotm (tb % 64)))

/-- JSTAT (R276). -/
def execJstat (h : Hd) (d a : Name) (tb slotm : Nat) (s : State) :=
  run (.jstat h d a tb slotm) s (fun s => windowInstr true s (fun s =>
    let x := s.tileAt (tileOf s.core.phys)
    if slotm = 0 then
      .done s (s.core.wordResult d (match x.byHandle (s.core.rd a).v with
        | some (_, k) => k.word
        | none => goneWord))
    else
      let v := x.slots.look (fun _ => noArrivals) (tb % 64)
      .done s (s.core.wordResult d (BitVec.ofNat 64 (v.count + v.sticky * 2 ^ 16)))))

/-- A cancel of a card (R256, R277). -/
def State.cancelCard (s : State) (t e : Nat) (k : Card) : State :=
  match k.state with
  | .waiting => s.endCard t e k stCancelled
  | .faulted => s.endCard t e k stCancelled
  | .running => if k.kind.isMatrix then s else s.setCard t e { k with cancel := true }
  | _ => s

/-- A cancel of the card that a handle names, with the card's status word before it (R277). -/
def cancelNamed (a : Name) (s : State) : Option (State × Word) :=
  let t := tileOf s.core.phys
  match (s.tileAt t).byHandle (s.core.rd a).v with
  | none => some (s, goneWord)
  | some (e, k) => some (s.cancelCard t e k, k.word)

/-- JCANCEL (R277). -/
def execJcancel (h : Hd) (d a : Name) (s : State) :=
  run (.jcancel h d a) s (issueHeld (.jcancel h d a) d (cancelNamed a))

end Sys2Proof.Machine
end

