-- ==== Sys2Proof/Machine/Pages.lean ====
section
/-! DEFINITION. Translation entries and tile caches, misses and probes, what a card's address reaches, the dirty log and the
fault rings (R11 to R13, R93, R411 to R424, R453, R454). -/

namespace Sys2Proof.Machine

open Sys2Proof

/-- A translation entry (R411). -/
abbrev TEntry := BitVec 128

def tePart (e : TEntry) : Nat := (e.extractLsb' 122 6).toNat
def teKey (e : TEntry) : Nat := (e.extractLsb' 114 8).toNat
def teEnc (e : TEntry) : Nat := (e.extractLsb' 112 2).toNat
def teLabel (e : TEntry) : Label := e.extractLsb' 109 3
def teDirty (e : TEntry) : Bool := e.getLsbD 108
def teW (e : TEntry) : Bool := e.getLsbD 107
def teR (e : TEntry) : Bool := e.getLsbD 106
def teSize (e : TEntry) : Nat := (e.extractLsb' 104 2).toNat
def teValid (e : TEntry) : Bool := e.getLsbD 103
def teFcode (e : TEntry) : Nat := (e.extractLsb' 99 4).toNat
def teVpn (e : TEntry) : Nat := (e.extractLsb' 64 35).toNat
def tePpn (e : TEntry) : Nat := (e.extractLsb' 12 35).toNat

/-- Bytes of the page, and whether the entry is for an address. -/
def teBytes (e : TEntry) : Nat := [4096, 65536, 2 ^ 21, 2 ^ 30].getD (teSize e) 4096
def teCovers (e : TEntry) (va : Nat) : Bool := decide (teVpn e * 4096 ≤ va ∧ va < teVpn e * 4096 + teBytes e)
def teAddr (e : TEntry) (va : Nat) : Nat := tePpn e * 4096 + (va - teVpn e * 4096)

/-- Whether two entries' pages meet. -/
def teMeets (a b : TEntry) : Bool :=
  decide (teVpn a * 4096 < teVpn b * 4096 + teBytes b ∧ teVpn b * 4096 < teVpn a * 4096 + teBytes a)

/-- The reported capacity of HBM (R13, R423). -/
def State.hbmTop (s : State) : Nat := (512 - s.dead.length) * 2 ^ 30

/-- First physical address of the compute cores' stores, and of the host-link window (R11). -/
def storesBase : Nat := 0x010000000000
def hostBase : Nat := 0x400000000000

/-- A malformed entry (R412). -/
def State.malformed (s : State) (e : TEntry) : Bool :=
  let lo := tePpn e * 4096
  let hi := lo + teBytes e
  let inside := fun a b => decide (a ≤ lo ∧ hi ≤ b)
  let hbm := inside 0 s.hbmTop
  let part := s.partAt (tePart e)
  decide (e.extractLsb' 47 17 ≠ 0 ∨ e.extractLsb' 0 12 ≠ 0 ∨ teEnc e = 3 ∨ 3 ≤ teFcode e) ||
    (teValid e && decide (teFcode e ≠ 0)) ||
    decide (teVpn e * 4096 % teBytes e ≠ 0 ∨ lo % teBytes e ≠ 0) ||
    (teValid e && !(hbm || inside storesBase (storesBase + 2 ^ 32) || inside hostBase (2 ^ 47))) ||
    (decide (teEnc e ≠ 0) && !hbm) ||
    (decide (teEnc e ≠ 0 ∨ teKey e ≠ 0) && !(decide (part.keyBase ≤ teKey e ∧ teKey e < part.keyBase + part.keyCount))) ||
    (teValid e && !teR e && !teW e)

/-- The entry of a tile's cache that matches (R413). -/
def Tile.match (x : Tile) (part va : Nat) : Option TEntry :=
  x.tlb.find? (fun e => teValid e && decide (tePart e = part) && teCovers e va)

/-- An entry stored: it replaces those it overlaps, and the oldest when the cache is full (R413). -/
def Tile.fill (x : Tile) (e : TEntry) : Tile :=
  let rest := x.tlb.filter (fun j => !(decide (tePart j = tePart e) && teMeets j e))
  { x with tlb := (if 1024 ≤ rest.length then rest.tail else rest) ++ [e] }

/-- What an address reaches: a place in a core's store, HBM, or the host-link window. -/
inductive Spot where
  | store (p off : Nat)
  | hbm (pa : Nat)
  | host (pa : Nat)
  deriving DecidableEq, Repr

/-- What a lookup of one line gives: a place with the entry that led there, a miss, a terminal fault of a kind, an address
outside the windows, or the host link after a warm restart. -/
inductive Found where
  | ok (x : Spot) (e : Option TEntry)
  | miss (prot : Bool)
  | fault (kind : Nat)
  | outside
  | reset
  deriving DecidableEq, Repr

/-- Whether [a, a + n) meets a partition's save area, whose bursts hold ENCIR under a key of F firmware alone, so that their record
differs from that of every entry (R419, R437, notes/assumptions/61.md). -/
def State.meetsSave (s : State) (a n : Nat) : Bool := s.parts.any (fun e => decide (e.2.save < a + n ∧ a < e.2.save + e.2.len * 0x80000))

/-- A translated address (R11 to R13, R418, R419, R424, R453, R455). -/
def State.reachPhys (s : State) (part : Nat) (e : TEntry) (write : Bool) (pa : Nat) : Found :=
  if pa < s.hbmTop then
    let b := s.burst pa
    if b.enc ≠ teEnc e ∨ b.key ≠ teKey e ∨ s.meetsSave pa 1 then .fault 3
    else if b.enc = 2 ∧ !write ∧ Config.integrityFails (pa / 64) s.clock then .fault 5
    else if b.poison && !write then .fault 4
    else .ok (.hbm pa) (some e)
  else if storesBase ≤ pa ∧ pa < storesBase + 2 ^ 32 then
    let off := (pa - storesBase) % 0x80000
    if off < lsSize then .ok (.store ((pa - storesBase) / 0x80000) off) (some e) else .fault 6
  else if hostBase ≤ pa ∧ pa < 2 ^ 47 then
    let kh := pa / 2 ^ 40 % 64
    if s.unregistered.contains part then .reset
    else if kh ≠ 0 ∧ (s.handles.listed kh).map KeyHandle.part ≠ some part then .fault 6
    else .ok (.host pa) (some e)
  else .fault 6

/-- What a card's address reaches (R258, R413); a line on the host link, for a card that a warm restart has met, nothing (R455). -/
def State.locate (s : State) (t : Nat) (k : Card) (x : Nat) (write : Bool) : Found :=
  let a := x % 2 ^ 64
  if a < 2 ^ 47 then
    match (s.tileAt t).match k.part a with
    | none => .miss false
    | some e =>
      let x := s.reachPhys k.part e write (teAddr e a)
      let host := match x with
        | .ok (.host _) _ => true
        | _ => false
      if !(if write then teW e else teR e) then .miss true else if host && k.stale then .reset else x
  else
    match s.reach (s.cardCore k) (BitVec.ofNat 64 a) 1 with
    | some (p, off) => .ok (.store p off) none
    | none => .outside

/-- A ring in HBM that a descriptor describes (R422, R440): entries it holds, its length. -/
def State.ringLen (s : State) (d : Nat) : Nat := s.numAt (d + 8) 8
def State.ringUsed (s : State) (d : Nat) : Nat := (s.numAt (d + 16) 8 % 2 ^ 63 + 2 ^ 63 - s.numAt (d + 24) 8 % 2 ^ 63) % 2 ^ 63

/-- An entry appended to such a ring. -/
def State.ringPut (s : State) (d : Nat) (bs : List Byte) : State :=
  let tail := s.numAt (d + 16) 8
  let s1 := if s.ringLen d = 0 then s
    else s.store (s.numAt d 8 + bs.length * (tail % 2 ^ 63 % s.ringLen d)) bs 0
  s1.store (d + 16) (bytesOf 8 (tail / 2 ^ 63 * 2 ^ 63 + (tail % 2 ^ 63 + 1) % 2 ^ 63)) 0

/-- A page logged before the first write through a clean entry (R422). -/
def State.logDirty (s : State) (t : Nat) (e : TEntry) : State :=
  if teDirty e || !teW e || decide (tePart e = 0) then s
  else
    let e1 := e ||| (1#128 <<< 108)
    let s1 := s.onTile t (fun x => { x with tlb := x.tlb.map (fun j => if j = e then e1 else j) })
    let d := (s.partAt (tePart e)).dlog
    let tail := s1.numAt (d + 16) 8
    if s1.ringLen d ≤ s1.ringUsed d then
      s1.store (d + 16) (bytesOf 8 (2 ^ 63 + (tail % 2 ^ 63 + 1) % 2 ^ 63)) 0
    else s1.ringPut d (bytesOf 8 (teVpn e * 4096 + teSize e))

def State.dieAt (s : State) (d : Nat) : Die := s.dies.look (fun _ => Die.reset) d
def State.setDie (s : State) (d : Nat) (x : Die) : State := { s with dies := s.dies.put (fun _ => Die.reset) d x }

/-- A fault record (R420). -/
def Card.faultRecord (k : Card) (t e : Nat) (f : FaultDue) : List Word :=
  [BitVec.ofNat 64 f.va, BitVec.ofNat 64 k.offset, BitVec.ofNat 64 (k.id t e),
    BitVec.ofNat 64 (f.kind + f.terminal.toNat * 2 ^ 8 + f.write.toNat * 2 ^ 9 + k.part % 64 * 2 ^ 10 + t * 2 ^ 16 +
      f.clock * 2 ^ 32)]

/-- A fault record enters its die ring and its VF's ring in one step, and its card is FAULTED or ends (R421). -/
def State.postFault (s : State) (t e : Nat) : State :=
  match s.cardAt t e with
  | none => s
  | some k =>
    match k.due with
    | none => s
    | some f =>
      let d := tileDie t
      let x := s.dieAt d
      let ring := if f.terminal then x.term else x.retry
      let vf := (s.partAt k.part).vfring
      let room := decide (ring.length < 256) && decide ((ring.filter (fun r => decide (r.part = k.part))).length < 32) &&
        (decide (k.part = 0) || decide (s.ringUsed vf < s.ringLen vf))
      if !room then s
      else
        let ws := k.faultRecord t e f
        let ring1 := ring ++ [(⟨ws, k.part⟩ : FRec)]
        let s1 := s.setDie d (if f.terminal then { x with term := ring1 } else { x with retry := ring1 })
        let s2 := if k.part = 0 then s1 else s1.ringPut vf (ws.flatMap (fun w : Word => bytesOf 8 w.toNat))
        if k.cancel then s2.endCard t e k stCancelled
        else if f.terminal then s2.endCard t e k stTermfault else s2.setCard t e { k with state := .faulted, due := none }

/-- A card stops with a fault (R266, R420), or ends when it is cancelled (R277); its record is posted at once unless posts wait for
their events. -/
def State.faultCard (s : State) (t e : Nat) (k : Card) (f : FaultDue) : State :=
  if k.cancel then s.endCard t e k stCancelled else
  let s1 := s.setCard t e { k with due := some f, miss := none }
  if s.hold then s1 else s1.postFault t e

/-- The neighbour tiles' entry for a lookup (R414). -/
def State.neighbour (s : State) (t part va : Nat) (write : Bool) : Option TEntry :=
  ((List.range 4).filter (fun i => decide (t / 4 * 4 + i ≠ t))).findSome? (fun i =>
    match (s.tileAt (t / 4 * 4 + i)).match part va with
    | some e => if (if write then teW e else teR e) then some e else none
    | none => none)

/-- The probe of a miss slot answers (R414, R415): a neighbour's entry is filled, or a message goes to the loupe core. -/
def State.probe (s : State) (t m : Nat) : State :=
  match (s.tileAt t).misses.listed m with
  | none => s
  | some x =>
    if x.st ≠ .probing then s
    else
      match s.neighbour t x.part x.va x.write with
      | some e => (s.onTile t (fun y => y.fill e)).freeMiss t m
      | none =>
        let s1 := s.onTile t (fun y => { y with misses := y.misses.list m { x with st := .waiting, gen := y.gen } })
        let cl := t / 4
        { s1 with missq := s1.missq.put (fun _ => []) cl (s1.missq.look (fun _ => []) cl ++ [(t, m)]) }

/-- A line misses (R415): it joins a slot of its page, takes a free one, or waits in its engine. -/
def State.missLine (s : State) (t e : Nat) (k : Card) (va : Nat) (write prot : Bool) : State :=
  let x := s.tileAt t
  match x.misses.find? (fun j => decide (j.2.part = k.part ∧ j.2.va / 4096 = va / 4096)) with
  | some (m, _) => s.setCard t e { k with miss := some ⟨m, va, write⟩ }
  | none =>
    match (List.range 16).find? (fun m => (x.misses.listed m).isNone) with
    | none => s
    | some m =>
      let s1 := (s.setCard t e { k with miss := some ⟨m, va, write⟩ }).onTile t (fun y =>
        { y with misses := y.misses.list m ⟨.probing, va, k.part, write, prot, k.id t e, y.gen⟩ })
      if s.hold then s1 else s1.probe t m

/-- A card's line that does not lead to a place stops the card. -/
def State.stopAt (s : State) (t e : Nat) (k : Card) (x : Nat) (write : Bool) (f : Found) : State :=
  match f with
  | .ok _ _ => s
  | .miss prot => s.missLine t e k (x % 2 ^ 64) write prot
  | .fault kind => s.faultCard t e k ⟨kind, true, write, x % 2 ^ 64, s.clock % 2 ^ 32⟩
  | .outside => s.endCard t e k 0x06
  | .reset => s.endCard t e k stHostreset

/-- Whether a card's write to a store goes into the store's card buffer (R483): it is a far write, and accesses wait for their
events or an earlier one waits there for the same store. -/
def State.buffers (s : State) (t p : Nat) : Bool :=
  isFar t p && (s.hold || (s.bufAt (bufKey p)).any (fun w => decide (w.store = p)))

/-- The ports that a card's reads and writes meet: core, offset, length (R206); a buffered write meets none yet. -/
def Spot.port : Spot × Nat → Option (Nat × Nat × Nat)
  | (.store p off, n) => some (p, off, n)
  | _ => none
def State.cardPorts (s : State) (t : Nat) (ins outs : List (Spot × Nat)) : List (Nat × Nat × Nat) :=
  ins.filterMap Spot.port ++ (outs.filterMap Spot.port).filter (fun x => !s.buffers t x.1)

/-- A card's own buffered writes for the stores that it reads performed first: an edge carries them to it (R262). -/
def State.flushFor (s : State) (t : Nat) (ins : List (Spot × Nat)) : State :=
  (ins.filterMap Spot.port).foldl (fun u x => u.drainBuf (bufKey x.1) (fun w => decide (w.tile = t ∧ w.store = x.1))) s

/-- Whether none of them is left. -/
def State.flushed (s : State) (t : Nat) (ins : List (Spot × Nat)) : Bool :=
  (ins.filterMap Spot.port).all (fun x => !(s.bufAt (bufKey x.1)).any (fun w => decide (w.tile = t ∧ w.store = x.1)))

/-- A card's accesses at their ports: it waits, in the order of those that cannot serve it, until all can (R206, R211); its places
in that order are free again afterwards. -/
def State.atPorts (s : State) (t e part : Nat) (ins outs : List (Spot × Nat)) (go : State → State) : State :=
  let s1 := s.flushFor t ins
  let xs := s1.cardPorts t ins outs
  if !s1.flushed t ins then s1
  else if !s1.portsReady part (cardSrc t e) xs then s1.portsPlace part (cardSrc t e) xs
  else
    let had := fun x : Nat × Nat × Nat => (s1.coreAt x.1).portq.any (fun a => decide (a.src = cardSrc t e))
    (xs.filter had).foldl (fun u x => (u.portLeave x.1 (cardSrc t e)).drain x.1) (go s1)

/-- Whether a place lies in a killed core's store (R471). -/
def State.spotKilled (s : State) (x : Spot) : Bool :=
  match x with
  | .store p _ => decide ((s.coreAt p).cstate = .killed)
  | _ => false

/-- The physical address of a place in a store or in HBM. -/
def Spot.addr : Spot → Nat
  | .store p off => lsBase p + off
  | .hbm pa => pa
  | .host pa => hostBase + pa % 2 ^ 40

/-- Bytes that a card reads, with their label and the next draw; the host's memory answers free bytes
(notes/assumptions/10.md). -/
def State.readSpot (s : State) (x : Spot) (n : Nat) : List Byte × Label × Nat :=
  match x with
  | .host _ =>
    let k := (n + 7) / 8
    (((List.range k).flatMap (fun i => bytesOf 8 (Config.freeWord (s.freeCtr + i)).toNat)).take n, 0, s.freeCtr + k)
  | y => (s.bytesAt y.addr n, s.labelOver y.addr n, s.freeCtr)

/-- The capability of a granule that a card copies; the host link carries none (R93, R103). -/
def State.spotGranule (s : State) (c : Core) (x : Spot) : Cap :=
  match x with
  | .host _ => Cap.null
  | y => s.sweptCap c (s.granule y.addr)

/-- Bytes as they travel to the host's memory (R454). -/
def State.onLink (s : State) (pa : Nat) (bs : List Byte) : List Byte :=
  match s.handles.listed (pa / 2 ^ 40 % 64) with
  | some h =>
    let a := pa % 2 ^ 40
    if pa / 2 ^ 40 % 64 = 0 then bs
    else (List.range bs.length).map (Config.xtsByte h.key ((h.iv + a / 64) % 2 ^ 128) bs)
  | none => bs

/-- A card's write of bytes with a label through a translation entry (R92, R93, R202): `ts` are the tags of the granules from the first 16-aligned
address up that it writes whole.  A far write enters the store's card buffer (R334, R483). -/
def State.writeSpot (s : State) (t : Nat) (k : Card) (x : Spot) (via : Option TEntry) (bs : List Byte) (l : Label) (ts : List Bool) :
    State :=
  match x with
  | .store p off =>
    if s.buffers t p then s.setBuf (bufKey p) (s.bufAt (bufKey p) ++ [⟨t, k.seq, k.part, scopeOf k.scope, via, p, off, bs, l, ts, []⟩])
    else s.cardStore p off bs l ts
  | .hbm pa =>
    ((s.store pa bs l).setTags ((pa + 15) / 16 * 16) ts).cardMends (t, k.seq) pa bs.length
  | .host pa => s.putBytes (hostBase + pa % 2 ^ 40) (s.onLink pa bs)

end Sys2Proof.Machine
end

