-- ==== Sys2Proof/Machine/Copy.lean ====
section
/-! DEFINITION. Copy and conversion cards: their start checks, and each line or group that they move (R92 to R96, R129, R131,
R134, R136, R194, R202, R264, R266, R269, R272 to R274, R277, R454, R471). -/

namespace Sys2Proof.Machine

open Sys2Proof

/-- Addresses as they wrap. -/
def wrap64 (x : Nat) : Nat := x % 2 ^ 64

/-- The status of the first check of R95, R258 and R10 that a card's operand fails; `loc` asks for local addresses. -/
def State.operandStatus (s : State) (k : Card) (c : Cap) (perm : Bool) (align n : Nat) (loc : Bool) : Option Nat :=
  let x := c.addr.toNat
  let core := s.cardCore k
  if !c.tag then some 0x05
  else if s.revoked core c then some 0x0A
  else if c.otype ≠ 0 then some 0x08
  else if !perm then some 0x07
  else if x % align ≠ 0 then some 0x04
  else if !c.covers x n then some 0x06
  else if x < 2 ^ 47 then (if loc ∨ 2 ^ 47 < x + n then some 0x06 else none)
  else if (s.reach core c.addr n).isNone then some 0x06 else none

/-- The destination range of a CPY, CPYM or CONV card (R259). -/
def Card.outBytes (k : Card) : Nat :=
  let f := shapeOf k.desc
  if k.kind = .conv then convRow k.typ (Ty.ofCode f.styp) f.rb else f.rb

/-- Whether CONV allows a pair of types (R274). -/
def convPair (dt st : Ty) : Bool :=
  if isBlock dt then decide (st = .f32)
  else if isBlock st then decide (dt = .f32 ∨ dt = .bf16 ∨ dt = .f16)
  else decide (1 ≤ dt.code ∧ dt.code ≤ 11 ∧ 1 ≤ st.code ∧ st.code ≤ 11)

/-- The rounding mode of a CONV, when it has one (R129, R274). -/
def Card.convMode (k : Card) : Option RMode :=
  let f := shapeOf k.desc
  if f.rnd = 0 then
    if stSR k.sampled then some .sr else if isBlock k.typ then some .rne else RMode.ofRM (stRM k.sampled)
  else cvtMode f.rnd k.sampled

/-- Whether a CONV's types, row and rounding keep R274. -/
def Card.convOk (k : Card) : Bool :=
  let f := shapeOf k.desc
  let st := Ty.ofCode f.styp
  let unit := if isBlock st then groupBytes st else tyWidth st / 8
  decide (1 ≤ f.styp ∧ f.styp ≤ 14) && convPair k.typ st && decide (f.rb % unit = 0) &&
    (!isBlock k.typ || decide (f.rb % groupBytes st = 0 ∧ (f.rnd = 0 ∨ f.rnd = 1 ∨ f.rnd = 5))) &&
    decide (f.rnd ≤ 5) && k.convMode.isSome

/-- Whether a descriptor keeps R269, and R274 for a conversion. -/
def Card.shapeOk (k : Card) : Bool :=
  let f := shapeOf k.desc
  (if f.rows = 1 then decide (f.ds = 0 ∧ f.ss = 0) else decide (k.outBytes ≤ f.ds)) &&
    (if k.kind = .conv then k.convOk else decide (f.rnd = 0 ∧ f.styp = 0))

/-- Whether regions of a list meet each other. -/
def meetAny : List Region → Bool
  | [] => false
  | r :: rest => rest.any r.meets || meetAny rest

/-- Whether a destination of a CPYM lies in a window of R9; its rank and offset are another check (R258, R273). -/
def Card.localDest (k : Card) (i : Nat) : Bool :=
  let x := (k.dst.addr + BitVec.ofNat 64 (i * 16 * rankSpan)).toNat
  if selfWindow ≤ x then decide (x - selfWindow < lsSize) else decide (remoteWindow ≤ x)

/-- The first addresses of the pages, at most, that a range meets. -/
def pageStarts (x n : Nat) : List Nat := (List.range (n / 4096 + 2)).map (fun i => if i = 0 then x else (x / 4096 + i) * 4096)

/-- Whether an operand's rows lie at places of the host that ask for more alignment than it has (R454): the check at start looks at
the entries that the tile's cache holds (notes/assumptions/43.md). -/
def State.badlyKeyed (s : State) (t : Nat) (k : Card) (x stride rows n : Nat) (write : Bool) : Bool :=
  decide (x < 2 ^ 47) && decide (x % 64 ≠ 0 ∨ stride % 64 ≠ 0 ∨ n % 64 ≠ 0) &&
    ((pageStarts x (spanOf rows stride n)).filter (fun a => decide (a < x + spanOf rows stride n))).any (fun a =>
      match s.locate t k a write with
      | .ok (.host pa) _ => decide (pa / 2 ^ 40 % 64 ≠ 0)
      | _ => false)

/-- The start of a copy or conversion card (R272 to R274): the status of the first check that fails, else the card, with the
destinations of a CPYM that receive nothing. -/
def State.startChecks (s : State) (t : Nat) (k : Card) : Nat ⊕ Card :=
  let f := shapeOf k.desc
  if !k.shapeOk then .inl stBaddesc
  else if anyMeet k.reads k.writes || meetAny k.writes then .inl stBaddesc
  else
    let n := spanOf f.rows f.ds k.outBytes
    match s.operandStatus k k.src (k.src.can .load) 1 (spanOf f.rows f.ss f.rb) false with
    | some st => .inl st
    | none =>
      match s.operandStatus k k.dst (k.dst.can .store) 1 n (decide (k.kind = .cpym)) with
      | some st => .inl st
      | none =>
        if s.badlyKeyed t k k.src.addr.toNat f.ss f.rows f.rb false || s.badlyKeyed t k k.dst.addr.toNat f.ds f.rows k.outBytes true then
          .inl stBaddesc
        else if k.kind ≠ .cpym then .inr k
        else if k.selected.any (fun i => !k.localDest i) then .inl 0x06
        else
          let bad := k.selected.filterMap (fun i =>
            match s.cpymDest k n i with
            | none => some (i, 0x06)
            | some (p, _) => if (s.coreAt p).cstate = .killed then some (i, stTermfault) else none)
          .inr { k with failed := bad }

/-- Destinations of a CPYM that receive data. -/
def Card.live (k : Card) : List Nat := k.selected.filter (fun i => !(k.failed.map (fun f => f.1)).contains i)

/-- How a card that has moved everything ends (R273): the first cause when no destination received data, PARTIAL when some
did. -/
def State.endMoved (s : State) (t e : Nat) (k : Card) : State :=
  if k.kind = .cpym then
    let k1 := { k with dmask := k.live.foldl (fun m i => m + 2 ^ i) 0 }
    match k.failed with
    | [] => s.endCard t e k1 0
    | f :: _ => if k.live.isEmpty then s.endCard t e k1 f.2 else s.endCard t e k1 stPartial
  else s.endCard t e k 0

/-- Whether the copy engine or the conversion engine can take a card (R260). -/
def Tile.engineFree (x : Tile) (k : Card) : Bool :=
  let busy := fun conv : Bool =>
    (x.cards.filter (fun j => decide (j.2.state = .running) && !j.2.kind.isMatrix && (decide (j.2.kind = .conv) == conv))).length
  if k.kind = .conv then decide (busy true = 0) else decide (busy false < 4)

/-- Whether a card's predecessors have ended and its release is complete (R257, R260). -/
def State.ready (s : State) (k : Card) : Bool :=
  decide (k.state = .waiting) && k.ending.isNone && k.preds.isEmpty &&
    !((s.coreAt k.core).unacked.any (fun u => k.after.contains u.id))

/-- Whether a tile's team is being swapped out, so that its window is being saved (R267, R281). -/
def State.tileSaving (s : State) (t : Nat) : Bool :=
  match (s.tileAt t).team with
  | none => false
  | some (n, i) => decide (((s.kernels.listed n).bind (fun k => k.teams[i]?.map Team.st)) = some .swappingOut)

/-- Whether a card can start, and no earlier one of its engine could (R260); none starts while its window is being saved
(R267). -/
def State.mayStart (s : State) (t : Nat) (free : Tile → Card → Bool) (same : Card → Bool) (k : Card) : Bool :=
  let x := s.tileAt t
  !s.tileSaving t && s.ready k && free x k && !(x.cards.any (fun j => same j.2 && j.2.before k && s.ready j.2 && free x j.2))

/-- A copy or conversion card starts, or goes on where it stopped (R256, R260, R272 to R274). -/
def State.startCopy (s : State) (t e : Nat) : State :=
  match s.cardAt t e with
  | none => s
  | some k =>
    let same := fun j : Card => !j.kind.isMatrix && (decide (j.kind = .conv) == decide (k.kind = .conv))
    if k.kind.isMatrix || !(s.mayStart t Tile.engineFree same k) then s
    else if k.doomed then s.endCard t e k stHostreset
    else if k.begun then s.setCard t e { k with state := .running }
    else
      match s.startChecks t k with
      | .inl st => s.endCard t e k st
      | .inr k1 =>
        let k2 := { k1 with state := .running, begun := true, after := [] }
        if k1.kind = .cpym ∧ k1.live.isEmpty then s.endMoved t e k2 else s.setCard t e k2

/-- [x, x + n) cut at 64-byte boundaries; `fuel` bounds the pieces. -/
def cutLines (x n : Nat) : Nat → List (Nat × Nat)
  | 0 => []
  | fuel + 1 =>
    if n = 0 then []
    else
      let m := min n (64 - x % 64)
      (x, m) :: cutLines (x + m) (n - m) fuel

/-- What a card moves next: its row, its source and destination bytes, cut into lines. -/
structure Chunk where
  row : Nat
  n : Nat
  src : List (Nat × Nat)
  dst : List (Nat × Nat)
  deriving DecidableEq, Repr

/-- The next piece of a copy: what is left of a destination line, in one row (R272). -/
def Card.copyPiece (k : Card) : Chunk :=
  let f := shapeOf k.desc
  let r := k.offset / f.rb
  let col := k.offset % f.rb
  let x := k.src.addr.toNat + f.ss * r + col
  let y := k.dst.addr.toNat + f.ds * r + col
  let n := min (f.rb - col) (64 - y % 64)
  ⟨r, n, cutLines x n 2, [(y, n)]⟩

/-- The next group of a conversion (R274). -/
def Card.convPiece (k : Card) : Chunk :=
  let f := shapeOf k.desc
  let st := Ty.ofCode f.styp
  let r := k.offset / f.rb
  let col := k.offset % f.rb
  let n := min (f.rb - col) (groupBytes st)
  let x := k.src.addr.toNat + f.ss * r + col
  let y := k.dst.addr.toNat + f.ds * r + col / groupBytes st * groupBytes k.typ
  ⟨r, n, cutLines x n 3, cutLines y (convRow k.typ st n) 3⟩

/-- Whether a lookup leads to a place. -/
def Found.isOk : Found → Bool
  | .ok _ _ => true
  | _ => false

def Found.spot : Found → Spot
  | .ok x _ => x
  | _ => .hbm 0

/-- The label that a destination takes at most: its capability's LABEL, or its page's (R264). -/
def Found.limit (f : Found) (k : Card) : Label :=
  match f with
  | .ok _ (some e) => teLabel e
  | _ => k.dst.label

/-- The first of some lines that does not lead to a place. -/
def State.firstBad (s : State) (t : Nat) (k : Card) (xs : List (Nat × Bool)) : Option (Nat × Bool × Found) :=
  xs.findSome? (fun x => let f := s.locate t k x.1 x.2
    if f.isOk then none else some (x.1, x.2, f))

/-- Lines read in order: bytes, highest label, and the state with its draws made. -/
def State.readLines (s : State) (t : Nat) (k : Card) (xs : List (Nat × Nat)) : List Byte × Label × State :=
  xs.foldl (fun acc x =>
    let r := acc.2.2.readSpot (s.locate t k x.1 false).spot x.2
    (acc.1 ++ r.1, Label.max acc.2.1 r.2.1, { acc.2.2 with freeCtr := r.2.2 })) ([], 0, s)

/-- Whether a keyed place asks for more alignment than a card's operand has (R454). -/
def unkeyable (f : Found) (addr stride n : Nat) : Bool :=
  match f with
  | .ok (.host pa) _ => decide (pa / 2 ^ 40 % 64 ≠ 0) && decide (addr % 64 ≠ 0 ∨ stride % 64 ≠ 0 ∨ n % 64 ≠ 0)
  | _ => false

/-- Whether a card moves tags (R93), and whether a capability may stand in its destination. -/
def Card.movesTags (k : Card) : Bool :=
  k.kind ≠ .conv && k.src.can .caprd && k.dst.can .capwr && decide (k.src.addr.toNat % 16 = k.dst.addr.toNat % 16)

def Card.tagFor (k : Card) (g : Cap) : Bool := g.tag && (g.can .roam || k.dst.can .tether)

/-- The tags of the granules that a piece from `x` of `n` bytes copies whole (R93, R103). -/
def State.movedTags (s : State) (t : Nat) (k : Card) (x n : Nat) : List Bool :=
  if !k.movesTags then []
  else
    let a := (x + 15) / 16 * 16
    (List.range ((x + n - a) / 16)).map (fun i =>
      k.tagFor (s.spotGranule (s.cardCore k) (s.locate t k (a + 16 * i) false).spot))

/-- The places that a piece's destination line stands at: one, or those of a CPYM. -/
def State.outSpots (s : State) (t : Nat) (k : Card) (y : Nat) : List Found :=
  if k.kind = .cpym then k.live.map (fun i => s.locate t k (wrap64 (y + i * 16 * 0x80000)) true) else [s.locate t k y true]

/-- One destination line written: logged as dirty first, then its bytes, label and tags (R93, R202, R422). -/
def State.putLine (s : State) (t : Nat) (k : Card) (f : Found) (bs : List Byte) (l : Label) (ts : List Bool) : State :=
  match f with
  | .ok x (some e) => (s.logDirty t e).writeSpot t k x (some e) bs l ts
  | .ok x none => s.writeSpot t k x none bs l ts
  | _ => s

/-- A card that has done `n` more bytes goes on, or ends when it has done all (R263, R272). -/
def State.advance (s : State) (t e : Nat) (k : Card) (n : Nat) : State :=
  let f := shapeOf k.desc
  let k1 := { k with offset := k.offset + n }
  if f.rows * f.rb ≤ k1.offset then s.endMoved t e k1 else s.setCard t e k1

/-- The next line of a copy (R266, R272, R273). -/
def State.copyLine (s : State) (t e : Nat) (k : Card) : State :=
  let f := shapeOf k.desc
  let p := k.copyPiece
  let x := p.src.headD (0, 0)
  let y := p.dst.headD (0, 0)
  let cut := match p.src with
    | [a, b] => if (s.locate t k b.1 false).isOk then p.n else a.2
    | _ => p.n
  let src := cutLines x.1 cut 2
  let outs := s.outSpots t k y.1
  match s.firstBad t k [(x.1, false)] with
  | some (a, w, g) => s.stopAt t e k a w g
  | none =>
    match outs.find? (fun g => !g.isOk) with
    | some g => s.stopAt t e k y.1 true g
    | none =>
      let ins := src.map (fun a => ((s.locate t k a.1 false).spot, a.2))
      let outSpots := outs.map (fun g => (g.spot, cut))
      if unkeyable (s.locate t k x.1 false) k.src.addr.toNat f.ss f.rb ||
          outs.any (fun g => unkeyable g k.dst.addr.toNat f.ds f.rb) then s.endCard t e k stBaddesc
      else if (ins ++ outSpots).any (fun a => s.spotKilled a.1) then s.endCard t e k stTermfault
      else s.atPorts t e k.part ins outSpots (fun s =>
        let r := s.readLines t k src
        if outs.any (fun g => decide (g.limit k < r.2.1)) then s.endCard t e k 0x09
        else
          let ts := s.movedTags t k x.1 cut
          State.advance (outs.foldl (fun u g => u.putLine t k g r.1 r.2.1 ts) r.2.2) t e k cut)

/-- The highest label of a row's source lines that can be read (R274). -/
def State.rowLabel (s : State) (t : Nat) (k : Card) (r : Nat) : Label :=
  let f := shapeOf k.desc
  let x := k.src.addr.toNat + f.ss * r
  (cutLines x f.rb (f.rb / 64 + 2)).foldl (fun l a =>
    match s.locate t k a.1 false with
    | .ok y _ => Label.max l (s.readSpot y a.2).2.1
    | _ => l) 0

/-- The elements of a group as numbers. -/
def elemsOf (w : Nat) (v n : Nat) : List Nat := (List.range n).map (elemAt v w)

/-- The mode that a CONV rounds under; none where nothing is rounded, so that nothing is drawn (R131, R136). -/
def Card.roundMode (k : Card) : RMode :=
  let st := Ty.ofCode (shapeOf k.desc).styp
  let exact := if isBlock st then decide (k.typ ≠ .f16) else !isBlock k.typ && representable k.typ st
  if exact then .rne else k.convMode.getD .rne

/-- A dequantised element with its draw (R136).  To bf16 it is exact and raises no flag; an element below what bf16 can hold is a free
value (notes/assumptions/90.md). -/
def dequantDraw (dt : Ty) (m : RMode) (r : Nat) (x : QIn) : Rounded :=
  let f := (tyFmt dt).getD .f32
  match x with
  | .bad => ⟨f.nanBits, Flags.none⟩
  | .val n e =>
    let v := f.roundInt m r n e false
    if dt = .bf16 ∧ v.fl.nx then ⟨(Config.blockElem n e).toNat, Flags.none⟩ else v

/-- A group converted: its bytes, flags and the seed after its draws (R274). -/
def Card.convert (k : Card) (bs : List Byte) : List Byte × Flags × BitVec 32 :=
  let dt := k.typ
  let st := Ty.ofCode (shapeOf k.desc).styp
  let m := k.roundMode
  let v := ofBytes bs
  let n := if isBlock st then 16 else bs.length / (tyWidth st / 8)
  let ds := if m = .sr then draws (stSeed k.sampled) n else ([], stSeed k.sampled)
  let out := fun rs : List Rounded =>
    (bytesOf (n * (tyWidth dt / 8)) (packElems (tyWidth dt) (rs.map Rounded.bits)), (rs.map Rounded.fl).foldl Flags.or Flags.none,
      ds.2)
  if isBlock dt then
    let r := quantise (tyBlock dt) m ds.1 ((elemsOf 32 v n).map (fun x => QIn.ofF (FFmt.f32.decode x)))
    (bytesOf (groupBytes dt) r.bits, r.fl, ds.2)
  else if isBlock st then
    out (((tyBlock st).values v).zipIdx.map (fun x => dequantDraw dt m (ds.1.getD x.2 0) x.1))
  else out ((elemsOf (tyWidth st) v n).zipIdx.map (fun x => cvtElem dt st m (ds.1.getD x.2 0) x.1))

/-- Lines written with consecutive bytes. -/
def State.putLines (s : State) (t : Nat) (k : Card) (ys : List (Nat × Nat)) (bs : List Byte) (l : Label) : State :=
  match ys with
  | [] => s
  | y :: rest => State.putLines (s.putLine t k (s.locate t k y.1 true) (bs.take y.2) l []) t k rest (bs.drop y.2) l

/-- A destination row's lines raised to the label of its source row (R202, R274). -/
def State.raiseRow (s : State) (t : Nat) (k : Card) (r : Nat) (l : Label) : State :=
  let f := shapeOf k.desc
  (cutLines (k.dst.addr.toNat + f.ds * r) k.outBytes (k.outBytes / 64 + 2)).foldl (fun u y =>
    match s.locate t k y.1 true with
    | .ok (.host _) _ => u
    | .ok x _ => u.raiseLabel x.addr y.2 l
    | _ => u) s

/-- The next group of a conversion (R274): written whole, or not at all. -/
def State.convGroup (s : State) (t e : Nat) (k : Card) : State :=
  let f := shapeOf k.desc
  let p := k.convPiece
  match s.firstBad t k (p.src.map (fun a => (a.1, false)) ++ p.dst.map (fun a => (a.1, true))) with
  | some (a, w, g) => s.stopAt t e k a w g
  | none =>
    let ins := p.src.map (fun a => (s.locate t k a.1 false, a.2))
    let outs := p.dst.map (fun a => (s.locate t k a.1 true, a.2))
    let l := s.rowLabel t k p.row
    let spots := fun xs : List (Found × Nat) => xs.map (fun g => (g.1.spot, g.2))
    if ins.any (fun g => unkeyable g.1 k.src.addr.toNat f.ss f.rb) ||
        outs.any (fun g => unkeyable g.1 k.dst.addr.toNat f.ds k.outBytes) then s.endCard t e k stBaddesc
    else if (ins ++ outs).any (fun g => s.spotKilled g.1.spot) then s.endCard t e k stTermfault
    else if outs.any (fun g => decide (g.1.limit k < l)) then s.endCard t e k 0x09
    else s.atPorts t e k.part (spots ins) (spots outs) (fun s =>
      let r := s.readLines t k p.src
      let c := k.convert r.1
      let s1 := r.2.2.putLines t k p.dst c.1 l
      let k1 := { k with flags := k.flags ||| c.2.1.bits, sampled := stWithSeed k.sampled c.2.2 }
      let s2 := if f.rb ≤ k.offset % f.rb + p.n then s1.raiseRow t k p.row l else s1
      s2.advance t e k1 p.n)

/-- One line or group of a running card; a cancelled one ends, one that waits for its lookup or its record stays (R256,
R277). -/
def State.cardLine (s : State) (t e : Nat) : State :=
  match s.cardAt t e with
  | none => s
  | some k =>
    match k.ending with
    | some st => s.endCard t e k st
    | none =>
    if k.state ≠ .running ∨ k.kind.isMatrix then s
    else if k.doomed then s.endCard t e k stHostreset
    else if k.cancel then s.endCard t e k stCancelled
    else if k.due.isSome ∨ k.miss.isSome then s
    else if k.kind = .conv then s.convGroup t e k else s.copyLine t e k

/-- Up to `n` lines or groups. -/
def State.cardLines (s : State) (t e : Nat) : Nat → State
  | 0 => s
  | n + 1 => State.cardLines (s.cardLine t e) t e n

/-- An event of a tile. -/
def tileEvent (t : Nat) (s : State) (f : State → State) : Host.Outcome State Fault Refusal :=
  if t < 512 then .next (f s) else .fault .noSuchSubject

/-- CARD_START (R256, R260). -/
def execCardStart (t e : Nat) (s : State) : Host.Outcome State Fault Refusal := tileEvent t s (fun s => s.startCopy t e)

/-- CARD_END (R256): the card's next `n` lines or groups, with its end when they are its last. -/
def execCardEnd (t e n : Nat) (s : State) : Host.Outcome State Fault Refusal := tileEvent t s (fun s => s.cardLines t e n)

/-- TLB_PROBE_RESULT (R414). -/
def execTlbProbeResult (t m : Nat) (s : State) : Host.Outcome State Fault Refusal := tileEvent t s (fun s => s.probe t m)

/-- FAULT_RECORD_POST (R421). -/
def execFaultRecordPost (t e : Nat) (s : State) : Host.Outcome State Fault Refusal := tileEvent t s (fun s => s.postFault t e)

end Sys2Proof.Machine
end

