-- ==== Sys2Proof/Machine/Matrix.lean ====
section
/-! DEFINITION. The matrix engine: planes, matrix cards, passes, the slot table (R137 to R139, R227 to R253). -/

namespace Sys2Proof.Machine

open Sys2Proof

/-- The matrix descriptor (R246). -/
structure MDesc where
  bnd : Nat
  stride : Nat
  ncb : Nat
  cb0 : Nat
  clr : Bool
  acc : Bool
  macros : Nat
  row0 : Nat
  rows : Nat
  rsv : Bool
  deriving DecidableEq, Repr

def mdescOf (w : Word) : MDesc where
  bnd := (w.extractLsb' 48 16).toNat
  stride := (w.extractLsb' 32 16).toNat
  ncb := (w.extractLsb' 24 3).toNat
  cb0 := (w.extractLsb' 21 3).toNat
  clr := w.getLsbD 20
  acc := w.getLsbD 19
  macros := (w.extractLsb' 16 2).toNat
  row0 := (w.extractLsb' 8 7).toNat
  rows := (w.extractLsb' 0 7).toNat + 1
  rsv := decide (w.extractLsb' 27 5 ≠ 0) || w.getLsbD 18 || w.getLsbD 15 || w.getLsbD 7

/-- Macros that a mask names. -/
def macrosOf (mask : Nat) : List Nat := [0, 1].filter mask.testBit

/-- Bytes of an activation row, and of a weight image, in a block format (R229, R232). -/
def rowBytes (t : Ty) : Nat := 16 * (tyBlock t).bytes
def imageSize (t : Ty) : Nat := 2048 * (tyBlock t).bytes

/-- Bytes that a row of a card's source shape counts (R263). -/
def Card.rowUnit (k : Card) : Nat := if k.kind = .mdrain then 64 * ((mdescOf k.desc).ncb + 1) else rowBytes k.typ

/-- Whether some slot of the table is FREE or belongs to an owner (R238, R240). -/
def Tile.entry (x : Tile) (slot : Nat) : BitVec 16 := x.table.look (fun _ => 0x8000#16) slot
def ownedBy (e : BitVec 16) (owner : Nat) : Bool := e.getLsbD 15 || decide ((e.extractLsb' 0 12).toNat = owner)
def Tile.hasSlot (x : Tile) (owner : Nat) : Bool := (List.range 64).any (fun i => ownedBy (x.entry i) owner)

/-- A card that no slot will ever serve ends NOSLOT at issue (R238). -/
def noSlot (t : Nat) (s : State) (e : Nat) : State :=
  match s.cardAt t e with
  | some k => if (s.tileAt t).hasSlot k.owner then s else s.endCard t e k stNoslot
  | none => s

/-- A matrix card enters the window (R247), and `post` happens unless it ends NOSLOT. -/
def State.enterMatrix (s : State) (mk : State → Card) (post : Tile → Tile) : Option (State × Word) :=
  s.enterNew mk (fun s e =>
    let t := tileOf s.core.phys
    let s1 := noSlot t s e
    match s1.cardAt t e with
    | some k => if k.state = .waiting then s1.onTile t post else s1
    | none => s1)

/-- MLOAD (R248). -/
def enterMload (a : Name) (tb mac plane : Nat) (typ : Ty) (s : State) : Option (State × Word) :=
  s.enterMatrix (fun s =>
    let c := s.core
    let k := Card.fresh .mload c tb 0 (c.rdCap a) Cap.null 0 typ
    { k with bound := mac * 2 + plane, reads := s.region c k.dst.addr (imageSize typ), writes := [.plane mac plane] }) (fun x => x)
def execMload (h : Hd) (d a : Name) (tb mac plane : Nat) (typ : Ty) (s : State) :=
  run (.mload h d a tb mac plane typ) s (issueCard (.mload h d a tb mac plane typ) d (enterMload a tb mac plane typ))

/-- The issue-order selectors of the macros of a mask flipped (R231). -/
def Tile.flipIssue (x : Tile) (mask : Nat) : Tile :=
  (macrosOf mask).foldl (fun x m => x.setMacro m { x.macro m with isel := 1 - (x.macro m).isel }) x

/-- MSWAP (R249). -/
def enterMswap (tb mask : Nat) (s : State) : Option (State × Word) :=
  s.enterMatrix (fun s => { Card.fresh .mswap s.core tb 0 Cap.null Cap.null 0 .implied with mask := mask })
    (fun x => x.flipIssue mask)
def execMswap (h : Hd) (d : Name) (tb mask : Nat) (s : State) :=
  run (.mswap h d tb mask) s (issueCard (.mswap h d tb mask) d (enterMswap tb mask))

/-- MRUN (R250). -/
def enterMrun (h : Hd) (a b : Name) (tb bound1 : Nat) (typ : Ty) (lit : BitVec 64) (s : State) : Option (State × Word) :=
  s.enterMatrix (fun s =>
    let c := s.core
    let w := c.descOf h b lit
    let f := mdescOf w
    let x := s.tileAt (tileOf c.phys)
    let k := Card.fresh .mrun c tb 0 (c.rdCap a) Cap.null w typ
    let rows := (macrosOf f.macros).map (fun m => Region.rows m f.row0 f.rows)
    let planes := (macrosOf f.macros).map (fun m => Region.plane m (x.macro m).isel)
    { k with
      bound := (if h.len = .x160 then f.bnd else bound1) + 1
      plane0 := x.m0.isel
      plane1 := x.m1.isel
      reads := s.region c k.dst.addr (spanOf f.rows f.stride (rowBytes typ)) ++ planes ++ (if f.acc then rows else [])
      writes := rows }) (fun x => x)
def execMrun (h : Hd) (d a b : Name) (tb bound1 : Nat) (typ : Ty) (lit : BitVec 64) (s : State) :=
  run (.mrun h d a b tb bound1 typ lit) s
    (issueCard (.mrun h d a b tb bound1 typ lit) d (enterMrun h a b tb bound1 typ lit))

/-- MDRAIN (R251). -/
def enterMdrain (h : Hd) (a b : Name) (tb : Nat) (scope : Scope) (lit : BitVec 64) (s : State) : Option (State × Word) :=
  s.enterMatrix (fun s =>
    let c := s.core
    let w := c.descOf h b lit
    let f := mdescOf w
    let k := Card.fresh .mdrain c tb scope.code (c.rdCap a) Cap.null w .implied
    let rows := (macrosOf f.macros).map (fun m => Region.rows m f.row0 f.rows)
    { k with
      reads := rows
      writes := s.region c k.dst.addr (spanOf f.rows f.stride (64 * (f.ncb + 1))) ++ (if f.clr then rows else []) }) (fun x => x)
def execMdrain (h : Hd) (d a b : Name) (tb : Nat) (scope : Scope) (lit : BitVec 64) (s : State) :=
  run (.mdrain h d a b tb scope lit) s
    (issueCard (.mdrain h d a b tb scope lit) d (enterMdrain h a b tb scope lit))

/-- What a card or a cancel that a mirror pair holds does when it is made, for the current core (R247, R271): where its result
goes, and the state with the result; none while the window is full. -/
def State.enterHeld (s : State) : Instr → Option (Name × State × Word)
  | .cpy h d a b tb scope lit => (enterCpy h d a b tb scope lit s).map (fun r => (d, r))
  | .cpym h d a b tb o scope lit => (enterCpym h d a b tb o scope lit s).map (fun r => (d, r))
  | .conv h d a b tb typ scope lit => (enterConv h d a b tb typ scope lit s).map (fun r => (d, r))
  | .jcancel _ d a => (cancelNamed a s).map (fun r => (d, r))
  | .mload _ d a tb mac plane typ => (enterMload a tb mac plane typ s).map (fun r => (d, r))
  | .mswap _ d tb mask => (enterMswap tb mask s).map (fun r => (d, r))
  | .mrun h d a b tb bound1 typ lit => (enterMrun h a b tb bound1 typ lit s).map (fun r => (d, r))
  | .mdrain h d a b tb scope lit => (enterMdrain h a b tb scope lit s).map (fun r => (d, r))
  | _ => some (.zr, s, 0)

/-- Whether a descriptor keeps R246. -/
def Card.mdescOk (k : Card) : Bool :=
  let f := mdescOf k.desc
  !f.rsv && decide (k.rowUnit ≤ f.stride ∧ f.row0 + f.rows ≤ 128 ∧ f.macros ≠ 0) &&
    (if k.kind = .mrun then decide (f.ncb = 0 ∧ f.cb0 = 0) && !f.clr
     else decide (f.bnd = 0 ∧ f.stride % 4 = 0 ∧ f.cb0 + f.ncb + 1 ≤ 8 ∧ f.macros ≠ 3) && !f.acc)

/-- Whether a slot's entry names an owner. -/
def isOwners (e : BitVec 16) (owner : Nat) : Bool := !e.getLsbD 15 && ownedBy e owner

/-- Whether the current slot belongs to a card (R240); its owner pays for an overrun in the slot's first cycles (R241). -/
def Tile.slotOpen (x : Tile) (owner : Nat) : Bool :=
  ownedBy (x.entry (x.slotClock / 1024)) owner &&
    (!isOwners x.slotEntry owner || (x.entry (x.slotClock / 1024)).getLsbD 15 || decide (x.stall ≤ x.slotClock % 1024))

/-- Whether a matrix card's engine part is free and its slot is current (R236, R237). -/
def Tile.partFree (x : Tile) (k : Card) : Bool :=
  let running := fun f : Card → Bool => x.cards.any (fun j => decide (j.2.state = .running) && f j.2)
  x.slotOpen k.owner &&
    (match k.kind with
     | .mrun => !running (fun j => decide (j.kind = .mrun))
     | .mload => !running (fun j => decide (j.kind = .mload ∧ j.bound / 2 = k.bound / 2))
     | .mdrain => !running (fun j => decide (j.kind = .mdrain))
     | _ => !(x.cards.any (fun j => decide (j.2.kind = .mswap) && j.2.before k && decide (j.2.state = .waiting))))

/-- An MSWAP's effect on a macro as it starts (R230, R231). -/
def Tile.swap (x : Tile) (m : Nat) : Tile :=
  let y := x.macro m
  let old := y.plane y.esel
  let new := y.plane (1 - y.esel)
  let old1 := if old.st = .active then
    { old with st := if x.planeRead m y.esel then PlaneSt.draining else PlaneSt.latched } else old
  let new1 := if new.st = .latched ∨ new.st = .draining then { new with st := PlaneSt.active } else new
  x.setMacro m { ((y.setPlane y.esel old1).setPlane (1 - y.esel) new1) with esel := 1 - y.esel }

/-- The plane that an MRUN fixed in a macro (R231). -/
def Card.planeOf (k : Card) (m : Nat) : Nat := if m = 0 then k.plane0 else k.plane1

/-- Whether an operand range of MRUN lies in the core's own store (R250). -/
def State.ownStore (s : State) (k : Card) (n : Nat) : Bool :=
  match s.reach (s.cardCore k) k.dst.addr n with
  | some (p, _) => decide (p = k.core)
  | none => false

/-- The status of the first start check that a matrix card fails (R246, R248, R250, R251). -/
def State.matrixChecks (s : State) (t : Nat) (k : Card) : Option Nat :=
  let f := mdescOf k.desc
  let x := s.tileAt t
  match k.kind with
  | .mload => s.operandStatus k k.dst (k.dst.can .load) 1 (imageSize k.typ) true
  | .mrun =>
    let n := spanOf f.rows f.stride (rowBytes k.typ)
    if !k.mdescOk then some stBaddesc
    else if (macrosOf f.macros).any (fun m => decide (((x.macro m).plane (k.planeOf m)).st = .empty)) then some stNoweights
    else
      match s.operandStatus k k.dst (k.dst.can .load) 1 n true with
      | some st => some st
      | none => if s.ownStore k n then none else some 0x06
  | .mdrain =>
    if !k.mdescOk then some stBaddesc
    else s.operandStatus k k.dst (k.dst.can .store) 4 (spanOf f.rows f.stride k.rowUnit) true
  | _ => none

/-- A matrix card starts (R230, R237, R248 to R251). -/
def State.startMatrix (s : State) (t e : Nat) : State :=
  match s.cardAt t e with
  | none => s
  | some k =>
    if !k.kind.isMatrix || !(s.mayStart t Tile.partFree (fun j => j.kind.isMatrix) k) then s
    else if k.kind = .mswap then
      let s1 := s.onTile t (fun x => (macrosOf k.mask).foldl Tile.swap x)
      let s2 := match k.slot with
        | some slot => s1.arriveSlot t slot 0 k.scope
        | none => s1
      s2.endCard t e k 0
    else
      match s.matrixChecks t k with
      | some st => s.endCard t e k st
      | none =>
        let timed := isOwners ((s.tileAt t).entry ((s.tileAt t).slotClock / 1024)) k.owner
        let s1 := s.setCard t e { k with state := .running, begun := true, after := [], timed := timed }
        if k.kind = .mload then
          s1.onTile t (fun x => x.setPlane (k.bound / 2) (k.bound % 2) ⟨.loading, tyBlock k.typ, [], 0⟩)
        else s1

/-- The place of a matrix card's bytes `off` from its operand, when it has one. -/
def State.matrixSpot (s : State) (k : Card) (off : Nat) : Option Spot :=
  (s.reach (s.cardCore k) (k.dst.addr + BitVec.ofNat 64 off) 1).map (fun p => .store p.1 p.2)

/-- A started MLOAD that ends otherwise than OK leaves its plane EMPTY (R230). -/
def State.endLoad (s : State) (t e : Nat) (k : Card) (st : Nat) : State :=
  (s.onTile t (fun x => x.setPlane (k.bound / 2) (k.bound % 2) Plane.reset)).endCard t e k st

/-- An access of a matrix card, a read or a write: it waits while its port cannot perform it (R206, R211), ends when its place is
gone, or goes on. -/
def State.matrixAccess (s : State) (t e : Nat) (k : Card) (write : Bool) (off n : Nat) (stop : Nat → State)
    (go : Spot → State → State) : State :=
  match s.matrixSpot k off with
  | none => stop 0x06
  | some x =>
    if s.spotKilled x then stop stTermfault
    else s.atPorts t e k.part (if write then [] else [(x, n)]) (if write then [(x, n)] else []) (go x)

/-- The next line of an MLOAD (R248). -/
def State.loadLine (s : State) (t e : Nat) (k : Card) : State :=
  let size := imageSize k.typ
  let n := min (size - k.offset) (64 - (k.dst.addr.toNat + k.offset) % 64)
  s.matrixAccess t e k false k.offset n (fun st => s.endLoad t e k st) (fun x s =>
    let m := k.bound / 2
    let j := k.bound % 2
    let k1 := { k with offset := k.offset + n }
    let s1 := s.onTile t (fun y =>
      let p := (y.macro m).plane j
      let last := decide (size ≤ k1.offset)
      let st := if last then (if (y.macro m).esel = j then PlaneSt.active else PlaneSt.latched) else p.st
      y.setPlane m j { p with st := st, image := p.image ++ s.bytesAt x.addr n, lab := Label.max p.lab (s.labelOver x.addr n) })
    if size ≤ k1.offset then s1.endCard t e k1 0 else s1.setCard t e k1)

/-- The exact partial of a block of A and a block of weights: an integer times a power of two (R137); none for a NaN block. -/
def blockPartial (ka kb : KFmt) (a b : Nat) : Option (Int × Int) :=
  match ka.decode a, kb.decode b with
  | .vals ea xs, .vals eb ys =>
    let sum := (List.zipWith (fun (x y : Int × Nat) => x.1 * y.1 * 2 ^ (6 - x.2 - y.2)) xs ys).foldl (· + ·) 0
    some (sum, (ea : Int) + eb - 254 - ((ka.m : Int) - 1) - ((kb.m : Int) - 1) - 6)
  | _, _ => none

/-- A partial truncated toward zero to a multiple of 2^q (R138). -/
def truncTo (q : Int) (p : Int × Int) : Int :=
  if q ≤ p.2 then p.1 * 2 ^ (p.2 - q).toNat else Int.tdiv p.1 (2 ^ (q - p.2).toNat)

/-- One pass over sixteen blocks (R138). -/
def passOf (ka kb : KFmt) (as bs : List Nat) : Rounded :=
  let ps := List.zipWith (blockPartial ka kb) as bs
  if ps.any Option.isNone then canonNan .f32 true
  else
    let xs := (ps.filterMap id).filter (fun p => decide (p.1 ≠ 0))
    match maxLog (xs.map (fun p => QIn.val p.1 p.2)) with
    | none => ⟨0, Flags.none⟩
    | some emax => FFmt.f32.roundInt .rne 0 ((xs.map (truncTo (emax - 80))).foldl (· + ·) 0) (emax - 80) false

/-- Blocks of bytes, as numbers. -/
def blocksOf (k : KFmt) (bs : List Byte) (n : Nat) : List Nat :=
  (List.range n).map (fun i => ofBytes ((bs.drop (i * k.bytes)).take k.bytes))

/-- One accumulator row of a macro written (R235). -/
def Macro.runRow (y : Macro) (p : Plane) (ka : KFmt) (as : List Nat) (row : Nat) (acc : Bool) (la : Label) : Macro × Flags :=
  let cell := fun n : Nat =>
    let pass := passOf ka p.fmt as (blocksOf p.fmt (p.image.drop (16 * n * p.fmt.bytes)) 16)
    if acc then
      let old := (y.acc.look (fun _ => 0) (row * 128 + n)).toNat
      let r := FFmt.f32.add .rne (FFmt.f32.decode old) (FFmt.f32.decode pass.bits)
      (⟨r.bits, pass.fl.or r.fl⟩ : Rounded)
    else pass
  let cells := (List.range 128).map cell
  let fl := (cells.map Rounded.fl).foldl Flags.or Flags.none
  let l0 := Label.max la p.lab
  ({ y with
    acc := y.acc.putList (fun _ => 0) (row * 128) (cells.map (fun r => BitVec.ofNat 32 r.bits))
    rowLab := y.rowLab.put (fun _ => 0) row (if acc then Label.max l0 (y.rowLab.look (fun _ => 0) row) else l0)
    sticky := y.sticky ||| fl.bits }, fl)

/-- The next row of an MRUN (R235, R250). -/
def State.runRow (s : State) (t e : Nat) (k : Card) : State :=
  let f := mdescOf k.desc
  let rb := rowBytes k.typ
  let r := k.offset / rb
  s.matrixAccess t e k false (r * f.stride) rb (fun st => s.endCard t e k st) (fun x s =>
    let as := blocksOf (tyBlock k.typ) (s.bytesAt x.addr rb) 16
    let la := s.labelOver x.addr rb
    let one := fun (acc : Tile × Flags) (m : Nat) =>
      let y := acc.1.macro m
      let z := y.runRow (y.plane (k.planeOf m)) (tyBlock k.typ) as (f.row0 + r) f.acc la
      (acc.1.setMacro m z.1, acc.2.or z.2)
    let z := (macrosOf f.macros).foldl one (s.tileAt t, Flags.none)
    let k1 := { k with offset := k.offset + rb, flags := k.flags ||| z.2.bits }
    let s1 := s.setTile t z.1
    if f.rows ≤ r + 1 then s1.endCard t e k1 0 else s1.setCard t e k1)

/-- Cells and label of a row cleared (R251). -/
def Macro.clearRow (y : Macro) (row c0 n : Nat) : Macro :=
  { y with
    acc := y.acc.putList (fun _ => 0) (row * 128 + c0) (List.replicate n 0)
    rowLab := y.rowLab.put (fun _ => 0) row 0 }

/-- The next row of an MDRAIN (R251). -/
def State.drainRow (s : State) (t e : Nat) (k : Card) : State :=
  let f := mdescOf k.desc
  let r := k.offset / k.rowUnit
  let m := f.macros - 1
  let row := f.row0 + r
  let n := 16 * (f.ncb + 1)
  let y := (s.tileAt t).macro m
  let l := y.rowLab.look (fun _ => 0) row
  s.matrixAccess t e k true (r * f.stride) k.rowUnit (fun st => s.endCard t e k st) (fun x s =>
    if k.dst.label < l then s.endCard t e k 0x09
    else
      let bs := (y.acc.lookList (fun _ => 0) (row * 128 + 16 * f.cb0) n).flatMap (fun v => bytesOf 4 v.toNat)
      let s1 := s.writeSpot t k x none bs l []
      let s2 := if f.clr then s1.onTile t (fun z => z.setMacro m ((z.macro m).clearRow row (16 * f.cb0) n)) else s1
      let k1 := { k with offset := k.offset + k.rowUnit }
      if f.rows ≤ r + 1 then s2.endCard t e k1 0 else s2.setCard t e k1)

/-- One line or row of a running matrix card. -/
def State.matrixLine (s : State) (t e : Nat) : State :=
  match s.cardAt t e with
  | none => s
  | some k =>
    match k.ending with
    | some st => s.endCard t e k st
    | none =>
    if k.state ≠ .running then s
    else
      match k.kind with
      | .mload => s.loadLine t e k
      | .mrun => s.runRow t e k
      | .mdrain => s.drainRow t e k
      | _ => s

/-- Up to `n` lines or rows of a card of a kind. -/
def State.matrixLines (s : State) (t e : Nat) (kind : CardKind) : Nat → State
  | 0 => s
  | n + 1 =>
    match s.cardAt t e with
    | some k => if k.kind = kind then State.matrixLines (s.matrixLine t e) t e kind n else s
    | none => s

/-- MATRIX_CARD_START (R237). -/
def execMatrixCardStart (t e : Nat) (s : State) : Host.Outcome State Fault Refusal := tileEvent t s (fun s => s.startMatrix t e)

/-- MLOAD_END, MRUN_END, MDRAIN_END (R248, R250, R251): the card's next `n` lines or rows, with its end when they are its
last. -/
def execMloadEnd (t e n : Nat) (s : State) : Host.Outcome State Fault Refusal := tileEvent t s (fun s => s.matrixLines t e .mload n)
def execMrunEnd (t e n : Nat) (s : State) : Host.Outcome State Fault Refusal := tileEvent t s (fun s => s.matrixLines t e .mrun n)
def execMdrainEnd (t e n : Nat) (s : State) : Host.Outcome State Fault Refusal := tileEvent t s (fun s => s.matrixLines t e .mdrain n)

/-- MRUN_WATCHDOG (R243): an MRUN that still runs 2 × bound cycles after its start. -/
def execMrunWatchdog (t e : Nat) (s : State) : Host.Outcome State Fault Refusal :=
  tileEvent t s (fun s =>
    match s.cardAt t e with
    | some k =>
      if k.kind = .mrun ∧ k.state = .running ∧ k.ending.isNone then
        (s.endCard t e k 0x14).onCore k.core (fun c => { c with dueWatchdog := c.dueWatchdog ++ [BitVec.ofNat 64 (k.handle e)] })
      else s
    | none => s)

/-- The owner whose card holds the slot clock at the end of the current slot (R241): one that started in a slot of its owner, or
that ran when the slot became current.  A change of the slot's entry does not affect it (R252).  Where cards of two owners hold one
boundary, the first in entry order is charged (notes/assumptions/111.md). -/
def Tile.overrunner (x : Tile) : Option Nat :=
  let holds := fun j : Nat × Card =>
    decide (j.2.state = .running) && j.2.kind.isMatrix && (j.2.timed || isOwners x.slotEntry j.2.owner)
  (x.cards.find? holds).map (fun j => j.2.owner)

/-- The next slot becomes current; its owner pays for its overrun (R240, R241). -/
def Tile.nextSlot (x : Tile) : Tile :=
  let at_ := (x.slotClock / 1024 + 1) % 64
  let e := x.entry at_
  let owner := (e.extractLsb' 0 12).toNat
  let late := x.overrun.look (fun _ => 0) owner
  let m := if e.getLsbD 15 then 0 else min late 1024
  { x with slotClock := at_ * 1024, slotEntry := e, stall := m, overrun := x.overrun.put (fun _ => 0) owner (late - m) }

/-- Slot-clock cycles that pass for the cards that no slot of the table would serve (R252). -/
def Tile.starveBy (x : Tile) (n : Nat) : Tile :=
  let one := fun j : Nat × Card =>
    if j.2.kind.isMatrix && decide (j.2.state = .waiting) && !x.hasSlot j.2.owner then
      (j.1, { j.2 with starve := min 65536 (j.2.starve + n) })
    else (j.1, { j.2 with starve := 0 })
  { x with cards := x.cards.map one }

/-- MATRIX_SLOT_BOUNDARY (R240, R241): `n` cycles of the slot clock pass, at most to the next boundary, where it holds while
a card of the slot's owner runs: those cycles are charged. -/
def execMatrixSlotBoundary (t n : Nat) (s : State) : Host.Outcome State Fault Refusal :=
  tileEvent t s (fun s => s.onTile t (fun x =>
    let pos := x.slotClock % 1024
    if pos + n < 1024 then { x with slotClock := x.slotClock + n }.starveBy n
    else
      match x.overrunner with
      | none => x.nextSlot.starveBy (1024 - pos)
      | some owner =>
        let late := x.overrun.look (fun _ => 0) owner
        { x with
          slotClock := x.slotClock / 1024 * 1024 + 1023
          overrun := x.overrun.put (fun _ => 0) owner (late + (pos + n - 1023)) }.starveBy (1023 - pos)))

/-- A card that waits, and that no slot of the table has served for a whole rotation, ends NOSLOT (R252). -/
def State.noslotCard (s : State) (t e : Nat) : State :=
  match s.cardAt t e with
  | some k =>
    if k.state = .waiting ∧ k.kind.isMatrix ∧ !(s.tileAt t).hasSlot k.owner ∧ 65536 ≤ k.starve then
      s.endCard t e k stNoslot else s
  | none => s

/-- NOSLOT_TIMEOUT (R252). -/
def execNoslotTimeout (t e : Nat) (s : State) : Host.Outcome State Fault Refusal := tileEvent t s (fun s => s.noslotCard t e)

/-- MSLOT (R252). -/
def execMslot (h : Hd) (a : Name) (slot : Nat) (s : State) :=
  run (.mslot h a slot) s (fun s =>
    onceBy (s.engineMine (atPos 15)) false s (fun s =>
      let v : BitVec 16 := (s.core.rd a).v.setWidth 16
      .done (s.onTile (tileOf s.core.phys) (fun x =>
        { x with table := x.table.put (fun _ => 0x8000#16) slot v }.starveBy 0)) []))

def PlaneSt.code : PlaneSt → Nat
  | .empty => 0 | .loading => 1 | .latched => 2 | .active => 3 | .draining => 4

def KFmt.code : KFmt → Nat
  | .kb2 => 1 | .kb4 => 2 | .kb7 => 3

/-- A plane's byte of MSTAT.planes (R253). -/
def Macro.planeByte (y : Macro) (j : Nat) : Nat :=
  let p := y.plane j
  p.st.code + (decide (y.esel = j)).toNat * 8 + (if p.st = .empty then 0 else p.fmt.code) * 16

/-- What MSTAT samples (R253). -/
def Tile.mstat (x : Tile) (sel owner : Nat) : Nat :=
  match sel with
  | 0 => x.m0.planeByte 0 + x.m0.planeByte 1 * 2 ^ 8 + x.m1.planeByte 0 * 2 ^ 16 + x.m1.planeByte 1 * 2 ^ 24
  | 2 =>
    x.slotClock / 1024 + x.slotClock % 1024 * 2 ^ 6 + (x.entry (x.slotClock / 1024)).toNat * 2 ^ 16 +
      x.overrun.look (fun _ => 0) owner % 2 ^ 32 * 2 ^ 32
  | _ => x.m0.sticky.toNat + x.m1.sticky.toNat * 2 ^ 8

/-- MSTAT (R253). -/
def execMstat (h : Hd) (d : Name) (fsel : Nat) (s : State) :=
  run (.mstat h d fsel) s (fun s =>
    onceBy (s.engineMine (atPos 15)) true s (fun s =>
      let t := tileOf s.core.phys
      let x := s.tileAt t
      let s1 := if fsel = 0x0101 then
        s.setTile t { x with m0 := { x.m0 with sticky := 0 }, m1 := { x.m1 with sticky := 0 } } else s
      .done s1 (s.core.wordResult d (BitVec.ofNat 64 (x.mstat fsel s.core.lo)))))

end Sys2Proof.Machine
end

