-- ==== Sys2Proof/Machine/Launch.lean ====
section
/-! DEFINITION. Launches: kernel headers, shape records, region control blocks, the child pools and the dispatchers, and SPAWN,
SHAPE, KSTAT (R360 to R380). -/

namespace Sys2Proof.Machine

open Sys2Proof

/-- A core's store cleared whole: zero lines, and no record bound there (R212, R370). -/
def State.clearStore (s : State) (p : Nat) : State :=
  let t := s.zeroRange (lsBase p) lsSize
  { t with armed := t.armed.clearRange (lsBase p) (lsBase p + lsSize) }

/-- A store as it is saved (R212, R281, R437): the awake groups. -/
def State.storeImg (s : State) (p : Nat) : StoreImg :=
  let c := s.coreAt p
  let awake := fun off : Nat => decide (c.groupSt (off / 0x20000) ≠ .sleeping)
  let a := lsBase p
  { armed := (s.armed.range a (a + lsSize)).map (fun e => (e.1 - a, e.2))
    bytes := ((s.mem.range a (a + lsSize)).map (fun e => (e.1 - a, e.2))).filter (fun e => awake e.1)
    labels := ((s.labels.range (a / 64) ((a + lsSize) / 64)).map (fun e => (e.1 - a / 64, e.2))).filter (fun e => awake (64 * e.1))
    tags := ((s.tags.range (a / 16) ((a + lsSize) / 16)).map (fun e => (e.1 - a / 16, e.2))).filter (fun e => awake (16 * e.1)) }

/-- A store from its image. -/
def State.putStore (s : State) (p : Nat) (x : StoreImg) : State :=
  let a := lsBase p
  let s1 := s.clearStore p
  { s1 with
    armed := x.armed.foldl (fun m e => m.list (a + e.1) e.2) s1.armed
    mem := x.bytes.foldl (fun m e => m.put (fun _ => 0) (a + e.1) e.2) s1.mem
    labels := x.labels.foldl (fun m e => m.put (fun _ => 0) (a / 64 + e.1) e.2) s1.labels
    tags := x.tags.foldl (fun m e => m.put (fun _ => false) (a / 16 + e.1) e.2) s1.tags }

/-- What an address of a partition reaches for its dispatcher: physical memory, nothing, or a page that no tile cache of the
partition translates yet (notes/assumptions/14.md). -/
inductive Reached where
  | mem (a : Nat)
  | wait
  | bad
  deriving DecidableEq, Repr

/-- The tile and the entry through which a partition's dispatcher translates an address. -/
def State.dispEntry (s : State) (part x : Nat) : Option (Nat × TEntry) :=
  s.tiles.findSome? (fun e => (e.2.match part x).map (fun y => (e.1, y)))

/-- A partition's address as its dispatcher reaches it (R360, R362): a place in a store whose core holds another partition's context,
or is evicted, is not reached yet (R207, R436). -/
def State.dispReach (s : State) (part x n : Nat) : Reached :=
  let store := fun p off : Nat => if s.unreachable part p then Reached.wait else .mem (lsBase p + off)
  if x < 2 ^ 47 then
    match s.dispEntry part x with
    | none => .wait
    | some (_, e) =>
      match s.reachPhys part e false (teAddr e x) with
      | .ok (.host _) _ => .bad
      | .ok (.store p off) _ => if teR e then store p off else .bad
      | .ok y _ => if teR e then .mem y.addr else .bad
      | _ => .bad
  else if selfWindow ≤ x then .bad
  else
    match s.reach (partCore part) (BitVec.ofNat 64 x) n with
    | some (p, off) => store p off
    | none => .bad

/-- Whether its dispatcher may write there (R411); an address that no tile cache translates any more counts as it was found. -/
def State.dispWrites (s : State) (part x : Nat) : Bool :=
  decide (2 ^ 47 ≤ x) || ((s.dispEntry part x).map (fun e => teW e.2)).getD true

/-- The page of an address logged before its dispatcher writes there (R422). -/
def State.dispDirty (s : State) (part x : Nat) : State :=
  if 2 ^ 47 ≤ x then s
  else
    match s.dispEntry part x with
    | some (t, e) => s.logDirty t e
    | none => s

/-- The core whose store holds a physical address; none for HBM. -/
def storeOf (a : Nat) : Option Nat :=
  if (storesBase ≤ a ∧ a < storesBase + 2 ^ 32) ∨ 0x800000000000 ≤ a then some (ownerOf a) else none

/-- A dispatcher's write of bytes at a physical address that one of its partition leads to: to every copy of a store (R289, R422). -/
def State.dispStore (s : State) (part x a : Nat) (bs : List Byte) : State :=
  if !s.dispWrites part x then s
  else
    match storeOf a with
    | some _ => (s.dispDirty part x).objWrite a bs.length (fun y t => t.store y bs 0)
    | none => (s.dispDirty part x).store a bs 0

/-- Consecutive words of a partition's memory, each granule where its own address leads (R362); none, and whether that is because a
page is not reached yet. -/
def State.dispWords (s : State) (part x n : Nat) : Option (List Word) × Bool :=
  let rs := (List.range ((n + 1) / 2)).map (fun i => s.dispReach part (x + 16 * i) 16)
  let one := fun r : Reached => match r with
    | .mem a => [BitVec.ofNat 64 (s.numAt a 8), BitVec.ofNat 64 (s.numAt (a + 8) 8)]
    | _ => []
  if rs.contains .bad then (none, false) else if rs.contains .wait then (none, true) else (some ((rs.flatMap one).take n), false)

/-- Consecutive words of memory. -/
def State.wordsAt (s : State) (a n : Nat) : List Word := (List.range n).map (fun i => BitVec.ofNat 64 (s.numAt (a + 8 * i) 8))

/-- An RCB as it stands in memory (R364). -/
structure Rcb where
  cores : Nat
  lsb : Nat
  qent : Nat
  quota : Nat
  prio : Nat
  fdom : Nat
  ovr : Nat
  mbox : Cap
  parent : Cap
  deriving DecidableEq, Repr

def State.rcbAt (s : State) (a : Nat) : Rcb :=
  let b := s.numAt (a + 32) 8
  let c := s.numAt (a + 56) 8
  { cores := b % 2 ^ 16
    lsb := b / 2 ^ 16 % 2 ^ 32
    qent := s.numAt (a + 40) 8
    quota := s.numAt (a + 48) 8
    prio := c % 16
    fdom := c / 2 ^ 8 % 2 ^ 8
    ovr := c / 2 ^ 16 % 64
    mbox := s.granule (a + 16)
    parent := s.granule a }

/-- An RCB as its partition has it: in the saved image of a core that holds another partition's context (R365, R436). -/
def State.rcbSeen (s : State) (part a : Nat) : Rcb :=
  match storeOf a with
  | none => s.rcbAt a
  | some p =>
    if !s.away part p then s.rcbAt a
    else
      match s.imageOf part p with
      | some x => (s.putStore p x.store).rcbAt a
      | none => (s.clearStore p).rcbAt a

/-- The physical addresses of an RCB and those above it, nearest first (R362, R365), and whether a page on the way is not reached
yet; `fuel` ends a ring of RCBs. -/
def State.rcbWalk (s : State) (part : Nat) : Nat → Cap → List Nat × Bool
  | 0, _ => ([], false)
  | fuel + 1, c =>
    if !c.tag then ([], false)
    else
      match s.dispReach part c.addr.toNat 128 with
      | .mem a =>
        let r := State.rcbWalk s part fuel (s.rcbAt a).parent
        (a :: r.1, r.2)
      | .wait => ([], true)
      | .bad => ([], false)

/-- How many RCBs a path may have. -/
def rcbDepth : Nat := 4096

/-- The effective values along a path, from the root down (R365). -/
def State.effective (s : State) (part : Nat) : List Nat → Rcb
  | [] => ⟨0, 0, 0, 0, 0, 0, 0, Cap.null, Cap.null⟩
  | [a] => s.rcbSeen part a
  | a :: rest =>
    let r := s.rcbSeen part a
    let p := State.effective s part rest
    let least := fun (i x y : Nat) => if r.ovr.testBit i then min x y else y
    { r with
      cores := least 0 r.cores p.cores
      lsb := least 1 r.lsb p.lsb
      qent := least 2 r.qent p.qent
      quota := least 3 r.quota p.quota
      prio := least 4 r.prio p.prio
      fdom := if r.ovr.testBit 5 then r.fdom else p.fdom }

/-- A kernel's RCB and those above it: as they stand, or as they were last found while a page on the way is not reached (R365). -/
def State.pathOf (s : State) (k : Kernel) : List Nat :=
  let r := s.rcbWalk k.part rcbDepth k.rcb
  if r.2 || r.1.isEmpty then k.path else r.1

def Team.placed (t : Team) : Bool := decide (t.st = .placed ∨ t.st = .swappingOut ∨ t.st = .swappingIn)
def Kernel.placedCores (k : Kernel) : Nat := ((k.teams.filter Team.placed).map Team.n).foldl (· + ·) 0

/-- Whether a kernel is live (R362, R363). -/
def Kernel.live (k : Kernel) : Bool := decide (k.st = .accepted ∨ k.st = .running ∨ k.st = .draining)

/-- Cores that a kernel has placed, or can still place on the tiles that it holds (R365, R366). -/
def Kernel.claimedCores (k : Kernel) : Nat :=
  max k.placedCores (min k.tiles.length (k.teams.filter (fun t => decide (t.st ≠ .done))).length * min 16 k.cores)

/-- A sum over the live kernels below an RCB, itself among them. -/
def State.sumUnder (s : State) (f : Kernel → Nat) (a : Nat) : Nat :=
  (s.kernels.filter (fun k => k.2.live && (s.pathOf k.2).contains a)).foldl (fun n k => n + f k.2) 0

/-- How many cores a path still has room for beside what its kernels have claimed, or have placed (R365). -/
def State.roomBeside (s : State) (f : Kernel → Nat) (part : Nat) (path : List Nat) : Nat :=
  path.zipIdx.foldl (fun n a => min n ((s.effective part (path.drop a.2)).cores - s.sumUnder f a.1)) 8192
def State.coreRoom (s : State) (part : Nat) (path : List Nat) : Nat := s.roomBeside Kernel.claimedCores part path
def State.placeRoom (s : State) (part : Nat) (path : List Nat) : Nat := s.roomBeside Kernel.placedCores part path

/-- The children of every pool and ring that count at an RCB (R374). -/
def State.pendingUnder (s : State) (a : Nat) : Nat :=
  let here := fun c : Child =>
    match c.parent.bind (fun k => s.kernels.listed k) with
    | some k => (s.pathOf k).contains a
    | none => false
  s.dies.foldl (fun n d => n + (d.2.pool.filter here).length + (d.2.backing.map (fun b => (b.2.filter here).length)).foldl (· + ·) 0) 0

/-- A dimension of a shape record (R372). -/
structure Dim where
  extent : Nat
  split : Nat
  factor : Nat
  halo : Nat
  deriving DecidableEq, Repr

def dimOf (ws : List Word) (d : Nat) : Dim :=
  let x := (ws.getD (8 + 4 * d) 0).toNat
  let c := (ws.getD (9 + 4 * d) 0).toNat
  ⟨x, c % 4, c / 2 ^ 16 % 2 ^ 16, c / 2 ^ 32⟩

/-- NDIM, CORES and the validity of a shape record of 32 words (R372). -/
def shapeDims (ws : List Word) : Nat := (ws.getD 0 0).toNat % 8
def shapeCores (ws : List Word) : Nat := ((List.range (shapeDims ws)).map (fun d => (dimOf ws d).factor)).foldl (· * ·) 1
def shapeValid (ws : List Word) : Bool :=
  let n := shapeDims ws
  let dimOk := fun d : Nat =>
    let m := dimOf ws d
    decide (1 ≤ m.extent ∧ m.extent < 2 ^ 32 ∧ 1 ≤ m.factor) && (decide (m.split ≠ 3) || decide (1 ≤ m.halo)) &&
      decide ((ws.getD (9 + 4 * d) 0).toNat % 2 ^ 16 < 4 ∧ ws.getD (10 + 4 * d) 0 = 0 ∧ ws.getD (11 + 4 * d) 0 = 0)
  decide (1 ≤ n ∧ n ≤ 6) && (List.range n).all dimOk && decide (shapeCores ws ≤ 8192) &&
    ((List.range 24).all (fun i => decide (i < 4 * n) || decide (ws.getD (8 + i) 0 = 0)))

/-- The reserved bits of SHDR and KID (R372). -/
def shapeClean (ws : List Word) : Bool :=
  let h := (ws.getD 0 0).toNat
  decide (h / 8 % 2 = 0 ∧ h / 64 % 2 ^ 10 = 0 ∧ h / 2 ^ 48 = 0 ∧ (ws.getD 1 0).toNat / 2 ^ 32 = 0)

/-- Teams of a kernel of `n` cores: their sizes (R372). -/
def teamSizes (n : Nat) : List Nat := (List.range ((n + 15) / 16)).map (fun i => min 16 (n - 16 * i))

/-- Whether the boot mask sets a position of a tile aside (R468). -/
def State.setAside (s : State) (t pos : Nat) : Bool := (s.roleOf (tileCore t pos)).isSome

/-- The core that stands at a position of a tile: the spare of a remapped one (R472). -/
def State.memberAt (s : State) (t pos : Nat) : Nat := s.physOfIndex (chipIndex (tileCore t pos))

/-- The tiles of a partition that are eligible for a team of `n` cores, in chip order (R369). -/
def State.eligible (s : State) (part n : Nat) : List Nat :=
  let p := s.partAt part
  (List.range 512).filter (fun t =>
    decide (p.base ≤ 16 * t ∧ 16 * t + 16 ≤ p.base + p.len) &&
      (List.range n).all (fun pos => !s.setAside t pos && decide ((s.coreAt (s.memberAt t pos)).cstate ≠ .killed)))

/-- Whether a kernel of a partition holds a tile (R366, R369). -/
def State.claimed (s : State) (part t : Nat) : Bool := s.kernels.any (fun k => k.2.live && decide (k.2.part = part) && k.2.tiles.contains t)

/-- The swapping allowance W of R366. -/
def swapW : Nat := 262144

/-- Whether M tiles keep the inequality of R366. -/
def parFits (teams m quota : Nat) : Bool := decide (0 < m ∧ ((teams + m - 1) / m) * (quota + swapW) ≤ 4000000)

/-- The effective QUOTA, clamped (R364). -/
def clampQuota (q : Nat) : Nat := max 4096 (min 2000000 q)

/-- How many tiles a launch of a class would claim out of some free ones and room for some cores; 0 for none (R366). -/
def claimCount (cls teams n quota free room : Nat) : Nat :=
  match cls with
  | 0 => if teams ≤ free ∧ teams * n ≤ room then teams else 0
  | 1 =>
    let m := min (min teams free) (room / n)
    if parFits teams m quota then m else 0
  | _ => min (min teams free) (room / n)

/-- What a dispatcher finds of a launch: rejected with a status and what is known of its RCB; not now, and whether it is a CONC launch
that waits for tiles; not to be read yet; or accepted. -/
inductive Verdict where
  | reject (status : Nat) (rcb : Option Nat)
  | hold (rcb : Nat) (conc : Bool)
  | unread
  | accept (k : Kernel) (rcb : Nat)
  deriving DecidableEq, Repr

/-- What a header's capabilities must be (R360, R362). -/
def headerCaps (pcc image rcb : Cap) : Bool :=
  pcc.tag && image.tag && rcb.tag && decide (pcc.otype = 0 ∧ image.otype = 0 ∧ rcb.otype = 0) && pcc.can .exec &&
    image.can .load && image.can .caprd && rcb.can .load && rcb.can .store && rcb.can .caprd

/-- The lens of a context image's slot (R362). -/
def lensSlotOk (l : Cap) : Bool :=
  l.tag && decide (l.otype = 2) && l.lensOk && decide (l.addr.toNat % 2 = 0 ∧ (l.addr.toNat : Int) + 1 < l.top)

/-- The fields of IMGCTL in bytes (R360): section length, shape record, arguments, lens. -/
def imgLen (w : Word) : Nat := 16 * (w.toNat / 2 ^ 48)
def imgShape (w : Word) : Nat := 16 * (w.toNat / 2 ^ 32 % 2 ^ 16)
def imgArg (w : Word) : Option Nat := if w.toNat / 2 ^ 16 % 2 ^ 16 = 0xFFFF then none else some (16 * (w.toNat / 2 ^ 16 % 2 ^ 16))
def imgLens (w : Word) : Nat := 16 * (w.toNat % 2 ^ 16)

/-- Kernel states by their codes (R363). -/
def KSt.code : KSt → Nat
  | .submitted => 1 | .accepted => 2 | .running => 3 | .draining => 4 | .done => 5 | .rejected => 6 | .aborted => 7

/-- Whether a header's RCB capability is one that leads to an RCB (R360, R362). -/
def rcbCapOk (rcb : Cap) : Bool :=
  rcb.tag && decide (rcb.otype = 0) && rcb.can .load && rcb.can .store && rcb.can .caprd && rcb.covers rcb.addr.toNat 128 &&
    decide (rcb.addr.toNat % 128 = 0)

/-- The launch checks of R362 on a record of a partition, by a queue or, with its parent, from a child pool.  A rejection names the
RCB wherever the header leads to one. -/
def State.judge (s : State) (part : Nat) (child : Bool) (parent : Option Nat) (ws : List Word) : Verdict :=
  let w := fun i => (ws.getD i 0)
  let cls := (w 1).toNat % 4
  let header := (w 0).toNat
  if header % 128 ≠ 0 then .reject 3 none
  else
    match s.dispReach part header 128 with
    | .bad => .reject 3 none
    | .wait => .unread
    | .mem h =>
      let pcc := s.granule h
      let image := s.granule (h + 16)
      let rcb := s.granule (h + 32)
      let ctl := BitVec.ofNat 64 (s.numAt (h + 64) 8)
      let base := image.addr.toNat
      let clean := decide ((w 1).toNat / 4 = 0 ∧ w 3 = 0 ∧ cls ≠ 3 ∧ s.numAt (h + 48) 16 = 0 ∧ s.numAt (h + 72) 56 = 0)
      match (if rcbCapOk rcb then s.dispReach part rcb.addr.toNat 128 else .bad) with
      | .wait => .unread
      | .bad => .reject 3 none
      | .mem r =>
        if !clean || !headerCaps pcc image rcb || !image.covers base (imgLen ctl) || decide (0x1FF0 < imgLen ctl / 16) ||
            decide (imgLen ctl < imgLens ctl + 16) then .reject 3 (some r)
        else
        let inside := decide (imgShape ctl + 256 ≤ imgLen ctl)
        match s.rcbWalk part rcbDepth rcb, s.dispReach part (base + imgLens ctl) 16,
            (if inside then s.dispWords part (base + imgShape ctl) 32 else (some [], false)) with
        | (_, true), _, _ => .unread
        | _, .wait, _ => .unread
        | _, _, (_, true) => .unread
        | (path, false), .mem l, (some shape, _) =>
          let top := match child, parent.bind (fun k => s.kernels.listed k) with
            | true, some k => k.rcb
            | _, _ => (s.partAt part).root
          let above := match s.dispReach part top.addr.toNat 128 with
            | .mem a => (path.take 17).contains a
            | _ => false
          let eff := s.effective part path
          let cores := shapeCores shape
          let n := min cores 16
          let teams := (teamSizes cores).length
          let quota := clampQuota eff.quota
          let tiles := s.eligible part n
          let busy := s.kernels.any (fun k => k.2.live && decide ((s.pathOf k.2).head? = some r))
          let best := fun room => claimCount cls teams n quota tiles.length room
          if !lensSlotOk (s.granule l) || !above then .reject 3 (some r)
          else if !(inside && shapeValid shape && shapeClean shape) then .reject 4 (some r)
          else if busy then .reject 7 (some r)
          else if eff.lsb < imgLen ctl ∨ claimCount cls teams n quota 8192 eff.cores = 0 then .reject 2 (some r)
          else if best 8192 = 0 then .reject 1 (some r)
          else
            let free := tiles.filter (fun t => !s.claimed part t)
            let m := claimCount cls teams n quota free.length (s.coreRoom part path)
            if m = 0 then .hold r (decide (cls = 0 ∧ free.length < teams))
            else
              let team := fun k => (⟨k, .unplaced, 0, s.clock, quota, false, [], none⟩ : Team)
              .accept { part := part, parent := parent, kid := (s.partAt part).kids % 2 ^ 32, cls := cls, header := header,
                        user := (ws.drop 4).take 4, cookie := w 2, pcc := pcc, image := image, imgctl := ctl, shape := shape,
                        rcb := rcb, path := path, st := .accepted, status := 0, used := 0, tiles := free.take m,
                        teams := (teamSizes cores).map team, cores := cores, abort := false, post := false } r
        | _, _, _ => .reject 3 (some r)

/-- A head that a dispatcher may serve: where it waits, its number among those of its die, its record. -/
structure LHead where
  num : Nat
  part : Nat
  prio : Nat
  weight : Nat
  parent : Option Nat
  words : List Word
  deriving DecidableEq, Repr

/-- The number that stands for a die's child pool, after every queue (R368). -/
def poolNum : Nat := 16384

/-- The effective priority of a head (R368). -/
def State.headPrio (s : State) (prio since : Nat) : Nat := min 15 (prio + (s.clock - since) / 2000000)

/-- The RCB capability of a header (R360). -/
def State.headerRcb (s : State) (part header : Nat) : Cap :=
  match s.dispReach part header 128 with
  | .mem h => s.granule (h + 32)
  | _ => Cap.null

/-- The heads of a die's LAUNCH queues and its child pool (R368, R374). -/
def State.headsOf (s : State) (d : Nat) : List LHead :=
  let qs := (s.queues.filter (fun e => decide (queueDie e.1 = d) && decide (e.2.kind = 2 ∧ e.2.st = .on ∧ e.2.count ≠ 0))).map (fun e =>
    let q := e.2
    let head := match q.seg with
      | x :: _ => x
      | [] => s.entryAt (q.slotAddr q.head)
    (⟨e.1, q.part, s.headPrio q.prio q.since, q.weight, none, head.words⟩ : LHead))
  match (s.dieAt d).pool with
  | [] => qs
  | c :: _ =>
    let rcb := s.headerRcb c.part (c.words.headD 0).toNat
    let prio := (s.effective c.part (s.rcbWalk c.part rcbDepth rcb).1).prio
    qs ++ [⟨poolNum, c.part, s.headPrio prio c.since, 16, c.parent, c.words⟩]

/-- Whether a partition's launches wait (R435). -/
def State.launchWaits (s : State) (part : Nat) : Bool := decide (part ≠ 0 ∧ (s.partAt part).st ≠ .run)

/-- Whether a kernel has a child that runs (R374). -/
def State.childRuns (s : State) (parent : Option Nat) : Bool :=
  parent.isSome && s.kernels.any (fun k => decide (k.2.parent = parent ∧ k.2.st = .running))

/-- Whether a pool of `n` children takes another one of a kernel: the last 256 entries are for those that have a running child (R374). -/
def State.poolTakes (s : State) (n : Nat) (parent : Option Nat) : Bool :=
  decide (n < 3840) || (decide (n < 4096) && s.childRuns parent)

/-- The descriptor of a partition's backing ring on a die (R374, R432); its layout is that of R422 (notes/assumptions/112.md). -/
def State.childRing (s : State) (part d : Nat) : Nat := (s.partAt part).child + 32 * d

/-- A record put at a ring's tail. -/
def State.ringChild (s : State) (d : Nat) (c : Child) : State :=
  let r := s.childRing c.part d
  let tail := s.numAt (r + 16) 8
  let at_ := s.numAt r 8 + 64 * (tail % max 1 (s.ringLen r))
  (s.putEntry at_ ⟨c.words, c.tags, c.lab⟩).store (r + 16) (bytesOf 8 ((tail + 1) % 2 ^ 64)) 0

/-- A ring's head after some of its records have left it. -/
def State.ringShrunk (s : State) (part d n : Nat) : State :=
  let r := s.childRing part d
  s.store (r + 24) (bytesOf 8 ((s.numAt (r + 16) 8 + 2 ^ 64 - n) % 2 ^ 64)) 0

/-- The children of a partition's ring that the pool takes move up, in order (R374). -/
def State.refillRing (s : State) (d part : Nat) : Nat → State
  | 0 => s
  | fuel + 1 =>
    let x := s.dieAt d
    match x.backing.look (fun _ => []) part with
    | c :: rest =>
      if s.poolTakes x.pool.length c.parent then
        let s1 := s.setDie d { x with pool := x.pool ++ [c], backing := x.backing.put (fun _ => []) part rest }
        State.refillRing (s1.ringShrunk part d rest.length) d part fuel
      else s
    | [] => s

/-- The pool of a die refilled from the rings. -/
def State.refillPool (s : State) (d : Nat) : State :=
  (s.dieAt d).backing.foldl (fun u b => u.refillRing d b.1 b.2.length) s

/-- A pool that has lost children: it refills from its rings, and a child that has become its head counts its time from now (R368,
R374). -/
def State.afterLoss (s : State) (d : Nat) (old : Option Child) : State :=
  let s1 := s.refillPool d
  let y := s1.dieAt d
  match y.pool with
  | c :: rest => if old = some c then s1 else s1.setDie d { y with pool := { c with since := s.clock } :: rest }
  | [] => s1

/-- A head taken off its queue or pool. -/
def State.takeHead (s : State) (d : Nat) (h : LHead) : State :=
  if h.num = poolNum then State.afterLoss (s.setDie d { s.dieAt d with pool := (s.dieAt d).pool.tail }) d none
  else ((s.refill h.num).dropHead h.num).retryFor h.num

/-- COUNT of an RCB (R364): live teams, placed teams, outstanding cards. -/
def State.countOf (s : State) (k : Kernel) : Word :=
  let live := if k.live then (k.teams.filter (fun t => decide (t.st ≠ .done))).length else 0
  let placed := (k.teams.filter Team.placed).length
  let open_ := fun cs : SMap Card => (cs.filter (fun c => decide (c.2.state ≠ .ended ∧ c.2.part = k.part))).length
  let kept := fun t : Nat => ((s.tileImages.listed (k.part * 512 + t)).map (fun x => open_ x.tile.cards)).getD 0
  let cards := k.tiles.foldl (fun n t => n + open_ (s.tileAt t).cards + kept t) 0
  let saved := k.teams.foldl (fun n t => n + ((t.tileImg.map (fun x => open_ x.tile.cards)).getD 0)) 0
  BitVec.ofNat 64 (live + placed * 2 ^ 16 + (cards + saved) * 2 ^ 32)

/-- Whether a team runs: it is placed, and its tile holds it (R436). -/
def Team.runs (s : State) (t : Team) (n i : Nat) : Bool := decide (t.st = .placed) && decide ((s.tileAt t.tile).team = some (n, i))

/-- USED (R364): core-cycles run, with those of the teams that run now. -/
def State.usedOf (s : State) (n : Nat) (k : Kernel) : Nat :=
  min (2 ^ 64 - 1) ((k.teams.zipIdx.filter (fun x => x.1.runs s n x.2)).foldl (fun n x => n + x.1.n * x.1.ran s.clock) k.used)

/-- The dispatcher's fields of an RCB written (R364), at the physical address `a` that the partition's address `x` leads to. -/
def State.writeRcb (s : State) (part x a : Nat) (st status kid : Nat) (count : Word) (used : Nat) : State :=
  s.dispStore part x (a + 64) (bytesOf 8 count.toNat ++ bytesOf 8 (st + status * 2 ^ 8 + kid * 2 ^ 32) ++ bytesOf 8 used)

/-- KSTATE of an RCB alone (R362, R363). -/
def State.writeKstate (s : State) (part x a : Nat) (st status kid : Nat) : State :=
  s.dispStore part x (a + 72) (bytesOf 8 (st + status * 2 ^ 8 + kid * 2 ^ 32))

/-- Where a kernel's RCB stands: as its address leads there, or as it was last found while no tile cache translates it; none while
its core holds another partition's context or is evicted. -/
def State.rcbSpot (s : State) (k : Kernel) : Option Nat :=
  let x := k.rcb.addr.toNat
  match s.dispReach k.part x 128 with
  | .mem a => some a
  | _ =>
    match k.path.head? with
    | some a =>
      let gone := ((storeOf a).map (s.unreachable k.part)).getD false
      if x < 2 ^ 47 ∧ (s.dispEntry k.part x).isNone ∧ !gone then some a else none
    | none => none

/-- A kernel's state as its RCB shows it. -/
def State.showKernel (s : State) (n : Nat) : State :=
  match s.kernels.listed n with
  | none => s
  | some k =>
    match s.rcbSpot k with
    | some a => s.writeRcb k.part k.rcb.addr.toNat a k.st.code k.status k.kid (s.countOf k) (s.usedOf n k)
    | none => s

/-- The RCBs of the live kernels brought up to date (R364; notes/assumptions/92.md). -/
def State.showKernels (s : State) : State :=
  ((s.kernels.filter (fun k => k.2.live)).map (fun k => k.1)).foldl State.showKernel s

def State.setKernel (s : State) (n : Nat) (k : Kernel) : State := { s with kernels := s.kernels.list n k }

/-- The four words of a completion message (R375). -/
def completionWords (cookie : Word) (status cls kid used header : Nat) : List Word :=
  [cookie, BitVec.ofNat 64 (status + cls * 2 ^ 8 + kid * 2 ^ 32), BitVec.ofNat 64 used, BitVec.ofNat 64 header]

/-- A completion message posted to an RCB's mailbox (R375): none while the mailbox is HELD, or its store is not reached (R436). -/
def State.postTo (s : State) (part : Nat) (m : Cap) (ws : List Word) : Option State :=
  if !m.tag || decide (m.otype ≠ 3) || !m.can .mailbox || (s.mailbox (partCore part) m).isNone then some s
  else
    match s.dispReach part m.addr.toNat 64 with
    | .mem a => if s.dispWrites part m.addr.toNat then (s.dispDirty part m.addr.toNat).postAt a ws 0 else some s
    | .wait => none
    | .bad => some s

/-- Whether a CONC head of the partition waits for tiles at a higher priority (R368). -/
def State.concWaits (s : State) (part prio : Nat) : Bool :=
  (List.range 8).any (fun d => (s.headsOf d).any (fun h =>
    decide (h.part = part ∧ prio < h.prio) &&
      (match s.judge part (decide (h.num = poolNum)) h.parent h.words with
       | .hold _ conc => conc
       | _ => false)))

/-- A rejected launch, kept while its message waits for a mailbox that is HELD (R375). -/
def rejectedKernel (h : LHead) (rcb : Cap) (a status : Nat) : Kernel :=
  { part := h.part, parent := h.parent, kid := 0, cls := (h.words.getD 1 0).toNat % 4, header := (h.words.getD 0 0).toNat, user := [],
    cookie := h.words.getD 2 0, pcc := Cap.null, image := Cap.null, imgctl := 0, shape := [], rcb := rcb, path := [a], st := .rejected,
    status := status, used := 0, tiles := [], teams := [], cores := 0, abort := false, post := true }

/-- A launch rejected (R362, R375): its RCB's KSTATE, unless the RCB is a live kernel's, and its message, which waits while the mailbox
is HELD. -/
def State.rejectLaunch (s : State) (h : LHead) (status a : Nat) : State :=
  let s1 := if status = 7 then s
    else s.writeKstate h.part (s.headerRcb h.part (h.words.getD 0 0).toNat).addr.toNat a 6 status 0
  let ws := completionWords (h.words.getD 2 0) status ((h.words.getD 1 0).toNat % 4) 0 0 (h.words.getD 0 0).toNat
  match s1.postTo h.part (s1.rcbAt a).mbox ws with
  | some t => t
  | none =>
    let k := rejectedKernel h (s1.headerRcb h.part (h.words.getD 0 0).toNat) a status
    { s1 with kernels := s1.kernels.list s1.nextKernel k, nextKernel := s1.nextKernel + 1 }

/-- A launch that passes its checks and stays at the head of its queue shows SUBMITTED (R363, R366). -/
def State.showWaiting (s : State) (h : LHead) (v : Verdict) : State :=
  let show_ := fun a : Nat => s.writeKstate h.part (s.headerRcb h.part (h.words.getD 0 0).toNat).addr.toNat a 1 0 0
  match v with
  | .hold a _ => show_ a
  | .accept _ a => show_ a
  | _ => s

/-- The head that a die's dispatcher visits next: of the highest priority, the next number in turn (R368). -/
def nextHead (visit : Nat) (hs : List LHead) : Option LHead :=
  let top := hs.foldl (fun m h => max m h.prio) 0
  let best := hs.filter (fun h => decide (h.prio = top))
  match best.filter (fun h => decide (visit < h.num)) with
  | h :: _ => some h
  | [] => best.head?

/-- Whether a head can be served now (R366, R368): a launch is rejected, or accepted while no CONC head of a higher priority waits for
tiles of its partition. -/
def State.servable (s : State) (h : LHead) (v : Verdict) : Bool :=
  match v with
  | .reject _ _ => true
  | .accept _ _ => !s.concWaits h.part h.prio
  | _ => false

/-- One visit of a die's dispatcher (R362, R368): of the heads that can be served now, the next of the highest priority. -/
def State.dispatch (s : State) (d : Nat) : State :=
  let x := s.dieAt d
  let hs := (s.headsOf d).filter (fun h => !s.launchWaits h.part)
  let ds : SMap Nat := x.deficits.filter (fun e => hs.any (fun h => decide (h.num = e.1)))
  let found := hs.map (fun h => (h, s.judge h.part (decide (h.num = poolNum)) h.parent h.words))
  let s0 := found.foldl (fun t f => t.showWaiting f.1 f.2) s
  match nextHead x.visit ((found.filter (fun f => s.servable f.1 f.2)).map (fun f => f.1)) with
  | none => s0.setDie d { x with deficits := ds }
  | some h =>
    let credit := SMap.look (fun _ => 0) ds h.num + h.weight
    let note := fun (t : State) (v : Nat) =>
      t.setDie d { t.dieAt d with visit := h.num, deficits := SMap.put (fun _ => 0) ds h.num v }
    match s.judge h.part (decide (h.num = poolNum)) h.parent h.words with
    | .reject st rcb =>
      let s1 := note (s0.takeHead d h) credit
      match rcb with
      | none => s1
      | some a => s1.rejectLaunch h st a
    | .accept k _ =>
      let t := k.teams.length
      if credit < t then note s0 credit
      else
        let s1 := note (s0.takeHead d h) (credit - t)
        let p := s1.partAt h.part
        let n := s1.nextKernel
        State.showKernel (State.setKernel { s1 with
          nextKernel := n + 1
          parts := if (s1.parts.listed h.part).isSome then s1.parts.list h.part { p with kids := (p.kids + 1) % 2 ^ 32 } else s1.parts } n k) n
    | _ => s0

/-- LAUNCH_DISPATCH (R362, R368). -/
def execLaunchDispatch (d : Nat) (s : State) : Host.Outcome State Fault Refusal :=
  if d < 8 then .next (s.dispatch d) else .fault .noSuchSubject

/-- A record placed by SPAWN, with its status (R374, R378). -/
def State.spawn (s : State) (c : Core) (ws : List Word) (tags : List Bool) (lab : Label) : State × Nat :=
  let d := s.homeDie c.phys
  let x := s.dieAt d
  let child : Child := ⟨ws, c.part, c.kernel, s.clock, tags, lab⟩
  let path := match c.kernel.bind (fun k => s.kernels.listed k) with
    | some k => s.pathOf k
    | none => []
  let past := path.zipIdx.any (fun a => decide ((s.effective c.part (path.drop a.2)).qent ≤ s.pendingUnder a.1))
  let ring := x.backing.look (fun _ => []) c.part
  if past then (s, 2)
  else if !ring.isEmpty || !s.poolTakes x.pool.length c.kernel then
    if s.ringLen (s.childRing c.part d) ≤ ring.length then (s, 6)
    else ((s.setDie d { x with backing := x.backing.put (fun _ => []) c.part (ring ++ [child]) }).ringChild d child, 0)
  else (s.setDie d { x with pool := x.pool ++ [child] }, 0)

/-- SPAWN (R374, R378). -/
def execSpawn (h : Hd) (d b : Name) (s : State) :=
  run (.spawn h d b) s (fun s => afterAcquire s (fun s => afterRelease true s (fun s => once false s (fun s =>
    let c := s.core
    if s.launchWaits c.part then .wait s
    else
      let r := s.spawn c (c.recordWords b) (c.recordTags b) (c.recordLabel b)
      .done r.1 (c.wordResult d (BitVec.ofNat 64 r.2))))))

/-- ceil(a / b). -/
def ceilDiv (a b : Nat) : Nat := (a + b - 1) / b

/-- Elements of the blocks j = c, c + F, c + 2F, ... that lie below X (R373). -/
def blockCyclic (x f b c : Nat) : Nat :=
  let full := x / (f * b) * b
  full + min b (x % (f * b) - c * b)

/-- A core's share of a dimension (R373): its start and its length. -/
def shareOf (m : Dim) (c : Nat) : Nat × Nat :=
  match m.split with
  | 0 => (0, m.extent)
  | 1 =>
    let b := ceilDiv m.extent m.factor
    let s := min (c * b) m.extent
    (s, min b (m.extent - s))
  | 2 =>
    let s := min c m.extent
    (s, ceilDiv (m.extent - s) m.factor)
  | _ => (min (c * m.halo) m.extent, blockCyclic m.extent m.factor m.halo c)

/-- The halo form (R373): BLOCK alone, and a share that is not empty. -/
def haloOf (m : Dim) (r : Nat × Nat) : Nat × Nat :=
  if m.split = 1 ∧ 0 < r.2 then
    let s := r.1 - m.halo
    (s, min (r.1 + r.2 + m.halo) m.extent - s)
  else r

/-- SHAPE's value from a record as read (R373, R379). -/
def shapeValue (ws : List Word) (dim krank : Nat) (halo : Bool) : Word :=
  if !(shapeValid ws && shapeClean ws) then BitVec.allOnes 64
  else if shapeDims ws ≤ dim then 0
  else
    let m := dimOf ws dim
    let below := ((List.range dim).map (fun e => (dimOf ws e).factor)).foldl (· * ·) 1
    let r := shareOf m (krank / below % m.factor)
    let v := if halo then haloOf m r else r
    BitVec.ofNat 64 (v.1 % 2 ^ 32 + v.2 % 2 ^ 32 * 2 ^ 32)

/-- The kernel rank and the core whose kernel counts: a mirror pair's even core's (R377). -/
def State.rankCore (s : State) : Core := if s.core.interval.isSome ∧ s.core.phys % 2 = 1 then s.coreAt (mateOf s.core.phys) else s.core

/-- The STATE word of a context that comes to rest (R54, R80, R146). -/
def Core.parkState (c : Core) (code cause prio : Nat) : Word :=
  let n := c.top - c.lo
  let lab := Label.maxOf ((List.range n).map (fun i => (c.ent (c.lo + i)).l))
  BitVec.ofNat 64 (n + code * 2 ^ 12 + lab.toNat * 2 ^ 16 + prio * 2 ^ 19 + cause * 2 ^ 23 + c.lo % 2 * 2 ^ 31 +
    c.fpWait.isSome.toNat * 2 ^ 33 + (c.lb - c.lo) * 2 ^ 40)

/-- The PRIO of a context (R54, R80, R365). -/
def State.parkPrio (s : State) (c : Core) (old : Word) : Nat :=
  match c.kernel.bind (fun n => s.kernels.listed n) with
  | some k => (s.effective k.part (s.pathOf k)).prio
  | none => recPrio old

/-- The STATE word of a context whose core is saved whole (R54, R56): SPILLED, with the inbox behind its image. -/
def State.savedState (s : State) (c : Core) (cause : Nat) : Word :=
  c.parkState 4 cause (s.parkPrio c 0) ||| (if c.inbox.isEmpty then 0 else 0x100000000#64)

/-- SHAPE (R379): one access at the core's own port, in its order there. -/
def execShape (h : Hd) (d : Name) (b : Nat) (s : State) :=
  run (.shape h d b) s (fun s =>
    let c := s.core
    atPort c.phys 0x1FF00 256 s (fun s =>
      let a := lsBase c.phys + 0x1FF00
      let v := shapeValue (s.wordsAt a 32) (b % 8) s.rankCore.krank (decide (b / 8 % 2 = 1))
      .done (s.mapCore (fun c => c.later (c.latePlace d ⟨v, s.labelOver a 256⟩) 0 0 0 false))))

/-- What KSTAT reads (R380, R463). -/
def State.kstat (s : State) (c : Core) (sel : Nat) : Word :=
  let k := c.kernel.bind (fun n => s.kernels.listed n)
  match sel with
  | 0 => BitVec.ofNat 64 c.krank
  | 1 =>
    if isGateway c.phys then BitVec.ofNat 64 (gatewayPort c.phys * 2 ^ 32 + gatewayLane c.phys * 2 ^ 48)
    else BitVec.ofNat 64 ((k.map Kernel.kid).getD 0 + c.team % 2 ^ 16 * 2 ^ 32 +
      (if k.isSome then c.krank % 16 else tilePos c.phys) * 2 ^ 48)
  | 2 => (k.map s.countOf).getD 0
  | _ => BitVec.ofNat 64 ((k.map (s.usedOf (c.kernel.getD 0))).getD 0)

/-- KSTAT (R380). -/
def execKstat (h : Hd) (d : Name) (b : Nat) (s : State) :=
  run (.kstat h d b) s (fun s => .done (s.mapCore (fun c => c.later (c.latePlace d ⟨s.kstat s.rankCore b, 0⟩) 0 0 0 false)))

end Sys2Proof.Machine
end

