-- ==== Sys2Proof/Machine/Team.lean ====
section
/-! DEFINITION. Teams: placement, slices and swaps, HALT, and how a kernel completes or is aborted (R242, R244, R265, R267,
R280, R281, R367 to R371, R375, R376, R467, R476, R481). -/

namespace Sys2Proof.Machine

open Sys2Proof

/-- What is loaded into a core at a placement (R360, R370): partition, the header's capabilities, and the shape record. -/
structure Load where
  part : Nat
  pcc : Cap
  image : Cap
  ctl : Word
  shape : List Word
  deriving DecidableEq, Repr

/-- The shape record with its header filled (R372). -/
def Kernel.shapeWords (k : Kernel) : List Word :=
  let hdr := shapeDims k.shape + k.cls * 2 ^ 4 + k.teams.length * 2 ^ 16 + k.cores * 2 ^ 32
  [BitVec.ofNat 64 hdr, BitVec.ofNat 64 k.kid, BitVec.ofNat 64 k.header, k.cookie] ++ (List.range 4).map (fun i => k.user.getD i 0) ++
    k.shape.drop 8

def Kernel.load (k : Kernel) : Load := ⟨k.part, k.pcc, k.image, k.imgctl, k.shapeWords⟩

/-- The granules of a data section, each at its physical address; none when some page is not reached yet. -/
def State.imageAt (s : State) (l : Load) : Option (List Nat) :=
  (List.range (imgLen l.ctl / 16)).mapM (fun i =>
    match s.dispReach l.part (l.image.addr.toNat + 16 * i) 16 with
    | .mem a => some a
    | _ => none)

/-- A core's store at a placement (R370): zero, the data section from offset 0 with its tags, the shape record. -/
def State.loadStore (s : State) (l : Load) (src : List Nat) (p : Nat) : State :=
  let c := partCore l.part
  let s1 := s.clearStore p
  let s2 := src.zipIdx.foldl (fun t g =>
    t.putGranule (lsBase p + 16 * g.2) (s.sweptCap c (s.granule g.1)) (s.labelAt g.1)) s1
  s2.store (lsBase p + 0x1FF00) (l.shape.flatMap (fun w : Word => bytesOf 8 w.toNat)) 0

/-- A core that stops: neither gang, mirror pair nor wait holds it any longer. -/
def Core.stop (c : Core) : Core :=
  { c with
    cstate := .idle
    gang := { c.gang with lsize := 0, fused := false }
    pair := { c.pair with pstate := .unpaired }
    interval := none
    gifts := []
    replay := []
    drain := none
    gangNext := none
    trapDue := none
    fpEvent := none
    fpWait := none
    fpReply := none
    xwait := none
    tabRun := none
    rep := none
    resume := none
    stalled := false
    waiting := none
    woken := false }

/-- What a core holds at a placement (R370, R476). -/
def Core.load (c : Core) (l : Load) (lens arg : Cap) (krank : Nat) (kernel : Option Nat) (team : Nat) : Core :=
  let lo := lens.base.toNat
  let top := lens.top.toNat
  let c1 : Core := { c.stop with
    cstate := .running
    regs := c.regs.clearRange lo top
    tags := c.tags.clearRange (lo / 2 * 2) top
    lens := lens
    opf := []
    q := zeroVal
    pcc := l.pcc
    pc := l.pcc.addr
    mode := .u
    prevMode := .s
    evt := 0
    evmask := 0
    rptValid := false
    rptRemain := 0
    gang := ⟨0, 0, 0, false, 0⟩
    pair := ⟨0, 0, .unpaired, 0, false, 256⟩
    ptimer := 0
    dueSpill := []
    dueMirror := none
    dueWatchdog := []
    duePreempt := false
    pending := []
    spillq := []
    g1 := .awake
    g2 := .awake
    xc := 0
    xbuf := []
    arrivals := []
    ibuf := []
    part := l.part
    kernel := kernel
    krank := krank
    team := team }
  c1.putPair lens.addr.toNat arg 0

/-- One core of a placement (R370). -/
def State.placeCore (s : State) (l : Load) (src : List Nat) (krank : Nat) (kernel : Option Nat) (team p : Nat) : State :=
  let s1 := s.loadStore l src p
  let lens := s1.granule (lsBase p + imgLens l.ctl)
  let arg := match imgArg l.ctl with
    | some off => if off + 16 ≤ imgLen l.ctl then s1.granule (lsBase p + off) else Cap.null
    | none => Cap.null
  (s1.onCore p (fun c => c.load l lens arg krank kernel team)).drain p

/-- A tile as a placement leaves it (R240, R244, R265): its translation cache and its window's count go on. -/
def Tile.place (x : Tile) (who : Option (Nat × Nat)) : Tile :=
  { Tile.reset with seq := x.seq, tlb := x.tlb, gen := x.gen, misses := x.misses, team := who }

/-- The semaphores and barriers of a tile as after a placement (R307). -/
def State.resetObjects (s : State) (t : Nat) : State :=
  { s with sems := s.sems.clearRange (0x8000 + 64 * t) (0x8000 + 64 * t + 64), bars := s.bars.clearRange (0x8000 + 64 * t) (0x8000 + 64 * t + 64) }

/-- The members of a team on a tile. -/
def State.teamCores (s : State) (t n : Nat) : List Nat := (List.range n).map (s.memberAt t)

/-- Whether a core can take a team: it is IDLE, and everything that it issued is over. -/
def Core.vacant (c : Core) : Bool := decide (c.cstate = .idle) && c.landReady.quiet

def State.setTeam (s : State) (kn : Nat) (k : Kernel) (i : Nat) (t : Team) : State :=
  s.setKernel kn { k with teams := k.teams.set i t }

/-- Whether a team still waits for a tile. -/
def Team.waits (t : Team) : Bool := decide (t.st = .unplaced ∨ t.st = .swapped)

/-- Whether a WEAK kernel's team is the first that is not placed yet (R367); the other classes have no such order. -/
def Kernel.inOrder (k : Kernel) (i : Nat) : Bool := decide (k.cls ≠ 2) || (k.teams.take i).all (fun m => decide (m.st ≠ .unplaced))

/-- The team that a free tile of a kernel takes next (R367): its own first one; else for PAR the one that has waited longest,
for WEAK the next in index order. -/
def Kernel.nextTeam (k : Kernel) (t : Nat) : Option Nat :=
  match k.tiles.findIdx? (fun x => decide (x = t)) with
  | none => none
  | some i =>
    let next :=
      if (k.teams[i]?.map Team.st) = some .unplaced then some i
      else if k.cls = 0 then none
      else
        match k.teams.zipIdx.filter (fun x => x.1.waits && decide (k.tiles.length ≤ x.2 ∨ x.1.st = .swapped)) with
        | [] => none
        | x :: xs => some (xs.foldl (fun (b : Team × Nat) y => if k.cls = 1 ∧ y.1.since < b.1.since then y else b) x).2
    next.filter k.inOrder

/-- The first team's start makes the kernel RUNNING (R363). -/
def Kernel.started (k : Kernel) : Kernel := if k.st = .accepted then { k with st := .running } else k

/-- Whether a team of `n` cores of a partition can be placed on a tile now. -/
def State.tileOpen (s : State) (part t n : Nat) : Bool :=
  (s.tileAt t).team.isNone && (s.tileAt t).cards.all (fun c => decide (c.2.state = .ended)) &&
    (s.teamCores t n).all (fun p => (s.coreAt p).vacant && !s.away part p)

/-- A team starts on a tile (R370, R371). -/
def State.startTeam (s : State) (kn t i : Nat) (src : List Nat) : State :=
  match s.kernels.listed kn with
  | none => s
  | some k =>
    match k.teams[i]? with
    | none => s
    | some m =>
      let s1 := (s.onTile t (fun x => x.place (some (kn, i)))).resetObjects t
      let s2 := (s.teamCores t m.n).zipIdx.foldl (fun u p => u.placeCore k.load src (16 * i + p.2) (some kn) i p.1) s1
      let quota := clampQuota (s.effective k.part (s.pathOf k)).quota
      State.showKernel (s2.setTeam kn k.started i { m with st := .placed, tile := t, since := s.clock, left := quota, paused := false }) kn

/-- Whether the teams of a CONC kernel, which are placed together, can all be placed now (R367). -/
def State.concOpen (s : State) (k : Kernel) : Bool :=
  let ms := k.teams.zip k.tiles
  ms.all (fun x => decide (x.1.st ≠ .unplaced) || s.tileOpen k.part x.2 x.1.n) &&
    decide (((ms.filter (fun x => decide (x.1.st = .unplaced))).map (fun x => x.1.n)).foldl (· + ·) 0 ≤ s.placeRoom k.part (s.pathOf k))

/-- TEAM_PLACEMENT (R367 to R371): the team starts, or a swapped one begins to stream back; with a CONC kernel's team all of its teams
start. -/
def State.placeTeam (s : State) (kn t : Nat) : State :=
  match s.kernels.listed kn with
  | none => s
  | some k =>
    match k.nextTeam t with
    | none => s
    | some i =>
      match k.teams[i]? with
      | none => s
      | some m =>
        let room := if k.cls = 0 then s.concOpen k else s.tileOpen k.part t m.n && decide (m.n ≤ s.placeRoom k.part (s.pathOf k))
        if !room || k.abort || !k.live || s.launchWaits k.part then s
        else if m.st = .swapped then
          (s.setTeam kn k i { m with st := .swappingIn, tile := t }).onTile t (fun x => { x with team := some (kn, i) })
        else
          match s.imageAt k.load with
          | none => s
          | some src =>
            if k.cls = 0 then
              (k.tiles.zipIdx.filter (fun x => decide (k.teams[x.2]?.map Team.st = some .unplaced))).foldl (fun u x => u.startTeam kn x.1 x.2 src) s
            else s.startTeam kn t i src

def execTeamPlacement (k t : Nat) (s : State) : Host.Outcome State Fault Refusal := tileEvent t s (fun s => s.placeTeam k t)

/-- A core as it is saved, its context at rest for a cause (R54, R56, R281, R437), with some messages held in flight to it. -/
def State.coreImg (s : State) (cause : Nat) (fs : List Flight) (p : Nat) : CoreImg :=
  ⟨s.coreAt p, s.storeImg p, fs, s.savedState (s.coreAt p) cause⟩

/-- Messages held in flight to a core for a partition (R313). -/
def State.inFlight (s : State) (part p : Nat) : List Flight := s.flights.filter (fun f => decide (f.dst = p ∧ f.part = part))

/-- A record that is to wait for its team's swap-in, and one as it stands when the team is back, on the cores that `f` gives (R281,
R316). -/
def Parked.swapOut (who : Nat × Nat) (ps : List Nat) (r : Parked) : Parked :=
  if ps.contains (ownerOf r.pa) || ps.contains r.core then { r with swapped := some who } else r
def Parked.swapIn (who : Nat × Nat) (f : Nat → Nat) (r : Parked) : Parked :=
  let p := ownerOf r.pa
  if r.swapped = some who then { r with pa := lsBase (f p) + (r.pa - lsBase p), core := f r.core, swapped := none } else r

def Waiter.mapRecord (f : Parked → Parked) : Waiter → Waiter
  | .record r => .record (f r)
  | .core p => .core p
def Sem.mapRecords (f : Parked → Parked) (m : Sem) : Sem := { m with waiters := m.waiters.map (Waiter.mapRecord f) }
def Barrier.mapRecords (f : Parked → Parked) (b : Barrier) : Barrier := { b with parked := b.parked.map f }

/-- Every record that an object holds. -/
def State.mapRecords (s : State) (f : Parked → Parked) : State :=
  { s with
    queues := s.queues.map (fun e => (e.1, { e.2 with parked := e.2.parked.map f }))
    heldq := s.heldq.map (fun h => { h with record := f h.record })
    sems := s.sems.map (fun e => (e.1, e.2.mapRecords f))
    bars := s.bars.map (fun e => (e.1, e.2.mapRecords f))
    armed := s.armed.map (fun e => (e.1, f e.2)) }

/-- The records that a test names leave every object that holds them (R376). -/
def State.dropRecords (s : State) (gone : Parked → Bool) : State :=
  let stays := fun w : Waiter => match w with
    | .record r => !gone r
    | .core _ => true
  { s with
    queues := s.queues.map (fun e => (e.1, { e.2 with parked := e.2.parked.filter (fun r => !gone r) }))
    heldq := s.heldq.filter (fun h => !gone h.record)
    sems := (s.sems.map (fun e => (e.1, { e.2 with waiters := e.2.waiters.filter stays }))).filter (fun e => decide (e.2 ≠ noSem))
    bars := (s.bars.map (fun e => (e.1, { e.2 with parked := e.2.parked.filter (fun r => !gone r) }))).filter
      (fun e => decide (e.2 ≠ noBarrier))
    armed := s.armed.filter (fun e => !gone e.2) }

/-- A number of a core, or of its objects, on one tile as it is on another. -/
def moveCore (ps qs : List Nat) (p : Nat) : Nat :=
  match ps.findIdx? (fun x => decide (x = p)) with
  | some i => qs.getD i p
  | none => p

def moveObj (t u a : Nat) : Nat := if 0x8000 + 64 * t ≤ a ∧ a < 0x8000 + 64 * t + 64 then a - 64 * t + 64 * u else a

/-- A context saved while it waits for a reply is not made resident again by hardware (R146): its core takes PREEMPT before it issues,
so that its S runtime resumes it (notes/assumptions/91.md). -/
def Core.restFp (c : Core) : Core :=
  if c.fpWait.isSome then { c.leaveWaits with duePreempt := true, inbox := c.inbox ++ c.fpReply.toList } else c

/-- What a resumed core finds of the messages that came (R313): its own inbox, then those that came meanwhile, up to 64; the rest of
them waits, and so does what came meanwhile from a source that still has a message in flight from before. -/
def inboxAfter (inbox old : List InMsg) (fs : List Flight) : List InMsg × List InMsg × List InMsg :=
  let late := fun m : InMsg => fs.any (fun f => decide (f.msg.src = m.src))
  let now := inbox ++ old.filter (fun m => !late m)
  (now.take 64, now.drop 64, old.filter late)

/-- Messages that wait to enter an inbox. -/
def asFlights (q part : Nat) (ms : List InMsg) : List Flight := ms.map (fun m => ⟨q, m, none, part⟩)

/-- A saved core as it goes on on core `q` (R281, R437): what stands at a port, and who was told of its kill, stay with the
place, and so does the trace ring's counter (R209, notes/assumptions/113.md); its inbox is the place's, and events that have come there
meanwhile are kept (R302). -/
def Core.resumeOn (c : Core) (f : Nat → Nat) (g : Nat → Nat) (old : Core) : Core :=
  let own := fun h : Held => match h with
    | .access o lo top bar a => Held.access (f o) lo top bar { a with src := f a.src }
    | .arrive o n => .arrive (g o) n
    | .give o => .give (g o)
    | .mark o off bits => .mark (f o) off bits
    | .sweep o off => .sweep (f o) off
    | .sev d bits => .sev (f d) bits
    | .send x => .send { x with dst := f x.dst }
    | .post b ws l => .post (lsBase (f (ownerOf b)) + (b - lsBase (ownerOf b))) ws l
    | .wake st off p n => .wake (st.map f) off p n
    | .image o off a ks => .image (f o) off a ks
    | h => h
  let moved := fun (rs : List Arrival) => rs.map (fun r => { r with obj := g r.obj })
  { c with
    phys := old.phys
    cstate := if c.cstate = .evicted then .running else c.cstate
    portq := old.portq
    told := old.told
    traceSeq := old.traceSeq
    ibuf := []
    inbox := old.inbox
    evt := c.evt ||| old.evt
    xbuf := c.xbuf.map (fun x => { x with src := f x.src })
    xwait := c.xwait.map (fun w => { w with need := w.need.map f })
    interval := c.interval.map (fun v => { v with held := v.held.map own, agreed := { v.agreed with arrivals := moved v.agreed.arrivals } })
    owed := c.owed.map own
    arrivals := moved c.arrivals }

/-- A region or a card of a saved window as it stands on another tile. -/
def Region.moveTo (f : Nat → Nat) (r : Region) : Region :=
  match r with
  | .store p o n => .store (f p) o n
  | r => r

def Card.resumeOn (f : Nat → Nat) (k : Card) : Card :=
  { k with
    core := f k.core
    state := if k.state = .held then .waiting else k.state
    miss := none
    reads := k.reads.map (Region.moveTo f)
    writes := k.writes.map (Region.moveTo f) }

/-- The running copy and conversion cards of a window stop as HELD, and its miss slots are freed (R267, R415). -/
def Tile.hold (x : Tile) : Tile :=
  let stop := fun e : Nat × Card => (e.1, if e.2.state = .running then { e.2 with state := .held, miss := none } else { e.2 with miss := none })
  { x with cards := x.cards.map stop, misses := [] }

/-- A core stops issue at a boundary, to be saved: a gang that holds it dissolves, a wait it made is forgotten (R57, R285,
R437). -/
def State.haltForSave (s : State) (p : Nat) : State :=
  let c := s.coreAt p
  let s1 := if c.gang.fused then ((s.focus p).dissolve 6 false).focus s.core.phys else s
  let leave := fun x : PairReg => if x.pstate = .joining then { x with pstate := .unpaired } else x
  (s1.unwait p).onCore p (fun c =>
    if c.awake then { c with cstate := .evicted, stalled := false, waiting := none, pair := leave c.pair } else c)

/-- PAR_SLICE_EXPIRY (R242, R267, R367): the team has run its slice, and another one waits. -/
def State.sliceExpiry (s : State) (t : Nat) : State :=
  match (s.tileAt t).team with
  | none => s
  | some (kn, i) =>
    match s.kernels.listed kn with
    | none => s
    | some k =>
      match k.teams[i]? with
      | none => s
      | some m =>
        let ps := s.teamCores t m.n
        let another := k.teams.zipIdx.any (fun x => x.1.waits && decide (k.tiles.length ≤ x.2 ∨ x.1.st = .swapped))
        if k.cls ≠ 1 ∨ m.st ≠ .placed ∨ m.ran s.clock < m.left ∨ !another ∨ (s.tileAt t).matrixRuns ∨
            ps.any (fun p => !(s.coreAt p).landReady.quiet || (s.coreAt p).tabRun.isSome) then s
        else
          let s1 := (ps.foldl State.haltForSave s).onTile t Tile.hold
          let used := min (2 ^ 64 - 1) (k.used + m.n * m.ran s.clock)
          State.showKernel ((s1.dropMissMsgs (fun m => decide (m.1 = t))).setTeam kn { k with used := used } i { m with st := .swappingOut }) kn

def execParSliceExpiry (t : Nat) (s : State) : Host.Outcome State Fault Refusal := tileEvent t s (fun s => s.sliceExpiry t)

/-- A tile's semaphores and barriers by place. -/
def State.tileImgOf (s : State) (t : Nat) : TileImg :=
  let a := 0x8000 + 64 * t
  ⟨s.tileAt t, (s.sems.range a (a + 64)).map (fun e => (e.1 - a, e.2)), (s.bars.range a (a + 64)).map (fun e => (e.1 - a, e.2))⟩

/-- A tile from its image, for the cores that `f` gives (R244, R267). -/
def State.putTileImg (s : State) (t : Nat) (f : Nat → Nat) (r : Parked → Parked) (x : TileImg) : State :=
  let a := 0x8000 + 64 * t
  let old := s.tileAt t
  let cards := x.tile.cards.map (fun e => (e.1, e.2.resumeOn f))
  let s1 := s.resetObjects t
  let s2 := s1.setTile t { x.tile with cards := cards, slotWaits := [], tlb := old.tlb, gen := old.gen, misses := [], team := old.team }
  let who := fun w : Waiter => match w with
    | .core p => Waiter.core (f p)
    | .record q => .record (r q)
  { s2 with
    sems := x.sems.foldl (fun m e => m.put (fun _ => noSem) (a + e.1) { e.2 with waiters := e.2.waiters.map who }) s2.sems
    bars := x.bars.foldl (fun m e => m.put (fun _ => noBarrier) (a + e.1) (e.2.mapRecords r)) s2.bars }

/-- A core that a saved team leaves. -/
def State.vacate (s : State) (p : Nat) : State :=
  let left := fun c : Core => if c.cstate = .killed then c
    else { Core.stop c with kernel := none, inbox := [], xbuf := [], arrivals := [], spillq := [], evt := 0 }
  (s.onCore p left).drain p

/-- TEAM_SWAP_OUT_COMPLETE (R281): the whole image is in memory and the tile is free. -/
def State.swappedOut (s : State) (t : Nat) : State :=
  match (s.tileAt t).team with
  | none => s
  | some (kn, i) =>
    match s.kernels.listed kn with
    | none => s
    | some k =>
      match k.teams[i]? with
      | none => s
      | some m =>
        if m.st ≠ .swappingOut ∨ s.farFrom t then s
        else
          let ps := s.teamCores t m.n
          let s0 := (s.landContributions k.part ps).mapRecords (Parked.swapOut (kn, i) ps)
          let img := fun p => s0.coreImg 0x31 (s0.inFlight k.part p) p
          let m1 := { m with st := .swapped, since := s.clock, image := ps.map img, tileImg := some (s0.tileImgOf t) }
          let left := { s0 with flights := s0.flights.filter (fun f => !(ps.contains f.dst && decide (f.part = k.part))) }
          let s1 := ((ps.foldl State.vacate left).onTile t (fun x => x.place none)).resetObjects t
          State.showKernel (s1.setTeam kn k i m1) kn

def execTeamSwapOutComplete (t : Nat) (s : State) : Host.Outcome State Fault Refusal := tileEvent t s (fun s => s.swappedOut t)

/-- TEAM_SWAP_IN_COMPLETE (R281): the whole image is back, and the team goes on. -/
def State.swappedIn (s : State) (t : Nat) : State :=
  match (s.tileAt t).team with
  | none => s
  | some (kn, i) =>
    match s.kernels.listed kn with
    | none => s
    | some k =>
      match k.teams[i]? with
      | none => s
      | some m =>
        if m.st ≠ .swappingIn then s
        else
          let ps := m.image.map (fun x => x.core.phys)
          let qs := s.teamCores t m.n
          let f := moveCore ps qs
          let g := moveObj (tileOf (ps.headD 0)) t
          let one := fun (u : State) (x : CoreImg × Nat) =>
            let c := x.1.core.restFp
            let both := if c.paired then m.image.filter (fun y => decide (y.core.phys / 2 = c.phys / 2)) else [x.1]
            let old := both.flatMap (fun y => (s.coreAt (f y.core.phys)).inbox)
            let r := inboxAfter c.inbox old (both.flatMap CoreImg.flights)
            let own := x.1.flights.map (fun a => { a with dst := x.2 })
            let more := if c.paired ∧ c.phys % 2 = 1 then own else asFlights x.2 k.part r.2.1 ++ own ++ asFlights x.2 k.part r.2.2
            let u1 := (u.putStore x.2 x.1.store).onCore x.2 (fun old => c.resumeOn f g { old with inbox := r.1 })
            if c.cstate = .killed then u else { u1 with flights := more ++ u1.flights }
          let back := Parked.swapIn (kn, i) f
          let s1 := ((m.image.zip qs).foldl one s).mapRecords back
          let s2 := (match m.tileImg with
            | some x => s1.putTileImg t f back x
            | none => s1).readyChanged k.part
          let quota := clampQuota (s.effective k.part (s.pathOf k)).quota
          let m1 := { m with st := .placed, since := s.clock, left := quota, paused := false, image := [], tileImg := none }
          State.showKernel (s2.setTeam kn k i m1) kn

def execTeamSwapInComplete (t : Nat) (s : State) : Host.Outcome State Fault Refusal := tileEvent t s (fun s => s.swappedIn t)

/-- A team whose every member has halted is DONE and leaves its tile; the kernel drains when its last team is done (R280,
R363, R367). -/
def State.teamHalted (s : State) (t : Nat) : State :=
  match (s.tileAt t).team with
  | none => s
  | some (kn, i) =>
    match s.kernels.listed kn with
    | none => s
    | some k =>
      match k.teams[i]? with
      | none => s
      | some m =>
        let halted := (s.teamCores t m.n).all (fun p => decide ((s.coreAt p).cstate = .idle ∧ (s.coreAt p).kernel = some kn))
        if m.st ≠ .placed ∨ !halted ∨ k.abort then s
        else
          let teams := k.teams.set i { m with st := .done }
          let used := min (2 ^ 64 - 1) (k.used + m.n * m.ran s.clock)
          let st := if teams.all (fun x => decide (x.st = .done)) then KSt.draining else k.st
          State.showKernel ((s.onTile t (fun x => { x with team := none })).setKernel kn { k with teams := teams, used := used, st := st }) kn

/-- Teams whose last core has stopped in another way than by its own HALT (R280, R476). -/
def State.haltedTeams (s : State) : State :=
  (s.kernels.flatMap (fun k => if k.2.live then k.2.tiles else [])).foldl State.teamHalted s

/-- The tile whose team a core belongs to: a spare counts where the core that it replaces stands (R472). -/
def State.teamTile (s : State) (p : Nat) : Nat := tileOf (physOfChip (s.indexOf p))

/-- HALT (R481): what is ready still lands. -/
def execHalt (h : Hd) (s : State) :=
  run (.halt h) s (fun s =>
    let s1 := s.mapCore (fun c => Core.halt (if s.hold then c else c.landReady))
    .done (if isGateway s.core.phys then s1 else s1.teamHalted (s.teamTile s.core.phys)))

/-- Whether every card of a window that is for a partition has ended. -/
def Tile.cardsOver (x : Tile) (part : Nat) : Bool := x.cards.all (fun c => decide (c.2.state = .ended ∨ c.2.part ≠ part))

/-- Whether everything of a kernel's cores and cards is over (R335, R363): its windows, those that are saved among them, the writes of
its cards in the card buffers, what its cores have sent. -/
def State.kernelOver (s : State) (kn : Nat) (k : Kernel) : Bool :=
  k.teams.all (fun m => m.tileImg.isNone) &&
  k.tiles.all (fun t =>
    (s.tileAt t).cardsOver k.part && !s.farHere t k.part && decide ((s.tileAt t).team.map Prod.fst ≠ some kn) &&
      ((s.tileImages.listed (k.part * 512 + t)).all (fun x => x.tile.cardsOver k.part)) &&
      (s.teamCores t 16).all (fun p => decide ((s.coreAt p).part ≠ k.part) || (s.coreAt p).unacked.isEmpty))

/-- A kernel's state shown and its message posted, or kept until its RCB is reached and its mailbox takes it (R363, R375, R436). -/
def State.postKernel (s : State) (kn : Nat) : State :=
  match s.kernels.listed kn with
  | none => s
  | some k =>
    let waits := fun x : Bool => s.setKernel kn { k with post := x }
    match s.rcbSpot k with
    | none => waits (decide (s.dispReach k.part k.rcb.addr.toNat 128 ≠ .bad))
    | some a =>
      let s1 := if k.st = .rejected then s else s.showKernel kn
      match s1.postTo k.part (s1.rcbAt a).mbox (completionWords k.cookie k.status k.cls k.kid k.used k.header) with
      | some t => t.setKernel kn { k with post := false }
      | none => s1.setKernel kn { k with post := true }

/-- A kernel ends: its tiles are free, its RCB says so, its message goes out (R375, R376). -/
def State.endKernel (s : State) (kn : Nat) (k : Kernel) (st : KSt) (status : Nat) : State :=
  let s1 := s.setKernel kn { k with st := st, status := status, tiles := [], abort := false, post := true }
  s1.postKernel kn

/-- KERNEL_COMPLETION (R335, R375): also a message that its mailbox kept waiting. -/
def State.completeKernel (s : State) (kn : Nat) : State :=
  match s.kernels.listed kn with
  | none => s
  | some k =>
    if k.post then s.postKernel kn
    else if k.st = .draining ∧ !k.abort ∧ s.kernelOver kn k then s.endKernel kn k .done 0
    else s

def execKernelCompletion (k : Nat) (s : State) : Host.Outcome State Fault Refusal :=
  if (s.kernels.listed k).isSome then .next (s.completeKernel k) else .fault .noSuchSubject

/-- The effective fault domain of a kernel (R365). -/
def State.fdom (s : State) (k : Kernel) : Nat := (s.effective k.part (s.pathOf k)).fdom

/-- The children of a kernel that wait (R376). -/
def State.dropChildren (s : State) (kn : Nat) : State :=
  let keep := fun cs : List Child => cs.filter (fun c => decide (c.parent ≠ some kn))
  let one := fun (u : State) (d : Nat) =>
    let x := u.dieAt d
    let lost := x.backing.filter (fun b => decide (keep b.2 ≠ b.2))
    let u1 := u.setDie d { x with pool := keep x.pool, backing := (x.backing.map (fun b => (b.1, keep b.2))).filter (fun b => !b.2.isEmpty) }
    let u2 := lost.foldl (fun v b => (keep b.2).foldl (fun w c => w.ringChild d c) (v.ringShrunk b.1 d 0)) u1
    u2.afterLoss d x.pool.head?
  (List.range 8).foldl one s

/-- The cards of a partition on a tile as an abort leaves them (R376). -/
def State.cancelTile (s : State) (part t : Nat) : State :=
  (s.tileAt t).cards.foldl (fun u e =>
    match u.cardAt t e.1 with
    | some k => if k.part ≠ part then u else if k.state = .held then u.endCard t e.1 k stCancelled else u.cancelCard t e.1 k
    | none => u) s

/-- The cores of a kernel's placed teams. -/
def State.kernelCores (s : State) (kn : Nat) (k : Kernel) : List Nat :=
  k.tiles.flatMap (fun t => match (s.tileAt t).team with
    | some (n, i) => if n = kn then s.teamCores t ((k.teams[i]?.map Team.n).getD 0) else []
    | none => [])

/-- A core of an aborted team issues no more (R376): a gang that holds it dissolves, a wait it made is forgotten. -/
def State.abortCore (s : State) (p : Nat) : State :=
  let c := s.coreAt p
  if c.awake then
    let s1 := if c.gang.fused then ((s.focus p).dissolve 6 false).focus s.core.phys else s
    (s1.unwait p).onCore p (fun c => Core.halt (if s.hold then c else c.landReady))
  else s

/-- A core of an aborted team whose accesses are over: its context is discarded. -/
def State.discard (s : State) (p : Nat) : State :=
  let c := s.coreAt p
  if c.cstate = .killed then s else State.drain (s.onCore p Core.stop) p

/-- What of a kernel is saved with a SHARED partition's contexts is discarded by its abort, its cards cancelled (R376, R437). -/
def State.dropSaved (s : State) (kn : Nat) : State :=
  let stop := fun e : Nat × Card =>
    (e.1, if e.2.state = .ended then e.2 else { e.2 with state := .ended, status := stCancelled, ending := none, due := none, miss := none })
  let one := fun e : Nat × TileImg =>
    if e.2.tile.team.map Prod.fst = some kn then
      (e.1, { e.2 with tile := { e.2.tile with team := none, cards := e.2.tile.cards.map stop } })
    else e
  { s with
    images := s.images.filter (fun e => decide (e.2.core.kernel ≠ some kn))
    tileImages := s.tileImages.map one }

/-- An abort reaches a kernel (R376): no team is being swapped; its cores stop, and once everything that they issued is over (R50) its
contexts, images and children are discarded and its cards are cancelled. -/
def State.abortTeams (s0 : State) (kn : Nat) : State :=
  match s0.kernels.listed kn with
  | none => s0
  | some k =>
    let ps := s0.kernelCores kn k
    let s := ps.foldl State.abortCore s0
    if k.teams.any (fun m => decide (m.st = .swappingOut ∨ m.st = .swappingIn)) then s0
    else if ps.any (fun p => !(s.coreAt p).quiet && decide ((s.coreAt p).cstate ≠ .killed)) then s
    else
      let gone := fun r : Parked => decide (r.part = k.part) && (ps.contains r.core || r.swapped.any (fun w => decide (w.1 = kn)))
      let s1 := ((k.tiles.foldl (fun u t =>
        match (u.tileAt t).team with
        | some (n, i) =>
          let ps := u.teamCores t ((k.teams[i]?.map Team.n).getD 0)
          if n = kn then ((ps.foldl State.discard u).onTile t (fun x => { x with team := none })).cancelTile k.part t else u
        | none => u.cancelTile k.part t) s).dropRecords gone).dropChildren kn |>.dropSaved kn
      let ran := fun n (m : Team) => n + m.n * m.ran s.clock
      let used := min (2 ^ 64 - 1) (k.teams.foldl ran k.used)
      s1.setKernel kn { k with used := used, teams := k.teams.map (fun m => { m with st := .done, image := [], tileImg := none }) }

/-- An abort goes on: the kernel releases and posts once everything of it is over (R375, R376). -/
def State.finishAbort (s : State) (kn : Nat) : State :=
  let s1 := s.abortTeams kn
  match s1.kernels.listed kn with
  | none => s1
  | some k =>
    if k.abort ∧ k.teams.all (fun m => decide (m.st = .done)) ∧ s1.kernelOver kn k then s1.endKernel kn k .aborted 5 else s1

/-- KERNEL_ABORT (R376): every live kernel of the partition with the same fault domain, when that is not zero. -/
def State.abortKernel (s : State) (kn : Nat) : State :=
  match s.kernels.listed kn with
  | none => s
  | some k =>
    if !k.live then s
    else
      let d := s.fdom k
      let hit := fun e : Nat × Kernel => e.2.live && decide (e.1 = kn ∨ (d ≠ 0 ∧ e.2.part = k.part ∧ s.fdom e.2 = d))
      let ns := (s.kernels.filter hit).map (fun e => e.1)
      let s1 := ns.foldl (fun u n =>
        match u.kernels.listed n with
        | some x => u.setKernel n { x with abort := true }
        | none => u) s
      ns.foldl State.finishAbort s1

def execKernelAbort (k : Nat) (s : State) : Host.Outcome State Fault Refusal :=
  if (s.kernels.listed k).isSome then .next (s.abortKernel k) else .fault .noSuchSubject

end Sys2Proof.Machine
end

