-- ==== Sys2Proof/Machine/Park.lean ====
section
/-! DEFINITION. PARK: a context's image and record written, its record bound to an object, the handler entered (R54 to R56,
R67, R68, R80, R96, R311, R316, R350). -/

namespace Sys2Proof.Machine

open Sys2Proof

/-- The object that PARK names: none for zr and for the record's own name. -/
def parkObj (a b : Name) : Option Name := if b = .zr ∨ b = a then none else some b

/-- The checks of PARK on its record (R80). -/
def State.recordTrap (s : State) (a : Name) : Fails :=
  let k := s.core.rdCap a
  firstOf [failIf (!k.tag) .tag (nameVal a), failIf (decide (k.otype ≠ 0)) .seal (nameVal a),
    failIf (!(k.can .store && k.can .load && k.can .capwr)) .perm (nameVal a),
    failIf (!s.core.pcc.can .roam && !k.can .tether) .perm (nameVal a),
    failIf (decide (k.addr.toNat % 64 ≠ 0)) .align (nameVal a), failIf (!k.covers k.addr.toNat 64) .bounds k.addr,
    failIf (s.reach s.core k.addr 64).isNone .bounds k.addr]

/-- The checks of PARK on its object's capability (R80). -/
def State.parkObjTrap (s : State) (b : Name) : Fails :=
  let k := s.core.rdCap b
  firstOf [failIf (!k.tag) .tag (nameVal b), failIf (decide (k.otype ≠ 3 ∧ k.otype ≠ 4 ∧ k.otype ≠ 5)) .seal (nameVal b),
    match k.otype.toNat with
    | 3 => firstOf [failIf (!k.can .mailbox) .perm (nameVal b), failIf (s.mailbox s.core k).isNone .bounds k.addr]
    | 4 => failIf (!k.can .barrier) .perm (nameVal b)
    | _ => failIf (!k.can .load) .perm (nameVal b)]

/-- Check 5 of R306 on the barrier or semaphore that PARK names (R80). -/
def State.parkBarTrap (s : State) (b : Name) : Fails :=
  let k := s.core.rdCap b
  let o := s.named s.core k
  failIf (decide (k.otype = 4) && (!o.ok || !s.mayUse s.core (o.obj.getD 0))) .bounds k.addr

/-- Where the object of a PARK is read, in which store, from which byte, how many: a mailbox's block, a binding block (R305, R316). -/
def State.objPlace (s : State) (k : Cap) : Option (Nat × Nat × Nat) :=
  match k.otype.toNat with
  | 3 => (s.mailbox s.core k).map (fun p => (p.1, p.2, 64))
  | 4 => (s.bindingBlock s.core k).map (fun p => (p.1, p.2, 32))
  | _ => none

/-- A body that reads the object of a PARK, at its port when it stands in a local store (R206). -/
def atParkObj (b : Option Name) (s : State) (body : State → Res) : Res :=
  match b.bind (fun n => s.objPlace (s.core.rdCap n)) with
  | some (p, off, n) => atPort p off n s body
  | none => body s

/-- Whether the SPILL capability of a record takes the image of the lens (R80). -/
def State.spillOk (s : State) (sp : Cap) : Bool :=
  let c := s.core
  let n := c.top - c.lo
  sp.tag && decide (sp.otype = 0) && sp.can .store && sp.can .capwr &&
    (sp.can .tether || (c.taggedPairs c.lo n).all (fun k => k.can .roam)) && decide (sp.addr.toNat % 16 = 0) &&
    sp.covers sp.addr.toNat (imageBytes c.lo n) && (s.reach c sp.addr (imageBytes c.lo n)).isSome

/-- A record bound to the mailbox at a block (R316). -/
def State.parkMailbox (s : State) (block : Nat) (r : Parked) : State :=
  match mcode (s.mstate block) with
  | 0 =>
    let s1 := (s.setMstate block 1 0 false).objWrite (block + 32) 16 (fun y t => t.putGranule y r.cap 0)
    { s1 with armed := s1.armed.list block r }
  | 2 =>
    let words := s.wordsAt block 4
    let lab : Label := BitVec.ofNat 3 ((s.mstate block).toNat / 2 ^ 8 % 8)
    (s.setMstate block 0 0 true).deliverTo block r words lab
  | _ => s.deliverTo block r (List.replicate 4 (BitVec.allOnes 64)) 0

/-- A record bound to a queue (R350): linked at the tail of its waiters, or queued at once.  The link in a record that is saved with
its core's store is written when it is back (`State.relink`). -/
def State.parkQueue (s : State) (n : Nat) (r : Parked) : State :=
  let q := s.queueAt n
  if q.answering = .off ∨ q.answering = .fault then s.queueRecord (queueObj n) (queueDie n) r
  else
    let s1 := match q.parked.getLast? with
      | some l =>
        if s.recordGone l then s else s.objWrite (l.pa + 56) 8 (fun y t => t.store y (bytesOf 8 r.cap.addr.toNat) 0)
      | none => s
    s1.setQueue n { q with parked := q.parked ++ [r] }

/-- A record bound to a barrier or a semaphore (R311). -/
def State.parkBarrier (s : State) (obj : Nat) (r : Parked) : State :=
  if objKind obj = some true then
    let m := s.semAt obj
    (s.setSem obj { m with waiters := m.waiters ++ [.record r] }).serveAll obj
  else
    let b := s.barAt obj
    s.setBar obj { b with parked := b.parked ++ [r] }

/-- A record bound to the object of a capability (R80). -/
def State.bindRecord (s : State) (k : Cap) (r : Parked) : State :=
  match k.otype.toNat with
  | 3 =>
    match s.mailbox s.core k with
    | some (p, off) => s.parkMailbox (lsBase p + off) r
    | none => s
  | 4 => s.parkBarrier ((s.named s.core k).obj.getD 0) r
  | _ => s.parkQueue k.addr.toNat r

/-- Whether PARK meets a mailbox that is ARMED (R316). -/
def State.parkArmed (s : State) (k : Cap) : Option Word :=
  if k.otype.toNat = 3 then
    match s.mailbox s.core k with
    | some (p, off) => if mcode (s.mstate (lsBase p + off)) = 1 then some k.addr else none
    | none => none
  else none

/-- The number by which PARK's writes are known at a port: a mirror pair's are made once, in both copies of a store of its own, and stay when
the interval is rolled back (R289, R292, R322). -/
def parkSrc (c : Core) : Nat := if c.interval.isSome then engineSrc else c.phys

/-- A write of PARK's at a port; a killed core's discards it (R471). -/
def State.parkWrite (s : State) (o off n : Nat) (f : Nat → State → State) : State :=
  if (s.coreAt o).cstate = .killed then s else s.portWrite o (parkSrc s.core) off n 0 none f

/-- What PARK writes into its record (R80): the PCC, and STATE with WAIT. -/
def State.parkWords (s : State) (a b : Name) (bytes o off : Nat) : Cap × Word × Word :=
  let c := s.core
  let obj := (parkObj a b).map (fun n => c.rdCap n)
  let retire := decide (b = a)
  let code := if retire then 5 else if obj.isSome then 3 else 4
  let cause := if retire then 0x21 else
    match obj with
    | some x => x.otype.toNat
    | none => 0x20
  let old := if (s.coreAt o).cstate = .killed then 0 else s.recState (lsBase o + off)
  (c.pcc.withAddr (c.pc + BitVec.ofNat 64 bytes), c.parkState code cause (s.parkPrio c old),
    match obj with
    | some x => x.addr
    | none => 0)

/-- The record written (R80), the object bound, and the handler entered with cause 0 and `sy.tval` 0 (notes/assumptions/93.md). -/
def parkRecord (a b : Name) (bytes : Nat) (s : State) : Res :=
  let c := s.core
  let k := c.rdCap a
  match s.reach c k.addr 64 with
  | none => .wait s
  | some (o, off) =>
    let w := s.parkWords a b bytes o off
    let s1 := s.parkWrite o off 16 (fun y t => t.putGranule y w.1 0)
    let s2 := s1.parkWrite o (off + 48) 16 (fun y t => t.store y (bytesOf 8 w.2.1.toNat ++ bytesOf 8 w.2.2.toNat) 0)
    match parkObj a b with
    | some n => .trapNext (s2.bindRecord (c.rdCap n) ⟨k, lsBase o + off, c.part, c.phys, none⟩) 0 0
    | none => .trapNext s2 0 0

/-- The image written, up to the first entry that its label stops (R68, R80), then the record. -/
def parkSpill (a b : Name) (bytes : Nat) (sp : Cap) (s : State) : Res :=
  let c := s.core
  let n := c.top - c.lo
  match s.reach c sp.addr (imageBytes c.lo n) with
  | none => .wait s
  | some (o, off) =>
    atPort o off (imageBytes c.lo n) s (fun s =>
      let k := c.spillCount c.lo n sp.label
      let s1 := if (s.coreAt o).cstate = .killed then s.tell o c.phys sp.addr
        else s.putImage (parkSrc c) o off (s.imagePairs c.phys c.lo k)
      if k < n then .trap s1 .spillfault (BitVec.ofNat 64 k)
      else
        match (parkObj a b).bind (fun x => s1.parkArmed (c.rdCap x)) with
        | some v => .trap s1 .bounds v
        | none => parkRecord a b bytes s1)

/-- What a mirror core notes of a PARK (R290): the image, and what goes into the record. -/
def State.parkNotes (s : State) (a b : Name) (bytes o off : Nat) (sp : Option Cap) : State :=
  let c := s.core
  let x := (c.rdCap a).addr
  let w := s.parkWords a b bytes o off
  let image := match sp with
    | some k => c.noteImage k.addr (s.imagePairs c.phys c.lo (c.top - c.lo))
    | none => c
  let said := image.note (.bytes (storeStream x (bytesOf 8 w.1.addr.toNat ++ bytesOf 8 w.1.hi.toNat)))
  { s with core := said.note (.bytes (storeStream (x + 48) (bytesOf 8 w.2.1.toNat ++ bytesOf 8 w.2.2.toNat))) }

/-- How a PARK ended, kept for the mate: no cause, or the trap that it raised with its value. -/
def parkEnd (k : Option Cause) (v : Word) : List TWrite :=
  [⟨.nowhere, (match k with
    | some x => x.code.setWidth 64
    | none => 0), v, false, 0⟩]

/-- PARK made once for a mirror pair, by its even core; the other one, and an interval that runs again, ends as it did (R80, R322). -/
def parkOnce (s : State) (body : State → Res) : Res :=
  if s.core.interval.isNone then body s
  else if decide (s.core.phys % 2 = 1) || !s.core.replay.isEmpty then
    match s.core.shared with
    | none => .wait s
    | some (g, c) =>
      let t : State := { s with core := c.recordDone g }
      let w := g.writes.headD ⟨.nowhere, 0, 0, false, 0⟩
      match Cause.ofCode w.lo.toNat with
      | some k => .trap t k w.hi
      | none => .trapNext t 0 0
  else
    match body s with
    | .trap t k v => .trap (t.share (parkEnd (some k) v)) k v
    | .trapNext t k v => .trapNext (t.share (parkEnd none 0)) k v
    | r => r

/-- PARK (R80). -/
def execPark (h : Hd) (a b : Name) (s : State) :=
  run (.park h a b) s (fun s0 =>
    if !s0.core.markerReady || !s0.core.spillq.isEmpty then .wait s0
    else
      let s := s0.sweepCheck s0.core.phys
      guarded (firstOf [s.recordTrap a, (parkObj a b).bind s.parkObjTrap]) s (fun s => atParkObj (parkObj a b) s (fun s =>
        guarded ((parkObj a b).bind s.parkBarTrap) s (fun s =>
          let c := s.core
          let k := c.rdCap a
          match s.reach c k.addr 64 with
          | none => .wait s
          | some (o, off) => atPort o off 64 s (fun s0 =>
            let dead := decide ((s0.coreAt o).cstate = .killed)
            let s := if dead then s0.tell o c.phys k.addr else s0
            let n := 4 * h.len.words
            if b = a then parkOnce (s.parkNotes a b n o off none) (parkRecord a b n)
            else
              let sp := if dead then Cap.null else (s.sweptCap c (s.granule (lsBase o + off + 16))).keepTag (k.can .caprd)
              if s.spillOk sp then parkOnce (s.parkNotes a b n o off (some sp)) (parkSpill a b n sp)
              else .trap s .spillfault 0)))))

end Sys2Proof.Machine
end

