-- ==== Sys2Proof/Machine/Mirror.lean ====
section
/-! DEFINITION. Mirror pairs: the agreed point, the fingerprint, rollback, the held effects sent (R287 to R295). -/

namespace Sys2Proof.Machine

open Sys2Proof

/-- What a rollback goes back to (R292). -/
def Core.agreedNow (c : Core) : Agreed where
  regs := c.regs
  tags := c.tags
  lens := c.lens
  opf := c.opf
  q := c.q
  pcc := c.pcc
  pc := c.pc
  rptValid := c.rptValid
  rptRemain := c.rptRemain
  resume := c.resume
  rep := c.rep
  xc := c.xc
  g1 := c.g1
  g2 := c.g2
  arrivals := c.arrivals

/-- An interval with nothing in it yet, from an agreed point. -/
def Interval.start (again : Bool) (g : Agreed) : Interval := ⟨0, 0, [], 0, [], [], [], [], again, false, g⟩

/-- An interval begins here, the state the agreed point (R291). -/
def Core.beginInterval (c : Core) : Core :=
  { c with
    pair := { c.pair with pstate := .running }
    interval := some (.start false c.agreedNow)
    replay := []
    stalled := false }

/-- One bit, and one byte, of the CRC-64 of R290. -/
def crcBit (x : BitVec 64) : BitVec 64 := if x.msb then (x <<< 1) ^^^ 0x42F0E1EBA9EA3693#64 else x <<< 1
def crcByte (x : BitVec 64) (b : Byte) : BitVec 64 :=
  (List.range 8).foldl (fun y _ => crcBit y) (x ^^^ ((b.setWidth 64) <<< 56))

/-- The fingerprint of a stream (R290). -/
def fingerprint (items : List StreamItem) : BitVec 64 :=
  (items.flatMap (fun i => match i with
    | .bytes bs => bs
    | .late _ => [])).foldl crcByte (BitVec.allOnes 64)

/-- One logged write of a core undone (R292). -/
def State.undoOne (s : State) (p : Nat) (u : UndoWrite) : State :=
  let a := lsBase p
  let s1 := s.putBytes (a + u.off) u.bytes
  { s1 with
    labels := u.labels.foldl (fun m l => m.put (fun _ => 0) (a / 64 + l.1) l.2) s1.labels
    tags := u.tags.foldl (fun m l => m.put (fun _ => false) (a / 16 + l.1) l.2) s1.tags }

/-- The registers of an agreed point restored (R292). -/
def Core.restore (c : Core) (g : Agreed) : Core :=
  { c with
    regs := g.regs
    tags := g.tags
    lens := g.lens
    opf := g.opf
    q := g.q
    pcc := g.pcc
    pc := g.pc
    rptValid := g.rptValid
    rptRemain := g.rptRemain
    resume := g.resume
    rep := g.rep
    xc := g.xc
    g1 := g.g1
    g2 := g.g2
    arrivals := g.arrivals
    pending := []
    gifts := []
    xwait := none
    trapDue := none
    fpEvent := none
    stalled := false
    waiting := none
    woken := false
    tabRun := none }

/-- A core of a pair rolled back to the agreed point (R292), its interval to run again; it waits at no object any more, and the results of
effects that are made once stay for it (R322), but not of an XMAX that is incomplete, which is issued again. -/
def State.rollback (s : State) (p : Nat) : State :=
  match (s.coreAt p).interval with
  | none => s
  | some v =>
    let s1 := v.undo.foldl (fun t u => t.undoOne p u) (s.unwait p)
    s1.onCore p (fun c =>
      let c1 := c.restore v.agreed
      { c1 with
        interval := some (.start true v.agreed)
        replay := v.done.filter (fun g => !g.xmax) ++ c.replay ++ c.gifts
        pair := { c1.pair with
          pstate := .running
          rbcount := if c1.pair.rbcount = 0xFFFF#16 then c1.pair.rbcount else c1.pair.rbcount + 1 } })

/-- REPORT makes MIRROR due after a rollback (R294). -/
def Core.reportRollback (c : Core) : Core :=
  if c.pair.report then { c with dueMirror := some (c.pair.rbcount.setWidth 64) } else c

/-- A number for a store or a message that the even core of a pair sends, to be acknowledged (R47). -/
def State.sending (s : State) (p lo top : Nat) (bar msg : Bool) : State × Nat :=
  let c := s.coreAt p
  (s.setCoreAt p { c with unacked := c.unacked ++ [⟨c.nextId, 1, bar, lo, top, msg, none⟩], nextId := c.nextId + 1 }, c.nextId)
def State.sendingMsg (s : State) (p : Nat) : State × Nat := s.sending p (s.coreAt p).lo (s.coreAt p).top false true

/-- The core of a pair that issues a card or a cancel which the pair has held (R247, R271). -/
def issuerOf (e : Nat) (i : Instr) : Nat := if (enginePos i).any (fun n => atPos n e) then e else mateOf e

/-- A held card or cancel made: it captures what its core has issued as performed, its handle or status goes to both cores (R247, R257,
R271); none while it has to wait.  Nobody issues it when its engine core is killed. -/
def State.makeCard (s : State) (e : Nat) (i : Instr) : Option State :=
  let stores := fun p => (s.coreAt p).unacked.any (fun u => !u.msg)
  if (s.coreAt (issuerOf e i)).cstate = .killed then some s
  else if stores e || stores (mateOf e) then none
  else
    ((s.focus (issuerOf e i)).enterHeld i).map (fun r =>
      let put := fun c : Core => c.putNow (c.wordResult r.1 r.2.2)
      ((r.2.1.focus s.core.phys).onCore e put).onCore (mateOf e) put)

/-- A body for a port that an effect of core `p` meets; none while it has to wait there. -/
def State.heldAt (s : State) (p o off n : Nat) (body : State → Option State) : Option State :=
  if (s.focus p).portClear o off n then body (((s.focus p).portEnter o).focus s.core.phys) else none

/-- One held effect made (R291, R322); none while it has to wait: a fence for the acknowledgement of what went before it (R220, R310),
a sweep for the one that runs (R104), a post for its mailbox's turn (R316), a card for a place in its window. -/
def State.makeHeld (s : State) (p : Nat) (h : Held) : Option State :=
  match h with
  | .fence => if (s.coreAt p).released && (s.coreAt (mateOf p)).released then some s else none
  | .access o lo top bar a =>
    let r := s.sending p lo top bar false
    some (r.1.access o { a with src := p, id := r.2 })
  | .sev dst bits =>
    let r := s.sendingMsg p
    some (r.1.signal ⟨dst, bits.setWidth 32, (p, r.2), (s.coreAt p).part⟩)
  | .send f =>
    let r := s.sendingMsg p
    some (r.1.sendMsg { f with sender := some (p, r.2) })
  | .sweep o off =>
    if (s.sweepOf (s.coreAt p)).isSome then none else s.heldAt p o off 32 (fun s => some ((s.startSweep p o off).sweepCheck (mateOf p)))
  | .mark o off bits => s.heldAt p o off 1 (fun s => some (s.markAt p o off bits))
  | .arrive obj n => some (s.arriveOf p obj n)
  | .give obj => some (s.giveUnit obj)
  | .post block ws lab => s.heldAt p (ownerOf block) (block - lsBase (ownerOf block)) 64 (fun s => s.postBy p block ws lab)
  | .wake st off part n => some (s.wakeKey (match st with
    | some q => .store q off
    | none => .virt off) part n)
  | .card i => s.makeCard p i
  | .image o off addr ks => s.heldAt p o off (16 * ks.length) (fun s =>
      some (if (s.coreAt o).cstate = .killed then s.tell o p addr else s.putImage p o off ks))

/-- A held effect that has to wait takes its place: at its port, whose groups wake, or among those that wait at a mailbox (R211,
R328). -/
def State.waitHeld (s : State) (p : Nat) (h : Held) : State :=
  let wait := fun o off n => ((s.focus p).portWait o off n).focus s.core.phys
  match h with
  | .sweep o off => wait o off 32
  | .mark o off _ => wait o off 1
  | .post block _ _ => (wait (ownerOf block) (block - lsBase (ownerOf block)) 64).joinPost block p
  | .image o off _ ks => wait o off (16 * ks.length)
  | _ => s

/-- Held effects made in order, and those that wait. -/
def makeAll (p : Nat) : List Held → State → List Held × State
  | [], s => ([], s)
  | h :: rest, s =>
    match s.makeHeld p h with
    | some t => makeAll p rest t
    | none => (h :: rest, s.waitHeld p h)

/-- A survivor makes what its pair had agreed on and not made yet, as far as it can be made now (R291, R322). -/
def State.payOwed (s : State) (p : Nat) : State :=
  let r := makeAll p (s.coreAt p).owed s
  r.2.onCore p (fun c => { c with owed := r.1 })

/-- The mate of a killed core goes on alone from the agreed point (R294): where the fingerprints have agreed, from there, once it has made
the effects that are still held (notes/assumptions/34.md). -/
def State.survive (s : State) (p : Nat) : State :=
  let owed := match (s.coreAt p).interval with
    | some v => if v.atEnd then v.held else []
    | none => []
  let s1 := match (s.coreAt p).interval with
    | some v => if v.atEnd then s.unwait p else s.rollback p
    | none => s
  State.payOwed (s1.onCore p (fun c =>
    { c with
      pair := { c.pair with pstate := .unpaired }
      interval := none
      owed := owed
      gifts := []
      stalled := false
      dueMirror := some (BitVec.allOnes 64) })) p

/-- A new interval of a pair, the last one agreed (R291). -/
def Core.agree (c : Core) : Core := Core.beginInterval { c with pair := { c.pair with intv := c.pair.intv + 1 } }

/-- The held effects of an agreed interval leave; the next one begins when all have (R291), with one timer value for both cores (R477). -/
def State.agreePair (s : State) (e o : Nat) (v w : Interval) : State :=
  let r := makeAll e v.held s
  if r.1.isEmpty then (r.2.onCore e Core.agree).onCore o (fun c => { c.agree with ptimer := (r.2.coreAt e).ptimer })
  else
    (r.2.onCore e (fun c => { c with interval := some { v with held := r.1, atEnd := true } })).onCore o
      (fun c => { c with interval := some { w with held := r.1, atEnd := true } })

/-- Whether a core of a pair stands at the end of its interval, with everything landed, moved and acknowledged (R291). -/
def Core.atEnd (hold : Bool) (c : Core) : Bool :=
  decide (c.pair.pstate = .comparing) && c.spillq.isEmpty && (if hold then c.quiet else c.landReady.quiet)

/-- A pair's state copied, the even core's to the odd one (R288), with the count of its event messages (R148) and its timer (R477): both go on at the
instruction after MPAIR, with the first interval begun there. -/
def State.copyPair (s : State) (e o : Nat) : State :=
  let c := s.coreAt e
  let n := wordLength c.word
  let go := fun k : Core =>
    Core.beginInterval { k with
      pc := k.pc + BitVec.ofNat 64 n
      pair := { k.pair with intv := 0, rbcount := 0 }
      resume := none
      stalled := false
      waiting := none }
  let awake := (List.range 3).filter (fun g => decide (c.groupSt g ≠ .sleeping))
  let s1 := awake.foldl (fun t g => t.copyRange (lsBase e + 0x20000 * g) 0x20000 (lsBase o + 0x20000 * g)) s
  let s2 := s1.onCore o (fun k =>
    { k with
      regs := c.regs
      tags := c.tags
      opf := c.opf
      q := c.q
      lens := c.lens
      pcc := c.pcc
      pc := c.pc
      rptValid := c.rptValid
      rptRemain := c.rptRemain
      fpSeq := c.fpSeq
      ptimer := c.ptimer
      pair := { k.pair with report := c.pair.report, n := c.pair.n }
      g1 := c.g1
      g2 := c.g2 })
  ((((s2.onCore e go).onCore o go).drain e).drain o)

end Sys2Proof.Machine
end

