-- ==== Sys2Proof/Machine/Kill.lean ====
section
/-! DEFINITION. Killing a core, its fatal dump, and the spare that takes its rank (R294, R471 to R474). -/

namespace Sys2Proof.Machine

open Sys2Proof

/-- The labels that a core and its store hold. -/
def State.labelsOf (s : State) (p : Nat) : List Label :=
  let c := s.coreAt p
  (c.regs.map (fun e => e.2.l)) ++ c.inbox.map InMsg.lab ++ (s.storeImg p).labels.map (fun e => e.2)

/-- The header of a fatal dump (R474): `kind` and `idx` say where the error was; the syndrome is a free value. -/
def State.dumpHeader (s : State) (p kind idx cause : Nat) : List Byte :=
  let c := s.coreAt p
  let top := Label.maxOf (s.labelsOf p)
  let prot := decide (top ≠ 0)
  let id := p + s.rankOf c % 2 ^ 13 * 2 ^ 16 + c.part % 64 * 2 ^ 32 + cause * 2 ^ 40 + prot.toNat * 2 ^ 48
  let lens := c.lo % 4096 + c.lb % 4096 * 2 ^ 16 + c.top % 4096 * 2 ^ 32 + top.toNat * 2 ^ 48
  let pcc := if prot then Cap.null else c.pcc.withAddr c.pc
  let cards := if isGateway p then 0 else
    ((s.tileAt (tileOf p)).cards.filter (fun e => decide (e.2.state ≠ .ended))).length
  let counts := c.inbox.length % 128 + cards % 32 * 2 ^ 8 + (s.kills + 1) % 2 ^ 16 * 2 ^ 16
  bytesOf 8 id ++ bytesOf 8 s.clock ++ bytesOf 8 lens ++ bytesOf 8 (if prot then 0 else c.tval.toNat) ++
    bytesOf 8 pcc.addr.toNat ++ bytesOf 8 pcc.hi.toNat ++ bytesOf 8 (kind % 4 + idx % 2 ^ 24 * 2 ^ 8) ++
    bytesOf 8 (if prot then 0 else (Config.freeWord s.freeCtr).toNat) ++ bytesOf 8 counts ++ List.replicate 184 0

/-- The fatal dump of a core (R474): what has a label above 0 is zero. -/
def State.dumpOf (s : State) (p kind idx cause : Nat) : Dump :=
  let c := s.coreAt p
  let x := s.storeImg p
  let clear := fun off : Nat => decide (SMap.look (fun _ => 0) x.labels (off / 64) = 0)
  { header := s.dumpHeader p kind idx cause
    regs := c.regs.map (fun e => (e.1, if e.2.l = 0 then e.2 else ⟨0, e.2.l⟩))
    tags := c.tags
    inbox := c.inbox.map (fun m => if m.lab = 0 then m else { m with words := m.words.map (fun _ => 0) })
    store := { x with bytes := x.bytes.filter (fun e => clear e.1) } }

/-- Bits as bytes. -/
def byteOfBits (f : Nat → Bool) (i : Nat) : Byte := BitVec.ofNat 8 ((List.range 8).foldl (fun n j => n + (f (8 * i + j)).toNat * 2 ^ j) 0)

/-- A byte of a fatal dump by its offset (R474); an inbox entry's kind and label stand in two bytes (notes/assumptions/116.md). -/
def Dump.byteAt (d : Dump) (o : Nat) : Byte :=
  let reg := fun e : Nat => SMap.look (fun _ => (⟨0, 0⟩ : LVal)) d.regs e
  let msg := fun i : Nat => d.inbox[i]?
  let part := fun (n : Nat) (i : Nat) => BitVec.ofNat 8 (n / 256 ^ i)
  let store := o - 0xA000
  if o < 0x100 then d.header.getD o 0
  else if o < 0x8100 then part (reg ((o - 0x100) / 8)).v.toNat ((o - 0x100) % 8)
  else if o < 0x9100 then (reg (o - 0x8100)).l.setWidth 8
  else if o < 0x9200 then byteOfBits (fun i => SMap.look (fun _ => false) d.tags (2 * i)) (o - 0x9100)
  else if o < 0x9A00 then
    match msg ((o - 0x9200) / 32) with
    | some m => part (m.words.getD ((o - 0x9200) % 32 / 8) 0).toNat ((o - 0x9200) % 8)
    | none => 0
  else if o < 0xA000 then
    match msg ((o - 0x9A00) / 2) with
    | some m => if o % 2 = 0 then BitVec.ofNat 8 m.kind.code else m.lab.setWidth 8
    | none => 0
  else if o < 0x6A000 then SMap.look (fun _ => 0) d.store.bytes store
  else if o < 0x6B800 then (SMap.look (fun _ => (0 : Label)) d.store.labels (o - 0x6A000)).setWidth 8
  else if o < 0x6C400 then byteOfBits (fun i => SMap.look (fun _ => false) d.store.tags i) (o - 0x6B800)
  else 0

/-- A core that is killed (R471): late writes and what it held are discarded. -/
def Core.kill (c : Core) : Core :=
  { c.stop with
    cstate := .killed
    pending := []
    unacked := []
    spillq := []
    inbox := []
    dueSpill := []
    dueMirror := none
    dueWatchdog := []
    duePreempt := false }

/-- The kernel of a killed core is aborted when it has a fault domain (R471). -/
def State.killKernel (s : State) (c : Core) : State :=
  match c.kernel with
  | none => s
  | some n =>
    match s.kernels.listed n with
    | none => s
    | some k => if s.fdom k ≠ 0 then s.abortKernel n else s

/-- The kill path for one core (R471, R474). -/
def State.killOne (s : State) (p kind idx cause : Nat) : State :=
  let c := s.coreAt p
  if c.cstate = .killed ∨ c.cstate = .reset then s
  else
    let s1 := if c.gang.fused then ((s.focus p).dissolve 6 false).focus s.core.phys else s
    let s2 := s1.unwait p
    let d := s2.dumpOf p kind idx cause
    let s3 : State := { s2 with dumps := s2.dumps ++ [d], freeCtr := s2.freeCtr + 1, kills := s2.kills + 1 }
    let s4 := (s3.onCore p Core.kill).drain p
    let s5 := s4.tellServers p (errorMsg (s.rankOf c) p 0 0 0)
    s5.killKernel c

/-- A core is killed; the mate of a mirror core survives alone (R294). -/
def State.kill (s : State) (p kind idx cause : Nat) : State :=
  let c := s.coreAt p
  let s1 := if c.paired ∧ (s.coreAt (mateOf p)).cstate ≠ .killed then s.survive (mateOf p) else s
  s1.killOne p kind idx cause

/-- Both cores of a pair are killed at a second disagreement (R294). -/
def State.killPair (s : State) (e o : Nat) : State := (s.killOne e 2 0 0x11).killOne o 2 0 0x11

/-- CORE_KILL (R471): an uncorrectable error in the register store (0), the local store (1) or the inbox (3). -/
def execCoreKill (p rsn idx : Nat) (s : State) : Host.Outcome State Fault Refusal :=
  coreEvent p s (fun s => s.kill p rsn idx 0)

/-- The spares of a die that stand ready (R468, R472). -/
def State.freeSpare (s : State) (d : Nat) : Option Nat :=
  (s.roleCores .spare d).find? (fun p => decide ((s.coreAt p).cstate = .idle) && !(s.remap.any (fun e => decide (e.2 = p))))

/-- SPARE_REMAP (R472, R473): a killed rank's accesses reach a spare of its die from now on. -/
def State.spareRemap (s : State) (part rank : Nat) : State :=
  let x := s.partAt part
  let i := x.base + rank
  let p := s.physOfIndex i
  if part = 0 ∨ x.len ≤ rank ∨ (s.coreAt p).cstate ≠ .killed then s
  else
    let d := chipOrderDie (i / 1024)
    match s.freeSpare d with
    | none => s
    | some q =>
      let n := SMap.look (fun _ => 0) s.spused d
      State.onCore { s with remap := s.remap.list i q, spused := s.spused.put (fun _ => 0) d (n + 1) } q (fun c => { c with part := part })

def execSpareRemap (part rank : Nat) (s : State) : Host.Outcome State Fault Refusal :=
  if part < 64 then .next (s.spareRemap part rank) else .fault .noSuchSubject

end Sys2Proof.Machine
end

