-- ==== Sys2Proof/Machine/Group.lean ====
section
/-! DEFINITION. Gangs and mirror pairs: GANG, SPLIT, MPAIR, MUNPAIR, MCHK, and how a gang fuses, a pair starts, compares and ends
(R282 to R300). -/

namespace Sys2Proof.Machine

open Sys2Proof

/-- The numbers that stand for waits at a GANG of 2^n cores and at MUNPAIR. -/
def gangWait (n : Nat) : Nat := 0x30000 + n
def unpairWait : Nat := 0x30010

/-- The cores that a GANG of 2^n cores would fuse, and their position mask (R283). -/
def gangSet (p n : Nat) : List Nat :=
  let k := 2 ^ n
  (List.range k).map (fun i => tileCore (tileOf p) (tilePos p / k * k + i))
def gangMask (p n : Nat) : Nat := (gangSet p n).foldl (fun m q => m + 2 ^ tilePos q) 0

/-- Whether a core is of the issuing core's team (R280). -/
def Core.sameTeam (c k : Core) : Bool :=
  decide (k.phys = c.phys) || (c.kernel.isSome && decide (k.kernel = c.kernel ∧ k.team = c.team ∧ k.part = c.part) && decide (k.cstate ≠ .killed))

/-- A core fuses (R283): it goes on after its GANG. -/
def Core.fuse (p n bytes : Nat) (c : Core) : Core :=
  let k := 2 ^ n
  { c with
    gang := ⟨c.gang.cause, BitVec.ofNat 4 (tilePos p / k * k), BitVec.ofNat 3 n, true, BitVec.ofNat 16 (gangMask p n)⟩
    pc := c.pc + BitVec.ofNat 64 bytes
    resume := none
    rep := none
    gangNext := none
    waiting := none
    stalled := false }

/-- Whether every core of a set waits at a GANG of one size at one address (R283). -/
def State.gangReady (s : State) (p n : Nat) : Bool :=
  let pc := (s.coreAt p).pc
  (gangSet p n).all (fun q => decide ((s.coreAt q).waiting = some (gangWait n) ∧ (s.coreAt q).pc = pc) && (s.coreAt q).awake)

/-- GANG_FUSE (R283): the set of a core fuses in one cycle. -/
def State.gangFuse (s : State) (p : Nat) : State :=
  match (s.coreAt p).waiting with
  | none => s
  | some w =>
    let n := w - 0x30000
    if w < 0x30001 ∨ 0x30004 < w ∨ !s.gangReady p n then s
    else (gangSet p n).foldl (fun t q => t.onCore q (Core.fuse p n (wordLength (s.coreAt q).word))) s

def execGangFuse (p : Nat) (s : State) : Host.Outcome State Fault Refusal := coreEvent p s (fun s => s.gangFuse p)

/-- A core waits at GANG, and fuses when it is the last (R283). -/
def waitGang (n : Nat) (s : State) : Res :=
  let s1 := s.mapCore (fun c => { c with waiting := some (gangWait n), stalled := true })
  if !s.hold && s1.gangReady s.core.phys n then .enter (s1.gangFuse s.core.phys) else .wait s1

/-- GANG (R283, R297): in a gang, once every member's marker is over, the gang dissolves, and every member issues its GANG alone. -/
def execGang (h : Hd) (b : Nat) (s : State) : Host.Outcome State Fault Refusal :=
  if s.core.gang.fused then
    .next (if s.core.members.all (fun p => (s.coreAt p).markerReady) then s.dissolve 4 false else s.mapCore Core.stall)
  else
    run (.gang h b) s (fun s =>
      let c := s.core
      if !c.markerReady then .wait s
      else
        guarded (s.illegalIf (c.interval.isSome || isGateway c.phys)) s (fun s =>
          guarded (failIf ((gangSet c.phys b).any (fun q => !c.sameTeam (s.coreAt q))) .bounds (BitVec.ofNat 64 (gangMask c.phys b))) s
            (waitGang b)))

/-- SPLIT (R298). -/
def execSplit (h : Hd) (s : State) : Host.Outcome State Fault Refusal :=
  match run (.split h) s (fun s => .done s) with
  | .next t => .next (if s.core.gang.fused && t.core.gang.fused then t.dissolve 4 false else t)
  | r => r

/-- MPAIR (R288, R299). -/
def execMpair (h : Hd) (s : State) :=
  run (.mpair h) s (fun s =>
    let c := s.core
    let q := mateOf c.phys
    if !c.markerReady then .wait s
    else
      guarded (s.illegalIf (c.gang.fused || c.paired || isGateway c.phys)) s (fun s =>
        guarded (failIf (!c.sameTeam (s.coreAt q)) .bounds (BitVec.ofNat 64 (2 ^ tilePos c.phys + 2 ^ tilePos q))) s (fun s =>
          let join := fun (st : PState) (k : Core) =>
            { k with pair := { k.pair with pstate := st, partner := BitVec.ofNat 4 (tilePos (mateOf k.phys)) }, stalled := true }
          if (s.coreAt q).pair.pstate = .joining ∧ (s.coreAt q).pc = c.pc then
            let s1 := (s.mapCore (join .copying)).onCore q (join .copying)
            if s.hold then .wait s1 else .enter (s1.copyPair (evenOf c.phys) (evenOf c.phys + 1))
          else .wait (s.mapCore (join .joining)))))

/-- MIRROR_COPY_COMPLETE (R288). -/
def State.mirrorCopied (s : State) (p : Nat) : State :=
  let e := evenOf p
  if !isGateway p ∧ (s.coreAt e).pair.pstate = .copying ∧ (s.coreAt (e + 1)).pair.pstate = .copying then s.copyPair e (e + 1) else s

def execMirrorCopyComplete (p : Nat) (s : State) : Host.Outcome State Fault Refusal := coreEvent p s (fun s => s.mirrorCopied p)

/-- A core leaves its pair with the state it has (R295). -/
def Core.unpair (c : Core) : Core :=
  { c with pair := { c.pair with pstate := .unpaired }, interval := none, gifts := [], replay := [], resume := none, waiting := none, stalled := false }

/-- MUNPAIR (R295, R299): the interval has ended; both cores leave at one boundary. -/
def execMunpair (h : Hd) (s : State) :=
  run (.munpair h) s (fun s =>
    let c := s.core
    let q := mateOf c.phys
    guarded (s.illegalIf c.gang.fused) s (fun s =>
      if c.interval.isNone then .done s
      else if (s.coreAt q).waiting = some unpairWait ∧ (s.coreAt q).pc = c.pc then
        let leave := fun k : Core => Core.unpair { k with pc := k.pc + BitVec.ofNat 64 (4 * h.len.words) }
        .done ((s.onCore q leave).mapCore Core.unpair)
      else .wait (s.mapCore (fun c => { c with waiting := some unpairWait }))))

/-- MCHK (R300): the interval has ended and agreed; RBCOUNT is written. -/
def execMchk (h : Hd) (d : Name) (s : State) :=
  run (.mchk h d) s (fun s =>
    let c := s.core
    guarded (s.illegalIf c.gang.fused) s (fun s =>
      .done (s.mapCore (fun c => c.putNow (c.wordResult d (if c.interval.isSome then c.pair.rbcount.setWidth 64 else 0))))))

/-- MIRROR_INTERVAL_END (R291): the limits of the interval are reached, or a cause for both cores is to be delivered. -/
def execMirrorIntervalEnd (p : Nat) (s : State) : Host.Outcome State Fault Refusal :=
  coreEvent p s (fun s =>
    match s.core.interval with
    | none => s
    | some v =>
      let due : Bool := match s.core.dueCause with
        | some (k, _) => k.forBoth
        | none => false
      if s.core.pair.pstate = .running ∧ v.steps ≠ 0 ∧ !s.mateAhead ∧ (s.core.pair.n ≤ v.retired ∨ s.mateEnded ∨ due) then
        s.mapCore Core.endInterval
      else s)

/-- MIRROR_COMPARE (R291, R292, R294). -/
def State.mirrorCompare (s : State) (p : Nat) : State :=
  let e := evenOf p
  let o := e + 1
  match (s.coreAt e).interval, (s.coreAt o).interval with
  | some v, some w =>
    if isGateway p || !(s.coreAt e).atEnd s.hold || !(s.coreAt o).atEnd s.hold then s
    else if v.atEnd then s.agreePair e o v w
    else
      let land := fun c : Core => if s.hold then c else c.landReady
      let s1 := (s.onCore e land).onCore o land
      match (s1.coreAt e).interval, (s1.coreAt o).interval with
      | some v1, some w1 =>
        if fingerprint v1.stream = fingerprint w1.stream then s1.agreePair e o v1 w1
        else if v1.again then s1.killPair e o
        else (((s1.rollback e).rollback o).onCore e Core.reportRollback).onCore o Core.reportRollback
      | _, _ => s1
  | _, _ => s

/-- MIRROR_COMPARE; a survivor makes what its pair had agreed on (R322). -/
def execMirrorCompare (p : Nat) (s : State) : Host.Outcome State Fault Refusal :=
  coreEvent p s (fun s => if s.core.owed.isEmpty then s.mirrorCompare p else s.payOwed p)

end Sys2Proof.Machine
end

