-- ==== Sys2Proof/Machine/Chain.lean ====
section
/-! DEFINITION. Prism chains: records, facets, tables, banks and flips, and PRPUSH to PTFLIP (R381 to R407). -/

namespace Sys2Proof.Machine

open Sys2Proof

def State.chainAt (s : State) (n : Nat) : Chain := s.chains.look (fun _ => Chain.reset) n
def State.setChain (s : State) (n : Nat) (c : Chain) : State := { s with chains := s.chains.put (fun _ => Chain.reset) n c }
def State.onChain (s : State) (n : Nat) (f : Chain → Chain) : State := s.setChain n (f (s.chainAt n))

/-- A bank by 2 × item + bank (R382). -/
def Chain.bank (c : Chain) (k : Nat) : Bank := c.banks.look Bank.reset k
def Chain.setBank (c : Chain) (k : Nat) (b : Bank) : Chain := { c with banks := c.banks.put Bank.reset k b }

/-- An item's current bank, its shadow, and the bank of a record's stamp. -/
def Chain.currentKey (c : Chain) (item : Nat) : Nat := 2 * item + (c.current.testBit item).toNat
def Chain.shadowKey (c : Chain) (item : Nat) : Nat := 2 * item + (!c.current.testBit item).toNat
def PRec.key (r : PRec) (item : Nat) : Nat := 2 * item + (r.stamp.testBit item).toNat

/-- The die that a chain lies on, and the partition that owns it (R381). -/
def chainDie (n : Nat) : Nat := n / 16
def State.chainPart (s : State) (n : Nat) : Nat := ((s.parts.find? (fun e => e.2.chains.testBit n)).map (fun e => e.1)).getD 0

/-- Fields of a facet descriptor (R385). -/
def fdKind (w : Word) : Nat := (w.extractLsb' 20 2).toNat
def fdNext (w : Word) : Nat := (w.extractLsb' 16 4).toNat
def fdMiss (w : Word) : Nat := (w.extractLsb' 0 16).toNat
def fdWidth (w : Word) : Nat := (w.extractLsb' 45 6).toNat
def fdShift (w : Word) : Nat := (w.extractLsb' 40 5).toNat
def fdO (w : Word) (i : Nat) : Nat := (w.extractLsb' (24 + 4 * i) 4).toNat

/-- Whether a primitive keeps R392 in facet `f`; SETF and ADDF use their immediate's bits whatever their source. -/
def primOk (f p : Nat) : Bool :=
  let op := p / 2 ^ 12
  let arg := p % 2 ^ 12
  match op with
  | 0 => decide (arg = 0)
  | 1 => decide (arg / 16 % 4 ≠ 3)
  | 2 => decide (arg / 16 % 4 ≠ 3)
  | 3 => decide (arg < 64)
  | 4 => true
  | 5 => decide (arg < 16 ∧ f + 1 ≤ arg ∧ arg ≤ 8)
  | 6 => decide (arg < 8)
  | 7 => decide (arg = 0)
  | 8 => decide (arg < 16)
  | _ => false

/-- Whether the primitives of an action keep R392. -/
def actionOk (f a : Nat) : Bool := (List.range 4).all (fun i => primOk f (a / 2 ^ (16 * i) % 2 ^ 16))

/-- Whether the descriptor of facet `f` is valid (R387). -/
def facetOk (f : Nat) (w : Word) : Bool :=
  let k := fdKind w
  let used := fun i : Nat => match k with
    | 0 => false
    | 1 => decide (i < 2)
    | 2 => true
    | _ => decide (i = 0)
  let widthOk := match k with
    | 1 => decide (fdShift w = 0)
    | 3 => decide (fdWidth w < 32 ∧ fdShift w + fdWidth w + 1 ≤ 32)
    | _ => decide (fdWidth w = 0 ∧ fdShift w = 0)
  decide (w.extractLsb' 51 13 = 0 ∧ w.extractLsb' 22 2 = 0) && decide (f + 1 ≤ fdNext w ∧ fdNext w ≤ 8) && widthOk &&
    ((List.range 4).all (fun i => used i || decide (fdO w i = 0))) && primOk f (fdMiss w)

/-- A word of a record. -/
def PRec.word (r : PRec) (i : Nat) : Nat := (r.words.getD i 0).toNat

/-- The key of a facet (R386). -/
def PRec.keyOf (r : PRec) (w : Word) : Nat :=
  match fdKind w with
  | 1 => (r.word (fdO w 1) * 2 ^ 32 + r.word (fdO w 0)) % 2 ^ (fdWidth w + 1)
  | 2 => r.word (fdO w 3) * 2 ^ 96 + r.word (fdO w 2) * 2 ^ 64 + r.word (fdO w 1) * 2 ^ 32 + r.word (fdO w 0)
  | 3 => r.word (fdO w 0) / 2 ^ fdShift w % 2 ^ (fdWidth w + 1)
  | _ => 0

/-- The slot of a key in a way of an exact table (R391), as its index. -/
def wayMult (x : Nat) : Nat := [0x9E3779B97F4A7C15, 0xC2B2AE3D27D4EB4F, 0x165667B19E3779F9, 0xD6E8FEB86659FD93].getD x 0
def slotOf (x k : Nat) : Nat := 1024 * x + k * wayMult x % 2 ^ 64 / 2 ^ 54

/-- The index of the entry that matches (R388, R391, R392). -/
def Bank.find (b : Bank) (k : Nat) : Option (Nat × TabEntry) :=
  match b.kind with
  | 1 => (List.range 4).findSome? (fun x =>
      match b.tab.listed (slotOf x k) with
      | some e => if e.key = k then some (slotOf x k, e) else none
      | none => none)
  | 2 => b.tab.find? (fun e => e.2.valid && decide ((k ^^^ e.2.key) &&& e.2.mask = 0))
  | 3 => b.tab.find? (fun e => e.2.valid && decide (e.2.key ≤ k ∧ k ≤ e.2.mask))
  | _ => none

/-- Where a primitive sends a record. -/
inductive Route where
  | on
  | next (f : Nat)
  | out (status : Nat)
  | gone
  | again (f : Nat)
  | blocked (port : Option (Nat × Nat))
  deriving DecidableEq, Repr

/-- A record on its way through the facets, with the state that its primitives make. -/
structure Passing where
  s : State
  r : PRec
  route : Route
  deriving DecidableEq, Repr

/-- The source of SETF and ADDF (R392). -/
def primSource (arg : Nat) (d idx : BitVec 32) (signed : Bool) : BitVec 32 :=
  match arg / 16 % 4 with
  | 0 => d
  | 1 => if signed then (BitVec.ofNat 6 (arg / 64)).signExtend 32 else BitVec.ofNat 32 (arg / 64)
  | _ => idx

/-- PUSHQ (R394). -/
def Passing.pushq (x : Passing) (k : Cap) : Passing :=
  if !k.tag || decide (k.otype ≠ 5) || !k.can .store then { x with route := .out 3 }
  else if k.label < x.r.lab then { x with route := .out 5 }
  else
    let w := fun i : Nat => BitVec.ofNat 64 (x.r.word (2 * i) + x.r.word (2 * i + 1) * 2 ^ 32)
    let e : QEntry := ⟨(List.range 8).map w, [false, false, false, false], x.r.lab⟩
    let y := x.s.push k.addr.toNat e false
    if y.2 = 0 then { x with s := y.1, route := .gone } else { x with r := { x.r with qst := y.2 }, route := .out 4 }

/-- CNT (R394): the counter's doubleword lies in the partition's remote window. -/
def Passing.cnt (x : Passing) (n part : Nat) (k : Cap) (c : Nat) : Passing :=
  let a := k.addr + BitVec.ofNat 64 (4 * c)
  let core := partCore part
  let bad := !k.tag || x.s.revoked core k || decide (k.otype ≠ 0) || !(k.can .load && k.can .store) ||
    decide (a.toNat % 4 ≠ 0) || !k.covers a.toNat 4
  if bad then { x with route := .out 3 }
  else if k.label < x.r.lab then { x with route := .out 5 }
  else
    match (if selfWindow ≤ a.toNat then none else x.s.reach core a 4) with
    | none => { x with route := .out 3 }
    | some (p, off) =>
      if !x.s.portReady part p (chainSrc n) off 4 then { x with route := .blocked (some (p, off)) }
      else { x with s := (x.s.portLeave p (chainSrc n)).perform p ⟨engineSrc, 0, off, a, .amo .add 4 1 0 x.r.lab, true⟩ }

/-- PUNT (R394): it waits while the inbox cannot take it (R313). -/
def Passing.punt (x : Passing) (part rank : Nat) : Passing :=
  match x.s.ofRank (partCore part) rank with
  | none => { x with route := .out 3 }
  | some q =>
    let w := fun i : Nat => BitVec.ofNat 64 (x.r.word (2 * i) + x.r.word (2 * i + 1) * 2 ^ 32)
    let m : InMsg := ⟨.punt, (List.range 4).map w, x.r.lab, 0x1FFF⟩
    if x.s.refuses ⟨q, m, none, part⟩ && decide ((x.s.coreAt q).cstate ≠ .killed) then { x with route := .blocked none }
    else { x with s := x.s.sendMsg ⟨q, m, none, part⟩, route := .gone }

/-- One primitive (R392, R394). -/
def Passing.prim (x : Passing) (c : Chain) (n part : Nat) (d idx : BitVec 32) (p : Nat) : Passing :=
  let arg := p % 2 ^ 12
  let i := arg % 16
  let column := fun j : Nat => SMap.look (fun _ => Cap.null) (c.bank (x.r.key 8)).col j
  match p / 2 ^ 12 with
  | 1 => { x with r := { x.r with words := x.r.words.set i (primSource arg d idx false) } }
  | 2 => { x with r := { x.r with words := x.r.words.set i (x.r.words.getD i 0 + primSource arg d idx true) } }
  | 3 => x.pushq (column (arg % 64))
  | 4 => x.cnt n part (column (arg % 64)) (arg / 64)
  | 5 => { x with route := .next i }
  | 6 => { x with route := .again (arg % 8) }
  | 7 => { x with route := .gone }
  | 8 => x.punt part (x.r.word i % 2 ^ 13)
  | _ => x

/-- Primitives in order, up to the first that routes (R393); one that cannot be performed now waits in its record, the effects of
those before it stand (R394). -/
def Passing.prims (x : Passing) (c : Chain) (n part : Nat) (d idx : BitVec 32) : List Nat → Passing
  | [] => x
  | p :: ps =>
    let y := x.prim c n part d idx p
    match y.route with
    | .on => Passing.prims y c n part d idx ps
    | .blocked _ => { y with r := { y.r with doing := some ⟨p :: ps, d, idx, false⟩ } }
    | _ => y

/-- How the MISS primitive that stands for a RECIRC beyond its limit ends (R395). -/
def Passing.limited (y : Passing) : Passing :=
  match y.route with
  | .on => { y with route := .out 2 }
  | .again _ => { y with route := .out 2 }
  | .blocked _ => { y with r := { y.r with doing := y.r.doing.map (fun a => { a with limited := true }) } }
  | _ => y

/-- RECIRC's limit (R395): the MISS primitive runs in its place, with the datum and index of the lookup. -/
def Passing.limit (x : Passing) (c : Chain) (n part : Nat) (w : Word) (d idx : BitVec 32) : Passing :=
  match x.route with
  | .again f =>
    if x.r.rc < 3 then { x with r := { x.r with rc := x.r.rc + 1, facet := f } }
    else (Passing.prims { x with r := { x.r with status := 2 }, route := .on } c n part d idx [fdMiss w]).limited
  | _ => x

/-- A facet's primitives run, from the first one or from where they waited (R393). -/
def Passing.act (x : Passing) (c : Chain) (n part : Nat) (w : Word) (a : Doing) : Passing :=
  let y := x.prims c n part a.d a.idx a.prims
  let z := if a.limited then y.limited else y.limit c n part w a.d a.idx
  if z.route = .on then { z with route := .next (fdNext w) } else z

/-- What a facet does with a record (R393): a miss has the datum 0 and the index all ones. -/
def Passing.facet (x : Passing) (c : Chain) (n part f : Nat) : Passing :=
  let w := (c.bank (x.r.key 9)).cls.getD f 0
  let x1 := { x with r := { x.r with facet := f, doing := none }, route := .on }
  match x.r.doing with
  | some a => x1.act c n part w a
  | none =>
    if fdKind w = 0 then { x1 with route := .next (fdNext w) }
    else
      let b := c.bank (x.r.key f)
      let x2 := { x1 with r := { x1.r with lab := Label.max x1.r.lab b.lab } }
      match (if b.kind = fdKind w then b.find (x2.r.keyOf w) else none) with
      | some (i, e) =>
        x2.act c n part w ⟨(List.range 4).map (fun j => e.act / 2 ^ (16 * j) % 2 ^ 16), BitVec.ofNat 32 e.d, BitVec.ofNat 32 i, false⟩
      | none => x2.act c n part w ⟨[fdMiss w], 0, 0xFFFFFFFF#32, false⟩

/-- The facets from `f` on, until the record leaves (R393); `fuel` bounds their number. -/
def Passing.run (x : Passing) (c : Chain) (n part f : Nat) : Nat → Passing
  | 0 => { x with route := .out x.r.status }
  | fuel + 1 =>
    let y := x.facet c n part f
    match y.route with
    | .next g => if 8 ≤ g then { y with route := .out y.r.status } else Passing.run y c n part g fuel
    | _ => y

/-- A record of a chain run from where it stands; one that waits for room in the output FIFO has passed its facets. -/
def State.runRecord (s : State) (n : Nat) (r : PRec) : Passing :=
  match r.leave with
  | some st => ⟨s, r, .out st⟩
  | none => Passing.run ⟨s, r, .on⟩ (s.chainAt n) n (s.chainPart n) r.facet 8

/-- Whether a record in a chain holds a bank in its stamp (R398). -/
def Chain.holds (c : Chain) (k : Nat) : Bool := (c.pipe ++ c.recirc).any (fun r => decide (r.key (k / 2) = k))

/-- Banks that no record holds any more are SHADOW (R398). -/
def Chain.settle (c : Chain) : Chain := { c with drain := c.drain.filter c.holds }

/-- CHAIN_RECORD_ENTER (R384): the recirculation port first; a record from the input FIFO takes its stamp.  No new record is taken
while the one at the end cannot leave. -/
def Chain.enter (c : Chain) : Chain :=
  if 24 ≤ c.pipe.length ∨ c.stuck then c
  else
    match c.recirc, c.inq with
    | r :: rest, _ => { c with recirc := rest, pipe := c.pipe ++ [r] }
    | [], r :: rest => { c with inq := rest, pipe := c.pipe ++ [{ r with stamp := c.current, facet := 0 }] }
    | [], [] => c

/-- CHAIN_RECORD_EXIT (R384, R393 to R395): the record at the end leaves, or stays while it cannot, with what it has done. -/
def State.chainExit (s : State) (n : Nat) : State :=
  match (s.chainAt n).pipe with
  | [] => s
  | r :: rest =>
    let y := s.runRecord n r
    let fin := fun (c : Chain) => if s.hold then c else c.settle
    let stay := fun (k : PRec) => y.s.onChain n (fun c => { c with pipe := k :: rest, stuck := true })
    match y.route with
    | .out st =>
      if 64 ≤ (s.chainAt n).outq.length then stay { y.r with leave := some st }
      else y.s.onChain n (fun c =>
        fin { c with pipe := rest, stuck := false, outq := c.outq ++ [{ y.r with status := st, leave := none }] })
    | .again _ => y.s.onChain n (fun c => { c with pipe := rest, stuck := false, recirc := c.recirc ++ [y.r] })
    | .blocked w => (match w with
      | some (p, off) => (stay y.r).portPlace (s.chainPart n) p (chainSrc n) off 4
      | none => stay y.r)
    | _ => y.s.onChain n (fun c => fin { c with pipe := rest, stuck := false })

/-- PTFLIP at a record boundary (R398, R399). -/
def Chain.flip (c : Chain) (mask : Nat) : Chain :=
  let items := (List.range 10).filter mask.testBit
  let olds := items.map c.currentKey
  let news := items.map c.shadowKey
  let drain := (c.drain.filter (fun k => !news.contains k)) ++ olds.filter c.holds
  { c with current := items.foldl (fun m i => m ^^^ 2 ^ i) c.current, drain := drain }

/-- BANK_FLIP (R399): the oldest PTFLIP that waits is performed. -/
def State.bankFlip (s : State) (n : Nat) : State :=
  let c := s.chainAt n
  match c.flips with
  | [] => s
  | (p, mask) :: rest => (s.setChain n (Chain.flip { c with flips := rest } mask)).onCore p (fun k => { k with woken := true })

/-- An event of a chain. -/
def chainEvent (n : Nat) (s : State) (f : State → State) : Host.Outcome State Fault Refusal :=
  if n < 128 then .next (f s) else .fault .noSuchSubject

def execChainRecordEnter (n : Nat) (s : State) : Host.Outcome State Fault Refusal := chainEvent n s (fun s => s.onChain n Chain.enter)
def execChainRecordExit (n : Nat) (s : State) : Host.Outcome State Fault Refusal := chainEvent n s (fun s => s.chainExit n)

/-- CHAIN_RECIRCULATE (R395): the record at the end leaves through the recirculation port, if that is where it goes. -/
def execChainRecirculate (n : Nat) (s : State) : Host.Outcome State Fault Refusal :=
  chainEvent n s (fun s =>
    match (s.chainAt n).pipe with
    | [] => s
    | r :: _ =>
      match (s.runRecord n r).route with
      | .again _ => s.chainExit n
      | _ => s)

def execBankFlip (n : Nat) (s : State) : Host.Outcome State Fault Refusal := chainEvent n s (fun s => s.bankFlip n)

/-- BANK_DRAIN_COMPLETE (R398). -/
def execBankDrainComplete (n item bank : Nat) (s : State) : Host.Outcome State Fault Refusal :=
  chainEvent n s (fun s => s.onChain n (fun c =>
    let k := 2 * item + bank % 2
    if c.holds k then c else { c with drain := c.drain.filter (fun x => decide (x ≠ k)) }))

/-- The checks on a chain capability (R381, R401). -/
def State.chainTrap (s : State) (n : Name) (k : Cap) (perm : Perm) : Fails :=
  firstOf [failIf (!k.tag) .tag (nameVal n), failIf (decide (k.otype ≠ 6)) .seal (nameVal n), failIf (!k.can perm) .perm (nameVal n),
    failIf (decide (128 ≤ k.addr.toNat ∨ s.core.part = 0 ∨ s.chainPart k.addr.toNat ≠ s.core.part)) .bounds k.addr]

/-- PRPUSH (R397, R402). -/
def execPrpush (h : Hd) (d a b : Name) (s : State) :=
  run (.prpush h d a b) s (fun s =>
    let k := s.core.rdCap a
    guarded (firstOf [s.chainTrap a k .store, failIf (decide (k.label < s.core.recordLabel b)) .label k.addr]) s (fun s =>
      afterAcquire s (fun s => afterRelease true s (fun s => once false s (fun s =>
        let c := s.core
        let n := k.addr.toNat
        let x := s.chainAt n
        let ws := (c.recordWords b).flatMap (fun w : Word => [w.setWidth 32, (w >>> 32).setWidth 32])
        if s.launchWaits c.part then .done s (c.wordResult d 4)
        else if 64 ≤ x.inq.length then .done s (c.wordResult d 2)
        else .done (s.setChain n { x with inq := x.inq ++ [⟨ws, c.recordLabel b, 0, 0, 0, 0, 0, none, none⟩] }) (c.wordResult d 0))))))

/-- PRPOP (R403), an acquire at part scope (R397). -/
def execPrpop (h : Hd) (d a : Name) (s : State) :=
  run (.prpop h d a) s (fun s =>
    let k := s.core.rdCap a
    guarded (s.chainTrap a k .load) s (fun s => afterAcquire s (fun s => (once true s (fun s =>
      let n := k.addr.toNat
      let x := s.chainAt n
      match x.outq with
      | [] => .done s (qResult 1)
      | r :: rest =>
        let w := fun i : Nat => BitVec.ofNat 64 (r.word (2 * i) + r.word (2 * i + 1) * 2 ^ 32)
        let v := r.status + r.qst % 16 * 2 ^ 8 + r.facet % 8 * 2 ^ 12 + rest.length * 2 ^ 16
        .done (s.setChain n { x with outq := rest })
          (s.core.recordResult d ((List.range 8).map w) [false, false, false, false] r.lab ++ qResult (BitVec.ofNat 64 v)))).acquire true)))

/-- PRCLASS (R404). -/
def execPrclass (h : Hd) (d a b : Name) (s : State) :=
  run (.prclass h d a b) s (fun s =>
    let k := s.core.rdCap a
    guarded (firstOf [s.chainTrap a k .table, failIf (decide (k.label < s.core.recordLabel b)) .label k.addr]) s (fun s =>
      afterAcquire s (fun s => once false s (fun s =>
        let c := s.core
        let n := k.addr.toNat
        let x := s.chainAt n
        let ws := c.recordWords b
        let y := x.shadowKey 9
        match (List.range 8).find? (fun f => !facetOk f (ws.getD f 0)) with
        | some f => .done s (c.wordResult d (BitVec.ofNat 64 (0x100 + f)))
        | none =>
          if x.drain.contains y then .wait s
          else
            let lab := Label.max (x.bank y).lab (c.recordLabel b)
            .done (s.setChain n (x.setBank y { x.bank y with cls := ws, lab := lab })) (c.wordResult d 0)))))

/-- An exact table with an entry placed by the loop of R391; none when 32 displacements do not find room. -/
def placeExact (tab : SMap TabEntry) (e : TabEntry) (w : Nat) : Nat → Option (SMap TabEntry)
  | 0 => none
  | n + 1 =>
    match (List.range 4).find? (fun v => (tab.listed (slotOf v e.key)).isNone) with
    | some v => some (tab.list (slotOf v e.key) e)
    | none =>
      match tab.listed (slotOf w e.key) with
      | some f => placeExact (tab.list (slotOf w e.key) e) f ((w + 1) % 4) n
      | none => none

/-- One entry of an exact image processed (R391); none for TFULL. -/
def insertExact (tab : SMap TabEntry) (e : TabEntry) (valid : Bool) : Option (SMap TabEntry) :=
  let here := (List.range 4).find? (fun x => decide ((tab.listed (slotOf x e.key)).map TabEntry.key = some e.key))
  match here with
  | some x => some (if valid then tab.list (slotOf x e.key) e else tab.drop (slotOf x e.key))
  | none => if valid then placeExact tab e 0 32 else some tab

/-- Bytes of an entry of an image, by kind; 0 is the column (R389). -/
def tabSize (kind : Nat) : Nat := match kind with
  | 1 => 32 | 2 => 64 | 3 => 32 | _ => 16

/-- An entry of a table image (R389): what it says; none when it is malformed for its facet. -/
def State.tabEntry (s : State) (kind f a : Nat) : Option TabEntry :=
  let base := if kind = 2 then a + 32 else a + 8
  let act := s.numAt base 8
  let d := s.numAt (base + 8) 4
  let flags := s.numAt (base + 12) 4
  let rsv := if kind = 2 then s.numAt (a + 48) 16 else s.numAt (a + 24) 8
  let e : TabEntry := match kind with
    | 2 => ⟨s.numAt a 16, s.numAt (a + 16) 16, act, d, decide (flags = 1)⟩
    | 3 => ⟨s.numAt a 4, s.numAt (a + 4) 4, act, d, decide (flags = 1)⟩
    | _ => ⟨s.numAt a 8, 0, act, d, decide (flags = 1)⟩
  if rsv ≠ 0 ∨ 1 < flags ∨ (kind = 3 ∧ e.mask < e.key) ∨ !actionOk f act then none else some e

/-- One entry written into a shadow bank (R405): the bank, or the status that stops PTWR. -/
def State.writeTab (s : State) (b : Bank) (k : Cap) (kind f idx a : Nat) (keep : Bool) : Bank × Nat :=
  let lab := s.labelOver a (tabSize kind)
  let up := fun x : Bank => { x with lab := Label.max x.lab lab }
  if kind = 0 then
    if k.label < lab then (b, 5)
    else
      let g := (s.sweptCap s.core (s.granule a)).keepTag keep
      (up { b with col := b.col.put (fun _ => Cap.null) idx g }, 0)
  else
    match s.tabEntry kind f a with
    | none => (if k.label < lab then b else up b, 3)
    | some e =>
      if k.label < lab then (b, 5)
      else if kind = 1 then
        match insertExact b.tab e e.valid with
        | some t => (up { b with tab := t }, 0)
        | none => (up b, 1)
      else (up { b with tab := b.tab.list idx e }, 0)

/-- The entries of an image written in order (R405): the bank, how many were written, the status. -/
def State.writeTabs (s : State) (b : Bank) (k : Cap) (kind f first base : Nat) (keep : Bool) (done : Nat) : Nat → Bank × Nat × Nat
  | 0 => (b, done, 0)
  | n + 1 =>
    let r := s.writeTab b k kind f (first + done) (base + tabSize kind * done) keep
    if r.2 = 0 then State.writeTabs s r.1 k kind f first base keep (done + 1) n else (r.1, done, r.2)

/-- Whether the range of PTWR keeps its limits (R405). -/
def rangeOk (kind : Nat) (v : Word) : Bool :=
  let first := v.toNat % 2 ^ 16
  let n := v.toNat / 2 ^ 16 % 2 ^ 16
  decide (v.toNat < 2 ^ 32 ∧ 1 ≤ n) &&
    (match kind with
     | 1 => decide (first = 0 ∧ n ≤ 4096)
     | 2 => decide (first + n ≤ 512)
     | 3 => decide (first + n ≤ 256)
     | _ => decide (first + n ≤ 64))

/-- Whether a PREEMPT or an EXTIRQ is pending, which stops a PTWR (R405). -/
def Core.stopsLong (c : Core) : Bool := c.duePreempt || decide (c.evt &&& c.evmask ≠ 0)

/-- The checks of PTWR (R405): on the chain, and on the image when its range keeps the limits. -/
def State.tabTrap (s : State) (a b : Name) (kind : Nat) (y : TabRun) : Fails :=
  let size := y.range.toNat / 2 ^ 16 % 2 ^ 16 * tabSize kind
  firstOf [s.chainTrap a y.chain .table,
    if rangeOk kind y.range then s.accessTrap b y.image (y.image.can .load) (tabSize kind) size y.image.addr none else none]

/-- A PTWR goes on (R405): all of its entries, or the next one while accesses wait for their events; a killed core's store reads
as 0 (R471). -/
def State.tabStep (s : State) (d : Name) (item kind : Nat) (y : TabRun) : Once :=
  let c := s.core
  let n := y.chain.addr.toNat
  let x := s.chainAt n
  let count := y.range.toNat / 2 ^ 16 % 2 ^ 16
  let size := count * tabSize kind
  let ends := fun (u : State) (done status : Nat) =>
    Once.done (u.mapCore (fun c => { c with tabRun := none })) (c.wordResult d (BitVec.ofNat 64 (done + status * 2 ^ 16)))
  if !rangeOk kind y.range then ends s 0 4
  else
    match s.reach c y.image.addr size with
    | none => .wait s
    | some (o, off) =>
      let old := x.bank y.bank
      let bank := if kind = 0 ∨ old.kind = kind then old else { old with kind := kind, tab := [], lab := 0 }
      if y.done = 0 ∧ x.drain.contains y.bank then .wait s
      else if !s.portOpen (atSrc c.phys) o off size (write := false) then .wait (s.portTake (atSrc c.phys) o off size (write := false))
      else if c.stopsLong then ends (if y.done = 0 then s.setChain n (x.setBank y.bank bank) else s) y.done 2
      else
        let s := s.portEnter o
        let image := if (s.coreAt o).cstate = .killed then s.zeroRange (lsBase o + off) size else s
        let most := if s.hold && !c.gang.fused then 1 else count - y.done
        let r := image.writeTabs bank y.chain kind item (y.range.toNat % 2 ^ 16) (lsBase o + off)
          (y.image.can .caprd && y.chain.can .capwr) y.done most
        let s1 := (s.tellKilled o y.image.addr).setChain n (x.setBank y.bank r.1)
        if r.2.2 ≠ 0 ∨ count ≤ r.2.1 then ends s1 r.2.1 r.2.2
        else .wait (s1.mapCore (fun c => { c with tabRun := some { y with done := r.2.1 } }))

/-- PTWR (R405). -/
def execPtwr (h : Hd) (d a b cn : Name) (item kind : Nat) (s : State) :=
  run (.ptwr h d a b cn item kind) s (fun s =>
    let c := s.core
    let k := c.rdCap a
    let y := c.tabRun.getD ⟨0, k, c.rdCap b, (c.rd cn).v, (s.chainAt k.addr.toNat).shadowKey item⟩
    guarded (if c.tabRun.isSome then none else s.tabTrap a b kind y) s (fun s => afterAcquire s (fun s =>
      once false s (fun s => s.tabStep d item kind y))))

/-- The image of an entry, as PTRD returns it in four words (R389, R406). -/
def entryWords (kind half : Nat) (e : TabEntry) : List Word :=
  let w := fun n : Nat => BitVec.ofNat 64 n
  let tail := [w e.act, w (e.d + e.valid.toNat * 2 ^ 32), 0]
  match kind with
  | 2 => if half = 1 then tail ++ [0] else [w e.key, w (e.key / 2 ^ 64), w e.mask, w (e.mask / 2 ^ 64)]
  | 3 => w (e.key + e.mask * 2 ^ 32) :: tail
  | _ => w e.key :: tail

/-- What PTRD reads (R406). -/
def Bank.read (b : Bank) (item half : Nat) (v : Word) : List Word :=
  let zero : List Word := [0, 0, 0, 0]
  if item = 9 then (List.range 4).map (fun i => b.cls.getD (4 * half + i) 0)
  else if item = 8 then
    let k := SMap.look (fun _ => Cap.null) b.col v.toNat
    [k.addr, k.hi, 0, 0]
  else
    match b.kind with
    | 1 => ((b.find v.toNat).map (fun e => entryWords 1 half e.2)).getD zero
    | k => ((b.tab.listed v.toNat).map (entryWords k half)).getD zero

/-- PTRD (R406). -/
def execPtrd (h : Hd) (d a b : Name) (item bank half : Nat) (s : State) :=
  run (.ptrd h d a b item bank half) s (fun s =>
    let k := s.core.rdCap a
    guarded (s.chainTrap a k .load) s (fun s => afterAcquire s (fun s => once true s (fun s =>
      let x := s.chainAt k.addr.toNat
      let y := x.bank (if bank = 0 then x.currentKey item else x.shadowKey item)
      .done s (s.core.vectorResult d (y.read item half (s.core.rd b).v) y.lab)))))

/-- PTFLIP (R399, R407): it waits until the chain has performed it. -/
def execPtflip (h : Hd) (a : Name) (mask : Nat) (s : State) :=
  run (.ptflip h a mask) s (fun s =>
    let k := s.core.rdCap a
    guarded (s.chainTrap a k .table) s (fun s => afterAcquire s (fun s => once false s (fun s =>
      let n := k.addr.toNat
      let x := s.chainAt n
      let p := s.core.phys
      if s.core.woken then .done s []
      else if x.flips.any (fun f => decide (f.1 = p)) then .wait s
      else if s.hold || !x.flips.isEmpty then
        .wait ((s.setChain n { x with flips := x.flips ++ [(p, mask)] }).mapCore (fun c => { c with waiting := some (0x40000 + n) }))
      else .done (s.setChain n (x.flip mask)) []))))

end Sys2Proof.Machine
end

