-- ==== Sys2Proof/Machine/Page.lean ====
section
/-! DEFINITION. The loupe cores' ports and TLBW, TLBI, FRPOP, CRESUME; scrub and pseudo-channel repair (R415 to R430). -/

namespace Sys2Proof.Machine

open Sys2Proof

/-- Whether a page service instruction may issue on a core (R425, R426): one that is named, or whose mirror mate is. -/
def Core.serves (c : Core) (ok : Nat → Bool) : Bool := ok c.phys || (c.interval.isSome && ok (mateOf c.phys))

/-- A page service instruction on a core that may issue it, alone (R425, R426). -/
def pageInstr (ok : Nat → Bool) (late : Bool) (f : Fails) (s : State) (body : State → Once) : Res :=
  guarded (firstOf [s.illegalIf (!s.core.serves ok || s.core.gang.fused), f]) s (fun s => afterAcquire s (fun s => once late s body))

/-- The miss slot of a tile freed, its message withdrawn (R415). -/
def State.closeMiss (s : State) (t m : Nat) : State := (s.dropMissMsgs (fun x => decide (x = (t, m)))).freeMiss t m

/-- The cards that wait on a slot fault (R420, R427). -/
def State.faultMiss (s : State) (t m fcode : Nat) : State :=
  match (s.tileAt t).misses.listed m with
  | none => s
  | some x =>
    (s.tileAt t).cards.foldl (fun u e =>
      match u.cardAt t e.1 with
      | some k =>
        match k.miss with
        | some w =>
          if w.slot = m then u.faultCard t e.1 k ⟨if x.prot then 2 else 1, decide (fcode = 2), w.write, w.va, u.clock % 2 ^ 32⟩ else u
        | none => u
      | none => u) s

/-- A TLBW has named a slot of a tile: its message is in flight no more (R416). -/
def State.landMiss (s : State) (t m : Nat) : State :=
  let rest := (SMap.look (fun _ => []) s.inflight (t / 4)).filter (fun x => decide (x.1 ≠ t ∨ x.2.1 ≠ m))
  { s with inflight := s.inflight.put (fun _ => []) (t / 4) rest }

/-- A page that an entry of a partition maps in HBM is one of its pages (notes/assumptions/60.md). -/
def State.mapsPage (s : State) (e : TEntry) : State :=
  let x := (tePart e, tePpn e * 4096, teBytes e)
  if tePart e = 0 ∨ s.hbmTop ≤ tePpn e * 4096 ∨ s.pages.contains x then s else { s with pages := s.pages ++ [x] }

/-- TLBW (R427): its status; an entry for the host link is refused while its partition's driver has not registered (R455,
notes/assumptions/82.md). -/
def State.tlbw (s0 : State) (t : Nat) (e : TEntry) (tgt : Word) : State × Nat :=
  let s := s0.landMiss t (tgt.toNat / 2 ^ 32 % 2 ^ 16)
  let x := s.tileAt t
  let req := tgt.toNat / 2 ^ 32 % 2 ^ 16
  let named := decide (req ≠ 0xFFFF)
  let close := fun u : State => if named then u.closeMiss t req else u
  if tgt.toNat / 2 ^ 48 ≠ 0 ∨ tgt.toNat / 4 % 2 ^ 14 ≠ 0 ∨ (16 ≤ req ∧ req ≤ 0xFFFE) ∨ s.malformed e ∨
      (teValid e ∧ hostBase ≤ tePpn e * 4096 ∧ s.unregistered.contains (tePart e)) then (s, 2)
  else if tgt.toNat / 2 ^ 16 % 2 ^ 16 ≠ x.gen then (close s, 1)
  else if named && decide ((x.misses.listed req).map Miss.st ≠ some .walking) then (s, 3)
  else if teValid e then (close ((s.onTile t (fun x => x.fill e)).mapsPage e), 0)
  else if teFcode e = 0 then
    let keep := fun j : TEntry => !(decide (tePart j = tePart e) && teCovers j (teVpn e * 4096))
    (close (s.onTile t (fun x => { x with tlb := x.tlb.filter keep })), 0)
  else if named then ((s.faultMiss t req (teFcode e)).closeMiss t req, 0)
  else (s, 0)

def execTlbw (h : Hd) (d a b : Name) (s : State) :=
  run (.tlbw h d a b) s (fun s =>
    let isW := match a with
      | .w _ => true
      | _ => false
    let tail := firstOf [failIf (!isW) .illopnd (BitVec.ofNat 64 (a.code h.len)),
      failIf (decide (s.core.top ≤ s.core.physOf a + 1)) .lenslimit (BitVec.ofNat 64 (nameNum a + 1))]
    pageInstr s.isLoupe false tail s (fun s =>
    let c := s.core
    let vs := c.rdMany a 2
    let e : TEntry := (vs.getD 1 zeroVal).v ++ (vs.getD 0 zeroVal).v
    let tgt := (c.rd b).v
    let r := s.tlbw (clusterOf c.phys * 4 + tgt.toNat % 4) e tgt
    .done r.1 (c.wordResult d (BitVec.ofNat 64 r.2))))

/-- Entries removed from a tile's cache, which goes to its next generation (R417, R428). -/
def Tile.invalidate (x : Tile) (f : TEntry → Bool) : Tile := { x with tlb := x.tlb.filter (fun e => !f e), gen := (x.gen + 1) % 2 ^ 16 }

/-- The buffered writes that went through an entry of a tile, performed where they can be (R428, R483). -/
def State.drainVia (s : State) (f : FarWrite → Bool) : State := (s.cardbuf.map (fun e => e.1)).foldl (fun u k => u.drainBuf k f) s

/-- TLBI (R428): it waits for the writes that removed entries have translated. -/
def execTlbi (h : Hd) (a b : Name) (ext : Nat) (s : State) :=
  run (.tlbi h a b ext) s (fun s =>
    let v := (s.core.rd b).v
    pageInstr (fun p => s.isLoupe p || s.isServer p) false (failIf (decide (64 ≤ v.toNat)) .bounds v) s (fun s =>
      let c := s.core
      let va := (c.rd a).v.toNat
      let hit := fun e : TEntry => decide (tePart e = v.toNat) && (decide (2 ≤ ext) || teCovers e va)
      let tiles := if ext % 2 = 0 then (List.range 4).map (fun i => clusterOf c.phys * 4 + i) else List.range 512
      let used := fun w : FarWrite => tiles.contains w.tile && (w.via.map hit).getD false
      let s1 := s.drainVia used
      if s1.cardbuf.any (fun e => e.2.any used) then .wait s1
      else .done (tiles.foldl (fun u t => u.onTile t (fun x => x.invalidate hit)) s1) []))

/-- Messages of a partition that are in flight at a cluster's loupe core (R416). -/
def State.walking (s : State) (cl part : Nat) : Nat :=
  ((SMap.look (fun _ => []) s.inflight cl).filter (fun m => decide (m.2.2 = part))).length

/-- The partition of a miss message. -/
def State.missPart (s : State) (m : Nat × Nat) : Nat := (((s.tileAt m.1).misses.listed m.2).map Miss.part).getD 0

/-- The partition that a loupe core's port serves next (R416): it goes on up to its weight, then the next in order. -/
def State.nextMissPart (s : State) (cl : Nat) : Option Nat :=
  let ms := SMap.look (fun _ => []) s.missq cl
  let ready := fun p : Nat => ms.any (fun m => decide (s.missPart m = p)) && decide (s.walking cl p < 16)
  let last := SMap.look (fun _ => (0, 0)) s.missrr cl
  if ready last.1 && decide (last.2 < max 1 (s.partAt last.1).weight) then some last.1
  else ((List.range 64).map (fun i => (last.1 + 1 + i) % 64)).find? ready

/-- A miss message (R416). -/
def missWords (t m : Nat) (x : Miss) : List Word :=
  [BitVec.ofNat 64 x.va, 0, BitVec.ofNat 64 x.card,
    BitVec.ofNat 64 (m + t % 4 * 2 ^ 4 + x.write.toNat * 2 ^ 8 + x.prot.toNat * 2 ^ 9 + x.part % 64 * 2 ^ 10 + x.gen * 2 ^ 16)]

/-- The message that FRPOP.MISS takes (R416, R429). -/
def State.popMiss (s : State) (cl : Nat) : Option (List Word × State) :=
  match s.nextMissPart cl with
  | none => none
  | some p =>
    match takeFirst (fun m => decide (s.missPart m = p)) (SMap.look (fun _ => []) s.missq cl) with
    | none => none
    | some (m, rest) =>
      match (s.tileAt m.1).misses.listed m.2 with
      | none => none
      | some x =>
        let last := SMap.look (fun _ => (0, 0)) s.missrr cl
        let s1 : State := { s with
          missq := s.missq.put (fun _ => []) cl rest
          inflight := s.inflight.put (fun _ => []) cl (SMap.look (fun _ => []) s.inflight cl ++ [(m.1, m.2, p)])
          missrr := s.missrr.put (fun _ => (0, 0)) cl (p, if last.1 = p then last.2 % max 1 (s.partAt p).weight + 1 else 1) }
        some (missWords m.1 m.2 x, s1.onTile m.1 (fun y => { y with misses := y.misses.list m.2 { x with st := .walking } }))

/-- FRPOP (R429). -/
def execFrpop (h : Hd) (d : Name) (src : Nat) (s : State) :=
  run (.frpop h d src) s (fun s => pageInstr (if src = 0 then s.isLoupe else s.isServer) true none s (fun s =>
    let c := s.core
    let res := fun (ws : List Word) (left : Nat) => c.vectorResult d ws 0 ++ qResult (BitVec.ofNat 64 (left * 2 ^ 16))
    if src = 0 then
      let cl := clusterOf c.phys
      let left := fun u : State => (SMap.look (fun _ => []) u.missq cl).length
      match s.popMiss cl with
      | some (ws, t) => .done t (res ws (left t))
      | none => .done s (qResult (BitVec.ofNat 64 (1 + left s * 2 ^ 16)))
    else
      let die := dieOf c.phys
      let x := s.dieAt die
      match (if src = 1 then x.retry else x.term) with
      | [] => .done s (qResult 1)
      | r :: rest =>
        .done (s.setDie die (if src = 1 then { x with retry := rest } else { x with term := rest })) (res r.words rest.length)))

/-- The card that a card id names, when the issuing core serves it (R430). -/
def State.servedCard (s : State) (c : Core) (id : Word) : Option (Nat × Nat × Card) :=
  let t := id.toNat / 2 ^ 32
  if 512 ≤ t ∨ !(if s.isLoupe c.phys then decide (t / 4 = clusterOf c.phys) else decide (tileDie t = dieOf c.phys)) then none
  else ((s.tileAt t).byHandle (BitVec.ofNat 64 (id.toNat % 2 ^ 32))).map (fun r => (t, r.1, r.2))

/-- CRESUME (R430). -/
def execCresume (h : Hd) (d a : Name) (kill : Nat) (s : State) :=
  run (.cresume h d a kill) s (fun s => pageInstr (fun p => s.isLoupe p || s.isServer p) false none s (fun s =>
    let c := s.core
    match s.servedCard c (c.rd a).v with
    | none => .done s (c.wordResult d goneWord)
    | some (t, e, k) =>
      let s1 := if k.state ≠ .faulted ∨ k.ending.isSome then s
        else if kill = 1 then s.endCard t e k stTermfault
        else s.setCard t e { k with state := .waiting }
      .done s1 (c.wordResult d k.word)))

/-- HBM_SCRUB (R424): `bad` says that the burst's error is uncorrectable. -/
def execHbmScrub (burst bad : Nat) (s : State) : Host.Outcome State Fault Refusal :=
  if s.hbmTop ≤ 64 * burst then .fault .noSuchSubject
  else if bad = 0 then .next s
  else .next (({ s with reports := s.reports ++ [.poisoned burst] } : State).setBurst (64 * burst)
    { s.burst (64 * burst) with poison := true, writer := (0, 0), written := 0 })

/-- A pseudo-channel dropped (R423, R473): what stood above the new capacity is unmapped, the rest keeps its physical
addresses. -/
def State.dropChannel (s : State) (n : Nat) : State :=
  let s1 := { s with dead := s.dead ++ [n], pcdrop := s.pcdrop.put (fun _ => 0) (n / 64) (SMap.look (fun _ => 0) s.pcdrop (n / 64) + 1) }
  let lo := s1.hbmTop
  let hi := s.hbmTop
  let gone := fun e : TEntry => decide (lo < tePpn e * 4096 + teBytes e ∧ tePpn e * 4096 < hi)
  let s2 : State := { s1 with
    mem := s1.mem.clearRange lo hi
    labels := s1.labels.clearRange (lo / 64) (hi / 64)
    tags := s1.tags.clearRange (lo / 16) (hi / 16)
    bursts := s1.bursts.clearRange (lo / 64) (hi / 64) }
  (s2.tiles.map (fun e => e.1)).foldl (fun u t => u.onTile t (fun x => x.invalidate gone)) s2

end Sys2Proof.Machine
end

