-- ==== Sys2Proof/Machine/Evict.lean ====
section
/-! DEFINITION. Eviction and restoring of cores, and the turns of SHARED partitions (R242, R295, R339, R436 to R438, R464). -/

namespace Sys2Proof.Machine

open Sys2Proof

/-- The port's entry, and its gateway cores (R458, R463). -/
def State.portAt (s : State) (n : Nat) : KPort := s.ports.look (fun _ => KPort.reset) n
def State.setPort (s : State) (n : Nat) (x : KPort) : State := { s with ports := s.ports.put (fun _ => KPort.reset) n x }
def portCores (n : Nat) : List Nat := (List.range 4).map (gatewayCore n)

/-- Where a core's image is kept (R437, R464): by partition and rank, a gateway core's by its id. -/
def State.imageKey (s : State) (p : Nat) : Nat := if isGateway p then 2 ^ 20 + p else s.imageNo (s.coreAt p).part p

/-- Whether a core can be evicted now (R50, R242, R437): it issues for a team, everything that it issued is over, no card that
it started on the matrix engine runs. -/
def State.canEvict (s : State) (p : Nat) : Bool :=
  let c := s.coreAt p
  decide (c.cstate = .running) && c.tabRun.isNone && (if s.hold then c.quiet else c.landReady.quiet) && decide (c.retiredIn = 0) &&
    decide (c.pair.pstate ≠ .copying) && (isGateway p || decide (tilePos p ≠ 15) || !(s.tileAt (tileOf p)).matrixRuns)

/-- The cores that are evicted together: both of a mirror pair (R437). -/
def State.evictedWith (s : State) (p : Nat) : List Nat := if (s.coreAt p).interval.isSome then [p, mateOf p] else [p]

/-- A mirror pair that is to be evicted ends its interval at its next boundary (R295, R437). -/
def State.forceEnd (s : State) (p : Nat) : State :=
  let c := s.coreAt p
  if c.cstate = .running ∧ c.pair.pstate = .running ∧ c.retiredIn ≠ 0 ∧ !(s.focus p).mateAhead then s.onCore p Core.endInterval else s

/-- The team on a tile, with its kernel and number. -/
def State.teamOn (s : State) (t : Nat) : Option (Nat × Kernel × Nat × Team) :=
  (s.tileAt t).team.bind (fun x => (s.kernels.listed x.1).bind (fun k => (k.teams[x.2]?).map (fun m => (x.1, k, x.2, m))))

/-- A team's time on its tile stops counting (R438). -/
def State.pauseTeam (s : State) (t : Nat) : State :=
  match s.teamOn t with
  | none => s
  | some (kn, k, i, m) =>
    let ran := m.ran s.clock
    if m.st ≠ .placed ∨ m.paused then s
    else
      s.setTeam kn { k with used := min (2 ^ 64 - 1) (k.used + m.n * ran) } i { m with since := s.clock, left := m.left - ran, paused := true }

/-- It counts again once every core of the team runs for it (R438). -/
def State.countTeam (s : State) (t : Nat) : State :=
  match s.teamOn t with
  | none => s
  | some (kn, k, i, m) =>
    let back := (s.teamCores t m.n).all (fun p => !s.unreachable k.part p)
    if m.paused && back then s.setTeam kn k i { m with since := s.clock, paused := false } else s

/-- The save slots of a port, which F firmware chooses when they are first needed (R458; notes/assumptions/114.md). -/
def State.saveSlots (s : State) (n : Nat) : State :=
  let x := s.portAt n
  if x.gwsave ≠ 0 then s
  else
    let at_ := (Config.freeWord s.freeCtr).toNat % (s.hbmTop / 0x100000) * 0x100000
    State.setPort { s with freeCtr := s.freeCtr + 1 } n { x with gwsave := at_ }

/-- One core's image taken at its boundary (R437, R464); what it holds stays where it is until another context needs the place. -/
def State.saveCore (s : State) (p : Nat) : State :=
  let s1 := State.haltForSave (if s.hold then s else s.onCore p Core.landReady) p
  let s2 := { s1 with images := s1.images.list (s1.imageKey p) (s1.coreImg 0x30 [] p) }
  if isGateway p then s2.saveSlots (gatewayPort p) else s2.pauseTeam (tileOf p)

/-- Eviction (R437): a mirror pair first ends its interval. -/
def State.evict (s : State) (p : Nat) : State :=
  let ps := s.evictedWith p
  if ps.all s.canEvict then ps.foldl State.saveCore s else s.forceEnd p

/-- What waited for a core goes on: the accesses at its port as new arrivals, messages and signals (R207, R313, R339). -/
def State.reopen (s : State) (p : Nat) : State :=
  if s.hold then s
  else
    let here := fun a : Access => { a with arrived := a.arrived || !s.away (s.srcPart a.src) p }
    let s1 := (s.onCore p (fun c => { c with portq := c.portq.map here })).drain p
    let s2 := s1.enterWaiting p s1.flights.length
    let mine := fun g : Signal => decide (g.dst = p) && !s2.away g.part p
    (s2.signals.filter mine).foldl State.arrive { s2 with signals := s2.signals.filter (fun g => !mine g) }

/-- A saved core goes on at its place (R437): its inbox, and a reply that it held (R146), which waits where the inbox is full. -/
def State.putCore (s : State) (p : Nat) (x : CoreImg) : State :=
  let c := x.core.restFp
  let late := if c.paired ∧ p % 2 = 1 then [] else asFlights p c.part (c.inbox.drop 64)
  let s1 := (s.putStore p x.store).onCore p (fun old => c.resumeOn id id { old with inbox := c.inbox.take 64 })
  let s2 := State.reopen { s1 with flights := late ++ s1.flights } p
  State.readyChanged (if isGateway p then s2 else s2.countTeam (tileOf p)) c.part

/-- Restoring (R437, R464): the image of the partition whose context was evicted from the core. -/
def State.restore (s : State) (p : Nat) : State :=
  let c := s.coreAt p
  let k := s.imageKey p
  match s.images.listed k with
  | some x => if c.cstate = .evicted then State.putCore { s with images := s.images.drop k } p x else s
  | none => s

/-- Whether a partition's contexts may run: its state is RUN (R434), and neither a repair nor an activation holds it (R423, R446); a
context of no partition may in every other case. -/
def State.partRuns (s : State) (part : Nat) : Bool := !s.launchWaits part && s.repair.isNone && !s.fw.activating

/-- The current slot of the SHARED partitions (R436). -/
def State.slotNow (s : State) : Nat := s.clock / 500000 % 16

/-- Whether a partition's interval holds a chip index. -/
def Part.holds (x : Part) (i : Nat) : Bool := decide (x.base ≤ i ∧ i < x.base + x.len)

/-- Whether a SHARED partition is primary on a core (R436). -/
def State.primary (s : State) (part i : Nat) : Bool :=
  let x := s.partAt part
  x.shared && x.holds i &&
    (x.slots.testBit s.slotNow || !(s.parts.any (fun e => decide (e.1 ≠ part) && e.2.holds i)))

/-- Whether a saved image holds a context that goes on (R436). -/
def CoreImg.isLive (x : CoreImg) : Bool := decide (x.core.cstate = .evicted)

/-- Whether a partition uses a tile: it claims the tile, or its team stands saved there (R436, R437). -/
def State.usesTile (s : State) (part t : Nat) : Bool :=
  s.claimed part t || ((s.tileImages.listed (part * 512 + t)).map (fun x => x.tile.team.isSome)).getD false

/-- Whether a partition needs a core (R436): a live context, a claimed tile, or an access of a core or of the host that waits for
its rank. -/
def State.needs (s : State) (part p : Nat) : Bool :=
  ((s.imageOf part p).map CoreImg.isLive).getD false || s.usesTile part (tileOf p) ||
    (s.coreAt p).portq.any (fun a => decide (s.srcPart a.src = part)) ||
    s.inbound.any (fun x => decide (x.part = part ∧ x.store = some p) && x.left && !x.performed) || s.awaited.contains (part, p)

/-- A core that no context of its partition has used: nothing runs on it, its store is zero. -/
def State.freshCore (s : State) (part p : Nat) : State :=
  let fresh := fun old : Core =>
    { Core.reset p with cstate := .idle, part := part, portq := old.portq, told := old.told, traceSeq := old.traceSeq, regs := [], tags := [] }
  ((s.clearStore p).onCore p fresh).reopen p

/-- A saved context that is no longer at its place keeps the event bits that have come there since it was saved (R302). -/
def State.keepEvt (s : State) (p : Nat) : State :=
  match s.images.listed (s.imageKey p) with
  | some x => { s with images := s.images.list (s.imageKey p) { x with core := { x.core with evt := x.core.evt ||| (s.coreAt p).evt } } }
  | none => s

/-- A core goes from one partition to another (R436): its context is saved, the other's is restored. -/
def State.switchCore (s : State) (part p : Nat) : State :=
  let s1 := if (s.coreAt p).part = 0 then s else if (s.coreAt p).cstate = .evicted then s.keepEvt p else s.saveCore p
  let s2 := s1.onCore p (fun c => { c with portq := c.portq.map (fun a => { a with arrived := false }), evt := 0 })
  match s2.imageOf part p with
  | some x => State.putCore { s2 with images := s2.images.drop (s2.imageNo part p) } p x
  | none => s2.freshCore part p

/-- A tile goes to a partition that uses it (R244, R267, R437). -/
def State.switchTile (s : State) (part old t : Nat) : State :=
  let s1 := (s.pauseTeam t).onTile t Tile.hold
  let s2 := s1.dropMissMsgs (fun m => decide (m.1 = t))
  let s3 := { s2 with tileImages := s2.tileImages.list (old * 512 + t) (s2.tileImgOf t) }
  match s3.tileImages.listed (part * 512 + t) with
  | some x =>
    let s4 := State.putTileImg { s3 with tileImages := s3.tileImages.drop (part * 512 + t) } t id id x
    s4.onTile t (fun y => { y with team := x.tile.team })
  | none => (s3.onTile t (fun y => y.place none)).resetObjects t

/-- Whether a core can leave its partition now: nothing runs there, or it can be evicted. -/
def State.canLeave (s : State) (p : Nat) : Bool :=
  let c := s.coreAt p
  match c.cstate with
  | .idle => if s.hold then c.quiet else c.landReady.quiet
  | .evicted => true
  | .running => s.canEvict p
  | _ => false

/-- The turn of a partition on one tile (R436): its own evicted contexts go on; the cores that it needs and that run for
another partition are switched, both of a mirror pair, with the tile when it uses it. -/
def State.takeTile (s : State) (part t : Nat) : State :=
  let ps := (tileCores t).filter (fun p => s.primary part (s.indexOf p) && decide ((s.coreAt p).cstate ≠ .killed))
  let s1 := (ps.filter (fun p => decide ((s.coreAt p).part = part))).foldl State.restore s
  let mine := ((ps.filter (fun p => s1.away part p && s1.needs part p)).flatMap s1.evictedWith).eraseDups
  let old := (mine.map (fun p => (s1.coreAt p).part)).headD 0
  let whole := s1.usesTile part t && !mine.isEmpty
  if !(mine.all s1.canLeave) then mine.foldl State.forceEnd s1
  else if whole && ((s1.tileAt t).matrixRuns || s1.farFrom t) then s1
  else
    let s2 := if whole then s1.switchTile part old t else s1
    (mine.foldl (fun u p => u.switchCore part p) s2).countTeam t

/-- SHARED_SLOT_START (R436): at the start of each slot, and when a need arises in it. -/
def State.slotStart (s : State) (part : Nat) : State :=
  let x := s.partAt part
  if !x.shared || !s.partRuns part then s
  else ((List.range 512).filter (fun t => x.holds (16 * t) || x.holds (16 * t + 15))).foldl (fun u t => u.takeTile part t) s

/-- An event of a partition. -/
def partEvent (part : Nat) (s : State) (f : State → State) : Host.Outcome State Fault Refusal :=
  if 0 < part ∧ part < 64 then .next (f s) else .fault .noSuchSubject

/-- Whether a core's eviction is due (R436, R438, R464): its partition stops, a repair or an activation is under way, its port yields,
or its SHARED partition's turn on it is over and the primary one needs it. -/
def State.evictDue (s : State) (p : Nat) : Bool :=
  let part := (s.coreAt p).part
  !s.partRuns part || (isGateway p && (s.portAt (gatewayPort p)).yielding) ||
    ((s.partAt part).shared && s.parts.any (fun e => decide (e.1 ≠ part) && s.primary e.1 (s.indexOf p) && s.partRuns e.1 && s.needs e.1 p))

/-- CORE_EVICT (R437), where an eviction is due. -/
def execCoreEvict (p : Nat) (s : State) : Host.Outcome State Fault Refusal := coreEvent p s (fun s => if s.evictDue p then s.evict p else s)

/-- CORE_RESTORE (R437, R464). -/
def execCoreRestore (p : Nat) (s : State) : Host.Outcome State Fault Refusal :=
  coreEvent p s (fun s => if s.partRuns (s.coreAt p).part then s.restore p else s)

/-! ### Repair -/

/-- The cores that run for a team. -/
def State.runningCores (s : State) : List Nat :=
  ((s.core.phys :: s.others.map (fun e => e.1))).filter (fun p => decide ((s.coreAt p).cstate = .running))

/-- The evicted cores whose partition may run go on (R423, R446). -/
def State.restoreAll (s : State) : State :=
  let back := (s.core.phys :: s.others.map (fun e => e.1)).filter (fun p => decide ((s.coreAt p).cstate = .evicted) && s.partRuns (s.coreAt p).part)
  back.foldl State.restore s

/-- A tile's window across a repair: what runs is HELD (R267, R423), and goes on after it. -/
def Tile.acrossRepair (x : Tile) : Tile :=
  let y := x.hold
  { y with cards := y.cards.map (fun e => (e.1, e.2.resumeOn id)) }

/-- A repair goes on (R423): every partition's cores are evicted as they reach their boundaries; then the contents are moved and the
contexts restored. -/
def State.repairOn (s : State) : State :=
  match s.repair with
  | none => s
  | some n =>
    let ours := fun (u : State) => u.runningCores.filter (fun p => decide ((u.coreAt p).part ≠ 0))
    let s1 := (ours s).foldl State.evict s
    if !(ours s1).isEmpty || s1.tiles.any (fun e => e.2.matrixRuns) then s1
    else
      let s2 := (s1.tiles.map (fun e => e.1)).foldl (fun u t => u.onTile t Tile.acrossRepair) (s1.dropMissMsgs (fun _ => true))
      State.restoreAll { s2.dropChannel n with repair := none }

/-- PC_DROP_REPAIR (R423): it goes on until every partition's cores have been evicted; one repair at a time. -/
def execPcDropRepair (n : Nat) (s : State) : Host.Outcome State Fault Refusal :=
  if 512 ≤ n then .fault .noSuchSubject
  else if s.dead.contains n || s.repair.any (fun m => decide (m ≠ n)) then .next s.repairOn
  else .next (State.repairOn { s with repair := some n })

def execSharedSlotStart (part : Nat) (s : State) : Host.Outcome State Fault Refusal := partEvent part s (fun s => s.slotStart part)

end Sys2Proof.Machine
end

