-- ==== Sys2Proof/Machine/Partition.lean ====
section
/-! DEFINITION. The partition table, partition states, labels lowered, evidence, session keys and firmware updates (R338,
R343 to R348, R382, R419, R431 to R446, R453). -/

namespace Sys2Proof.Machine

open Sys2Proof

/-- A partition's entry changed. -/
def State.setPart (s : State) (i : Nat) (x : Part) : State := { s with parts := s.parts.list i x }
def State.onPart (s : State) (i : Nat) (f : Part → Part) : State :=
  match s.parts.listed i with
  | some x => s.setPart i (f x)
  | none => s

def State.answers (s : State) (a : Answer) : State := { s with answer := a }

/-- The ports of a partition, and its gateway cores (R458, R463). -/
def State.portsOf (s : State) (part : Nat) : List Nat := (s.ports.filter (fun e => decide (e.2.part = part))).map (fun e => e.1)
def State.gatewaysOf (s : State) (part : Nat) : List Nat := (s.portsOf part).flatMap portCores

/-- The compute cores of a partition's interval, spares in place of the ranks they took. -/
def State.intervalCores (s : State) (x : Part) : List Nat := (List.range x.len).map (fun r => s.physOfIndex (x.base + r))

/-- The cores that hold a context of a partition. -/
def State.coresOf (s : State) (part : Nat) : List Nat :=
  ((s.intervalCores (s.partAt part)).filter (fun p => decide ((s.coreAt p).part = part))) ++ s.gatewaysOf part

/-! ### DECL -/

/-- The lines that [x, x + n) holds lowered to a label (R442). -/
def State.lowerLabel (s : State) (a n : Nat) (l : Label) : State :=
  let low := fun (m : SMap Label) (k : Nat) =>
    let old := m.look (fun _ => 0) k
    m.put (fun _ => 0) k (if l < old then l else old)
  { s with labels := (unitsOf 64 a n).foldl low s.labels }

/-- The local store that holds a whole region (R9, R10); an empty region lies in the store of its base. -/
def State.regionStore (s : State) (c : Core) (r : Cap) : Option (Nat × Nat) :=
  if r.base < 0 ∨ (2 : Int) ^ 64 ≤ r.base then none
  else s.reach c (BitVec.ofNat 64 r.base.toNat) (r.top - r.base).toNat

/-- The checks of DECL in their order (R442). -/
def State.declTrap (s : State) (a : Name) (r : Cap) (n : Word) : Fails :=
  firstOf [s.useTrap a r (r.can .declass && r.can .store), failIf (decide (7 < n.toNat)) .bounds n,
    failIf (decide (r.base % 64 ≠ 0 ∨ r.top % 64 ≠ 0)) .align (nameVal a),
    failIf (s.regionStore s.core r).isNone .bounds (BitVec.ofInt 64 r.base)]

/-- DECL (R441, R442): of a paired core's store at both ports (R289). -/
def execDecl (h : Hd) (a b : Name) (s : State) :=
  run (.decl h a b) s (fun s =>
    let r := s.core.rdCap a
    let n := (s.core.rd b).v
    guarded (s.declTrap a r n) s (fun s => afterAcquire s (fun s => once false s (fun s =>
      match s.regionStore s.core r with
      | none => .done s []
      | some (o, off) =>
        let c := s.core
        let size := (r.top - r.base).toNat
        let os := s.copiesOf o engineSrc
        if size = 0 then .done s []
        else if os.any (fun p => !s.portClear p off size) then .wait (os.foldl (fun u p => u.portWait p off size) s)
        else
          let s1 := os.foldl (fun u p => u.portEnter p) s
          if (s.coreAt o).cstate = .killed then .done (s1.tell o c.phys (BitVec.ofInt 64 r.base)) []
          else .done (os.foldl (fun u p => u.lowerLabel (lsBase p + off) size (n.setWidth 3)) s1) []))))

/-! ### Table writes -/

/-- The fields that a table write gives, reserved bits left out (R432). -/
structure TableEntry where
  base : Nat
  len : Nat
  shared : Bool
  slots : Nat
  weight : Nat
  keyBase : Nat
  keyCount : Nat
  chains : Nat
  dbar : Nat
  pbar : Nat
  save : Nat
  dlog : Nat
  vfring : Nat
  ready : Nat
  child : Nat
  deriving DecidableEq, Repr

def entryOf (bs : List Byte) : TableEntry :=
  let f := fun at_ n : Nat => ofBytes ((bs.drop at_).take n)
  let ival := f 0 8
  { base := ival % 2 ^ 13
    len := ival / 2 ^ 16 % 2 ^ 14
    shared := ival.testBit 32
    slots := f 8 2
    weight := f 10 1
    keyBase := f 16 1
    keyCount := f 17 1
    chains := f 32 16
    dbar := f 48 16
    pbar := f 64 8
    save := f 72 8
    dlog := f 80 8
    vfring := f 88 8
    ready := f 96 8
    child := f 104 8 }

/-- The layout that an entry gives: what R433 and R444 protect. -/
def TableEntry.layout (e : TableEntry) : List Nat :=
  [e.base, e.len, e.shared.toNat, e.slots, e.weight, e.keyBase, e.keyCount, e.chains, e.dbar, e.pbar]
def Part.layout (x : Part) : List Nat :=
  [x.base, x.len, x.shared.toNat, x.slots, x.weight, x.keyBase, x.keyCount, x.chains, x.dbar, x.pbar]

/-- Whether [a, a + n) lies in HBM, aligned. -/
def State.hbmAligned (s : State) (a n align : Nat) : Bool := decide (a % align = 0 ∧ a + n ≤ s.hbmTop)

/-- Whether an entry and another partition's want one thing (R433). -/
def TableEntry.clashes (e : TableEntry) (x : Part) : Bool :=
  let meets := fun a m b n : Nat => decide (0 < m ∧ 0 < n ∧ a < b + n ∧ b < a + m)
  let both := meets e.base e.len x.base x.len
  (both && (!e.shared || !x.shared || decide (e.slots &&& x.slots ≠ 0))) || decide (e.chains &&& x.chains ≠ 0) ||
    decide (e.dbar &&& x.dbar ≠ 0) || decide (e.pbar &&& x.pbar ≠ 0) ||
    meets e.keyBase e.keyCount x.keyBase x.keyCount

/-- Whether a table write is rejected (R433). -/
def State.rejectsEntry (s : State) (part : Nat) (e : TableEntry) : Bool :=
  let old := s.parts.listed part
  let fixed := match old with
    | some x => decide (x.st ≠ .configured) && decide (e.layout ≠ x.layout)
    | none => false
  fixed || decide (8192 < e.base + e.len) || s.parts.any (fun p => decide (p.1 ≠ part) && e.clashes p.2) ||
    (e.shared && decide (e.slots = 0)) || decide (e.weight = 0) ||
    !(s.hbmAligned e.save (e.len * 0x80000) 0x80000 && s.hbmAligned e.dlog 32 32 && s.hbmAligned e.vfring 32 32 &&
      s.hbmAligned e.ready 256 2 && s.hbmAligned e.child 256 32) ||
    decide (e.len = 0 ∧ old.isSome)

/-- An entry as a partition keeps it: what the PF does not write stays (R432). -/
def TableEntry.into (e : TableEntry) (x : Part) : Part :=
  { x with
    base := e.base
    len := e.len
    shared := e.shared
    slots := e.slots
    weight := e.weight
    keyBase := e.keyBase
    keyCount := e.keyCount
    chains := e.chains
    dbar := e.dbar
    pbar := e.pbar
    save := e.save
    dlog := e.dlog
    vfring := e.vfring
    ready := e.ready
    child := e.child }

/-- The chains of a set reset (R382). -/
def State.resetChains (s : State) (mask : Nat) : State := { s with chains := s.chains.filter (fun e => !mask.testBit e.1) }

/-- Pages of HBM that F firmware assigns to a partition (notes/assumptions/60.md). -/
def State.assign (s : State) (part : Nat) (pages : List (Nat × Nat)) : State :=
  let new := (pages.map (fun x => (part, x.1, x.2))).filter (fun x => !s.pages.contains x)
  { s with pages := s.pages ++ new }

/-- A table write (R433, R434, R444), with the pages that go to the partition with it. -/
def State.tableWrite (s : State) (part : Nat) (e : TableEntry) (pages : List (Nat × Nat)) : State :=
  let old := s.parts.listed part
  if s.rejectsEntry part e then s.answers .refused
  else if e.len = 0 then s.answers .accepted
  else
    let x := old.getD Part.free
    let changed := decide (e.layout ≠ x.layout) || old.isNone
    let s1 := (s.setPart part (e.into x)).resetChains (e.chains &&& (e.chains ^^^ x.chains))
    let s2 := if changed then { s1 with layout := (s1.layout + 1) % 2 ^ 64 } else s1
    State.answers ((s2.assign part pages).readyChanged part) .accepted

/-- PARTITION_TABLE_WRITE (R433): a request through the PF; in the RC personality an entry of the boot configuration (R470). -/
def execPartitionTableWrite (part : Nat) (req : TableRequest) (s : State) : Host.Outcome State Fault Refusal :=
  partEvent part s (fun s => s.tableWrite part (entryOf req.entry) req.pages)

/-! ### Queues -/

/-- The queues of a partition. -/
def State.queuesOf (s : State) (part : Nat) : List Nat := (s.queues.filter (fun e => decide (e.2.part = part))).map (fun e => e.1)

/-- A queue that goes OFF: every entry and waiter is dropped (R346). -/
def Queue.off (q : Queue) : Queue := { q with st := .off, head := q.tail, seg := [], parked := [], pushers := [] }

/-- What a descriptor write gives (R344): the fields of CONFIG but STATE, and RING. -/
structure QConfig where
  part : Nat
  prio : Nat
  weight : Nat
  kind : Nat
  bin : Bool
  hostp : Bool
  rlen : Nat
  ring : Cap
  ok : Bool
  deriving DecidableEq, Repr

/-- CONFIG and RING as they are written; whether they keep R344. -/
def State.queueConfig (s : State) (cfg lo hi : Nat) : QConfig :=
  let rlen : Nat := cfg % 2 ^ 21
  let ring := Cap.ofWords (BitVec.ofNat 64 lo) (BitVec.ofNat 64 hi) (decide (rlen ≠ 0))
  let kind := cfg / 2 ^ 38 % 4
  let weight := cfg / 2 ^ 40 % 2 ^ 8
  let clean := decide (cfg / 2 ^ 58 % 2 ^ 6 = 0 ∧ cfg / 2 ^ 21 % 2 ^ 11 = 0)
  let pow := (List.range 21).any (fun i => decide (rlen = 2 ^ i))
  let ringOk := ring.sound && decide (ring.otype = 0 ∧ ring.base % 64 = 0 ∧ ring.top - ring.base = ((64 * rlen : Nat) : Int) ∧ 0 ≤ ring.base ∧ ring.top ≤ s.hbmTop) &&
    ring.can .load && ring.can .store && ring.can .caprd && ring.can .capwr
  { part := cfg / 2 ^ 52 % 2 ^ 6
    prio := cfg / 2 ^ 48 % 2 ^ 4
    weight := weight
    kind := kind
    bin := cfg.testBit 37
    hostp := cfg.testBit 36
    rlen := rlen
    ring := ring
    ok := clean && decide (kind ≠ 3 ∧ weight ≠ 0) && (decide (rlen = 0) || (pow && ringOk)) }

/-- The states that a descriptor write may lead to (R346). -/
def mayBecome (old new : QSt) : Bool :=
  decide (old = new) ||
    (match old, new with
     | .off, .on => true
     | .on, .stopped => true
     | .stopped, .on => true
     | .stopped, .off => true
     | .fault, .off => true
     | _, _ => false)

/-- A descriptor write with a STATE (R344, R346): one that breaks R344 changes nothing. -/
def State.queueWrite (s : State) (n : Nat) (new : QSt) (cfg lo hi : Nat) : State :=
  let q := s.queueAt n
  let f := s.queueConfig cfg lo hi
  if !f.ok || !mayBecome q.st new then s.answers .refused
  else
    let q1 := { q with
      part := f.part
      prio := f.prio
      weight := f.weight
      kind := f.kind
      bin := f.bin
      hostp := f.hostp
      rlen := f.rlen
      ring := f.ring }
    let s1 := (s.setQueue n (if new = .off ∧ q.st ≠ .off then q1.off else { q1 with st := new })).answers .accepted
    if new = .on ∧ q.st ≠ .on then s1.retryFor n else s1

/-- An event of a queue. -/
def queueEvent (n : Nat) (s : State) (f : State → State) : Host.Outcome State Fault Refusal :=
  if n < 16384 then .next (f s) else .fault .noSuchSubject

def execQueueStateOn (n cfg lo hi : Nat) (s : State) : Host.Outcome State Fault Refusal :=
  queueEvent n s (fun s => s.queueWrite n .on cfg lo hi)
def execQueueStateStop (n cfg lo hi : Nat) (s : State) : Host.Outcome State Fault Refusal :=
  queueEvent n s (fun s => s.queueWrite n .stopped cfg lo hi)
def execQueueStateOff (n cfg lo hi : Nat) (s : State) : Host.Outcome State Fault Refusal :=
  queueEvent n s (fun s => s.queueWrite n .off cfg lo hi)

/-- QUEUE_SEGMENT_REFILL (R345). -/
def execQueueSegmentRefill (n : Nat) (s : State) : Host.Outcome State Fault Refusal := queueEvent n s (fun s => s.refillOne n)

/-- QUEUE_RING_ERROR (R346): a queue that is ON and has a ring. -/
def execQueueRingError (n : Nat) (s : State) : Host.Outcome State Fault Refusal :=
  queueEvent n s (fun s =>
    let q := s.queueAt n
    if q.st = .on ∧ q.rlen ≠ 0 then s.setQueue n { q with st := .fault } else s)

/-- A doorbell performed at its queue (R352): each entry that it adds queues a waiter (R350). -/
def State.ringQueue (s : State) (n tail : Nat) : State :=
  let q := s.queueAt n
  let t := tail % 2 ^ 64
  let count := (t + 2 ^ 64 - q.head) % 2 ^ 64
  if !q.hostp || decide (q.st = .off ∨ q.st = .fault ∨ q.part = 0) || s.unregistered.contains q.part then s
  else if q.rlen < count ∨ count < q.count then s.setQueue n { q with st := .fault }
  else
    let s1 := s.setQueue n { q with tail := t, since := if q.count = 0 then s.clock else q.since }
    let s2 := if s.hold then s1 else s1.refill n
    (List.range (min (count - q.count) q.parked.length)).foldl (fun u _ => u.wakeParked n) s2

/-! ### Starting and stopping -/

/-- A gateway core's load (R360, R463): the header at GWHDR; none while it cannot be read, or is no valid header. -/
def State.gatewayLoad (s : State) (n : Nat) : Option (Load × Nat) :=
  let x := s.portAt n
  match s.dispReach x.part x.gwhdr 128 with
  | .mem h =>
    let pcc := s.granule h
    let image := s.granule (h + 16)
    let rcb := s.granule (h + 32)
    let ctl := BitVec.ofNat 64 (s.numAt (h + 64) 8)
    if x.gwhdr % 128 ≠ 0 ∨ !headerCaps pcc image rcb ∨ !image.covers image.addr.toNat (imgLen ctl) ∨ 0x20000 < imgLen ctl then none
    else
      match s.dispReach x.part (image.addr.toNat + imgShape ctl) 256 with
      | .mem a => some (⟨x.part, pcc, image, ctl, s.wordsAt a 32⟩, x.gwhdr)
      | _ => none
  | _ => none

/-- The gateway kernel placed on a port's four gateway cores, each as a one-core team (R463). -/
def State.placeGateway (s : State) (n : Nat) : State :=
  match s.gatewayLoad n with
  | none => s
  | some (l, header) =>
    match s.imageAt l with
    | none => s
    | some src =>
      let one := fun (u0 : State) (p : Nat) =>
        let u := { u0 with images := u0.images.drop (2 ^ 20 + p) }
        if (u.coreAt p).cstate = .killed then u
        else
          let hdr := BitVec.ofNat 64 (shapeDims l.shape + 2 ^ 16 + 2 ^ 32)
          let shape := [hdr, 0, BitVec.ofNat 64 header, 0, 0, 0, 0, 0] ++ l.shape.drop 8
          u.placeCore { l with shape := shape } src (gatewayLane p) none n p
      (portCores n).foldl one s

/-- Die and package barriers as at a start (R307, R435). -/
def State.resetBarriers (s : State) (x : Part) : State :=
  let owned := fun a : Nat => (decide (0x4000 ≤ a ∧ a < 0x4080) && x.dbar.testBit (a - 0x4000)) ||
    (decide (0x4800 ≤ a ∧ a < 0x4840) && x.pbar.testBit (a - 0x4800))
  { s with bars := s.bars.filter (fun e => !owned e.1) }

/-- A ring in HBM set to empty (R435): what is appended counts as consumed. -/
def State.emptyRing (s : State) (d : Nat) : State := s.store (d + 16) (bytesOf 8 (s.numAt (d + 24) 8 % 2 ^ 63)) 0

/-- A start (R434, R435, R446, R463): `root` is the address of the root RCB that F firmware wrote. -/
def State.startPart (s : State) (part root : Nat) : State :=
  match s.parts.listed part with
  | none => s.answers .refused
  | some x =>
    if x.st ≠ .configured then s.answers .refused
    else
      let s1 := (s.resetChains x.chains).resetBarriers x
      let s2 := (s1.queuesOf part).foldl (fun u n => u.setQueue n (u.queueAt n).off) s1
      let s3 := (s2.emptyRing x.vfring).emptyRing x.dlog
      let cap := Cap.make root (root + 128) 0x83 7
      let s4 := s3.setPart part { x with
        st := .run
        root := cap
        stopwhy := 0
        updpend := s.fw.staged.isSome && !x.acked }
      State.answers ((s4.portsOf part).foldl State.placeGateway s4) .accepted

def execPartitionStart (part root : Nat) (s : State) : Host.Outcome State Fault Refusal := partEvent part s (fun s => s.startPart part root)

/-- The teams of a partition stop counting their time, or count it again. -/
def State.tilesOf (s : State) (part : Nat) : List Nat :=
  (s.tiles.filter (fun e =>
    match e.2.team with
    | some (n, _) => decide ((s.kernels.listed n).map Kernel.part = some part)
    | none => false)).map (fun e => e.1)

/-- A stop (R435): its queues stop; its cores are evicted as they reach their boundaries. -/
def State.stopPart (s : State) (part why : Nat) : State :=
  match s.parts.listed part with
  | none => s.answers .refused
  | some x =>
    if x.st ≠ .run then s.answers .refused
    else
      let stop := fun (u : State) (n : Nat) =>
        if (u.queueAt n).st = .on then u.setQueue n { u.queueAt n with st := .stopped } else u
      let s1 := ((s.queuesOf part).foldl stop s).setPart part { x with st := .stopping, stopwhy := why % 256 }
      let s2 := (s1.tilesOf part).foldl State.pauseTeam s1
      State.answers ((s2.coresOf part).foldl State.evict s2) .accepted

def execPartitionStop (part why : Nat) (s : State) : Host.Outcome State Fault Refusal := partEvent part s (fun s => s.stopPart part why)

/-- Whether a partition's last writes are performed (R338): no core of it runs, nothing that they issued is outstanding, and
every card of its windows has ended and its writes have left the card buffers; a window that was saved before the stop stays saved
(R435, notes/assumptions/94.md). -/
def State.drained (s : State) (part : Nat) : Bool :=
  !s.farOf part && (s.coresOf part).all (fun p => let c := s.coreAt p
    !c.awake && (decide (c.cstate = .killed) || c.quiet)) &&
    s.flights.all (fun f => f.sender.isNone || decide (f.part ≠ part)) &&
    s.tiles.all (fun e => e.2.cards.all (fun k => decide (k.2.part ≠ part ∨ k.2.state = .ended)))

/-- The ENABLE-d ports of a partition, and the peers that its entries name (R458, R465). -/
def State.cutPorts (s : State) (part : Nat) : List Nat := (s.portsOf part).filter (fun n => (s.portAt n).enable)
def State.peersOf (s : State) (n : Nat) : List Nat :=
  ((List.range 288).map (fun i => s.numAt ((s.portAt n).peermap + 2 * i) 2)).filterMap (fun v => if v.testBit 15 then some (v % 512) else none)

/-- Whether a cut has a MARK from every peer on every port (R465). -/
def State.marked (s : State) (part : Nat) : Bool :=
  (s.cutPorts part).all (fun n => (s.peersOf n).all (fun p => (s.portAt n).marks.contains p))

/-- PARTITION_STOP_COMPLETE (R338, R434, R465). -/
def State.stopDone (s : State) (part : Nat) : State :=
  match s.parts.listed part with
  | none => s
  | some x =>
    if x.st = .stopping ∧ s.drained part ∧ (!x.cut ∨ s.marked part) then s.setPart part { x with st := .stopped } else s

def execPartitionStopComplete (part : Nat) (s : State) : Host.Outcome State Fault Refusal := partEvent part s (fun s => s.stopDone part)

/-- The queues of a partition that is resumed are ON again, and held pushes are tried again (R347, R435). -/
def State.queuesOn (s : State) (part : Nat) : State :=
  (s.queuesOf part).foldl (fun u n => if (u.queueAt n).st = .stopped then (u.setQueue n { u.queueAt n with st := .on }).retryFor n else u) s

/-- A resume (R435, R446): the marks of a cut have served (R465). -/
def State.resumePart (s : State) (part : Nat) : State :=
  match s.parts.listed part with
  | none => s.answers .refused
  | some x =>
    if x.st ≠ .stopped then s.answers .refused
    else
      let s0 := (s.portsOf part).foldl (fun u n => u.setPort n { u.portAt n with marks := [] }) s
      let s1 := s0.setPart part { x with st := .run, stopwhy := 0, cut := false, updpend := s.fw.staged.isSome && !x.acked }
      let back := (if x.shared then s1.gatewaysOf part else s1.coresOf part).filter (fun _ => s1.partRuns part)
      let s2 := back.foldl State.restore s1
      State.answers (((s2.tilesOf part).foldl State.countTeam s2).queuesOn part) .accepted

def execPartitionResume (part : Nat) (s : State) : Host.Outcome State Fault Refusal := partEvent part s (fun s => s.resumePart part)

/-- The pages of a partition (R419): those that F firmware has assigned, and those that its translation entries have named
(notes/assumptions/60.md). -/
def State.pagesOf (s : State) (part : Nat) : List (Nat × Nat) :=
  let named := fun e : TEntry => decide (tePart e = part) && teValid e && decide (tePpn e * 4096 < s.hbmTop)
  ((s.pages.filter (fun x => decide (x.1 = part))).map Prod.snd) ++
    s.tiles.flatMap (fun t => (t.2.tlb.filter named).map (fun e => (tePpn e * 4096, teBytes e)))

/-- A page released (R419): zero, label 0, no tags, and the mode and key of its next owner. -/
def State.releasePage (s : State) (enc key a n : Nat) : State :=
  let s1 := { (s.zeroRange a n) with bursts := s.bursts.clearRange (a / 64) ((a + n) / 64) }
  if enc = 0 ∧ key = 0 then s1
  else { s1 with bursts := s1.bursts.putList (fun _ => Burst.reset) (a / 64) (List.replicate (n / 64) { Burst.reset with enc := enc, key := key }) }

/-- What the cores of a released partition hold is gone: no context, a store of zeros. -/
def State.clearCore (s : State) (p : Nat) : State :=
  let free := fun old : Core => if old.cstate = .killed then { old with part := 0 } else
    { Core.reset p with cstate := .idle, regs := [], tags := [], portq := old.portq, traceSeq := old.traceSeq }
  (s.zeroRange (lsBase p) (storeSize p)).onCore p free

/-- A release (R419, R434, R435, R444): `enc` and `key` are the mode and key under which its pages go to their next owner. -/
def State.releasePart (s : State) (part enc key : Nat) : State :=
  match s.parts.listed part with
  | none => s.answers .refused
  | some x =>
    if x.st ≠ .configured ∧ x.st ≠ .stopped then s.answers .refused
    else
      let cores := s.coresOf part
      let s1 := (s.pagesOf part).foldl (fun u a => u.releasePage (enc % 3) (key % 256) a.1 a.2) s
      let keyed := fun e : Nat × Burst => decide (x.keyBase ≤ e.2.key ∧ e.2.key < x.keyBase + x.keyCount) && decide (e.2.enc ≠ 0 ∨ e.2.key ≠ 0)
      let s2 := (s1.bursts.filter keyed).foldl (fun u e => u.releasePage (enc % 3) (key % 256) (64 * e.1) 64) s1
      let s3 := s2.zeroRange x.save (x.len * 0x80000)
      let s4 := (s3.queuesOf part).foldl (fun u n => u.setQueue n { (u.queueAt n).off with part := 0 }) s3
      let s5 := cores.foldl State.clearCore s4
      let mine := fun k : Nat => decide (k / 16384 = part ∧ k < 2 ^ 20)
      let gone := (s.kernels.filter (fun k => decide (k.2.part = part))).map (fun k => k.1)
      let tile := fun (u : State) (t : Nat) => (u.onTile t (fun y => y.place none)).resetObjects t
      let s6 := (s5.tilesOf part).foldl tile s5
      let s7 := (s6.tiles.map (fun e => e.1)).foldl (fun u t => u.onTile t (fun y => y.invalidate (fun e => decide (tePart e = part)))) s6
      let s8 : State := { (s7.resetChains x.chains).resetBarriers x with
        images := s7.images.filter (fun e => !mine e.1)
        tileImages := s7.tileImages.filter (fun e => decide (e.1 / 512 ≠ part))
        kernels := s7.kernels.filter (fun k => !gone.contains k.1)
        heldq := s7.heldq.filter (fun h => decide (h.record.part ≠ part))
        waits := s7.waits.filter (fun w => decide (w.part ≠ part))
        awaited := s7.awaited.filter (fun w => decide (w.1 ≠ part))
        pages := s7.pages.filter (fun x => decide (x.1 ≠ part))
        parts := s7.parts.drop part
        layout := (s7.layout + 1) % 2 ^ 64 }
      let rid := fun (u : State) (d : Nat) =>
        let y := u.dieAt d
        u.setDie d { y with pool := y.pool.filter (fun c => decide (c.part ≠ part)), backing := y.backing.drop part }
      State.answers ((List.range 8).foldl rid s8) .accepted

def execPartitionRelease (part enc key : Nat) (s : State) : Host.Outcome State Fault Refusal :=
  partEvent part s (fun s => s.releasePart part enc key)

/-! ### Evidence, secrets, keys -/

/-- The two words of a partition's entry that evidence names (R432, R443). -/
def PartSt.code : PartSt → Nat
  | .configured => 1 | .run => 2 | .stopping => 3 | .stopped => 4
def Part.ival (x : Part) : Nat := x.base + x.len * 2 ^ 16 + x.shared.toNat * 2 ^ 32 + x.st.code * 2 ^ 40
def Part.slice (x : Part) : Nat := x.slots + x.weight * 2 ^ 16

/-- IVAL and SLICE of an id, a FREE one's too. -/
def State.ivalOf (s : State) (part : Nat) : Nat := ((s.parts.listed part).map Part.ival).getD 0
def State.sliceWord (s : State) (part : Nat) : Nat := ((s.parts.listed part).map Part.slice).getD 0

/-- The evidence header (R443). -/
def State.evidence (s : State) (part : Nat) (nonce : List Byte) : List Byte :=
  let staged := match s.fw.staged with
    | some (image, _) => shake256 64 image
    | none => List.replicate 64 0
  bytesOf 8 (1 + part * 2 ^ 8) ++ List.replicate 24 0 ++ bytesOf 8 (s.sliceWord part) ++ bytesOf 8 (s.ivalOf part) ++ bytesOf 8 s.layout ++
    bytesOf 8 s.fw.ctr ++ List.replicate 32 0 ++ staged ++ shake256 64 s.fw.active ++ (nonce ++ List.replicate 32 0).take 32

/-- ATTEST_EVIDENCE (R443): the signature over the header is the device's own. -/
def execAttestEvidence (part : Nat) (nonce : List (BitVec 8)) (s : State) : Host.Outcome State Fault Refusal :=
  partEvent part s (fun s =>
    let head := s.evidence part nonce
    s.answers (.evidence head ((List.range 29792).map (Config.signatureByte head))))

/-- A session's key under the current layout counter (R445). -/
def State.sessionKey (s : State) (part : Nat) : List Byte :=
  shake256 32 (Config.sessionSecret part ++ bytesOf 8 s.layout ++ bytesOf 1 part)

/-- What a wrap made under a layout counter gives (R445): nothing when the counter has moved or the check fails. -/
def State.unwrap (s : State) (part layout : Nat) (wrapped : List Byte) : Option (List Byte) :=
  if layout = s.layout then kwpUnwrap (s.sessionKey part) wrapped else none

/-- SECRET_UNWRAP (R445). -/
def execSecretUnwrap (part layout : Nat) (wrapped : List (BitVec 8)) (s : State) : Host.Outcome State Fault Refusal :=
  partEvent part s (fun s =>
    match s.unwrap part layout wrapped with
    | some x => State.answers { s with secrets := s.secrets.list part x } .accepted
    | none => s.answers .unwrap)

/-- KEY_HANDLE_BIND (R445, R453): a 256-bit key; a handle of another partition is not taken. -/
def execKeyHandleBind (part k layout : Nat) (wrapped : List (BitVec 8)) (iv : Nat) (s : State) : Host.Outcome State Fault Refusal :=
  partEvent part s (fun s =>
    match s.unwrap part layout wrapped with
    | none => s.answers .unwrap
    | some key =>
      let other : Bool := match s.handles.listed k with
        | some h => decide (h.part ≠ part)
        | none => false
      if other || decide (k = 0 ∨ 63 < k ∨ key.length ≠ 32) then s.answers .refused
      else State.answers { s with handles := s.handles.list k ⟨part, key, iv % 2 ^ 128⟩ } .accepted)

/-! ### Firmware updates -/

/-- FW_IMAGE_STAGE (R446): `sigOk` says that the signature verifies. -/
def execFwImageStage (image : List (BitVec 8)) (ctr : Nat) (sigOk : Bool) (s : State) : Host.Outcome State Fault Refusal :=
  if !sigOk ∨ ctr ≤ s.fw.ctr ∨ s.fw.staged.isSome ∨ s.fw.activating then .next (s.answers .refused)
  else
    let ask := fun x : Part => { x with updpend := decide (x.st = .run), acked := false }
    .next (State.answers { s with
      fw := { s.fw with staged := some (image, ctr) }
      parts := s.parts.map (fun e => (e.1, ask e.2)) } .accepted)

/-- FW_UPDATE_ACK (R446). -/
def execFwUpdateAck (part : Nat) (s : State) : Host.Outcome State Fault Refusal :=
  partEvent part s (fun s => if s.fw.staged.isSome then s.onPart part (fun x => { x with updpend := false, acked := true }) else s)

/-- FW_UPDATE_WITHDRAW (R446): not once activation has begun. -/
def execFwUpdateWithdraw (s : State) : Host.Outcome State Fault Refusal :=
  if s.fw.activating then .next (s.answers .refused)
  else
    .next (State.answers { s with
      fw := { s.fw with staged := none }
      parts := s.parts.map (fun e => (e.1, { e.2 with updpend := false, acked := false })) } .accepted)

/-- Activation (R446): every running core is evicted as it reaches its boundary; then the image is replaced and every core
that activation evicted is restored. -/
def State.activate (s : State) : State :=
  match s.fw.staged with
  | none => s
  | some (image, ctr) =>
    if !s.fw.activating && s.parts.any (fun e => decide (e.2.st = .run) && e.2.updpend) then s
    else
      let s1 := s.runningCores.foldl State.evict { s with fw := { s.fw with activating := true } }
      if !s1.runningCores.isEmpty then s1
      else
        let s2 : State := { s1 with
          fw := ⟨image, ctr, none, false⟩
          parts := s1.parts.map (fun e => (e.1, { e.2 with updpend := false, acked := false })) }
        s2.restoreAll

/-- FW_ACTIVATE (R446): it goes on until every running core has been evicted. -/
def execFwActivate (s : State) : Host.Outcome State Fault Refusal := .next s.activate

end Sys2Proof.Machine
end

