-- ==== Sys2Proof/Machine/Link.lean ====
section
/-! DEFINITION. The host link and the Kustad ports: BARs and apertures, inbound writes, host reads, doorbells, warm restart;
port entries, block messages, lanes and cuts (R318, R336, R423, R447 to R465). -/

namespace Sys2Proof.Machine

open Sys2Proof

/-- A function as the host's events name it: VF i by i, the PF's window of partition i by 64 + i.  The partition that it
reaches, and the function whose order its writes keep: 0 for the PF (R449, R451). -/
def fnPart (fn : Nat) : Nat := fn % 64
def fnOrder (fn : Nat) : Nat := if fn < 64 then fn else 0

/-- An event of the host through a function of the EP personality (R447, R449); others reach nothing. -/
def hostEvent (fn : Nat) (s : State) (f : State → State) : Host.Outcome State Fault Refusal :=
  if fn < 128 then .next (if s.endpoint then f s else s) else .fault .noSuchSubject

/-- The live pseudo-channels in rising order, and the die behind which an HBM page lies (R423, R451). -/
def State.liveChannels (s : State) : List Nat := (List.range 512).filter (fun n => !s.dead.contains n)
def State.pageDie (s : State) (page : Nat) : Nat := (s.liveChannels.getD (page % s.liveChannels.length) 0) / 64

/-! ### Apertures -/

/-- Fields of an aperture entry (R450). -/
def apKey (e : BitVec 128) : Nat := (e.extractLsb' 114 8).toNat
def apEnc (e : BitVec 128) : Nat := (e.extractLsb' 112 2).toNat
def apW (e : BitVec 128) : Bool := e.getLsbD 108
def apR (e : BitVec 128) : Bool := e.getLsbD 107
def apValid (e : BitVec 128) : Bool := e.getLsbD 106
def apBytes (e : BitVec 128) : Nat := ((e.extractLsb' 86 15).toNat + 1) * 2 ^ 21
def apBase (e : BitVec 128) : Nat := (e.extractLsb' 21 26).toNat * 2 ^ 21

/-- An entry with its reserved bits zero. -/
def apClean (e : BitVec 128) : BitVec 128 :=
  (e.extractLsb' 112 10).setWidth 128 <<< 112 ||| (e.extractLsb' 106 3).setWidth 128 <<< 106 ||| (e.extractLsb' 86 15).setWidth 128 <<< 86 |||
    (e.extractLsb' 21 26).setWidth 128 <<< 21

/-- Whether every burst of [a, a + n) carries a mode and key in its side-band (R419, R450). -/
def State.burstsAre (s : State) (a n enc key : Nat) : Bool :=
  let here := s.bursts.range (a / 64) ((a + n + 63) / 64)
  let good := here.filter (fun e => decide (e.2.enc = enc ∧ e.2.key = key))
  !s.meetsSave a n &&
    (if enc = 0 ∧ key = 0 then decide (good.length = here.length) else decide (good.length = (a + n + 63) / 64 - a / 64))

/-- Whether a page of [a, a + n) is another partition's (R450). -/
def State.foreignPages (s : State) (part a n : Nat) : Bool :=
  s.tiles.any (fun t => t.2.tlb.any (fun e =>
    teValid e && decide (tePart e ≠ part ∧ tePpn e * 4096 < a + n ∧ a < tePpn e * 4096 + teBytes e))) ||
    s.meetsSave a n

/-- Whether [a, b) lies in the union of some ranges; `fuel` bounds the steps. -/
def coveredBy (xs : List (Nat × Nat)) (a b : Nat) : Nat → Bool
  | 0 => decide (b ≤ a)
  | fuel + 1 =>
    decide (b ≤ a) ||
      (match xs.find? (fun x => decide (x.1 ≤ a ∧ a < x.1 + x.2)) with
       | some x => coveredBy xs (x.1 + x.2) b fuel
       | none => false)

/-- Whether every page of [a, a + n) is assigned to a partition (R450; notes/assumptions/60.md). -/
def State.ownsPages (s : State) (part a n : Nat) : Bool :=
  let xs := s.pagesOf part
  coveredBy xs a (a + n) (xs.length + 1)

/-- Whether an aperture entry is accepted (R450). -/
def State.apertureOk (s : State) (part : Nat) (e : BitVec 128) : Bool :=
  let x := s.partAt part
  let keyOk := decide (apEnc e = 0 ∧ apKey e = 0) || decide (x.keyBase ≤ apKey e ∧ apKey e < x.keyBase + x.keyCount)
  !apValid e || ((s.parts.listed part).isSome && keyOk && decide (apEnc e ≠ 3 ∧ apBase e + apBytes e ≤ s.hbmTop) &&
    s.burstsAre (apBase e) (apBytes e) (apEnc e) (apKey e) && s.ownsPages part (apBase e) (apBytes e) && !s.foreignPages part (apBase e) (apBytes e))

/-- A request through the PF, which only the EP personality presents (R447). -/
def State.throughPf (s : State) (f : State → State) : State := if s.endpoint then f s else s

/-- APERTURE_WRITE (R447, R450). -/
def execApertureWrite (part k lo hi : Nat) (s : State) : Host.Outcome State Fault Refusal :=
  partEvent part s (fun s => s.throughPf (fun s =>
    let e := apClean (BitVec.ofNat 128 (lo % 2 ^ 64 + hi % 2 ^ 64 * 2 ^ 64))
    if k < 16 ∧ s.apertureOk part e then
      State.answers { s with apertures := s.apertures.put (fun _ => 0#128) (part * 16 + k) e } .accepted
    else s.answers .refused))

/-- The physical address that an access of `n` bytes through an aperture reaches (R450); none when it is unsupported. -/
def State.aperturePa (s : State) (part off n : Nat) (write : Bool) : Option Nat :=
  let e := s.apertures.look (fun _ => 0#128) (part * 16 + off / 2 ^ 36)
  let x := off % 2 ^ 36
  let a := apBase e + x
  if 16 * 2 ^ 36 ≤ off ∨ !apValid e ∨ !(if write then apW e else apR e) ∨ n = 0 ∨ apBytes e < x + n ∨ !s.burstsAre a n (apEnc e) (apKey e) then
    none
  else some a

/-! ### BAR2 -/

/-- The core and offset that an access of `n` bytes through BAR2 reaches (R449, R452); none when it is unsupported. -/
def State.barStore (s : State) (fn off n : Nat) : Option (Nat × Nat) :=
  let part := fnPart fn
  let x := s.partAt part
  let rank := off / 0x80000
  let o := off % 0x80000
  if part = 0 ∨ x.len ≤ rank ∨ n = 0 ∨ 0x60000 < o + n ∨ (fn < 64 ∧ x.st ≠ .run) then none else some (s.physOfIndex (x.base + rank), o)

/-! ### Inbound writes -/

/-- [a, a + n) cut at 4 KiB boundaries; `fuel` bounds the pieces. -/
def cutPages (a n : Nat) : Nat → List (Nat × Nat)
  | 0 => []
  | fuel + 1 =>
    if n = 0 then []
    else
      let m := min n (4096 - a % 4096)
      (a, m) :: cutPages (a + m) (n - m) fuel

/-- The pieces of a write to HBM (R451). -/
def State.pagePieces (s : State) (fn part a : Nat) (data : List Byte) : List Piece :=
  (cutPages a data.length (data.length / 4096 + 2)).map (fun x =>
    ⟨fn, s.nextWrite, s.pageDie (x.1 / 4096), none, x.1, (data.drop (x.1 - a)).take x.2, false, false, false, part, none⟩)

/-- Whether an earlier piece of a piece's function and route is not performed (R451). -/
def earlier (before : List Piece) (x : Piece) : Bool := before.any (fun y => decide (y.fn = x.fn ∧ y.route = x.route) && !y.performed)

/-- Whether a piece cannot be performed yet: an earlier one of its function and route is not, or its port answers RETRY or has
accesses waiting (R206, R451, R452). -/
def State.pieceBlocked (s : State) (x : Piece) (before : List Piece) : Bool :=
  earlier before x ||
    (match x.store with
     | some p => !s.portReady x.part p (hostSrc x.fn) x.addr x.data.length
     | none => false)

/-- A core's doorbell (R449, R455). -/
def State.ringCore (s : State) (part rank : Nat) : State :=
  if s.unregistered.contains part ∨ part = 0 ∨ (s.partAt part).len ≤ rank then s
  else s.signal ⟨s.physOfIndex ((s.partAt part).base + rank), 0x80000#32, (engineSrc, 0), part⟩

/-- A host's doorbell that wakes up to `n` waiters of the key at an address, all for 0 (R318, R320). -/
def State.ringKey (s : State) (part a n : Nat) : State :=
  match s.waitKey (partCore part) (BitVec.ofNat 64 a) with
  | some key => if s.unregistered.contains part then s else s.wakeKey key part (n % 2 ^ 16)
  | none => s

/-- The number by which pieces name the doorbell of a queue, and that of the wait-and-wake table. -/
def queueReg (n : Nat) : Nat := 0x20000 + n
def wakeReg : Nat := 0x10000

/-- A driver registers (R455): for the partition of its function (R3, notes/assumptions/69.md). -/
def State.register (s : State) (part : Nat) : State := { s with unregistered := s.unregistered.filter (fun i => decide (i ≠ part)) }

/-- A write to a register performed: a row of BAR0 (R449), the doorbell of the wait-and-wake table or of a queue (R318, R352); the spec
gives every other one no effect. -/
def State.barRegister (s : State) (part reg : Nat) (data : List Byte) : State :=
  if reg = wakeReg then s.ringKey part (ofBytes (data.take 8)) (ofBytes (data.drop 8))
  else if 0x20000 ≤ reg then s.ringQueue (reg - 0x20000) (ofBytes data)
  else if data.length ≠ 8 then s
  else if reg = 8 then s.ringCore part (ofBytes data)
  else if reg = 16 then s.register part
  else s

/-- A piece performed (R449, R471): a register's, or a store of label-0 data. -/
def State.performPiece (s : State) (x : Piece) : State :=
  match x.reg, x.store with
  | some r, _ => s.barRegister x.part r x.data
  | none, none => s.store x.addr x.data 0
  | none, some p =>
    let s1 := s.portLeave p (hostSrc x.fn)
    if (s.coreAt p).cstate = .killed then s1
    else s1.portWrite p engineSrc x.addr x.data.length 0 none (fun y t => t.store y x.data 0)

/-- Pieces that have left the ordering point performed as far as they can be, in order. -/
def State.performPieces (s : State) (done : List Piece) : List Piece → State
  | [] => { s with inbound := done }
  | x :: rest =>
    if !x.left || x.performed then State.performPieces s (done ++ [x]) rest
    else if s.pieceBlocked x done then
      let s1 := match x.store with
        | some p => if earlier done x then s else s.portPlace x.part p (hostSrc x.fn) x.addr x.data.length
        | none => s
      State.performPieces s1 (done ++ [x]) rest
    else State.performPieces (s.performPiece x) (done ++ [{ x with performed := true }]) rest

/-- Pieces stay listed until every piece of their write is acknowledged (R451). -/
def ackedOut (xs : List Piece) : List Piece :=
  xs.filter (fun x => xs.any (fun y => decide (y.fn = x.fn ∧ y.wid = x.wid) && !y.acked))

/-- Performed pieces acknowledged, unless acknowledgements wait for their events. -/
def State.runPieces (s : State) : State :=
  let s1 := s.performPieces [] s.inbound
  if s.hold then s1 else { s1 with inbound := ackedOut (s1.inbound.map (fun x => { x with acked := x.performed })) }

/-- Whether the first piece of a function that has not left may leave (R451). -/
def mayLeave (x : Piece) (before : List Piece) : Bool :=
  before.all (fun y => decide (y.fn ≠ x.fn) || (y.left && decide (y.wid = x.wid ∨ y.route = x.route)))

/-- That piece leaves. -/
def leaveFirst (fn wid : Nat) (before : List Piece) : List Piece → List Piece
  | [] => []
  | x :: rest =>
    if x.fn = fn ∧ !x.left then
      (if x.wid = wid && mayLeave x before then { x with left := true } else x) :: rest
    else x :: leaveFirst fn wid (before ++ [x]) rest

/-- INBOUND_PIECE_SEND (R451). -/
def State.sendPiece (s : State) (fn wid : Nat) : State :=
  State.runPieces { s with inbound := leaveFirst fn wid [] s.inbound }

/-- The pieces of a function that may leave, in order; `fuel` bounds them. -/
def State.sendFrom (s : State) (fn : Nat) : Nat → State
  | 0 => s
  | n + 1 =>
    match s.inbound.find? (fun x => decide (x.fn = fn) && !x.left) with
    | some x => State.sendFrom (s.sendPiece fn x.wid) fn n
    | none => s

/-- Unless pieces wait for their events, all leave that may, each function's apart (R336). -/
def State.sendPieces (s : State) (n : Nat) : State := (s.inbound.map Piece.fn).eraseDups.foldl (fun u fn => u.sendFrom fn n) s

def execInboundPieceSend (fn id : Nat) (s : State) : Host.Outcome State Fault Refusal := .next (s.sendPiece (fnOrder fn) id)

/-- INBOUND_PIECE_ACK (R451): the oldest piece of the write that is performed. -/
def execInboundPieceAck (fn id : Nat) (s : State) : Host.Outcome State Fault Refusal :=
  let s1 := s.performPieces [] s.inbound
  let hit := fun x : Piece => decide (x.fn = fnOrder fn ∧ x.wid = id) && x.performed && !x.acked
  match s1.inbound.findIdx? hit with
  | some i => .next { s1 with inbound := ackedOut (s1.inbound.zipIdx.map (fun x => if x.2 = i then { x.1 with acked := true } else x.1)) }
  | none => .next s1

/-- A write that is an unsupported request is dropped and logged (R449). -/
def State.dropWrite (s : State) : State := { s with aer := s.aer + 1 }

/-- A write enters the ordering point. -/
def State.takeWrite (s : State) (ps : List Piece) : State :=
  let s1 := { s with inbound := s.inbound ++ ps, nextWrite := s.nextWrite + 1 }
  if s.hold then s1 else s1.sendPieces s1.inbound.length

/-- A write to a register takes its place among its function's writes, on a route of its own (R336, R352). -/
def State.takeRegister (s : State) (fn part reg : Nat) (data : List Byte) : State :=
  s.takeWrite [⟨fn, s.nextWrite, 8, none, 0, data, false, false, false, part, some reg⟩]

/-- INBOUND_WRITE (R336, R449 to R452). -/
def execInboundWrite (fn bar off : Nat) (data : List (BitVec 8)) (s : State) : Host.Outcome State Fault Refusal :=
  hostEvent fn s (fun s =>
    let part := fnPart fn
    match bar with
    | 0 => if 0x10000 < off + data.length then s.dropWrite else s.takeRegister (fnOrder fn) part off data
    | 2 =>
      match s.barStore fn off data.length with
      | some (p, o) => s.takeWrite [⟨fnOrder fn, s.nextWrite, s.homeDie p, some p, o, data, false, false, false, part, none⟩]
      | none => s.dropWrite
    | 4 =>
      match s.aperturePa part off data.length true with
      | some a => s.takeWrite (s.pagePieces (fnOrder fn) part a data)
      | none => s.dropWrite
    | _ => s.dropWrite)

/-! ### Host reads, doorbells, waits -/

/-- The VF status register (R439). -/
def State.vfStatus (s : State) (part : Nat) : Nat :=
  match s.parts.listed part with
  | some x => x.st.code + x.stopwhy % 256 * 2 ^ 8 + x.updpend.toNat * 2 ^ 16 + s.layout % 2 ^ 32 * 2 ^ 32
  | none => s.layout % 2 ^ 32 * 2 ^ 32

/-- Bytes as a host read sees them: those of a line, or burst, with a label above 0 are zero (R449, R450). -/
def State.hostBytes (s : State) (a n : Nat) : List Byte :=
  (List.range n).map (fun i => if s.labelAt (a + i) = 0 then s.byteAt (a + i) else 0)

/-- STATE codes of a queue descriptor (R344). -/
def QSt.code : QSt → Nat
  | .off => 0 | .on => 1 | .stopped => 2 | .fault => 3

/-- A queue's descriptor, as the host reads it (R344). -/
def State.queueBytes (s : State) (n : Nat) : List Byte :=
  let q := s.queueAt n
  let cfg := q.rlen + q.st.code * 2 ^ 32 + q.hostp.toNat * 2 ^ 36 + q.bin.toNat * 2 ^ 37 + q.kind * 2 ^ 38 + q.weight * 2 ^ 40 + q.prio * 2 ^ 48 +
    q.part * 2 ^ 52
  let waiters := ((q.parked.head?).map (fun r => r.cap.addr.toNat)).getD 0
  bytesOf 8 cfg ++ List.replicate 8 0 ++ bytesOf 8 q.drops ++ bytesOf 8 waiters ++ bytesOf 8 q.head ++ bytesOf 8 q.tail ++
    bytesOf 8 q.ring.addr.toNat ++ bytesOf 8 q.ring.hi.toNat

/-- An entry of the partition table, as the PF reads it (R432). -/
def State.partBytes (s : State) (i : Nat) : List Byte :=
  let x := s.partAt i
  if (s.parts.listed i).isNone then List.replicate 256 0
  else
    bytesOf 8 x.ival ++ bytesOf 8 x.slice ++ bytesOf 8 (x.keyBase + x.keyCount * 2 ^ 8) ++ List.replicate 8 0 ++ bytesOf 16 x.chains ++
      bytesOf 16 x.dbar ++ bytesOf 8 x.pbar ++ bytesOf 8 x.save ++ bytesOf 8 x.dlog ++ bytesOf 8 x.vfring ++ bytesOf 8 x.ready ++
      bytesOf 8 x.child ++ bytesOf 8 x.root.addr.toNat ++ bytesOf 8 x.root.hi.toNat ++ List.replicate 128 0

/-- An entry of the port table, as the PF reads it (R458). -/
def State.portBytes (s : State) (n : Nat) : List Byte :=
  let x := s.portAt n
  List.replicate 8 0 ++ bytesOf 8 (x.part + x.sendq * 2 ^ 6 + x.enable.toNat * 2 ^ 20) ++ bytesOf 8 (x.link + x.drops * 2 ^ 16) ++
    bytesOf 8 x.peermap ++ bytesOf 8 x.gwhdr ++ bytesOf 8 x.gwsave ++ List.replicate 16 0

/-- What a host reads of the descriptors and tables (R344, R432, R458), which the model names as BAR 1 (notes/assumptions/97.md): the
queues' descriptors from 0, those of its own partition through a VF; for the PF the partition table from 0x10_0000 and the port table
from 0x11_0000; from 0x20_0000, 0x8_0000 apart, the fatal dumps for the PF, and of those of its own cores the headers through a VF
(R474). -/
def State.tableRead (s : State) (fn off n : Nat) : Option (List Byte) :=
  let pf := decide (64 ≤ fn)
  let cut := fun (bs : List Byte) o => if o + n ≤ bs.length then some ((bs.drop o).take n) else none
  if off < 0x100000 then
    if pf || decide (fnPart fn ≠ 0 ∧ (s.queueAt (off / 64)).part = fnPart fn) then cut (s.queueBytes (off / 64)) (off % 64) else none
  else if pf && decide (off < 0x104000) then cut (s.partBytes (off / 256 % 64)) (off % 256)
  else if pf && decide (0x110000 ≤ off ∧ off < 0x110000 + 64 * 18) then cut (s.portBytes ((off - 0x110000) / 64)) (off % 64)
  else if off < 0x200000 then none
  else
    match s.dumps[(off - 0x200000) / 0x80000]? with
    | none => none
    | some d =>
      let o := off % 0x80000
      let mine := decide (fnPart fn ≠ 0 ∧ (d.header.getD 4 0).toNat % 64 = fnPart fn ∧ o + n ≤ 256)
      if (pf && decide (o + n ≤ 0x6C400)) || mine then some ((List.range n).map (fun i => d.byteAt (o + i))) else none

/-- Bytes of BAR0 (R439, R449): the VF status register, and free bytes for what the spec leaves to another manual. -/
def State.barBytes (s : State) (part off n : Nat) : List Byte :=
  let free := (List.range ((n + 7) / 8)).flatMap (fun i => bytesOf 8 (Config.freeWord (s.freeCtr + i)).toNat)
  ((bytesOf 8 (s.vfStatus part)).drop off ++ free).take n

/-- A host's read through BAR2 of a store whose image is saved makes the partition need it (R436, R452). -/
def State.await (s : State) (part p : Nat) : State :=
  if s.away part p && !s.awaited.contains (part, p) then { s with awaited := s.awaited ++ [(part, p)] } else s

/-- HOST_READ (R336, R344, R439, R449, R450, R452): behind every write of its function. -/
def execHostRead (fn bar off n : Nat) (s : State) : Host.Outcome State Fault Refusal :=
  hostEvent fn s (fun s =>
    let part := fnPart fn
    if s.inbound.any (fun x => decide (x.fn = fnOrder fn)) then s
    else
      match bar with
      | 0 =>
        if 0x10000 < off + n then s.answers .unsupported
        else if off + n ≤ 8 then s.answers (.data (s.barBytes part off n))
        else State.answers { s with freeCtr := s.freeCtr + (n + 7) / 8 } (.data (s.barBytes part off n))
      | 1 =>
        match s.tableRead fn off n with
        | some bs => s.answers (.data bs)
        | none => s.answers .unsupported
      | 2 =>
        match s.barStore fn off n with
        | none => s.answers .unsupported
        | some (p, o) =>
          if (s.coreAt p).cstate = .killed then s.answers (.data (List.replicate n 0))
          else if !s.portReady part p engineSrc o n (write := false) then (s.portWake part p engineSrc o n (write := false)).await part p
          else State.answers { s with awaited := s.awaited.filter (fun w => decide (w ≠ (part, p))) } (.data (s.hostBytes (lsBase p + o) n))
      | 4 =>
        match s.aperturePa part off n false with
        | some a => s.answers (.data (s.hostBytes a n))
        | none => s.answers .unsupported
      | _ => s.answers .unsupported)

/-- HOST_CORE_DOORBELL (R301, R449). -/
def execHostCoreDoorbell (fn rank : Nat) (s : State) : Host.Outcome State Fault Refusal :=
  hostEvent fn s (fun s => s.takeRegister (fnOrder fn) (fnPart fn) 8 (bytesOf 8 (min rank (2 ^ 64 - 1))))

/-- QUEUE_DOORBELL (R336, R352): a write through the VF of the queue's partition, which the EP personality presents (R447). -/
def execQueueDoorbell (n tail : Nat) (s : State) : Host.Outcome State Fault Refusal :=
  queueEvent n s (fun s => s.throughPf <| fun s => s.takeRegister (s.queueAt n).part (s.queueAt n).part (queueReg n) (bytesOf 8 (tail % 2 ^ 64)))

/-- REGISTRATION_REGISTER (R455); in the RC personality, where no function stands between, the driver's own registration
(notes/assumptions/69.md). -/
def execRegistrationRegister (fn : Nat) (s : State) : Host.Outcome State Fault Refusal :=
  if !s.endpoint ∧ fn < 128 then .next (s.register (fnPart fn))
  else hostEvent fn s (fun s => s.takeRegister (fnOrder fn) (fnPart fn) 16 (List.replicate 8 0))

/-- HOST_WAIT_REGISTER (R318, R320): an entry for a host thread; none while the table is full. -/
def execHostWaitRegister (fn addr val line : Nat) (s : State) : Host.Outcome State Fault Refusal :=
  hostEvent fn s (fun s =>
    match s.waitKey (partCore (fnPart fn)) (BitVec.ofNat 64 addr) with
    | some key =>
      if 65536 ≤ s.waits.length ∨ fnPart fn = 0 then s.answers .refused
      else State.answers { s with waits := s.waits ++ [⟨key, fnPart fn, .host (val % 2 ^ 64) (line % 2 ^ 40)⟩] } .accepted
    | none => s.answers .refused)

/-- REGISTER_WRITE (R318, R449, R456): register 1 is the doorbell that wakes up to `b` waiters of the key at `a` (all for 0),
register 2 the package id that F firmware sets through the PF; the spec gives every other register no effect. -/
def execRegisterWrite (fn reg a b : Nat) (s : State) : Host.Outcome State Fault Refusal :=
  hostEvent fn s (fun s =>
    match reg with
    | 1 => s.takeRegister (fnOrder fn) (fnPart fn) wakeReg (bytesOf 8 (a % 2 ^ 64) ++ bytesOf 2 (b % 2 ^ 16))
    | 2 => if 64 ≤ fn ∧ a < 288 then { s with pkg := a } else s
    | _ => s)

/-! ### Host warm restart -/

/-- Whether a card has a line in the host-link window: an entry of some tile leads one of its regions there (R455). -/
def State.hostCard (s : State) (k : Card) : Bool :=
  let hits := fun r : Region => match r with
    | .virt a n => s.tiles.any (fun x => x.2.tlb.any (fun e => teValid e && decide (tePart e = k.part ∧ hostBase ≤ tePpn e * 4096) &&
        meets a n (teVpn e * 4096) (teBytes e)))
    | _ => false
  decide (k.state ≠ .ended) && (k.reads.any hits || k.writes.any hits)

/-- Those cards end HOSTRESET when they next move; of every other one, at the first line that a translation made since leads to the
host link (R455, notes/assumptions/82.md). -/
def State.hostReset (s : State) (x : Tile) : Tile :=
  { x with cards := x.cards.map (fun e => (e.1, if e.2.state = .ended then e.2 else { e.2 with doomed := e.2.doomed || s.hostCard e.2, stale := true })) }

/-- A saved window's cards too. -/
def State.hostResetImg (s : State) (x : TileImg) : TileImg := { x with tile := s.hostReset x.tile }

/-- HOST_WARM_RESTART (R455): of the PF, or of the root port. -/
def execHostWarmRestart (fn : Nat) (s : State) : Host.Outcome State Fault Refusal :=
  if fn ≠ 0 then .next s
  else
    let teams := fun ms : List Team => ms.map (fun m => { m with tileImg := m.tileImg.map s.hostResetImg })
    .next { s with
      tiles := s.tiles.map (fun e => (e.1, s.hostReset e.2))
      tileImages := s.tileImages.map (fun e => (e.1, s.hostResetImg e.2))
      kernels := s.kernels.map (fun e => (e.1, { e.2 with teams := teams e.2.teams }))
      unregistered := List.range 64
      inbound := s.inbound.filter (fun x => x.left)
      waits := s.waits.filter (fun w => match w.who with
        | .host _ _ => false
        | .core _ => true) }

/-! ### Kustad ports -/

/-- An event of a port. -/
def portEvent (n : Nat) (s : State) (f : State → State) : Host.Outcome State Fault Refusal :=
  if n < 18 then .next (f s) else .fault .noSuchSubject

/-- Whether a send queue keeps R458. -/
def State.sendqOk (s : State) (part n : Nat) : Bool :=
  let q := s.queueAt n
  decide (q.part = part ∧ q.kind = 0 ∧ q.hostp = false ∧ q.bin = false)

/-- A port's gateway cores, and the contexts of theirs that are saved, belong to the port's partition (R463). -/
def State.gatewaysTo (s : State) (n part : Nat) : State :=
  let own := fun (u : State) (p : Nat) =>
    let u1 := u.onCore p (fun c => { c with part := part })
    match u1.images.listed (2 ^ 20 + p) with
    | some x => { u1 with images := u1.images.list (2 ^ 20 + p) { x with core := { x.core with part := part } } }
    | none => u1
  (portCores n).foldl own s

/-- The gateway kernel placed where GWHDR is written; while its partition does not run, it waits as a saved context for the partition's
start or resume (R434, R463). -/
def State.placeHeader (s : State) (n : Nat) : State :=
  let s1 := s.placeGateway n
  let keep := fun (u : State) (p : Nat) => if (u.coreAt p).cstate = .running then u.saveCore p else u
  if s.partRuns (s.portAt n).part then s1 else (portCores n).foldl keep s1

/-- An entry of the port table written (R458, R463): CTL, PEERMAP or GWHDR; every other field is read-only. -/
def State.portWriteField (s : State) (n off val : Nat) : State :=
  let x := s.portAt n
  let busy := x.enable && decide ((s.parts.listed x.part).map Part.st = some .run)
  if busy then s.answers .refused
  else
    match off with
    | 8 =>
      let part := val % 2 ^ 6
      let q := val / 2 ^ 6 % 2 ^ 14
      if s.sendqOk part q then
        State.answers ((s.setPort n { x with part := part, sendq := q, enable := val.testBit 20 }).gatewaysTo n part) .accepted
      else s.answers .refused
    | 24 => State.answers (s.setPort n { x with peermap := val % 2 ^ 64 }) .accepted
    | 32 => State.answers ((s.setPort n { x with gwhdr := val % 2 ^ 64 }).placeHeader n) .accepted
    | _ => s.answers .accepted

def execPortTableWrite (port off val : Nat) (s : State) : Host.Outcome State Fault Refusal :=
  portEvent port s (fun s => s.throughPf (fun s => s.portWriteField port off val))

/-- A yielding port's gateway cores are evicted as they reach their boundaries (R464). -/
def State.yieldOn (s : State) (n : Nat) : State :=
  if !(s.portAt n).yielding then s
  else
    let s1 := (portCores n).foldl State.evict s
    if (portCores n).any (fun p => decide ((s1.coreAt p).cstate = .running)) then s1 else s1.setPort n { s1.portAt n with yielding := false }

/-- PORT_YIELD (R464): a request through the PF, which is remembered until every one of them is evicted. -/
def execPortYield (port : Nat) (s : State) : Host.Outcome State Fault Refusal :=
  portEvent port s (fun s => s.throughPf (fun s => State.yieldOn (s.setPort port { s.portAt port with yielding := true }) port))

/-- KUSTAD_LINK_STATE_CHANGE (R458). -/
def execKustadLinkStateChange (port link : Nat) (s : State) : Host.Outcome State Fault Refusal :=
  portEvent port s (fun s => s.setPort port { s.portAt port with link := link % 4 })

/-- A block message's index, and its lane (R459, R461). -/
def BlockMsg.bidx (m : BlockMsg) : Nat := (m.words.getD 3 0).toNat / 2 ^ 32
def BlockMsg.lane (m : BlockMsg) : Nat := m.bidx % 4

/-- The message with the sending package's id (R459). -/
def BlockMsg.from (m : BlockMsg) (pkg : Nat) : BlockMsg :=
  { m with words := m.words.set 3 (BitVec.ofNat 64 (pkg % 512 + m.bidx * 2 ^ 32)) }

def KPort.lane (x : KPort) (g : Nat) : List BlockMsg := x.lanes.look (fun _ => []) g
def KPort.setLane (x : KPort) (g : Nat) (ms : List BlockMsg) : KPort := { x with lanes := x.lanes.put (fun _ => []) g ms }

/-- BLOCK_LANE_DELIVER (R313, R461): a lane's oldest message enters its gateway core's inbox, when that can take it. -/
def State.deliverLane (s : State) (n g : Nat) : State :=
  let x := s.portAt n
  match x.lane g with
  | [] => s
  | m :: rest =>
    let f : Flight := ⟨gatewayCore n g, ⟨.msg, m.words, m.lab, 0x1FFE⟩, none, x.part⟩
    if s.refuses f && decide ((s.coreAt f.dst).cstate ≠ .killed) then s else (s.setPort n (x.setLane g rest)).enterMsg f

def execBlockLaneDeliver (port lane : Nat) (s : State) : Host.Outcome State Fault Refusal :=
  portEvent port s (fun s => if lane < 4 then s.deliverLane port lane else s)

/-- A message enters its lane (R461). -/
def State.enterLane (s : State) (n : Nat) (m : BlockMsg) : State :=
  let x := s.portAt n
  let s1 := s.setPort n (x.setLane m.lane (x.lane m.lane ++ [m]))
  if s.hold then s1 else s1.deliverLane n m.lane

/-- An entry discarded (R460). -/
def KPort.drop1 (x : KPort) : KPort := { x with popped := none, drops := min (x.drops + 1) (2 ^ 32 - 1) }

/-- What a port has popped goes on (R457, R460): a LOCAL message enters its lane when that has room; another one is sent when the
receiver's lane has a place reserved for it, and tries again after a RETRY (notes/assumptions/95.md), and is discarded while LINK is not
UP; nothing is transmitted for a
partition that is stopped (R465). -/
def State.enterPopped (s : State) (n : Nat) : State :=
  let x := s.portAt n
  match x.popped with
  | none => s
  | some (none, m) => if (x.lane m.lane).length < 64 then (s.setPort n { x with popped := none }).enterLane n m else s
  | some (some pkg, m) =>
    if x.link ≠ 2 then s.setPort n x.drop1
    else if s.launchWaits x.part then s
    else
    let s1 := { s with freeCtr := s.freeCtr + 1 }
    if Config.reserved s.freeCtr then s1.setPort n { x with popped := none, sent := x.sent ++ [(pkg, m)] } else s1

/-- What a block entry asks for (R459, R460): nothing good, this package, or another. -/
inductive BlockWay where
  | malformed
  | here
  | peer (pkg : Nat)
  deriving DecidableEq, Repr

def State.blockWay (s : State) (x : KPort) (e : QEntry) : BlockWay :=
  let r := (e.words.getD 4 0).toNat
  let peer := r % 512
  let v := s.numAt (x.peermap + 2 * peer) 2
  if (e.words.drop 5).any (fun w => decide (w ≠ 0)) ∨ r / 2 ^ 9 % 2 ^ 6 ≠ 0 ∨ r / 2 ^ 16 ≠ 0 then .malformed
  else if r.testBit 15 then .here
  else if 288 ≤ peer ∨ !v.testBit 15 ∨ x.link ≠ 2 then .malformed
  else .peer (v % 512)

/-- BLOCK_ENTRY_SEND (R460 to R462): one entry of the send queue; a LOCAL one that meets a full lane holds the queue. -/
def State.sendBlock (s0 : State) (n : Nat) : State :=
  let s := s0.enterPopped n
  let x := s.portAt n
  if !x.enable ∨ x.part = 0 ∨ x.popped.isSome ∨ (s.queueAt x.sendq).part ≠ x.part then s
  else
    match s.pop x.sendq with
    | .status t _ => t
    | .wait t => t
    | .entry t e =>
      let m := BlockMsg.from ⟨e.words.take 4, e.lab, e.tags⟩ s.pkg
      match s.blockWay x e with
      | .malformed => t.setPort n x.drop1
      | .peer pkg => (t.setPort n { x with popped := some (some pkg, m) }).enterPopped n
      | .here => (t.setPort n { x with popped := some (none, m) }).enterPopped n

def execBlockEntrySend (port : Nat) (s : State) : Host.Outcome State Fault Refusal := portEvent port s (fun s => s.sendBlock port)

/-- BLOCK_PACKET_RECEIVE (R456, R457, R460): the tags are cleared; where the lane has no place for it, the answer is RETRY, and the
sender keeps it. -/
def execBlockPacketReceive (port src : Nat) (data : List (BitVec 8)) (label : Nat) (s : State) : Host.Outcome State Fault Refusal :=
  portEvent port s (fun s =>
    let x := s.portAt port
    let words := (List.range 4).map (fun i => BitVec.ofNat 64 (ofBytes ((data.drop (8 * i)).take 8)))
    let m := BlockMsg.from ⟨words, BitVec.ofNat 3 label, [false, false, false, false]⟩ src
    if x.part = 0 then s
    else if 64 ≤ (x.lane m.lane).length then s.answers .retry
    else s.enterLane port m)

/-! ### Cuts -/

/-- A MARK, which holds no words (R465), sent to every peer of a port; a MARK of the same cut that has come already counts. -/
def State.sendMarks (s : State) (n : Nat) : State :=
  let x := s.portAt n
  s.setPort n { x with sent := x.sent ++ (s.peersOf n).map (fun p => (p, ⟨[], 0, []⟩)) }

/-- MIGRATION_CUT (R465). -/
def execMigrationCut (part : Nat) (s : State) : Host.Outcome State Fault Refusal :=
  partEvent part s (fun s =>
    if (s.parts.listed part).map Part.st ≠ some .run then s.answers .refused
    else
      let s1 := (s.stopPart part 2).onPart part (fun x => { x with cut := true })
      (s1.cutPorts part).foldl State.sendMarks s1)

/-- CUT_MARK_RECEIVE (R465). -/
def execCutMarkReceive (port src : Nat) (s : State) : Host.Outcome State Fault Refusal :=
  portEvent port s (fun s =>
    let x := s.portAt port
    if x.marks.contains src then s else s.setPort port { x with marks := x.marks ++ [src] })

/-- A port's lanes loaded from an image that holds some for it: each message with its lane, its bytes and its label (R465). -/
def State.loadLanes (s : State) (n : Nat) (lanes : List (Nat × Nat × List (BitVec 8) × Nat)) : State :=
  let mine := lanes.filter (fun x => decide (x.1 = n))
  let msg := fun x : Nat × Nat × List (BitVec 8) × Nat =>
    (⟨(List.range 4).map (fun i => BitVec.ofNat 64 (ofBytes ((x.2.2.1.drop (8 * i)).take 8))), BitVec.ofNat 3 x.2.2.2, List.replicate 4 false⟩ : BlockMsg)
  let load := fun (p : KPort) g => p.setLane g ((mine.filter (fun x => decide (x.2.1 = g))).map msg)
  if mine.isEmpty then s else s.setPort n ((List.range 4).foldl load (s.portAt n))

/-- MIGRATION_RESTORE (R465): the PEERMAP of each port of the partition rewritten, its lanes loaded, then a resume, with the other images
that the package holds (notes/assumptions/96.md). -/
def execMigrationRestore (part : Nat) (image : MigrationImage) (s : State) : Host.Outcome State Fault Refusal :=
  partEvent part s (fun s =>
    if (s.parts.listed part).map Part.st ≠ some .stopped then s.answers .refused
    else
      let maps := fun (u : State) (n : Nat) => match SMap.listed image.peers n with
        | some bs => u.store (u.portAt n).peermap (bs.take 576) 0
        | none => u
      let one := fun (u : State) (n : Nat) => (maps u n).loadLanes n image.lanes
      State.resumePart ((s.portsOf part).foldl one s) part)

end Sys2Proof.Machine
end

