-- ==== Sys2Proof/Machine/Device.lean ====
section
/-! DEFINITION. The end of a revocation sweep, and package reset with bring-up (R102 to R104, R467 to R470, R473). -/

namespace Sys2Proof.Machine

open Sys2Proof

/-! ### The end of a sweep -/

/-- A capability as a sweep leaves it (R102). -/
def Sweep.clear (w : Sweep) (k : Cap) : Cap := { k with tag := k.tag && !w.marked k.base }

/-- A store of a capability that waits. -/
def Access.swept (w : Sweep) (a : Access) : Access :=
  match a.op with
  | .storeCap k l => { a with op := .storeCap (w.clear k) l }
  | .amoCap e k l keep => { a with op := .amoCap e (w.clear k) l keep }
  | _ => a

/-- What a mirror core holds (R291). -/
def Held.swept (w : Sweep) (h : Held) : Held :=
  match h with
  | .access o lo top bar a => .access o lo top bar (a.swept w)
  | .image o off addr ks => .image o off addr (ks.map (fun k => (w.clear k.1, k.2)))
  | h => h
def Interval.swept (w : Sweep) (v : Interval) : Interval := { v.sweep w with held := v.held.map (Held.swept w) }

/-- A core's registers, late writes, waiting stores and mirror interval as a sweep leaves them (R102, R103). -/
def Core.swept (w : Sweep) (c : Core) : Core :=
  { c with
    tags := c.tags.filter (fun e => !w.marked (c.capAt e.1).base)
    pending := c.pending.map (Pending.sweep w)
    gifts := c.gifts.map (Pending.sweep w)
    replay := c.replay.map (Pending.sweep w)
    interval := c.interval.map (Interval.swept w)
    owed := c.owed.map (Held.swept w)
    portq := c.portq.map (Access.swept w) }

/-- The tags of an undo log, newest write first, by what stands at their granules once the writes are undone (R102, R292). -/
def sweepUndo (w : Sweep) (p : Nat) : List UndoWrite → State → List UndoWrite
  | [], _ => []
  | u :: rest, s =>
    let t := s.undoOne p u
    { u with tags := u.tags.map (fun g => (g.1, g.2 && !w.marked (t.granule (lsBase p + 16 * g.1)).base)) } :: sweepUndo w p rest t

/-- A core swept, its undo log too. -/
def State.sweepCore (s : State) (w : Sweep) (p : Nat) : State :=
  let undo := ((s.coreAt p).interval.map (fun v => sweepUndo w p v.undo s)).getD []
  s.onCore p (fun c => { c.swept w with interval := (c.swept w).interval.map (fun v => { v with undo := undo }) })

/-- A saved store's tags. -/
def StoreImg.swept (w : Sweep) (x : StoreImg) : StoreImg :=
  let word := fun a : Nat => BitVec.ofNat 64 (ofBytes (SMap.lookList (fun _ => 0) x.bytes a 8))
  let cap := fun e : Nat × Bool => Cap.ofWords (word (16 * e.1)) (word (16 * e.1 + 8)) e.2
  { x with tags := x.tags.filter (fun e => !w.marked (cap e).base) }

def CoreImg.swept (w : Sweep) (x : CoreImg) : CoreImg := { x with core := x.core.swept w, store := x.store.swept w }

/-- Whether a card has a marked operand (R102). -/
def Card.marked (w : Sweep) (k : Card) : Bool :=
  decide (k.state ≠ .ended) && ((k.dst.tag && w.marked k.dst.base) || (k.src.tag && w.marked k.src.base))

/-- The entries of a saved window whose cards end REVOKED (R102). -/
def Tile.revokes (w : Sweep) (x : Tile) : List (Nat × Card) := x.cards.filter (fun e => e.2.marked w)

/-- The arrivals that they make, as tile, slot, status and scope (R265). -/
def State.revokedArrivals (s : State) (t : Nat) (w : Sweep) (x : Tile) : List (Nat × Nat × Nat × Nat) :=
  (x.revokes w).flatMap (fun e => (s.cardArrivals t { e.2 with status := 0x0A }).map (fun a => (a.1, a.2.1, a.2.2, e.2.scope)))

/-- A saved window's cards: those with a marked operand have ended REVOKED, with their arrivals at the window's own slots. -/
def Tile.swept (w : Sweep) (own : List (Nat × Nat × Nat × Nat)) (x : Tile) : Tile :=
  let hit := (x.revokes w).map (fun e => e.1)
  let one := fun e : Nat × Card =>
    let k := { e.2 with preds := e.2.preds.filter (fun p => !hit.contains p) }
    (e.1, if hit.contains e.1 then { k with state := .ended, status := 0x0A, due := none, miss := none, ending := none } else k)
  own.foldl (fun y a => y.arrive a.2.1 a.2.2.1 a.2.2.2) { x with cards := x.cards.map one }

/-- A saved window swept, with the arrivals that its cards make on other tiles. -/
def State.sweepImg (s : State) (w : Sweep) (t : Nat) (x : TileImg) : TileImg × List (Nat × Nat × Nat × Nat) :=
  let arr := s.revokedArrivals t w x.tile
  ({ x with tile := x.tile.swept w (arr.filter (fun a => decide (a.1 = t))) }, arr.filter (fun a => decide (a.1 ≠ t)))

/-- An arrival on a tile of a partition, whose window may be saved. -/
def State.arriveSaved (part : Nat) (s : State) (a : Nat × Nat × Nat × Nat) : State :=
  match s.tileImages.listed (part * 512 + a.1) with
  | some x => { s with tileImages := s.tileImages.list (part * 512 + a.1) { x with tile := x.tile.arrive a.2.1 a.2.2.1 a.2.2.2 } }
  | none => s.arriveSlot a.1 a.2.1 a.2.2.1 a.2.2.2

def QEntry.swept (w : Sweep) (e : QEntry) : QEntry :=
  let cap := fun i : Nat => Cap.ofWords (e.words.getD (2 * i) 0) (e.words.getD (2 * i + 1) 0) (e.tags.getD i false)
  { e with tags := (List.range 4).map (fun i => (w.clear (cap i)).tag) }

def Bank.swept (w : Sweep) (b : Bank) : Bank :=
  { b with col := b.col.foldl (fun m e => SMap.put (fun _ => Cap.null) m e.1 (w.clear e.2)) b.col }

/-- A child's record in the queue engine's pool or rings (R93, R374). -/
def Child.swept (w : Sweep) (c : Child) : Child := { c with tags := (QEntry.swept w ⟨c.words, c.tags, c.lab⟩).tags }

/-- The dies' children of a partition. -/
def Die.swept (w : Sweep) (part : Nat) (d : Die) : Die :=
  let one := fun c : Child => if c.part = part then c.swept w else c
  { d with pool := d.pool.map one, backing := d.backing.map (fun b => (b.1, b.2.map one)) }

/-- A buffered write to a store of the partition (R102, R483). -/
def FarWrite.swept (w : Sweep) (x : FarWrite) : FarWrite :=
  let at_ := fun i : Nat => (x.off + 15) / 16 * 16 - x.off + 16 * i
  let word := fun k : Nat => BitVec.ofNat 64 (ofBytes ((x.bytes.drop k).take 8))
  { x with tags := x.tags.zipIdx.map (fun g => (w.clear (Cap.ofWords (word (at_ g.2)) (word (at_ g.2 + 8)) g.1)).tag) }

/-- The memory that a partition's sweep reads (R102): stores, pages, rings. -/
def State.sweptPlaces (s : State) (part : Nat) : List (Nat × Nat) :=
  ((s.coresOf part).map (fun p => (lsBase p, storeSize p))) ++ s.pagesOf part ++
    (s.queuesOf part).map (fun n => let q := s.queueAt n
      (q.ring.base.toNat, 64 * q.rlen))

/-- Memory's tags as a sweep leaves them. -/
def State.sweepMemory (s : State) (part : Nat) (w : Sweep) : State :=
  let places := s.sweptPlaces part
  let inside := fun a : Nat => places.any (fun x => decide (x.1 ≤ a ∧ a < x.1 + x.2))
  { s with tags := s.tags.filter (fun e => !(inside (16 * e.1) && w.marked (s.granule (16 * e.1)).base)) }

/-- Cards of the partition's windows with marked operands end REVOKED (R102). -/
def State.sweepCards (s : State) (part : Nat) (w : Sweep) : State :=
  s.tiles.foldl (fun u t => t.2.cards.foldl (fun v e =>
    match v.cardAt t.1 e.1 with
    | some k =>
      if !(k.marked w && decide (k.part = part)) then v
      else if k.kind = .mload ∧ k.state = .running then v.endLoad t.1 e.1 k 0x0A
      else v.endCard t.1 e.1 k 0x0A
    | none => v) u) s

/-- What a partition keeps outside its cores and windows: queues, chains, children, buffered writes, saved images. -/
def State.sweepRest (s : State) (part : Nat) (w : Sweep) : State :=
  let mine := fun k : Nat => decide (k / 16384 = part ∧ k < 2 ^ 20) || (s.gatewaysOf part).contains (k - 2 ^ 20)
  let chain := fun c : Chain => { c with banks := c.banks.map (fun b => (b.1, b.2.swept w)) }
  let far := fun x : FarWrite => if (s.coreAt x.store).part = part then x.swept w else x
  { s with
    queues := s.queues.map (fun e => (e.1, if e.2.part = part then { e.2 with seg := e.2.seg.map (QEntry.swept w) } else e.2))
    chains := s.chains.map (fun e => (e.1, if s.chainPart e.1 = part then chain e.2 else e.2))
    dies := s.dies.map (fun e => (e.1, e.2.swept w part))
    cardbuf := s.cardbuf.map (fun e => (e.1, e.2.map far))
    images := s.images.map (fun e => (e.1, if mine e.1 then e.2.swept w else e.2)) }

/-- The saved windows of a partition, and those of its swapped teams, with the arrivals that their cards make. -/
def State.sweepSaved (s : State) (part : Nat) (w : Sweep) : State :=
  let ours := fun e : Nat × TileImg => decide (e.1 / 512 = part)
  let tiles := s.tileImages.map (fun e => (e.1, if ours e then (s.sweepImg w (e.1 % 512) e.2).1 else e.2))
  let outs := (s.tileImages.filter ours).flatMap (fun e => (s.sweepImg w (e.1 % 512) e.2).2)
  let team := fun m : Team => { m with
    image := m.image.map (CoreImg.swept w)
    tileImg := m.tileImg.map (fun x => (s.sweepImg w m.tile x).1) }
  let away := (s.kernels.filter (fun e => decide (e.2.part = part))).flatMap (fun e =>
    e.2.teams.flatMap (fun m => (m.tileImg.map (fun x => (s.sweepImg w m.tile x).2)).getD []))
  let s1 := { s with
    tileImages := tiles
    kernels := s.kernels.map (fun e => (e.1, if e.2.part = part then { e.2 with teams := e.2.teams.map team } else e.2)) }
  (outs ++ away).foldl (State.arriveSaved part) s1

/-- Whether every core of the partition has made its check, or makes it now because it does not issue (R103, R104). -/
def State.allChecked (s : State) (part : Nat) (w : Sweep) : Bool :=
  (s.coresOf part).all (fun p => w.checked.contains p || !(s.coreAt p).awake)

/-- SWEEP_COMPLETE (R102, R104): the bitmap's EPOCH counts it. -/
def State.sweepDone (s : State) (part : Nat) : State :=
  match s.sweeps.listed part with
  | none => s
  | some w =>
    let c := s.coreAt w.owner
    if !(s.allChecked part w) then s
    else if !s.portReady part w.owner engineSrc w.off 32 then s.portWake part w.owner engineSrc w.off 32
    else
      let s1 := (s.coresOf part).foldl (fun u p => u.sweepCore w p) s
      let s2 := State.sweepSaved (State.sweepRest ((s1.sweepMemory part w).sweepCards part w) part w) part w
      let s3 := { s2 with sweeps := s2.sweeps.drop part }
      if c.cstate = .killed then s3
      else
        let epoch := s3.numAt (lsBase w.owner + w.off + 16) 8
        s3.portWrite w.owner engineSrc (w.off + 16) 8 0 none (fun y t => t.store y (bytesOf 8 ((epoch + 1) % 2 ^ 64)) 0)

def execSweepComplete (part : Nat) (s : State) : Host.Outcome State Fault Refusal :=
  if part < 64 then .next (s.sweepDone part) else .fault .noSuchSubject

/-! ### Reset -/

/-- The package as it stands after the strap is read (R447, R467, R470, R473): what fuses and non-volatile storage hold goes
on; so do the model's own fields. -/
def State.packageReset (s : State) (ep : Bool) : State :=
  { State.reset with
    remap := s.remap
    fw := ⟨s.fw.active, s.fw.ctr, none, false⟩
    layout := s.layout
    dead := s.dead
    endpoint := ep
    kills := s.kills
    spused := s.spused
    pcdrop := s.pcdrop
    agenda := s.agenda
    freeCtr := s.freeCtr
    hold := s.hold }

/-- The set-aside cores that F firmware places at bring-up: loupe and OS server cores, by the boot mask (R468, R470). -/
def State.serviceCores (s : State) : List Nat :=
  (List.range 8).flatMap (s.roleCores .loupe) ++ (List.range 8).flatMap (s.roleCores .server)

/-- The role that a boot configuration names by a code (R468, notes/assumptions/46.md). -/
def roleOfCode (n : Nat) : CoreRole := [CoreRole.root, .loupe, .server].getD n .spare

/-- The boot mask applied (R468, R470): an empty one stands for the default. -/
def State.applyMask (s : State) (mask : List (Nat × Nat)) : State :=
  { s with mask := if mask.isEmpty then none else some (mask.foldl (fun m e => m.list e.1 (roleOfCode e.2)) []) }

/-- A one-core team of S runtime (R370, R467, R468, R470): its kernel header stands at a physical address. -/
def State.placeService (s : State) (hdr p : Nat) : State :=
  let pcc := s.granule hdr
  let image := s.granule (hdr + 16)
  let ctl := BitVec.ofNat 64 (s.numAt (hdr + 64) 8)
  let a := image.addr.toNat
  let src := (List.range (imgLen ctl / 16)).map (fun i => a + 16 * i)
  if !(pcc.tag && image.tag) ∨ (s.coreAt p).cstate ≠ .idle then s
  else
    let s1 := s.placeCore ⟨0, pcc, image, ctl, s.wordsAt (a + imgShape ctl) 32⟩ src 0 none 0 p
    s1.onCore p (fun c => { c with cstate := .service, mode := .s })

/-- PACKAGE_RESET (R470): the reset itself, up to the state in which the root-of-trust cores run F firmware, or the end of bring-up.  `ok`
says that the firmware's measurement, signature and counter are good: if not, the package stays in BOOT and the
failure is reported.  Else the boot mask is applied, the service cores are placed from the header at `hdr`, and the root-of-trust cores go
on as SERVICE (R467). -/
def execPackageReset (ep : Bool) (stage : BringUp) (hdr : Nat) (s : State) : Host.Outcome State Fault Refusal :=
  match stage with
  | .reset => .next (s.packageReset ep)
  | .finish false _ => .next { s with reports := s.reports ++ [.bootFailed] }
  | .finish true mask =>
    let s0 := s.applyMask mask
    let s1 := s0.serviceCores.foldl (fun u p => u.placeService hdr p) s0
    .next (rootCores.foldl (fun u p => u.onCore p (fun c => if c.cstate = .boot then { c with cstate := .service } else c)) s1)

end Sys2Proof.Machine
end

