-- ==== Sys2Proof/Machine/Dispatch.lean ====
section
/-! DEFINITION. One arm per row of the opcode table. -/

namespace Sys2Proof.Machine

open Sys2Proof

def exec (i : Instr) (s : State) : Host.Outcome State Fault Refusal :=
      match i with
      | .add h d a b => Sys2Proof.Machine.execAdd h d a b s
      | .sub h d a b => Sys2Proof.Machine.execSub h d a b s
      | .mul h d a b => Sys2Proof.Machine.execMul h d a b s
      | .mulh h d a b => Sys2Proof.Machine.execMulh h d a b s
      | .mulhz h d a b => Sys2Proof.Machine.execMulhz h d a b s
      | .div h d a b => Sys2Proof.Machine.execDiv h d a b s
      | .divz h d a b => Sys2Proof.Machine.execDivz h d a b s
      | .rem h d a b => Sys2Proof.Machine.execRem h d a b s
      | .remz h d a b => Sys2Proof.Machine.execRemz h d a b s
      | .min h d a b => Sys2Proof.Machine.execMin h d a b s
      | .max h d a b => Sys2Proof.Machine.execMax h d a b s
      | .minz h d a b => Sys2Proof.Machine.execMinz h d a b s
      | .maxz h d a b => Sys2Proof.Machine.execMaxz h d a b s
      | .andW h d a b => Sys2Proof.Machine.execAndW h d a b s
      | .orW h d a b => Sys2Proof.Machine.execOrW h d a b s
      | .xor h d a b => Sys2Proof.Machine.execXor h d a b s
      | .andn h d a b => Sys2Proof.Machine.execAndn h d a b s
      | .orn h d a b => Sys2Proof.Machine.execOrn h d a b s
      | .xnor h d a b => Sys2Proof.Machine.execXnor h d a b s
      | .logt h d a b c table => Sys2Proof.Machine.execLogt h d a b c table s
      | .shl h d a b => Sys2Proof.Machine.execShl h d a b s
      | .shr h d a b => Sys2Proof.Machine.execShr h d a b s
      | .sar h d a b => Sys2Proof.Machine.execSar h d a b s
      | .rot h d a b => Sys2Proof.Machine.execRot h d a b s
      | .fshl h d a b c => Sys2Proof.Machine.execFshl h d a b c s
      | .fshr h d a b c => Sys2Proof.Machine.execFshr h d a b c s
      | .clz h d a => Sys2Proof.Machine.execClz h d a s
      | .ctz h d a => Sys2Proof.Machine.execCtz h d a s
      | .popc h d a => Sys2Proof.Machine.execPopc h d a s
      | .brev h d a => Sys2Proof.Machine.execBrev h d a s
      | .bswap h d a => Sys2Proof.Machine.execBswap h d a s
      | .mov h d a => Sys2Proof.Machine.execMov h d a s
      | .sext h d a width1 => Sys2Proof.Machine.execSext h d a width1 s
      | .zext h d a width1 => Sys2Proof.Machine.execZext h d a width1 s
      | .seq h d a b => Sys2Proof.Machine.execSeq h d a b s
      | .sne h d a b => Sys2Proof.Machine.execSne h d a b s
      | .slt h d a b => Sys2Proof.Machine.execSlt h d a b s
      | .sltz h d a b => Sys2Proof.Machine.execSltz h d a b s
      | .sel h d a b => Sys2Proof.Machine.execSel h d a b s
      | .bfx h d a pos width1 => Sys2Proof.Machine.execBfx h d a pos width1 s
      | .bfxz h d a pos width1 => Sys2Proof.Machine.execBfxz h d a pos width1 s
      | .bfi h d a pos width1 => Sys2Proof.Machine.execBfi h d a pos width1 s
      | .addi h d a imm => Sys2Proof.Machine.execAddi h d a imm s
      | .andi h d a imm => Sys2Proof.Machine.execAndi h d a imm s
      | .ori h d a imm => Sys2Proof.Machine.execOri h d a imm s
      | .xori h d a imm => Sys2Proof.Machine.execXori h d a imm s
      | .shli h d a imm => Sys2Proof.Machine.execShli h d a imm s
      | .shri h d a imm => Sys2Proof.Machine.execShri h d a imm s
      | .sari h d a imm => Sys2Proof.Machine.execSari h d a imm s
      | .slti h d a imm => Sys2Proof.Machine.execSlti h d a imm s
      | .li h d imm => Sys2Proof.Machine.execLi h d imm s
      | .beq h a b disp => Sys2Proof.Machine.execBeq h a b disp s
      | .bne h a b disp => Sys2Proof.Machine.execBne h a b disp s
      | .blt h a b disp => Sys2Proof.Machine.execBlt h a b disp s
      | .bge h a b disp => Sys2Proof.Machine.execBge h a b disp s
      | .blo h a b disp => Sys2Proof.Machine.execBlo h a b disp s
      | .bhs h a b disp => Sys2Proof.Machine.execBhs h a b disp s
      | .bz h a disp => Sys2Proof.Machine.execBz h a disp s
      | .bnz h a disp => Sys2Proof.Machine.execBnz h a disp s
      | .j h disp => Sys2Proof.Machine.execJ h disp s
      | .rpt h n1 steps stride => Sys2Proof.Machine.execRpt h n1 steps stride s
      | .lns h a => Sys2Proof.Machine.execLns h a s
      | .lget h d => Sys2Proof.Machine.execLget h d s
      | .ldrain h a => Sys2Proof.Machine.execLdrain h a s
      | .callc h k a => Sys2Proof.Machine.execCallc h k a s
      | .ret h k => Sys2Proof.Machine.execRet h k s
      | .park h a b => Sys2Proof.Machine.execPark h a b s
      | .trap h a => Sys2Proof.Machine.execTrap h a s
      | .eret h => Sys2Proof.Machine.execEret h s
      | .call h k disp => Sys2Proof.Machine.execCall h k disp s
      | .lspill h d a b => Sys2Proof.Machine.execLspill h d a b s
      | .lfill h d a b => Sys2Proof.Machine.execLfill h d a b s
      | .lmove h d a b => Sys2Proof.Machine.execLmove h d a b s
      | .cget h fsel d a => Sys2Proof.Machine.execCget h fsel d a s
      | .csetaddr h d a b => Sys2Proof.Machine.execCsetaddr h d a b s
      | .cincaddr h d a b => Sys2Proof.Machine.execCincaddr h d a b s
      | .cnarrow h d a b => Sys2Proof.Machine.execCnarrow h d a b s
      | .cnarrowx h d a b => Sys2Proof.Machine.execCnarrowx h d a b s
      | .cdrop h d a b => Sys2Proof.Machine.execCdrop h d a b s
      | .craiselbl h d a b => Sys2Proof.Machine.execCraiselbl h d a b s
      | .cseal h d a b => Sys2Proof.Machine.execCseal h d a b s
      | .cunseal h d a b => Sys2Proof.Machine.execCunseal h d a b s
      | .cgate h d a => Sys2Proof.Machine.execCgate h d a s
      | .cstrip h d a => Sys2Proof.Machine.execCstrip h d a s
      | .cmov h d a => Sys2Proof.Machine.execCmov h d a s
      | .cwithin h d a b => Sys2Proof.Machine.execCwithin h d a b s
      | .cfitlen h d a => Sys2Proof.Machine.execCfitlen h d a s
      | .cfitmask h d a => Sys2Proof.Machine.execCfitmask h d a s
      | .cincaddri h d a imm => Sys2Proof.Machine.execCincaddri h d a imm s
      | .crvmark h a b => Sys2Proof.Machine.execCrvmark h a b s
      | .csweep h a => Sys2Proof.Machine.execCsweep h a s
      | .ldS8 h d a off => Sys2Proof.Machine.execLdS8 h d a off s
      | .ldZ8 h d a off => Sys2Proof.Machine.execLdZ8 h d a off s
      | .ldS16 h d a off => Sys2Proof.Machine.execLdS16 h d a off s
      | .ldZ16 h d a off => Sys2Proof.Machine.execLdZ16 h d a off s
      | .ldS32 h d a off => Sys2Proof.Machine.execLdS32 h d a off s
      | .ldZ32 h d a off => Sys2Proof.Machine.execLdZ32 h d a off s
      | .ldD h d a off => Sys2Proof.Machine.execLdD h d a off s
      | .stB h d a off => Sys2Proof.Machine.execStB h d a off s
      | .stH h d a off => Sys2Proof.Machine.execStH h d a off s
      | .stW h d a off => Sys2Proof.Machine.execStW h d a off s
      | .stD h d a off => Sys2Proof.Machine.execStD h d a off s
      | .ldc h d a off => Sys2Proof.Machine.execLdc h d a off s
      | .stc h d a off => Sys2Proof.Machine.execStc h d a off s
      | .ldv h d a off => Sys2Proof.Machine.execLdv h d a off s
      | .stv h d a off => Sys2Proof.Machine.execStv h d a off s
      | .lda h d a off typ ord scope => Sys2Proof.Machine.execLda h d a off typ ord scope s
      | .stl h d a off typ ord scope => Sys2Proof.Machine.execStl h d a off typ ord scope s
      | .ldvg h d a b off mk typ => Sys2Proof.Machine.execLdvg h d a b off mk typ s
      | .ldvgNf h d a b c off mk typ => Sys2Proof.Machine.execLdvgNf h d a b c off mk typ s
      | .stvs h d a b off mk typ => Sys2Proof.Machine.execStvs h d a b off mk typ s
      | .bsleep h g => Sys2Proof.Machine.execBsleep h g s
      | .bwake h g => Sys2Proof.Machine.execBwake h g s
      | .amoaddW h d a b off ord scope => Sys2Proof.Machine.execAmoaddW h d a b off ord scope s
      | .amoandW h d a b off ord scope => Sys2Proof.Machine.execAmoandW h d a b off ord scope s
      | .amoorW h d a b off ord scope => Sys2Proof.Machine.execAmoorW h d a b off ord scope s
      | .amoxorW h d a b off ord scope => Sys2Proof.Machine.execAmoxorW h d a b off ord scope s
      | .amominW h d a b off ord scope => Sys2Proof.Machine.execAmominW h d a b off ord scope s
      | .amomaxW h d a b off ord scope => Sys2Proof.Machine.execAmomaxW h d a b off ord scope s
      | .amominzW h d a b off ord scope => Sys2Proof.Machine.execAmominzW h d a b off ord scope s
      | .amomaxzW h d a b off ord scope => Sys2Proof.Machine.execAmomaxzW h d a b off ord scope s
      | .amoswapW h d a b off ord scope => Sys2Proof.Machine.execAmoswapW h d a b off ord scope s
      | .amocasW h d a b off ord scope => Sys2Proof.Machine.execAmocasW h d a b off ord scope s
      | .amoaddD h d a b off ord scope => Sys2Proof.Machine.execAmoaddD h d a b off ord scope s
      | .amoandD h d a b off ord scope => Sys2Proof.Machine.execAmoandD h d a b off ord scope s
      | .amoorD h d a b off ord scope => Sys2Proof.Machine.execAmoorD h d a b off ord scope s
      | .amoxorD h d a b off ord scope => Sys2Proof.Machine.execAmoxorD h d a b off ord scope s
      | .amominD h d a b off ord scope => Sys2Proof.Machine.execAmominD h d a b off ord scope s
      | .amomaxD h d a b off ord scope => Sys2Proof.Machine.execAmomaxD h d a b off ord scope s
      | .amominzD h d a b off ord scope => Sys2Proof.Machine.execAmominzD h d a b off ord scope s
      | .amomaxzD h d a b off ord scope => Sys2Proof.Machine.execAmomaxzD h d a b off ord scope s
      | .amoswapD h d a b off ord scope => Sys2Proof.Machine.execAmoswapD h d a b off ord scope s
      | .amocasD h d a b off ord scope => Sys2Proof.Machine.execAmocasD h d a b off ord scope s
      | .amocasc h d a b off ord scope => Sys2Proof.Machine.execAmocasc h d a b off ord scope s
      | .wfe h d a => Sys2Proof.Machine.execWfe h d a s
      | .sev h a b => Sys2Proof.Machine.execSev h a b s
      | .bara h a => Sys2Proof.Machine.execBara h a s
      | .barw h a => Sys2Proof.Machine.execBarw h a s
      | .semp h a => Sys2Proof.Machine.execSemp h a s
      | .semv h a => Sys2Proof.Machine.execSemv h a s
      | .fence h ord scope => Sys2Proof.Machine.execFence h ord scope s
      | .waitva h a b ord scope => Sys2Proof.Machine.execWaitva h a b ord scope s
      | .wakeva h a b ord scope => Sys2Proof.Machine.execWakeva h a b ord scope s
      | .mpost h a b ord scope => Sys2Proof.Machine.execMpost h a b ord scope s
      | .send h a b ord scope => Sys2Proof.Machine.execSend h a b ord scope s
      | .recv h d a ord scope => Sys2Proof.Machine.execRecv h d a ord scope s
      | .vadd h d a b mk typ => Sys2Proof.Machine.execVadd h d a b mk typ s
      | .vsub h d a b mk typ => Sys2Proof.Machine.execVsub h d a b mk typ s
      | .vmul h d a b mk typ => Sys2Proof.Machine.execVmul h d a b mk typ s
      | .vmad h d a b mk typ => Sys2Proof.Machine.execVmad h d a b mk typ s
      | .vmin h d a b mk typ => Sys2Proof.Machine.execVmin h d a b mk typ s
      | .vmax h d a b mk typ => Sys2Proof.Machine.execVmax h d a b mk typ s
      | .vand h d a b mk typ => Sys2Proof.Machine.execVand h d a b mk typ s
      | .vor h d a b mk typ => Sys2Proof.Machine.execVor h d a b mk typ s
      | .vxor h d a b mk typ => Sys2Proof.Machine.execVxor h d a b mk typ s
      | .vshl h d a b mk typ => Sys2Proof.Machine.execVshl h d a b mk typ s
      | .vshr h d a b mk typ => Sys2Proof.Machine.execVshr h d a b mk typ s
      | .vsar h d a b mk typ => Sys2Proof.Machine.execVsar h d a b mk typ s
      | .vabs h d a mk typ => Sys2Proof.Machine.execVabs h d a mk typ s
      | .vneg h d a mk typ => Sys2Proof.Machine.execVneg h d a mk typ s
      | .vlogt h d a b c table mk typ => Sys2Proof.Machine.execVlogt h d a b c table mk typ s
      | .vcmp h d a b cc mk typ => Sys2Proof.Machine.execVcmp h d a b cc mk typ s
      | .vsel h d a b mk typ => Sys2Proof.Machine.execVsel h d a b mk typ s
      | .vbcast h d a mk typ => Sys2Proof.Machine.execVbcast h d a mk typ s
      | .vext h d a b typ => Sys2Proof.Machine.execVext h d a b typ s
      | .vins h d a b typ => Sys2Proof.Machine.execVins h d a b typ s
      | .vperm h d a b mk typ => Sys2Proof.Machine.execVperm h d a b mk typ s
      | .vred h d a op mk typ => Sys2Proof.Machine.execVred h d a op mk typ s
      | .vfadd h d a b mk typ => Sys2Proof.Machine.execVfadd h d a b mk typ s
      | .vfsub h d a b mk typ => Sys2Proof.Machine.execVfsub h d a b mk typ s
      | .vfmul h d a b mk typ => Sys2Proof.Machine.execVfmul h d a b mk typ s
      | .vfma h d a b mk typ => Sys2Proof.Machine.execVfma h d a b mk typ s
      | .vfnma h d a b mk typ => Sys2Proof.Machine.execVfnma h d a b mk typ s
      | .vfmin h d a b mk typ => Sys2Proof.Machine.execVfmin h d a b mk typ s
      | .vfmax h d a b mk typ => Sys2Proof.Machine.execVfmax h d a b mk typ s
      | .vfdiv h d a b mk typ => Sys2Proof.Machine.execVfdiv h d a b mk typ s
      | .vfsqrt h d a mk typ => Sys2Proof.Machine.execVfsqrt h d a mk typ s
      | .vfrcp h d a mk typ => Sys2Proof.Machine.execVfrcp h d a mk typ s
      | .vfrsq h d a mk typ => Sys2Proof.Machine.execVfrsq h d a mk typ s
      | .vfexp2 h d a mk typ => Sys2Proof.Machine.execVfexp2 h d a mk typ s
      | .vflog2 h d a mk typ => Sys2Proof.Machine.execVflog2 h d a mk typ s
      | .vftanh h d a mk typ => Sys2Proof.Machine.execVftanh h d a mk typ s
      | .vcvt h d a st rm mk typ => Sys2Proof.Machine.execVcvt h d a st rm mk typ s
      | .vquant h d a typ => Sys2Proof.Machine.execVquant h d a typ s
      | .vdeq h d a typ => Sys2Proof.Machine.execVdeq h d a typ s
      | .xmax h d a typ => Sys2Proof.Machine.execXmax h d a typ s
      | .vbaddq h d a b typ => Sys2Proof.Machine.execVbaddq h d a b typ s
      | .mload h d a tb mac plane typ => Sys2Proof.Machine.execMload h d a tb mac plane typ s
      | .mswap h d tb mask => Sys2Proof.Machine.execMswap h d tb mask s
      | .mrun h d a b tb bound1 typ lit => Sys2Proof.Machine.execMrun h d a b tb bound1 typ lit s
      | .mdrain h d a b tb scope lit => Sys2Proof.Machine.execMdrain h d a b tb scope lit s
      | .mslot h a slot => Sys2Proof.Machine.execMslot h a slot s
      | .mstat h d fsel => Sys2Proof.Machine.execMstat h d fsel s
      | .cpy h d a b tb scope lit => Sys2Proof.Machine.execCpy h d a b tb scope lit s
      | .cpym h d a b tb mk scope lit => Sys2Proof.Machine.execCpym h d a b tb mk scope lit s
      | .conv h d a b tb typ scope lit => Sys2Proof.Machine.execConv h d a b tb typ scope lit s
      | .jwait h d a b tb slotm => Sys2Proof.Machine.execJwait h d a b tb slotm s
      | .jstat h d a tb slotm => Sys2Proof.Machine.execJstat h d a tb slotm s
      | .jcancel h d a => Sys2Proof.Machine.execJcancel h d a s
      | .gang h lg => Sys2Proof.Machine.execGang h lg s
      | .split h => Sys2Proof.Machine.execSplit h s
      | .mpair h => Sys2Proof.Machine.execMpair h s
      | .munpair h => Sys2Proof.Machine.execMunpair h s
      | .mchk h d => Sys2Proof.Machine.execMchk h d s
      | .qpush h d a b rsv => Sys2Proof.Machine.execQpush h d a b rsv s
      | .qpushWait h d a b => Sys2Proof.Machine.execQpushWait h d a b s
      | .qpop h d a => Sys2Proof.Machine.execQpop h d a s
      | .qpopg h d a => Sys2Proof.Machine.execQpopg h d a s
      | .qstat h d a => Sys2Proof.Machine.execQstat h d a s
      | .spawn h d b => Sys2Proof.Machine.execSpawn h d b s
      | .shape h d dim => Sys2Proof.Machine.execShape h d dim s
      | .kstat h d fsel => Sys2Proof.Machine.execKstat h d fsel s
      | .prpush h d a b => Sys2Proof.Machine.execPrpush h d a b s
      | .prpop h d a => Sys2Proof.Machine.execPrpop h d a s
      | .prclass h d a b => Sys2Proof.Machine.execPrclass h d a b s
      | .ptwr h d a b c item kind => Sys2Proof.Machine.execPtwr h d a b c item kind s
      | .ptrd h d a b item bank half => Sys2Proof.Machine.execPtrd h d a b item bank half s
      | .ptflip h a mask => Sys2Proof.Machine.execPtflip h a mask s
      | .tlbw h d a b => Sys2Proof.Machine.execTlbw h d a b s
      | .tlbi h a b ext => Sys2Proof.Machine.execTlbi h a b ext s
      | .frpop h d src => Sys2Proof.Machine.execFrpop h d src s
      | .cresume h d a kill => Sys2Proof.Machine.execCresume h d a kill s
      | .decl h a b => Sys2Proof.Machine.execDecl h a b s
      | .srd h d reg => Sys2Proof.Machine.execSrd h d reg s
      | .swr h a reg => Sys2Proof.Machine.execSwr h a reg s
      | .bkpt h => Sys2Proof.Machine.execBkpt h s
      | .halt h => Sys2Proof.Machine.execHalt h s
      | .illegalEncoding word => Sys2Proof.Machine.execIllegalEncoding word s
      | .packageReset ep stage hdr => Sys2Proof.Machine.execPackageReset ep stage hdr s
      | .ifetchLineMiss p line => Sys2Proof.Machine.execIfetchLineMiss p line s
      | .trapDelivery p => Sys2Proof.Machine.execTrapDelivery p s
      | .asyncCauseDelivery p => Sys2Proof.Machine.execAsyncCauseDelivery p s
      | .ptimerExpiry p => Sys2Proof.Machine.execPtimerExpiry p s
      | .extirq p => Sys2Proof.Machine.execExtirq p s
      | .lateWriteLand p id => Sys2Proof.Machine.execLateWriteLand p id s
      | .spillEngineMove p => Sys2Proof.Machine.execSpillEngineMove p s
      | .fpEventStop p => Sys2Proof.Machine.execFpEventStop p s
      | .fpReplyResume p sq => Sys2Proof.Machine.execFpReplyResume p sq s
      | .fpReplyConvert p sq cause => Sys2Proof.Machine.execFpReplyConvert p sq cause s
      | .portAccess p src => Sys2Proof.Machine.execPortAccess p src s
      | .storeAck p id => Sys2Proof.Machine.execStoreAck p id s
      | .accessRetry p => Sys2Proof.Machine.execAccessRetry p s
      | .groupWakeComplete p g => Sys2Proof.Machine.execGroupWakeComplete p g s
      | .xmaxContributionArrive p src => Sys2Proof.Machine.execXmaxContributionArrive p src s
      | .xmaxTimeout p => Sys2Proof.Machine.execXmaxTimeout p s
      | .matrixCardStart t e => Sys2Proof.Machine.execMatrixCardStart t e s
      | .mloadEnd t e n => Sys2Proof.Machine.execMloadEnd t e n s
      | .mrunEnd t e n => Sys2Proof.Machine.execMrunEnd t e n s
      | .mdrainEnd t e n => Sys2Proof.Machine.execMdrainEnd t e n s
      | .mrunWatchdog t e => Sys2Proof.Machine.execMrunWatchdog t e s
      | .matrixSlotBoundary t n => Sys2Proof.Machine.execMatrixSlotBoundary t n s
      | .noslotTimeout t e => Sys2Proof.Machine.execNoslotTimeout t e s
      | .cardStart t e => Sys2Proof.Machine.execCardStart t e s
      | .cardEnd t e n => Sys2Proof.Machine.execCardEnd t e n s
      | .tlbProbeResult t m => Sys2Proof.Machine.execTlbProbeResult t m s
      | .faultRecordPost t e => Sys2Proof.Machine.execFaultRecordPost t e s
      | .inboxMessageEnter p k => Sys2Proof.Machine.execInboxMessageEnter p k s
      | .eventSignalArrive p => Sys2Proof.Machine.execEventSignalArrive p s
      | .queueSegmentRefill n => Sys2Proof.Machine.execQueueSegmentRefill n s
      | .queueRingError n => Sys2Proof.Machine.execQueueRingError n s
      | .queueStateOn n cfg ringLo ringHi => Sys2Proof.Machine.execQueueStateOn n cfg ringLo ringHi s
      | .queueStateStop n cfg ringLo ringHi => Sys2Proof.Machine.execQueueStateStop n cfg ringLo ringHi s
      | .queueStateOff n cfg ringLo ringHi => Sys2Proof.Machine.execQueueStateOff n cfg ringLo ringHi s
      | .queueDoorbell n tail => Sys2Proof.Machine.execQueueDoorbell n tail s
      | .launchDispatch d => Sys2Proof.Machine.execLaunchDispatch d s
      | .teamPlacement k t => Sys2Proof.Machine.execTeamPlacement k t s
      | .parSliceExpiry t => Sys2Proof.Machine.execParSliceExpiry t s
      | .teamSwapOutComplete t => Sys2Proof.Machine.execTeamSwapOutComplete t s
      | .teamSwapInComplete t => Sys2Proof.Machine.execTeamSwapInComplete t s
      | .kernelCompletion k => Sys2Proof.Machine.execKernelCompletion k s
      | .kernelAbort k => Sys2Proof.Machine.execKernelAbort k s
      | .chainRecordEnter c => Sys2Proof.Machine.execChainRecordEnter c s
      | .chainRecordExit c => Sys2Proof.Machine.execChainRecordExit c s
      | .chainRecirculate c => Sys2Proof.Machine.execChainRecirculate c s
      | .bankFlip c => Sys2Proof.Machine.execBankFlip c s
      | .bankDrainComplete c item bank => Sys2Proof.Machine.execBankDrainComplete c item bank s
      | .gangFuse p => Sys2Proof.Machine.execGangFuse p s
      | .mirrorCopyComplete p => Sys2Proof.Machine.execMirrorCopyComplete p s
      | .mirrorIntervalEnd p => Sys2Proof.Machine.execMirrorIntervalEnd p s
      | .mirrorCompare p => Sys2Proof.Machine.execMirrorCompare p s
      | .sweepCoreCheck p => Sys2Proof.Machine.execSweepCoreCheck p s
      | .sweepCheckTimeout p => Sys2Proof.Machine.execSweepCheckTimeout p s
      | .sweepComplete part => Sys2Proof.Machine.execSweepComplete part s
      | .hbmScrub burst bad => Sys2Proof.Machine.execHbmScrub burst bad s
      | .pcDropRepair pc => Sys2Proof.Machine.execPcDropRepair pc s
      | .partitionTableWrite part entry => Sys2Proof.Machine.execPartitionTableWrite part entry s
      | .partitionStart part root => Sys2Proof.Machine.execPartitionStart part root s
      | .partitionStop part why => Sys2Proof.Machine.execPartitionStop part why s
      | .partitionStopComplete part => Sys2Proof.Machine.execPartitionStopComplete part s
      | .partitionResume part => Sys2Proof.Machine.execPartitionResume part s
      | .partitionRelease part enc key => Sys2Proof.Machine.execPartitionRelease part enc key s
      | .sharedSlotStart part => Sys2Proof.Machine.execSharedSlotStart part s
      | .coreEvict p => Sys2Proof.Machine.execCoreEvict p s
      | .coreRestore p => Sys2Proof.Machine.execCoreRestore p s
      | .fwImageStage image ctr sigOk => Sys2Proof.Machine.execFwImageStage image ctr sigOk s
      | .fwUpdateAck part => Sys2Proof.Machine.execFwUpdateAck part s
      | .fwUpdateWithdraw => Sys2Proof.Machine.execFwUpdateWithdraw s
      | .fwActivate => Sys2Proof.Machine.execFwActivate s
      | .attestEvidence part nonce => Sys2Proof.Machine.execAttestEvidence part nonce s
      | .secretUnwrap part layout wrapped => Sys2Proof.Machine.execSecretUnwrap part layout wrapped s
      | .keyHandleBind part k layout wrapped iv => Sys2Proof.Machine.execKeyHandleBind part k layout wrapped iv s
      | .apertureWrite part k lo hi => Sys2Proof.Machine.execApertureWrite part k lo hi s
      | .portTableWrite port off val => Sys2Proof.Machine.execPortTableWrite port off val s
      | .portYield port => Sys2Proof.Machine.execPortYield port s
      | .spareRemap part rank => Sys2Proof.Machine.execSpareRemap part rank s
      | .coreKill p rsn idx => Sys2Proof.Machine.execCoreKill p rsn idx s
      | .inboundWrite fn bar off data => Sys2Proof.Machine.execInboundWrite fn bar off data s
      | .inboundPieceSend fn id => Sys2Proof.Machine.execInboundPieceSend fn id s
      | .inboundPieceAck fn id => Sys2Proof.Machine.execInboundPieceAck fn id s
      | .hostRead fn bar off n => Sys2Proof.Machine.execHostRead fn bar off n s
      | .hostCoreDoorbell fn rank => Sys2Proof.Machine.execHostCoreDoorbell fn rank s
      | .registrationRegister fn => Sys2Proof.Machine.execRegistrationRegister fn s
      | .hostWaitRegister fn addr val line => Sys2Proof.Machine.execHostWaitRegister fn addr val line s
      | .registerWrite fn reg x y => Sys2Proof.Machine.execRegisterWrite fn reg x y s
      | .hostWarmRestart fn => Sys2Proof.Machine.execHostWarmRestart fn s
      | .blockEntrySend port => Sys2Proof.Machine.execBlockEntrySend port s
      | .blockPacketReceive port src data label => Sys2Proof.Machine.execBlockPacketReceive port src data label s
      | .blockLaneDeliver port lane => Sys2Proof.Machine.execBlockLaneDeliver port lane s
      | .migrationCut part => Sys2Proof.Machine.execMigrationCut part s
      | .cutMarkReceive port src => Sys2Proof.Machine.execCutMarkReceive port src s
      | .migrationRestore part peers => Sys2Proof.Machine.execMigrationRestore part peers s
      | .kustadLinkStateChange port link => Sys2Proof.Machine.execKustadLinkStateChange port link s

end Sys2Proof.Machine
end

