-- ==== Sys2Proof/Machine/Progress.lean ====
section
/-! DEFINITION. What goes on beside the cores while the turn passes: engines, dispatchers, chains, pairs, links
(notes/assumptions/4.md).  Each piece is an event of the opcode table whose condition holds. -/

namespace Sys2Proof.Machine

open Sys2Proof

/-- The cores that the state lists, the current one among them. -/
def State.someCores (s : State) : List Nat := s.core.phys :: s.others.map (fun e => e.1)

/-- What one core waits for, and what waits at its port (R66, R206, R210, R283, R288, R291, R313). -/
def State.coreGoesOn (s : State) (p : Nat) : State :=
  let c := s.coreAt p
  let s := s.drain p
  let s1 := if c.g1 = .waking then s.wakeGroup p 1 else s
  let s2 := if c.g2 = .waking then s1.wakeGroup p 2 else s1
  let s3 := if c.spillq.isEmpty then s2 else s2.runSpills p c.spillq.length
  let s4 := if c.awake then s3 else s3.onCore p Core.landReady
  if !c.owed.isEmpty then s4.payOwed p else
  match c.pair.pstate with
  | .copying => s4.mirrorCopied p
  | .comparing => s4.mirrorCompare p
  | _ => s4.gangFuse p

/-- Messages, contributions and signals that can enter (R197, R313, R324). -/
def State.flightsGoOn (s : State) : State :=
  let ds := (s.flights.map Flight.dst).eraseDups
  let s1 := State.xflightsGoOn (ds.foldl (fun u p => u.enterWaiting p u.flights.length) s)
  let ready := fun g : Signal => decide ((s1.coreAt g.dst).cstate ≠ .evicted) && !s1.away g.part g.dst
  (s1.signals.filter ready).foldl State.arrive { s1 with signals := s1.signals.filter (fun g => !ready g) }

/-- One card (R237, R260, R414, R421). -/
def State.cardGoesOn (s : State) (t e : Nat) : State :=
  match s.cardAt t e with
  | none => s
  | some k =>
    match k.ending with
    | some st => s.endCard t e k st
    | none =>
      if k.due.isSome then s.postFault t e
      else
        match k.state with
        | .waiting => if k.kind.isMatrix then s.startMatrix t e else s.startCopy t e
        | .running => if k.kind.isMatrix then s.matrixLine t e else s.cardLine t e
        | _ => s

/-- One tile: its miss slots, its cards, its slot clock while a matrix card waits for its slot (R240, R252, R415). -/
def State.tileGoesOn (s : State) (t : Nat) : State :=
  let x := s.tileAt t
  let s1 := x.misses.foldl (fun u m => u.probe t m.1) s
  let s2 := x.cards.foldl (fun u e => u.cardGoesOn t e.1) s1
  let y := s2.tileAt t
  if y.cards.any (fun e => e.2.kind.isMatrix && decide (e.2.state = .waiting) && !y.slotOpen e.2.owner) ∧ y.overrunner.isNone then
    y.cards.foldl (fun u e => u.noslotCard t e.1) (s2.onTile t (fun z => z.nextSlot.starveBy (1024 - y.slotClock % 1024)))
  else s2

/-- One kernel: teams placed and swapped, completion, an abort (R363, R367, R375, R376). -/
def State.kernelGoesOn (s : State) (n : Nat) : State :=
  match s.kernels.listed n with
  | none => s
  | some k =>
    let tile := fun (u : State) (t : Nat) => (((u.placeTeam n t).sliceExpiry t).swappedOut t).swappedIn t
    let s1 := k.tiles.foldl tile s
    if k.abort then s1.finishAbort n else s1.completeKernel n

/-- One chain (R384, R399). -/
def State.chainGoesOn (s : State) (n : Nat) : State := ((s.onChain n Chain.enter).chainExit n).bankFlip n

/-- One partition (R338, R436, R437). -/
def State.partGoesOn (s : State) (i : Nat) : State :=
  let s1 := match (s.parts.listed i).map Part.st with
    | some .stopping => State.stopDone ((s.coresOf i).foldl State.evict s) i
    | some .run => s.slotStart i
    | _ => s
  if (s1.sweeps.listed i).isSome then
    State.sweepDone ((s1.coresOf i).foldl (fun u p => if (u.coreAt p).stalled || !(u.coreAt p).awake then u.sweepCheck p else u) s1) i
  else s1

/-- One port (R460, R461, R464). -/
def State.portGoesOn (s : State) (n : Nat) : State := (List.range 4).foldl (fun u g => u.deliverLane n g) ((s.yieldOn n).sendBlock n)

/-- Pushes that no ready set took, or whose record could not be reached, tried again (R347, R348). -/
def State.pushesGoOn (s : State) : State :=
  if s.heldq.isEmpty then s else ((s.heldq.map (fun h => h.record.part)).eraseDups).foldl State.readyChanged s

/-- Everything once, in a fixed order. -/
def State.progress (s : State) : State :=
  let each := fun {β : Type} (m : SMap β) (f : State → Nat → State) (u : State) => (m.map (fun e => e.1)).foldl f u
  let s0 := State.drainBufs (State.flightsGoOn (s.someCores.foldl State.coreGoesOn s))
  let s2 := each s0.tiles State.tileGoesOn s0
  let s3 := if s2.queues.isEmpty && s2.dies.isEmpty then s2 else (List.range 8).foldl State.dispatch s2
  let s4 := each s3.kernels State.kernelGoesOn s3
  let s5 := each s4.chains State.chainGoesOn s4
  let s6 := each s5.parts State.partGoesOn s5
  let s7 := each s6.ports State.portGoesOn s6
  let s8 := s7.runPieces.sendPieces s7.inbound.length
  let s9 := s8.repairOn
  if s9.fw.activating then s9.activate else s9

/-- The turn passes on; unless everything waits for its events, the rest of the package goes on meanwhile.  Teams that have halted are
DONE and the control blocks show their kernels (R280, R364). -/
def State.passTurn (s : State) : State := (State.showKernels (State.haltedTeams (State.pushesGoOn (if s.hold then s else s.progress)))).rotate

end Sys2Proof.Machine
end

