-- ==== Sys2Proof/Machine/Step.lean ====
section
/-! DEFINITION. One step of the package: what the agenda says, or else the current core's turn. -/

namespace Sys2Proof.Machine

open Sys2Proof

/-- Steps after which the turn passes on even from a core that could go on (notes/assumptions/4.md). -/
def turnLength : Nat := 64

/-- The current core's turn: it passes on when the core does not issue, has waited, or has had its share; a boundary may have
something to deliver; else the instruction at the PC is executed. -/
def coreStep (s : State) : Host.Outcome State Fault Refusal :=
  if !s.core.issues || s.core.stalled || decide (s.clock % turnLength = 0) then
    .next (State.passTurn (s.mapCore (fun c => { c with stalled := false })))
  else
    let t := s.tickTurn
    match t.boundary with
    | some u => .next u
    | none =>
      match t.prepare with
      | .stop u => .next u
      | .go i u => exec i u

/-- One step (notes/assumptions/4.md): the clock advances; then the first entry of the agenda happens, or the current core
has its turn. -/
def step (s : State) : Host.Outcome State Fault Refusal :=
  let t := { s with clock := s.clock + 1 }
  match t.agenda with
  | .event i :: rest => exec i { t with agenda := rest }
  | .core p :: rest => .next (State.focus { t with agenda := rest } p)
  | [] => coreStep t

/-- The bytes of an instruction given as the table gives it, the bits above `nbits` zero. -/
def tableBytes (nbits w : Nat) : List (BitVec 8) := (tableWords nbits w).flatMap bytesOfWord

/-- The state with that instruction where step fetches its next one: in the current core's own local store, with the
core's PCC over it and nothing before it. -/
def State.withFetchWord (s : State) (nbits w : Nat) : State :=
  { s with mem := s.mem.putList (fun _ => 0) (lsBase s.core.phys + (s.core.pc.toNat - selfWindow)) (tableBytes nbits w) }

end Sys2Proof.Machine
end

