-- ==== Sys2Proof/Safety.lean ====
section
/-! DEFINITION. Runs of the package, what a safe step and a safe run are, and the terms that statements about one
instruction are made in: when it issues alone, and what its result leaves as it was. -/

namespace Sys2Proof

open Sys2Proof.Machine

/-- A step from one state to the next. -/
def Steps (s t : State) : Prop := step s = .next t

/-- A step ends in a next state: it neither faults nor meets an instruction without a meaning. -/
def SafeStep (s : State) : Prop := ∃ t, Steps s t

/-- `t` is reached from `s` by `n` steps. -/
def Reaches (s : State) : Nat → State → Prop
  | 0, t => t = s
  | n + 1, t => ∃ u, Steps s u ∧ Reaches u n t

/-- A run of `n` steps from `s` stops nowhere. -/
def SafeRun (s : State) (n : Nat) : Prop := ∃ t, Reaches s n t

/-- Memory, line labels and granule tags stand in their canonical form. -/
def MemoryWf (s : State) : Prop := Memory.wf s.mem = true ∧ SMap.wf (fun _ => (0 : Label)) s.labels = true ∧ SMap.wf (fun _ => false) s.tags = true

/-- The current core issues for itself alone: it leads no gang, and no interval of a mirror pair is open on it. -/
def Alone (s : State) : Prop := s.core.gang.fused = false ∧ s.core.interval = none

/-- An instruction may issue: the core issues alone and no check of R52 on its mode and names fails. -/
def MayIssue (i : Instr) (s : State) : Prop := Alone s ∧ nameTrap i s.core = none

/-- `exec` of the instruction answers a next state, of which `P` holds. -/
def Completes (i : Instr) (s : State) (P : State → Prop) : Prop := ∃ t, exec i s = .next t ∧ P t

/-- The PC and the repetition stand after an instruction that has completed (R34, R170), and nothing outside the core and
no register but the register store, the operand file, q and the late writes has changed. -/
structure OnlyResults (i : Instr) (s t : State) : Prop where
  outside : t = { s with core := t.core }
  frame : t.core = { s.core with
    regs := t.core.regs, tags := t.core.tags, opf := t.core.opf, q := t.core.q, pending := t.core.pending,
    pc := (s.core.after (instrBytes i)).1, rep := (s.core.after (instrBytes i)).2, resume := none, stalled := false,
    waiting := none, woken := false }

/-- The register-store entry that a scalar name writes, if it writes one (R30). -/
def wordEntry (c : Core) : Name → Option Nat
  | .w n => some (c.lb + n)
  | .st => some c.lo
  | _ => none

/-- Whether a scalar name has a place for a result; `zr` discards it and a reserved code has none. -/
def writable : Name → Bool
  | .o i => decide (i < 8)
  | .zr => false
  | .rsv _ => false
  | _ => true

/-- A scalar result stands in its place with its label (R30, R58, R61), and no other register has changed; `withQ` says
that q takes the same value (R149). -/
structure WordWritten (d : Name) (v : LVal) (withQ : Bool) (c c' : Core) : Prop where
  value : writable d = true → c'.rd d = if d = .st then ⟨stMask v.v, v.l⟩ else v
  entries : ∀ e, wordEntry c d ≠ some e → c'.ent e = c.ent e
  pairs : ∀ e, c'.tagAt e = if ∃ x, wordEntry c d = some x ∧ x / 2 = e / 2 then false else c.tagAt e
  operands : ∀ i, d ≠ .o i → c'.rd (.o i) = c.rd (.o i)
  quotient : c'.q = if d = .q ∨ (withQ = true ∧ d ≠ .zr) then v else c.q
  zero : c'.rd .zr = ⟨0, 0⟩

/-- A scalar instruction completes with a result (R149). -/
structure WordDone (i : Instr) (d : Name) (v : LVal) (s t : State) : Prop where
  only : OnlyResults i s t
  written : WordWritten d v true s.core t.core
  late : s.core.pending = [] → t.core.pending = []

/-- A late write has been issued (R48): no register shows it yet, and it waits among the late writes. -/
structure LateCore (i : Instr) (c c' : Core) : Prop where
  frame : c' = { c with
    pending := c'.pending, nextId := c.nextId + 1, pc := (c.after (instrBytes i)).1, rep := (c.after (instrBytes i)).2,
    resume := none, stalled := false, waiting := none, woken := false }
  one : c'.pending.length = c.pending.length + 1

/-- The same, by an instruction that changes nothing outside its core. -/
structure LateIssued (i : Instr) (s t : State) : Prop where
  outside : t = { s with core := t.core }
  core : LateCore i s.core t.core

/-- A scalar instruction completes with a late result (R48, R152): where no other late write waits, it stands in its place
once it has landed; `withQ` says that q takes it too. -/
structure WordLate (i : Instr) (d : Name) (v : LVal) (withQ : Bool) (s t : State) : Prop where
  issued : LateIssued i s t
  landed : s.core.pending = [] → WordWritten d v withQ s.core t.core.landReady ∧ t.core.landReady.pending = []

/-- A branch or jump completes (R149, R167): it changes the PC and nothing else. -/
structure Jumped (i : Instr) (taken : Bool) (target : Word) (s t : State) : Prop where
  outside : t = { s with core := t.core }
  frame : t.core = { s.core with
    pc := if taken then target else (s.core.after (instrBytes i)).1,
    rep := if taken then none else (s.core.after (instrBytes i)).2, resume := none, stalled := false, waiting := none,
    woken := false }

/-- An instruction of one, two or three scalar operands gives a function of their values and takes their highest label. -/
def Computes1 (mk : Name → Name → Instr) (f : Word → Word → Prop) : Prop :=
  ∀ d a s, MayIssue (mk d a) s → ∃ v, f (s.core.rd a).v v ∧
    Completes (mk d a) s (WordDone (mk d a) d ⟨v, (s.core.rd a).l⟩ s)

def Computes2 (mk : Name → Name → Name → Instr) (f : Word → Word → Word) : Prop :=
  ∀ d a b s, MayIssue (mk d a b) s → Completes (mk d a b) s (WordDone (mk d a b) d
    ⟨f (s.core.rd a).v (s.core.rd b).v, Label.max (s.core.rd a).l (s.core.rd b).l⟩ s)

def Computes3 (mk : Name → Name → Name → Name → Instr) (f : Word → Word → Word → Word → Prop) : Prop :=
  ∀ d a b c s, MayIssue (mk d a b c) s → ∃ v, f (s.core.rd a).v (s.core.rd b).v (s.core.rd c).v v ∧
    Completes (mk d a b c) s (WordDone (mk d a b c) d
      ⟨v, Label.max (Label.max (s.core.rd a).l (s.core.rd b).l) (s.core.rd c).l⟩ s)

/-- A division completes with a late result that goes to q as well. -/
def Divides (mk : Name → Name → Name → Instr) (f : Word → Word → Word) : Prop :=
  ∀ d a b s, MayIssue (mk d a b) s → Completes (mk d a b) s (WordLate (mk d a b) d
    ⟨f (s.core.rd a).v (s.core.rd b).v, Label.max (s.core.rd a).l (s.core.rd b).l⟩ true s)

/-- A branch on two operands takes its target where its condition holds. -/
def Branches2 (mk : Name → Name → Int → Instr) (cond : Word → Word → Prop) : Prop :=
  ∀ a b disp s, MayIssue (mk a b disp) s → ∃ taken : Bool, (taken = true ↔ cond (s.core.rd a).v (s.core.rd b).v) ∧
    Completes (mk a b disp) s (Jumped (mk a b disp) taken (s.core.pc + BitVec.ofInt 64 disp) s)

/-- A scalar instruction completes with a result that q does not take. -/
structure WordPut (i : Instr) (d : Name) (v : LVal) (s t : State) : Prop where
  only : OnlyResults i s t
  written : WordWritten d v false s.core t.core
  late : s.core.pending = [] → t.core.pending = []

/-- An instruction completes and changes nothing but the PC and the repetition. -/
def Passed (i : Instr) (s t : State) : Prop := Jumped i false 0 s t

/-- A capability stands in the pair of a c name, with both labels (R58, R86), and no other register has changed. -/
structure CapWritten (d : Name) (k : Cap) (l : Label) (c c' : Core) : Prop where
  value : c'.rdCap d = k
  lower : (c'.ent (c.physOf d)).l = l
  upper : (c'.ent (c.physOf d + 1)).l = l
  entries : ∀ e, e ≠ c.physOf d → e ≠ c.physOf d + 1 → c'.ent e = c.ent e
  pairs : ∀ e, e / 2 ≠ c.physOf d / 2 → c'.tagAt e = c.tagAt e
  operands : c'.opf = c.opf
  quotient : c'.q = c.q

/-- An instruction completes with a capability as its result. -/
structure CapDone (i : Instr) (d : Name) (k : Cap) (l : Label) (s t : State) : Prop where
  only : OnlyResults i s t
  written : CapWritten d k l s.core t.core
  late : s.core.pending = [] → t.core.pending = []

/-- The checks of an instruction in their order, each with its cause and its value: the first that holds raises its cause
with sy.epcc at the instruction (R70), and where none holds the instruction completes as `P` says. -/
def Checked (i : Instr) (s : State) (P : State → Prop) : List (Prop × Cause × Word) → Prop
  | [] => Completes i s P
  | (fails, k, v) :: rest => (fails → exec i s = .next (s.raise k v)) ∧ (¬ fails → Checked i s P rest)

/-- The traps of the same list alone. -/
def TrapsBy (i : Instr) (s : State) : List (Prop × Cause × Word) → Prop
  | [] => True
  | (fails, k, v) :: rest => (fails → exec i s = .next (s.raise k v)) ∧ (¬ fails → TrapsBy i s rest)

/-- The label of a capability result (R107 to R116): the highest entry label of what it reads. -/
def capLabels (c : Core) (caps scalars : List Name) : Label :=
  (caps.map c.capLabel ++ scalars.map (fun n => (c.rd n).l)).foldl Label.max 0

/-- A tagged capability that is sealed (R108, R110, R111). -/
def Sealed (k : Cap) : Prop := k.tag = true ∧ k.otype ≠ 0

/-- The capability with its address moved (R108). -/
def Moved (k k' : Cap) (n : Int) : Prop :=
  k' = { k with addr := BitVec.ofInt 64 n, tag := k'.tag } ∧
  (k'.tag = true ↔ k.tag = true ∧ 0 ≤ n ∧ n < 2 ^ 64 ∧ k.regionBase ≤ n ∧ n < k.regionBase + 2 ^ k.e.toNat * 2 ^ 18)

/-- The least exponent of R109 and R117 for bounds [lo, hi). -/
def LeastExp (lo hi e : Nat) : Prop :=
  e ≤ 47 ∧ (∀ x, x < e → 0x2FFFF < (hi + (2 ^ x - 1)) / 2 ^ x - lo / 2 ^ x) ∧
  (e < 47 → (hi + (2 ^ e - 1)) / 2 ^ e - lo / 2 ^ e ≤ 0x2FFFF)

/-- A core that stands after the instruction it has issued: at the next one (R34), or at the next repetition (R170). -/
def wentOn (i : Instr) (c x : Core) : Core :=
  { x with pc := (c.after (instrBytes i)).1, rep := (c.after (instrBytes i)).2, resume := none, stalled := false,
           waiting := none, woken := false }

/-- A core that goes on at another PC. -/
def jumpedTo (pc : Word) (x : Core) : Core :=
  { x with pc := pc, rep := none, resume := none, stalled := false, waiting := none, woken := false }

/-- Nothing that the core has issued is outstanding, no acquire of its waits for card writes, and a trap handler is set (R50, R69,
R483). -/
def TakesTraps (s : State) : Prop :=
  s.core.pending = [] ∧ s.core.unacked = [] ∧ (∀ d, s.core.drain = some d → d.2 = 0) ∧ s.core.hlens.tag = true ∧
    s.core.hpcc.tag = true

/-- The repetitions that a trap saves (R173, R174): those that are not complete, of the RPT in progress or of one that ERET has
resumed. -/
def leftOver (c : Core) : Option Nat :=
  match c.rep, c.resume with
  | some r, _ => some (r.n - r.i)
  | none, x => x

/-- The S handler entered with a cause (R69, R70, R173): what is saved, what is switched, the core's place at what it waits for given
up (R57), and all the rest as it was. -/
def Entered (cause : BitVec 8) (tval epc : Word) (s t : State) : Prop :=
  ∃ (saved : Cap) (val : Word),
    (s.core.pcc.tag = false ∨ s.core.pcc.inRegion epc.toNat = true → saved = { s.core.pcc with addr := epc } ∧ val = tval) ∧
    (s.core.pcc.tag = true ∧ s.core.pcc.inRegion epc.toNat = false →
      saved = { s.core.pcc with addr := BitVec.ofInt 64 s.core.pcc.base } ∧ val = epc) ∧
    t = { s.unwait s.core.phys with core := { s.core with
      elens := s.core.lens, epcc := saved, cause := cause, tval := val, prevMode := s.core.mode,
      mode := if s.core.mode = .f then .f else .s, lens := s.core.hlens, pcc := s.core.hpcc, pc := s.core.hpcc.addr,
      rptValid := (leftOver s.core).isSome, rptRemain := (leftOver s.core).getD 0, rep := none, resume := none,
      ibuf := [], trapDue := none, stalled := false, waiting := none, woken := false,
      interval := s.core.interval.map (fun v => { v with entries := v.entries + 1 }) } }

/-- A late write or a move of the spill engine touches an entry of [lo, top), or a spill of one whose stores are not acknowledged
(R66, R68, R77). -/
def RegionBusy (c : Core) (lo top : Nat) : Prop := ∃ e, lo ≤ e ∧ e < top ∧
  ((∃ p ∈ c.pending, (∃ w ∈ p.writes, e ∈ w.tgt.entries) ∨ (p.flags ≠ 0 ∧ p.flagsLo = e)) ∨ (∃ r ∈ c.spillq, r.holds e = true) ∨
    ∃ u ∈ c.unacked, ∃ r, u.spill = some r ∧ r.src ≤ e ∧ e < r.src + r.n)

/-- A tagged capability that a capability without CAPWR, or without TETHER where ROAM is lacking, may not write (R96). -/
def Unwritable (m k : Cap) : Prop :=
  k.tag = true ∧ (m.perm.getLsbD 8 = false ∨ (k.perm.getLsbD 9 = false ∧ m.perm.getLsbD 10 = false))

/-- [x, x + n) does not lie in [lo, top), and the first address of it outside (R84). -/
def Outside (lo top : Int) (x n : Nat) : Prop := (x : Int) < lo ∨ top ≤ x ∨ top < (x : Int) + n
def firstOutside (lo top : Int) (x : Nat) : Word :=
  if (x : Int) < lo ∨ top ≤ x then BitVec.ofNat 64 x else BitVec.ofInt 64 top

/-- The places of late writes that belong to the core and not to the context (R62, R63). -/
def ofCore : Tgt → Bool
  | .q => true
  | .o i => decide (i < 8)
  | _ => false

/-- The checks of R95 for an access of `size` bytes at `x` through a capability, and the window checks of R10. -/
def accessChecks (s : State) (n : Name) (k : Cap) (perm : Prop) (align size : Nat) (x : Word) (lab : Option Label) :
    List (Prop × Cause × Word) :=
  [(k.tag = false, .tag, nameVal n), (s.revoked s.core k = true, .revoked, nameVal n), (k.otype ≠ 0, .seal, nameVal n),
    (¬ perm, .perm, nameVal n), (x.toNat % align ≠ 0, .align, nameVal n),
    ((x.toNat : Int) < k.base ∨ k.top < (x.toNat : Int) + size, .bounds, x), (∃ l, lab = some l ∧ k.label < l, .label, x),
    (s.reach s.core x size = none, .bounds, x)]

/-- No earlier acquire holds the core's accesses (R220). -/
def NoAcquire (c : Core) : Prop := (∀ p ∈ c.pending, p.acq = false) ∧ ∀ u ∈ c.unacked, u.bar = false

/-- Results that a rolled-back interval had of effects made once do not wait for the core (R322). -/
abbrev NoReplay (c : Core) : Prop := c.replay = []

/-- An acquire at a scope waits for no card writes: the scope is narrower than clus, or the cluster's inbound card buffer is empty
(R483). -/
def NoBuffered (s : State) (scope : Scope) : Prop := isWide scope = false ∨ s.bufAt (bufKey s.core.phys) = []

/-- The port that an access of `n` bytes at `x` reaches takes it at once (R206, R211, R436, R471), accesses do not wait for their
events, and no buffered write for that store is one that the core has to see before it (R334). -/
def PortOpen (s : State) (x : Word) (n : Nat) : Prop := s.hold = false ∧ ∀ o off, s.reach s.core x n = some (o, off) →
  s.away s.core.part o = false ∧ (s.coreAt o).cstate ≠ .killed ∧ (s.coreAt o).portq = [] ∧
  (s.coreAt o).blocks s.core.phys off n = false ∧ ∀ w ∈ s.bufAt (bufKey o), w.store = o → s.farSeen s.core.phys w = false

/-- A read or write of `n` bytes that an instruction makes at a port at once: the port takes it, the instruction holds no place in the
port's order from an earlier issue, and the port's core is not killed (R206, R211, R471). -/
def PortFree (s : State) (o off n : Nat) : Prop :=
  s.portClear o off n = true ∧ (∀ a ∈ (s.coreAt o).portq, a.src ≠ atSrc s.core.phys) ∧ (s.coreAt o).cstate ≠ .killed

/-- The core's instruction has met a port that cannot take its access of `n` bytes yet: it takes its place there and waits (R57, R206,
R211). -/
def WaitsAt (i : Instr) (s : State) (o off n : Nat) : Prop :=
  exec i s = .next ((s.portWait o off n).mapCore (fun c => { c with stalled := true }))

/-- A write of a partition's dispatcher that its address `x` leads to the physical address `a` changes nothing but the bytes that it
names: its entry allows it, no page has to be logged first, and the place is no killed core's and has no copy (R289, R411, R422,
R471). -/
def DispPlain (s : State) (part x a : Nat) : Prop :=
  s.dispWrites part x = true ∧ (2 ^ 47 ≤ x ∨ ∀ t e, s.dispEntry part x = some (t, e) → teDirty e = true) ∧
    ∀ o, storeOf a = some o → (s.coreAt o).cstate ≠ .killed ∧ (s.coreAt o).paired = false

/-- A write there is that of one copy, without a trace entry (R209, R289), and the core's earlier accesses keep waiting for
their acknowledgements (R207). -/
def PlainWrite (s : State) (x : Word) (n : Nat) : Prop :=
  (∀ u ∈ s.core.unacked, 0 < u.left ∧ u.id < s.core.nextId) ∧ ∀ o off, s.reach s.core x n = some (o, off) →
    (s.coreAt o).paired = false ∧ s.traceLen o = 0 ∧ (off + n ≤ traceOff ∨ traceOff + 4 ≤ off)

/-- `n` bytes stored at a physical address with a label (R92, R202): the bytes, the labels of their lines raised, the tags
of their granules, and everything else as it was. -/
structure Stored (a n : Nat) (value : Nat → Byte) (l : Label) (tag : Bool) (s t : State) : Prop where
  bytes : ∀ y, y < n → t.byteAt (a + y) = value y
  others : ∀ y, y < a ∨ a + n ≤ y → t.byteAt y = s.byteAt y
  labels : ∀ y z, y < n → z / 64 = (a + y) / 64 → t.labelAt z = Label.max (s.labelAt z) l
  otherLabels : ∀ z, (∀ y, y < n → z / 64 ≠ (a + y) / 64) → t.labelAt z = s.labelAt z
  granules : ∀ y z, y < n → z / 16 = (a + y) / 16 → t.memTagAt z = tag
  otherGranules : ∀ z, (∀ y, y < n → z / 16 ≠ (a + y) / 16) → t.memTagAt z = s.memTagAt z

/-- A state with another core and another memory, with its line labels and tags, and otherwise as it was. -/
def withMemory (s t : State) (c : Core) : State := { s with core := c, mem := t.mem, labels := t.labels, tags := t.tags }

/-- The byte of a word, little-endian. -/
def byteOf (v : Word) (y : Nat) : Byte := v.extractLsb' (8 * y) 8

/-- A store completes: the bytes stand at the place that the address reaches, and the core has changed in nothing but the
PC, the repetition and the number of its next access. -/
def StoreDone (i : Instr) (x : Word) (n : Nat) (value : Nat → Byte) (l : Label) (tag : Bool) (s t : State) : Prop :=
  ∃ o off, s.reach s.core x n = some (o, off) ∧ Stored (lsBase o + off) n value l tag s t ∧
    t = withMemory s t (wentOn i s.core { s.core with nextId := s.core.nextId + 1 })

/-- A vector stands in the four entries of a v name (R58, R176), and no other register has changed. -/
structure VecWritten (d : Name) (vs : Nat → LVal) (c c' : Core) : Prop where
  value : ∀ i, i < 4 → c'.ent (c.physOf d + i) = vs i
  entries : ∀ e, e < c.physOf d ∨ c.physOf d + 4 ≤ e → c'.ent e = c.ent e
  pairs : ∀ e, c'.tagAt e = if c.physOf d / 2 ≤ e / 2 ∧ e / 2 ≤ (c.physOf d + 3) / 2 then false else c.tagAt e
  operands : c'.opf = c.opf
  quotient : c'.q = c.q

/-- The value that a load of `n` bytes gives (R215). -/
def loaded (signed : Bool) (n m : Nat) : Word :=
  if signed then (BitVec.ofNat (8 * n) m).signExtend 64 else BitVec.ofNat 64 m

/-- A load of `n` bytes gives their value late, with the highest label of their lines (R215). -/
def Loads (i : Instr) (d : Name) (x : Word) (n : Nat) (signed : Bool) (s t : State) : Prop :=
  ∃ o off, s.reach s.core x n = some (o, off) ∧
    WordLate i d ⟨loaded signed n (s.numAt (lsBase o + off) n), s.labelOver (lsBase o + off) n⟩ false s t

/-- The address of an access (R215). -/
def addrOf (s : State) (a : Name) (off : Int) : Word := (s.core.rdCap a).addr + BitVec.ofInt 64 off

/-- LD with its size and extension. -/
def LoadForm (mk : Name → Name → Int → Instr) (n : Nat) (signed : Bool) : Prop := ∀ d a off s, MayIssue (mk d a off) s →
  NoAcquire s.core → PortOpen s (addrOf s a off) n →
  Checked (mk d a off) s (Loads (mk d a off) d (addrOf s a off) n signed s)
    (accessChecks s a (s.core.rdCap a) ((s.core.rdCap a).perm.getLsbD 0 = true) 1 n (addrOf s a off) none)

/-- ST with its size. -/
def StoreForm (mk : Name → Name → Int → Instr) (n : Nat) : Prop := ∀ d a off s, MayIssue (mk d a off) s →
  NoAcquire s.core → PortOpen s (addrOf s a off) n → PlainWrite s (addrOf s a off) n →
  Checked (mk d a off) s
    (StoreDone (mk d a off) (addrOf s a off) n (byteOf (s.core.rd d).v) (s.core.rd d).l false s)
    (accessChecks s a (s.core.rdCap a) ((s.core.rdCap a).perm.getLsbD 1 = true) 1 n (addrOf s a off) (some (s.core.rd d).l))

/-- An atomic with its size and its new value (R222): the old value goes to d late, with the label that the line had. -/
def AtomicForm (mk : Name → Name → Name → Int → Ord → Scope → Instr) (n : Nat) (swap zero : Bool)
    (new : Nat → Nat → Nat → Nat) : Prop :=
  ∀ d a b off ord scope s, MayIssue (mk d a b off ord scope) s → NoAcquire s.core →
  PortOpen s (addrOf s a off) n → PlainWrite s (addrOf s a off) n →
  ((ord = .rel ∨ ord = .ar ∨ ord = .sc) → s.core.unacked = []) → NoReplay s.core →
  ((ord = .acq ∨ ord = .ar ∨ ord = .sc) → NoBuffered s scope) →
  let i := mk d a b off ord scope
  let x := addrOf s a off
  let lab := if swap then Label.max (s.core.rd b).l (s.core.rd d).l else (s.core.rd b).l
  Checked i s (fun t => ∃ o p, s.reach s.core x n = some (o, p) ∧
      let old := s.numAt (lsBase o + p) n
      let v := new old ((s.core.rd b).v.toNat % 256 ^ n) ((s.core.rd d).v.toNat % 256 ^ n)
      Stored (lsBase o + p) n (fun y => BitVec.ofNat 8 (v / 256 ^ y)) lab false s t ∧
      t = withMemory s t t.core ∧
      LateCore i s.core t.core ∧ ((ord = .acq ∨ ord = .ar ∨ ord = .sc) → ∃ p ∈ t.core.pending, p.acq = true) ∧
      (s.core.pending = [] → WordWritten d ⟨loaded (!zero) n old, s.labelAt (lsBase o + p)⟩ false s.core t.core.landReady ∧
        t.core.landReady.pending = []))
    (accessChecks s a (s.core.rdCap a)
      ((s.core.rdCap a).perm.getLsbD 0 = true ∧ (s.core.rdCap a).perm.getLsbD 1 = true) n n x (some lab))

/-- `l` is the highest label among those of which `P` holds, 0 with none. -/
def Highest (P : Label → Prop) (l : Label) : Prop := (∀ x, P x → x ≤ l) ∧ (l = 0 ∨ P l)

/-- The lanes of a vector of eight 32-bit elements (R176). -/
def laneOf (c : Core) (v : Name) (i : Nat) : BitVec 32 := (c.ent (c.physOf v + i / 2)).v.extractLsb' (32 * (i % 2)) 32

/-- A gather or scatter (R218): its active lanes, their addresses, and the lanes that fault, by alignment or otherwise. -/
def LaneActive (s : State) (mk i : Nat) : Prop := i < 8 ∧ (mk = 0 ∨ (s.core.rd (.o mk)).v.getLsbD i = true)
def laneAddr (s : State) (a b : Name) (off : Int) (i : Nat) : Word := addrOf s a off + (laneOf s.core b i).signExtend 64
def LaneOut (s : State) (a b : Name) (off : Int) (i : Nat) : Prop :=
  let x := laneAddr s a b off i
  ((x.toNat : Int) < (s.core.rdCap a).base ∨ (s.core.rdCap a).top < (x.toNat : Int) + 4) ∨ s.reach s.core x 4 = none
def LaneFaults (s : State) (a b : Name) (off : Int) (mk i : Nat) : Prop :=
  LaneActive s mk i ∧ ((laneAddr s a b off i).toNat % 4 ≠ 0 ∨ LaneOut s a b off i)

/-- The lanes that a gather performs. -/
def LanePerformed (s : State) (a b : Name) (off : Int) (mk i : Nat) : Prop :=
  LaneActive s mk i ∧ ¬ LaneFaults s a b off mk i

/-- The physical address of a lane that does not fault. -/
def LaneAt (s : State) (a b : Name) (off : Int) (i p : Nat) : Prop :=
  ∃ o q, s.reach s.core (laneAddr s a b off i) 4 = some (o, q) ∧ p = lsBase o + q

/-- sy.tval of a gather or scatter with faulting lanes (R218). -/
def LaneValue (s : State) (a b : Name) (off : Int) (mk : Nat) (v : Word) : Prop :=
  (∀ i, i < 8 → (v.getLsbD i = true ↔ LaneFaults s a b off mk i)) ∧
  (∀ i, i < 8 → (v.getLsbD (8 + i) = true ↔ LaneFaults s a b off mk i ∧ ¬ LaneOut s a b off i)) ∧
  v.toNat < 65536

/-- The register that LDVG writes (R218, R219): performed lanes from memory, the others as they were, one label. -/
def GatheredInto (d a b : Name) (off : Int) (mk : Nat) (s : State) (vs : Nat → LVal) : Prop :=
  (∀ i p, LanePerformed s a b off mk i → LaneAt s a b off i p →
    (vs (i / 2)).v.extractLsb' (32 * (i % 2)) 32 = BitVec.ofNat 32 (s.numAt p 4)) ∧
  (∀ i, i < 8 → ¬ LanePerformed s a b off mk i → (vs (i / 2)).v.extractLsb' (32 * (i % 2)) 32 = laneOf s.core d i) ∧
  ∃ l, (∀ j, j < 4 → (vs j).l = l) ∧ Highest (fun x =>
    (∃ i p, LanePerformed s a b off mk i ∧ LaneAt s a b off i p ∧ x = s.labelAt p) ∨
    (mk ≠ 0 ∧ x = (s.core.rd (.o mk)).l) ∨
    ((∃ i, i < 8 ∧ ¬ LanePerformed s a b off mk i) ∧ ∃ j, j < 4 ∧ x = (s.core.ent (s.core.physOf d + j)).l)) l

/-- What STVS stores (R202, R218): its performed lanes in increasing order, the labels of their lines raised, the tags of their
granules cleared, and every other byte, label and tag as it was. -/
structure Scattered (d a b : Name) (off : Int) (mk : Nat) (s t : State) : Prop where
  bytes : ∀ i p y, LanePerformed s a b off mk i → LaneAt s a b off i p → y < 4 →
    (∀ j q, i < j → LanePerformed s a b off mk j → LaneAt s a b off j q → q ≠ p) →
    t.byteAt (p + y) = (laneOf s.core d i).extractLsb' (8 * y) 8
  others : ∀ z, (∀ i p, LanePerformed s a b off mk i → LaneAt s a b off i p → z < p ∨ p + 4 ≤ z) → t.byteAt z = s.byteAt z
  labels : ∀ z, Highest (fun x => x = s.labelAt z ∨ ∃ i p, LanePerformed s a b off mk i ∧ LaneAt s a b off i p ∧
    z / 64 = p / 64 ∧ x = (s.core.ent (s.core.physOf d + i / 2)).l) (t.labelAt z)
  cleared : ∀ i p z, LanePerformed s a b off mk i → LaneAt s a b off i p → z / 16 = p / 16 → t.memTagAt z = false
  kept : ∀ z, (∀ i p, LanePerformed s a b off mk i → LaneAt s a b off i p → z / 16 ≠ p / 16) → t.memTagAt z = s.memTagAt z

/-- The lane whose LABEL a STVS raises: the first performed one whose data label is above the capability's (R218). -/
def LaneLabelled (d a b : Name) (off : Int) (mk : Nat) (s : State) (i : Nat) : Prop :=
  LanePerformed s a b off mk i ∧ (s.core.rdCap a).label < (s.core.ent (s.core.physOf d + i / 2)).l

/-- The checks that a use of a capability makes before any lane (R95, R218). -/
def useChecks (s : State) (n : Name) (k : Cap) (perm : Prop) : List (Prop × Cause × Word) :=
  [(k.tag = false, .tag, nameVal n), (s.revoked s.core k = true, .revoked, nameVal n), (k.otype ≠ 0, .seal, nameVal n),
    (¬ perm, .perm, nameVal n)]

/-- The core's instruction waits: it issues again from the start (R57), and nothing has changed. -/
def Waits (i : Instr) (s : State) : Prop := exec i s = .next { s with core := { s.core with stalled := true } }

/-- The checks of R306 on an object capability; `sem` says that a semaphore is needed. -/
def objectChecks (s : State) (n : Name) (sem : Bool) : List (Prop × Cause × Word) :=
  let k := s.core.rdCap n
  let o := s.named s.core k
  [(k.tag = false, .tag, nameVal n), (k.otype ≠ 4, .seal, nameVal n), (k.perm.getLsbD 4 = false, .perm, nameVal n),
    (∃ a, o.obj = some a ∧ objKind a = some (!sem), .seal, nameVal n),
    (o.ok = false ∨ s.mayUse s.core (o.obj.getD 0) = false, .bounds, k.addr)]

/-- A binding block is read as a load, behind no acquire, at its port, which takes it at once (R206, R220, R305). -/
def ObjectOpen (s : State) (n : Name) : Prop := ∀ p off, s.bindingBlock s.core (s.core.rdCap n) = some (p, off) →
  NoAcquire s.core ∧ PortFree s p off 32

/-- The core issues alone, holds no results of a rolled-back interval, and is none of a running pair. -/
def Single (s : State) : Prop := NoReplay s.core ∧ s.core.paired = false

/-- The object that a capability names, and the parties and region it names with it (R305). -/
def objectOf (s : State) (n : Name) : Nat := (s.named s.core (s.core.rdCap n)).obj.getD 0

/-- The releases of R310 have nothing to wait for. -/
def ReleasesAtOnce (s : State) (n : Name) : Prop :=
  s.core.unacked = [] ∧ s.regionBusy s.core (objectOf s n) (s.named s.core (s.core.rdCap n)).region = false

/-- The checks of WAITVA and WAKEVA on their key (R327). -/
def keyChecks (s : State) (n : Name) (bit : Nat) : List (Prop × Cause × Word) :=
  let k := s.core.rdCap n
  useChecks s n k (k.perm.getLsbD bit = true) ++
    [(k.addr.toNat % 8 ≠ 0, .align, nameVal n), (¬ (k.base ≤ k.addr.toNat ∧ (k.addr.toNat : Int) + 8 ≤ k.top), .bounds, k.addr),
      (s.waitKey s.core k.addr = none, .bounds, k.addr)]

/-- The core after a message of its own has left it, not yet acknowledged (R47). -/
def sending (c : Core) : Core :=
  { c with nextId := c.nextId + 1, unacked := c.unacked ++ [⟨c.nextId, 1, false, c.lo, c.top, true, none⟩] }

/-- The checks of R355 on a queue capability, and those of a push on its record. -/
def queueChecks (n : Name) (k : Cap) (bit : Nat) : List (Prop × Cause × Word) :=
  [(k.tag = false, .tag, nameVal n), (k.otype ≠ 5, .seal, nameVal n), (k.perm.getLsbD bit = false, .perm, nameVal n)]
def pushChecks (s : State) (a b : Name) (rsv : Bool) : List (Prop × Cause × Word) :=
  let k := s.core.rdCap a
  queueChecks a k 1 ++
    [(rsv = true ∧ s.core.mode = .u, .priv, BitVec.ofNat 64 s.core.word),
      (∃ i, i < 8 ∧ k.label < (s.core.ent (s.core.physOf b + i)).l, .label, k.addr),
      (k.perm.getLsbD 8 = false ∧ ∃ i, i < 4 ∧ s.core.tagAt (s.core.physOf b + 2 * i) = true, .perm, nameVal a)]

/-- The entry that a push makes of the eight entries of its record (R354, R356). -/
def IsEntry (c : Core) (b : Name) (e : QEntry) : Prop :=
  e.words = (List.range 8).map (fun i => (c.ent (c.physOf b + i)).v) ∧
  e.tags = (List.range 4).map (fun i => c.tagAt (c.physOf b + 2 * i)) ∧
  Highest (fun l => ∃ i, i < 8 ∧ l = (c.ent (c.physOf b + i)).l) e.lab

/-- The status of a push to a queue that is not a BIN queue (R346, R347, R352); one that is assigned to no partition answers as one
that is OFF (R431). -/
def pushCode (q : Queue) (rsv : Bool) : Nat :=
  if q.part = 0 then 4 else match q.st with
  | .off | .stopped => 4
  | .fault => 6
  | .on => if q.hostp then 5 else if (if rsv then 16 + q.rlen else 16 + q.rlen - 2) ≤ (q.tail + 2 ^ 64 - q.head) % 2 ^ 64 then 2 else 0

/-- A record from a queue stands in the eight entries of a v name (R357), and q holds its status and count. -/
structure RecordWritten (d : Name) (e : QEntry) (keep : Bool) (q : Word) (c c' : Core) : Prop where
  words : ∀ i, i < 8 → c'.ent (c.physOf d + i) = ⟨e.words.getD i 0, e.lab⟩
  tags : ∀ i, i < 4 → c'.tagAt (c.physOf d + 2 * i) = (e.tags.getD i false && keep)
  entries : ∀ x, x < c.physOf d ∨ c.physOf d + 8 ≤ x → c'.ent x = c.ent x
  operands : c'.opf = c.opf
  quotient : c'.q = ⟨q, 0⟩

/-- Element `i` at width `w` of four entries, and of what a v name reads (R176). -/
def vecElem (vs : Nat → LVal) (w i : Nat) : Nat := (vs (w * i / 64)).v.toNat / 2 ^ (w * i % 64) % 2 ^ w
def elemOf (c : Core) (v : Name) (w i : Nat) : Nat := vecElem (fun j => c.ent (c.physOf v + j)) w i

/-- An active element (R177), the labels of vectors that are read, and the label of a vector result (R178). -/
def LaneOn (c : Core) (mk i : Nat) : Prop := mk = 0 ∨ (c.rd (.o mk)).v.getLsbD i = true
def OfVecs (c : Core) (ns : List Name) (x : Label) : Prop := ∃ n ∈ ns, ∃ j, j < 4 ∧ x = (c.ent (c.physOf n + j)).l
def LaneLabel (c : Core) (mk k : Nat) (d : Name) (data : Label → Prop) (l : Label) : Prop :=
  Highest (fun x => data x ∨ (mk ≠ 0 ∧ x = (c.rd (.o mk)).l) ∨ ((∃ i, i < k ∧ ¬ LaneOn c mk i) ∧ OfVecs c [d] x)) l

/-- The flags of a lane instruction: those of its active elements, together (R142, R177). -/
def LaneFlags (c : Core) (mk k : Nat) (f : Nat → Rounded) (fl : BitVec 5) : Prop :=
  ∀ b, b < 5 → (fl.getLsbD b = true ↔ ∃ i, i < k ∧ LaneOn c mk i ∧ (f i).fl.bits.getLsbD b = true)

/-- Flags raised in the status word at `lo` (R142), with the event that an enabled one makes (R143). -/
structure FlagsRaised (fl : BitVec 5) (l : Label) (lo word : Nat) (pcAt : Word) (c c' : Core) : Prop where
  frame : c' = { c with regs := c'.regs, tags := c'.tags, fpEvent := c'.fpEvent }
  status : c'.ent lo = if fl = 0 then c.ent lo else ⟨(c.ent lo).v ||| fl.setWidth 64, Label.max (c.ent lo).l l⟩
  entries : ∀ e, e ≠ lo → c'.ent e = c.ent e
  pairs : ∀ e, c'.tagAt e = if fl ≠ 0 ∧ e / 2 = lo / 2 then false else c.tagAt e
  event : let en := fl &&& (c.ent lo).v.extractLsb' 5 5
    c'.fpEvent = if en = 0 then c.fpEvent else match c.fpEvent with
      | none => some ⟨en, word, pcAt, l⟩
      | some e => some { e with raised := e.raised ||| en }

/-- The address of the instruction that issues: in a repetition the one after the RPT word (R144, R170). -/
def issueAt (c : Core) : Word := if c.rep = none then c.pc else c.pc + 4

/-- A vector written with its label, and its flags raised. -/
def VecPut (d : Name) (vs : Nat → LVal) (fl : BitVec 5) (l : Label) (c c' : Core) : Prop :=
  ∃ c1, c1.fpEvent = c.fpEvent ∧ VecWritten d vs c c1 ∧ (∀ j, j < 4 → (vs j).l = l) ∧
    FlagsRaised fl l c.lo c.word (issueAt c) c1 c'

/-- A vector instruction completes with a vector result, at once or late (R48, R180), on a core `c` that is the issuing one
but for its draws; nothing else has changed. -/
def VecDone (i : Instr) (late : Bool) (c : Core) (d : Name) (vs : Nat → LVal) (fl : BitVec 5) (l : Label) (s t : State) :
    Prop :=
  t = { s with core := t.core } ∧
  if late then LateCore i c t.core ∧ (c.pending = [] → VecPut d vs fl l c t.core.landReady ∧ t.core.landReady.pending = [])
  else t.core = wentOn i c { c with
      regs := t.core.regs, tags := t.core.tags, pending := t.core.pending, fpEvent := t.core.fpEvent } ∧
    VecPut d vs fl l c t.core ∧ (c.pending = [] → t.core.pending = [])

/-- Lane by lane: active elements of the result are as `f` says, the others as the destination held them. -/
def LanesAre (c : Core) (mk w k : Nat) (d : Name) (f : Nat → Nat → Prop) (vs : Nat → LVal) : Prop :=
  ∀ i, i < k → (LaneOn c mk i → f i (vecElem vs w i)) ∧ (¬ LaneOn c mk i → vecElem vs w i = elemOf c d w i)

/-- The types of the integer lanes with their widths and signs, and those of the moves (R39, R184, R190). -/
def intTypes : List (Ty × Nat × Bool) := [(.implied, 32, true), (.i8, 8, true), (.i16, 16, true), (.i32, 32, true),
  (.z8, 8, false), (.z16, 16, false), (.z32, 32, false)]
def moveTypes : List (Ty × Nat × Bool) :=
  intTypes ++ [(.f32, 32, false), (.bf16, 16, false), (.f16, 16, false), (.e4m3, 8, false), (.e5m2, 8, false)]

/-- The value of an element of an integer type. -/
def elemInt (signed : Bool) (w x : Nat) : Int := if signed = true ∧ 2 ^ (w - 1) ≤ x then (x : Int) - 2 ^ w else x

/-- An integer lane instruction (R184): element results from vd[i], va[i] and vb[i]; vd is data where `reads` says so. -/
def LaneForm (mk : Name → Name → Name → Nat → Ty → Instr) (reads : Bool)
    (f : Bool → Nat → Nat → Nat → Nat → Nat → Prop) : Prop :=
  ∀ typ w sg, (typ, w, sg) ∈ intTypes → ∀ d a b m s, MayIssue (mk d a b m typ) s → let c := s.core
    ∃ vs l, LaneLabel c m (256 / w) d (OfVecs c (if reads then [a, b, d] else [a, b])) l ∧
      LanesAre c m w (256 / w) d (fun i r => f sg w (elemOf c d w i) (elemOf c a w i) (elemOf c b w i) r) vs ∧
      Completes (mk d a b m typ) s (VecDone (mk d a b m typ) false c d vs 0 l s)
def LaneForm1 (mk : Name → Name → Nat → Ty → Instr) (f : Nat → Nat → Nat → Prop) : Prop :=
  ∀ typ w, (typ, w, true) ∈ intTypes → ∀ d a m s, MayIssue (mk d a m typ) s → let c := s.core
    ∃ vs l, LaneLabel c m (256 / w) d (OfVecs c [a]) l ∧
      LanesAre c m w (256 / w) d (fun i r => f w (elemOf c a w i) r) vs ∧
      Completes (mk d a m typ) s (VecDone (mk d a m typ) false c d vs 0 l s)

/-- The status word's RM, the mode it names, and the ILLEGAL of a reserved one (R60, R61, R182). -/
def rmOf (s : State) : Nat := ((s.core.ent s.core.lo).v.extractLsb' 10 3).toNat
def modeOf : Nat → RMode
  | 0 => .rne
  | 1 => .rtz
  | 2 => .rdn
  | _ => .rup
def rmCheck (s : State) : List (Prop × Cause × Word) := [(4 ≤ rmOf s, .illegal, BitVec.ofNat 64 s.core.word)]

/-- The types of the float lanes (R186). -/
def floatTypes : List (Ty × FFmt) := [(.implied, .f32), (.f32, .f32), (.bf16, .bf16), (.f16, .f16)]

/-- A float lane instruction (R186, R187): element results with their flags. -/
def FloatForm (mk : Name → Name → Name → Nat → Ty → Instr) (reads late rounds : Bool)
    (f : FFmt → RMode → Nat → Nat → Nat → Rounded) : Prop :=
  ∀ typ g, (typ, g) ∈ floatTypes → ∀ d a b m s, MayIssue (mk d a b m typ) s → let c := s.core
    let w := g.width
    let r := fun i => f g (modeOf (rmOf s)) (elemOf c d w i) (elemOf c a w i) (elemOf c b w i)
    ∃ vs l fl, LaneLabel c m (256 / w) d (OfVecs c (if reads then [a, b, d] else [a, b])) l ∧
      LaneFlags c m (256 / w) r fl ∧ LanesAre c m w (256 / w) d (fun i x => x = (r i).bits) vs ∧
      Checked (mk d a b m typ) s (VecDone (mk d a b m typ) late c d vs fl l s) (if rounds then rmCheck s else [])
def FloatForm1 (mk : Name → Name → Nat → Ty → Instr) (f : FFmt → RMode → Nat → Nat → Rounded) : Prop :=
  ∀ typ g, (typ, g) ∈ floatTypes → ∀ d a m s, MayIssue (mk d a m typ) s → let c := s.core
    let w := g.width
    let r := fun i => f g (modeOf (rmOf s)) (rmOf s) (elemOf c a w i)
    ∃ vs l fl, LaneLabel c m (256 / w) d (OfVecs c [a]) l ∧
      LaneFlags c m (256 / w) r fl ∧ LanesAre c m w (256 / w) d (fun i x => x = (r i).bits) vs ∧
      Checked (mk d a m typ) s (VecDone (mk d a m typ) true c d vs fl l s) (rmCheck s)

/-- A scalar result with flags (R142), late. -/
def WordFlagged (i : Instr) (d : Name) (v : LVal) (fl : BitVec 5) (s t : State) : Prop :=
  LateIssued i s t ∧ (s.core.pending = [] → ∃ c1, c1.fpEvent = s.core.fpEvent ∧ WordWritten d v false s.core c1 ∧
    FlagsRaised fl v.l s.core.lo s.core.word (issueAt s.core) c1 t.core.landReady)

/-- A scalar result written at once, with flags. -/
def WordRaised (i : Instr) (d : Name) (v : LVal) (fl : BitVec 5) (s t : State) : Prop :=
  t = { s with core := t.core } ∧
  t.core = wentOn i s.core { s.core with
    regs := t.core.regs, tags := t.core.tags, opf := t.core.opf, q := t.core.q, pending := t.core.pending,
    fpEvent := t.core.fpEvent } ∧
  (∃ c1, c1.fpEvent = s.core.fpEvent ∧ WordWritten d v false s.core c1 ∧
    FlagsRaised fl v.l s.core.lo s.core.word (issueAt s.core) c1 t.core) ∧
  (s.core.pending = [] → t.core.pending = [])

/-- The exact value of a finite floating-point number (R121). -/
noncomputable def ratOf : FVal → ℚ
  | .fin neg m e => (if neg then -1 else 1) * (m : ℚ) * (2 : ℚ) ^ e
  | _ => 0

/-- The order of two numbers that are no NaNs (R189): −0 equals +0. -/
def Less : FVal → FVal → Prop
  | .inf true, .inf false => True
  | .inf true, .fin _ _ _ => True
  | .fin _ _ _, .inf false => True
  | .fin a m e, .fin b n d => ratOf (.fin a m e) < ratOf (.fin b n d)
  | _, _ => False
def Equal : FVal → FVal → Prop
  | .inf a, .inf b => a = b
  | .fin a m e, .fin b n d => ratOf (.fin a m e) = ratOf (.fin b n d)
  | _, _ => False

/-- The conditions of VCMP on numbers, with their order as propositions (R189). -/
def condHolds (cc : Nat) (lt eq gt : Prop) : Prop :=
  (cc = 0 ∧ eq) ∨ (cc = 1 ∧ ¬ eq) ∨ (cc = 2 ∧ lt) ∨ (cc = 3 ∧ (lt ∨ eq)) ∨ (cc = 4 ∧ gt) ∨ (cc = 5 ∧ (gt ∨ eq)) ∨ cc = 7

/-- A value that a format represents (R121). -/
def Represents (g : FFmt) (q : ℚ) : Prop := ∃ bits n m e, bits < 2 ^ g.width ∧ g.decode bits = .fin n m e ∧ ratOf (.fin n m e) = q

/-- An event at core `p` (an event row of the opcode table): it leaves the state `u`, seen from that core, and whose turn it
is stays as it was. -/
def Event (i : Instr) (s u : State) : Prop := exec i s = .next (u.focus s.core.phys)

/-- Core `p` is in the package, and the state of an event at it is that core's. -/
def Named (s : State) (p : Nat) : Prop := p < coreCount ∧ (s.focus p).core.phys = p

/-- The first asynchronous cause that is due, its value, and the core that no longer has it due (R302, R482). -/
def firstDue (c : Core) : Option (BitVec 8 × Word × Core) :=
  match c.dueSpill, c.dueMirror, c.dueWatchdog with
  | v :: rest, _, _ => some (0x12, v, { c with dueSpill := rest })
  | [], some v, _ => some (0x11, v, { c with dueMirror := none })
  | [], none, v :: rest => some (0x14, v, { c with dueWatchdog := rest })
  | [], none, [] =>
    if c.duePreempt then some (0x0F, 0, { c with duePreempt := false })
    else if c.evt &&& c.evmask = 0 then none
    else some (0x10, (c.evt &&& c.evmask).setWidth 64, { c with evt := c.evt &&& ~~~c.evmask })

/-- A granule that a bitmap marks (R101). -/
def InBitmap (s : State) (place cvbase cvlen : Nat) (base : Int) : Prop :=
  (cvbase : Int) ≤ base ∧ base < cvbase + cvlen ∧
    (s.byteAt (place + 32 + (base.toNat - cvbase) / 2048)).getLsbD ((base.toNat - cvbase) / 256 % 8) = true

/-- An instruction of the engine cores (R228, R254): a core that does not stand at one of its tile positions raises ILLEGAL, before
the checks on its names; one that stands there issues it as `rest` says. -/
def EngineForm (i : Instr) (s : State) (ok : Nat → Prop) (rest : Prop) : Prop := Alone s → privTrap i s.core = none →
  (isGateway s.core.phys = true ∨ ¬ ok (tilePos s.core.phys) →
    exec i s = .next (s.raise .illegal (BitVec.ofNat 64 s.core.word))) ∧
  (nameTrap i s.core = none → rest)

/-- A card as an entry of a window, and a window's tile. -/
def ownTile (s : State) : Nat := tileOf s.core.phys
def cardOf (s : State) (t e : Nat) : Option Card := (s.tileAt t).cards.listed e
def FreeAt (x : Tile) (e : Nat) : Prop := e < 32 ∧ ∀ k, x.cards.listed e = some k → k.state = .ended

/-- A card issued into the window of the core's tile (R255, R256, R260): it takes the lowest entry that is free, WAITING, with
its sequence number and its edges, and the handle is written at once; the other cards and tiles stand as they were. -/
def CardIssued (i : Instr) (d : Name) (tb : Nat) (P : Card → Prop) (s t : State) : Prop :=
  let n := ownTile s
  let x := s.tileAt n
  ∃ e k, FreeAt x e ∧ (∀ j, j < e → ¬ FreeAt x j) ∧ cardOf t n e = some k ∧ P k ∧ k.state = .waiting ∧ k.seq = x.seq ∧
    k.core = s.core.phys ∧ k.part = s.core.part ∧ k.owner = s.core.lo ∧
    k.slot = (if tb / 64 % 2 = 1 then some (tb % 64) else none) ∧ k.status = 0 ∧ k.offset = 0 ∧
    (∀ j, j ∈ k.preds ↔ ∃ old, (j, old) ∈ x.cards ∧ j ≠ e ∧ old.state ≠ .ended ∧ k.edge old = true) ∧
    (∀ j, j ≠ e → cardOf t n j = cardOf s n j) ∧ (t.tileAt n).seq = (x.seq + 1) % 2 ^ 24 ∧
    (∀ m, m ≠ n → t.tileAt m = s.tileAt m) ∧ WordPut i d ⟨BitVec.ofNat 64 (x.seq * 256 + e), 0⟩ s { t with tiles := s.tiles }

/-- A card instruction at a tile position, behind no acquire (R220): it waits while no entry is free. -/
def CardForm (i : Instr) (d : Name) (tb pos : Nat) (P : Card → Prop) (s : State) : Prop :=
  EngineForm i s (· = pos) (NoAcquire s.core →
    ((∃ e, FreeAt (s.tileAt (ownTile s)) e) → Completes i s (CardIssued i d tb P s)) ∧
    ((∀ e, ¬ FreeAt (s.tileAt (ownTile s)) e) → Waits i s))

/-- A card that has ended with a status (R256, R264). -/
def EndedAs (st : Nat) (k k' : Card) : Prop :=
  k'.state = .ended ∧ k'.status = st ∧ k' = { k with
    state := k'.state, status := k'.status, due := none, miss := none, cancel := false, ending := none, preds := k'.preds }

/-- The card buffers hold no write that the end of a card waits for (R262, R483). -/
def EndsAtOnce (s : State) (t : Nat) (k : Card) : Prop := s.farWaits t k.seq k.part (scopeOf k.scope) = false

/-- The status word of a card (R263). -/
def statusWord (k : Card) : Word :=
  let st := match k.state with
    | .waiting => 1
    | .running => 2
    | .faulted => 3
    | .ended => 4
    | .held => 5
  BitVec.ofNat 64 (k.status + k.flags.toNat * 2 ^ 8 + st * 2 ^ 13 + k.dmask * 2 ^ 16 + k.offset % 2 ^ 32 * 2 ^ 32)

/-- A core of one of a tile's engines (R254). -/
def engine (pos : Nat) : Prop := pos = 13 ∨ pos = 14 ∨ pos = 15

end Sys2Proof
end

