-- ==== Sys2Proof/Certificates/Slice0/Obligations.lean ====
section
/-! DEFINITION. The statements of this model for the provers. -/

open Sys2Proof Sys2Proof.Machine

/-- R156, R157: ADD to MAXZ give the table's result, write it by R149 and change nothing else; DIV, REM, DIVZ and REMZ, with the corner
cases of their table, give their results late, in d and in q. -/
def Obligations.ArithmeticResults : Prop :=
  (∀ h : Hd,
    Computes2 (.add h) (fun x y => x + y) ∧
    Computes2 (.sub h) (fun x y => x - y) ∧
    Computes2 (.mul h) (fun x y => x * y) ∧
    Computes2 (.mulh h) (fun x y => (x.signExtend 128 * y.signExtend 128).extractLsb' 64 64) ∧
    Computes2 (.mulhz h) (fun x y => (x.setWidth 128 * y.setWidth 128).extractLsb' 64 64) ∧
    Computes2 (.min h) (fun x y => if x.toInt ≤ y.toInt then x else y) ∧
    Computes2 (.max h) (fun x y => if x.toInt ≤ y.toInt then y else x) ∧
    Computes2 (.minz h) (fun x y => if x.toNat ≤ y.toNat then x else y) ∧
    Computes2 (.maxz h) (fun x y => if x.toNat ≤ y.toNat then y else x)) ∧
  (∀ h : Hd,
    Divides (.div h) (fun x y => if y = 0 then 0xFFFFFFFFFFFFFFFF#64 else BitVec.ofInt 64 (x.toInt.tdiv y.toInt)) ∧
    Divides (.rem h) (fun x y => if y = 0 then x else BitVec.ofInt 64 (x.toInt - y.toInt * x.toInt.tdiv y.toInt)) ∧
    Divides (.divz h) (fun x y => if y = 0 then 0xFFFFFFFFFFFFFFFF#64 else BitVec.ofNat 64 (x.toNat / y.toNat)) ∧
    Divides (.remz h) (fun x y => if y = 0 then x else BitVec.ofNat 64 (x.toNat % y.toNat)))

/-- R158 to R161: the logic instructions, the table of three inputs and the shifts. -/
def Obligations.LogicAndShiftResults : Prop := ∀ h : Hd,
  Computes2 (.andW h) (fun x y => x &&& y) ∧
  Computes2 (.orW h) (fun x y => x ||| y) ∧
  Computes2 (.xor h) (fun x y => x ^^^ y) ∧
  Computes2 (.andn h) (fun x y => x &&& ~~~y) ∧
  Computes2 (.orn h) (fun x y => x ||| ~~~y) ∧
  Computes2 (.xnor h) (fun x y => ~~~(x ^^^ y)) ∧
  (∀ table, Computes3 (fun d a b c => .logt h d a b c table) (fun x y z v => ∀ i, i < 64 →
    v.getLsbD i = table.testBit ((x.getLsbD i).toNat * 4 + (y.getLsbD i).toNat * 2 + (z.getLsbD i).toNat))) ∧
  Computes2 (.shl h) (fun x y => x <<< (y.toNat % 64)) ∧
  Computes2 (.shr h) (fun x y => x >>> (y.toNat % 64)) ∧
  Computes2 (.sar h) (fun x y => x.sshiftRight (y.toNat % 64)) ∧
  Computes2 (.rot h) (fun x y => x.rotateLeft (y.toNat % 64)) ∧
  Computes3 (.fshl h) (fun x y z v => v = ((x ++ y) <<< (z.toNat % 64)).extractLsb' 64 64) ∧
  Computes3 (.fshr h) (fun x y z v => v = ((x ++ y) >>> (z.toNat % 64)).extractLsb' 0 64)

/-- R162 to R164: counts of bits, reversals, copies, extensions and fields that lie inside the word, and the ILLEGAL of a field that
does not. -/
def Obligations.BitAndFieldResults : Prop :=
  (∀ h : Hd,
    Computes1 (.clz h) (fun x v => (x = 0 ∧ v = 64) ∨ (x ≠ 0 ∧ v.toNat < 64 ∧ x.getLsbD (63 - v.toNat) = true ∧
      ∀ i, 63 - v.toNat < i → x.getLsbD i = false)) ∧
    Computes1 (.ctz h) (fun x v => (x = 0 ∧ v = 64) ∨ (x ≠ 0 ∧ v.toNat < 64 ∧ x.getLsbD v.toNat = true ∧
      ∀ i, i < v.toNat → x.getLsbD i = false)) ∧
    Computes1 (.popc h) (fun x v => v.toNat = ((List.range 64).filter (fun i => x.getLsbD i)).length) ∧
    Computes1 (.brev h) (fun x v => ∀ i, i < 64 → v.getLsbD i = x.getLsbD (63 - i)) ∧
    Computes1 (.bswap h) (fun x v => ∀ i, i < 8 → v.extractLsb' (8 * i) 8 = x.extractLsb' (8 * (7 - i)) 8) ∧
    Computes1 (.mov h) (fun x v => v = x) ∧
    (∀ width1, Computes1 (fun d a => .sext h d a width1) (fun x v => v = (x.extractLsb' 0 (width1 + 1)).signExtend 64)) ∧
    (∀ width1, Computes1 (fun d a => .zext h d a width1) (fun x v => v = (x.extractLsb' 0 (width1 + 1)).setWidth 64))) ∧
  (∀ (h : Hd) (pos width1 : Nat),
    (pos + (width1 + 1) ≤ 64 →
      Computes1 (fun d a => .bfx h d a pos width1) (fun x v => v = (x.extractLsb' pos (width1 + 1)).signExtend 64) ∧
      Computes1 (fun d a => .bfxz h d a pos width1) (fun x v => v = (x.extractLsb' pos (width1 + 1)).setWidth 64) ∧
      ∀ d a s, MayIssue (.bfi h d a pos width1) s → ∃ v : Word,
        (∀ i, i < 64 → v.getLsbD i =
          if pos ≤ i ∧ i < pos + (width1 + 1) then (s.core.rd a).v.getLsbD (i - pos) else (s.core.rd d).v.getLsbD i) ∧
        Completes (.bfi h d a pos width1) s (WordDone (.bfi h d a pos width1) d
          ⟨v, Label.max (s.core.rd d).l (s.core.rd a).l⟩ s)) ∧
    (64 < pos + (width1 + 1) → ∀ d a s, MayIssue (.bfi h d a pos width1) s → MayIssue (.bfx h d a pos width1) s →
      MayIssue (.bfxz h d a pos width1) s → ∀ i ∈ [Instr.bfi h d a pos width1, .bfx h d a pos width1, .bfxz h d a pos width1],
        exec i s = .next (s.raise .illegal (BitVec.ofNat 64 s.core.word))))

/-- R165, R166: compares, SEL, the immediate forms and LI. -/
def Obligations.CompareAndImmediateResults : Prop :=
  (∀ h : Hd,
    Computes2 (.seq h) (fun x y => if x = y then 1 else 0) ∧
    Computes2 (.sne h) (fun x y => if x = y then 0 else 1) ∧
    Computes2 (.slt h) (fun x y => if x.toInt < y.toInt then 1 else 0) ∧
    Computes2 (.sltz h) (fun x y => if x.toNat < y.toNat then 1 else 0) ∧
    ∀ d a b s, MayIssue (.sel h d a b) s → Completes (.sel h d a b) s (WordDone (.sel h d a b) d
      ⟨if s.core.q.v ≠ 0 then (s.core.rd a).v else (s.core.rd b).v,
        Label.max (Label.max s.core.q.l (s.core.rd a).l) (s.core.rd b).l⟩ s)) ∧
  (∀ (h : Hd) (imm : Int),
    Computes1 (fun d a => .addi h d a imm) (fun x v => v = x + BitVec.ofInt 64 imm) ∧
    Computes1 (fun d a => .andi h d a imm) (fun x v => v = x &&& BitVec.ofInt 64 imm) ∧
    Computes1 (fun d a => .ori h d a imm) (fun x v => v = x ||| BitVec.ofInt 64 imm) ∧
    Computes1 (fun d a => .xori h d a imm) (fun x v => v = x ^^^ BitVec.ofInt 64 imm) ∧
    (0 ≤ imm → imm < 64 →
      Computes1 (fun d a => .shli h d a imm) (fun x v => v = x <<< imm.toNat) ∧
      Computes1 (fun d a => .shri h d a imm) (fun x v => v = x >>> imm.toNat) ∧
      Computes1 (fun d a => .sari h d a imm) (fun x v => v = x.sshiftRight imm.toNat)) ∧
    Computes1 (fun d a => .slti h d a imm) (fun x v =>
      v = if x.toInt < (BitVec.ofInt 64 imm : Word).toInt then 1 else 0) ∧
    ∀ d s, MayIssue (.li h d imm) s → Completes (.li h d imm) s (WordDone (.li h d imm) d ⟨BitVec.ofInt 64 imm, 0⟩ s))

/-- R167: branches and J take their targets where their conditions hold, and change nothing but the PC. -/
def Obligations.BranchTargets : Prop := ∀ h : Hd,
  Branches2 (.beq h) (fun x y => x = y) ∧
  Branches2 (.bne h) (fun x y => x ≠ y) ∧
  Branches2 (.blt h) (fun x y => x.toInt < y.toInt) ∧
  Branches2 (.bge h) (fun x y => y.toInt ≤ x.toInt) ∧
  Branches2 (.blo h) (fun x y => x.toNat < y.toNat) ∧
  Branches2 (.bhs h) (fun x y => y.toNat ≤ x.toNat) ∧
  (∀ a disp s, MayIssue (.bz h a disp) s → ∃ taken : Bool, (taken = true ↔ (s.core.rd a).v = 0) ∧
    Completes (.bz h a disp) s (Jumped (.bz h a disp) taken (s.core.pc + BitVec.ofInt 64 disp) s)) ∧
  (∀ a disp s, MayIssue (.bnz h a disp) s → ∃ taken : Bool, (taken = true ↔ (s.core.rd a).v ≠ 0) ∧
    Completes (.bnz h a disp) s (Jumped (.bnz h a disp) taken (s.core.pc + BitVec.ofInt 64 disp) s)) ∧
  ∀ disp s, MayIssue (.j h disp) s →
    Completes (.j h disp) s (Jumped (.j h disp) true (s.core.pc + BitVec.ofInt 64 disp) s)

/-- R170 and R174: RPT begins a repetition of n = N − 1 + 1 issues, at the one that sy.rpt named for ERET or at the first;
the PC stays at the RPT word, and nothing else changes. -/
def Obligations.RepeatBegins : Prop := ∀ (h : Hd) (n1 steps stride : Nat) (s : State), MayIssue (.rpt h n1 steps stride) s →
  ∃ first, (∀ r, s.core.resume = some r → 1 ≤ r → r ≤ n1 + 1 → first = n1 + 1 - r) ∧
    ((∀ r, s.core.resume = some r → ¬ (1 ≤ r ∧ r ≤ n1 + 1)) → first = 0) ∧
    exec (.rpt h n1 steps stride) s = .next { s with core := { s.core with
      rep := some ⟨n1 + 1, first, steps, stride⟩, resume := none, stalled := false } }

/-- R107, R108: CGET gives the field that its selector names; CSETADDR, CINCADDR and CINCADDRI move the address exactly and keep the
tag only inside the region of R91. -/
def Obligations.CapabilityFieldsAndAddresses : Prop :=
  (∀ (h : Hd) (fsel : Nat) (d a : Name) (s : State), fsel < 8 →
    MayIssue (.cget h fsel d a) s → ∃ v : Word,
      (fsel = 0 → v = BitVec.ofInt 64 (s.core.rdCap a).base) ∧
      (fsel = 1 → (v.toNat : Int) = max 0 (min (s.core.rdCap a).top (2 ^ 64 - 1))) ∧
      (fsel = 2 → (v.toNat : Int) = max 0 (min ((s.core.rdCap a).top - (s.core.rdCap a).base) (2 ^ 64 - 1))) ∧
      (fsel = 3 → v = (s.core.rdCap a).addr) ∧
      (fsel = 4 → v.toNat = (s.core.rdCap a).perm.toNat) ∧
      (fsel = 5 → v.toNat = (s.core.rdCap a).otype.toNat) ∧
      (fsel = 6 → v.toNat = (s.core.rdCap a).label.toNat) ∧
      (fsel = 7 → v.toNat = (s.core.rdCap a).tag.toNat) ∧
      Completes (.cget h fsel d a) s (WordPut (.cget h fsel d a) d ⟨v, s.core.capLabel a⟩ s)) ∧
  (∀ (h : Hd) (d a b : Name) (imm : Int) (s : State),
    (MayIssue (.csetaddr h d a b) s → ∃ k, Moved (s.core.rdCap a) k (s.core.rd b).v.toNat ∧
      Checked (.csetaddr h d a b) s (CapDone (.csetaddr h d a b) d k (capLabels s.core [a] [b]) s)
        [(Sealed (s.core.rdCap a), .seal, nameVal a)]) ∧
    (MayIssue (.cincaddr h d a b) s →
      ∃ k, Moved (s.core.rdCap a) k ((s.core.rdCap a).addr.toNat + (s.core.rd b).v.toInt) ∧
      Checked (.cincaddr h d a b) s (CapDone (.cincaddr h d a b) d k (capLabels s.core [a] [b]) s)
        [(Sealed (s.core.rdCap a), .seal, nameVal a)]) ∧
    (MayIssue (.cincaddri h d a imm) s → ∃ k, Moved (s.core.rdCap a) k ((s.core.rdCap a).addr.toNat + imm) ∧
      Checked (.cincaddri h d a imm) s (CapDone (.cincaddri h d a imm) d k (capLabels s.core [a] []) s)
        [(Sealed (s.core.rdCap a), .seal, nameVal a)]))

/-- R109 to R111, R114: CNARROW lays the requested bounds, rounded outward, into the capability, and CNARROWX accepts only exact ones;
CDROP, CRAISELBL and CGATE. -/
def Obligations.CapabilityBoundsAndRights : Prop :=
  (∀ (h : Hd) (d a b : Name) (s : State),
    ∃ e, LeastExp (s.core.rdCap a).addr.toNat ((s.core.rdCap a).addr.toNat + (s.core.rd b).v.toNat) e ∧
    let c := s.core.rdCap a
    let lo := c.addr.toNat
    let hi := lo + (s.core.rd b).v.toNat
    let nb := lo / 2 ^ e * 2 ^ e
    let nt := (hi + (2 ^ e - 1)) / 2 ^ e * 2 ^ e
    let k := { c with e := BitVec.ofNat 6 e, b := BitVec.ofNat 18 (nb / 2 ^ e), t := BitVec.ofNat 18 (nt / 2 ^ e) }
    let checks := [(c.tag = false, Cause.tag, nameVal a), (c.otype ≠ 0, .seal, nameVal a),
      ((lo : Int) < c.base ∨ c.top < hi, .bounds, c.addr)]
    (MayIssue (.cnarrow h d a b) s →
      Checked (.cnarrow h d a b) s (CapDone (.cnarrow h d a b) d k (capLabels s.core [a] [b]) s) checks) ∧
    (MayIssue (.cnarrowx h d a b) s →
      Checked (.cnarrowx h d a b) s (CapDone (.cnarrowx h d a b) d k (capLabels s.core [a] [b]) s)
        (checks ++ [(nb ≠ lo ∨ nt ≠ hi, .bounds, (s.core.rd b).v)]))) ∧
  (∀ (h : Hd) (d a b : Name) (s : State),
    (MayIssue (.cdrop h d a b) s → Checked (.cdrop h d a b) s
      (CapDone (.cdrop h d a b) d
        { s.core.rdCap a with perm := (s.core.rdCap a).perm &&& (s.core.rd b).v.extractLsb' 0 14 } (capLabels s.core [a] [b]) s)
      [(Sealed (s.core.rdCap a), .seal, nameVal a)]) ∧
    (MayIssue (.craiselbl h d a b) s → Checked (.craiselbl h d a b) s
      (CapDone (.craiselbl h d a b) d { s.core.rdCap a with label := (s.core.rd b).v.extractLsb' 0 3 }
        (capLabels s.core [a] [b]) s)
      [(7 < (s.core.rd b).v.toNat, .bounds, (s.core.rd b).v), (Sealed (s.core.rdCap a), .seal, nameVal a),
        ((s.core.rdCap a).tag = true ∧ (s.core.rdCap a).label.toNat < (s.core.rd b).v.toNat ∧
          (s.core.rdCap a).perm.getLsbD 6 = false, .perm, nameVal a)]) ∧
    (MayIssue (.cgate h d a) s → Checked (.cgate h d a) s
      (CapDone (.cgate h d a) d { s.core.rdCap a with otype := 1 } (capLabels s.core [a] []) s)
      [((s.core.rdCap a).tag = false, .tag, nameVal a), ((s.core.rdCap a).otype ≠ 0, .seal, nameVal a),
        ((s.core.rdCap a).perm.getLsbD 2 = false, .perm, nameVal a)]))

/-- R112, R113: CSEAL and CUNSEAL. -/
def Obligations.CapabilitySeals : Prop := ∀ (h : Hd) (d a b : Name) (s : State),
  let k := s.core.rdCap a
  let w := s.core.rdCap b
  let roam := fun p : BitVec 14 => if w.perm.getLsbD 9 then p else p &&& 0x3DFF
  let inside := w.base ≤ (w.addr.toNat : Int) ∧ (w.addr.toNat : Int) < w.top
  (MayIssue (.cseal h d a b) s → Checked (.cseal h d a b) s
    (CapDone (.cseal h d a b) d { k with otype := w.addr.extractLsb' 0 4, perm := roam k.perm }
      (capLabels s.core [a, b] []) s)
    [(k.tag = false, .tag, nameVal a), (w.tag = false, .tag, nameVal b), (k.otype ≠ 0, .seal, nameVal a),
      (w.otype ≠ 0, .seal, nameVal b), (w.perm.getLsbD 11 = false, .perm, nameVal b),
      (¬ inside ∨ w.addr = 0 ∨ w.addr = 1 ∨ w.addr = 7 ∨ 15 ≤ w.addr.toNat, .bounds, w.addr)]) ∧
  (MayIssue (.cunseal h d a b) s → Checked (.cunseal h d a b) s
    (CapDone (.cunseal h d a b) d { k with otype := 0, perm := roam k.perm } (capLabels s.core [a, b] []) s)
    [(k.tag = false, .tag, nameVal a), (w.tag = false, .tag, nameVal b),
      (k.otype = 0 ∨ k.otype = 1 ∨ k.otype = 7, .seal, nameVal a), (w.otype ≠ 0, .seal, nameVal b),
      (w.perm.getLsbD 12 = false, .perm, nameVal b), (¬ inside, .bounds, w.addr),
      (w.addr.toNat ≠ k.otype.toNat, .seal, nameVal b)])

/-- R115 to R117: CMOV and CSTRIP copy a pair, each entry with its own label; CWITHIN, CFITLEN and CFITMASK. -/
def Obligations.CapabilityCopiesAndTests : Prop :=
  (∀ (h : Hd) (d a : Name) (s : State) (keep : Bool),
    let i := if keep then Instr.cmov h d a else .cstrip h d a
    let e := s.core.physOf d
    let x := s.core.physOf a
    MayIssue i s → Completes i s (fun t => OnlyResults i s t ∧
      t.core.ent e = s.core.ent x ∧ t.core.ent (e + 1) = s.core.ent (x + 1) ∧
      t.core.tagAt e = (keep && s.core.tagAt x) ∧
      (∀ y, y ≠ e → y ≠ e + 1 → t.core.ent y = s.core.ent y) ∧ (∀ y, y / 2 ≠ e / 2 → t.core.tagAt y = s.core.tagAt y) ∧
      t.core.opf = s.core.opf ∧ t.core.q = s.core.q)) ∧
  (∀ (h : Hd) (d a b : Name) (s : State),
    (MayIssue (.cwithin h d a b) s → ∃ v : Bool,
      (v = true ↔ (s.core.rdCap a).tag = true ∧ (s.core.rdCap b).tag = true ∧ (s.core.rdCap a).otype = 0 ∧
        (s.core.rdCap b).otype = 0 ∧ (s.core.rdCap a).base ≤ (s.core.rdCap b).base ∧ (s.core.rdCap b).top ≤ (s.core.rdCap a).top ∧
        (∀ i, (s.core.rdCap b).perm.getLsbD i = true → (s.core.rdCap a).perm.getLsbD i = true) ∧
        (s.core.rdCap b).label.toNat ≤ (s.core.rdCap a).label.toNat) ∧
      Completes (.cwithin h d a b) s
        (WordPut (.cwithin h d a b) d ⟨if v then 1 else 0, capLabels s.core [a, b] []⟩ s)) ∧
    ∃ e, LeastExp 0 (s.core.rd a).v.toNat e ∧
      (MayIssue (.cfitlen h d a) s → Completes (.cfitlen h d a) s (WordPut (.cfitlen h d a) d
        ⟨BitVec.ofNat 64 (min (((s.core.rd a).v.toNat + (2 ^ e - 1)) / 2 ^ e * 2 ^ e) (2 ^ 64 - 1)), (s.core.rd a).l⟩ s)) ∧
      (MayIssue (.cfitmask h d a) s → Completes (.cfitmask h d a) s (WordPut (.cfitmask h d a) d
        ⟨~~~(BitVec.ofNat 64 (2 ^ e - 1)), (s.core.rd a).l⟩ s)))

/-- R52, rows 7 to 10: for every instruction that a core issues, these checks come before its own effect; in U mode an S-mode
instruction raises PRIV with its first word. -/
def Obligations.NameChecksComeFirst : Prop :=
  (∀ (i : Instr) (s : State) (k : Cause) (v : Word), i.hd ≠ none → Alone s →
    nameTrap i s.core = some (k, v) → exec i s = .next (s.raise k v)) ∧
  (∀ (i : Instr) (s : State), Alone s → s.core.mode = .u →
    i.sMode = true → exec i s = .next (s.raise .priv (BitVec.ofNat 64 s.core.word)))

/-- R50, R69, R70, R98, R173: a trap enters the S handler in one step once nothing is outstanding; while a late write, an access that its
port has not performed, a store, an atomic, a message or an acquire is outstanding, it waits and nothing is saved.  That a trap between ERET
and the resumed RPT saves the repetitions that ERET has loaded is the model's reading (notes/assumptions/75.md). -/
def Obligations.TrapDelivery : Prop :=
  (∀ (s : State) (cause : BitVec 8) (tval epc : Word), TakesTraps s →
    Entered cause tval epc s (s.raiseAt cause tval epc)) ∧
  (∀ (s : State) (cause : BitVec 8) (tval epc : Word), s.hold = true →
    ((∃ p ∈ s.core.pending, p.flags ≠ 0 ∨ p.left ≠ 0 ∨ p.xmax = true ∨ ∃ w ∈ p.writes, w.tgt.real = true) ∨
      s.core.unacked ≠ [] ∨ ∃ d, s.core.drain = some d ∧ d.2 ≠ 0) →
    s.raiseAt cause tval epc = { s with core := { s.core with trapDue := some ⟨cause, tval, epc⟩, stalled := true } })

/-- R75 to R77: LNS completes with a lens that its checks pass, LGET always, and LDRAIN where nothing is under way in the region that its
lens names; each of the checks traps in its order, and LDRAIN waits while something is. -/
def Obligations.LensInstructions : Prop := ∀ (h : Hd) (a d : Name) (s : State),
  let k := s.core.rdCap a
  (MayIssue (.lns h a) s → k.tag = true → k.otype = 2 → k.perm.getLsbD 0 = true → k.perm.getLsbD 1 = true → k.top ≤ 4096 →
    1 ≤ k.top - k.base → k.top - k.base ≤ 4080 → k.base + 1 ≤ (k.addr.toNat : Int) → (k.addr.toNat : Int) ≤ k.top →
    exec (.lns h a) s = .next { s with core := wentOn (.lns h a) s.core { s.core with
      lens := k, opf := [], q := ⟨0, 0⟩,
      pending := s.core.pending.map (fun p => { p with writes := p.writes.map (fun w =>
        if ofCore w.tgt then { w with tgt := Tgt.nowhere } else w) }) } }) ∧
  (MayIssue (.lns h a) s → TrapsBy (.lns h a) s
    [(k.tag = false, .tag, nameVal a), (k.otype ≠ 2, .seal, nameVal a),
      (k.perm.getLsbD 0 = false ∨ k.perm.getLsbD 1 = false, .perm, nameVal a),
      (4096 < k.top ∨ k.top - k.base < 1 ∨ 4080 < k.top - k.base ∨ (k.addr.toNat : Int) < k.base + 1 ∨
        k.top < k.addr.toNat, .bounds, k.addr)]) ∧
  (MayIssue (.lget h d) s → ∃ t, exec (.lget h d) s = .next t ∧
    CapDone (.lget h d) d { s.core.lens with tag := true } 0 s t) ∧
  (MayIssue (.ldrain h a) s → k.tag = true → k.otype = 2 → ¬ RegionBusy s.core k.base.toNat k.top.toNat →
    exec (.ldrain h a) s = .next { s with core := wentOn (.ldrain h a) s.core s.core }) ∧
  (MayIssue (.ldrain h a) s → TrapsBy (.ldrain h a) s
    [(k.tag = false, .tag, nameVal a), (k.otype ≠ 2, .seal, nameVal a)]) ∧
  (MayIssue (.ldrain h a) s → RegionBusy s.core k.base.toNat k.top.toNat → k.tag = true → k.otype = 2 →
    exec (.ldrain h a) s = .next { s with core := { s.core with stalled := true } })

/-- R65, R78, R79: CALL and CALLC move the window up and put the return capability into the callee's w0 and w1; RET unseals c0 into the
PCC and moves the window down. -/
def Obligations.CallsAndReturns : Prop :=
  (∀ (h : Hd) (k : Nat) (disp : Int) (a : Name) (s : State),
    let g := s.core.rdCap a
    let e := s.core.lb + k
    let back : Cap := { s.core.pcc with
      addr := s.core.pc + BitVec.ofNat 64 (4 * h.len.words), otype := 7, perm := s.core.pcc.perm &&& 0x3DFF, tag := true }
    let checks := [(s.core.lb % 2 = 1, Cause.align, (0 : Word)), (s.core.top < e + 48, .window, BitVec.ofNat 64 k)]
    let saved := fun (pc : Word) (pcc : Cap) (t : State) =>
      t = { s with core := jumpedTo pc { s.core with
        regs := t.core.regs, tags := t.core.tags, pending := t.core.pending,
        lens := { s.core.lens with addr := BitVec.ofNat 64 e }, pcc := pcc } } ∧
      t.core.capAt e = back ∧ (t.core.ent e).l = 0 ∧ (t.core.ent (e + 1)).l = 0 ∧
      (∀ x, x ≠ e → x ≠ e + 1 → t.core.ent x = s.core.ent x) ∧ (∀ x, x / 2 ≠ e / 2 → t.core.tagAt x = s.core.tagAt x) ∧
      (s.core.pending = [] → t.core.pending = [])
    (MayIssue (.call h k disp) s →
      Checked (.call h k disp) s (saved (s.core.pc + BitVec.ofInt 64 disp) s.core.pcc) checks) ∧
    (MayIssue (.callc h k a) s → Checked (.callc h k a) s (saved g.addr { g with otype := 0 })
      ([(g.tag = false, .tag, nameVal a), (g.otype ≠ 1, .seal, nameVal a), (g.perm.getLsbD 2 = false, .perm, nameVal a)]
        ++ checks))) ∧
  (∀ (h : Hd) (k : Nat) (s : State), MayIssue (.ret h k) s →
    let r := s.core.capAt s.core.lb
    Checked (.ret h k) s
      (fun t => t = { s with core := jumpedTo r.addr { s.core with
        lens := { s.core.lens with addr := BitVec.ofNat 64 (s.core.lb - k) }, pcc := { r with otype := 0 } } })
      [(s.core.lb % 2 = 1, .align, 0), (s.core.top ≤ s.core.lb + 1, .lenslimit, 0), (r.tag = false, .tag, 0),
        (r.otype ≠ 7, .seal, 0), (s.core.lb < s.core.lo + 1 + k, .windowunder, BitVec.ofNat 64 k)])

/-- R81, R82, R174: TRAP raises SYSCALL with the operand's value and sy.epcc at the next instruction; ERET goes back to
what the trap saved. -/
def Obligations.SystemCallsAndReturns : Prop := ∀ (h : Hd) (a : Name) (s : State),
  (MayIssue (.trap h a) s → TakesTraps s → Completes (.trap h a) s
    (Entered 0x0D (s.core.rd a).v (s.core.pc + BitVec.ofNat 64 (4 * h.len.words)) s)) ∧
  (MayIssue (.eret h) s → exec (.eret h) s = .next { s with core := { s.core with
    lens := s.core.elens, pcc := s.core.epcc, pc := s.core.epcc.addr, mode := s.core.prevMode,
    resume := if s.core.rptValid then some s.core.rptRemain else none, rptValid := false, rptRemain := 0, ibuf := [] } })

/-- R66, R68, R83, R84, R96: LSPILL, LFILL and LMOVE make their checks and hand the move to the spill engine.  The stores of an LSPILL
count under its lens, those of an earlier one also under the lens of an LFILL whose image meets its own. -/
def Obligations.BulkMoves : Prop := ∀ (h : Hd) (d a b : Name) (s : State), s.hold = true →
  let n := (s.core.rd b).v.toNat
  let x := s.core.rdCap d
  let y := s.core.rdCap a
  let count := (n < 1 ∨ 4080 < n, Cause.bounds, (s.core.rd b).v)
  let lens := fun (nm : Name) (k : Cap) (bit : Nat) =>
    [(k.tag = false, Cause.tag, nameVal nm), (k.otype ≠ 2, .seal, nameVal nm), (k.perm.getLsbD bit = false, .perm, nameVal nm)]
  let memory := fun (nm : Name) (k : Cap) (bit : Nat) =>
    [(k.tag = false, Cause.tag, nameVal nm), (s.revoked s.core k = true, .revoked, nameVal nm),
      (k.otype ≠ 0, .seal, nameVal nm), (k.perm.getLsbD bit = false, .perm, nameVal nm)]
  let aligned := fun (nm : Name) (k : Cap) => (k.addr.toNat % 16 ≠ 0, Cause.align, nameVal nm)
  let queued := fun (i : Instr) (r : SpillReq) (u : List Unacked) (t : State) =>
    t = { s with core := wentOn i s.core { s.core with
      pending := if r.kind = .spill then s.core.pending else (s.core.cancelRange x.addr.toNat n).pending,
      spillq := s.core.spillq ++ [r], nextId := s.core.nextId + 1, unacked := s.core.unacked ++ u } }
  let bytes := fun e : Nat => 8 * ((e + n + 1) / 2 * 2 - e / 2 * 2)
  let out := fun (lo top : Int) (x n : Nat) => (Outside lo top x n, Cause.bounds, firstOutside lo top x)
  let spill : SpillReq := ⟨.spill, y.addr.toNat, 0, x.addr, n, x.label, false, s.core.nextId, s.core.lo⟩
  let fill : SpillReq := ⟨.fill, 0, x.addr.toNat, y.addr, n, 0, y.perm.getLsbD 7, s.core.nextId, s.core.lo⟩
  (MayIssue (.lspill h d a b) s → Checked (.lspill h d a b) s
    (queued (.lspill h d a b) spill [⟨s.core.nextId, 1, false, s.core.lo, s.core.top, false, some spill⟩])
    ([count] ++ memory d x 1 ++
      [(∃ e, e % 2 = 0 ∧ y.addr.toNat ≤ e ∧ e + 1 < y.addr.toNat + n ∧ Unwritable x (s.core.capAt e), .perm, nameVal d)] ++
      lens a y 0 ++ [aligned d x, out y.base (min y.top 4096) y.addr.toNat n,
      out x.base x.top x.addr.toNat (bytes y.addr.toNat),
      (s.reach s.core x.addr (bytes y.addr.toNat) = none, .bounds, x.addr)])) ∧
  (MayIssue (.lfill h d a b) s → Checked (.lfill h d a b) s
    (queued (.lfill h d a b) fill (s.core.unacked.filterMap (fun u => u.spill.bind (fun r =>
      if s.imagesMeet s.core.phys r fill then some ⟨u.id, u.left, false, s.core.lo, s.core.top, false, none⟩ else none))))
    ([count] ++ lens d x 1 ++ memory a y 0 ++ [aligned a y, out x.base (min x.top 4096) x.addr.toNat n,
      out y.base y.top y.addr.toNat (bytes x.addr.toNat),
      (s.reach s.core y.addr (bytes x.addr.toNat) = none, .bounds, y.addr)])) ∧
  (MayIssue (.lmove h d a b) s → Checked (.lmove h d a b) s
    (queued (.lmove h d a b) ⟨.move, y.addr.toNat, x.addr.toNat, 0, n, 0, false, s.core.nextId, s.core.lo⟩ [])
    ([count] ++ lens d x 1 ++ lens a y 0 ++ [out x.base (min x.top 4096) x.addr.toNat n,
      out y.base (min y.top 4096) y.addr.toNat n]))

/-- R204, R205, R215: LD in its seven forms. -/
def Obligations.LoadResults : Prop := ∀ h : Hd,
  LoadForm (.ldS8 h) 1 true ∧ LoadForm (.ldZ8 h) 1 false ∧ LoadForm (.ldS16 h) 2 true ∧ LoadForm (.ldZ16 h) 2 false ∧
  LoadForm (.ldS32 h) 4 true ∧ LoadForm (.ldZ32 h) 4 false ∧ LoadForm (.ldD h) 8 false

/-- R204, R205, R215: ST in its four forms. -/
def Obligations.StoreResults : Prop := ∀ h : Hd,
  StoreForm (.stB h) 1 ∧ StoreForm (.stH h) 2 ∧ StoreForm (.stW h) 4 ∧ StoreForm (.stD h) 8

/-- R222: the atomics of both sizes. -/
def Obligations.AtomicResults : Prop := ∀ h : Hd,
  let low := fun m old y _e => if (BitVec.ofNat m y).toInt ≤ (BitVec.ofNat m old).toInt then y else old
  let high := fun m old y _e => if (BitVec.ofNat m y).toInt ≤ (BitVec.ofNat m old).toInt then old else y
  AtomicForm (.amoaddW h) 4 false false (fun old y _ => (old + y) % 2 ^ 32) ∧
  AtomicForm (.amoaddD h) 8 false false (fun old y _ => (old + y) % 2 ^ 64) ∧
  AtomicForm (.amoandW h) 4 false false (fun old y _ => old &&& y) ∧
  AtomicForm (.amoandD h) 8 false false (fun old y _ => old &&& y) ∧
  AtomicForm (.amoorW h) 4 false false (fun old y _ => old ||| y) ∧
  AtomicForm (.amoorD h) 8 false false (fun old y _ => old ||| y) ∧
  AtomicForm (.amoxorW h) 4 false false (fun old y _ => old ^^^ y) ∧
  AtomicForm (.amoxorD h) 8 false false (fun old y _ => old ^^^ y) ∧
  AtomicForm (.amominW h) 4 false false (low 32) ∧ AtomicForm (.amominD h) 8 false false (low 64) ∧
  AtomicForm (.amomaxW h) 4 false false (high 32) ∧ AtomicForm (.amomaxD h) 8 false false (high 64) ∧
  AtomicForm (.amominzW h) 4 false true (fun old y _ => min old y) ∧
  AtomicForm (.amominzD h) 8 false true (fun old y _ => min old y) ∧
  AtomicForm (.amomaxzW h) 4 false true (fun old y _ => max old y) ∧
  AtomicForm (.amomaxzD h) 8 false true (fun old y _ => max old y) ∧
  AtomicForm (.amoswapW h) 4 false false (fun _ y _ => y) ∧ AtomicForm (.amoswapD h) 8 false false (fun _ y _ => y) ∧
  AtomicForm (.amocasW h) 4 true false (fun old y e => if old = e then y else old) ∧
  AtomicForm (.amocasD h) 8 true false (fun old y e => if old = e then y else old)

/-- R216, R223: LDC, STC and AMOCASC move a capability whole, with its tag. -/
def Obligations.CapabilityMemory : Prop := ∀ (h : Hd) (d a b : Name) (off : Int) (ord : Ord) (scope : Scope) (s : State),
  let k := s.core.rdCap a
  let x := addrOf s a off
  let may := fun c : Cap => c.tag = false ∨ (k.perm.getLsbD 8 = true ∧ (c.perm.getLsbD 9 = true ∨ k.perm.getLsbD 10 = true))
  let kept := fun c : Cap => { s.sweptCap s.core c with tag := (s.sweptCap s.core c).tag && k.perm.getLsbD 7 }
  let word := fun c : Cap => fun y => if y < 8 then byteOf c.addr y else byteOf c.hi (y - 8)
  (MayIssue (.ldc h d a off) s → NoAcquire s.core → PortOpen s x 16 →
    Checked (.ldc h d a off) s
      (fun t => ∃ o p, s.reach s.core x 16 = some (o, p) ∧ LateIssued (.ldc h d a off) s t ∧ (s.core.pending = [] →
        CapWritten d (kept (s.granule (lsBase o + p))) (s.labelAt (lsBase o + p)) s.core t.core.landReady))
      (accessChecks s a k (k.perm.getLsbD 0 = true) 16 16 x none)) ∧
  (MayIssue (.stc h d a off) s → NoAcquire s.core → PortOpen s x 16 → PlainWrite s x 16 →
    Checked (.stc h d a off) s
      (StoreDone (.stc h d a off) x 16 (word (s.sweptCap s.core (s.core.rdCap d))) (s.core.capLabel d)
        (s.sweptCap s.core (s.core.rdCap d)).tag s)
      (accessChecks s a k (k.perm.getLsbD 1 = true ∧ may (s.core.rdCap d)) 16 16 x (some (s.core.capLabel d)))) ∧
  (MayIssue (.amocasc h d a b off ord scope) s → NoAcquire s.core → PortOpen s x 16 → PlainWrite s x 16 →
    ((ord = .rel ∨ ord = .ar ∨ ord = .sc) → s.core.unacked = []) → NoReplay s.core →
    ((ord = .acq ∨ ord = .ar ∨ ord = .sc) → NoBuffered s scope) →
    let lab := Label.max (s.core.capLabel b) (s.core.capLabel d)
    Checked (.amocasc h d a b off ord scope) s
      (fun t => ∃ o p, s.reach s.core x 16 = some (o, p) ∧
        let old := s.granule (lsBase o + p)
        let new := if old = s.core.rdCap d then s.sweptCap s.core (s.core.rdCap b) else old
        Stored (lsBase o + p) 16 (word new) lab new.tag s t ∧
        t = withMemory s t t.core ∧
        LateCore (.amocasc h d a b off ord scope) s.core t.core ∧ (s.core.pending = [] →
          CapWritten d (kept old) (s.labelAt (lsBase o + p)) s.core t.core.landReady))
      (accessChecks s a k ((k.perm.getLsbD 0 = true ∧ k.perm.getLsbD 1 = true) ∧ may (s.core.rdCap b)) 16 16 x (some lab)))

/-- R217: LDV and STV. -/
def Obligations.VectorMemory : Prop := ∀ (h : Hd) (d a : Name) (off : Int) (s : State),
  let k := s.core.rdCap a
  let x := addrOf s a off
  let e := s.core.physOf d
  (MayIssue (.ldv h d a off) s → NoAcquire s.core → PortOpen s x 32 →
    Checked (.ldv h d a off) s
      (fun t => ∃ o p, s.reach s.core x 32 = some (o, p) ∧ LateIssued (.ldv h d a off) s t ∧ (s.core.pending = [] →
        VecWritten d (fun i => ⟨BitVec.ofNat 64 (s.numAt (lsBase o + p + 8 * i) 8), s.labelAt (lsBase o + p)⟩)
          s.core t.core.landReady))
      (accessChecks s a k (k.perm.getLsbD 0 = true) 32 32 x none)) ∧
  (MayIssue (.stv h d a off) s → NoAcquire s.core → PortOpen s x 32 → PlainWrite s x 32 → ∀ l : Label,
    Highest (fun y => ∃ i, i < 4 ∧ y = (s.core.ent (e + i)).l) l →
    Checked (.stv h d a off) s
      (StoreDone (.stv h d a off) x 32 (fun y => byteOf (s.core.ent (e + y / 8)).v (y % 8)) l false s)
      (accessChecks s a k (k.perm.getLsbD 1 = true) 32 32 x (some l)))

/-- R220, R483: LDA and STL, one access of the whole, with their orders; an LDA at clus scope or wider lands behind the writes that its
cluster's inbound card buffer holds. -/
def Obligations.OrderedAccesses : Prop := ∀ (h : Hd) (d a : Name) (off : Int) (typ : Ty) (ord : Ord) (scope : Scope)
  (s : State), let k := s.core.rdCap a
  let x := addrOf s a off
  (∀ (n : Nat) (signed : Bool), (typ, n, signed) ∈ [(Ty.s8, 1, true), (.sz8, 1, false), (.s16, 2, true), (.sz16, 2, false),
      (.s32, 4, true), (.sz32, 4, false), (.ld, 8, false)] → MayIssue (.lda h d a off typ ord scope) s → NoAcquire s.core →
    PortOpen s x n → (ord = .sc → s.core.unacked = []) →
    Checked (.lda h d a off typ ord scope) s
      (fun t => (∃ p ∈ t.core.pending, p.acq = true) ∧ (NoBuffered s scope → Loads (.lda h d a off typ ord scope) d x n signed s t) ∧
        (¬ NoBuffered s scope → LateCore (.lda h d a off typ ord scope) s.core t.core ∧
          ∃ p ∈ t.core.pending, p.id = s.core.nextId ∧ p.left = (s.bufAt (bufKey s.core.phys)).length))
      (accessChecks s a k (k.perm.getLsbD 0 = true) n n x none)) ∧
  (∀ n : Nat, (typ, n) ∈ [(Ty.sb, 1), (.sh, 2), (.sw, 4), (.sd, 8)] → MayIssue (.stl h d a off typ ord scope) s →
    NoAcquire s.core → PortOpen s x n → PlainWrite s x n → s.core.unacked = [] →
    Checked (.stl h d a off typ ord scope) s
      (StoreDone (.stl h d a off typ ord scope) x n (byteOf (s.core.rd d).v) (s.core.rd d).l false s)
      (accessChecks s a k (k.perm.getLsbD 1 = true) n n x (some (s.core.rd d).l))) ∧
  (MayIssue (.stl h d a off typ ord scope) s → s.core.unacked ≠ [] → NoAcquire s.core →
    (∀ f ∈ accessChecks s a k (k.perm.getLsbD 1 = true) (storeType typ) (storeType typ) x (some (s.core.rd d).l), ¬ f.1) →
    exec (.stl h d a off typ ord scope) s = .next { s with core := { s.core with stalled := true } })

/-- R218, R219: LDVG, LDVG.nf and STVS, lane by lane.  Each completes where no lane that it performs has to wait, LDVG and STVS where no
lane faults; else LDVG and STVS trap behind the lanes that they perform, with the masks of the lanes that fault and of those that fault by
alignment in sy.tval, and a LABEL of STVS, whose sy.tval is its lane's address, comes before any lane. -/
def Obligations.GatherAndScatter : Prop := ∀ (h : Hd) (d a b : Name) (off : Int) (mk o : Nat) (typ : Ty) (s : State),
  let k := s.core.rdCap a
  let gather := Instr.ldvg h d a b off mk typ
  let gatherNf := Instr.ldvgNf h d a b (.o o) off mk typ
  let scatter := Instr.stvs h d a b off mk typ
  let usable := fun bit => k.tag = true ∧ s.revoked s.core k = false ∧ k.otype = 0 ∧ k.perm.getLsbD bit = true
  let landed := fun (q : Core → Prop) (t : State) => s.core.pending = [] →
    ∃ vs, GatheredInto d a b off mk s vs ∧ (∀ j, j < 4 → t.core.landReady.ent (s.core.physOf d + j) = vs j) ∧
      (∀ e, e < s.core.physOf d ∨ s.core.physOf d + 4 ≤ e → t.core.landReady.ent e = s.core.ent e) ∧
      t.core.landReady.q = s.core.q ∧ q t.core.landReady
  let plain := fun i => PlainWrite s (laneAddr s a b off i) 4
  NoAcquire s.core → (∀ i, LanePerformed s a b off mk i → PortOpen s (laneAddr s a b off i) 4) → s.hold = false →
  (MayIssue gather s → usable 0 → (∀ i, ¬ LaneFaults s a b off mk i) →
    ∃ t, exec gather s = .next t ∧ LateIssued gather s t ∧ landed (fun c => c.opf = s.core.opf) t) ∧
  (MayIssue gatherNf s → usable 0 → 1 ≤ o → o < 8 →
    ∃ t, exec gatherNf s = .next t ∧ LateIssued gatherNf s t ∧ landed (fun c => (c.rd (.o o)).l = 0 ∧ (c.rd (.o o)).v.toNat < 256 ∧
        (∀ i, i < 8 → ((c.rd (.o o)).v.getLsbD i = true ↔ LaneFaults s a b off mk i)) ∧
        ∀ y, y ≠ o → c.rd (.o y) = s.core.rd (.o y)) t) ∧
  (MayIssue scatter s → usable 1 → (∀ i, ¬ LaneFaults s a b off mk i) →
    (∀ i, LanePerformed s a b off mk i → plain i ∧ ¬ LaneLabelled d a b off mk s i) →
    ∃ t, exec scatter s = .next t ∧ Scattered d a b off mk s t ∧
      t = withMemory s t (wentOn scatter s.core { s.core with nextId := t.core.nextId })) ∧
  (MayIssue gather s → TrapsBy gather s (useChecks s a k (k.perm.getLsbD 0 = true))) ∧
  (MayIssue gatherNf s → TrapsBy gatherNf s (useChecks s a k (k.perm.getLsbD 0 = true))) ∧
  (MayIssue scatter s → TrapsBy scatter s (useChecks s a k (k.perm.getLsbD 1 = true))) ∧
  (MayIssue gather s → usable 0 → (∃ i, LaneFaults s a b off mk i) → ∃ (t : State) (v : Word), LaneValue s a b off mk v ∧
    exec gather s = .next (t.raise .bounds v) ∧ ((∀ i, ¬ LanePerformed s a b off mk i) → t = s) ∧
    ((∃ i, LanePerformed s a b off mk i) → landed (fun c => c.opf = s.core.opf) t ∧
      t = { s with core := { s.core with pending := t.core.pending, nextId := s.core.nextId + 1 } })) ∧
  (MayIssue scatter s → usable 1 → ∀ i, LaneLabelled d a b off mk s i → (∀ j, j < i → ¬ LaneLabelled d a b off mk s j) →
    exec scatter s = .next (s.raise .label (laneAddr s a b off i))) ∧
  (MayIssue scatter s → usable 1 → (∃ i, LaneFaults s a b off mk i) →
    (∀ i, LanePerformed s a b off mk i → plain i ∧ ¬ LaneLabelled d a b off mk s i) →
    ∃ (t : State) (v : Word), LaneValue s a b off mk v ∧ exec scatter s = .next (t.raise .bounds v) ∧ Scattered d a b off mk s t ∧
      t = withMemory s t { s.core with nextId := t.core.nextId })

/-- R210, R212, R224, R463: BSLEEP and BWAKE. -/
def Obligations.BankGroups : Prop := ∀ (h : Hd) (g : Nat) (s : State), (g = 1 ∨ g = 2) →
  let setTo := fun (x : GroupSt) (c : Core) => if g = 1 then { c with g1 := x } else { c with g2 := x }
  let wakes := fun c : Core => if c.groupSt g = .sleeping then setTo .waking c else c
  let lies := fun y => lsBase s.core.phys + 0x20000 * g ≤ y ∧ y < lsBase s.core.phys + 0x20000 * g + 0x20000
  let engine := [(isGateway s.core.phys = true, Cause.illegal, BitVec.ofNat 64 s.core.word)]
  (MayIssue (.bsleep h g) s → s.core.portq = [] → s.core.spillq = [] → s.core.groupSt g = .awake →
    Checked (.bsleep h g) s (fun t => (∀ y, lies y → t.byteAt y = 0 ∧ t.labelAt y = 0 ∧ t.memTagAt y = false) ∧
      (∀ y, ¬ lies y → t.byteAt y = s.byteAt y ∧ t.labelAt y = s.labelAt y ∧ t.memTagAt y = s.memTagAt y) ∧
      t = withMemory s t (wentOn (.bsleep h g) s.core (setTo .sleeping s.core))) engine) ∧
  (MayIssue (.bsleep h g) s → s.core.portq = [] → s.core.spillq = [] → s.core.groupSt g = .sleeping →
    Checked (.bsleep h g) s (Passed (.bsleep h g) s) engine) ∧
  (MayIssue (.bwake h g) s → Checked (.bwake h g) s
    (fun t => t = { s with core := wentOn (.bwake h g) s.core (wakes s.core) }) engine)

/-- R72, R475, R479, R480: SRD, SWR and BKPT. -/
def Obligations.SystemRegisters : Prop := ∀ (h : Hd) (d a : Name) (reg : Nat) (s : State), reg < 23 →
  let k := s.core.rdCap a
  let readable := s.core.mode = .u → reg = 0 ∨ 7 ≤ reg
  let writable := (s.core.mode = .u → reg = 12 ∨ reg = 16) ∧
    (reg = 0 ∨ reg = 1 ∨ reg = 2 ∨ reg = 3 ∨ reg = 4 ∨ reg = 5 ∨ reg = 6 ∨ reg = 12 ∨ reg = 13 ∨ reg = 14 ∨ reg = 15 ∨ reg = 16 ∨ reg = 22)
  let isCap := 3 ≤ reg ∧ reg ≤ 6
  let denied : Prop × Cause × Word := (¬ readable, .priv, BitVec.ofNat 64 s.core.word)
  let refused : Prop × Cause × Word := (¬ writable, .priv, BitVec.ofNat 64 s.core.word)
  let after := if reg = 3 then { s.core with epcc := k } else if reg = 4 then { s.core with elens := k }
    else if reg = 5 then { s.core with hlens := k } else { s.core with hpcc := k }
  let held := if reg = 3 then s.core.epcc else if reg = 4 then s.core.elens else if reg = 5 then s.core.hlens else s.core.hpcc
  (MayIssue (.srd h d reg) s → isCap → Checked (.srd h d reg) s (fun t => LateIssued (.srd h d reg) s t ∧
    (s.core.pending = [] → CapWritten d held 0 s.core t.core.landReady)) [denied]) ∧
  (MayIssue (.srd h d reg) s → ¬ isCap → reg ≠ 19 → ∃ v : Word,
    (reg = 0 → v.toNat = 4 * s.core.prevMode.code + s.core.mode.code) ∧ (reg = 1 → v.toNat = s.core.cause.toNat) ∧
    (reg = 2 → v = s.core.tval) ∧ (reg = 7 → v = BitVec.ofNat 64 (s.rankOf s.core)) ∧ (reg = 8 → v = BitVec.ofNat 64 s.core.phys) ∧
    (reg = 9 → v = BitVec.ofNat 64 (s.partOf s.core).base) ∧ (reg = 10 → v = BitVec.ofNat 64 (s.partOf s.core).len) ∧
    (reg = 11 → v = BitVec.ofNat 64 s.core.part) ∧ (reg = 12 → v.toNat = s.core.evt.toNat) ∧
    (reg = 13 → v.toNat = s.core.evmask.toNat) ∧ (reg = 14 → v = s.core.fpsup) ∧
    (reg = 15 → v.getLsbD 63 = s.core.rptValid ∧ (s.core.rptRemain < 128 → v.toNat % 2 ^ 63 = s.core.rptRemain)) ∧
    (reg = 16 → s.core.pair.n < 512 → v.toNat = s.core.pair.n + s.core.pair.report.toNat * 2 ^ 9 +
      s.core.pair.partner.toNat * 2 ^ 12 + s.core.pair.pstate.code * 2 ^ 16 + s.core.pair.intv.toNat * 2 ^ 32 +
      s.core.pair.rbcount.toNat * 2 ^ 48) ∧
    (reg = 17 → v.toNat = s.core.gang.members.toNat + s.core.gang.fused.toNat * 2 ^ 16 + s.core.gang.lsize.toNat * 2 ^ 17 +
      s.core.gang.leader.toNat * 2 ^ 24 + s.core.gang.cause.toNat * 2 ^ 28) ∧ (reg = 18 → v = BitVec.ofNat 64 s.clock) ∧
    (reg = 20 → (s.core.kernel = none → v = 0) ∧ ∀ n x y, s.core.kernel = some n → s.kernels.listed n = some x →
      x.teams[s.core.team]? = some y → v = if x.cls = 1 then BitVec.ofNat 64 (y.left - y.ran s.clock) else 0) ∧
    (reg = 21 → v.toNat / 2 ^ 32 = min s.kills (2 ^ 32 - 1) ∧
      v.toNat / 2 ^ 16 % 2 ^ 16 = s.pcdrop.look (fun _ => 0) (s.homeDie s.core.phys) % 256 ∧
      v.toNat / 2 ^ 8 % 2 ^ 8 = s.spused.look (fun _ => 0) (s.homeDie s.core.phys) % 256 ∧
      (v.toNat % 2 ^ 8 = 2 ↔ (∃ e ∈ s.spused, e.2 = 8) ∨ ∃ e ∈ s.pcdrop, 2 ≤ e.2) ∧
      (v.toNat % 2 ^ 8 = 0 ↔ (∀ e ∈ s.spused, e.2 = 0) ∧ ∀ e ∈ s.pcdrop, e.2 = 0) ∧ v.toNat % 2 ^ 8 < 3) ∧
    (reg = 22 → v = s.core.ptimer) ∧
    Checked (.srd h d reg) s (WordLate (.srd h d reg) d ⟨v, 0⟩ false s) [denied]) ∧
  (MayIssue (.srd h d 19) s → ∃ v : Word, Completes (.srd h d 19) s (fun t => t.freeCtr = s.freeCtr + 1 ∧
    WordLate (.srd h d 19) d ⟨v, 0⟩ false s { t with freeCtr := s.freeCtr })) ∧
  (MayIssue (.swr h a reg) s → isCap → Checked (.swr h a reg) s
    (fun t => t = { s with core := wentOn (.swr h a reg) s.core after })
    (refused :: (k.tag = false, .tag, nameVal a) ::
      if reg = 4 ∨ reg = 5 then
        [(k.otype ≠ 2, .seal, nameVal a), (k.perm.getLsbD 0 = false ∨ k.perm.getLsbD 1 = false, .perm, nameVal a),
          (4096 < k.top ∨ k.top - k.base < 1 ∨ 4080 < k.top - k.base ∨ (k.addr.toNat : Int) < k.base + 1 ∨
            k.top < k.addr.toNat, .bounds, k.addr)]
      else [(k.otype ≠ 0, .seal, nameVal a)])) ∧
  (MayIssue (.swr h a reg) s → ¬ isCap → ∃ c : Core,
    (let v := (s.core.rd a).v
     (reg = 0 → ∃ m, c = { s.core with prevMode := m } ∧ (v.toNat / 4 % 4 = 0 → m = .u) ∧ (v.toNat / 4 % 4 = 1 → m = .s) ∧
       (v.toNat / 4 % 4 = 2 → m = if s.core.mode = .f then .f else s.core.prevMode) ∧ (v.toNat / 4 % 4 = 3 → m = s.core.prevMode)) ∧
     (reg = 1 → c = { s.core with cause := v.extractLsb' 0 8 }) ∧ (reg = 2 → c = { s.core with tval := v }) ∧
     (reg = 12 → c = { s.core with evt := s.core.evt &&& ~~~(v.extractLsb' 0 32) }) ∧
     (reg = 13 → c = { s.core with evmask := v.extractLsb' 0 32 }) ∧ (reg = 14 → c = { s.core with fpsup := v }) ∧
     (reg = 15 → c = { s.core with rptValid := v.getLsbD 63, rptRemain := v.toNat % 128 }) ∧
     (reg = 16 → c.pair = ⟨s.core.pair.rbcount, s.core.pair.intv, s.core.pair.pstate, s.core.pair.partner, v.getLsbD 9,
       max 16 (min 256 (v.toNat % 512))⟩ ∧ c = { s.core with pair := c.pair }) ∧
     (reg = 22 → c = { s.core with ptimer := v })) ∧
    Checked (.swr h a reg) s (fun t => t = { s with core := wentOn (.swr h a reg) s.core c }) [refused]) ∧
  (MayIssue (.bkpt h) s → TakesTraps s → Completes (.bkpt h) s (Entered 0x13 0 s.core.pc s))

/-- R305 to R311, R325, R326: BARA, BARW, SEMP and SEMV on the object that their capability names. -/
def Obligations.BarriersAndSemaphores : Prop := ∀ (h : Hd) (a : Name) (s : State),
  let obj := objectOf s a
  let parties := (s.named s.core (s.core.rdCap a)).parties
  let b := s.barAt obj
  let m := s.semAt obj
  let n := if b.arrived = 0 then parties else b.parties
  let arrived := { s.core with arrivals := s.core.arrivals ++ [⟨obj, b.phase⟩] }
  Single s → ObjectOpen s a →
  (MayIssue (.bara h a) s → ReleasesAtOnce s a → s.core.arrivals.length < 4 → (b.arrived = 0 ∨ b.parties = parties) →
    (∀ r ∈ s.core.arrivals, r.obj = obj → b.phase ≠ r.phase) → b.parked = [] →
    Checked (.bara h a) s (fun t =>
      t.barAt obj = (if b.arrived + 1 < n then ⟨b.phase, b.arrived + 1, n, []⟩ else ⟨(b.phase + 1) % 65536, 0, 0, []⟩) ∧
      (∀ y, y ≠ obj → t.barAt y = s.barAt y) ∧
      t = { s with bars := t.bars, core := wentOn (.bara h a) s.core arrived }) (objectChecks s a false)) ∧
  (MayIssue (.bara h a) s → ReleasesAtOnce s a → s.core.arrivals.length < 4 → b.arrived ≠ 0 → b.parties ≠ parties →
    (∀ r ∈ s.core.arrivals, r.obj = obj → b.phase ≠ r.phase) → (∀ f ∈ objectChecks s a false, ¬ f.1) →
    exec (.bara h a) s = .next (s.raise .bounds (s.core.rdCap a).addr)) ∧
  (MayIssue (.barw h a) s → (∀ r ∈ s.core.arrivals, r.obj = obj → b.phase ≠ r.phase) →
    (0x8000 ≤ obj ∨ s.bufAt (bufKey s.core.phys) = []) →
    Checked (.barw h a) s (Passed (.barw h a) s) (objectChecks s a false)) ∧
  (MayIssue (.barw h a) s → (∃ rs, s.core.arrivals = rs ++ [⟨obj, b.phase⟩]) → (∀ f ∈ objectChecks s a false, ¬ f.1) →
    Waits (.barw h a) s) ∧
  (MayIssue (.semp h a) s → m.count ≠ 0 → (m.waiters = [] ∨ m.waiters = [.core s.core.phys]) →
    Checked (.semp h a) s (fun t => t.semAt obj = ⟨m.count - 1, []⟩ ∧ (∀ y, y ≠ obj → t.semAt y = s.semAt y) ∧
      Passed (.semp h a) s { t with sems := s.sems }) (objectChecks s a true)) ∧
  (MayIssue (.semp h a) s → m.count = 0 → m.waiters = [] → (∀ f ∈ objectChecks s a true, ¬ f.1) →
    Completes (.semp h a) s (fun t => t.semAt obj = ⟨0, [.core s.core.phys]⟩ ∧ (∀ y, y ≠ obj → t.semAt y = s.semAt y) ∧
      t = { s with sems := t.sems, core := { s.core with stalled := true, waiting := some obj } })) ∧
  (MayIssue (.semv h a) s → ReleasesAtOnce s a → m.waiters = [] →
    Checked (.semv h a) s (fun t => t.semAt obj = ⟨min 65535 (m.count + 1), []⟩ ∧ (∀ y, y ≠ obj → t.semAt y = s.semAt y) ∧
      Passed (.semv h a) s { t with sems := s.sems }) (objectChecks s a true))

/-- R312, R323, R324, R328, R329, R483: WFE, SEV, FENCE, SEND and RECV.  That an acquiring FENCE itself waits, for loads and atomics
whose value nobody takes as well, is the model's choice (notes/assumptions/21.md); one at clus scope or wider is behind the writes that the cluster's inbound card buffer holds. -/
def Obligations.EventsAndMessages : Prop := ∀ (h : Hd) (d a b : Name) (ord : Ord) (scope : Scope) (s : State),
  let r := (s.core.rd a).v
  let m : BitVec 32 := if r.extractLsb' 0 32 = 0 then 0xFFFFFFFF else r.extractLsb' 0 32
  let taken := s.core.evt &&& m
  let kinds := if r.toNat % 16 = 0 then 15 else r.toNat % 16
  let isRel := ord = .rel ∨ ord = .ar ∨ ord = .sc
  (MayIssue (.wfe h d a) s → taken ≠ 0 → Completes (.wfe h d a) s (fun t => t.core.evt = s.core.evt &&& ~~~taken ∧
    WordLate (.wfe h d a) d ⟨taken.setWidth 64, 0⟩ false s { t with core := { t.core with evt := s.core.evt } })) ∧
  (MayIssue (.wfe h d a) s → taken = 0 → Waits (.wfe h d a) s) ∧
  (MayIssue (.sev h a b) s → s.hold = true → NoAcquire s.core → ∀ q, s.ofRank s.core r.toNat = some q →
    exec (.sev h a b) s = .next { s with
      core := wentOn (.sev h a b) s.core (sending s.core),
      signals := s.signals ++ [⟨q, (((s.core.rd b).v.extractLsb' 0 16).setWidth 32), (s.core.phys, s.core.nextId), s.core.part⟩] }) ∧
  (MayIssue (.sev h a b) s → (s.partOf s.core).len ≤ r.toNat → exec (.sev h a b) s = .next (s.raise .bounds r)) ∧
  (MayIssue (.fence h ord scope) s → (ord ≠ .rel → s.core.pending = [] ∧ NoBuffered s scope) → (ord ≠ .acq → s.core.unacked = []) →
    Completes (.fence h ord scope) s (Passed (.fence h ord scope) s)) ∧
  (MayIssue (.fence h ord scope) s → ord ≠ .rel → s.core.pending = [] → ¬ NoBuffered s scope → (ord ≠ .acq → s.core.unacked = []) →
    Completes (.fence h ord scope) s (fun t => t = { s with cardbuf := t.cardbuf, core := wentOn (.fence h ord scope) s.core { s.core with
        drain := some (s.core.nextId, (s.bufAt (bufKey s.core.phys)).length), nextId := s.core.nextId + 1 } } ∧
      (∀ x, x ≠ bufKey s.core.phys → t.bufAt x = s.bufAt x) ∧
      t.bufAt (bufKey s.core.phys) = (s.bufAt (bufKey s.core.phys)).map (fun w =>
        { w with notify := w.notify ++ [(s.core.phys, s.core.nextId)] }))) ∧
  (MayIssue (.fence h ord scope) s → ord ≠ .rel → (∃ p ∈ s.core.pending, p.left ≠ 0 ∨ ∃ w ∈ p.writes, w.tgt.real = true) →
    Waits (.fence h ord scope) s) ∧
  (MayIssue (.fence h ord scope) s → ord ≠ .acq → s.core.unacked ≠ [] → Waits (.fence h ord scope) s) ∧
  (MayIssue (.send h a b ord scope) s → s.hold = true → NoAcquire s.core → (isRel → s.core.unacked = []) →
    ∀ q, s.ofRank s.core r.toNat = some q → ∃ msg : InMsg,
      msg.kind = .msg ∧ msg.words = (List.range 4).map (fun i => (s.core.ent (s.core.physOf b + i)).v) ∧
      msg.src = s.rankOf s.core ∧ Highest (fun l => ∃ i, i < 4 ∧ l = (s.core.ent (s.core.physOf b + i)).l) msg.lab ∧
      exec (.send h a b ord scope) s = .next { s with
        core := wentOn (.send h a b ord scope) s.core (sending s.core),
        flights := s.flights ++ [⟨q, msg, some (s.core.phys, s.core.nextId), s.core.part⟩] }) ∧
  (MayIssue (.send h a b ord scope) s → (s.partOf s.core).len ≤ r.toNat →
    exec (.send h a b ord scope) s = .next (s.raise .bounds r)) ∧
  (MayIssue (.recv h d a ord scope) s → s.hold = true → NoAcquire s.core → NoReplay s.core →
    ((ord = .acq ∨ ord = .ar ∨ ord = .sc) → NoBuffered s scope) → ∀ (before rest : List InMsg) (x : InMsg),
    s.core.inbox = before ++ x :: rest → (∀ y ∈ before, kinds.testBit y.kind.code = false) → kinds.testBit x.kind.code = true →
    Completes (.recv h d a ord scope) s (fun t =>
      t = { s with core := t.core } ∧ t.core.inbox = before ++ rest ∧
      LateCore (.recv h d a ord scope) { s.core with inbox := before ++ rest } t.core ∧ (s.core.pending = [] →
        VecWritten d (fun i => ⟨x.words.getD i 0, x.lab⟩) { s.core with
          q := ⟨BitVec.ofNat 64 (x.kind.code * 2 ^ 32 + if x.kind = .punt then 0x1FFF else x.src), 0⟩ } t.core.landReady))) ∧
  (MayIssue (.recv h d a ord scope) s → NoAcquire s.core → NoReplay s.core → (∀ y ∈ s.core.inbox, kinds.testBit y.kind.code = false) →
    Waits (.recv h d a ord scope) s)

/-- R315 to R320, R327, R328: WAITVA, WAKEVA and MPOST. -/
def Obligations.WaitsAndMailboxes : Prop := ∀ (h : Hd) (a b : Name) (ord : Ord) (scope : Scope) (s : State),
  let k := s.core.rdCap a
  let w := Instr.waitva h a b ord scope
  let of := fun (key : WaitKey) (e : WaitEntry) => decide (e.key = key ∧ e.part = s.core.part)
  let mine := fun key : WaitKey => s.waits.filter (of key)
  let isRel := ord = .rel ∨ ord = .ar ∨ ord = .sc
  (MayIssue w s → NoReplay s.core → s.core.woken = true → ((ord = .acq ∨ ord = .ar ∨ ord = .sc) → NoBuffered s scope) →
    Completes w s (Passed w s)) ∧
  (MayIssue w s → NoAcquire s.core → NoReplay s.core → s.core.woken = false → (∀ e ∈ s.waits, e.who ≠ .core s.core.phys) → ∀ o off,
    s.waitKey s.core k.addr = some (.store o off) → PortFree s o off 8 →
    (s.numAt (lsBase o + off) 8 ≠ (s.core.rd b).v.toNat → Checked w s (Passed w s) (keyChecks s a 0)) ∧
    (s.numAt (lsBase o + off) 8 = (s.core.rd b).v.toNat → s.waits.length < 65536 → Checked w s
      (fun t => t.waits = s.waits ++ [⟨.store o off, s.core.part, .core s.core.phys⟩] ∧
        t = { s with core := { s.core with stalled := true }, waits := t.waits }) (keyChecks s a 0))) ∧
  (MayIssue w s → NoAcquire s.core → NoReplay s.core → s.core.woken = false → (∀ e ∈ s.waits, e.who ≠ .core s.core.phys) →
    s.waits.length < 65536 → k.addr.toNat < 2 ^ 47 → Checked w s
      (fun t => t.waits = s.waits ++ [⟨.virt k.addr.toNat, s.core.part, .core s.core.phys⟩] ∧
        t = { s with core := { s.core with stalled := true }, waits := t.waits }) (keyChecks s a 0)) ∧
  (MayIssue (.wakeva h a b ord scope) s → NoAcquire s.core → (isRel → s.core.unacked = []) → ∀ key,
    s.waitKey s.core k.addr = some key → (∀ e ∈ s.waits, ∃ p, e.who = .core p) →
    let n := (s.core.rd b).v.toNat % 65536
    let woken := if n = 0 then mine key else (mine key).take n
    Checked (.wakeva h a b ord scope) s
      (fun t => t.waits.Sublist s.waits ∧ t.waits.filter (of key) = (mine key).drop woken.length ∧
        t.waits.filter (fun e => !of key e) = s.waits.filter (fun e => !of key e) ∧ t.mem = s.mem ∧
        (∀ e ∈ woken, ∀ p, e.who = .core p → p ≠ s.core.phys → (t.coreAt p).woken = true) ∧
        (∀ p, p ≠ s.core.phys → (∀ e ∈ woken, e.who ≠ .core p) → t.coreAt p = s.coreAt p)) (keyChecks s a 1)) ∧
  (MayIssue (.mpost h a b ord scope) s → NoAcquire s.core → (isRel → s.core.unacked = []) → ∀ o off,
    s.mailbox s.core k = some (o, off) → PortFree s o off 64 → (s.coreAt o).paired = false →
    let block := lsBase o + off
    let state := s.numAt (block + 48) 8
    let checks : List (Prop × Cause × Word) :=
      [(k.tag = false, .tag, nameVal a), (k.otype ≠ 3, .seal, nameVal a), (k.perm.getLsbD 3 = false, .perm, nameVal a)]
    (state % 4 = 0 → (∀ e ∈ s.posters, e.1 ≠ block ∧ e.2 ≠ s.core.phys) → ∀ l : Label, Highest (fun x => ∃ i, i < 4 ∧ x = (s.core.ent (s.core.physOf b + i)).l) l →
      Checked (.mpost h a b ord scope) s
      (fun t => t = withMemory s t (wentOn (.mpost h a b ord scope) s.core s.core) ∧
        (∀ y, y < 32 → t.byteAt (block + y) = byteOf (s.core.ent (s.core.physOf b + y / 8)).v (y % 8)) ∧
        t.numAt (block + 48) 8 = 2 + l.toNat * 2 ^ 8 + state / 2 ^ 32 % 2 ^ 32 * 2 ^ 32 ∧ t.labelAt block = Label.max (s.labelAt block) l ∧
        (∀ y, y < block ∨ block + 56 ≤ y → t.byteAt y = s.byteAt y)) checks) ∧
    ((state % 4 = 2 ∨ (state % 4 ≠ 3 ∧ ∃ p before after, s.posters = before ++ (block, p) :: after ∧
        (∀ e ∈ before, e.1 ≠ block) ∧ p ≠ s.core.phys)) → (∀ e ∈ s.posters, e.2 ≠ s.core.phys) → (∀ f ∈ checks, ¬ f.1) →
      exec (.mpost h a b ord scope) s = .next { s with
        posters := s.posters ++ [(block, s.core.phys)], core := { s.core with stalled := true } }) ∧
    (state % 4 = 3 → (∀ f ∈ checks, ¬ f.1) → exec (.mpost h a b ord scope) s = .next (s.raise .revoked k.addr)))

/-- R345 to R347, R353 to R359: QPUSH, QPOP, QPOPG and QSTAT on a queue whose entries stand in its segment. -/
def Obligations.QueueInstructions : Prop := ∀ (h : Hd) (d a b : Name) (rsv : Nat) (s : State),
  let k := s.core.rdCap a
  let n := k.addr.toNat
  let q := s.queueAt n
  let count := (q.tail + 2 ^ 64 - q.head) % 2 ^ 64
  let same := fun t : State => ∀ m, m ≠ n → t.queueAt m = s.queueAt m
  let pushed := fun (i : Instr) (st : Nat) (e : QEntry) (t : State) =>
    WordPut i d ⟨BitVec.ofNat 64 st, 0⟩ s { t with queues := s.queues } ∧ same t ∧ t.queueAt n =
      if st = 0 then { q with tail := (q.tail + 1) % 2 ^ 64, seg := q.seg ++ [e], since := if count = 0 then s.clock else q.since } else q
  let popped := fun (i : Instr) (t : State) => ∀ e rest, q.seg = e :: rest →
    t = { s with core := t.core, queues := t.queues } ∧ LateCore i s.core t.core ∧ same t ∧
    t.queueAt n = { q with seg := rest, head := (q.head + 1) % 2 ^ 64, since := s.clock } ∧ (s.core.pending = [] →
      RecordWritten d e (k.perm.getLsbD 7) (BitVec.ofNat 64 (min ((q.tail + 2 ^ 64 - (q.head + 1) % 2 ^ 64) % 2 ^ 64) (2 ^ 32 - 1) * 2 ^ 16))
        s.core t.core.landReady)
  s.hold = true → NoAcquire s.core → NoReplay s.core → q.bin = false →
  (count < 16 → q.seg.length = count → q.parked = [] → q.pushers = [] → s.core.unacked = [] →
    ∃ e, IsEntry s.core b e ∧
    (MayIssue (.qpush h d a b rsv) s → Checked (.qpush h d a b rsv) s
      (pushed (.qpush h d a b rsv) (pushCode q (decide (rsv = 1))) e) (pushChecks s a b (decide (rsv = 1)))) ∧
    (MayIssue (.qpushWait h d a b) s → pushCode q false ≠ 2 → Checked (.qpushWait h d a b) s
      (pushed (.qpushWait h d a b) (pushCode q false) e) (pushChecks s a b false))) ∧
  (q.part ≠ 0 → q.st = .on → (q.kind = 0 ∨ q.kind = 3) → q.seg ≠ [] → q.seg.length ≤ count → s.heldq = [] → s.bufAt (bufKey s.core.phys) = [] →
    (MayIssue (.qpop h d a) s → Checked (.qpop h d a) s (popped (.qpop h d a)) (queueChecks a k 0)) ∧
    (MayIssue (.qpopg h d a) s → Checked (.qpopg h d a) s (popped (.qpopg h d a)) (queueChecks a k 0))) ∧
  (q.part ≠ 0 → q.st = .on → q.kind ≠ 2 → count = 0 → s.heldq = [] → s.bufAt (bufKey s.core.phys) = [] → MayIssue (.qpop h d a) s → Checked (.qpop h d a) s (fun t => LateIssued (.qpop h d a) s t ∧
    (s.core.pending = [] → t.core.landReady.q = ⟨1, 0⟩ ∧ t.core.landReady.regs = s.core.regs)) (queueChecks a k 0)) ∧
  (MayIssue (.qstat h d a) s → Checked (.qstat h d a) s (WordLate (.qstat h d a) d
    ⟨BitVec.ofNat 64 (min count (2 ^ 32 - 1) + (match q.st with
      | .off => 0
      | .on => 1
      | .stopped => 2
      | .fault => 3) * 2 ^ 32 +
      (if q.parked = [] then 0 else 2 ^ 40) + (if ∃ x ∈ s.heldq, x.queue = some n then 2 ^ 41 else 0)), 0⟩ false s)
    (queueChecks a k 0))

/-- R177, R178, R184, R185: the integer lanes and VLOGT, lane by lane, with one label for all. -/
def Obligations.IntegerLanes : Prop := ∀ h : Hd,
  LaneForm (.vadd h) false (fun _ w _ x y r => r = (x + y) % 2 ^ w) ∧
  LaneForm (.vsub h) false (fun _ w _ x y r => r = (x + 2 ^ w - y) % 2 ^ w) ∧
  LaneForm (.vmul h) false (fun _ w _ x y r => r = x * y % 2 ^ w) ∧
  LaneForm (.vmad h) true (fun _ w z x y r => r = (z + x * y) % 2 ^ w) ∧
  LaneForm (.vmin h) false (fun sg w _ x y r => r = if elemInt sg w x ≤ elemInt sg w y then x else y) ∧
  LaneForm (.vmax h) false (fun sg w _ x y r => r = if elemInt sg w x ≤ elemInt sg w y then y else x) ∧
  LaneForm (.vand h) false (fun _ _ _ x y r => r = x &&& y) ∧
  LaneForm (.vor h) false (fun _ _ _ x y r => r = x ||| y) ∧
  LaneForm (.vxor h) false (fun _ _ _ x y r => r = x ^^^ y) ∧
  LaneForm (.vshl h) false (fun _ w _ x y r => r = x * 2 ^ (y % w) % 2 ^ w) ∧
  LaneForm (.vshr h) false (fun _ w _ x y r => r = x / 2 ^ (y % w)) ∧
  LaneForm (.vsar h) false (fun _ w _ x y r => elemInt true w r = elemInt true w x / 2 ^ (y % w)) ∧
  LaneForm1 (.vabs h) (fun w x r => if x = 2 ^ (w - 1) then r = x else elemInt true w r = (elemInt true w x).natAbs) ∧
  LaneForm1 (.vneg h) (fun w x r => r = (2 ^ w - x) % 2 ^ w) ∧
  ∀ typ w sg, (typ, w, sg) ∈ intTypes → ∀ d a b c table m s, MayIssue (.vlogt h d a b c table m typ) s →
    ∃ vs l, LaneLabel s.core m (256 / w) d (OfVecs s.core [a, b, c]) l ∧
      LanesAre s.core m w (256 / w) d (fun i r => ∀ p, p < w → r.testBit p =
        table.testBit (4 * ((elemOf s.core a w i).testBit p).toNat + 2 * ((elemOf s.core b w i).testBit p).toNat +
          ((elemOf s.core c w i).testBit p).toNat)) vs ∧
      Completes (.vlogt h d a b c table m typ) s (VecDone (.vlogt h d a b c table m typ) false s.core d vs 0 l s)

/-- R189 to R193: VSEL, VBCAST, VEXT, VINS and VPERM, and VCMP and VRED on integers.  That the label of VCMP's o register and of VRED's
scalar leaves out that of the old destination is the model's choice (notes/assumptions/107.md). -/
def Obligations.LaneMoves : Prop := ∀ (h : Hd) (typ : Ty) (w : Nat) (sg : Bool) (d a b : Name) (m : Nat) (s : State),
  let c := s.core
  let k := 256 / w
  let on := fun i => decide (m = 0) || (c.rd (.o m)).v.getLsbD i
  let j := (c.rd b).v.toNat
  let masked := fun l => Highest (fun x => OfVecs c [a] x ∨ (m ≠ 0 ∧ x = (c.rd (.o m)).l)) l
  ((typ, w, sg) ∈ moveTypes →
    (MayIssue (.vsel h d a b m typ) s → ∃ vs l,
      LaneLabel c m k d (OfVecs c [a, b]) l ∧
      (∀ i, i < k → vecElem vs w i = if on i then elemOf c a w i else elemOf c b w i) ∧
      Completes (.vsel h d a b m typ) s (VecDone (.vsel h d a b m typ) false c d vs 0 l s)) ∧
    (MayIssue (.vbcast h d a m typ) s → ∃ vs l, LaneLabel c m k d (fun x => x = (c.rd a).l) l ∧
      LanesAre c m w k d (fun _ r => r = (c.rd a).v.toNat % 2 ^ w) vs ∧
      Completes (.vbcast h d a m typ) s (VecDone (.vbcast h d a m typ) false c d vs 0 l s)) ∧
    (MayIssue (.vext h d a b typ) s → ∃ l, Highest (fun x => OfVecs c [a] x ∨ x = (c.rd b).l) l ∧
      Completes (.vext h d a b typ) s (WordPut (.vext h d a b typ) d
        ⟨if j < k then BitVec.ofInt 64 (elemInt sg w (elemOf c a w j)) else 0, l⟩ s)) ∧
    (MayIssue (.vins h d a b typ) s → ∃ vs l, Highest (fun x => OfVecs c [d] x ∨ x = (c.rd a).l ∨ x = (c.rd b).l) l ∧
      (∀ i, i < k → vecElem vs w i = if i = j then (c.rd a).v.toNat % 2 ^ w else elemOf c d w i) ∧
      Completes (.vins h d a b typ) s (VecDone (.vins h d a b typ) false c d vs 0 l s)) ∧
    (MayIssue (.vperm h d a b m typ) s → ∃ vs l, LaneLabel c m k d (OfVecs c [a, b]) l ∧
      LanesAre c m w k d (fun i r => r = if elemOf c b w i < k then elemOf c a w (elemOf c b w i) else 0) vs ∧
      Completes (.vperm h d a b m typ) s (VecDone (.vperm h d a b m typ) false c d vs 0 l s))) ∧
  ((typ, w, sg) ∈ intTypes → typ ≠ .implied →
    (∀ cc, cc < 8 → MayIssue (.vcmp h d a b cc m typ) s → ∃ (v : Word) (l : Label),
      Highest (fun x => OfVecs c [a, b] x ∨ (m ≠ 0 ∧ x = (c.rd (.o m)).l)) l ∧
      (∀ i, i < 64 → (v.getLsbD i = true ↔ i < k ∧ on i = true ∧
        let x := elemInt sg w (elemOf c a w i)
        let y := elemInt sg w (elemOf c b w i)
        condHolds cc (x < y) (x = y) (y < x))) ∧
      Completes (.vcmp h d a b cc m typ) s (WordPut (.vcmp h d a b cc m typ) d ⟨v, l⟩ s)) ∧
    (∀ op, op < 3 → MayIssue (.vred h d a op m typ) s → ∃ r l, masked l ∧ r < 2 ^ w ∧
      (op = 0 → r = ((List.range k).map (fun i => if on i then elemOf c a w i else 0)).sum % 2 ^ w) ∧
      (op ≠ 0 → (∃ i, i < k ∧ on i = true) → (∃ i, i < k ∧ on i = true ∧ r = elemOf c a w i) ∧
        ∀ i, i < k → on i = true → if op = 1 then elemInt sg w r ≤ elemInt sg w (elemOf c a w i)
          else elemInt sg w (elemOf c a w i) ≤ elemInt sg w r) ∧
      (op ≠ 0 → (∀ i, i < k → on i = false) → ∀ x, x < 2 ^ w → if op = 1 then elemInt sg w x ≤ elemInt sg w r
          else elemInt sg w r ≤ elemInt sg w x) ∧
      Completes (.vred h d a op m typ) s (WordLate (.vred h d a op m typ) d
        ⟨BitVec.ofInt 64 (elemInt sg w r), l⟩ false s)))

/-- R186 to R189, R193: the float lanes, the special functions, and VCMP and VRED on floats, with their flags.  The labels of VCMP's and
VRED's results are the model's choice (notes/assumptions/107.md). -/
def Obligations.FloatLanes : Prop := ∀ h : Hd,
  FloatForm (.vfadd h) false false true (fun g m _ x y => g.add m (g.decode x) (g.decode y)) ∧
  FloatForm (.vfsub h) false false true (fun g m _ x y => g.add m (g.decode x) (g.decode y).neg) ∧
  FloatForm (.vfmul h) false false true (fun g m _ x y => g.mul m (g.decode x) (g.decode y)) ∧
  FloatForm (.vfma h) true false true (fun g m z x y => g.fma m false (g.decode z) (g.decode x) (g.decode y)) ∧
  FloatForm (.vfnma h) true false true (fun g m z x y => g.fma m true (g.decode z) (g.decode x) (g.decode y)) ∧
  FloatForm (.vfmin h) false false false (fun g _ _ x y => g.minmax false x y) ∧
  FloatForm (.vfmax h) false false false (fun g _ _ x y => g.minmax true x y) ∧
  FloatForm (.vfdiv h) false true true (fun g m _ x y => g.div m (g.decode x) (g.decode y)) ∧
  FloatForm1 (.vfsqrt h) (fun g m _ x => g.root m x) ∧
  FloatForm1 (.vfrcp h) (fun g m rm x => g.special .rcp m rm x) ∧
  FloatForm1 (.vfrsq h) (fun g m rm x => g.special .rsq m rm x) ∧
  FloatForm1 (.vfexp2 h) (fun g m rm x => g.special .exp2 m rm x) ∧
  FloatForm1 (.vflog2 h) (fun g m rm x => g.special .log2 m rm x) ∧
  FloatForm1 (.vftanh h) (fun g m rm x => g.special .tanh m rm x) ∧
  ∀ typ g, (typ, g) ∈ floatTypes → ∀ (d a b : Name) (m : Nat) (s : State),
    let c := s.core
    let w := g.width
    let x := fun i => g.decode (elemOf c a w i)
    let y := fun i => g.decode (elemOf c b w i)
    (∀ cc, cc < 8 → MayIssue (.vcmp h d a b cc m typ) s → ∃ (v : Word) (l : Label) (fl : BitVec 5),
      Highest (fun z => OfVecs c [a, b] z ∨ (m ≠ 0 ∧ z = (c.rd (.o m)).l)) l ∧
      (∀ i, i < 64 → (v.getLsbD i = true ↔ i < 256 / w ∧ LaneOn c m i ∧
        (((x i).isNan = true ∨ (y i).isNan = true) ∧ (cc = 1 ∨ cc = 6) ∨
          ((x i).isNan = false ∧ (y i).isNan = false ∧
            condHolds cc (Less (x i) (y i)) (Equal (x i) (y i)) (Less (y i) (x i)))))) ∧
      (fl = 0x10 ∨ fl = 0) ∧
      (fl = 0x10 ↔ ∃ i, i < 256 / w ∧ LaneOn c m i ∧ ((x i).isSnan = true ∨ (y i).isSnan = true ∨
        (((x i).isNan = true ∨ (y i).isNan = true) ∧ 2 ≤ cc ∧ cc ≤ 5))) ∧
      Completes (.vcmp h d a b cc m typ) s (WordRaised (.vcmp h d a b cc m typ) d ⟨v, l⟩ fl s)) ∧
    ∀ op, op < 3 → MayIssue (.vred h d a op m typ) s → ∃ l,
      Highest (fun z => OfVecs c [a] z ∨ (m ≠ 0 ∧ z = (c.rd (.o m)).l)) l ∧
      let r := c.reduce (typ.orImplied .f32) op m (modeOf (rmOf s)) a
      Checked (.vred h d a op m typ) s
        (WordFlagged (.vred h d a op m typ) d ⟨BitVec.ofNat 64 r.bits, l⟩ r.fl.bits s) (if op = 0 then rmCheck s else [])

/-- R194 to R196, R200: VCVT, VQUANT, VDEQ and VBADDQ, with the draws that SR takes from the seed. -/
def Obligations.FormatLanes : Prop := ∀ (h : Hd) (d a b : Name) (m : Nat) (typ : Ty) (s : State),
  let c := s.core
  let st := (c.ent c.lo).v
  (∀ wd sg ws sgs code rm, (typ, wd, sg) ∈ moveTypes → typ ≠ .implied → (Ty.ofCode code, ws, sgs) ∈ moveTypes →
    Ty.ofCode code ≠ .implied → rm < 6 → MayIssue (.vcvt h d a code rm m typ) s →
    let src := Ty.ofCode code
    let exact := representable typ src
    let mode : RMode := if exact then .rne else match rm with
      | 0 => if st.getLsbD 13 then .sr else modeOf (rmOf s)
      | 1 => .rne
      | 2 => .rtz
      | 3 => .rdn
      | 4 => .rup
      | _ => .sr
    let n := 256 / max ws wd
    let ds := laneDraws (c.active m) (st.extractLsb' 32 32) n
    let r := fun i => cvtElem typ src mode (if mode = .sr then ds.1.getD i 0 else 0) (elemOf c a ws i)
    ∃ vs l fl, LaneLabel c m n d (OfVecs c [a]) l ∧ LaneFlags c m n r fl ∧
      LanesAre c m wd n d (fun i x => x = (r i).bits) vs ∧ (∀ i, n ≤ i → i < 256 / wd → vecElem vs wd i = 0) ∧
      Checked (.vcvt h d a code rm m typ) s (VecDone (.vcvt h d a code rm m typ) true
        (if mode = .sr then c.putSeed ds.2 else c) d vs fl l s)
        [(exact = false ∧ rm = 0 ∧ st.getLsbD 13 = false ∧ 4 ≤ rmOf s, .illegal, BitVec.ofNat 64 c.word)]) ∧
  ∀ kb, (typ, kb) ∈ [(Ty.kb2, KFmt.kb2), (.kb4, .kb4), (.kb7, .kb7)] →
    let mode := if st.getLsbD 13 then RMode.sr else .rne
    let ds := draws (st.extractLsb' 32 32) 16
    let after := if st.getLsbD 13 then c.putSeed ds.2 else c
    let inputs := (List.range 16).map (fun i => QIn.ofF (FFmt.f32.decode (vecElem (fun j => c.ent (c.physOf a + j)) 32 i)))
    let block := fun n => kb.values ((vecElem (fun j => c.ent (c.physOf n + j)) 64 0 +
      2 ^ 64 * vecElem (fun j => c.ent (c.physOf n + j)) 64 1 + 2 ^ 128 * vecElem (fun j => c.ent (c.physOf n + j)) 64 2) %
        256 ^ kb.bytes)
    let whole := fun (bits : Nat) (vs : Nat → LVal) => ∀ j, j < 4 → (vs j).v = BitVec.ofNat 64 (bits / 2 ^ (64 * j))
    let given := if st.getLsbD 13 then ds.1 else []
    (MayIssue (.vquant h d a typ) s → ∃ vs l, Highest (fun x => ∃ j, j < 8 ∧ x = (c.ent (c.physOf a + j)).l) l ∧
      whole (quantise kb mode given inputs).bits vs ∧
      Checked (.vquant h d a typ) s
        (VecDone (.vquant h d a typ) false after d vs (quantise kb mode given inputs).fl.bits l s)
        [(c.top ≤ c.physOf a + 7, .lenslimit, nameVal a + 4)]) ∧
    (MayIssue (.vdeq h d a typ) s → ∃ l, Highest (OfVecs c [a]) l ∧
      Checked (.vdeq h d a typ) s (fun t => OnlyResults (.vdeq h d a typ) s t ∧
        (∀ i, i < 16 → vecElem (fun j => t.core.ent (c.physOf d + j)) 32 i =
          (dequant .f32 .rne ((block a).getD i .bad)).bits) ∧
        (∀ j, j < 8 → (t.core.ent (c.physOf d + j)).l = l ∧ t.core.tagAt (c.physOf d + j) = false) ∧
        (∀ e, e < c.physOf d ∨ c.physOf d + 8 ≤ e → t.core.ent e = c.ent e) ∧ t.core.opf = c.opf ∧ t.core.q = c.q)
        [(c.top ≤ c.physOf d + 7, .lenslimit, nameVal d + 4)]) ∧
    (MayIssue (.vbaddq h d a b typ) s → ∃ vs l, Highest (OfVecs c [a, b]) l ∧
      let r := quantise kb mode given (List.zipWith QIn.add (block a) (block b))
      whole r.bits vs ∧
      Completes (.vbaddq h d a b typ) s (VecDone (.vbaddq h d a b typ) true after d vs r.fl.bits l s))

/-- R125, R126: rounding to a format gives the representable value that its mode names, NX exactly when the exact value is
not representable, and on overflow what the table of R126 gives. -/
def Obligations.Rounding : Prop := ∀ (g : FFmt) (mode : RMode) (neg : Bool) (m : Nat) (e : Int),
  g ∈ [FFmt.f32, .f16, .bf16, .e4m3, .e5m2] → mode ≠ .sr → m ≠ 0 →
  let v := ratOf (.fin neg m e)
  let r := g.round mode 0 neg m e false
  let x := ratOf (g.decode r.bits)
  (r.fl.nx = true ↔ ¬ Represents g v) ∧ (Represents g v → x = v ∧ r.fl = Flags.none) ∧
  (r.fl.of = false → Represents g x ∧ (g.decode r.bits).isNan = false ∧ 0 ≤ x * v ∧
    (mode = .rtz → |x| ≤ |v| ∧ ∀ y, Represents g y → |y| ≤ |v| → |y| ≤ |x|) ∧
    (mode = .rdn → x ≤ v ∧ ∀ y, Represents g y → y ≤ v → y ≤ x) ∧
    (mode = .rup → v ≤ x ∧ ∀ y, Represents g y → v ≤ y → x ≤ y) ∧
    (mode = .rne → ∀ y, Represents g y → |x - v| < |y - v| ∨ (|x - v| = |y - v| ∧ (y = x ∨ r.bits % 2 = 0)))) ∧
  (r.fl.of = true → (∀ y, Represents g y → |y| < |v|) ∧
    r.bits = g.signed neg (if g.sat = false ∧ (mode = .rne ∨ (mode = .rdn ∧ neg = true) ∨ (mode = .rup ∧ neg = false))
      then g.infBits else g.maxBits))

/-- R197, R198: XMAX sends its vector to the other members of its group and takes the greatest of all; a contribution that
arrives is held or discarded by its count; one that cannot come lets the XMAX land incomplete. -/
def Obligations.MaximumExchange : Prop := ∀ (h : Hd) (d a : Name) (typ : Ty) (p src : Nat) (s : State),
  let c := s.core
  let f32 := decide (typ ≠ .z32)
  let words := (List.range 4).map (fun j => (c.ent (c.physOf a + j)).v)
  let engine := [(isGateway c.phys = true, Cause.illegal, BitVec.ofNat 64 c.word)]
  let greatest := fun i r : Nat => if typ = .z32 then r = elemOf c a 32 i
    else if (FFmt.f32.decode (elemOf c a 32 i)).isNan = true then r = FFmt.f32.nanBits else r = elemOf c a 32 i % 2 ^ 31
  (∀ q, isGateway p = false → (q ∈ s.exchangeGroup p ↔ q ≠ p ∧ q / 4 = p / 4 ∧ (s.partOf (s.coreAt p)).base ≤ s.indexOf q ∧
    s.indexOf q < (s.partOf (s.coreAt p)).base + (s.partOf (s.coreAt p)).len)) ∧
  (MayIssue (.xmax h d a typ) s → NoReplay c → c.xwait = none → s.hold = true → ∃ l, Highest (OfVecs c [a]) l ∧
    Checked (.xmax h d a typ) s (fun t =>
      t = { s with core := t.core, xflights := t.xflights } ∧
      t.xflights = s.xflights ++ (s.exchangeGroup c.phys).map (fun q => ⟨q, ⟨c.phys, c.xc, words, l⟩, c.part⟩) ∧
      (let w : XWait := ⟨c.nextId, c.xc, s.exchangeGroup c.phys, f32, c.physOf d, words, l⟩
       LateCore (.xmax h d a typ) { c with xc := (c.xc + 1) % 65536, xbuf := t.core.xbuf, xwait := some w } t.core) ∧
      (s.exchangeGroup c.phys = [] → c.xbuf = [] → c.pending = [] → ∃ vs fl,
        (∀ i, i < 8 → greatest i (vecElem vs 32 i)) ∧ VecPut d vs fl l c t.core.landReady)) engine) ∧
  (MayIssue (.xmax h d a typ) s → c.xwait ≠ none → (∀ f ∈ engine, ¬ f.1) → Waits (.xmax h d a typ) s) ∧
  (p < coreCount → ∀ before f rest, s.xflights = before ++ f :: rest → (∀ x ∈ before, ¬ (x.dst = p ∧ x.x.src = src)) →
    f.dst = p → f.x.src = src → (s.focus p).core.xwait = none → (s.focus p).unreachable f.part p = false →
    let u := s.focus p
    let held := if f.x.count = u.core.xc ∨ f.x.count = (u.core.xc + 1) % 65536 then
        u.core.xbuf.filter (fun y => decide (y.src ≠ f.x.src ∨ y.count ≠ f.x.count)) ++ [f.x]
      else u.core.xbuf
    Event (.xmaxContributionArrive p src) s { u with xflights := before ++ rest, core := { u.core with xbuf := held } }) ∧
  (p < coreCount → ∀ w, let u := s.focus p
    u.core.xwait = some w → (∃ x ∈ u.core.pending, x.id = w.id ∧ x.xmax = true) →
    (u.core.trapDue ≠ none ∨ firstDue u.core ≠ none ∨
      ∃ q ∈ w.need, (u.coreAt q).cstate = .killed ∨ q ∉ u.exchangeGroup u.core.phys) →
    ∃ core', Event (.xmaxTimeout p) s { u with core := core' } ∧
      core' = { u.core with pending := core'.pending, xbuf := core'.xbuf, interval := core'.interval } ∧
      ∀ y ∈ core'.pending, y.id = w.id → y.xmax = false ∧ y.flags = (if w.f32 then 0x10 else 0) ∧
        ∀ k x, k < 4 → y.writes[k]? = some x → x.lo = if w.f32 then 0x7FC000007FC00000#64 else 0xFFFFFFFFFFFFFFFF#64)

/-- R101 to R104, R118, R119: CRVMARK marks, CSWEEP begins a sweep or waits for the one that runs, cores make their checks, which what
they have loaded and not landed shares, and at the end of the sweep its EPOCH counts it and no marked capability keeps its tag.  The BOUNDS
of CRVMARK for a bitmap that does not lie in the capability or a store, and the order of its wait and checks, are the model's choices
(notes/assumptions/87.md and 78.md). -/
def Obligations.Revocation : Prop := ∀ (h : Hd) (a b : Name) (p part : Nat) (s : State),
  let c := s.core
  let r := c.rdCap a
  let mark := Instr.crvmark h a b
  let sweep := Instr.csweep h a
  let header := fun (nm : Name) (m : Cap) => [(m.tag = false, Cause.tag, nameVal nm), (m.otype ≠ 0, .seal, nameVal nm)]
  (MayIssue mark s → ∀ o off, let m := c.rdCap b
    let place := lsBase o + off
    let cvbase := s.numAt place 8
    let cvlen := s.numAt (place + 8) 8
    let size := 32 + (cvlen + 2047) / 2048
    let covered := fun i : Nat => r.base.toNat / 256 ≤ i + cvbase / 256 ∧ i + cvbase / 256 ≤ (r.top.toNat - 1) / 256 ∧
      r.base.toNat < r.top.toNat
    s.reach c (BitVec.ofInt 64 m.base) 32 = some (o, off) → (s.coreAt o).cstate ≠ .killed → NoAcquire c →
    let first := [(r.tag = false, Cause.tag, nameVal a)] ++ header b m ++
      [(m.perm.getLsbD 13 = false ∨ m.perm.getLsbD 0 = false ∨ m.perm.getLsbD 1 = false, .perm, nameVal b),
        (m.base % 32 ≠ 0, .align, nameVal b)]
    (PortFree s o off size → (s.coreAt o).paired = false → s.traceLen o = 0 →
      (∀ i, covered i → off + 33 + i / 8 ≤ traceOff) →
      Checked mark s (fun t => t = withMemory s t (wentOn mark c c) ∧
        (∀ y k, k < 8 → ((t.byteAt (place + 32 + y)).getLsbD k = true ↔
          (s.byteAt (place + 32 + y)).getLsbD k = true ∨ covered (8 * y + k))) ∧
        ∀ x, x < place + 32 → t.byteAt x = s.byteAt x)
        (first ++
          [(r.base < cvbase ∨ (cvbase : Int) + cvlen < r.top, .bounds, BitVec.ofInt 64 r.base),
            (m.top < m.base + size ∨ s.reach c (BitVec.ofInt 64 m.base) size = none, .bounds, BitVec.ofInt 64 m.base)])) ∧
    (s.portClear o off size = false → (∀ f ∈ first, ¬ f.1) → WaitsAt mark s o off size)) ∧
  (MayIssue sweep s → ∀ o off, let place := lsBase o + off
    let cvbase := s.numAt place 8
    let cvlen := s.numAt (place + 8) 8
    let size := 32 + (cvlen + 2047) / 2048
    s.reach c (BitVec.ofInt 64 r.base) 32 = some (o, off) → NoAcquire c → PortFree s o off 32 →
    let checks := header a r ++ [(r.perm.getLsbD 13 = false ∨ r.perm.getLsbD 0 = false, .perm, nameVal a),
      (cvbase % 256 ≠ 0 ∨ cvbase < 0x10000 ∨ cvlen = 0 ∨ cvlen % 256 ≠ 0 ∨ r.top < r.base + size ∨
        s.reach c (BitVec.ofInt 64 r.base) size = none, .bounds, r.addr)]
    (s.sweeps.listed c.part = none →
      Checked sweep s (fun t => ∃ w, t.sweeps.listed c.part = some w ∧ w.owner = o ∧ w.off = off ∧ w.checked = [c.phys] ∧
        (∀ base, w.marked base = true ↔ InBitmap s place cvbase cvlen base) ∧
        (∀ e, t.core.tagAt e = (c.tagAt e && !w.marked (c.capAt (e / 2 * 2)).base)) ∧
        t = { s with sweeps := t.sweeps, core := wentOn sweep c { c with
          tags := t.core.tags, pending := c.pending.map (Pending.sweep w), gifts := c.gifts.map (Pending.sweep w),
          replay := c.replay.map (Pending.sweep w) } }) checks) ∧
    (s.sweeps.listed c.part ≠ none → (∀ f ∈ checks, ¬ f.1) → Waits sweep s)) ∧
  (Named s p → ∀ w, let u := s.focus p
    u.sweeps.listed u.core.part = some w → p ∉ w.checked → ∃ core' sweeps',
      sweeps'.listed u.core.part = some { w with checked := p :: w.checked } ∧
      (∀ e, core'.tagAt e = (u.core.tagAt e && !w.marked (u.core.capAt (e / 2 * 2)).base)) ∧
      core' = { u.core with
        tags := core'.tags, pending := u.core.pending.map (Pending.sweep w), gifts := u.core.gifts.map (Pending.sweep w),
        replay := u.core.replay.map (Pending.sweep w), interval := u.core.interval.map (Interval.sweep w) } ∧
      (∀ v, core'.interval = some v → ∀ e, (e, true) ∈ v.agreed.tags → w.marked (Cap.ofWords
        (v.agreed.regs.look (fun _ => ⟨0, 0⟩) e).v (v.agreed.regs.look (fun _ => ⟨0, 0⟩) (e + 1)).v true).base = false) ∧
      Event (.sweepCoreCheck p) s { u with core := core', sweeps := sweeps' } ∧
      Event (.sweepCheckTimeout p) s { u with core := core', sweeps := sweeps' }) ∧
  (part < 64 → ∀ w, s.sweeps.listed part = some w → s.tiles = [] → (s.coreAt w.owner).cstate ≠ .killed →
    (∀ q ∈ s.coresOf part, q ∈ w.checked ∨ (s.coreAt q).awake = false) →
    s.portReady part w.owner engineSrc w.off 32 = true →
    ∃ t, exec (.sweepComplete part) s = .next t ∧ t.sweeps.listed part = none ∧
      let epoch := lsBase w.owner + w.off + 16
      t.numAt epoch 8 = (s.numAt epoch 8 + 1) % 2 ^ 64 ∧
      (∀ q ∈ s.coresOf part, ∀ e, (t.coreAt q).tagAt e = true → w.marked ((t.coreAt q).capAt (e / 2 * 2)).base = false) ∧
      ∀ x, t.memTagAt x = true → (∃ z ∈ s.sweptPlaces part, z.1 ≤ x / 16 * 16 ∧ x / 16 * 16 < z.1 + z.2) →
        w.marked (s.granule (x / 16 * 16)).base = false)

/-- R50, R69, R143 to R147, R302, R303, R477, R482: the events that deliver traps and asynchronous causes to a core, the
timer, and the stop for an enabled floating-point event with its two replies. -/
def Obligations.TrapEvents : Prop := ∀ (p sq k : Nat) (s : State), Named s p →
  let u := s.focus p
  let c := u.core
  let alone := c.gang.fused = false ∧ c.interval = none ∧ c.pair.pstate ≠ .comparing ∧ c.pair.pstate ≠ .copying ∧
    c.pair.pstate ≠ .rollback
  let saves := fun x : Core => match c.rep with
    | some r => x.rptValid = true ∧ x.rptRemain = r.n - r.i ∧
      (c.pcc.tag = false ∨ c.pcc.inRegion c.pc.toNat = true → x.epcc = { c.pcc with addr := c.pc })
    | none => x.rptValid = false ∧ x.rptRemain = 0 ∧ x.epcc = c.epcc
  (∀ x, c.trapDue = some x → firstDue c = none → alone → TakesTraps u →
    ∃ t, Event (.trapDelivery p) s t ∧ Entered x.cause x.tval x.epc u t) ∧
  (alone → c.trapDue = none → c.woken = false → c.tabRun = none → c.pair.pstate ≠ .joining → c.awake = true → TakesTraps u →
    ∀ cause v c', firstDue c = some (cause, v, c') → (cause = 0x0F → u.matrixHolds p = false) →
    let left := { c' with fpReply := none, fpWait := none }
    let u' := match c'.fpReply with
      | some m => if c'.inbox.length < 64 then { u with core := { left with inbox := c'.inbox ++ [m], evt := c'.evt ||| 0x10000#32 } }
        else { u with core := left, flights := ⟨p, m, none, c'.part⟩ :: u.flights }
      | none => { u with core := left }
    ∃ t, Entered cause v c.pc u' t ∧
      Event (.asyncCauseDelivery p) s t ∧ (cause = 0x10 → Event (.extirq p) s t)) ∧
  (c.awake = true → c.mode = .u → c.ptimer ≠ 0 → let run := fun k : Core => { k with ptimer := 0, duePreempt := true }
    (c.interval = none → Event (.ptimerExpiry p) s { u with core := run c }) ∧
    (c.interval ≠ none → ∃ t, Event (.ptimerExpiry p) s t ∧ t = { u with core := run c, others := t.others } ∧
      ∀ q, q ≠ p → t.coreAt q = if q = mateOf p then run (u.coreAt q) else u.coreAt q)) ∧
  (∀ e q, c.fpEvent = some e → c.fpWait = none → c.awake = true → c.trapDue = none → alone → c.pending = [] → c.unacked = [] →
    c.paired = false → s.hold = true → u.ofRank c c.fpsup.toNat = some q →
    let place := BitVec.ofNat 64 (c.lo + c.top * 2 ^ 16 + c.lb * 2 ^ 32 + c.phys * 2 ^ 48)
    let msg : InMsg := ⟨.fpevent, [e.pcAt, BitVec.ofNat 64 (e.raised.toNat + e.word * 2 ^ 32), place,
      BitVec.ofNat 64 (u.rankOf c + c.fpSeq * 2 ^ 32)], e.lab, u.rankOf c⟩
    ∃ x : Core, saves x ∧ Event (.fpEventStop p) s { u with
      core := { c with
        fpEvent := none, fpWait := some c.fpSeq, fpRaised := e.raised, fpSeq := (c.fpSeq + 1) % 2 ^ 32, stalled := true,
        rptValid := x.rptValid, rptRemain := x.rptRemain, epcc := x.epcc },
      flights := u.flights ++ [⟨q, msg, none, c.part⟩] }) ∧
  (∀ e, c.fpEvent = some e → c.fpWait = none → c.awake = true → c.trapDue = none → alone → c.pending = [] → c.unacked = [] →
    u.ofRank c c.fpsup.toNat = none → ∃ x : Core, saves x ∧ Event (.fpEventStop p) s { u with core := { c with
      fpEvent := none, rptValid := x.rptValid, rptRemain := x.rptRemain, epcc := x.epcc } }) ∧
  (∀ (w0 : Word) (m : InMsg), c.fpWait = some sq → c.fpReply = some m → m.words = [w0, 0, 0, 0] → w0.toNat / 65536 % 65536 = 0 →
    w0.toNat / 2 ^ 32 = sq →
    let c' := { c with fpWait := none, fpReply := none, stalled := false }
    (w0.toNat % 256 = 1 → Event (.fpReplyResume p sq) s { u with core := c' }) ∧
    (w0.toNat % 256 = 2 → w0.toNat / 256 % 256 = k → 1 ≤ k → k ≤ 0x14 → TakesTraps u →
      ∃ t, Event (.fpReplyConvert p sq k) s t ∧
        Entered (BitVec.ofNat 8 k) (c.fpRaised.setWidth 64) c.pc { u with core := c' } t))

/-- R14, R48, R49, R61, R66, R68, R181, R206, R207, R210, R212, R313, R314, R324: the events of a core's late writes, place by place, its
ports, spill engine, bank groups, inbox and signals; a reply that the core waits for passes by the inbox. -/
def Obligations.CoreEvents : Prop := ∀ (p n : Nat) (s : State), Named s p →
  let u := s.focus p
  let c := u.core
  (∀ line o off, (line = c.pc.toNat / 64 * 64 ∨ line = c.pc.toNat / 64 * 64 + 64 ∨ line = c.pc.toNat / 64 * 64 + 128) →
    (∀ e ∈ c.ibuf, e.1 ≠ line) →
    c.ibuf.length < 128 → u.reach c (BitVec.ofNat 64 line) 64 = some (o, off) → u.portOpen (fetchSrc p) o off 64 false = true →
    (∀ a ∈ (u.coreAt o).portq, a.src ≠ fetchSrc p) → (u.coreAt o).cstate ≠ .killed →
    u.fetchTrap (if line = c.pc.toNat / 64 * 64 then c.pc.toNat else line) 4 = none →
    Event (.ifetchLineMiss p line) s
      { u with core := { c with ibuf := c.ibuf ++ [(line, u.bytesAt (lsBase o + off) 64)] } }) ∧
  (∀ before w rest e v hi tag l place, c.pending = before ++ w :: rest → (∀ x ∈ before ++ rest, x.id ≠ n) → w.id = n → w.left = 0 →
    w.xmax = false → w.flags = 0 → c.interval = none → place < 64 → ∃ c',
      c'.ent e = ⟨v, l⟩ ∧ (∀ x, x ≠ e → c'.ent x = c.ent x) ∧
      (∀ x, c'.tagAt x = if x / 2 = e / 2 then false else c.tagAt x) ∧
      (w.writes = [⟨.entry e, v, hi, tag, l⟩] →
        c' = { c with regs := c'.regs, tags := c'.tags, pending := before ++ rest, xwait := c'.xwait } ∧
        Event (.lateWriteLand p (64 * n + place)) s { u with core := c' }) ∧
      (w.joint = false → w.writes[place]? = some ⟨.entry e, v, hi, tag, l⟩ →
        (∃ k x, k ≠ place ∧ w.writes[k]? = some x ∧ x.tgt.real = true) →
        c' = { c with
          regs := c'.regs, tags := c'.tags
          pending := before ++ { w with writes := w.writes.set place ⟨.nowhere, v, hi, tag, l⟩ } :: rest } ∧
        Event (.lateWriteLand p (64 * n + place)) s { u with core := c' })) ∧
  (∀ r rest, c.spillq = r :: rest → c.interval = none →
    let masked := fun (e : Nat) (v : LVal) => if e = r.lo then ⟨stMask v.v, v.l⟩ else v
    (r.kind = .move → ∃ c', c' = { c with regs := c'.regs, tags := c'.tags, spillq := rest } ∧
      (∀ i, i < r.n → c'.ent (r.dst + i) = masked (r.dst + i) (c.ent (r.src + i))) ∧
      (∀ x, x < r.dst ∨ r.dst + r.n ≤ x → c'.ent x = c.ent x) ∧ Event (.spillEngineMove p) s { u with core := c' }) ∧
    (r.kind = .fill → ∀ o off, u.reach c r.addr (8 * ((r.dst + r.n + 1) / 2 * 2 - r.dst / 2 * 2)) = some (o, off) →
      u.portBlocks c.part o (spillSrc p) off (8 * ((r.dst + r.n + 1) / 2 * 2 - r.dst / 2 * 2)) = false → (u.coreAt o).portq = [] →
      (u.coreAt o).cstate ≠ .killed →
      ∃ c', c' = { c with regs := c'.regs, tags := c'.tags, spillq := rest } ∧
        (∀ x, r.dst ≤ x → x < r.dst + r.n → let place := lsBase o + off + 8 * (x - r.dst / 2 * 2)
          c'.ent x = masked x ⟨BitVec.ofNat 64 (u.numAt place 8), u.labelAt place⟩) ∧
        (∀ x, x < r.dst ∨ r.dst + r.n ≤ x → c'.ent x = c.ent x) ∧ Event (.spillEngineMove p) s { u with core := c' }) ∧
    (r.kind = .spill → ∀ o off k, u.reach c r.addr (8 * ((r.src + r.n + 1) / 2 * 2 - r.src / 2 * 2)) = some (o, off) →
      u.portBlocks c.part o (spillSrc p) off (8 * ((r.src + r.n + 1) / 2 * 2 - r.src / 2 * 2)) = false → (u.coreAt o).portq = [] →
      (u.coreAt o).cstate ≠ .killed → (u.coreAt o).paired = false → k ≤ r.n → (∀ i, i < k → (c.ent (r.src + i)).l ≤ r.lab) →
      (k < r.n → r.lab < (c.ent (r.src + k)).l) →
      ∃ t, Event (.spillEngineMove p) s t ∧
        (∀ i, i < k → t.numAt (lsBase o + off + 8 * (r.src % 2 + i)) 8 = (c.ent (r.src + i)).v.toNat) ∧
        t.core.spillq = rest ∧ t.core.regs = c.regs ∧
        t.core.dueSpill = if k = r.n then c.dueSpill else c.dueSpill ++ [BitVec.ofNat 64 k])) ∧
  (∀ x data lab, c.portq = [x] → x.src = n → x.op = .store data lab none → n ≠ p → s.hold = true → data ≠ [] →
    n < coreCount → u.bufAt (bufKey n) = [] → u.bufAt (bufKey p) = [] → u.away (u.coreAt n).part p = false → c.blocks n x.off data.length = false → c.cstate ≠ .killed → c.paired = false →
    (x.off + data.length ≤ traceOff ∨ traceOff + 4 ≤ x.off) →
    ∃ t, Event (.portAccess p n) s t ∧ Stored (lsBase p + x.off) data.length (fun y => data.getD y 0) lab false u t ∧
      t.core = { c with portq := [] } ∧
      (t.coreAt n).unacked = (u.coreAt n).unacked.map (fun y => if y.id = x.id then { y with left := y.left - 1 } else y) ∧
      ∀ q, q ≠ p → q ≠ n → t.coreAt q = u.coreAt q) ∧
  (∀ before x rest, c.unacked = before ++ x :: rest → x.id = n → x.left = 0 → (∀ y ∈ before ++ rest, y.id ≠ n) →
    Event (.storeAck p n) s { u with core := { c with unacked := before ++ rest } }) ∧
  (c.cstate = .evicted → Event (.accessRetry p) s
    { u with core := { c with
      portq := (c.portq.filter (fun x => decide (x.src < coreCount))).map (fun x => { x with arrived := false }) } }) ∧
  ((n = 1 ∨ n = 2) → c.groupSt n = .waking → c.portq = [] → (c.paired = true → (u.coreAt (mateOf p)).portq = []) →
    let lies := fun y => lsBase p + 0x20000 * n ≤ y ∧ y < lsBase p + 0x20000 * n + 0x20000
    ∃ t, Event (.groupWakeComplete p n) s t ∧
      (∀ y, lies y → t.byteAt y = 0 ∧ t.labelAt y = 0 ∧ t.memTagAt y = false) ∧
      (∀ y, ¬ lies y → t.byteAt y = u.byteAt y ∧ t.labelAt y = u.labelAt y ∧ t.memTagAt y = u.memTagAt y) ∧
      t = withMemory u t (if n = 1 then { c with g1 := .awake } else { c with g2 := .awake })) ∧
  (∀ before f rest, u.flights = before ++ f :: rest → (∀ x ∈ before, x.dst ≠ p) → f.dst = p → f.sender = none →
    c.inbox.length < 64 → c.cstate ≠ .evicted → c.cstate ≠ .killed → c.pair.pstate = .unpaired → u.away f.part p = false →
    c.fpWait = none → Event (.inboxMessageEnter p 0) s { u with
      flights := before ++ rest, core := { c with inbox := c.inbox ++ [f.msg], evt := c.evt ||| 0x10000#32 } }) ∧
  (∀ before f rest, u.flights = before ++ f :: rest → (∀ x ∈ before, x.dst ≠ p) → f.dst = p → f.sender = none →
    c.cstate ≠ .evicted → c.cstate ≠ .killed → c.pair.pstate = .unpaired → u.away f.part p = false →
    c.fpWait ≠ none → c.fpReply = none → f.msg.kind = .msg → BitVec.ofNat 64 f.msg.src = c.fpsup →
    Event (.inboxMessageEnter p 0) s { u with flights := before ++ rest, core := { c with fpReply := some f.msg } }) ∧
  (∀ before g rest, u.signals = before ++ g :: rest → (∀ x ∈ before, x.dst ≠ p) → g.dst = p → g.sender.1 ≠ p → s.hold = true →
    c.cstate ≠ .evicted → c.cstate ≠ .killed → c.paired = false → u.away g.part p = false →
    ∃ t, Event (.eventSignalArrive p) s t ∧ t.signals = before ++ rest ∧ t.core = { c with evt := c.evt ||| g.bits } ∧
      t.mem = u.mem ∧ (t.coreAt g.sender.1).unacked =
        (u.coreAt g.sender.1).unacked.map (fun y => if y.id = g.sender.2 then { y with left := y.left - 1 } else y))

/-- R245 to R251, R255, R256, R260, R269, R272 to R274: the card instructions put their card into the window. -/
def Obligations.CardIssue : Prop := ∀ (h : Hd) (d a b : Name) (tb m mac plane bound1 : Nat) (typ : Ty) (scope : Scope)
  (lit : BitVec 64) (s : State),
  let c := s.core
  let desc := fun n : Name => if h.len = .x160 then lit else (c.rd n).v
  let x := s.tileAt (ownTile s)
  let served := ∃ i, i < 64 ∧ ((x.table.look (fun _ => 0x8000#16) i).getLsbD 15 = true ∨
    ((x.table.look (fun _ => 0x8000#16) i).extractLsb' 0 12).toNat = c.lo)
  let copies := fun (kind : CardKind) (k : Card) => k.kind = kind ∧ k.dst = c.rdCap a ∧ k.src = c.rdCap b ∧ k.desc = desc d
  CardForm (.cpy h d a b tb scope lit) d tb 13 (copies .cpy) s ∧
  CardForm (.cpym h d a b tb m scope lit) d tb 13 (fun k => copies .cpym k ∧
    k.mask = if m = 0 then 2 ^ 16 - 1 else (c.rd (.o m)).v.toNat % 2 ^ 16) s ∧
  CardForm (.conv h d a b tb typ scope lit) d tb 14 (fun k => copies .conv k ∧ k.typ = typ ∧ k.sampled = (c.ent c.lo).v) s ∧
  (served →
    CardForm (.mload h d a tb mac plane typ) d tb 15 (fun k => k.kind = .mload ∧ k.dst = c.rdCap a ∧ k.typ = typ ∧
      k.bound = mac * 2 + plane) s ∧
    CardForm (.mswap h d tb m) d tb 15 (fun k => k.kind = .mswap ∧ k.mask = m) s ∧
    CardForm (.mrun h d a b tb bound1 typ lit) d tb 15 (fun k => k.kind = .mrun ∧ k.dst = c.rdCap a ∧ k.desc = desc b ∧
      k.typ = typ ∧ k.plane0 = x.m0.isel ∧ k.plane1 = x.m1.isel ∧
      k.bound = (if h.len = .x160 then ((desc b).extractLsb' 48 16).toNat else bound1) + 1) s ∧
    CardForm (.mdrain h d a b tb scope lit) d tb 15 (fun k => k.kind = .mdrain ∧ k.dst = c.rdCap a ∧ k.desc = desc b) s)

/-- R254, R256, R264, R265, R275 to R277, R483: JWAIT, JSTAT and JCANCEL on a handle, and JWAIT and JSTAT on a slot.  That JWAIT on a slot
waits for the buffered writes of the slot's arrivals at their scope is the model's choice (notes/assumptions/109.md). -/
def Obligations.CardStatus : Prop := ∀ (h : Hd) (d a b : Name) (tb : Nat) (s : State),
  let c := s.core
  let n := ownTile s
  let x := s.tileAt n
  let e := (c.rd a).v.toNat % 32
  let gone : Word := 0x8047#64
  let at_ := fun k : Card => cardOf s n e = some k ∧ (c.rd a).v = BitVec.ofNat 64 (k.seq * 256 + e)
  let looks := fun (y : Tile) (m : Nat) => y.slots.look (fun _ => noArrivals) m
  let slot := looks x (tb % 64)
  let count := (c.rd b).v.toNat % 65536
  let drained := fun slotm : Nat => s.jwaitWide slotm (tb % 64) = false ∨ s.bufAt (bufKey c.phys) = []
  EngineForm (.jwait h d a b tb 0) s engine (NoReplay c →
    (∀ k, at_ k → k.state = .ended → drained 0 →
      Completes (.jwait h d a b tb 0) s (WordPut (.jwait h d a b tb 0) d ⟨statusWord k, 0⟩ s)) ∧
    (∀ k, at_ k → k.state ≠ .ended → Waits (.jwait h d a b tb 0) s) ∧
    ((∀ k, ¬ at_ k) → drained 0 → Completes (.jwait h d a b tb 0) s (WordPut (.jwait h d a b tb 0) d ⟨gone, 0⟩ s))) ∧
  EngineForm (.jwait h d a b tb 1) s engine (NoReplay c →
    (count = 0 ∨ (count ≤ slot.count ∧ ∀ w ∈ x.slotWaits, w.2 ≠ tb % 64)) → drained 1 →
    Completes (.jwait h d a b tb 1) s (fun t =>
      looks (t.tileAt n) (tb % 64) = ⟨slot.count - count, 0, slot.wide && decide (slot.count - count ≠ 0)⟩ ∧
      (∀ m, m ≠ tb % 64 → looks (t.tileAt n) m = looks x m) ∧ (t.tileAt n).cards = x.cards ∧
      WordPut (.jwait h d a b tb 1) d ⟨BitVec.ofNat 64 slot.sticky, 0⟩ s { t with tiles := s.tiles })) ∧
  EngineForm (.jstat h d a tb 0) s engine (NoReplay c →
    (∀ k, at_ k → Completes (.jstat h d a tb 0) s (WordLate (.jstat h d a tb 0) d ⟨statusWord k, 0⟩ false s)) ∧
    ((∀ k, ¬ at_ k) → Completes (.jstat h d a tb 0) s (WordLate (.jstat h d a tb 0) d ⟨gone, 0⟩ false s))) ∧
  EngineForm (.jstat h d a tb 1) s engine (NoReplay c → Completes (.jstat h d a tb 1) s
    (WordLate (.jstat h d a tb 1) d ⟨BitVec.ofNat 64 (slot.count + slot.sticky * 2 ^ 16), 0⟩ false s)) ∧
  EngineForm (.jcancel h d a) s engine (
    (∀ k, at_ k → (k.state = .waiting ∨ k.state = .faulted) → k.slot = none → EndsAtOnce s n k →
      Completes (.jcancel h d a) s (fun t => (∃ k', cardOf t n e = some k' ∧ EndedAs 0x45 k k') ∧
        (writable d = true ∧ d ≠ .st → t.core.rd d = ⟨statusWord k, 0⟩))) ∧
    (∀ k, at_ k → k.state = .running → k.kind.isMatrix = false → Completes (.jcancel h d a) s (fun t =>
      cardOf t n e = some { k with cancel := true } ∧
      WordPut (.jcancel h d a) d ⟨statusWord k, 0⟩ s { t with tiles := s.tiles })) ∧
    ((∀ k, ¬ at_ k) → Completes (.jcancel h d a) s (WordPut (.jcancel h d a) d ⟨gone, 0⟩ s)))

/-- R256, R260, R264, R266, R267, R272, R414, R415, R420, R421: a copy card starts, moves its last line and ends; a miss is answered
by a neighbour or goes to the loupe core; a fault record is posted. -/
def Obligations.CardEvents : Prop := ∀ (n e m : Nat) (s : State), n < 512 →
  let x := s.tileAt n
  (∀ k, x.cards = [(e, k)] → k.kind.isMatrix = false → k.state = .waiting → k.ending = none → k.preds = [] → k.begun = false →
    k.doomed = false → (s.coreAt k.core).unacked = [] → s.tileSaving n = false →
    (∀ st, s.startChecks n k = .inl st → EndsAtOnce s n k → ∃ t k', exec (.cardStart n e) s = .next t ∧ cardOf t n e = some k' ∧
      EndedAs st k k') ∧
    (∀ k1, s.startChecks n k = .inr k1 → k1.live ≠ [] ∨ k.kind ≠ .cpym → ∃ t, exec (.cardStart n e) s = .next t ∧
      cardOf t n e = some { k1 with state := .running, begun := true, after := [] })) ∧
  (s.tileSaving n = true → exec (.cardStart n e) s = .next s) ∧
  (∀ k p off q dst, cardOf s n e = some k → k.kind = .cpy → k.state = .running → k.doomed = false → k.cancel = false →
    k.due = none → k.miss = none → k.ending = none → k.slot = none → k.offset = 0 → k.src.perm.getLsbD 7 = false →
    EndsAtOnce s n k → s.bufAt (bufKey p) = [] → s.buffers n q = false →
    (s.coreAt p).portq = [] → (s.coreAt q).portq = [] →
    let len := (k.desc.extractLsb' 0 20).toNat + 1
    len ≤ 64 → k.desc.extractLsb' 20 10 = 0 → k.src.addr.toNat % 64 = 0 → k.dst.addr.toNat % 64 = 0 →
    2 ^ 47 ≤ k.src.addr.toNat → 2 ^ 47 ≤ k.dst.addr.toNat → s.reach (s.cardCore k) k.src.addr 1 = some (p, off) →
    s.reach (s.cardCore k) k.dst.addr 1 = some (q, dst) → (s.coreAt p).cstate ≠ .killed → (s.coreAt q).cstate ≠ .killed →
    s.portBlocks k.part p (cardSrc n e) off len = false → s.portBlocks k.part q (cardSrc n e) dst len = false →
    (s.coreAt q).paired = false → (dst + len ≤ traceOff ∨ traceOff + 4 ≤ dst) →
    s.labelOver (lsBase p + off) len ≤ k.dst.label →
    ∃ t k', exec (.cardEnd n e 1) s = .next t ∧ cardOf t n e = some k' ∧ EndedAs 0 { k with offset := len } k' ∧
      Stored (lsBase q + dst) len (fun y => s.byteAt (lsBase p + off + y)) (s.labelOver (lsBase p + off) len) false s t) ∧
  (∀ y, x.misses.listed m = some y → y.st = .probing →
    (s.neighbour n y.part y.va y.write = none → ∃ t, exec (.tlbProbeResult n m) s = .next t ∧
      (t.tileAt n).misses.listed m = some { y with st := .waiting, gen := x.gen } ∧
      t.missq.look (fun _ => []) (n / 4) = s.missq.look (fun _ => []) (n / 4) ++ [(n, m)] ∧ (t.tileAt n).tlb = x.tlb) ∧
    (∀ te, s.neighbour n y.part y.va y.write = some te → ∃ t, exec (.tlbProbeResult n m) s = .next t ∧
      (t.tileAt n).misses.listed m = none ∧ te ∈ (t.tileAt n).tlb ∧
      ∀ j ∈ (t.tileAt n).tlb, j = te ∨ (j ∈ x.tlb ∧ ¬ (tePart j = tePart te ∧ teMeets j te = true)))) ∧
  (∀ k f, cardOf s n e = some k → k.due = some f → k.cancel = false → k.part = 0 → EndsAtOnce s n k →
    let die := s.dieAt (tileDie n)
    let ring := if f.terminal then die.term else die.retry
    ring.length < 256 → (ring.filter (fun r => decide (r.part = 0))).length < 32 → ∃ t k' words,
      exec (.faultRecordPost n e) s = .next t ∧ cardOf t n e = some k' ∧
      words = [BitVec.ofNat 64 f.va, BitVec.ofNat 64 k.offset, BitVec.ofNat 64 (k.seq * 256 + e + n * 2 ^ 32),
        BitVec.ofNat 64 (f.kind + f.terminal.toNat * 2 ^ 8 + f.write.toNat * 2 ^ 9 + n * 2 ^ 16 + f.clock * 2 ^ 32)] ∧
      (f.terminal = false → k' = { k with state := .faulted, due := none } ∧
        t.dieAt (tileDie n) = { die with retry := die.retry ++ [⟨words, 0⟩] }) ∧
      (f.terminal = true → EndedAs 0x43 k k' ∧ t.dieAt (tileDie n) = { die with term := die.term ++ [⟨words, 0⟩] }))

/-- R230, R231, R235, R237 to R243, R246 to R253: the matrix engine's events, MSLOT and MSTAT. -/
def Obligations.MatrixEngine : Prop := ∀ (h : Hd) (a d : Name) (sel n e : Nat) (s : State),
  let c := s.core
  let own := s.tileAt (ownTile s)
  let x := s.tileAt n
  let f := fun k : Card => mdescOf k.desc
  let entry := x.table.look (fun _ => 0x8000#16) (x.slotClock / 1024)
  let cells := fun (y : Macro) (i : Nat) => y.acc.look (fun _ => 0) i
  let bare := fun k : Card => { k with starve := 0 }
  let unserved := fun k : Card => k.kind.isMatrix = true ∧ k.state = .waiting ∧ ∀ i, i < 64 →
    let y := x.table.look (fun _ => 0x8000#16) i
    y.getLsbD 15 = false ∧ (y.extractLsb' 0 12).toNat ≠ k.owner
  EngineForm (.mslot h a sel) s (· = 15) (NoReplay c → Completes (.mslot h a sel) s (fun t =>
    (∀ i, (t.tileAt (ownTile s)).table.look (fun _ => 0x8000#16) i =
      if i = sel then (c.rd a).v.extractLsb' 0 16 else own.table.look (fun _ => 0x8000#16) i) ∧
    (∀ j, (cardOf t (ownTile s) j).map bare = (cardOf s (ownTile s) j).map bare) ∧
    Passed (.mslot h a sel) s { t with tiles := s.tiles })) ∧
  ((sel = 0 ∨ sel = 1 ∨ sel = 2 ∨ sel = 0x101) → EngineForm (.mstat h d sel) s (· = 15) (NoReplay c → ∃ v : Word,
    (sel = 1 ∨ sel = 0x101 → v.toNat = own.m0.sticky.toNat + own.m1.sticky.toNat * 2 ^ 8) ∧
    (sel = 0 → v.toNat = own.m0.planeByte 0 + own.m0.planeByte 1 * 2 ^ 8 + own.m1.planeByte 0 * 2 ^ 16 + own.m1.planeByte 1 * 2 ^ 24) ∧
    (sel = 2 → v.toNat % 2 ^ 6 = own.slotClock / 1024 % 2 ^ 6) ∧
    Completes (.mstat h d sel) s (fun t => WordLate (.mstat h d sel) d ⟨v, 0⟩ false s { t with tiles := s.tiles } ∧
      (t.tileAt (ownTile s)).m0.sticky = if sel = 0x101 then 0 else own.m0.sticky))) ∧
  (n < 512 →
    (∀ k, x.cards = [(e, k)] → k.state = .waiting → k.ending = none → k.preds = [] → (s.coreAt k.core).unacked = [] →
      s.tileSaving n = false → entry.getLsbD 15 = true →
      (k.kind = .mload → s.operandStatus k k.dst (k.dst.can .load) 1 (imageSize k.typ) true = none → ∃ t,
        exec (.matrixCardStart n e) s = .next t ∧
        cardOf t n e = some { k with state := .running, begun := true, after := [], timed := false } ∧
        (k.bound < 4 → ((t.tileAt n).macro (k.bound / 2)).plane (k.bound % 2) = ⟨.loading, tyBlock k.typ, [], 0⟩)) ∧
      (k.kind = .mswap → k.mask = 1 → k.slot = none → x.m0.esel < 2 → EndsAtOnce s n k → ∃ t k', exec (.matrixCardStart n e) s = .next t ∧
        cardOf t n e = some k' ∧ EndedAs 0 k k' ∧ (t.tileAt n).m0.esel = 1 - x.m0.esel ∧ (t.tileAt n).m1.esel = x.m1.esel ∧
        (((x.m0.plane (1 - x.m0.esel)).st = .latched ∨ (x.m0.plane (1 - x.m0.esel)).st = .draining) →
          ((t.tileAt n).m0.plane (1 - x.m0.esel)).st = .active) ∧
        ((x.m0.plane x.m0.esel).st = .active → ((t.tileAt n).m0.plane x.m0.esel).st = .latched))) ∧
    (∀ k p off, x.cards = [(e, k)] → k.state = .running → k.ending = none → k.slot = none → k.kind = .mload → k.bound < 4 →
      EndsAtOnce s n k → s.bufAt (bufKey p) = [] → (s.coreAt p).portq = [] →
      let len := imageSize k.typ - k.offset
      let plane := (x.macro (k.bound / 2)).plane (k.bound % 2)
      0 < len → (k.dst.addr.toNat + k.offset) % 64 + len ≤ 64 →
      s.reach (s.cardCore k) (k.dst.addr + BitVec.ofNat 64 k.offset) 1 = some (p, off) → (s.coreAt p).cstate ≠ .killed →
      s.portBlocks k.part p (cardSrc n e) off len = false → ∃ t k', exec (.mloadEnd n e 1) s = .next t ∧ cardOf t n e = some k' ∧
        EndedAs 0 { k with offset := k.offset + len } k' ∧
        ((t.tileAt n).macro (k.bound / 2)).plane (k.bound % 2) = { plane with
          st := if (x.macro (k.bound / 2)).esel = k.bound % 2 then .active else .latched
          image := plane.image ++ s.bytesAt (lsBase p + off) len
          lab := Label.max plane.lab (s.labelOver (lsBase p + off) len) }) ∧
    (∀ k p off, x.cards = [(e, k)] → k.state = .running → k.ending = none → k.slot = none → k.kind = .mrun → k.offset = 0 →
      EndsAtOnce s n k → s.bufAt (bufKey p) = [] → (s.coreAt p).portq = [] → (f k).rows = 1 →
      (f k).macros = 1 → (f k).acc = false → s.reach (s.cardCore k) k.dst.addr 1 = some (p, off) →
      (s.coreAt p).cstate ≠ .killed → s.portBlocks k.part p (cardSrc n e) off (rowBytes k.typ) = false →
      let w := x.m0.plane k.plane0
      let pass := fun i => passOf (tyBlock k.typ) w.fmt (blocksOf (tyBlock k.typ) (s.bytesAt (lsBase p + off) (rowBytes k.typ)) 16)
        (blocksOf w.fmt (w.image.drop (16 * i * w.fmt.bytes)) 16)
      ∃ t k', exec (.mrunEnd n e 1) s = .next t ∧ cardOf t n e = some k' ∧ k'.state = .ended ∧ k'.status = 0 ∧
        (∀ i, i < 128 → cells (t.tileAt n).m0 ((f k).row0 * 128 + i) = BitVec.ofNat 32 (pass i).bits) ∧
        (∀ i, (i < (f k).row0 * 128 ∨ (f k).row0 * 128 + 128 ≤ i) → cells (t.tileAt n).m0 i = cells x.m0 i) ∧
        (t.tileAt n).m0.rowLab.look (fun _ => 0) (f k).row0 =
          Label.max (s.labelOver (lsBase p + off) (rowBytes k.typ)) w.lab) ∧
    (∀ k p off, x.cards = [(e, k)] → k.state = .running → k.ending = none → k.slot = none → k.kind = .mdrain → k.offset = 0 →
      EndsAtOnce s n k → s.buffers n p = false → (s.coreAt p).portq = [] → (f k).rows = 1 →
      (f k).macros = 1 → s.reach (s.cardCore k) k.dst.addr 1 = some (p, off) → (s.coreAt p).cstate ≠ .killed →
      (s.coreAt p).paired = false → (off + 64 * ((f k).ncb + 1) ≤ traceOff ∨ traceOff + 4 ≤ off) →
      s.portBlocks k.part p (cardSrc n e) off (64 * ((f k).ncb + 1)) = false →
      x.m0.rowLab.look (fun _ => 0) (f k).row0 ≤ k.dst.label → ∃ t k', exec (.mdrainEnd n e 1) s = .next t ∧
        cardOf t n e = some k' ∧ k'.state = .ended ∧ k'.status = 0 ∧
        (∀ i j, i < 16 * ((f k).ncb + 1) → j < 4 → t.byteAt (lsBase p + off + 4 * i + j) =
          (cells x.m0 ((f k).row0 * 128 + 16 * (f k).cb0 + i)).extractLsb' (8 * j) 8) ∧
        (∀ i, i < 16 * ((f k).ncb + 1) → cells (t.tileAt n).m0 ((f k).row0 * 128 + 16 * (f k).cb0 + i) =
          if (f k).clr then 0 else cells x.m0 ((f k).row0 * 128 + 16 * (f k).cb0 + i))) ∧
    (∀ k, cardOf s n e = some k → k.kind = .mrun → k.state = .running → k.ending = none → k.slot = none → EndsAtOnce s n k →
      ∃ t k', exec (.mrunWatchdog n e) s = .next t ∧ cardOf t n e = some k' ∧ EndedAs 0x14 k k' ∧
      (t.coreAt k.core).dueWatchdog = (s.coreAt k.core).dueWatchdog ++ [BitVec.ofNat 64 (k.seq * 256 + e)]) ∧
    (x.slotClock % 1024 + sel < 1024 → ∃ t, exec (.matrixSlotBoundary n sel) s = .next t ∧
      t.tileAt n = { x with slotClock := x.slotClock + sel, cards := (t.tileAt n).cards } ∧
      ∀ j k, cardOf s n j = some k → ∃ k', cardOf t n j = some k' ∧ bare k' = bare k ∧
        (unserved k → k'.starve = min 65536 (k.starve + sel)) ∧ (¬ unserved k → k'.starve = 0)) ∧
    (1024 ≤ x.slotClock % 1024 + sel → x.cards = [] → ∃ t, exec (.matrixSlotBoundary n sel) s = .next t ∧
      (t.tileAt n).slotClock = (x.slotClock / 1024 + 1) % 64 * 1024) ∧
    (∀ k, cardOf s n e = some k → unserved k → k.slot = none → 65536 ≤ k.starve → EndsAtOnce s n k → ∃ t k',
      exec (.noslotTimeout n e) s = .next t ∧ cardOf t n e = some k' ∧ EndedAs 0x42 k k'))

/-- R282, R283, R285, R288, R290 to R292, R294, R295, R297 to R300: gangs fuse and dissolve; mirror pairs start, compare, go back
and part. -/
def Obligations.GangsAndMirrors : Prop := ∀ (h : Hd) (b p : Nat) (d : Name) (s : State), 1 ≤ b → b ≤ 4 →
  let c := s.core
  let size := 2 ^ b
  let mate := mateOf c.phys
  let mask := fun q : Nat => (2 ^ size - 1) * 2 ^ (tilePos q / size * size)
  let onlyCores := fun t : State => t = { s with core := t.core, others := t.others }
  let mates := fun q : Nat => (s.coreAt q).phys = c.phys ∨ (c.kernel ≠ none ∧ (s.coreAt q).kernel = c.kernel ∧
    (s.coreAt q).team = c.team ∧ (s.coreAt q).part = c.part ∧ (s.coreAt q).cstate ≠ .killed)
  let ready := fun (x : State) (q : Nat) (pc : Word) =>
    (x.coreAt q).waiting = some (gangWait b) ∧ (x.coreAt q).pc = pc ∧ (x.coreAt q).awake = true
  let fused := fun (x t : State) (lead : Nat) =>
    (∀ q ∈ gangSet lead b, let k := x.coreAt q
      t.coreAt q = { k with
        gang := ⟨k.gang.cause, BitVec.ofNat 4 (tilePos lead / size * size), BitVec.ofNat 3 b, true, BitVec.ofNat 16 (mask lead)⟩
        pc := k.pc + BitVec.ofNat 64 (wordLength k.word), rep := none, resume := none, gangNext := none, waiting := none
        stalled := false }) ∧ ∀ q, q ∉ gangSet lead b → t.coreAt q = x.coreAt q
  let joined := fun (x t : State) (e : Nat) =>
    let k := x.coreAt e
    let even := t.coreAt e
    let odd := t.coreAt (e + 1)
    even.regs = k.regs ∧ even.tags = k.tags ∧ even.pc = k.pc + BitVec.ofNat 64 (wordLength k.word) ∧ odd.regs = k.regs ∧
    odd.tags = k.tags ∧ odd.opf = k.opf ∧ odd.q = k.q ∧ odd.lens = k.lens ∧ odd.pcc = k.pcc ∧ odd.pc = even.pc ∧
    odd.rptValid = k.rptValid ∧ odd.rptRemain = k.rptRemain ∧ odd.pair.n = k.pair.n ∧ odd.pair.report = k.pair.report ∧
    odd.g1 = k.g1 ∧ odd.g2 = k.g2 ∧ odd.fpSeq = k.fpSeq ∧ odd.ptimer = k.ptimer ∧
    (∀ m, m = even ∨ m = odd → m.pair.pstate = .running ∧ m.pair.intv = 0 ∧ m.pair.rbcount = 0 ∧ m.resume = none ∧ m.replay = [] ∧
      m.interval = some ⟨0, 0, [], 0, [], [], [], [], false, false, m.agreedNow⟩) ∧
    (∀ y, y < 0x60000 → k.groupSt (y / 0x20000) ≠ .sleeping → t.byteAt (lsBase (e + 1) + y) = x.byteAt (lsBase e + y) ∧
      t.labelAt (lsBase (e + 1) + y) = x.labelAt (lsBase e + y) ∧ t.memTagAt (lsBase (e + 1) + y) = x.memTagAt (lsBase e + y)) ∧
    (∀ y, y < lsBase (e + 1) ∨ lsBase (e + 1) + 0x60000 ≤ y → t.byteAt y = x.byteAt y)
  let gangChecks : List (Prop × Cause × Word) :=
    [(isGateway c.phys = true, .illegal, BitVec.ofNat 64 c.word),
      (∃ q ∈ gangSet c.phys b, ¬ mates q, .bounds, BitVec.ofNat 64 (mask c.phys))]
  let pairChecks : List (Prop × Cause × Word) :=
    [(isGateway c.phys = true ∨ c.paired = true, .illegal, BitVec.ofNat 64 c.word),
      (¬ mates mate, .bounds, BitVec.ofNat 64 (2 ^ tilePos c.phys + 2 ^ tilePos mate))]
  (MayIssue (.gang h b) s → c.pending = [] → c.unacked = [] → c.awake = true → s.hold = false →
    ((∀ q ∈ gangSet c.phys b, q = c.phys ∨ ready s q c.pc) →
      Checked (.gang h b) s (fun t => onlyCores t ∧ fused s t c.phys) gangChecks) ∧
    ((∃ q ∈ gangSet c.phys b, q ≠ c.phys ∧ ¬ ready s q c.pc) → Checked (.gang h b) s (fun t =>
      t = { s with core := { c with waiting := some (gangWait b), stalled := true } }) gangChecks)) ∧
  (Named s p → (s.focus p).core.waiting = some (gangWait b) → (∀ q ∈ gangSet p b, ready (s.focus p) q (s.focus p).core.pc) →
    ∃ t, Event (.gangFuse p) s t ∧ fused (s.focus p) t p) ∧
  (MayIssue (.split h) s → Completes (.split h) s (Passed (.split h) s)) ∧
  (c.gang.fused = true → c.phys ∈ c.members → c.rep = none → (∀ q ∈ c.members, (s.coreAt q).phys = q ∧
      (s.coreAt q).gangNext = none ∧ (s.coreAt q).trapDue = none ∧ (s.coreAt q).stalled = false ∧ (s.coreAt q).fpEvent = none ∧
      (s.coreAt q).interval = none) →
    Completes (.split h) s (fun t => onlyCores t ∧ (∀ q, q ∉ c.members → t.coreAt q = s.coreAt q) ∧
      ∀ q ∈ c.members, let k := s.coreAt q
        t.coreAt q = { k with
          gang := { k.gang with cause := 4, lsize := 0, fused := false }, gifts := []
          pc := c.pc + BitVec.ofNat 64 (instrBytes (.split h)), rep := none, resume := none, waiting := none, woken := false
          word := c.word })) ∧
  (MayIssue (.mpair h) s → c.pending = [] → c.unacked = [] → (s.coreAt mate).phys = mate →
    ((s.coreAt mate).pair.pstate = .joining ∧ (s.coreAt mate).pc = c.pc → s.hold = false → MemoryWf s → c.portq = [] →
      (s.coreAt mate).portq = [] → Checked (.mpair h) s (fun t => joined s t (evenOf c.phys)) pairChecks) ∧
    (¬ ((s.coreAt mate).pair.pstate = .joining ∧ (s.coreAt mate).pc = c.pc) → Checked (.mpair h) s (fun t =>
      t = { s with core := { c with
        pair := { c.pair with pstate := .joining, partner := BitVec.ofNat 4 (tilePos mate) }, stalled := true } }) pairChecks)) ∧
  (MayIssue (.munpair h) s → Completes (.munpair h) s (Passed (.munpair h) s)) ∧
  (∀ v, c.gang.fused = false → c.interval = some v → v.retired + v.entries = 0 → (s.coreAt mate).phys = mate →
    (s.coreAt mate).waiting = some unpairWait → (s.coreAt mate).pc = c.pc → Completes (.munpair h) s (fun t =>
      let k := s.coreAt mate
      let part := fun x : Core => { x with
        pair := { x.pair with pstate := .unpaired }, interval := none, gifts := [], replay := [], resume := none }
      onlyCores t ∧ t.core = wentOn (.munpair h) c (part c) ∧
      t.coreAt mate = { part k with
        pc := k.pc + BitVec.ofNat 64 (instrBytes (.munpair h)), waiting := none, stalled := false } ∧
      ∀ q, q ≠ mate → q ≠ c.phys → t.coreAt q = s.coreAt q)) ∧
  (MayIssue (.mchk h d) s → Completes (.mchk h d) s (WordPut (.mchk h d) d ⟨0, 0⟩ s)) ∧
  (∀ v, c.gang.fused = false → nameTrap (.mchk h d) c = none → c.interval = some v → v.retired + v.entries = 0 →
    Completes (.mchk h d) s (fun t => t = { s with core := t.core } ∧ t.core.pc = (c.after (instrBytes (.mchk h d))).1 ∧
      WordWritten d ⟨c.pair.rbcount.setWidth 64, 0⟩ false c t.core)) ∧
  (Named s p → isGateway p = false →
    let u := s.focus p
    let e := evenOf p
    (∀ v, u.core.interval = some v → u.core.pair.pstate = .running → v.retired ≠ 0 → u.core.pair.n ≤ v.retired →
      (∀ w, (u.coreAt (mateOf p)).interval = some w → w.retired + w.entries ≤ v.retired + v.entries) → Event (.mirrorIntervalEnd p) s
        { u with core := { u.core with pair := { u.core.pair with pstate := .comparing }, stalled := true } }) ∧
    (u.core.owed = [] → (u.coreAt e).phys = e → (u.coreAt (e + 1)).phys = e + 1 → (u.coreAt e).portq = [] → (u.coreAt (e + 1)).portq = [] →
      (MemoryWf s → (u.coreAt e).pair.pstate = .copying → (u.coreAt (e + 1)).pair.pstate = .copying →
        ∃ t, Event (.mirrorCopyComplete p) s t ∧ joined u t e) ∧
      (∀ v w, (u.coreAt e).interval = some v → (u.coreAt (e + 1)).interval = some w → v.atEnd = false →
        (∀ q, q = e ∨ q = e + 1 → let k := u.coreAt q
          k.pair.pstate = .comparing ∧ k.pending = [] ∧ k.unacked = [] ∧ k.spillq = [] ∧ (∀ d, k.drain = some d → d.2 = 0) ∧
          k.awake = true ∧ k.gang.fused = false ∧ k.kernel = none) →
        (fingerprint v.stream = fingerprint w.stream → v.held = [] → ∃ t, Event (.mirrorCompare p) s t ∧
          ∀ q, q = e ∨ q = e + 1 → let k := u.coreAt q
            let k' : Core := { k with
              pair := { k.pair with pstate := .running, intv := k.pair.intv + 1 }, stalled := false, ptimer := (u.coreAt e).ptimer }
            t.coreAt q = { k' with interval := some ⟨0, 0, [], 0, [], [], [], [], false, false, k'.agreedNow⟩, replay := [] }) ∧
        (fingerprint v.stream ≠ fingerprint w.stream → v.again = false → ∃ t, Event (.mirrorCompare p) s t ∧
          (v.undo = [] → w.undo = [] → t.mem = u.mem ∧ t.labels = u.labels ∧ t.tags = u.tags) ∧
          (∀ x y, v.undo = [x] → w.undo = [] → y < x.bytes.length → t.byteAt (lsBase e + x.off + y) = x.bytes.getD y 0) ∧
          ∀ q g, (q = e ∧ g = v) ∨ (q = e + 1 ∧ g = w) → let k := u.coreAt q
            let m := t.coreAt q
            m.agreedNow = g.agreed ∧ m.pair.pstate = .running ∧ m.replay = g.done.filter (fun y => !y.xmax) ++ k.replay ++ k.gifts ∧
            m.pair.rbcount = (if k.pair.rbcount = 0xFFFF#16 then k.pair.rbcount else k.pair.rbcount + 1) ∧
            m.interval = some ⟨0, 0, [], 0, [], [], [], [], true, false, g.agreed⟩ ∧
            m.dueMirror = if k.pair.report = true then some (m.pair.rbcount.setWidth 64) else k.dueMirror) ∧
        (fingerprint v.stream ≠ fingerprint w.stream → v.again = true → ∃ t, Event (.mirrorCompare p) s t ∧
          (t.coreAt e).cstate = .killed ∧ (t.coreAt (e + 1)).cstate = .killed ∧ t.kills = u.kills + 2))))

/-- R44, R54, R67, R80, R350, R471, R472, R474: a word that is no instruction; PARK to retire, to yield and on a queue; a core
killed, and a spare in its place. -/
def Obligations.KillParkAndTurn : Prop := ∀ (h : Hd) (a b : Name) (p part rank w : Nat) (s : State),
  let c := s.core
  let k := c.rdCap a
  let obj := c.rdCap b
  let n := c.top - c.lo
  let top := c.lo + n
  let size := 8 * ((top + 1) / 2 * 2 - c.lo / 2 * 2)
  let bytes := BitVec.ofNat 64 (instrBytes (.park h a b))
  let word := fun (code cause prio : Nat) (l : Label) => BitVec.ofNat 64 (n + code * 2 ^ 12 + l.toNat * 2 ^ 16 + prio * 2 ^ 19 +
    cause * 2 ^ 23 + c.lo % 2 * 2 ^ 31 + (if c.fpWait = none then 0 else 2 ^ 33) + (c.lb - c.lo) * 2 ^ 40)
  let record := fun (code cause : Nat) (wait : Word) (image len : Nat) (qs : State → SMap Queue) (t : State) =>
    ∃ o off l, s.reach c k.addr 64 = some (o, off) ∧ Highest (fun x => ∃ e, c.lo ≤ e ∧ e < top ∧ x = (c.ent e).l) l ∧
      let pa := lsBase o + off
      let st := word code cause (s.numAt (pa + 48) 8 / 2 ^ 19 % 16) l
      Entered 0 0 (c.pc + bytes) { withMemory s t c with queues := qs t } t ∧
      (∀ y, y < 8 → t.byteAt (pa + y) = byteOf (c.pc + bytes) y ∧ t.byteAt (pa + 8 + y) = byteOf c.pcc.hi y ∧
        t.byteAt (pa + 48 + y) = byteOf st y ∧ t.byteAt (pa + 56 + y) = byteOf wait y) ∧
      t.memTagAt pa = c.pcc.tag ∧ t.memTagAt (pa + 48) = false ∧
      (∀ y, (y < pa ∨ pa + 16 ≤ y) → (y < pa + 48 ∨ pa + 64 ≤ y) → (y < image ∨ image + len ≤ y) → t.byteAt y = s.byteAt y)
  let imaged := fun (place : Nat) (t : State) => ∀ x, c.lo / 2 * 2 ≤ x → x < (top + 1) / 2 * 2 →
    (∀ y, y < 8 → t.byteAt (place + 8 * (x - c.lo / 2 * 2) + y) =
      if c.lo ≤ x ∧ x < top then byteOf (c.ent x).v y else 0) ∧
    (t.memTagAt (place + 8 * (x - c.lo / 2 * 2)) = true ↔ c.lo ≤ x / 2 * 2 ∧ x / 2 * 2 + 1 < top ∧ c.tagAt x = true)
  let recordChecks : List (Prop × Cause × Word) := [(k.tag = false, .tag, nameVal a), (k.otype ≠ 0, .seal, nameVal a),
    (¬ (k.perm.getLsbD 0 = true ∧ k.perm.getLsbD 1 = true ∧ k.perm.getLsbD 8 = true), .perm, nameVal a),
    (c.pcc.perm.getLsbD 9 = false ∧ k.perm.getLsbD 10 = false, .perm, nameVal a), (k.addr.toNat % 64 ≠ 0, .align, nameVal a),
    (¬ (k.base ≤ k.addr.toNat ∧ (k.addr.toNat : Int) + 64 ≤ k.top), .bounds, k.addr), (s.reach c k.addr 64 = none, .bounds, k.addr)]
  let queueCheck : List (Prop × Cause × Word) := [(obj.tag = false, .tag, nameVal b), (obj.perm.getLsbD 0 = false, .perm, nameVal b)]
  let quiet := s.sweepOf c = none ∧ c.spillq = [] ∧ c.kernel = none ∧ c.waiting = none ∧ NoReplay c ∧ TakesTraps s ∧ PortOpen s k.addr 64 ∧ PlainWrite s k.addr 64
  let imageFor := fun (sp : Cap) (pa o off : Nat) => s.reach c k.addr 64 = some (o, off) ∧ pa = lsBase o + off ∧
    k.perm.getLsbD 7 = true ∧ sp = s.granule (pa + 16) ∧ PortOpen s sp.addr size ∧ PlainWrite s sp.addr size ∧ n ≤ 4080 ∧
    (∀ e, c.lo ≤ e → e < top → (c.ent e).l ≤ sp.label) ∧
    ∀ q x, s.reach c sp.addr size = some (q, x) → lsBase q + x + size ≤ pa ∨ pa + 64 ≤ lsBase q + x
  let imageCheck := fun sp : Cap => [(¬ (sp.tag = true ∧ sp.otype = 0 ∧ sp.perm.getLsbD 1 = true ∧ sp.perm.getLsbD 8 = true ∧
      (sp.perm.getLsbD 10 = true ∨ ∀ e, e % 2 = 0 → c.lo ≤ e → e + 1 < top → c.tagAt e = true → (c.capAt e).perm.getLsbD 9 = true) ∧
      sp.addr.toNat % 16 = 0 ∧ sp.base ≤ sp.addr.toNat ∧ (sp.addr.toNat : Int) + size ≤ sp.top ∧ s.reach c sp.addr size ≠ none),
    Cause.spillfault, (0 : Word))]
  (c.gang.fused = false → TakesTraps s → ∃ t, exec (.illegalEncoding w) s = .next t ∧ Entered 0x01 (BitVec.ofNat 64 w) c.pc s t) ∧
  (MayIssue (.park h a a) s → b = a → quiet →
    Checked (.park h a a) s (record 5 0x21 0 0 0 (fun _ => s.queues)) recordChecks) ∧
  (∀ sp pa o off, MayIssue (.park h a .zr) s → b = .zr → quiet → imageFor sp pa o off →
    Checked (.park h a .zr) s (fun t => ∃ q x, s.reach c sp.addr size = some (q, x) ∧ imaged (lsBase q + x) t ∧
      record 4 0x20 0 (lsBase q + x) size (fun _ => s.queues) t) (recordChecks ++ imageCheck sp)) ∧
  (∀ sp pa o off, MayIssue (.park h a b) s → b ≠ .zr → b ≠ a → quiet → obj.otype = 5 → imageFor sp pa o off →
    (s.queueAt obj.addr.toNat).part ≠ 0 → ((s.queueAt obj.addr.toNat).st = .on ∨ (s.queueAt obj.addr.toNat).st = .stopped) → (s.queueAt obj.addr.toNat).parked = [] →
    Checked (.park h a b) s (fun t => ∃ q x, s.reach c sp.addr size = some (q, x) ∧ imaged (lsBase q + x) t ∧
      record 3 5 obj.addr (lsBase q + x) size (fun t => t.queues) t ∧
      t.queueAt obj.addr.toNat = { s.queueAt obj.addr.toNat with parked := [⟨k, pa, c.part, c.phys, none⟩] } ∧
      ∀ m, m ≠ obj.addr.toNat → t.queueAt m = s.queueAt m) (recordChecks ++ queueCheck ++ imageCheck sp)) ∧
  (Named s p →
    let u := s.focus p
    let k := u.core
    k.cstate ≠ .killed → k.cstate ≠ .reset → k.gang.fused = false → k.paired = false → k.kernel = none → k.waiting = none →
    k.portq = [] → s.hold = true → ∃ t d, Event (.coreKill p w rank) s t ∧ t.core.cstate = .killed ∧ t.core.inbox = [] ∧
      t.core.pending = [] ∧ t.core.regs = k.regs ∧ t.kills = u.kills + 1 ∧ t.dumps = u.dumps ++ [d] ∧
      (∀ e, d.regs.look (fun _ => zeroVal) e = ⟨if (k.ent e).l = 0 then (k.ent e).v else 0, (k.ent e).l⟩) ∧ d.tags = k.tags ∧
      t.flights = u.flights ++ (u.roleCores .server (u.homeDie p)).map (fun q => ⟨q,
        ⟨.error, [BitVec.ofNat 64 (u.rankOf k % 2 ^ 16 + p * 2 ^ 16), 0, 0, 0], 0, u.rankOf k⟩, none, 0⟩)) ∧
  (0 < part → part < 64 → rank < (s.partAt part).len →
    let i := (s.partAt part).base + rank
    let spare := fun q : Nat => q ∈ s.roleCores .spare (chipOrderDie (i / 1024)) ∧
      (s.mask = none → ∃ j, j < 8 ∧ q = tileCore (lastTile (16 * chipOrderPos (chipOrderDie (i / 1024)) + 8 + j)) 11) ∧
      (s.coreAt q).cstate = .idle ∧ ∀ e ∈ s.remap, e.2 ≠ q
    (s.coreAt (s.physOfIndex i)).cstate = .killed → (∃ q, spare q) → ∃ t q, exec (.spareRemap part rank) s = .next t ∧ spare q ∧
      t.physOfIndex i = q ∧ (∀ j, j ≠ i → t.physOfIndex j = s.physOfIndex j) ∧
      t.coreAt q = { s.coreAt q with part := part } ∧ (∀ r, r ≠ q → t.coreAt r = s.coreAt r) ∧
      t = { s with core := t.core, others := t.others, remap := t.remap, spused := t.spused })

/-- R360 to R380: a dispatcher takes a launch or rejects it; SPAWN, SHAPE and KSTAT. -/
def Obligations.Launches : Prop := ∀ (h : Hd) (d b : Name) (sel die : Nat) (halo : Bool) (s : State),
  let c := s.core
  let home := s.homeDie c.phys
  let x := s.dieAt home
  let child : Child := ⟨(List.range 8).map (fun i => (c.ent (c.physOf b + i)).v), c.part, c.kernel, s.clock,
    (List.range 4).map (fun i => c.tagAt (c.physOf b + 2 * i)), Label.maxOf ((List.range 8).map (fun i => (c.ent (c.physOf b + i)).l))⟩
  let ring := x.backing.look (fun _ => []) c.part
  let full := 4096 - x.pool.length ≤ 256 ∧ ¬ (c.kernel ≠ none ∧ ∃ e ∈ s.kernels, e.2.parent = c.kernel ∧ e.2.st = .running)
  let spawned := fun (status : Word) (y : Die) (t : State) => t.dieAt home = y ∧ (∀ m, m ≠ home → t.dieAt m = s.dieAt m) ∧
    WordPut (.spawn h d b) d ⟨status, 0⟩ s { t with dies := s.dies }
  let w := fun i : Nat => s.numAt (lsBase c.phys + 0x1FF00 + 8 * i) 8
  let shape := (List.range 32).map (fun i => BitVec.ofNat 64 (w i))
  let extent := w (8 + 4 * sel)
  let split := w (9 + 4 * sel) % 4
  let factor := fun e : Nat => w (9 + 4 * e) / 2 ^ 16 % 2 ^ 16
  let size := w (9 + 4 * sel) / 2 ^ 32
  let below := ((List.range sel).map factor).prod
  let at_ := c.krank / below % factor sel
  let block := (extent + factor sel - 1) / factor sel
  let share := fun st len : Nat => (split = 0 → st = 0 ∧ len = extent) ∧
    (split = 1 → st = min (at_ * block) extent ∧ len = min block (extent - st)) ∧
    (split = 2 → st = min at_ extent ∧ len = (extent - st + factor sel - 1) / factor sel) ∧
    (split = 3 → st = min (at_ * size) extent ∧
      len = ((List.range extent).filter (fun j => decide (j / size % factor sel = at_))).length)
  let kstat := fun sel (v : Word) => WordLate (.kstat h d sel) d ⟨v, 0⟩ false s
  (MayIssue (.spawn h d b) s → NoReplay c → c.pending = [] → c.unacked = [] → (c.part = 0 ∨ (s.partAt c.part).st = .run) →
    (c.kernel = none ∨ ∃ n k a, c.kernel = some n ∧ s.kernels.listed n = some k ∧ s.pathOf k = [a] ∧
      s.pendingUnder a < (s.rcbSeen c.part a).qent) →
      (ring = [] → ¬ full → x.pool.length < 4096 → Completes (.spawn h d b) s (spawned 0 { x with pool := x.pool ++ [child] })) ∧
      (ring ≠ [] ∨ full ∨ 4096 ≤ x.pool.length →
        let r := (s.partAt c.part).child + 32 * home
        let len := s.numAt (r + 8) 8
        let tail := s.numAt (r + 16) 8
        let slot := s.numAt r 8 + 64 * (tail % len)
        (len ≤ ring.length → Completes (.spawn h d b) s (spawned 6 x)) ∧
        (ring.length < len → Completes (.spawn h d b) s (fun t =>
          spawned 0 { x with backing := x.backing.put (fun _ => []) c.part (ring ++ [child]) } (withMemory t s t.core) ∧
          t.numAt (r + 16) 8 = (tail + 1) % 2 ^ 64 ∧
          (∀ y, y < 64 → (slot + y < r + 16 ∨ r + 24 ≤ slot + y) → t.byteAt (slot + y) = byteOf (child.words.getD (y / 8) 0) (y % 8)) ∧
          ∀ y, (y < slot ∨ slot + 64 ≤ y) → (y < r + 16 ∨ r + 24 ≤ y) → t.byteAt y = s.byteAt y)))) ∧
  (∀ n k a, MayIssue (.spawn h d b) s → NoReplay c → c.pending = [] → c.unacked = [] → (c.part = 0 ∨ (s.partAt c.part).st = .run) →
    c.kernel = some n → s.kernels.listed n = some k → s.pathOf k = [a] → (s.rcbSeen c.part a).qent ≤ s.pendingUnder a →
    Completes (.spawn h d b) s (spawned 2 x)) ∧
  (sel < 6 → MayIssue (.shape h d (sel + 8 * halo.toNat)) s → PortFree s c.phys 0x1FF00 256 → ∃ v : Word,
    ((shapeValid shape = false ∨ shapeClean shape = false) → v = BitVec.allOnes 64) ∧
    (shapeValid shape = true → shapeClean shape = true → w 0 % 8 ≤ sel → v = 0) ∧
    (shapeValid shape = true → shapeClean shape = true → sel < w 0 % 8 → ∃ st len, share st len ∧
      let wide := halo = true ∧ split = 1 ∧ 0 < len
      v.toNat % 2 ^ 32 = (if wide then st - size else st) % 2 ^ 32 ∧
      v.toNat / 2 ^ 32 = (if wide then min (st + len + size) extent - (st - size) else len) % 2 ^ 32) ∧
    Completes (.shape h d (sel + 8 * halo.toNat)) s (WordLate (.shape h d (sel + 8 * halo.toNat)) d
      ⟨v, s.labelOver (lsBase c.phys + 0x1FF00) 256⟩ false s)) ∧
  (MayIssue (.kstat h d 0) s → Completes (.kstat h d 0) s (kstat 0 (BitVec.ofNat 64 c.krank))) ∧
  (∀ n k, c.kernel = some n → s.kernels.listed n = some k → isGateway c.phys = false →
    (MayIssue (.kstat h d 1) s → Completes (.kstat h d 1) s
      (kstat 1 (BitVec.ofNat 64 (k.kid + c.team % 2 ^ 16 * 2 ^ 32 + c.krank % 16 * 2 ^ 48)))) ∧
    (MayIssue (.kstat h d 2) s → Completes (.kstat h d 2) s (kstat 2 (s.countOf k))) ∧
    (MayIssue (.kstat h d 3) s → Completes (.kstat h d 3) s (kstat 3 (BitVec.ofNat 64 (s.usedOf n k))))) ∧
  (∀ e, die < 8 → s.queues = [] → s.dies = [(die, s.dieAt die)] → (s.dieAt die).pool = [e] → (s.dieAt die).backing = [] →
    e.parent = none → (e.part = 0 ∨ (s.partAt e.part).st = .run) →
    let word := fun i => (e.words.getD i 0).toNat
    (word 0 % 128 ≠ 0 → ∃ t, exec (.launchDispatch die) s = .next t ∧ (t.dieAt die).pool = [] ∧ t = { s with dies := t.dies }) ∧
    (∀ hd r, word 0 % 128 = 0 → s.dispReach e.part (word 0) 128 = .mem hd → rcbCapOk (s.granule (hd + 32)) = true →
      s.dispReach e.part (s.granule (hd + 32)).addr.toNat 128 = .mem r → DispPlain s e.part (s.granule (hd + 32)).addr.toNat r → (s.granule (r + 16)).tag = false → r % 16 = 0 →
      (4 ≤ word 1 ∨ word 3 ≠ 0 ∨ word 1 % 4 = 3) → ∃ t, exec (.launchDispatch die) s = .next t ∧ (t.dieAt die).pool = [] ∧
        t.numAt (r + 72) 8 = 6 + 3 * 2 ^ 8 ∧ ∀ y, (y < r + 72 ∨ r + 80 ≤ y) → t.byteAt y = s.byteAt y) ∧
    (∀ r conc, s.judge e.part true none e.words = .hold r conc → DispPlain s e.part (s.headerRcb e.part (word 0)).addr.toNat r → ∃ t, exec (.launchDispatch die) s = .next t ∧
      (t.dieAt die).pool = [e] ∧ t.numAt (r + 72) 8 = 1 ∧ ∀ y, (y < r + 72 ∨ r + 80 ≤ y) → t.byteAt y = s.byteAt y) ∧
    (∀ k r, s.judge e.part true none e.words = .accept k r →
      (k.cls = word 1 % 4 ∧ k.header = word 0 ∧ k.cores ≤ 8192 ∧ k.teams.length = (k.cores + 15) / 16 ∧
        (∀ n ∈ k.tiles, (s.partAt e.part).base ≤ 16 * n ∧ 16 * n + 16 ≤ (s.partAt e.part).base + (s.partAt e.part).len ∧
          s.claimed e.part n = false ∧ ∀ pos, pos < min k.cores 16 → s.setAside n pos = false) ∧
        (k.cls = 0 → k.tiles.length = k.teams.length)) ∧
      (k.teams.length ≤ 16 → ∃ t, exec (.launchDispatch die) s = .next t ∧ (t.dieAt die).pool = [] ∧
        t.kernels.listed s.nextKernel = some k ∧ t.nextKernel = s.nextKernel + 1 ∧ k.st = .accepted ∧
        ∀ a, t.dispReach e.part k.rcb.addr.toNat 128 = .mem a → DispPlain s e.part k.rcb.addr.toNat a → t.numAt (a + 72) 8 = 2 + k.kid * 2 ^ 32)))

/-- R280, R281, R367, R369, R370, R375, R376, R481: teams placed, sliced, swapped and halted; a kernel completes or is aborted. -/
def Obligations.Teams : Prop := ∀ (h : Hd) (n kn i : Nat) (k : Kernel) (m : Team) (s : State), n < 512 →
  s.kernels.listed kn = some k → k.teams[i]? = some m →
  let c := s.core
  let ps := (List.range m.n).map (fun j => s.physOfIndex (chipIndex (tileCore n j)))
  let set := fun st : TeamSt => k.teams.set i { m with st := st }
  let quota := max 4096 (min 2000000 (s.effective k.part (s.pathOf k)).quota)
  let away := fun (t : State) (p : Nat) => ∀ a, t.rcbSpot k = some a → (a + 88 ≤ lsBase p ∨ lsBase p + lsSize ≤ a) ∧
    storeOf a ≠ some (mateOf p) ∧ (2 ^ 47 ≤ k.rcb.addr.toNat ∨ ∀ j e, s.dispEntry k.part k.rcb.addr.toNat = some (j, e) → teDirty e = true)
  let held := (s.tileAt n).team = some (kn, i)
  let still := fun p : Nat => (s.coreAt p).pending = [] ∧ (s.coreAt p).unacked = [] ∧ ∀ d, (s.coreAt p).drain = some d → d.2 = 0
  (∀ src, k.nextTeam n = some i → (k.cls = 0 → k.tiles = [n]) → m.st = .unplaced → (s.tileAt n).team = none → (∀ e ∈ (s.tileAt n).cards, e.2.state = .ended) →
    k.abort = false → k.live = true → (k.part = 0 ∨ (s.partAt k.part).st = .run) → s.imageAt k.load = some src → ps.Nodup →
    m.n ≤ s.placeRoom k.part (s.pathOf k) → s.sweeps.listed k.part = none → imgLen k.imgctl ≤ 0x1FF00 → k.shape.length = 32 →
    (∀ p ∈ ps, (s.coreAt p).cstate = .idle ∧ still p ∧ (s.coreAt p).portq = [] ∧
      s.away k.part p = false ∧ ∀ a ∈ src, a + 16 ≤ lsBase p ∨ lsBase p + lsSize ≤ a) →
    ∃ t, exec (.teamPlacement kn n) s = .next t ∧ (t.tileAt n).team = some (kn, i) ∧ (t.tileAt n).cards = [] ∧
      (∃ k', t.kernels.listed kn = some k' ∧ k'.st = (if k.st = .accepted then .running else k.st) ∧
        k'.teams = k.teams.set i { m with st := .placed, tile := n, since := s.clock, left := quota, paused := false }) ∧
      ∀ j p, ps[j]? = some p → let x := s.coreAt p
        let y := t.coreAt p
        y.cstate = .running ∧ y.mode = .u ∧ y.pcc = k.pcc ∧ y.pc = k.pcc.addr ∧ y.kernel = some kn ∧ y.krank = 16 * i + j ∧
        y.team = i ∧ y.part = k.part ∧ y.evt = 0 ∧ y.opf = [] ∧ y.q = ⟨0, 0⟩ ∧ y.hlens = x.hlens ∧ y.hpcc = x.hpcc ∧
        y.fpsup = x.fpsup ∧ y.ibuf = [] ∧ y.g1 = .awake ∧ y.g2 = .awake ∧
        (∀ e, y.lo ≤ e → e < y.top → e ≠ y.lb → e ≠ y.lb + 1 → y.ent e = ⟨0, 0⟩) ∧
        (away t p → let place := lsBase p
          (∀ g a z, src[g]? = some a → z < 16 → t.byteAt (place + 16 * g + z) = s.byteAt (a + z) ∧
            t.memTagAt (place + 16 * g) = s.memTagAt a) ∧
          (∀ z, z < 256 → t.byteAt (place + 0x1FF00 + z) = byteOf (k.shapeWords.getD (z / 8) 0) (z % 8)) ∧
          (∀ z, imgLen k.imgctl ≤ z → z < 0x60000 → (z < 0x1FF00 ∨ 0x20000 ≤ z) → t.byteAt (place + z) = 0))) ∧
  (k.cls = 0 → k.nextTeam n = some i → m.st = .unplaced → k.abort = false → k.live = true →
    (k.part = 0 ∨ (s.partAt k.part).st = .run) → s.imageAt k.load ≠ none → k.tiles.Nodup → s.concOpen k = true →
    ∃ t k', exec (.teamPlacement kn n) s = .next t ∧ t.kernels.listed kn = some k' ∧ ∀ (j : Nat) (x : Team) (y : Nat),
      k.teams[j]? = some x → k.tiles[j]? = some y → x.st = .unplaced →
      (t.tileAt y).team = some (kn, j) ∧ ∃ z, k'.teams[j]? = some z ∧ z.st = .placed ∧ z.tile = y ∧ z.since = s.clock) ∧
  (held → k.cls = 1 → m.st = .placed → m.left ≤ m.ran s.clock →
    (∃ j y, k.teams[j]? = some y ∧ (y.st = .swapped ∨ (y.st = .unplaced ∧ k.tiles.length ≤ j))) →
    (∀ e ∈ (s.tileAt n).cards, e.2.kind.isMatrix = true → e.2.state ≠ .running) →
    (∀ p ∈ ps, still p ∧ (s.coreAt p).gang.fused = false ∧ (s.coreAt p).tabRun = none) →
    ∃ t, exec (.parSliceExpiry n) s = .next t ∧ (∃ k', t.kernels.listed kn = some k' ∧ k'.teams = set .swappingOut) ∧
      (∀ p ∈ ps, (s.coreAt p).awake = true → (t.coreAt p).cstate = .evicted) ∧
      ∀ e y, (s.tileAt n).cards.listed e = some y → y.state = .running →
        ∃ z, (t.tileAt n).cards.listed e = some z ∧ z.state = .held) ∧
  (held → m.st = .swappingOut → s.farFrom n = false → s.xflights = [] → (∀ p ∈ ps, (s.coreAt p).portq = []) → ∃ t k' m',
    exec (.teamSwapOutComplete n) s = .next t ∧ t.kernels.listed kn = some k' ∧ k'.teams = k.teams.set i m' ∧ m'.st = .swapped ∧
    m'.image.map CoreImg.core = ps.map s.coreAt ∧ m'.tileImg.map TileImg.tile = some (s.tileAt n) ∧
    (t.tileAt n).team = none ∧
    ∀ p ∈ ps, (s.coreAt p).cstate ≠ .killed → (t.coreAt p).cstate = .idle ∧ (t.coreAt p).kernel = none) ∧
  (held → m.st = .swappingIn → m.image.length = m.n → ps.Nodup → (m.image.map (fun x => x.core.phys)).Nodup → ∃ t k' m',
    exec (.teamSwapInComplete n) s = .next t ∧
    t.kernels.listed kn = some k' ∧ k'.teams = k.teams.set i m' ∧ m'.st = .placed ∧ m'.since = s.clock ∧ m'.left = quota ∧
    ∀ (j : Nat) (y : CoreImg) (p : Nat), m.image[j]? = some y → ps[j]? = some p → y.core.cstate ≠ .killed → let z := t.coreAt p
      z.regs = y.core.regs ∧ z.tags = y.core.tags ∧ z.lens = y.core.lens ∧ z.pc = y.core.pc ∧ z.pcc = y.core.pcc ∧
      z.mode = y.core.mode ∧ (y.core.fpWait = none → y.core.paired = false → y.flights = [] → z.inbox = (y.core.inbox ++ (s.coreAt p).inbox).take 64) ∧
      z.krank = y.core.krank ∧ z.kernel = y.core.kernel ∧
      z.cstate = (if y.core.cstate = .evicted then .running else y.core.cstate) ∧
      (away t p → s.heldq = [] → (∀ e ∈ s.queues, e.2.parked = []) → Memory.wf y.store.bytes = true → (∀ e ∈ y.store.bytes, e.1 < lsSize) → ∀ off, off < lsSize →
        t.byteAt (lsBase p + off) = y.store.bytes.look (fun _ => 0) off)) ∧
  (MayIssue (.halt h) s → (s.hold = true ∨ c.pending = []) →
    (isGateway c.phys = true ∨ (s.tileAt (s.teamTile c.phys)).team = none → exec (.halt h) s = .next
      { s with core := wentOn (.halt h) c { c with cstate := .idle, trapDue := none } }) ∧
    (isGateway c.phys = false → s.teamTile c.phys = n → held → m.st = .placed → c.phys ∈ ps → c.kernel = some kn →
      (∀ p ∈ ps, p ≠ c.phys → (s.coreAt p).cstate = .idle ∧ (s.coreAt p).kernel = some kn) →
      Completes (.halt h) s (fun t => t.core.cstate = .idle ∧ (t.tileAt n).team = none ∧ ∃ k',
        t.kernels.listed kn = some k' ∧ k'.teams = set .done ∧
        k'.st = if ∀ x ∈ set .done, x.st = .done then .draining else k.st))) ∧
  (∀ a b, k.st = .draining → k.abort = false → k.post = false → (∀ x ∈ k.teams, x.tileImg = none) →
    (∀ j ∈ k.tiles, (s.tileAt j).team = none ∧ (∀ e ∈ (s.tileAt j).cards, e.2.state = .ended) ∧ s.farFrom j = false ∧
      s.tileImages.listed (k.part * 512 + j) = none ∧
      ∀ pos, pos < 16 → (s.coreAt (s.physOfIndex (chipIndex (tileCore j pos)))).unacked = []) →
    s.dispReach k.part k.rcb.addr.toNat 128 = .mem a → DispPlain s k.part k.rcb.addr.toNat a →
    let box := (s.rcbAt a).mbox
    box.tag = true → box.otype = 3 → box.perm.getLsbD 3 = true → (s.mailbox (partCore k.part) box).isSome = true →
    s.dispReach k.part box.addr.toNat 64 = .mem b → DispPlain s k.part box.addr.toNat b → (s.coreAt (ownerOf b)).cstate ≠ .killed → (s.coreAt (ownerOf b)).paired = false → s.numAt (b + 48) 8 % 4 = 0 → (b + 64 ≤ a ∨ a + 128 ≤ b) →
    ∃ t k', exec (.kernelCompletion kn) s = .next t ∧ t.kernels.listed kn = some k' ∧ k'.st = .done ∧ k'.status = 0 ∧
      k'.tiles = [] ∧ t.numAt (a + 72) 8 = (5 + k.kid * 2 ^ 32) % 2 ^ 64 ∧ t.numAt b 8 = k.cookie.toNat ∧
      t.numAt (b + 8) 8 = (k.cls * 2 ^ 8 + k.kid * 2 ^ 32) % 2 ^ 64 ∧ t.numAt (b + 16) 8 = k.used % 2 ^ 64 ∧
      t.numAt (b + 24) 8 = k.header % 2 ^ 64 ∧ t.numAt (b + 48) 8 % 4 = 2) ∧
  (s.kernels = [(kn, k)] → k.live = true → k.tiles = [n] → held → (s.tileAt n).cards = [] → s.farFrom n = false →
    s.tileImages.listed (k.part * 512 + n) = none →
    (∀ x ∈ k.teams, x.st ≠ .swappingOut ∧ x.st ≠ .swappingIn) →
    (∀ pos, pos < 16 → (s.coreAt (s.physOfIndex (chipIndex (tileCore n pos)))).unacked = []) →
    (∀ p ∈ ps, still p ∧ (s.coreAt p).portq = [] ∧ (s.coreAt p).gang.fused = false) → ∃ t k', exec (.kernelAbort kn) s = .next t ∧
      t.kernels.listed kn = some k' ∧ k'.st = .aborted ∧ k'.status = 5 ∧ k'.tiles = [] ∧ (∀ x ∈ k'.teams, x.st = .done) ∧
      (t.tileAt n).team = none ∧ (∀ p ∈ ps, (s.coreAt p).awake = true → (t.coreAt p).cstate = .idle) ∧
      ∀ die e, die < 8 → e ∈ (t.dieAt die).pool → e.parent ≠ some kn)

/-- R381, R397, R399, R401 to R407: the instructions of the prism chains. -/
def Obligations.ChainInstructions : Prop := ∀ (h : Hd) (d a b cn : Name) (item kind side half mask : Nat) (s : State),
  let c := s.core
  let k := c.rdCap a
  let n := k.addr.toNat
  let x := s.chainAt n
  let checks := fun bit : Nat => ([(k.tag = false, .tag, nameVal a), (k.otype ≠ 6, .seal, nameVal a),
    (k.perm.getLsbD bit = false, .perm, nameVal a), (128 ≤ n ∨ c.part = 0 ∨ s.chainPart n ≠ c.part, .bounds, k.addr)] :
    List (Prop × Cause × Word))
  let words := (List.range 8).map (fun i => (c.ent (c.physOf b + i)).v)
  let labelCheck : List (Prop × Cause × Word) := [(∃ i, i < 8 ∧ k.label < (c.ent (c.physOf b + i)).l, .label, k.addr)]
  let recordLab := Highest (fun l => ∃ i, i < 8 ∧ l = (c.ent (c.physOf b + i)).l)
  let ready := NoReplay c ∧ c.pending = [] ∧ c.unacked = [] ∧ c.tabRun = none
  let puts := fun (i : Instr) (v : Word) (y : Chain) (t : State) => t.chainAt n = y ∧ (∀ m, m ≠ n → t.chainAt m = s.chainAt m) ∧
    WordPut i d ⟨v, 0⟩ s { t with chains := s.chains }
  let shadow := fun j : Nat => 2 * j + (if x.current.testBit j then 0 else 1)
  let gives := fun (y : Bank) (ws : List Word) (t : State) => t = { s with core := t.core } ∧
    LateCore (.ptrd h d a b item side half) c t.core ∧ VecWritten d (fun i => ⟨ws.getD i 0, y.lab⟩) c t.core.landReady
  (MayIssue (.prpush h d a b) s → ready → ∃ l, recordLab l ∧ Checked (.prpush h d a b) s (fun t =>
    let stopped := c.part ≠ 0 ∧ (s.partAt c.part).st ≠ .run
    let r : PRec := ⟨words.flatMap (fun w : Word => [w.setWidth 32, (w >>> 32).setWidth 32]), l, 0, 0, 0, 0, 0, none, none⟩
    (stopped → puts (.prpush h d a b) 4 x t) ∧ (¬ stopped → 64 ≤ x.inq.length → puts (.prpush h d a b) 2 x t) ∧
    (¬ stopped → x.inq.length < 64 → puts (.prpush h d a b) 0 { x with inq := x.inq ++ [r] } t)) (checks 1 ++ labelCheck)) ∧
  (MayIssue (.prpop h d a) s → ready → s.bufAt (bufKey c.phys) = [] →
    (x.outq = [] → Checked (.prpop h d a) s (fun t => t = { s with core := t.core } ∧ LateCore (.prpop h d a) c t.core ∧
      WordWritten .q ⟨1, 0⟩ false c t.core.landReady) (checks 0)) ∧
    (∀ r rest, x.outq = r :: rest →
      let v := BitVec.ofNat 64 (r.status + r.qst % 16 * 2 ^ 8 + r.facet % 8 * 2 ^ 12 + rest.length * 2 ^ 16)
      let e : QEntry := ⟨(List.range 8).map (fun i => BitVec.ofNat 64 (r.word (2 * i) + r.word (2 * i + 1) * 2 ^ 32)),
        [false, false, false, false], r.lab⟩
      Checked (.prpop h d a) s (fun t => t.chainAt n = { x with outq := rest } ∧ (∀ m, m ≠ n → t.chainAt m = s.chainAt m) ∧
        t = { s with core := t.core, chains := t.chains } ∧ LateCore (.prpop h d a) c t.core ∧
        RecordWritten d e false v c t.core.landReady) (checks 0))) ∧
  (MayIssue (.prclass h d a b) s → ready →
    (∀ f, f < 8 → facetOk f (words.getD f 0) = false → (∀ g, g < f → facetOk g (words.getD g 0) = true) →
      Checked (.prclass h d a b) s (puts (.prclass h d a b) (BitVec.ofNat 64 (0x100 + f)) x) (checks 5 ++ labelCheck)) ∧
    ((∀ f, f < 8 → facetOk f (words.getD f 0) = true) →
      (shadow 9 ∈ x.drain → (∀ f ∈ checks 5 ++ labelCheck, ¬ f.1) → Waits (.prclass h d a b) s) ∧
      (shadow 9 ∉ x.drain → ∃ l, recordLab l ∧ Checked (.prclass h d a b) s (puts (.prclass h d a b) 0
        (x.setBank (shadow 9) { x.bank (shadow 9) with cls := words, lab := Label.max (x.bank (shadow 9)).lab l }))
        (checks 5 ++ labelCheck)))) ∧
  (MayIssue (.ptwr h d a b cn item kind) s → ready → kind ≤ 3 →
    let i := Instr.ptwr h d a b cn item kind
    let m := c.rdCap b
    let v := (c.rd cn).v.toNat
    let first := v % 2 ^ 16
    let count := v / 2 ^ 16 % 2 ^ 16
    let fits := v < 2 ^ 32 ∧ 1 ≤ count ∧ (kind = 1 → first = 0 ∧ count ≤ 4096) ∧ (kind = 2 → first + count ≤ 512) ∧
      (kind = 3 → first + count ≤ 256) ∧ (kind = 0 → first + count ≤ 64)
    let reads := accessChecks s b m (m.perm.getLsbD 0 = true) (tabSize kind) (count * tabSize kind) m.addr none
    (¬ fits → Checked i s (puts i (BitVec.ofNat 64 (4 * 2 ^ 16)) x) (checks 5)) ∧
    (fits → shadow item ∈ x.drain → (∀ f ∈ checks 5 ++ reads, ¬ f.1) → Waits i s) ∧
    (fits → shadow item ∉ x.drain → PortOpen s m.addr (count * tabSize kind) → (c.duePreempt = true ∨ c.evt &&& c.evmask ≠ 0) →
      Checked i s (puts i (BitVec.ofNat 64 (2 * 2 ^ 16)) (x.setBank (shadow item)
        (if kind = 0 ∨ (x.bank (shadow item)).kind = kind then x.bank (shadow item)
         else { x.bank (shadow item) with kind := kind, tab := [], lab := 0 }))) (checks 5 ++ reads)) ∧
    (fits → shadow item ∉ x.drain → count = 1 → PortOpen s m.addr (tabSize kind) → s.sweepOf c = none →
      c.duePreempt = false → c.evt &&& c.evmask = 0 →
      Checked i s (fun t => ∃ o off, s.reach c m.addr (tabSize kind) = some (o, off) ∧
        let y := lsBase o + off
        let lab := s.labelOver y (tabSize kind)
        let old := x.bank (shadow item)
        let bank := if kind = 0 ∨ old.kind = kind then old else { old with kind := kind, tab := [], lab := 0 }
        let raised := Label.max bank.lab lab
        let ends := fun (v : Nat) (z : Bank) => puts i (BitVec.ofNat 64 v) (x.setBank (shadow item) z) t
        (kind = 0 → (k.label < lab → ends (5 * 2 ^ 16) bank) ∧ (¬ k.label < lab → ends 1 { bank with
          col := bank.col.put (fun _ => Cap.null) first { s.granule y with
            tag := (s.granule y).tag && m.perm.getLsbD 7 && k.perm.getLsbD 8 }
          lab := raised })) ∧
        (kind = 3 →
          let flags := s.numAt (y + 20) 4
          let e : TabEntry := ⟨s.numAt y 4, s.numAt (y + 4) 4, s.numAt (y + 8) 8, s.numAt (y + 16) 4, decide (flags = 1)⟩
          let bad := s.numAt (y + 24) 8 ≠ 0 ∨ 1 < flags ∨ e.mask < e.key ∨ actionOk item e.act = false
          (bad → ends (3 * 2 ^ 16) (if k.label < lab then bank else { bank with lab := raised })) ∧ (¬ bad → k.label < lab → ends (5 * 2 ^ 16) bank) ∧
          (¬ bad → ¬ k.label < lab → ends 1 { bank with tab := bank.tab.list first e, lab := raised })) ∧
        (kind = 1 → bank.tab = [] →
          let e : TabEntry := ⟨s.numAt y 8, 0, s.numAt (y + 8) 8, s.numAt (y + 16) 4, true⟩
          s.numAt (y + 20) 4 = 1 → s.numAt (y + 24) 8 = 0 → actionOk item e.act = true → ¬ k.label < lab →
          ends 1 { bank with tab := [(e.key * 0x9E3779B97F4A7C15 % 2 ^ 64 / 2 ^ 54, e)], lab := raised }))
        (checks 5 ++ reads))) ∧
  (∀ (y : TabRun) (o off : Nat), MayIssue (.ptwr h d a b cn item kind) s → NoReplay c → c.pending = [] → c.unacked = [] → c.tabRun = some y →
    rangeOk kind y.range = true → 0 < y.done → y.chain.addr.toNat = n →
    s.reach c y.image.addr (y.range.toNat / 2 ^ 16 % 2 ^ 16 * tabSize kind) = some (o, off) →
    s.portOpen (atSrc c.phys) o off (y.range.toNat / 2 ^ 16 % 2 ^ 16 * tabSize kind) (write := false) = true → (c.duePreempt = true ∨ c.evt &&& c.evmask ≠ 0) →
    Completes (.ptwr h d a b cn item kind) s (fun t => t.core.tabRun = none ∧
      puts (.ptwr h d a b cn item kind) (BitVec.ofNat 64 (y.done + 2 * 2 ^ 16)) x { t with core := { t.core with tabRun := some y } })) ∧
  (MayIssue (.ptrd h d a b item side half) s → ready →
    let y := x.bank (if side = 0 then 2 * item + (if x.current.testBit item then 1 else 0) else shadow item)
    let index := (c.rd b).v.toNat
    (item = 9 → Checked (.ptrd h d a b item side half) s (gives y
      ((List.range 4).map (fun i => y.cls.getD (4 * half + i) 0))) (checks 0)) ∧
    (item = 8 → let g := y.col.look (fun _ => Cap.null) index
      Checked (.ptrd h d a b item side half) s (gives y [g.addr, g.hi, 0, 0]) (checks 0)) ∧
    (item < 8 → y.kind = 3 →
      (∀ e, y.tab.listed index = some e → Checked (.ptrd h d a b item side half) s (gives y
        [BitVec.ofNat 64 (e.key + e.mask * 2 ^ 32), BitVec.ofNat 64 e.act, BitVec.ofNat 64 (e.d + e.valid.toNat * 2 ^ 32), 0]) (checks 0)) ∧
      (y.tab.listed index = none → Checked (.ptrd h d a b item side half) s (gives y [0, 0, 0, 0]) (checks 0))) ∧
    (item < 8 → y.kind = 1 →
      (∀ j e, y.find index = some (j, e) → e.key = index ∧ Checked (.ptrd h d a b item side half) s (gives y
        [BitVec.ofNat 64 e.key, BitVec.ofNat 64 e.act, BitVec.ofNat 64 (e.d + e.valid.toNat * 2 ^ 32), 0]) (checks 0)) ∧
      (y.find index = none → Checked (.ptrd h d a b item side half) s (gives y [0, 0, 0, 0]) (checks 0)))) ∧
  (MayIssue (.ptflip h a mask) s → ready →
    (c.woken = true → Checked (.ptflip h a mask) s (Passed (.ptflip h a mask) s) (checks 5)) ∧
    (c.woken = false → s.hold = false → x.flips = [] → Checked (.ptflip h a mask) s (fun t =>
      Passed (.ptflip h a mask) s { t with chains := s.chains } ∧
      (∀ j, j < 10 → (t.chainAt n).current.testBit j = (x.current.testBit j != mask.testBit j)) ∧
      (∀ m, m ≠ n → t.chainAt m = s.chainAt m) ∧ (t.chainAt n).inq = x.inq ∧ (t.chainAt n).pipe = x.pipe ∧
      (t.chainAt n).banks = x.banks) (checks 5)) ∧
    (c.woken = false → s.hold = true → (∀ f ∈ x.flips, f.1 ≠ c.phys) → Checked (.ptflip h a mask) s (fun t =>
      t.chainAt n = { x with flips := x.flips ++ [(c.phys, mask)] } ∧ (∀ m, m ≠ n → t.chainAt m = s.chainAt m) ∧
      t = { s with chains := t.chains, core := { c with waiting := some (0x40000 + n), stalled := true } }) (checks 5)))

/-- R384, R386, R388, R392 to R399: a record enters a chain, passes a facet and leaves; a flip; a bank that has drained. -/
def Obligations.ChainEvents : Prop := ∀ (n item bank p : Nat) (s : State), n < 128 →
  let x := s.chainAt n
  let changed := fun (i : Instr) (y : Chain) => ∃ t, exec i s = .next t ∧ t.chainAt n = y ∧
    (∀ m, m ≠ n → t.chainAt m = s.chainAt m) ∧ t = { s with chains := t.chains }
  (24 ≤ x.pipe.length ∨ x.stuck = true → changed (.chainRecordEnter n) x) ∧
  (∀ r rest, x.pipe.length < 24 → x.stuck = false → x.recirc = r :: rest →
    changed (.chainRecordEnter n) { x with recirc := rest, pipe := x.pipe ++ [r] }) ∧
  (∀ r rest, x.pipe.length < 24 → x.stuck = false → x.recirc = [] → x.inq = r :: rest →
    changed (.chainRecordEnter n) { x with inq := rest, pipe := x.pipe ++ [{ r with stamp := x.current, facet := 0 }] }) ∧
  (∀ mask rest, x.flips = (p, mask) :: rest → ∃ t, exec (.bankFlip n) s = .next t ∧ (t.chainAt n).flips = rest ∧
    (∀ j, j < 10 → (t.chainAt n).current.testBit j = (x.current.testBit j != mask.testBit j)) ∧
    t.coreAt p = { s.coreAt p with woken := true } ∧ ∀ q, q ≠ p → t.coreAt q = s.coreAt q) ∧
  (bank < 2 → (∀ r ∈ x.pipe ++ x.recirc, (if r.stamp.testBit item then 1 else 0) ≠ bank) → ∃ t,
    exec (.bankDrainComplete n item bank) s = .next t ∧ 2 * item + bank ∉ (t.chainAt n).drain) ∧
  (∀ (bk : Bank) (key : Nat), bk.tab.Pairwise (fun x y => x.1 < y.1) → ∀ j e, bk.find key = some (j, e) →
    bk.tab.listed j = some e ∧
    (bk.kind = 1 → e.key = key) ∧
    (bk.kind = 2 → e.valid = true ∧ (key ^^^ e.key) &&& e.mask = 0 ∧
      ∀ i g, bk.tab.listed i = some g → i < j → g.valid = true → (key ^^^ g.key) &&& g.mask ≠ 0) ∧
    (bk.kind = 3 → e.valid = true ∧ e.key ≤ key ∧ key ≤ e.mask ∧
      ∀ i g, bk.tab.listed i = some g → i < j → g.valid = true → ¬ (g.key ≤ key ∧ key ≤ g.mask))) ∧
  (∀ r rest st, x.pipe = r :: rest → r.leave = some st →
    (x.outq.length < 64 → s.hold = true → changed (.chainRecordExit n)
      { x with pipe := rest, stuck := false, outq := x.outq ++ [{ r with status := st, leave := none }] }) ∧
    (64 ≤ x.outq.length → changed (.chainRecordExit n) { x with stuck := true })) ∧
  (∀ r rest, x.pipe = r :: rest → r.doing = none → r.leave = none → r.facet < 8 → 64 ≤ x.outq.length →
    let w := (x.bank (2 * 9 + (r.stamp.testBit 9).toNat)).cls.getD r.facet 0
    (w.extractLsb' 20 2).toNat = 0 → (w.extractLsb' 16 4).toNat = 8 →
    changed (.chainRecordExit n) { x with pipe := { r with leave := some r.status } :: rest, stuck := true }) ∧
  (∀ r rest, x.pipe = r :: rest → x.outq.length < 64 → r.doing = none → r.leave = none → s.hold = true → r.facet < 8 →
    let w := (x.bank (2 * 9 + (r.stamp.testBit 9).toNat)).cls.getD r.facet 0
    let bk := x.bank (2 * r.facet + (r.stamp.testBit r.facet).toNat)
    let column := fun j : Nat => SMap.look (fun _ => Cap.null) (x.bank (2 * 8 + (r.stamp.testBit 8).toNat)).col j
    let kind := (w.extractLsb' 20 2).toNat
    let field := fun i : Nat => r.word (w.extractLsb' i 4).toNat
    let width := (w.extractLsb' 45 6).toNat + 1
    let key := if kind = 1 then (field 28 * 2 ^ 32 + field 24) % 2 ^ width
      else if kind = 2 then field 36 * 2 ^ 96 + field 32 * 2 ^ 64 + field 28 * 2 ^ 32 + field 24
      else field 24 / 2 ^ (w.extractLsb' 40 5).toNat % 2 ^ width
    let found := if bk.kind = kind then bk.find key else none
    let r' : PRec := { r with lab := Label.max r.lab bk.lab }
    let leaves := fun (r : PRec) => { x with pipe := rest, stuck := false, outq := x.outq ++ [r] }
    let out := fun (r : PRec) => changed (.chainRecordExit n) (leaves r)
    (w.extractLsb' 16 4).toNat = 8 →
    (kind = 0 → out r) ∧
    (kind ≠ 0 → ∀ (arg op prim : Nat) (dat idx : BitVec 32), prim = op * 2 ^ 12 + arg → arg < 2 ^ 12 → op < 9 →
      ((∃ j e, found = some (j, e) ∧ e.act = prim ∧ dat = BitVec.ofNat 32 e.d ∧ idx = BitVec.ofNat 32 j) ∨
        (found = none ∧ (w.extractLsb' 0 16).toNat = prim ∧ dat = 0 ∧ idx = 0xFFFFFFFF#32)) →
      let i := arg % 16
      let imm := arg / 64
      let words := (List.range 8).map (fun i => BitVec.ofNat 64 (r.word (2 * i) + r.word (2 * i + 1) * 2 ^ 32))
      let gone := { x with pipe := rest, stuck := false }
      (op = 0 → out r') ∧
      (op = 1 → arg / 16 % 4 < 3 → out { r' with
        words := r.words.set i (if arg / 16 % 4 = 0 then dat else if arg / 16 % 4 = 1 then BitVec.ofNat 32 imm else idx) }) ∧
      (op = 2 → arg / 16 % 4 < 3 → out { r' with
        words := r.words.set i (r.words.getD i 0 + (if arg / 16 % 4 = 0 then dat
          else if arg / 16 % 4 = 1 then (BitVec.ofNat 6 imm).signExtend 32 else idx)) }) ∧
      (op = 3 → let k := column (arg % 64)
        (k.tag = false ∨ k.otype ≠ 5 ∨ k.perm.getLsbD 1 = false → out { r' with status := 3 }) ∧
        (k.tag = true → k.otype = 5 → k.perm.getLsbD 1 = true →
          let y := s.push k.addr.toNat ⟨words, [false, false, false, false], r'.lab⟩ false
          (k.label < r'.lab → out { r' with status := 5 }) ∧
          (¬ k.label < r'.lab → y.2 ≠ 0 → out { r' with status := 4, qst := y.2 }) ∧
          (¬ k.label < r'.lab → y.2 = 0 → y.1.chains = s.chains → ∃ t, exec (.chainRecordExit n) s = .next t ∧
            t.chainAt n = gone ∧ t = { y.1 with chains := t.chains }))) ∧
      (op = 4 → let k := column (arg % 64)
        let place := k.addr + BitVec.ofNat 64 (4 * imm)
        let c := partCore (s.chainPart n)
        let bad := k.tag = false ∨ s.revoked c k = true ∨ k.otype ≠ 0 ∨ ¬ (k.perm.getLsbD 0 = true ∧ k.perm.getLsbD 1 = true) ∨
          place.toNat % 4 ≠ 0 ∨ ¬ (k.base ≤ place.toNat ∧ (place.toNat : Int) + 4 ≤ k.top)
        (bad → out { r' with status := 3 }) ∧ (¬ bad → k.label < r'.lab → out { r' with status := 5 }) ∧
        (¬ bad → ¬ k.label < r'.lab → (selfWindow ≤ place.toNat ∨ s.reach c place 4 = none) → out { r' with status := 3 }) ∧
        (∀ o off, ¬ bad → place.toNat < selfWindow → ¬ k.label < r'.lab → s.reach c place 4 = some (o, off) →
          (s.coreAt o).portq = [] → (s.coreAt o).paired = false →
          (s.portBlocks (s.chainPart n) o (chainSrc n) off 4 = true → ∃ t u, exec (.chainRecordExit n) s = .next t ∧
            t.chainAt n = { x with pipe := { r' with doing := some u } :: rest, stuck := true } ∧
            (∀ m, m ≠ n → t.chainAt m = s.chainAt m) ∧ ∀ z, t.byteAt z = s.byteAt z) ∧
          (s.portBlocks (s.chainPart n) o (chainSrc n) off 4 = false → (s.coreAt o).cstate ≠ .killed → s.traceLen o = 0 →
            (off + 4 ≤ traceOff ∨ traceOff + 4 ≤ off) → ∃ t, exec (.chainRecordExit n) s = .next t ∧ t.chainAt n = leaves r' ∧
            t.numAt (lsBase o + off) 4 = (s.numAt (lsBase o + off) 4 + 1) % 2 ^ 32))) ∧
      (op = 5 → i = 8 → arg < 16 → out r') ∧
      (op = 6 → r.rc < 3 → let y := { x with pipe := rest, stuck := false, recirc := x.recirc ++ [{ r' with rc := r.rc + 1, facet := arg % 8 }] }
        changed (.chainRecordExit n) y ∧ changed (.chainRecirculate n) y) ∧
      (op = 6 → 3 ≤ r.rc → found = none → out { r' with status := 2 }) ∧
      (op = 6 → 3 ≤ r.rc → found ≠ none → (w.extractLsb' 0 16).toNat < 2 ^ 12 → out { r' with status := 2 }) ∧
      (op = 6 → 3 ≤ r.rc → ∀ j, found ≠ none → (w.extractLsb' 0 16).toNat = 2 ^ 12 + j → j < 16 →
        out { r' with status := 2, words := r.words.set j dat }) ∧
      (op = 7 → changed (.chainRecordExit n) gone) ∧
      (op = 8 → let rank := r.word i % 2 ^ 13
        (s.ofRank (partCore (s.chainPart n)) rank = none → out { r' with status := 3 }) ∧
        (∀ q, s.ofRank (partCore (s.chainPart n)) rank = some q → s.away (s.chainPart n) q = false →
          let msg : InMsg := ⟨.punt, words.take 4, r'.lab, 0x1FFF⟩
          (s.coreAt q).refusesMsg msg = false → ∃ t, exec (.chainRecordExit n) s = .next t ∧ t.chainAt n = gone ∧
          t = { s with chains := t.chains, flights := s.flights ++ [⟨q, msg, none, s.chainPart n⟩] }))))

/-- R411 to R413, R415 to R417, R420, R423 to R430: TLBW, TLBI, FRPOP and CRESUME; a burst found bad; a pseudo-channel dropped. -/
def Obligations.PageService : Prop := ∀ (h : Hd) (d a b : Name) (ext n m bad : Nat) (s : State),
  let c := s.core
  let cl := clusterOf c.phys
  let serves := fun ok : Nat → Bool => ([(ok c.phys = false, .illegal, BitVec.ofNat 64 c.word)] : List (Prop × Cause × Word))
  let either := fun p : Nat => s.isLoupe p || s.isServer p
  let ready := NoReplay c ∧ c.pending = [] ∧ c.unacked = []
  let e : TEntry := (c.ent (c.physOf a + 1)).v ++ (c.ent (c.physOf a)).v
  let tgt := (c.rd b).v.toNat
  let tile := 4 * cl + tgt % 4
  let x := s.tileAt tile
  let req := tgt / 2 ^ 32 % 2 ^ 16
  let puts := fun (status : Word) (t : State) =>
    WordPut (.tlbw h d a b) d ⟨status, 0⟩ s { t with tiles := s.tiles, missq := s.missq, inflight := s.inflight, pages := s.pages } ∧
    ∀ j, j ≠ tile → t.tileAt j = s.tileAt j
  let wrong := tgt / 2 ^ 48 ≠ 0 ∨ tgt / 4 % 2 ^ 14 ≠ 0 ∨ (16 ≤ req ∧ req ≠ 0xFFFF) ∨ s.malformed e = true ∨
    (teValid e = true ∧ hostBase ≤ tePpn e * 4096 ∧ tePart e ∈ s.unregistered)
  let free := fun t : State => req ≠ 0xFFFF → (t.tileAt tile).misses.listed req = none
  let walking := req ≠ 0xFFFF → ∃ y, x.misses.listed req = some y ∧ y.st = .walking
  let stale := tgt / 2 ^ 16 % 2 ^ 16 ≠ x.gen
  let tlbw := fun P : State → Prop => Checked (.tlbw h d a b) s P (serves s.isLoupe ++
    [((∀ k, a ≠ .w k), .illopnd, BitVec.ofNat 64 (a.code h.len)), (c.top ≤ c.physOf a + 1, .lenslimit, BitVec.ofNat 64 (nameNum a + 1))])
  let others := fun (t : State) (j : TEntry) => j ∈ x.tlb ∧ ¬ (tePart j = tePart e ∧ teMeets j e = true) → j ∈ (t.tileAt tile).tlb
  let takes := fun (ws : List Word) (left : Nat) (t : State) => LateCore (.frpop h d ext) c t.core ∧
    ∃ c1, VecWritten d (fun i => ⟨ws.getD i 0, 0⟩) c c1 ∧
      WordWritten .q ⟨BitVec.ofNat 64 (left * 2 ^ 16), 0⟩ false c1 t.core.landReady
  (MayIssue (.tlbw h d a b) s → ready →
    (wrong → tlbw (fun t => puts 2 t ∧ t.tileAt tile = x)) ∧
    (¬ wrong → stale → tlbw (fun t => puts 1 t ∧ free t ∧ (t.tileAt tile).tlb = x.tlb)) ∧
    (¬ wrong → ¬ stale → ¬ walking → tlbw (fun t => puts 3 t ∧ t.tileAt tile = x)) ∧
    (¬ wrong → ¬ stale → walking → teValid e = true → tlbw (fun t => puts 0 t ∧ free t ∧ e ∈ (t.tileAt tile).tlb ∧
      (x.tlb.length < 1024 → ∀ j, others t j) ∧
      ∀ j ∈ (t.tileAt tile).tlb, j = e ∨ (j ∈ x.tlb ∧ ¬ (tePart j = tePart e ∧ teMeets j e = true)))) ∧
    (¬ wrong → ¬ stale → walking → teValid e = false → teFcode e = 0 → tlbw (fun t => puts 0 t ∧ free t ∧
      ∀ j, j ∈ (t.tileAt tile).tlb ↔ j ∈ x.tlb ∧ ¬ (tePart j = tePart e ∧ teVpn j * 4096 ≤ teVpn e * 4096 ∧
        teVpn e * 4096 < teVpn j * 4096 + teBytes j))) ∧
    (∀ y k i w, ¬ wrong → ¬ stale → req ≠ 0xFFFF → x.misses.listed req = some y → y.st = .walking → teValid e = false →
      teFcode e ≠ 0 → s.hold = true → x.cards = [(i, k)] → k.miss = some w → w.slot = req → k.cancel = false →
      tlbw (fun t => puts 0 t ∧ free t ∧
        cardOf t tile i = some { k with
          due := some ⟨if y.prot then 2 else 1, decide (teFcode e = 2), w.write, w.va, s.clock % 2 ^ 32⟩
          miss := none }))) ∧
  (MayIssue (.tlbi h a b ext) s → ready → ext < 4 → let v := (c.rd b).v
    let reached := fun j : Nat => if ext % 2 = 0 then j / 4 = cl else j < 512
    let used := fun w : FarWrite => reached w.tile ∧ ∃ e, w.via = some e ∧ tePart e = v.toNat ∧
      (2 ≤ ext ∨ teCovers e (c.rd a).v.toNat = true)
    let checks := serves either ++ [(64 ≤ v.toNat, .bounds, v)]
    ((∃ z ∈ s.cardbuf, ∃ w ∈ z.2, used w) → (∀ z ∈ s.cardbuf, ∀ w ∈ z.2, used w → s.away w.part w.store = true) →
      (∀ f ∈ checks, ¬ f.1) → Waits (.tlbi h a b ext) s) ∧
    ((∀ z ∈ s.cardbuf, ∀ w ∈ z.2, ¬ used w) → Checked (.tlbi h a b ext) s (fun t => Passed (.tlbi h a b ext) s { t with tiles := s.tiles } ∧ ∀ j,
      (¬ reached j → t.tileAt j = s.tileAt j) ∧
      (reached j → t.tileAt j = { s.tileAt j with
        tlb := (s.tileAt j).tlb.filter (fun e => !(decide (tePart e = v.toNat) && (decide (2 ≤ ext) || teCovers e (c.rd a).v.toNat)))
        gen := ((s.tileAt j).gen + 1) % 2 ^ 16 })) checks)) ∧
  (MayIssue (.frpop h d ext) s → ready →
    (∀ y, ext = 0 → s.missq.look (fun _ => []) cl = [(n, m)] → (s.tileAt n).misses.listed m = some y → y.part < 64 →
      s.walking cl y.part < 16 → Checked (.frpop h d 0) s (fun t =>
        takes [BitVec.ofNat 64 y.va, 0, BitVec.ofNat 64 y.card, BitVec.ofNat 64 (m + n % 4 * 2 ^ 4 + y.write.toNat * 2 ^ 8 +
          y.prot.toNat * 2 ^ 9 + y.part * 2 ^ 10 + y.gen * 2 ^ 16)] 0 t ∧ t.missq.look (fun _ => []) cl = [] ∧
        t.walking cl y.part = s.walking cl y.part + 1 ∧
        (t.tileAt n).misses.listed m = some { y with st := .walking } ∧ (t.tileAt n).tlb = (s.tileAt n).tlb) (serves s.isLoupe)) ∧
    (∀ r rest, (ext = 1 ∧ (s.dieAt (dieOf c.phys)).retry = r :: rest) ∨ (ext = 2 ∧ (s.dieAt (dieOf c.phys)).term = r :: rest) →
      Checked (.frpop h d ext) s (fun t => takes r.words rest.length t ∧ t = { s with core := t.core, dies := t.dies } ∧
        t.dieAt (dieOf c.phys) = (if ext = 1 then { s.dieAt (dieOf c.phys) with retry := rest }
          else { s.dieAt (dieOf c.phys) with term := rest })) (serves s.isServer)) ∧
    (((ext = 1 ∧ (s.dieAt (dieOf c.phys)).retry = []) ∨ (ext = 2 ∧ (s.dieAt (dieOf c.phys)).term = [])) →
      Checked (.frpop h d ext) s (fun t => t = { s with core := t.core } ∧ LateCore (.frpop h d ext) c t.core ∧
        WordWritten .q ⟨1, 0⟩ false c t.core.landReady) (serves s.isServer))) ∧
  (MayIssue (.cresume h d a bad) s → ready → bad ≤ 1 →
    let id := (c.rd a).v.toNat
    let t0 := id / 2 ^ 32
    let served := t0 < 512 ∧ (if s.isLoupe c.phys = true then t0 / 4 = cl else tileDie t0 = dieOf c.phys)
    let named := fun k : Card => cardOf s t0 (id % 32) = some k ∧ BitVec.ofNat 64 (id % 2 ^ 32) = BitVec.ofNat 64 (k.seq * 256 + id % 32)
    ((¬ served ∨ ∀ k, ¬ named k) → Checked (.cresume h d a bad) s (WordPut (.cresume h d a bad) d ⟨0x8047#64, 0⟩ s)
      (serves either)) ∧
    (∀ k, served → named k → (k.state ≠ .faulted → Checked (.cresume h d a bad) s
        (WordPut (.cresume h d a bad) d ⟨statusWord k, 0⟩ s) (serves either)) ∧
      (k.state = .faulted → k.ending = none → bad = 0 → Checked (.cresume h d a 0) s (fun t =>
        WordPut (.cresume h d a 0) d ⟨statusWord k, 0⟩ s { t with tiles := s.tiles } ∧
        cardOf t t0 (id % 32) = some { k with state := .waiting }) (serves either)) ∧
      (k.state = .faulted → k.ending = none → bad = 1 → k.slot = none → EndsAtOnce s t0 k → Checked (.cresume h d a 1) s (fun t =>
        (∃ k', cardOf t t0 (id % 32) = some k' ∧ EndedAs 0x43 k k') ∧
        (writable d = true → d ≠ .st → t.core.rd d = ⟨statusWord k, 0⟩)) (serves either)))) ∧
  (64 * n < s.hbmTop → ∃ t, exec (.hbmScrub n bad) s = .next t ∧
    t = { s with bursts := t.bursts, reports := s.reports ++ if bad = 0 then [] else [.poisoned n] } ∧
    (bad = 0 → t = s) ∧ (bad ≠ 0 → t.burst (64 * n) = { s.burst (64 * n) with poison := true, writer := (0, 0), written := 0 }) ∧
    ∀ j, j ≠ n → t.burst (64 * j) = s.burst (64 * j)) ∧
  (n < 512 → n ∉ s.dead → s.repair = none → s.others = [] → c.cstate = .running → c.part ≠ 0 → c.tabRun ≠ none → c.interval = none →
    c.pair.pstate = .unpaired → exec (.pcDropRepair n) s = .next { s with repair := some n }) ∧
  (n < 512 → n ∉ s.dead → (s.repair = none ∨ s.repair = some n) →
    (∀ p, ((s.coreAt p).cstate = .running → (s.coreAt p).part = 0) ∧ (s.coreAt p).cstate ≠ .evicted) →
    (∀ z ∈ s.tiles, ∀ y ∈ z.2.cards, y.2.kind.isMatrix = true → y.2.state ≠ .running) →
    ∃ t, exec (.pcDropRepair n) s = .next t ∧ t.dead = s.dead ++ [n] ∧ t.repair = none ∧
    t.pcdrop.look (fun _ => 0) (n / 64) = s.pcdrop.look (fun _ => 0) (n / 64) + 1 ∧
    (∀ y, (y < t.hbmTop ∨ s.hbmTop ≤ y) → t.byteAt y = s.byteAt y) ∧
    (∀ y, t.hbmTop ≤ y → y < s.hbmTop → t.byteAt y = 0) ∧
    ∀ j e, e ∈ (t.tileAt j).tlb → e ∈ (s.tileAt j).tlb ∧ ¬ (t.hbmTop < tePpn e * 4096 + teBytes e ∧ tePpn e * 4096 < s.hbmTop))

/-- R242, R436, R437: a core evicted and restored, and the turns of SHARED partitions. -/
def Obligations.Evictions : Prop := ∀ (p n part : Nat) (x : CoreImg) (s : State), Named s p →
  let u := s.focus p
  let c := u.core
  let quiet := fun k : Core => k.pending = [] ∧ k.unacked = [] ∧ (∀ d, k.drain = some d → d.2 = 0) ∧ k.interval = none ∧ k.tabRun = none ∧
    k.pair.pstate = .unpaired ∧ k.gang.fused = false
  let noMatrix := isGateway p = true ∨ tilePos p ≠ 15 ∨
    ∀ e ∈ (u.tileAt (tileOf p)).cards, e.2.kind.isMatrix = true → e.2.state ≠ .running
  let saved := fun (k : Core) (x : CoreImg) => x.core = { k with
    cstate := .evicted, stalled := false, waiting := none } ∧ ∀ off, off < 0x60000 →
      k.groupSt (off / 0x20000) ≠ .sleeping → x.store.bytes.look (fun _ => 0) off = s.byteAt (lsBase p + off)
  let back := fun (k : Core) => k.regs = x.core.regs ∧ k.tags = x.core.tags ∧ k.lens = x.core.lens ∧ k.pc = x.core.pc ∧
    k.pcc = x.core.pcc ∧ k.mode = x.core.mode ∧ k.opf = x.core.opf ∧ k.q = x.core.q ∧
    (x.core.fpWait = none → k.fpWait = none ∧ k.inbox = x.core.inbox.take 64) ∧
    (x.core.fpWait ≠ none → k.fpWait = none ∧ k.duePreempt = true) ∧
    k.hlens = x.core.hlens ∧ k.hpcc = x.core.hpcc ∧ k.part = x.core.part ∧
    k.cstate = if x.core.cstate = .evicted then .running else x.core.cstate
  let stored := fun t : State => Memory.wf x.store.bytes = true → (∀ e ∈ x.store.bytes, e.1 < lsSize) →
    ∀ off, off < lsSize → t.byteAt (lsBase p + off) = x.store.bytes.look (fun _ => 0) off
  (u.evictDue p = false → Event (.coreEvict p) s u) ∧
  (u.evictDue p = true → c.cstate = .running → quiet c → c.waiting = none → (∀ e ∈ u.waits, e.who ≠ .core p) → noMatrix → ∃ t y,
    Event (.coreEvict p) s t ∧ t.core = { c with cstate := .evicted, stalled := false } ∧ t.mem = u.mem ∧
    t.images.listed (u.imageKey p) = some y ∧ saved c y) ∧
  (c.cstate = .evicted → (c.part = 0 ∨ (u.partAt c.part).st = .run) → s.repair = none → s.fw.activating = false → u.images.listed (u.imageKey p) = some x → s.hold = true →
    s.heldq = [] → ∃ t, Event (.coreRestore p) s t ∧ back t.core ∧ stored t ∧ t.core.phys = p ∧ t.core.portq = c.portq ∧
      ((∀ e ∈ x.store.bytes, e.1 < lsSize) → ∀ y, y < lsBase p ∨ lsBase p + lsSize ≤ y → t.byteAt y = u.byteAt y) ∧ t.images = u.images.drop (u.imageKey p)) ∧
  (let y := s.partAt part
    let i := s.indexOf p
    let key := part * 16384 + (i - y.base)
    let k := s.coreAt p
    0 < part → part < 64 → n < 512 → s.repair = none → s.fw.activating = false → x.core.part = part → y.shared = true → y.st = .run → y.base = 16 * n → y.len = 16 → p ∈ tileCores n → k.phys = p →
    16 * n ≤ i → i < 16 * n + 16 → y.slots.testBit (s.clock / 500000 % 16) = true → s.hold = true → s.heldq = [] →
    (∀ q ∈ tileCores n, q ≠ p → (s.coreAt q).part = part ∧ (s.coreAt q).cstate ≠ .evicted) →
    s.images.listed key = some x →
    (k.part = part → k.cstate = .evicted → ∃ t, exec (.sharedSlotStart part) s = .next t ∧ back (t.coreAt p) ∧ stored t) ∧
    (k.part ≠ 0 → k.part ≠ part → k.cstate = .running → quiet k → k.waiting = none → (∀ e ∈ s.waits, e.who ≠ .core p) → noMatrix →
      x.core.cstate = .evicted → s.usesTile part n = false → tileOf p = n → i < 16384 → ∃ t z,
        exec (.sharedSlotStart part) s = .next t ∧ back (t.coreAt p) ∧ stored t ∧
        t.images.listed (k.part * 16384 + (i - (s.partAt k.part).base)) = some z ∧ saved k z ∧
        (t.coreAt p).portq = k.portq.map (fun y => { y with arrived := false })))

/-- R344 to R346, R352: what a descriptor write, a refill, a ring error and a doorbell do to a queue. -/
def Obligations.QueueStates : Prop := ∀ (n cfg lo hi tail : Nat) (s : State), n < 16384 →
  let q := s.queueAt n
  let changed := fun (i : Instr) (x : Queue) (ans : Answer) => ∃ t, exec i s = .next t ∧ t.queueAt n = x ∧
    (∀ m, m ≠ n → t.queueAt m = s.queueAt m) ∧ t = { s with queues := t.queues, answer := ans }
  let rlen : Nat := cfg % 2 ^ 21
  let ring := Cap.ofWords (BitVec.ofNat 64 lo) (BitVec.ofNat 64 hi) (decide (rlen ≠ 0))
  let kind := cfg / 2 ^ 38 % 4
  let weight := cfg / 2 ^ 40 % 2 ^ 8
  let keeps := cfg / 2 ^ 58 % 2 ^ 6 = 0 ∧ cfg / 2 ^ 21 % 2 ^ 11 = 0 ∧ kind ≠ 3 ∧ weight ≠ 0 ∧ (rlen ≠ 0 →
    (∃ i, i < 21 ∧ rlen = 2 ^ i) ∧ ring.sound = true ∧ ring.otype = 0 ∧ ring.base % 64 = 0 ∧ 0 ≤ ring.base ∧
    ring.top = ring.base + 64 * rlen ∧ ring.top ≤ s.hbmTop ∧ ring.perm.getLsbD 0 = true ∧ ring.perm.getLsbD 1 = true ∧
    ring.perm.getLsbD 7 = true ∧ ring.perm.getLsbD 8 = true)
  let fields : Queue := { q with
    part := cfg / 2 ^ 52 % 2 ^ 6
    prio := cfg / 2 ^ 48 % 2 ^ 4
    weight := weight
    kind := kind
    bin := cfg.testBit 37
    hostp := cfg.testBit 36
    rlen := rlen
    ring := ring }
  let legal := fun new : QSt => q.st = new ∨ (q.st, new) ∈ ([(.off, .on), (.on, .stopped), (.stopped, .on), (.stopped, .off),
    (.fault, .off)] : List (QSt × QSt))
  (∀ i new, (i, new) ∈ ([(.queueStateOn n cfg lo hi, .on), (.queueStateStop n cfg lo hi, .stopped),
      (.queueStateOff n cfg lo hi, .off)] : List (Instr × QSt)) →
    (keeps → legal new → (new = .on → s.heldq = []) → changed i (if new = .off ∧ q.st ≠ .off then
      { fields with st := .off, head := q.tail, seg := [], parked := [], pushers := [] } else { fields with st := new }) .accepted) ∧
    (¬ (keeps ∧ legal new) → exec i s = .next { s with answer := .refused })) ∧
  (let i := Instr.queueSegmentRefill n
    let place := q.ring.base.toNat + 64 * ((q.head + q.seg.length) % q.rlen);
    (q.seg.length < 16 → q.seg.length < (q.tail + 2 ^ 64 - q.head) % 2 ^ 64 → (s.burst place).poison = true →
      (q.st = .on → changed i { q with st := .fault } s.answer) ∧ (q.st ≠ .on → exec i s = .next s)) ∧
    (q.seg.length < 16 → q.seg.length < (q.tail + 2 ^ 64 - q.head) % 2 ^ 64 → (s.burst place).poison = false → ∃ e : QEntry,
      e.words = (List.range 8).map (fun j => BitVec.ofNat 64 (s.numAt (place + 8 * j) 8)) ∧
      e.tags = (List.range 4).map (fun j => s.memTagAt (place + 16 * j)) ∧ e.lab = s.labelOver place 64 ∧
      changed i { q with seg := q.seg ++ [e] } s.answer) ∧
    (¬ (q.seg.length < 16 ∧ q.seg.length < (q.tail + 2 ^ 64 - q.head) % 2 ^ 64) → exec i s = .next s)) ∧
  (let i := Instr.queueRingError n;
    (q.st = .on → q.rlen ≠ 0 → changed i { q with st := .fault } s.answer) ∧
    (¬ (q.st = .on ∧ q.rlen ≠ 0) → exec i s = .next s)) ∧
  (let rung := fun (f w : Nat) (done : Bool) =>
      (⟨f, w, 8, none, 0, bytesOf 8 (tail % 2 ^ 64), done, done, false, q.part, some (queueReg n)⟩ : Piece)
    let count := (tail % 2 ^ 64 + 2 ^ 64 - q.head) % 2 ^ 64
    let held := (q.tail + 2 ^ 64 - q.head) % 2 ^ 64
    let acts := q.hostp = true ∧ (q.st = .on ∨ q.st = .stopped) ∧ q.part ≠ 0 ∧ q.part ∉ s.unregistered
    (s.endpoint = false → exec (.queueDoorbell n tail) s = .next s) ∧
    (s.endpoint = true → s.hold = true →
    exec (.queueDoorbell n tail) s = .next { s with
      inbound := s.inbound ++ [rung q.part s.nextWrite false], nextWrite := s.nextWrite + 1 }) ∧
    ∀ f w, s.hold = true → s.inbound = [rung (fnOrder f) w false] →
      let performs := fun x : Queue => ∃ t, exec (.inboundPieceSend f w) s = .next t ∧ t.queueAt n = x ∧
        (∀ m, m ≠ n → t.queueAt m = s.queueAt m) ∧ t = { s with queues := t.queues, inbound := [rung (fnOrder f) w true] }
      (¬ acts → performs q) ∧ (acts → q.rlen < count ∨ count < held → performs { q with st := .fault }) ∧
      (acts → held ≤ count → count ≤ q.rlen → q.parked = [] → performs { q with
        tail := tail % 2 ^ 64
        since := if held = 0 then s.clock else q.since }))

/-- R382, R419, R431 to R435, R444: a partition configured, started, stopped, resumed and released. -/
def Obligations.Partitions : Prop := ∀ (part root why enc key : Nat) (entry : List Byte) (pages : List (Nat × Nat)) (s : State), 0 < part → part < 64 →
  let old := s.parts.listed part
  let x := old.getD Part.free
  let refused := fun i : Instr => exec i s = .next { s with answer := .refused }
  let same := fun t : State => ∀ j, j ≠ part → t.parts.listed j = s.parts.listed j
  let becomes := fun (i : Instr) (y : Part) (P : State → Prop) => ∃ t, exec i s = .next t ∧ t.parts.listed part = some y ∧ same t ∧
    t.answer = .accepted ∧ P t
  let ownQueues := fun (f : Queue → Queue) (t : State) => SMap.wf (fun _ => Queue.reset) s.queues = true →
    ∀ n, t.queueAt n = if (s.queueAt n).part = part then f (s.queueAt n) else s.queueAt n
  let emptied := fun q : Queue => { q with st := .off, head := q.tail, seg := [], parked := [], pushers := [] }
  let idle := s.heldq = [] ∧ (∀ j t, s.tiles.listed j = some t → t.team = none) ∧ s.ports = []
  let resets := fun (mask : Nat) (t : State) => ∀ n, t.chainAt n = if mask.testBit n then Chain.reset else s.chainAt n
  (let f := fun k m : Nat => ofBytes ((entry.drop k).take m)
    let i := Instr.partitionTableWrite part ⟨entry, pages⟩
    let base := f 0 8 % 2 ^ 13
    let len := f 0 8 / 2 ^ 16 % 2 ^ 14
    let y : Part := { x with
      base := base
      len := len
      shared := (f 0 8).testBit 32
      slots := f 8 2
      weight := f 10 1
      keyBase := f 16 1
      keyCount := f 17 1
      chains := f 32 16
      dbar := f 48 16
      pbar := f 64 8
      save := f 72 8
      dlog := f 80 8
      vfring := f 88 8
      ready := f 96 8
      child := f 104 8 }
    let layout := fun z : Part => [z.base, z.len, z.shared.toNat, z.slots, z.weight, z.keyBase, z.keyCount, z.chains, z.dbar, z.pbar]
    let wants := fun z : Part =>
      (0 < y.len ∧ 0 < z.len ∧ y.base < z.base + z.len ∧ z.base < y.base + y.len ∧ (y.shared = false ∨ z.shared = false ∨ y.slots &&& z.slots ≠ 0)) ∨
      y.chains &&& z.chains ≠ 0 ∨ y.dbar &&& z.dbar ≠ 0 ∨ y.pbar &&& z.pbar ≠ 0 ∨
      (0 < y.keyCount ∧ 0 < z.keyCount ∧ y.keyBase < z.keyBase + z.keyCount ∧ z.keyBase < y.keyBase + y.keyCount)
    let aligned := fun a n m : Nat => a % m = 0 ∧ a + n ≤ s.hbmTop
    let rejected := (old ≠ none ∧ x.st ≠ .configured ∧ layout y ≠ layout x) ∨ 8192 < base + len ∨
      (∃ e ∈ s.parts, e.1 ≠ part ∧ wants e.2) ∨ (y.shared = true ∧ y.slots = 0) ∨ y.weight = 0 ∨
      ¬ (aligned y.save (len * 0x80000) 0x80000 ∧ aligned y.dlog 32 32 ∧ aligned y.vfring 32 32 ∧ aligned y.ready 256 2 ∧
        aligned y.child 256 32) ∨ (len = 0 ∧ old ≠ none)
    let moved := old = none ∨ layout y ≠ layout x;
    (rejected → refused i) ∧ (¬ rejected → len = 0 → exec i s = .next { s with answer := .accepted }) ∧
    (¬ rejected → len ≠ 0 → s.heldq = [] → becomes i y (fun t => resets (y.chains &&& (y.chains ^^^ x.chains)) t ∧
      (moved → t.layout = (s.layout + 1) % 2 ^ 64) ∧ (¬ moved → t.layout = s.layout) ∧
      (∀ z, z ∈ t.pages ↔ z ∈ s.pages ∨ ∃ y ∈ pages, z = (part, y.1, y.2)) ∧
      t = { s with parts := t.parts, chains := t.chains, layout := t.layout, pages := t.pages, answer := t.answer }))) ∧
  (let i := Instr.partitionStart part root
    let ring := fun (t : State) (d : Nat) => t.numAt (d + 16) 8 = s.numAt (d + 24) 8 % 2 ^ 63
    let owned := fun n : Nat => (0x4000 ≤ n ∧ n < 0x4080 ∧ x.dbar.testBit (n - 0x4000) = true) ∨
      (0x4800 ≤ n ∧ n < 0x4840 ∧ x.pbar.testBit (n - 0x4800) = true)
    (old = none ∨ x.st ≠ .configured → refused i) ∧
    (old ≠ none → x.st = .configured → s.ports = [] → x.vfring + 32 ≤ x.dlog ∨ x.dlog + 32 ≤ x.vfring → becomes i { x with
      st := .run
      root := Cap.make root (root + 128) 0x83 7
      stopwhy := 0
      updpend := s.fw.staged.isSome && !x.acked } (fun t => resets x.chains t ∧ ownQueues emptied t ∧ ring t x.vfring ∧ ring t x.dlog ∧
        (∀ n, (owned n → t.bars.listed n = none) ∧ (¬ owned n → t.bars.listed n = s.bars.listed n)) ∧
        (∀ a, (∀ d ∈ [x.vfring, x.dlog], a < d + 16 ∨ d + 24 ≤ a) → t.byteAt a = s.byteAt a) ∧ t.core = s.core ∧
        t.others = s.others ∧ t.layout = s.layout))) ∧
  (let i := Instr.partitionStop part why;
    (old = none ∨ x.st ≠ .run → refused i) ∧
    (old ≠ none → x.st = .run → idle → (∀ p ∈ s.coresOf part, (s.coreAt p).cstate ≠ .running) →
      becomes i { x with st := .stopping, stopwhy := why % 256 } (fun t =>
        ownQueues (fun q => if q.st = .on then { q with st := .stopped } else q) t ∧
        t = { s with parts := t.parts, queues := t.queues, answer := t.answer }))) ∧
  (let i := Instr.partitionStopComplete part
    let ended := (∀ p ∈ s.coresOf part, let c := s.coreAt p
        c.awake = false ∧ (c.cstate = .killed ∨ ((∀ w ∈ c.pending, w.open = false) ∧ c.unacked = [] ∧
          ∀ d, c.drain = some d → d.2 = 0))) ∧
      (∀ f ∈ s.flights, f.sender ≠ none → f.part ≠ part) ∧
      (∀ e ∈ s.tiles, ∀ k ∈ e.2.cards, k.2.part = part → k.2.state = .ended) ∧
      ∀ e ∈ s.cardbuf, ∀ w ∈ e.2, w.part ≠ part
    (old ≠ none → x.st = .stopping → ended → x.cut = false → ∃ t, exec i s = .next t ∧ same t ∧
      t.parts.listed part = some { x with st := .stopped } ∧ t = { s with parts := t.parts }) ∧
    (old = none ∨ x.st ≠ .stopping ∨ ¬ ended → exec i s = .next s)) ∧
  (let i := Instr.partitionResume part;
    (old = none ∨ x.st ≠ .stopped → refused i) ∧
    (old ≠ none → x.st = .stopped → idle → (∀ p ∈ s.coresOf part, (s.coreAt p).cstate ≠ .evicted) → becomes i { x with
      st := .run
      stopwhy := 0
      cut := false
      updpend := s.fw.staged.isSome && !x.acked } (fun t =>
        ownQueues (fun q => if q.st = .stopped then { q with st := .on } else q) t ∧
        (SMap.wf (fun _ => KPort.reset) s.ports = true → ∀ m, t.portAt m =
          if (s.portAt m).part = part then { s.portAt m with marks := [] } else s.portAt m) ∧
        t = { s with parts := t.parts, queues := t.queues, ports := t.ports, answer := t.answer }))) ∧
  (let i := Instr.partitionRelease part enc key;
    (old = none ∨ (x.st ≠ .configured ∧ x.st ≠ .stopped) → refused i) ∧
    (old ≠ none → x.st = .configured ∨ x.st = .stopped → ∃ t, exec i s = .next t ∧ t.parts.listed part = none ∧ same t ∧
      t.layout = (s.layout + 1) % 2 ^ 64 ∧ t.answer = .accepted ∧ resets x.chains t ∧
      ownQueues (fun q => { emptied q with part := 0 }) t ∧
      (∀ a, x.save ≤ a → a < x.save + x.len * 0x80000 → t.byteAt a = 0) ∧
      (∀ j e a, (j, e) ∈ s.tiles → ∀ g ∈ e.tlb, tePart g = part → teValid g = true → tePpn g * 4096 < s.hbmTop →
        tePpn g * 4096 ≤ a → a < tePpn g * 4096 + teBytes g → t.byteAt a = 0 ∧ t.labelAt a = 0 ∧ t.memTagAt a = false) ∧
      (∀ y n a, (part, y, n) ∈ s.pages → y % 64 = 0 → n % 64 = 0 → y ≤ a → a < y + n →
        t.byteAt a = 0 ∧ t.labelAt a = 0 ∧ t.memTagAt a = false) ∧
      (∀ p ∈ s.coresOf part, (∀ off, off < storeSize p → t.byteAt (lsBase p + off) = 0) ∧ (t.coreAt p).part = 0 ∧
        ((s.coreAt p).cstate ≠ .killed → (t.coreAt p).cstate = .idle)) ∧
      (∀ p, p ∉ s.coresOf part → t.coreAt p = s.coreAt p) ∧
      (∀ j, ∀ g ∈ (t.tileAt j).tlb, tePart g ≠ part) ∧
      (∀ k ∈ t.heldq, k.record.part ≠ part) ∧ ∀ k ∈ t.waits, k.part ≠ part))

/-- R441 to R446, R453: DECL; evidence, secrets and key handles; a firmware image staged, acknowledged, withdrawn and
activated. -/
def Obligations.TenantServices : Prop :=
  ∀ (h : Hd) (a b : Name) (part k layout ctr iv : Nat) (bs : List Byte) (ok : Bool) (s : State), 0 < part → part < 64 →
  let c := s.core
  let r := c.rdCap a
  let v := (c.rd b).v
  let answers := fun (i : Instr) (y : Answer) => exec i s = .next { s with answer := y }
  let x := (s.parts.listed part).getD Part.free;
  (MayIssue (.decl h a b) s → NoReplay c → NoAcquire c → (∀ o off, s.regionStore c r = some (o, off) → o < coreCount ∧ (s.coreAt o).cstate ≠ .killed ∧
      ∀ p, (p = o ∨ ((s.coreAt o).paired = true ∧ p = mateOf o)) → (s.coreAt p).portq = [] ∧
        s.portBlocks c.part p c.phys off (r.top - r.base).toNat = false) →
    Checked (.decl h a b) s (fun t => ∃ o off, s.regionStore c r = some (o, off) ∧
        Passed (.decl h a b) s { t with labels := s.labels } ∧
        ∀ z, let named := ∃ p, (p = o ∨ ((s.coreAt o).paired = true ∧ p = mateOf o)) ∧ lsBase p + off ≤ z ∧
            (z : Int) < lsBase p + off + (r.top - r.base);
          (named → v.setWidth 3 < s.labelAt z → t.labelAt z = v.setWidth 3) ∧
          (¬ (named ∧ v.setWidth 3 < s.labelAt z) → t.labelAt z = s.labelAt z))
      (useChecks s a r (r.perm.getLsbD 6 = true ∧ r.perm.getLsbD 1 = true) ++ [(7 < v.toNat, .bounds, v),
        (r.base % 64 ≠ 0 ∨ r.top % 64 ≠ 0, .align, nameVal a), (s.regionStore c r = none, .bounds, BitVec.ofInt 64 r.base)])) ∧
  (∃ head sign, answers (.attestEvidence part bs) (.evidence head sign) ∧ head.length = 256 ∧ sign.length = 29792 ∧
    ofBytes (head.take 8) = 1 + part * 2 ^ 8 ∧ (head.drop 8).take 24 = List.replicate 24 0 ∧
    (∀ y, s.parts.listed part = some y → y.slots < 2 ^ 16 → y.weight < 2 ^ 8 → y.base < 2 ^ 13 → y.len < 2 ^ 14 →
      ofBytes ((head.drop 32).take 8) = y.slots + y.weight * 2 ^ 16 ∧
      ofBytes ((head.drop 40).take 8) = y.base + y.len * 2 ^ 16 + y.shared.toNat * 2 ^ 32 + (match y.st with
        | .configured => 1
        | .run => 2
        | .stopping => 3
        | .stopped => 4) * 2 ^ 40) ∧
    (head.drop 48).take 8 = bytesOf 8 s.layout ∧ (head.drop 56).take 8 = bytesOf 8 s.fw.ctr ∧
    (head.drop 64).take 32 = List.replicate 32 0 ∧
    (head.drop 96).take 64 = (match s.fw.staged with
      | some (image, _) => shake256 64 image
      | none => List.replicate 64 0) ∧ (head.drop 160).take 64 = shake256 64 s.fw.active ∧
    (bs.length = 32 → head.drop 224 = bs)) ∧
  (let secret := shake256 32 (Config.sessionSecret part ++ bytesOf 8 s.layout ++ bytesOf 1 part)
    let i := Instr.secretUnwrap part layout bs
    let j := Instr.keyHandleBind part k layout bs iv;
    (layout ≠ s.layout ∨ kwpUnwrap secret bs = none → answers i .unwrap ∧ answers j .unwrap) ∧
    (∀ y, layout = s.layout → kwpUnwrap secret bs = some y →
      (∃ t, exec i s = .next t ∧ t.secrets.listed part = some y ∧ (∀ n, n ≠ part → t.secrets.listed n = s.secrets.listed n) ∧
        t = { s with secrets := t.secrets, answer := .accepted }) ∧
      (y.length = 32 → 0 < k → k < 64 → (∀ z, s.handles.listed k = some z → z.part = part) → ∃ t, exec j s = .next t ∧
        t.handles.listed k = some ⟨part, y, iv % 2 ^ 128⟩ ∧ (∀ n, n ≠ k → t.handles.listed n = s.handles.listed n) ∧
        t = { s with handles := t.handles, answer := .accepted }) ∧
      (y.length ≠ 32 ∨ k = 0 ∨ 64 ≤ k ∨ (∃ z, s.handles.listed k = some z ∧ z.part ≠ part) → answers j .refused))) ∧
  (let i := Instr.fwImageStage bs ctr ok;
    (ok = false ∨ ctr ≤ s.fw.ctr → answers i .refused) ∧
    (ok = true → s.fw.ctr < ctr → s.fw.staged = none → s.fw.activating = false → ∃ t, exec i s = .next t ∧
      t.fw = { s.fw with staged := some (bs, ctr) } ∧
      (∀ n, t.parts.listed n = (s.parts.listed n).map (fun y => { y with updpend := decide (y.st = .run), acked := false })) ∧
      t = { s with fw := t.fw, parts := t.parts, answer := .accepted })) ∧
  (let i := Instr.fwUpdateAck part;
    (s.fw.staged = none ∨ s.parts.listed part = none → exec i s = .next s) ∧
    (s.fw.staged ≠ none → s.parts.listed part ≠ none → ∃ t, exec i s = .next t ∧
      t.parts.listed part = some { x with updpend := false, acked := true } ∧
      (∀ n, n ≠ part → t.parts.listed n = s.parts.listed n) ∧ t = { s with parts := t.parts })) ∧
  (s.fw.activating = false → ∃ t, exec .fwUpdateWithdraw s = .next t ∧ t.fw = { s.fw with staged := none } ∧
    (∀ n, t.parts.listed n = (s.parts.listed n).map (fun y => { y with updpend := false, acked := false })) ∧
    t = { s with fw := t.fw, parts := t.parts, answer := .accepted }) ∧
  (let pends := ∃ e ∈ s.parts, e.2.st = .run ∧ e.2.updpend = true;
    (s.fw.staged = none ∨ (s.fw.activating = false ∧ pends) → exec .fwActivate s = .next s) ∧
    (∀ image m, s.fw.staged = some (image, m) → s.fw.activating = true ∨ ¬ pends →
      (∀ p, (s.coreAt p).cstate ≠ .running ∧ (s.coreAt p).cstate ≠ .evicted) → ∃ t, exec .fwActivate s = .next t ∧
      t.fw = ⟨image, m, none, false⟩ ∧
      (∀ n, t.parts.listed n = (s.parts.listed n).map (fun y => { y with updpend := false, acked := false })) ∧
      t = { s with fw := t.fw, parts := t.parts }))

/-- R318, R320, R336, R352, R439, R447 to R452, R455, R456, R467, R470: the host's accesses, doorbells and waits through a function of
the EP personality; a warm restart; package reset and the end of bring-up.  A write to a register takes its place among the writes of
its function and acts when it is performed; the numbers that name the registers without a place of their own, the bar that
names the tables and the dumps, and the partition whose driver a function's registration is, are the model's (notes/assumptions/69.md,
97.md, 116.md). -/
def Obligations.HostLink : Prop :=
  ∀ (fn k lo hi off len addr val line hdr wid : Nat) (data : List Byte) (ep : Bool) (mask : List (Nat × Nat)) (s : State), fn < 128 → fn % 64 ≠ 0 →
  let part := fn % 64
  let order := if fn < 64 then fn else 0
  let x := (s.parts.listed part).getD Part.free
  let answers := fun (i : Instr) (y : Answer) => exec i s = .next { s with answer := y }
  let n := data.length;
  (∀ i, i ∈ [.inboundWrite fn k off data, .hostRead fn k off len, .hostCoreDoorbell fn off,
      .hostWaitRegister fn addr val line, .registerWrite fn k lo hi, .apertureWrite part k lo hi] → s.endpoint = false → exec i s = .next s) ∧
  (s.endpoint = false → exec (.registrationRegister fn) s = .next { s with unregistered := s.unregistered.filter (fun j => decide (j ≠ part)) }) ∧
  (s.endpoint = true → let i := Instr.apertureWrite part k lo hi
    let w := lo % 2 ^ 64 + hi % 2 ^ 64 * 2 ^ 64
    let key := w / 2 ^ 114 % 2 ^ 8
    let enc := w / 2 ^ 112 % 4
    let base := w / 2 ^ 21 % 2 ^ 26 * 2 ^ 21
    let bytes := (w / 2 ^ 86 % 2 ^ 15 + 1) * 2 ^ 21
    let fits := s.parts.listed part ≠ none ∧ ((enc = 0 ∧ key = 0) ∨ (x.keyBase ≤ key ∧ key < x.keyBase + x.keyCount)) ∧ enc ≠ 3 ∧
      base + bytes ≤ s.hbmTop ∧ s.burstsAre base bytes enc key = true ∧ s.ownsPages part base bytes = true ∧ s.foreignPages part base bytes = false
    (k < 16 → w.testBit 106 = false ∨ fits → ∃ t e, exec i s = .next t ∧
      t = { s with apertures := t.apertures, answer := .accepted } ∧
      (∀ j, t.apertures.look (fun _ => 0#128) j = if j = part * 16 + k then e else s.apertures.look (fun _ => 0#128) j) ∧
      apKey e = key ∧ apEnc e = enc ∧ apBase e = base ∧ apBytes e = bytes ∧ apW e = w.testBit 108 ∧ apR e = w.testBit 107 ∧
      apValid e = w.testBit 106) ∧
    (16 ≤ k ∨ (w.testBit 106 = true ∧ ¬ fits) → answers i .refused)) ∧
  (s.endpoint = true →
    let rank := off / 0x80000
    let o := off % 0x80000
    let p := s.physOfIndex (x.base + rank)
    let inBar := fun m : Nat => rank < x.len ∧ 0 < m ∧ o + m ≤ 0x60000 ∧ (fn < 64 → x.st = .run)
    let quiet := s.portBlocks part p (hostSrc order) o n = false ∧ (s.coreAt p).portq = []
    let plain := p ≠ engineSrc ∧ (s.coreAt p).cstate ≠ .killed ∧ (s.coreAt p).paired = false ∧ (o + n ≤ traceOff ∨ traceOff + 4 ≤ o)
    let e := s.apertures.look (fun _ => 0#128) (part * 16 + off / 2 ^ 36)
    let y := off % 2 ^ 36
    let opens := fun (m : Nat) (allowed : Bool) => off / 2 ^ 36 < 16 ∧ apValid e = true ∧ allowed = true ∧ 0 < m ∧ y + m ≤ apBytes e ∧
      s.burstsAre (apBase e + y) m (apEnc e) (apKey e) = true
    let seen := fun (a m : Nat) (bs : List Byte) => bs.length = m ∧ ∀ j, j < m →
      bs.getD j 0 = if s.labelAt (a + j) = 0 then s.byteAt (a + j) else 0
    let reads := fun (k a : Nat) => ∃ bs, answers (.hostRead fn k off len) (.data bs) ∧ seen a len bs
    let stores := fun (i : Instr) (a : Nat) => ∃ t, exec i s = .next t ∧ Stored a n (fun j => data.getD j 0) 0 false s t ∧
      t = { s with mem := t.mem, labels := t.labels, tags := t.tags, nextWrite := s.nextWrite + 1 }
    (¬ inBar n → exec (.inboundWrite fn 2 off data) s = .next { s with aer := s.aer + 1 }) ∧
    (0x10000 < off + n → exec (.inboundWrite fn 0 off data) s = .next { s with aer := s.aer + 1 }) ∧
    (¬ opens n (apW e) → exec (.inboundWrite fn 4 off data) s = .next { s with aer := s.aer + 1 }) ∧
    let queued := fun (i : Instr) (z : Piece) => exec i s = .next { s with inbound := s.inbound ++ [z], nextWrite := s.nextWrite + 1 }
    let register := fun (i : Instr) (r : Nat) (bs : List Byte) => s.hold = true →
      queued i ⟨order, s.nextWrite, 8, none, 0, bs, false, false, false, part, some r⟩;
    (inBar n → s.hold = true → queued (.inboundWrite fn 2 off data)
      ⟨order, s.nextWrite, s.homeDie p, some p, o, data, false, false, false, part, none⟩) ∧
    (inBar n → s.hold = false → s.inbound = [] → quiet → plain → stores (.inboundWrite fn 2 off data) (lsBase p + o)) ∧
    (opens n (apW e) → s.hold = false → s.inbound = [] → stores (.inboundWrite fn 4 off data) (apBase e + y)) ∧
    ((∃ z ∈ s.inbound, z.fn = order) → exec (.hostRead fn k off len) s = .next s) ∧
    ((∀ z ∈ s.inbound, z.fn ≠ order) →
      (∃ bs, answers (.hostRead fn 0 0 8) (.data bs) ∧ bs.length = 8 ∧ (∀ z, s.parts.listed part = some z → z.stopwhy < 256 →
        ofBytes bs = (match z.st with
          | .configured => 1
          | .run => 2
          | .stopping => 3
          | .stopped => 4) + z.stopwhy * 2 ^ 8 + z.updpend.toNat * 2 ^ 16 + s.layout % 2 ^ 32 * 2 ^ 32)) ∧
      (¬ inBar len → answers (.hostRead fn 2 off len) .unsupported) ∧
      (0x10000 < off + len → answers (.hostRead fn 0 off len) .unsupported) ∧
      (inBar len → s.portBlocks part p engineSrc o len (write := false) = false → (∀ a ∈ (s.coreAt p).portq, a.arrived = false) →
        (s.coreAt p).cstate ≠ .killed → s.awaited = [] → reads 2 (lsBase p + o)) ∧
      (∀ m, off = 64 * m + 16 → len = 8 → m < 16384 → 64 ≤ fn ∨ (s.queueAt m).part = part →
        answers (.hostRead fn 1 off len) (.data (bytesOf 8 (s.queueAt m).drops))) ∧
      (∀ m z d, s.dumps[m]? = some d → off = 0x200000 + 0x80000 * m + z →
        ((64 ≤ fn ∧ z + len ≤ 0x6C400) ∨ ((d.header.getD 4 0).toNat % 64 = part ∧ z + len ≤ 0x100)) → z < 0x80000 →
        answers (.hostRead fn 1 off len) (.data ((List.range len).map (fun j => d.byteAt (z + j))))) ∧
      (¬ opens len (apR e) → answers (.hostRead fn 4 off len) .unsupported) ∧
      (opens len (apR e) → reads 4 (apBase e + y))) ∧
    (off + n ≤ 0x10000 → register (.inboundWrite fn 0 off data) off data) ∧
    register (.hostCoreDoorbell fn off) 8 (bytesOf 8 (min off (2 ^ 64 - 1))) ∧
    register (.registrationRegister fn) 16 (List.replicate 8 0) ∧
    register (.registerWrite fn 1 addr hi) wakeReg (bytesOf 8 (addr % 2 ^ 64) ++ bytesOf 2 (hi % 2 ^ 16)) ∧
    (s.hold = false → s.inbound = [] → n = 8 → ∀ i, i ∈ [.inboundWrite fn 0 16 data, .registrationRegister fn] →
      exec i s = .next { s with unregistered := s.unregistered.filter (fun j => decide (j ≠ part)), nextWrite := s.nextWrite + 1 }) ∧
    (∀ key, s.waitKey (partCore part) (BitVec.ofNat 64 addr) = some key →
      (65536 ≤ s.waits.length → answers (.hostWaitRegister fn addr val line) .refused) ∧
      (s.waits.length < 65536 → exec (.hostWaitRegister fn addr val line) s = .next { s with
        waits := s.waits ++ [⟨key, part, .host (val % 2 ^ 64) (line % 2 ^ 40)⟩]
        answer := .accepted })) ∧
    (s.waitKey (partCore part) (BitVec.ofNat 64 addr) = none → answers (.hostWaitRegister fn addr val line) .refused) ∧
    (64 ≤ fn → addr < 288 → exec (.registerWrite fn 2 addr hi) s = .next { s with pkg := addr })) ∧
  (∀ z y, (s.inbound = [z] → z.store = none → z.fn = order → z.left = false → z.performed = false → z.wid = wid → s.hold = true →
      let done := [{ z with left := true, performed := true }]
      let performs := fun u : State => exec (.inboundPieceSend fn wid) s = .next { u with inbound := done };
      (z.reg = none → ∃ t, exec (.inboundPieceSend fn wid) s = .next t ∧ t.inbound = done ∧
        Stored z.addr z.data.length (fun j => z.data.getD j 0) 0 false s t ∧
        t = { s with mem := t.mem, labels := t.labels, tags := t.tags, inbound := t.inbound }) ∧
      (z.part = part → z.reg = some 8 → z.data.length = 8 → let rank := ofBytes z.data
        let q := s.physOfIndex (x.base + rank);
        (part ∉ s.unregistered → rank < x.len → performs { s with signals := s.signals ++ [⟨q, 0x80000#32, (engineSrc, 0), part⟩] }) ∧
        (part ∈ s.unregistered ∨ x.len ≤ rank → performs s)) ∧
      (z.part = part → z.reg = some 16 → z.data.length = 8 →
        performs { s with unregistered := s.unregistered.filter (fun j => decide (j ≠ part)) }) ∧
      (z.part = part → z.reg = some wakeReg → let a := ofBytes (z.data.take 8)
        let most := ofBytes (z.data.drop 8) % 2 ^ 16;
        (part ∈ s.unregistered ∨ s.waitKey (partCore part) (BitVec.ofNat 64 a) = none → performs s) ∧
        (∀ key, s.waitKey (partCore part) (BitVec.ofNat 64 a) = some key → part ∉ s.unregistered →
          let mine := fun w : WaitEntry => decide (w.key = key ∧ w.part = part)
          ∃ t woken, performs t ∧ woken ++ t.waits.filter mine = s.waits.filter mine ∧
            woken.length = (if most = 0 then (s.waits.filter mine).length else min most (s.waits.filter mine).length) ∧
            t.waits.filter (fun w => !mine w) = s.waits.filter (fun w => !mine w) ∧ t.waits.Sublist s.waits ∧
            (∀ w ∈ woken, ∀ c, w.who = .core c → (t.coreAt c).woken = true) ∧
            (∀ c, (∀ w ∈ woken, w.who ≠ .core c) → t.coreAt c = s.coreAt c) ∧
            ∀ w v l, woken = [w] → w.who = .host v l → v < 2 ^ 64 → t.numAt (0x400000000000 + l) 8 = v)) ∧
      (∀ r, z.reg = some r → r < 0x10000 → z.data.length ≠ 8 ∨ (r ≠ 8 ∧ r ≠ 16) → performs s)) ∧
    (s.inbound = [y, z] → y.fn = order → z.fn = order → y.left = true → y.performed = true → z.left = false → z.wid = wid →
      y.wid ≠ wid → y.route ≠ z.route → s.hold = true → exec (.inboundPieceSend fn wid) s = .next s) ∧
    (s.inbound = [y, z] → y.fn = order → z.fn = order → y.left = true → y.performed = true → z.left = true → z.performed = true →
      y.wid = wid → z.wid = wid → y.acked = false → z.acked = false →
      exec (.inboundPieceAck fn wid) s = .next { s with inbound := [{ y with acked := true }, z] }) ∧
    (s.inbound = [z] → z.fn = order → z.wid = wid → z.left = true → z.performed = true → z.acked = false →
      exec (.inboundPieceAck fn wid) s = .next { s with inbound := [] })) ∧
  (∃ t, exec (.hostWarmRestart 0) s = .next t ∧ t.unregistered = List.range 64 ∧ t.inbound = s.inbound.filter (fun z => z.left) ∧
    (∀ w, w ∈ t.waits ↔ w ∈ s.waits ∧ ∃ c, w.who = .core c) ∧
    (∀ j i c, cardOf s j i = some c → (c.state = .ended → cardOf t j i = some c) ∧
      (c.state ≠ .ended → ∃ d, cardOf t j i = some { c with doomed := d, stale := true } ∧
        (d = true ↔ c.doomed = true ∨ ∃ a m : Nat, Region.virt a m ∈ c.reads ++ c.writes ∧
          ∃ e ∈ s.tiles, ∃ g ∈ e.2.tlb, teValid g = true ∧ tePart g = c.part ∧ hostBase ≤ tePpn g * 4096 ∧
            meets a m (teVpn g * 4096) (teBytes g) = true))) ∧
    t = { s with
      tiles := t.tiles
      tileImages := t.tileImages
      kernels := t.kernels
      unregistered := t.unregistered
      inbound := t.inbound
      waits := t.waits }) ∧
  exec (.hostWarmRestart fn) s = .next s ∧
  exec (.packageReset ep .reset hdr) s = .next { State.reset with
    remap := s.remap
    fw := ⟨s.fw.active, s.fw.ctr, none, false⟩
    layout := s.layout
    dead := s.dead
    endpoint := ep
    kills := s.kills
    spused := s.spused
    pcdrop := s.pcdrop
    agenda := s.agenda
    freeCtr := s.freeCtr
    hold := s.hold } ∧
  (exec (.packageReset ep (.finish false mask) hdr) s = .next { s with reports := s.reports ++ [.bootFailed] }) ∧
  (s.memTagAt hdr = false → ∃ t, exec (.packageReset ep (.finish true mask) hdr) s = .next t ∧
    t = { s with core := t.core, others := t.others, mask := t.mask } ∧ (mask = [] → t.mask = none) ∧
    (∀ p r, mask = [(p, r)] → t.mask = some [(p, roleOfCode r)]) ∧ ∀ q,
      t.coreAt q = if q ∈ rootCores ∧ (s.coreAt q).cstate = .boot then { s.coreAt q with cstate := .service } else s.coreAt q)

/-- R313, R456 to R461, R463 to R465: port entries, lanes, block entries sent and received, yields, and cuts.  Whether a receiver's lane
has a place reserved for a packet is a free value (notes/assumptions/95.md). -/
def Obligations.KustadPorts : Prop :=
  ∀ (n off val link g src part label : Nat) (data peers : List Byte) (lanes : List (Nat × Nat × List (BitVec 8) × Nat)) (s : State), n < 18 → 0 < part → part < 64 →
  let x := s.portAt n
  let answers := fun (i : Instr) (y : Answer) => exec i s = .next { s with answer := y }
  let changed := fun (i : Instr) (z : KPort) (ans : Answer) => ∃ t, exec i s = .next t ∧ t.portAt n = z ∧
    (∀ m, m ≠ n → t.portAt m = s.portAt m) ∧ t = { s with ports := t.ports, answer := ans }
  let runs := fun p : Nat => (s.parts.listed p).map Part.st = some .run
  let laneOf := fun (z : KPort) (j : Nat) => z.lanes.look (fun _ => []) j
  let lanesAre := fun (z : KPort) (j : Nat) (ms : List BlockMsg) => laneOf z j = ms ∧ ∀ i, i ≠ j → laneOf z i = laneOf x i
  let fixed := x.enable = true ∧ runs x.part;
  (let i := Instr.portTableWrite n off val
    let p := val % 2 ^ 6
    let m := val / 2 ^ 6 % 2 ^ 14
    let q := s.queueAt m
    let named := q.part = p ∧ q.kind = 0 ∧ q.hostp = false ∧ q.bin = false;
    (s.endpoint = false → exec i s = .next s) ∧ (s.endpoint = true →
    (fixed → answers i .refused) ∧
    (¬ fixed → off = 8 → (named → ∃ t, exec i s = .next t ∧ t.portAt n = { x with part := p, sendq := m, enable := val.testBit 20 } ∧
        (∀ j, j ≠ n → t.portAt j = s.portAt j) ∧ (∀ j, j ∈ portCores n → (t.coreAt j) = { s.coreAt j with part := p }) ∧
        (∀ j, j ∉ portCores n → t.coreAt j = s.coreAt j) ∧
        (∀ j y, j ∈ portCores n → s.images.listed (2 ^ 20 + j) = some y → ∃ z, t.images.listed (2 ^ 20 + j) = some z ∧
          z = { y with core := { y.core with part := p } }) ∧
        t = { s with core := t.core, others := t.others, ports := t.ports, images := t.images, answer := .accepted }) ∧
      (¬ named → answers i .refused)) ∧
    (¬ fixed → off = 24 → changed i { x with peermap := val % 2 ^ 64 } .accepted) ∧
    (¬ fixed → off = 32 → val % 2 ^ 64 % 128 ≠ 0 → (∀ j ∈ portCores n, (s.coreAt j).cstate ≠ .running) →
      changed i { x with gwhdr := val % 2 ^ 64 } .accepted) ∧
    (¬ fixed → off ≠ 8 → off ≠ 24 → off ≠ 32 → answers i .accepted))) ∧
  changed (.kustadLinkStateChange n link) { x with link := link % 4 } s.answer ∧
  (let p := gatewayCore n g
    let c := s.coreAt p;
    (s.endpoint = false → exec (.portYield n) s = .next s) ∧
    (s.endpoint = true → g < 4 → c.cstate = .running → c.interval = none → c.tabRun ≠ none → c.pair.pstate = .unpaired →
      (∀ j, j < 4 → j ≠ g → (s.coreAt (gatewayCore n j)).cstate ≠ .running) →
      changed (.portYield n) { x with yielding := true } s.answer) ∧
    (s.endpoint = true → g < 4 → c.cstate = .running → c.pending = [] → c.unacked = [] → (∀ d, c.drain = some d → d.2 = 0) → c.interval = none → c.tabRun = none → c.retiredIn = 0 → c.pair.pstate = .unpaired →
    c.gang.fused = false → c.waiting = none → (∀ e ∈ s.waits, e.who ≠ .core p) →
    (∀ j, j < 4 → j ≠ g → (s.coreAt (gatewayCore n j)).cstate ≠ .running) → ∃ t y, exec (.portYield n) s = .next t ∧
    t.coreAt p = { c with cstate := .evicted, stalled := false } ∧ t.images.listed (2 ^ 20 + p) = some y ∧
    y.core = { c with cstate := .evicted, stalled := false } ∧ (t.portAt n).yielding = false ∧ ∀ q, q ≠ p → t.coreAt q = s.coreAt q)) ∧
  (g < 4 → let i := Instr.blockLaneDeliver n g
    let p := gatewayCore n g
    let c := s.coreAt p;
    (laneOf x g = [] → exec i s = .next s) ∧
    (∀ m rest, laneOf x g = m :: rest →
      (c.cstate ≠ .killed → 64 ≤ c.inbox.length → c.fpWait = none → exec i s = .next s) ∧
      (c.cstate ≠ .killed → c.cstate ≠ .evicted → c.inbox.length < 64 → c.pair.pstate = .unpaired → c.fpWait = none →
        s.away x.part p = false → ∃ t z, exec i s = .next t ∧ t.portAt n = z ∧ lanesAre z g rest ∧ z = { x with lanes := z.lanes } ∧
        t.coreAt p = { c with inbox := c.inbox ++ [⟨.msg, m.words, m.lab, 0x1FFE⟩], evt := c.evt ||| 0x10000#32 } ∧
        (∀ q, q ≠ p → t.coreAt q = s.coreAt q) ∧ ∀ j, j ≠ n → t.portAt j = s.portAt j))) ∧
  (let i := Instr.blockPacketReceive n src data label
    let word := fun j : Nat => BitVec.ofNat 64 (ofBytes ((data.drop (8 * j)).take 8))
    let index := (word 3).toNat / 2 ^ 32
    let m : BlockMsg := ⟨[word 0, word 1, word 2, BitVec.ofNat 64 (src % 512 + index * 2 ^ 32)], BitVec.ofNat 3 label,
      [false, false, false, false]⟩;
    (x.part = 0 → exec i s = .next s) ∧
    (x.part ≠ 0 → 64 ≤ (laneOf x (index % 4)).length → answers i .retry) ∧
    (x.part ≠ 0 → (laneOf x (index % 4)).length < 64 → s.hold = true → ∃ z, lanesAre z (index % 4) (laneOf x (index % 4) ++ [m]) ∧
      z = { x with lanes := z.lanes } ∧ changed i z s.answer)) ∧
  (let i := Instr.blockEntrySend n
    let q := s.queueAt x.sendq;
    (x.enable = false ∨ x.part = 0 ∨ q.part ≠ x.part → x.popped = none → exec i s = .next s) ∧
    (∀ pkg m, x.popped = some (some pkg, m) → x.enable = false → x.link ≠ 2 →
      changed i { x with popped := none, drops := min (x.drops + 1) (2 ^ 32 - 1) } s.answer) ∧
    (∀ pkg m, x.popped = some (some pkg, m) → x.enable = false → x.link = 2 → x.part ≠ 0 → ¬ runs x.part → exec i s = .next s) ∧
    (∀ pkg m, x.popped = some (some pkg, m) → x.enable = false → x.link = 2 → runs x.part → ∃ t, exec i s = .next t ∧
      t.portAt n = (if Config.reserved s.freeCtr then { x with popped := none, sent := x.sent ++ [(pkg, m)] } else x) ∧
      (∀ m, m ≠ n → t.portAt m = s.portAt m) ∧ t = { s with ports := t.ports, freeCtr := s.freeCtr + 1 }) ∧
    (∀ m, x.popped = some (none, m) → 64 ≤ (laneOf x (m.bidx % 4)).length → exec i s = .next s) ∧
    (∀ (e : QEntry) (rest : List QEntry), x.enable = true → x.part ≠ 0 → x.popped = none → q.part = x.part → q.st = .on → q.kind = 0 →
      q.seg = e :: rest → (q.tail + 2 ^ 64 - q.head) % 2 ^ 64 ≠ 0 → s.heldq = [] → s.hold = true → ∃ t, exec i s = .next t ∧
      t.queueAt x.sendq = { q with seg := rest, head := (q.head + 1) % 2 ^ 64, since := s.clock } ∧
      (∀ m, m ≠ x.sendq → t.queueAt m = s.queueAt m) ∧ (∀ m, m ≠ n → t.portAt m = s.portAt m) ∧
      t = { s with queues := t.queues, ports := t.ports, freeCtr := t.freeCtr } ∧
      let word := fun j : Nat => e.words.getD j 0
      let route := (word 4).toNat
      let entry := s.numAt (x.peermap + 2 * (route % 512)) 2
      let index := (word 3).toNat / 2 ^ 32
      let m : BlockMsg := ⟨[word 0, word 1, word 2, BitVec.ofNat 64 (s.pkg % 512 + index * 2 ^ 32)], e.lab, e.tags⟩
      let clean := route / 2 ^ 9 % 2 ^ 6 = 0 ∧ route < 2 ^ 16 ∧ word 5 = 0 ∧ word 6 = 0 ∧ word 7 = 0
      let reaches := route % 512 < 288 ∧ entry.testBit 15 = true ∧ x.link = 2
      e.words.length = 8 →
      (¬ clean ∨ (route < 2 ^ 15 ∧ ¬ reaches) → t.portAt n = { x with drops := min (x.drops + 1) (2 ^ 32 - 1) }) ∧
      (clean → route < 2 ^ 15 → reaches → runs x.part → t.portAt n = if Config.reserved s.freeCtr then { x with sent := x.sent ++ [(entry % 512, m)] }
        else { x with popped := some (some (entry % 512), m) }) ∧
      (clean → 2 ^ 15 ≤ route → let full := 64 ≤ (laneOf x (index % 4)).length;
        (full → t.portAt n = { x with popped := some (none, m) }) ∧
        (¬ full → ∃ z, t.portAt n = z ∧ z = { x with lanes := z.lanes } ∧ lanesAre z (index % 4) (laneOf x (index % 4) ++ [m]))))) ∧
  (let i := Instr.cutMarkReceive n src;
    (src ∈ x.marks → exec i s = .next s) ∧ (src ∉ x.marks → changed i { x with marks := x.marks ++ [src] } s.answer)) ∧
  (let i := Instr.migrationCut part
    let y := (s.parts.listed part).getD Part.free;
    (¬ runs part → answers i .refused) ∧
    (runs part → (∀ p ∈ s.coresOf part, (s.coreAt p).cstate ≠ .running) → (∀ j t, s.tiles.listed j = some t → t.team = none) →
      SMap.wf (fun _ => KPort.reset) s.ports = true → ∃ t, exec i s = .next t ∧
      t.parts.listed part = some { y with st := .stopping, stopwhy := 2, cut := true } ∧
      (∀ j, j ≠ part → t.parts.listed j = s.parts.listed j) ∧ (∀ m, (s.queueAt m).part = part → (s.queueAt m).st = .on →
        SMap.wf (fun _ => Queue.reset) s.queues = true → t.queueAt m = { s.queueAt m with st := .stopped }) ∧
      (∀ m, let z := s.portAt m
        let names := ((List.range 288).map (fun j => s.numAt (z.peermap + 2 * j) 2)).filter (fun v => v.testBit 15);
        (z.part = part → z.enable = true → t.portAt m = { z with sent := z.sent ++ names.map (fun v => (v % 512, ⟨[], 0, []⟩)) }) ∧
        (z.part ≠ part ∨ z.enable = false → t.portAt m = z)) ∧
      t = { s with parts := t.parts, queues := t.queues, ports := t.ports, answer := .accepted })) ∧
  (let i := Instr.migrationRestore part ⟨[(n, peers)], lanes⟩
    let mine := lanes.filter (fun l => decide (l.1 = n))
    let word := fun (bs : List Byte) (j : Nat) => BitVec.ofNat 64 (ofBytes ((bs.drop (8 * j)).take 8))
    let y := (s.parts.listed part).getD Part.free;
    ((s.parts.listed part).map Part.st ≠ some .stopped → answers i .refused) ∧
    (s.ports = [(n, x)] → x.part = part → peers.length = 576 → (s.parts.listed part).map Part.st = some .stopped → s.heldq = [] →
      (∀ j t, s.tiles.listed j = some t → t.team = none) → (∀ p ∈ s.coresOf part, (s.coreAt p).cstate ≠ .evicted) →
      ∃ t, exec i s = .next t ∧ t.answer = .accepted ∧ (∃ z, t.parts.listed part = some z ∧ z.st = .run ∧ z.cut = false ∧ z.stopwhy = 0 ∧
        z.base = y.base ∧ z.len = y.len) ∧
      (∃ z, t.portAt n = z ∧ z = { x with marks := [], lanes := z.lanes } ∧ (mine = [] → z.lanes = x.lanes) ∧
        (mine ≠ [] → ∀ g, g < 4 → laneOf z g = (mine.filter (fun l => decide (l.2.1 = g))).map (fun l =>
          (⟨[word l.2.2.1 0, word l.2.2.1 1, word l.2.2.1 2, word l.2.2.1 3], BitVec.ofNat 3 l.2.2.2, [false, false, false, false]⟩ : BlockMsg)))) ∧
      Stored x.peermap 576 (fun j => peers.getD j 0) 0 false s t ∧ t.core = s.core ∧
      t.others = s.others))

/-- R33 to R44: the encoder writes the words that the decoder reads, for every well-formed instruction, whatever words follow
them; and the decoder reads an instruction from the words of its encoding alone.  An event has no words. -/
def Obligations.EncodeThenDecode : Prop :=
  (∀ (i : Instr) (rest : List Nat), i.wf = true → i.fields ≠ none → decodeWords (encode i ++ rest) = .ok i ∧
    4 * (encode i).length = instrBytes i ∧ (∀ w ∈ encode i, w < 2 ^ 32) ∧
    (∀ w tail, encode i = w :: tail → wordLength w = instrBytes i) ∧
    decodeBytes ((encode i).flatMap bytesOfWord) = .ok i) ∧
  (∀ (ws : List Nat) (i : Instr), (∀ w ∈ ws, w < 2 ^ 32) → decodeWords ws = .ok i →
    i.wf = true ∧ i.fields ≠ none ∧ ∃ rest, ws = encode i ++ rest) ∧
  (∀ i : Instr, i.fields = none → encode i = [])

/-- R35 to R44: words that chapters of the spec write out, with the instructions that they give them to, and words that are no
instruction. -/
def Obligations.DecodeWords : Prop :=
  decodeWords [0xFFC20880] = .ok (.addi ⟨.w32, false⟩ (.w 2) (.w 2) (-1)) ∧
  decodeWords [0x00010138] = .ok (.j ⟨.w32, false⟩ 0x100) ∧
  decodeWords [0x0180100A, 0x00002001, 0x00E80003] = .ok (.logt ⟨.x96x, false⟩ (.w 4) (.w 1) (.w 2) (.w 3) 0xE8) ∧
  decodeWords [0x40001140] = .ok (.ret ⟨.w32, false⟩ 4) ∧
  decodeWords [0x21882988] = .ok (.cnarrow ⟨.w32, false⟩ (.w 10) (.w 8) (.w 6)) ∧
  decodeWords [0x0000F2C8] = .ok (.fence ⟨.w32, false⟩ .sc .sys) ∧
  decodeWords [0x700A23EC] = .ok (.qpop ⟨.w32, true⟩ (.w 8) (.w 10)) ∧
  decodeWords [0x014013EA, 0x0001000A, 0x00010000] = .ok (.qpush ⟨.x96x, false⟩ (.w 4) (.w 10) (.w 16) 1) ∧
  decodeWords [0x02C01FE2, 0x00000004, 0x00000000] = .ok (.jwait ⟨.x96x, false⟩ (.w 7) (.w 4) (.w 0) 0 0) ∧
  decodeWords [0x300003F4] = .ok (.halt ⟨.w32, true⟩) ∧
  decodeWords [] = .error .short ∧ decodeWords [0x0180100A, 0x00002001] = .error .short ∧
  decodeWords [0x000003F8] = .error .unassigned

/-- R33, R34, R52: a step runs the instruction that the bytes at the PC encode; the model's own order of turns is
notes/assumptions/4.md. -/
def Obligations.StepRunsDecoded : Prop := ∀ (i : Instr) (p : Nat) (rest : List Turn) (s : State),
  let u := { s with clock := s.clock + 1 }
  let c := s.core
  let line := c.pc.toNat / 64 * 64
  let turn := s.agenda = [] ∧ (s.clock + 1) % 64 ≠ 0 ∧ Alone s ∧ c.issues = true ∧ c.stalled = false ∧ c.ptimer = 0 ∧ c.pending = []
  let plain := turn ∧ c.rep = none ∧ (∀ d, c.drain = some d → d.2 = 0) ∧ c.trapDue = none ∧ c.fpWait = none ∧
    c.fpEvent = none ∧ c.owed = [] ∧ c.pair.pstate = .unpaired ∧ firstDue c = none
  let fits := fun n : Nat => c.pc.toNat % 4 = 0 ∧ c.pcc.tag = true ∧ c.pcc.otype = 0 ∧ c.pcc.perm.getLsbD 2 = true ∧
    c.pcc.base ≤ c.pc.toNat ∧ (c.pc.toNat : Int) + n ≤ c.pcc.top ∧ c.pc.toNat + n ≤ line + 64
  (s.agenda = .event i :: rest → step s = exec i { u with agenda := rest }) ∧
  (s.agenda = .core p :: rest → step s = .next (State.focus { u with agenda := rest } p)) ∧
  (∀ o off, plain → c.ibuf = [] → s.reach c (BitVec.ofNat 64 line) 64 = some (o, off) →
    s.portOpen (fetchSrc c.phys) o off 64 (write := false) = true → (∀ a ∈ (s.coreAt o).portq, a.src ≠ fetchSrc c.phys) →
    (s.coreAt o).cstate ≠ .killed →
    let place := lsBase o + off + (c.pc.toNat - line)
    let n := wordLength (s.numAt place 4)
    let ws := wordsOfBytes (s.bytesAt place n)
    let t := fun again => { u with core := { c with
      ibuf := [(line, s.bytesAt (lsBase o + off) 64)], word := s.numAt place 4, resume := again } }
    fits n → s.reach c c.pc n ≠ none →
    (∀ e, decodeWords ws = .error e → step s = exec (.illegalEncoding (s.numAt place 4)) (t none)) ∧
    (∀ h, decodeWords ws = .ok i → i.hd = some h → engineStalls i c = false →
      (h.s = true → c.markerReady = true ∧ s.sweepOf c = none) → step s = exec i (t (if isRpt i = true then c.resume else none)))) ∧
  (∀ d, turn → c.drain = some d → d.2 ≠ 0 → step s = .next { u with core := { c with stalled := true } }) ∧
  (turn → (∀ d, c.drain = some d → d.2 = 0) → c.trapDue = none → c.pair.pstate = .unpaired → (∃ q, c.fpWait = some q) → firstDue c = none →
    c.fpReply = none → step s = .next { u with core := { c with stalled := true } }) ∧
  (plain → c.pc.toNat % 4 ≠ 0 → step s = .next (State.raise u .align c.pc)) ∧
  (plain → c.pc.toNat % 4 = 0 → c.pcc.tag = false → step s = .next (State.raise u .tag c.pc))

/-- R100, R344, R346, R432, R434, R467, R470, R476: what reset leaves.  The lens, the PC and the other register contents that the
spec does not give are the model's own (notes/assumptions/1.md, 2.md and 3.md) and no part of this. -/
def Obligations.ResetValues : Prop := MemoryWf State.reset ∧
  (∀ p, let c := State.reset.coreAt p
    (p ∈ rootCores → c.cstate = .boot ∧ c.mode = .f) ∧ (p ∉ rootCores → c.cstate = .idle ∧ c.mode = .s) ∧
    c.cause = 0 ∧ c.tval = 0 ∧ c.epcc = Cap.null ∧ c.elens = Cap.null ∧ c.hlens = Cap.null ∧ c.hpcc = Cap.null ∧ c.evt = 0 ∧
    c.evmask = 0 ∧ c.fpsup = 0xFFFFFFFF#64 ∧ c.rptValid = false ∧ c.rptRemain = 0 ∧ c.gang.fused = false ∧ c.pair.pstate = .unpaired ∧
    c.pair.n = 256 ∧ c.ptimer = 0 ∧ c.phys = p) ∧
  (∀ n, let q := State.reset.queueAt n
    q.st = .off ∧ q.part = 0 ∧ q.prio = 0 ∧ q.weight = 1 ∧ q.kind = 0 ∧ q.rlen = 0 ∧ q.head = 0 ∧ q.tail = 0 ∧ q.drops = 0 ∧
      q.parked = [] ∧ q.bin = false ∧ q.hostp = false ∧ q.ring.tag = false) ∧
  (∀ p, State.reset.parts.listed p = none) ∧ (∀ t e, cardOf State.reset t e = none) ∧
  (∀ a, State.reset.memTagAt a = false) ∧ (∀ a, a < State.reset.hbmTop → State.reset.byteAt a = 0 ∧ State.reset.labelAt a = 0)

/-- R92, R202: every step keeps memory, the labels of its lines and the tags of its granules in their one form, so that equal
contents are equal data. -/
def Obligations.MemoryWfKept : Prop := ∀ s t, MemoryWf s → Steps s t → MemoryWf t
end

