-- ==== Sys2Proof/Laws/Maps.lean ====
section
/-! SUPPORT. Laws of maps by key: what a key reads after a change, and that every change keeps the canonical form. -/

namespace Sys2Proof.Machine

section
variable {β : Type}

theorem SMap.listed_drop (m : SMap β) (k j : Nat) :
    SMap.listed (SMap.drop m k) j = if j = k then none else SMap.listed m j := by
  induction m with
  | nil => simp [SMap.drop, SMap.listed]
  | cons e rest ih =>
    obtain ⟨i, v⟩ := e
    unfold SMap.drop
    by_cases h : i = k
    · subst h
      by_cases hj : j = i
      · subst hj; simp [ih]
      · have hij : i ≠ j := fun h => hj h.symm
        simp [ih, hj, SMap.listed, hij]
    · by_cases hi : i = j
      · subst hi; simp [h, SMap.listed]
      · simp [h, SMap.listed, hi, ih]

theorem SMap.listed_list (m : SMap β) (k j : Nat) (v : β) :
    SMap.listed (SMap.list m k v) j = if j = k then some v else SMap.listed m j := by
  induction m with
  | nil =>
    by_cases h : j = k
    · subst h; simp [SMap.list, SMap.listed]
    · have hk : k ≠ j := fun e => h e.symm
      simp [SMap.list, SMap.listed, h, hk]
  | cons e rest ih =>
    obtain ⟨i, w⟩ := e
    unfold SMap.list
    by_cases h : j = k
    · subst h
      by_cases h1 : j < i
      · simp [h1, SMap.listed]
      · by_cases h2 : j = i
        · simp [h2, SMap.listed]
        · have h3 : i ≠ j := fun e => h2 e.symm
          simp [h1, h2, SMap.listed, h3, ih]
    · have hk : k ≠ j := fun e => h e.symm
      by_cases h1 : k < i
      · simp [h1, SMap.listed, hk, h]
      · by_cases h2 : k = i
        · subst h2; simp [SMap.listed, hk, h]
        · by_cases h3 : i = j
          · subst h3; simp [h1, h2, SMap.listed, h]
          · simp [h1, h2, SMap.listed, h3, ih, h]

theorem SMap.listed_put [DecidableEq β] (d : Nat → β) (m : SMap β) (k j : Nat) (v : β) (h : j ≠ k) :
    SMap.listed (SMap.put d m k v) j = SMap.listed m j := by
  unfold SMap.put
  split
  · simp [SMap.listed_drop, h]
  · simp [SMap.listed_list, h]

/-- What a key reads after a key is put: the value where it is that key, else as before. -/
@[simp] theorem SMap.look_put [DecidableEq β] (d : Nat → β) (m : SMap β) (k j : Nat) (v : β) :
    SMap.look d (SMap.put d m k v) j = if j = k then v else SMap.look d m j := by
  by_cases h : j = k
  · subst h
    unfold SMap.look SMap.put
    split
    · rename_i hv; simp [SMap.listed_drop, hv]
    · simp [SMap.listed_list]
  · simp [SMap.look, SMap.listed_put d m k j v h, h]

/-- What a key reads after consecutive keys are put. -/
theorem SMap.look_putList [DecidableEq β] (d : Nat → β) (m : SMap β) (k j : Nat) (vs : List β) :
    SMap.look d (SMap.putList d m k vs) j =
      if h : k ≤ j ∧ j < k + vs.length then vs[j - k]'(by omega) else SMap.look d m j := by
  induction vs generalizing m k with
  | nil => simp [SMap.putList]
  | cons v vs ih =>
    simp only [SMap.putList, ih, List.length_cons, SMap.look_put]
    by_cases h : j = k
    · subst h; simp
    · by_cases h1 : k + 1 ≤ j ∧ j < k + 1 + vs.length
      · have h2 : k ≤ j ∧ j < k + (vs.length + 1) := by omega
        rw [dif_pos h1, dif_pos h2]
        have : j - k = (j - (k + 1)) + 1 := by omega
        simp [this]
      · have h2 : ¬ (k ≤ j ∧ j < k + (vs.length + 1)) := by omega
        rw [dif_neg h1, dif_neg h2]; simp [h]

theorem SMap.look_putList_out [DecidableEq β] (d : Nat → β) (m : SMap β) (k j : Nat) (vs : List β)
    (h : j < k ∨ k + vs.length ≤ j) : SMap.look d (SMap.putList d m k vs) j = SMap.look d m j := by
  rw [SMap.look_putList, dif_neg (by omega)]

variable [DecidableEq β] (d : Nat → β)

theorem SMap.wfFrom_mono (m : SMap β) {lo lo' : Nat} (h : lo' ≤ lo) (hm : SMap.wfFrom d lo m = true) :
    SMap.wfFrom d lo' m = true := by
  cases m with
  | nil => rfl
  | cons e rest =>
    obtain ⟨i, v⟩ := e
    simp only [SMap.wfFrom, Bool.and_eq_true, decide_eq_true_eq] at hm ⊢
    exact ⟨⟨by omega, hm.1.2⟩, hm.2⟩

theorem SMap.wfFrom_drop (m : SMap β) (lo k : Nat) (hm : SMap.wfFrom d lo m = true) :
    SMap.wfFrom d lo (SMap.drop m k) = true := by
  induction m generalizing lo with
  | nil => rfl
  | cons e rest ih =>
    obtain ⟨i, v⟩ := e
    simp only [SMap.wfFrom, Bool.and_eq_true, decide_eq_true_eq] at hm
    unfold SMap.drop
    split
    · exact SMap.wfFrom_mono d _ (by omega) (ih (i + 1) hm.2)
    · simp [SMap.wfFrom, hm.1.1, hm.1.2, ih (i + 1) hm.2]

theorem SMap.wfFrom_list (m : SMap β) (lo k : Nat) (v : β) (hv : v ≠ d k) (hk : lo ≤ k)
    (hm : SMap.wfFrom d lo m = true) : SMap.wfFrom d lo (SMap.list m k v) = true := by
  induction m generalizing lo with
  | nil => simp [SMap.list, SMap.wfFrom, hk, hv]
  | cons e rest ih =>
    obtain ⟨i, w⟩ := e
    simp only [SMap.wfFrom, Bool.and_eq_true, decide_eq_true_eq] at hm
    unfold SMap.list
    split
    · simp [SMap.wfFrom, hk, hv, hm.1.2, hm.2]; omega
    · split
      · rename_i h; subst h; simp [SMap.wfFrom, hk, hv, hm.2]
      · simp [SMap.wfFrom, hm.1.1, hm.1.2, ih (i + 1) (by omega) hm.2]

/-- Putting a key keeps the canonical form. -/
theorem SMap.wf_put (m : SMap β) (k : Nat) (v : β) (hm : SMap.wf d m = true) : SMap.wf d (SMap.put d m k v) = true := by
  unfold SMap.put
  split
  · exact SMap.wfFrom_drop d m 0 k hm
  · rename_i h; exact SMap.wfFrom_list d m 0 k v h (Nat.zero_le _) hm

theorem SMap.wf_putList (m : SMap β) (k : Nat) (vs : List β) (hm : SMap.wf d m = true) :
    SMap.wf d (SMap.putList d m k vs) = true := by
  induction vs generalizing m k with
  | nil => exact hm
  | cons v vs ih => exact ih _ _ (SMap.wf_put d m k v hm)

theorem SMap.wf_filter (m : SMap β) (p : Nat × β → Bool) (lo : Nat) (hm : SMap.wfFrom d lo m = true) :
    SMap.wfFrom d lo (m.filter p) = true := by
  induction m generalizing lo with
  | nil => rfl
  | cons e rest ih =>
    obtain ⟨i, v⟩ := e
    simp only [SMap.wfFrom, Bool.and_eq_true, decide_eq_true_eq] at hm
    rw [List.filter_cons]
    split
    · simp [SMap.wfFrom, hm.1.1, hm.1.2, ih (i + 1) hm.2]
    · exact SMap.wfFrom_mono d _ (by omega) (ih (i + 1) hm.2)

theorem SMap.wf_clearRange (m : SMap β) (lo hi : Nat) (hm : SMap.wf d m = true) :
    SMap.wf d (SMap.clearRange m lo hi) = true := SMap.wf_filter d m _ 0 hm

theorem SMap.wf_foldl_put {γ : Type} (f : SMap β → γ → SMap β) (hf : ∀ m x, SMap.wf d m = true → SMap.wf d (f m x) = true)
    (xs : List γ) (m : SMap β) (hm : SMap.wf d m = true) : SMap.wf d (xs.foldl f m) = true := by
  induction xs generalizing m with
  | nil => exact hm
  | cons x xs ih => exact ih _ (hf m x hm)

theorem SMap.mem_ne (m : SMap β) (lo : Nat) (hm : SMap.wfFrom d lo m = true) :
    ∀ e ∈ m, e.2 ≠ d e.1 := by
  induction m generalizing lo with
  | nil => simp
  | cons e rest ih =>
    obtain ⟨i, v⟩ := e
    simp only [SMap.wfFrom, Bool.and_eq_true, decide_eq_true_eq] at hm
    intro x hx
    rcases List.mem_cons.1 hx with rfl | hx
    · exact hm.1.2
    · exact ih (i + 1) hm.2 x hx

end

end Sys2Proof.Machine
end

