-- ==== Sys2Proof/Laws/Core.lean ====
section
/-! SUPPORT. What the writes of a core's registers change and what they leave. -/

namespace Sys2Proof.Machine

open Sys2Proof

/-- Two cores are alike but for the register store, pair tags, operand file, q and late writes. -/
def Core.likeButRegs (c c' : Core) : Prop :=
  c' = { c with regs := c'.regs, tags := c'.tags, opf := c'.opf, q := c'.q, pending := c'.pending }

theorem Core.note_alone {c : Core} (h : c.interval = none) (x : StreamItem) : c.note x = c := by
  simp [Core.note, h]

theorem Core.noteVal_alone {c : Core} (h : c.interval = none) (v : LVal) : c.noteVal v = c := Core.note_alone h _

theorem Core.noteEntry_alone {c : Core} (h : c.interval = none) (e : Nat) : c.noteEntry e = c := by
  simp [Core.noteEntry, h]

theorem Core.noteEntries_alone {c : Core} (h : c.interval = none) (es : List Nat) : c.noteEntries es = c := by
  unfold Core.noteEntries
  induction es with
  | nil => rfl
  | cons e es ih => rw [List.foldl_cons, Core.noteEntry_alone h]; exact ih

@[simp] theorem Core.cancel_regs (c : Core) (t : Tgt) : (c.cancel t).regs = c.regs := rfl
@[simp] theorem Core.cancel_tags (c : Core) (t : Tgt) : (c.cancel t).tags = c.tags := rfl
@[simp] theorem Core.cancel_opf (c : Core) (t : Tgt) : (c.cancel t).opf = c.opf := rfl
@[simp] theorem Core.cancel_q (c : Core) (t : Tgt) : (c.cancel t).q = c.q := rfl
@[simp] theorem Core.cancel_lens (c : Core) (t : Tgt) : (c.cancel t).lens = c.lens := rfl
@[simp] theorem Core.cancel_interval (c : Core) (t : Tgt) : (c.cancel t).interval = c.interval := rfl
@[simp] theorem Core.cancel_ent (c : Core) (t : Tgt) (e : Nat) : (c.cancel t).ent e = c.ent e := rfl
@[simp] theorem Core.cancel_tagAt (c : Core) (t : Tgt) (e : Nat) : (c.cancel t).tagAt e = c.tagAt e := rfl

@[simp] theorem Core.putEnt_ent (c : Core) (e : Nat) (v : LVal) (x : Nat) :
    (c.putEnt e v).ent x = if x = e then v else c.ent x := by
  simp [Core.putEnt, Core.ent]

@[simp] theorem Core.putEnt_tagAt (c : Core) (e : Nat) (v : LVal) (x : Nat) :
    (c.putEnt e v).tagAt x = if x / 2 = e / 2 then false else c.tagAt x := by
  have : (x / 2 * 2 = e / 2 * 2) ↔ (x / 2 = e / 2) := by omega
  simp [Core.putEnt, Core.tagAt, this]

@[simp] theorem Core.putEnt_opf (c : Core) (e : Nat) (v : LVal) : (c.putEnt e v).opf = c.opf := rfl
@[simp] theorem Core.putEnt_q (c : Core) (e : Nat) (v : LVal) : (c.putEnt e v).q = c.q := rfl
@[simp] theorem Core.putEnt_lens (c : Core) (e : Nat) (v : LVal) : (c.putEnt e v).lens = c.lens := rfl
@[simp] theorem Core.putEnt_pending (c : Core) (e : Nat) (v : LVal) : (c.putEnt e v).pending = c.pending := rfl
@[simp] theorem Core.putEnt_interval (c : Core) (e : Nat) (v : LVal) : (c.putEnt e v).interval = c.interval := rfl

@[simp] theorem Core.setTgt_interval (c : Core) (t : Tgt) (v : LVal) : (c.setTgt t v).interval = c.interval := by
  unfold Core.setTgt; split <;> (try split) <;> rfl
@[simp] theorem Core.setTgt_lens (c : Core) (t : Tgt) (v : LVal) : (c.setTgt t v).lens = c.lens := by
  unfold Core.setTgt; split <;> (try split) <;> rfl
@[simp] theorem Core.setTgt_pending (c : Core) (t : Tgt) (v : LVal) : (c.setTgt t v).pending = c.pending := by
  unfold Core.setTgt; split <;> (try split) <;> rfl

/-- A write of one place by the instruction that issues, on a core without an interval. -/
theorem Core.wrTgt_alone {c : Core} (h : c.interval = none) (t : Tgt) (v : LVal) :
    c.wrTgt t v = (c.cancel t).setTgt t v := by
  unfold Core.wrTgt
  rw [Core.noteVal_alone (by simpa using h), Core.noteEntries_alone (by simpa using h)]

theorem Core.setTgt_like (c : Core) (t : Tgt) (v : LVal) : c.likeButRegs (c.setTgt t v) := by
  unfold Core.likeButRegs Core.setTgt; split <;> (try split) <;> rfl

theorem Core.likeButRegs_refl (c : Core) : c.likeButRegs c := rfl

theorem Core.likeButRegs_trans {a b c : Core} (h : a.likeButRegs b) (g : b.likeButRegs c) : a.likeButRegs c := by
  unfold Core.likeButRegs at *
  rw [h] at g; exact g

theorem Core.cancel_like (c : Core) (t : Tgt) : c.likeButRegs (c.cancel t) := rfl

theorem Core.likeButRegs_interval {a b : Core} (h : a.likeButRegs b) : b.interval = a.interval := by
  unfold Core.likeButRegs at h; rw [h]
theorem Core.likeButRegs_lens {a b : Core} (h : a.likeButRegs b) : b.lens = a.lens := by
  unfold Core.likeButRegs at h; rw [h]

theorem Core.wrTgt_like {c : Core} (h : c.interval = none) (t : Tgt) (v : LVal) : c.likeButRegs (c.wrTgt t v) := by
  rw [Core.wrTgt_alone h]; exact Core.likeButRegs_trans (Core.cancel_like c t) (Core.setTgt_like _ t v)

theorem Core.wr_like {c : Core} (h : c.interval = none) (n : Name) (v : LVal) : c.likeButRegs (c.wr n v) := by
  unfold Core.wr; split
  · exact Core.wrTgt_like h _ _
  · rfl

theorem Core.wrQ_like {c : Core} (h : c.interval = none) (n : Name) (v : LVal) : c.likeButRegs (c.wrQ n v) := by
  have two : ∀ n, c.likeButRegs ((c.wr n v).wr .q v) := fun n =>
    Core.likeButRegs_trans (Core.wr_like h n v)
      (Core.wr_like (by rw [Core.likeButRegs_interval (Core.wr_like h n v)]; exact h) .q v)
  unfold Core.wrQ; split
  · rfl
  · exact Core.wr_like h _ _
  · exact two _

@[simp] theorem Core.cancel_pending_nil (c : Core) (t : Tgt) (h : c.pending = []) : (c.cancel t).pending = [] := by
  simp [Core.cancel, h]

theorem Core.wr_pending_nil {c : Core} (h : c.interval = none) (n : Name) (v : LVal) (hp : c.pending = []) :
    (c.wr n v).pending = [] := by
  unfold Core.wr; split
  · rw [Core.wrTgt_alone h]; simp [hp]
  · exact hp

theorem Core.wrQ_pending_nil {c : Core} (h : c.interval = none) (n : Name) (v : LVal) (hp : c.pending = []) :
    (c.wrQ n v).pending = [] := by
  have hi : ∀ n, (c.wr n v).interval = none := fun n => by
    rw [Core.likeButRegs_interval (Core.wr_like h n v)]; exact h
  unfold Core.wrQ; split
  · exact hp
  · exact Core.wr_pending_nil h _ _ hp
  · exact Core.wr_pending_nil (hi _) _ _ (Core.wr_pending_nil h _ _ hp)

@[simp] theorem Core.rd_st (c : Core) : c.rd .st = c.ent c.lo := rfl
@[simp] theorem Core.rd_w (c : Core) (n : Nat) : c.rd (.w n) = c.ent (c.lb + n) := rfl
@[simp] theorem Core.rd_q (c : Core) : c.rd .q = c.q := rfl
@[simp] theorem Core.rd_zr (c : Core) : c.rd .zr = ⟨0, 0⟩ := rfl

theorem Core.rd_o_of_opf {c c' : Core} (h : c'.opf = c.opf) (i : Nat) : c'.rd (.o i) = c.rd (.o i) := by
  simp [Core.rd, h]

/-- An entry written. -/
theorem Core.written_entry (c : Core) (d : Name) (e : Nat) (u v : LVal) (hd : wordEntry c d = some e)
    (hv : u = if d = .st then ⟨stMask v.v, v.l⟩ else v) : WordWritten d v false c (c.putEnt e u) := by
  have hq : d ≠ .q := by rintro rfl; simp [wordEntry] at hd
  constructor
  · intro _
    cases d <;> simp [wordEntry] at hd <;> subst hd <;> subst hv <;> simp [Core.lb, Core.lo]
  · intro x hx
    have : x ≠ e := fun h => hx (by rw [hd, h])
    simp [this]
  · intro x
    simp only [Core.putEnt_tagAt, hd, Option.some.injEq, exists_eq_left']
    by_cases h : x / 2 = e / 2
    · simp [h]
    · have h' : ¬ e / 2 = x / 2 := fun g => h g.symm
      simp [h, h']
  · intro i _; exact Core.rd_o_of_opf rfl i
  · simp [hq]
  · rfl

/-- A scalar place set, on a core whose registers read as those of `c`. -/
theorem Core.setTgt_written (c : Core) (d : Name) (t : Tgt) (v : LVal) (h : c.place d = some t) :
    WordWritten d v false c (c.setTgt t v) := by
  cases d with
  | w n => cases h; exact Core.written_entry c (.w n) (c.lb + n) v v rfl (by simp)
  | st => cases h; exact Core.written_entry c .st c.lo ⟨stMask v.v, v.l⟩ v rfl (by simp)
  | q => cases h; exact ⟨by simp [Core.setTgt], by intros; rfl, by intro e; simp [wordEntry]; rfl, by intros; rfl,
      by simp [Core.setTgt], rfl⟩
  | zr => cases h
  | rsv i => cases h
  | o k =>
    cases h
    simp only [Core.setTgt]
    split
    · rename_i hk
      refine ⟨fun _ => by simp [Core.rd], by intros; rfl, by intro e; simp [wordEntry]; rfl, ?_, by simp, rfl⟩
      intro i hi
      have : i ≠ k := fun g => hi (by rw [g])
      simp [Core.rd, this]
    · rename_i hk
      exact ⟨by simp [writable, hk], by intros; rfl, by intro e; simp [wordEntry], by intros; rfl, by simp, rfl⟩

/-- Only the lens, the register store, its tags, the operand file and q are asked after a write. -/
theorem written_congr {d : Name} {v : LVal} {b : Bool} {c c' x x' : Core} (h : WordWritten d v b c c')
    (e1 : x.lens = c.lens) (e2 : x.regs = c.regs) (e3 : x.tags = c.tags) (e4 : x.opf = c.opf) (e5 : x.q = c.q)
    (f1 : x'.lens = c'.lens) (f2 : x'.regs = c'.regs) (f3 : x'.tags = c'.tags) (f4 : x'.opf = c'.opf) (f5 : x'.q = c'.q) :
    WordWritten d v b x x' := by
  have ent : ∀ e, x.ent e = c.ent e := fun e => by simp [Core.ent, e2]
  have ent' : ∀ e, x'.ent e = c'.ent e := fun e => by simp [Core.ent, f2]
  have tag : ∀ e, x.tagAt e = c.tagAt e := fun e => by simp [Core.tagAt, e3]
  have tag' : ∀ e, x'.tagAt e = c'.tagAt e := fun e => by simp [Core.tagAt, f3]
  have rd : ∀ n, x.rd n = c.rd n := fun n => by cases n <;> simp [Core.rd, ent, Core.lb, Core.lo, e1, e4, e5]
  have rd' : ∀ n, x'.rd n = c'.rd n := fun n => by cases n <;> simp [Core.rd, ent', Core.lb, Core.lo, f1, f4, f5]
  have we : ∀ n, wordEntry x n = wordEntry c n := fun n => by cases n <;> simp [wordEntry, Core.lb, Core.lo, e1]
  refine ⟨fun w => by rw [rd']; exact h.value w, fun e he => by rw [ent, ent']; exact h.entries e (by rwa [we] at he),
    fun e => by rw [tag', tag, we]; exact h.pairs e, fun i hi => by rw [rd, rd']; exact h.operands i hi,
    by rw [f5, e5]; exact h.quotient, rfl⟩

/-- A scalar write without q: its place, and nothing else. -/
theorem Core.wr_written {c : Core} (h : c.interval = none) (d : Name) (v : LVal) :
    WordWritten d v false c (c.wr d v) := by
  unfold Core.wr
  split
  · rename_i t ht
    rw [Core.wrTgt_alone h]
    exact written_congr (Core.setTgt_written (c.cancel t) d t v ht) rfl rfl rfl rfl rfl rfl rfl rfl rfl rfl
  · rename_i hn
    cases d <;> simp [Core.place] at hn <;>
      exact ⟨by simp [writable], by intros; rfl, by simp [wordEntry], by intros; rfl, by simp, rfl⟩

/-- A place and q: the place written first, then q. -/
theorem written_withQ {d : Name} {v : LVal} {c c' : Core} (h : WordWritten d v false c c')
    (hz : d ≠ .zr) (hq : d ≠ .q) : WordWritten d v true c { c' with q := v } := by
  refine ⟨fun hw => ?_, h.entries, h.pairs, h.operands, by simp [hz], rfl⟩
  rw [← h.value hw]
  cases d with
  | q => exact absurd rfl hq
  | _ => rfl

/-- A scalar write and q: the place, q, and nothing else. -/
theorem Core.wrQ_written {c : Core} (h : c.interval = none) (d : Name) (v : LVal) :
    WordWritten d v true c (c.wrQ d v) := by
  have hi : (c.wr d v).interval = none := by rw [Core.likeButRegs_interval (Core.wr_like h d v)]; exact h
  unfold Core.wrQ
  split
  · exact ⟨by simp [writable], by intros; rfl, by simp [wordEntry], by intros; rfl, by simp, rfl⟩
  · have := Core.wr_written h .q v
    exact ⟨this.value, this.entries, this.pairs, this.operands, by simpa using this.quotient, this.zero⟩
  · rename_i hz hq
    have e2 : (c.wr d v).wr .q v = { ((c.wr d v).cancel .q) with q := v } := by
      show (c.wr d v).wrTgt .q v = _
      rw [Core.wrTgt_alone hi]; rfl
    rw [e2]
    exact written_congr (written_withQ (Core.wr_written h d v) hz hq) rfl rfl rfl rfl rfl rfl rfl rfl rfl rfl

/-- The late writes of a scalar result land as the result itself. -/
theorem Core.lateQ_written (c : Core) (d : Name) (v : LVal) (u : Option XWait) :
    WordWritten d v true c ((c.lateQ d v).foldl Core.landOne { c with pending := [], xwait := u }) := by
  cases d with
  | zr => exact ⟨by simp [writable], by intros; rfl, by simp [wordEntry, Core.lateQ]; exact fun _ => rfl, by intros; rfl,
      by simp [Core.lateQ], rfl⟩
  | q => exact ⟨by intro _; rfl, by intros; rfl, by intro e; simp [wordEntry]; rfl, by intros; rfl, by simp; rfl, rfl⟩
  | rsv i => exact ⟨by simp [writable], by intros; rfl, by simp [wordEntry]; exact fun _ => rfl, by intros; rfl, by simp; rfl, rfl⟩
  | _ =>
    exact written_congr (written_withQ (Core.setTgt_written { c with pending := [], xwait := u } _ _ v rfl) (by simp) (by simp))
      rfl rfl rfl rfl rfl rfl rfl rfl rfl rfl

theorem landOne_pending (ws : List TWrite) (c : Core) : (ws.foldl Core.landOne c).pending = c.pending := by
  induction ws generalizing c with
  | nil => rfl
  | cons w ws ih =>
    rw [List.foldl_cons, ih]
    unfold Core.landOne; split <;> first | rfl | simp

/-- The same, on a core that agrees with `c` in what a write asks for. -/
theorem lateQ_lands (c x : Core) (d : Name) (v : LVal) (hp : x.pending = []) (e1 : x.lens = c.lens) (e2 : x.regs = c.regs)
    (e3 : x.tags = c.tags) (e4 : x.opf = c.opf) (e5 : x.q = c.q) :
    WordWritten d v true c ((c.lateQ d v).foldl Core.landOne x) := by
  have h := Core.lateQ_written x d v x.xwait
  have e : ({ x with pending := [], xwait := x.xwait } : Core) = x := by rw [← hp]
  have l : x.lateQ d v = c.lateQ d v := by cases d <;> simp [Core.lateQ, Core.latePlace, Core.place, Core.lb, Core.lo, e1]
  rw [e, l] at h
  exact written_congr h e1.symm e2.symm e3.symm e4.symm e5.symm rfl rfl rfl rfl rfl

/-- The words of a capability say it whole (R85, R86). -/
@[simp] theorem Cap.ofWords_words (k : Cap) : Cap.ofWords k.addr k.hi k.tag = k := by
  cases k with
  | mk o l p r e t b a g =>
    simp only [Cap.ofWords, Cap.hi, Cap.mk.injEq, and_true]
    refine ⟨?_, ?_, ?_, ?_, ?_, ?_, ?_⟩ <;> apply BitVec.eq_of_getLsbD_eq <;> intro i hi <;>
      simp only [BitVec.getLsbD_extractLsb', BitVec.getLsbD_append] <;> simp [hi] <;> repeat (split <;> try omega)
    all_goals (congr 1; try (simp only []; omega))

theorem Core.putPair_ent (c : Core) (e : Nat) (k : Cap) (l : Label) (x : Nat) :
    (c.putPair e k l).ent x = if x = e + 1 then ⟨k.hi, l⟩ else if x = e then ⟨k.addr, l⟩ else c.ent x := by
  simp [Core.putPair, Core.ent]

theorem Core.putPair_tagAt (c : Core) (e : Nat) (k : Cap) (l : Label) (x : Nat) :
    (c.putPair e k l).tagAt x = if x / 2 = e / 2 then k.tag else c.tagAt x := by
  have : (x / 2 * 2 = e / 2 * 2) ↔ (x / 2 = e / 2) := by omega
  simp [Core.putPair, Core.tagAt, this]

@[simp] theorem Core.putPair_opf (c : Core) (e : Nat) (k : Cap) (l : Label) : (c.putPair e k l).opf = c.opf := rfl
@[simp] theorem Core.putPair_q (c : Core) (e : Nat) (k : Cap) (l : Label) : (c.putPair e k l).q = c.q := rfl
@[simp] theorem Core.putPair_lens (c : Core) (e : Nat) (k : Cap) (l : Label) : (c.putPair e k l).lens = c.lens := rfl
@[simp] theorem Core.putPair_pending (c : Core) (e : Nat) (k : Cap) (l : Label) : (c.putPair e k l).pending = c.pending := rfl
@[simp] theorem Core.putPair_interval (c : Core) (e : Nat) (k : Cap) (l : Label) :
    (c.putPair e k l).interval = c.interval := rfl

theorem Core.wrCap_alone {c : Core} (h : c.interval = none) (n : Name) (k : Cap) (l : Label) :
    c.wrCap n k l = (c.cancel (.pair (c.physOf n))).putPair (c.physOf n) k l := by
  unfold Core.wrCap
  simp only
  have hi : ((c.cancel (.pair (c.physOf n))).putPair (c.physOf n) k l).interval = none := by simpa using h
  rw [Core.noteVal_alone hi, Core.noteVal_alone hi, Core.noteEntries_alone hi]

theorem Core.wrCap_like {c : Core} (h : c.interval = none) (n : Name) (k : Cap) (l : Label) :
    c.likeButRegs (c.wrCap n k l) := by rw [Core.wrCap_alone h]; rfl

/-- A capability written to an aligned pair. -/
theorem Core.wrCap_written {c : Core} (h : c.interval = none) (n : Nat) (k : Cap) (l : Label) :
    CapWritten (.w n) k l c (c.wrCap (.w n) k l) := by
  have hp : c.physOf (.w n) = c.lb + n := rfl
  have e1 : ∀ x, (c.wrCap (.w n) k l).ent x =
      if x = c.lb + n + 1 then ⟨k.hi, l⟩ else if x = c.lb + n then ⟨k.addr, l⟩ else c.ent x := by
    intro x; rw [Core.wrCap_alone h, Core.putPair_ent, Core.cancel_ent, hp]
  have e2 : ∀ x, (c.wrCap (.w n) k l).tagAt x = if x / 2 = (c.lb + n) / 2 then k.tag else c.tagAt x := by
    intro x; rw [Core.wrCap_alone h, Core.putPair_tagAt, Core.cancel_tagAt, hp]
  have e3 : (c.wrCap (.w n) k l).lb = c.lb := by rw [Core.wrCap_alone h]; simp [Core.lb]
  constructor
  · simp only [Core.rdCap, e3, Core.capAt, e1, e2]; simp
  · rw [hp, e1]; simp
  · rw [hp, e1]; simp
  · intro e h1 h2; rw [hp] at h1 h2; rw [e1]; simp [h1, h2]
  · intro e h1; rw [hp] at h1; rw [e2]; simp [h1]
  · rw [Core.wrCap_alone h]; simp
  · rw [Core.wrCap_alone h]; simp

end Sys2Proof.Machine
end

