-- ==== Sys2Proof/Laws/Crypto.lean ====
section
/-! SUPPORT. The digest's length, and that every key of 32 bytes unwraps some text to any given 32 bytes: the secret of a session,
whose key no proof knows, can be unwrapped. -/

namespace Sys2Proof.Machine

open Sys2Proof

theorem aesDouble_xor (a b : Byte) : aesDouble (a ^^^ b) = aesDouble a ^^^ aesDouble b := by
  unfold aesDouble
  rw [BitVec.getLsbD_xor]
  rcases a.getLsbD 7 <;> rcases b.getLsbD 7 <;> simp only [BitVec.shiftLeft_xor_distrib, Bool.xor_true, Bool.xor_false, Bool.not_true, Bool.not_false, if_true, if_false, Bool.false_eq_true]
  · simp
  · simp; ac_rfl
  · simp; ac_rfl
  · calc _ = a <<< 1 ^^^ b <<< 1 ^^^ (27#8 ^^^ 27#8) := by simp
      _ = _ := by ac_rfl

/-- A step of the product. -/
def mulStep (b : Byte) (x : Byte × Byte) (i : Nat) : Byte × Byte := (aesDouble x.1, if b.getLsbD i then x.2 ^^^ x.1 else x.2)

theorem mulStep_xor (c : Byte) (l : List Nat) : ∀ (x y : Byte × Byte),
    l.foldl (mulStep c) (x.1 ^^^ y.1, x.2 ^^^ y.2) = ((l.foldl (mulStep c) x).1 ^^^ (l.foldl (mulStep c) y).1,
      (l.foldl (mulStep c) x).2 ^^^ (l.foldl (mulStep c) y).2) := by
  induction l with
  | nil => intro x y; rfl
  | cons i l ih =>
    intro x y
    have h : mulStep c (x.1 ^^^ y.1, x.2 ^^^ y.2) i = ((mulStep c x i).1 ^^^ (mulStep c y i).1, (mulStep c x i).2 ^^^ (mulStep c y i).2) := by
      unfold mulStep
      cases c.getLsbD i <;> simp [aesDouble_xor] <;> ac_rfl
    rw [List.foldl_cons, List.foldl_cons, List.foldl_cons, h, ih]

theorem aesMul_xor (a b c : Byte) : aesMul (a ^^^ b) c = aesMul a c ^^^ aesMul b c := by
  have := congrArg Prod.snd (mulStep_xor c (List.range 8) (a, 0) (b, 0))
  rw [show ((0 : Byte) ^^^ 0) = 0 from rfl] at this
  exact this

/-- The columns mixed, and the rows shifted forward: what decryption undoes. -/
def aesMix (b : List Byte) : List Byte :=
  (List.range 16).map (fun i =>
    let at_ := fun k => b.getD (i / 4 * 4 + (i + k) % 4) 0
    aesMul (at_ 0) 2 ^^^ aesMul (at_ 1) 3 ^^^ at_ 2 ^^^ at_ 3)

theorem unmix_consts : ∀ x : Byte,
    aesMul (aesMul x 2) 14 ^^^ aesMul x 11 ^^^ aesMul x 13 ^^^ aesMul (aesMul x 3) 9 = x ∧
    aesMul (aesMul x 3) 14 ^^^ aesMul (aesMul x 2) 11 ^^^ aesMul x 13 ^^^ aesMul x 9 = 0 ∧
    aesMul x 14 ^^^ aesMul (aesMul x 3) 11 ^^^ aesMul (aesMul x 2) 13 ^^^ aesMul x 9 = 0 ∧
    aesMul x 14 ^^^ aesMul x 11 ^^^ aesMul (aesMul x 3) 13 ^^^ aesMul (aesMul x 2) 9 = 0 := by
  decide +kernel
theorem sboxInv_sbox : ∀ x : Byte, sboxInv (sbox x) = x := by decide +kernel

theorem unmix_column (w x y z : Byte) :
    aesMul (aesMul w 2 ^^^ aesMul x 3 ^^^ y ^^^ z) 14 ^^^ aesMul (aesMul x 2 ^^^ aesMul y 3 ^^^ z ^^^ w) 11 ^^^
      aesMul (aesMul y 2 ^^^ aesMul z 3 ^^^ w ^^^ x) 13 ^^^ aesMul (aesMul z 2 ^^^ aesMul w 3 ^^^ x ^^^ y) 9 = w := by
  simp only [aesMul_xor]
  obtain ⟨h1, -⟩ := unmix_consts w
  obtain ⟨-, h2, -⟩ := unmix_consts x
  obtain ⟨-, -, h3, -⟩ := unmix_consts y
  obtain ⟨-, -, -, h4⟩ := unmix_consts z
  calc _ = (aesMul (aesMul w 2) 14 ^^^ aesMul w 11 ^^^ aesMul w 13 ^^^ aesMul (aesMul w 3) 9) ^^^
        (aesMul (aesMul x 3) 14 ^^^ aesMul (aesMul x 2) 11 ^^^ aesMul x 13 ^^^ aesMul x 9) ^^^
        (aesMul y 14 ^^^ aesMul (aesMul y 3) 11 ^^^ aesMul (aesMul y 2) 13 ^^^ aesMul y 9) ^^^
        (aesMul z 14 ^^^ aesMul z 11 ^^^ aesMul (aesMul z 3) 13 ^^^ aesMul (aesMul z 2) 9) := by ac_rfl
    _ = w := by rw [h1, h2, h3, h4]; simp

theorem same_block {a b : List Byte} (ha : a.length = 16) (hb : b.length = 16) (h : ∀ i, i < 16 → a.getD i 0 = b.getD i 0) : a = b := by
  refine List.ext_getElem (ha.trans hb.symm) (fun i h1 h2 => ?_)
  have := h i (ha ▸ h1)
  simpa [List.getD, h1, h2] using this

theorem unmix_mix (b : List Byte) (h : b.length = 16) : aesUnmix (aesMix b) = b := by
  have hm : ∀ j, j < 16 → (aesMix b).getD j 0 = aesMul (b.getD (j / 4 * 4 + j % 4) 0) 2 ^^^ aesMul (b.getD (j / 4 * 4 + (j + 1) % 4) 0) 3 ^^^
      b.getD (j / 4 * 4 + (j + 2) % 4) 0 ^^^ b.getD (j / 4 * 4 + (j + 3) % 4) 0 := by
    intro j hj
    simp [aesMix, List.getD, hj]
  have hu : ∀ x i, i < 16 → (aesUnmix x).getD i 0 = aesMul (x.getD (i / 4 * 4 + i % 4) 0) 14 ^^^ aesMul (x.getD (i / 4 * 4 + (i + 1) % 4) 0) 11 ^^^
      aesMul (x.getD (i / 4 * 4 + (i + 2) % 4) 0) 13 ^^^ aesMul (x.getD (i / 4 * 4 + (i + 3) % 4) 0) 9 := by
    intro x i hi
    simp [aesUnmix, List.getD, hi]
  refine same_block (by simp [aesUnmix]) h (fun i hi => ?_)
  rw [hu _ i hi]
  interval_cases i <;> rw [hm _ (by decide), hm _ (by decide), hm _ (by decide), hm _ (by decide)] <;> exact unmix_column _ _ _ _

def aesShift (b : List Byte) : List Byte := (List.range 16).map (fun i => b.getD ((i + 4 * (i % 4)) % 16) 0)

theorem unshift_shift (b : List Byte) (h : b.length = 16) : aesUnshift (aesShift b) = b := by
  refine same_block (by simp [aesUnshift]) h (fun i hi => ?_)
  have hu : (aesUnshift (aesShift b)).getD i 0 = (aesShift b).getD ((i + 16 - 4 * (i % 4)) % 16) 0 := by simp [aesUnshift, List.getD, hi]
  have hs : ∀ j, j < 16 → (aesShift b).getD j 0 = b.getD ((j + 4 * (j % 4)) % 16) 0 := fun j hj => by simp [aesShift, List.getD, hj]
  rw [hu, hs _ (by omega)]
  congr 1
  omega

theorem xor_xor (a k : List Byte) (h : a.length = k.length) :
    List.zipWith (· ^^^ ·) (List.zipWith (· ^^^ ·) a k) k = a := by
  apply List.ext_getElem
  · simp [h]
  · intro i h1 h2; simp [BitVec.xor_assoc]

theorem unsub (b : List Byte) : (b.map sbox).map sboxInv = b := by
  simp [List.map_map, Function.comp_def, sboxInv_sbox]

/-- Every block is the decryption of some block, when the round keys are whole. -/
theorem decrypt_onto (key : List Byte) (hk : ∀ r, r < 15 → ((aesKeys key).getD r []).length = 16) (b : List Byte) (hb : b.length = 16) :
    ∃ c, c.length = 16 ∧ aesDecrypt key c = b := by
  have step : ∀ l : List Nat, (∀ r ∈ l, r < 15) → ∀ b : List Byte, b.length = 16 → ∃ c, c.length = 16 ∧
      l.foldl (fun (c : List Byte) (r : Nat) => aesUnmix (List.zipWith (· ^^^ ·) ((aesUnshift c).map sboxInv) ((aesKeys key).getD r []))) c = b := by
    intro l
    induction l with
    | nil => exact fun _ b hb => ⟨b, hb, rfl⟩
    | cons r l ih =>
      intro hl b hb
      obtain ⟨c, hc, hf⟩ := ih (fun r hr => hl r (List.mem_cons_of_mem _ hr)) b hb
      have hr := hk r (hl r List.mem_cons_self)
      have h1 : (aesMix c).length = 16 := by simp [aesMix]
      have h2 : (List.zipWith (· ^^^ ·) (aesMix c) ((aesKeys key).getD r [])).length = 16 := by rw [List.length_zipWith, h1, hr, Nat.min_self]
      refine ⟨aesShift ((List.zipWith (· ^^^ ·) (aesMix c) ((aesKeys key).getD r [])).map sbox), by simp [aesShift], ?_⟩
      rw [List.foldl_cons, unshift_shift _ (by rw [List.length_map, h2]), unsub, xor_xor _ _ (by rw [h1, hr]), unmix_mix c hc, hf]
  have h0 := hk 0 (by decide)
  have h14 := hk 14 (by decide)
  have hx : (List.zipWith (· ^^^ ·) b ((aesKeys key).getD 0 [])).length = 16 := by rw [List.length_zipWith, hb, h0, Nat.min_self]
  obtain ⟨c, hc, hf⟩ := step ((List.range 13).map (fun i => 13 - i)) (by decide)
    (aesShift ((List.zipWith (· ^^^ ·) b ((aesKeys key).getD 0 [])).map sbox)) (by simp [aesShift])
  refine ⟨List.zipWith (· ^^^ ·) c ((aesKeys key).getD 14 []), by rw [List.length_zipWith, hc, h14, Nat.min_self], ?_⟩
  unfold aesDecrypt
  dsimp only
  rw [xor_xor _ _ (by rw [hc, h14]), hf, unshift_shift _ (by rw [List.length_map, hx]), unsub, xor_xor _ _ (by rw [hb, h0])]

theorem expand_words (n : Nat) : ∀ (i : Nat) (ws : List (List Byte)), 8 ≤ ws.length → (∀ x ∈ ws, x.length = 4) →
    (aesExpand i ws n).length = ws.length + n ∧ ∀ x ∈ aesExpand i ws n, x.length = 4 := by
  induction n with
  | zero => exact fun i ws _ h => ⟨rfl, h⟩
  | succ n ih =>
    intro i ws h8 h
    have hd : ∀ k, k < 8 → (ws.getD k []).length = 4 := fun k hk => by
      have hk' : k < ws.length := by omega
      rw [show ws.getD k [] = ws[k] by simp [List.getD, hk']]
      exact h _ (List.getElem_mem hk')
    have h0 : (ws.headD []).length = 4 := by
      have := hd 0 (by decide)
      cases ws with
      | nil => simp at h8
      | cons x l => simpa [List.getD] using this
    unfold aesExpand
    have h1 := ih (i + 1) (List.zipWith (· ^^^ ·) (ws.getD 7 []) (if i % 8 = 0 then
        List.zipWith (· ^^^ ·) (((ws.headD []).drop 1 ++ (ws.headD []).take 1).map sbox) [(1 : Byte) <<< (i / 8 - 1), 0, 0, 0]
      else if i % 8 = 4 then (ws.headD []).map sbox else ws.headD []) :: ws) (by simp; omega) (by
        intro x hx
        rcases List.mem_cons.1 hx with rfl | hx
        · rw [List.length_zipWith, hd 7 (by decide)]
          split_ifs <;> simp only [List.length_zipWith, List.length_map, List.length_append, List.length_drop, List.length_take, h0, List.length_cons, List.length_nil] <;> omega
        · exact h x hx)
    refine ⟨?_, h1.2⟩
    rw [h1.1]; simp; omega

theorem keys_whole (key : List Byte) (hk : key.length = 32) (r : Nat) (hr : r < 15) : ((aesKeys key).getD r []).length = 16 := by
  obtain ⟨hl, hw⟩ := expand_words 52 8 ((List.range 8).map (fun i => (key.drop (4 * i)).take 4)).reverse (by simp) (by
    intro x hx
    simp only [List.mem_reverse, List.mem_map, List.mem_range] at hx
    obtain ⟨i, hi, rfl⟩ := hx
    rw [List.length_take, List.length_drop]; omega)
  have hsum : ∀ l : List (List Byte), (∀ x ∈ l, x.length = 4) → l.flatten.length = 4 * l.length := by
    intro l
    induction l with
    | nil => intro _; rfl
    | cons x l ih =>
      intro h
      rw [List.flatten_cons, List.length_append, ih (fun y hy => h y (List.mem_cons_of_mem _ hy)), h x List.mem_cons_self, List.length_cons]
      ring
  rw [show (aesKeys key).getD r [] = ((((aesExpand 8 ((List.range 8).map (fun i => (key.drop (4 * i)).take 4)).reverse 52).reverse).drop (4 * r)).take 4).flatten by
    simp [aesKeys, List.getD, hr]]
  rw [hsum _ (fun x hx => hw x (List.mem_reverse.1 (List.mem_of_mem_drop (List.mem_of_mem_take hx))))]
  rw [List.length_take, List.length_drop, List.length_reverse, hl]
  simp; omega

/-- Blocks of the key unwrap: a check half of eight bytes and four parts of eight. -/
def WrapState (x : List Byte × List (List Byte)) : Prop := x.1.length = 8 ∧ x.2.length = 4 ∧ ∀ y ∈ x.2, y.length = 8

theorem step_onto (key : List Byte) (hk : key.length = 32) (j : Nat) (y : List Byte × List (List Byte)) (hy : WrapState y) :
    ∃ x, WrapState x ∧ unwrapStep key 4 x j = y := by
  obtain ⟨a, ps⟩ := y
  obtain ⟨h1, h2, h3⟩ := hy
  have hi : (j + 4 - 1) % 4 < ps.length := by rw [h2]; omega
  set i := (j + 4 - 1) % 4
  have hp : (ps.getD i []).length = 8 := by
    rw [show ps.getD i [] = ps[i] by simp [List.getD, hi]]
    exact h3 _ (List.getElem_mem hi)
  obtain ⟨c, hc, hd⟩ := decrypt_onto key (fun r hr => keys_whole key hk r hr) (a ++ ps.getD i []) (by rw [List.length_append, h1, hp])
  have hb : (bytesBig 8 j).length = 8 := by simp [bytesBig, bytesOf]
  have ht : (c.take 8).length = 8 := by rw [List.length_take, hc]; rfl
  refine ⟨(List.zipWith (· ^^^ ·) (c.take 8) (bytesBig 8 j), ps.set i (c.drop 8)), ⟨?_, ?_, ?_⟩, ?_⟩
  · rw [List.length_zipWith, ht, hb]; rfl
  · rw [List.length_set, h2]
  · intro y hy
    rcases List.mem_or_eq_of_mem_set hy with h | rfl
    · exact h3 y h
    · rw [List.length_drop, hc]
  · have hset : (ps.set i (c.drop 8)).getD i [] = c.drop 8 := by simp [List.getD, hi]
    unfold unwrapStep
    dsimp only
    rw [xor_xor _ _ (by rw [ht, hb]), hset, List.take_append_drop, hd, List.take_left' h1, List.drop_left' h1, List.set_set]
    congr 1
    rw [show ps.getD i [] = ps[i] by simp [List.getD, hi], List.set_getElem_self]

theorem steps_onto (key : List Byte) (hk : key.length = 32) (l : List Nat) : ∀ y, WrapState y → ∃ x, WrapState x ∧ l.foldl (unwrapStep key 4) x = y := by
  induction l with
  | nil => exact fun y hy => ⟨y, hy, rfl⟩
  | cons j l ih =>
    intro y hy
    obtain ⟨z, hz, h1⟩ := ih y hy
    obtain ⟨x, hx, h2⟩ := step_onto key hk j z hz
    exact ⟨x, hx, by rw [List.foldl_cons, h2, h1]⟩

theorem kwp_four (key a p0 p1 p2 p3 : List Byte) (ha : a.length = 8) (e0 : p0.length = 8) (e1 : p1.length = 8) (e2 : p2.length = 8)
    (e3 : p3.length = 8) (r : List Byte × List (List Byte))
    (hr : ((List.range 24).map (fun i => 24 - i)).foldl (unwrapStep key 4) (a, [p0, p1, p2, p3]) = r) :
    kwpUnwrap key (a ++ (p0 ++ (p1 ++ (p2 ++ p3)))) =
      if r.1.take 4 = [0xA6, 0x59, 0x59, 0xA6] ∧ 24 < ofBytes (r.1.drop 4).reverse ∧ ofBytes (r.1.drop 4).reverse ≤ 32 ∧
          (r.2.flatten.drop (ofBytes (r.1.drop 4).reverse)).all (fun b => decide (b = 0)) then
        some (r.2.flatten.take (ofBytes (r.1.drop 4).reverse)) else none := by
  have hl : (a ++ (p0 ++ (p1 ++ (p2 ++ p3)))).length = 40 := by simp only [List.length_append]; omega
  have d : ∀ (x y : List Byte) n, x.length = 8 → 8 ≤ n → (x ++ y).drop n = y.drop (n - 8) := fun x y n hx hn => by
    rw [List.drop_append, List.drop_of_length_le (by omega), hx, List.nil_append]
  have hp : (List.range 4).map (fun i => ((a ++ (p0 ++ (p1 ++ (p2 ++ p3)))).drop (8 * (i + 1))).take 8) = [p0, p1, p2, p3] := by
    simp only [List.range, List.range.loop, List.map_cons, List.map_nil]
    rw [d a _ 8 ha (by decide), d a _ 16 ha (by decide), d a _ 24 ha (by decide), d a _ 32 ha (by decide),
      d p0 _ 8 e0 (by decide), d p0 _ 16 e0 (by decide), d p0 _ 24 e0 (by decide), d p1 _ 8 e1 (by decide), d p1 _ 16 e1 (by decide),
      d p2 _ 8 e2 (by decide)]
    simp only [Nat.sub_self, List.drop_zero]
    rw [List.take_left' e0, List.take_left' e1, List.take_left' e2, List.take_of_length_le (by omega)]
  unfold kwpUnwrap
  rw [hl]
  simp only [Nat.reduceMod, Nat.reduceDiv, Nat.reduceSub, Nat.reduceMul]
  rw [hp, List.take_left' ha, hr]
  simp

theorem four_of {ps : List (List Byte)} (h : ps.length = 4) : ∃ p0 p1 p2 p3, ps = [p0, p1, p2, p3] := by
  rcases ps with _ | ⟨p0, _ | ⟨p1, _ | ⟨p2, _ | ⟨p3, _ | ⟨p4, ps⟩⟩⟩⟩⟩ <;> simp at h
  exact ⟨_, _, _, _, rfl⟩

/-- Under every key of 32 bytes, some text unwraps to any 32 bytes. -/
theorem unwrap_onto (key : List Byte) (hk : key.length = 32) (y : List Byte) (hy : y.length = 32) : ∃ c, kwpUnwrap key c = some y := by
  have hq : (List.range 4).map (fun i => (y.drop (8 * i)).take 8) = [y.take 8, (y.drop 8).take 8, (y.drop 16).take 8, (y.drop 24).take 8] := rfl
  have hfl : ((List.range 4).map (fun i => (y.drop (8 * i)).take 8)).flatten = y := by
    rw [hq]
    simp only [List.flatten_cons, List.flatten_nil, List.append_nil]
    rw [show (y.drop 24).take 8 = y.drop 24 from List.take_of_length_le (by rw [List.length_drop, hy])]
    rw [show y.drop 24 = (y.drop 16).drop 8 by rw [List.drop_drop], List.take_append_drop, show y.drop 16 = (y.drop 8).drop 8 by rw [List.drop_drop],
      List.take_append_drop, List.take_append_drop]
  obtain ⟨⟨a, ps⟩, ⟨h1, h2, h3⟩, hx⟩ := steps_onto key hk ((List.range 24).map (fun i => 24 - i))
    ([0xA6, 0x59, 0x59, 0xA6, 0, 0, 0, 32], (List.range 4).map (fun i => (y.drop (8 * i)).take 8)) ⟨rfl, by simp, fun z hz => by
      simp only [List.mem_map, List.mem_range] at hz
      obtain ⟨i, hi, rfl⟩ := hz
      rw [List.length_take, List.length_drop]; omega⟩
  obtain ⟨p0, p1, p2, p3, rfl⟩ := four_of h2
  refine ⟨_, (kwp_four key a p0 p1 p2 p3 h1 (h3 p0 (by simp)) (h3 p1 (by simp)) (h3 p2 (by simp)) (h3 p3 (by simp)) _ hx).trans ?_⟩
  simp only []
  rw [hfl, show ofBytes (([0xA6, 0x59, 0x59, 0xA6, 0, 0, 0, 32] : List Byte).drop 4).reverse = 32 by decide,
    show y.drop 32 = [] from List.drop_of_length_le (by rw [hy]), show y.take 32 = y from List.take_of_length_le (by rw [hy]), if_pos]
  exact ⟨rfl, by decide, by decide, rfl⟩

theorem keccak_lanes (a : Lanes) (ha : a.length = 25) : (keccak a).length = 25 := by
  have h : ∀ (l : List (BitVec 64)) (a : Lanes), a.length = 25 → (l.foldl keccakRound a).length = 25 := by
    intro l
    induction l with
    | nil => exact fun a h => h
    | cons c l ih => exact fun a _ => ih _ (by simp [keccakRound, laneTable])
  exact h _ a ha

theorem absorb_lanes (n : Nat) : ∀ (a : Lanes) (bs : List Byte), a.length = 25 → (absorb a bs n).length = 25 := by
  induction n with
  | zero => exact fun a _ h => h
  | succ n ih =>
    intro a bs h
    unfold absorb
    split
    · exact h
    · exact ih _ _ (keccak_lanes _ (by simp [lanesOf, h]))

theorem shake256_length (n : Nat) (hn : n ≤ 200) (bs : List Byte) : (shake256 n bs).length = n := by
  have h := absorb_lanes ((spongePad bs).length / spongeRate) (List.replicate 25 0) (spongePad bs) List.length_replicate
  have hb : ∀ w : BitVec 64, (bytesOf 8 w.toNat).length = 8 := fun _ => rfl
  have hf : ∀ l : Lanes, (lanesBytes l).length = 8 * l.length := by
    intro l
    induction l with
    | nil => rfl
    | cons w l ih => rw [lanesBytes, List.flatMap_cons, List.length_append, ← lanesBytes, ih, hb, List.length_cons]; omega
  rw [shake256, List.length_take, hf, h]
  omega

end Sys2Proof.Machine
end

