-- ==== Sys2Proof/Laws/State.lean ====
section
/-! SUPPORT. What each named update of State leaves as it was, one law for each field, so that no proof unfolds an update. -/

namespace Sys2Proof.Machine

section
variable (s : State)

@[simp] theorem State.mapCore_others (f : Core → Core) : (s.mapCore f).others = s.others := rfl
@[simp] theorem State.mapCore_mem (f : Core → Core) : (s.mapCore f).mem = s.mem := rfl
@[simp] theorem State.mapCore_labels (f : Core → Core) : (s.mapCore f).labels = s.labels := rfl
@[simp] theorem State.mapCore_tags (f : Core → Core) : (s.mapCore f).tags = s.tags := rfl
@[simp] theorem State.mapCore_flights (f : Core → Core) : (s.mapCore f).flights = s.flights := rfl
@[simp] theorem State.mapCore_signals (f : Core → Core) : (s.mapCore f).signals = s.signals := rfl
@[simp] theorem State.mapCore_xflights (f : Core → Core) : (s.mapCore f).xflights = s.xflights := rfl
@[simp] theorem State.mapCore_cardbuf (f : Core → Core) : (s.mapCore f).cardbuf = s.cardbuf := rfl
@[simp] theorem State.mapCore_parts (f : Core → Core) : (s.mapCore f).parts = s.parts := rfl
@[simp] theorem State.mapCore_remap (f : Core → Core) : (s.mapCore f).remap = s.remap := rfl
@[simp] theorem State.mapCore_sweeps (f : Core → Core) : (s.mapCore f).sweeps = s.sweeps := rfl
@[simp] theorem State.mapCore_sems (f : Core → Core) : (s.mapCore f).sems = s.sems := rfl
@[simp] theorem State.mapCore_bars (f : Core → Core) : (s.mapCore f).bars = s.bars := rfl
@[simp] theorem State.mapCore_armed (f : Core → Core) : (s.mapCore f).armed = s.armed := rfl
@[simp] theorem State.mapCore_waits (f : Core → Core) : (s.mapCore f).waits = s.waits := rfl
@[simp] theorem State.mapCore_posters (f : Core → Core) : (s.mapCore f).posters = s.posters := rfl
@[simp] theorem State.mapCore_tiles (f : Core → Core) : (s.mapCore f).tiles = s.tiles := rfl
@[simp] theorem State.mapCore_missq (f : Core → Core) : (s.mapCore f).missq = s.missq := rfl
@[simp] theorem State.mapCore_missrr (f : Core → Core) : (s.mapCore f).missrr = s.missrr := rfl
@[simp] theorem State.mapCore_inflight (f : Core → Core) : (s.mapCore f).inflight = s.inflight := rfl
@[simp] theorem State.mapCore_queues (f : Core → Core) : (s.mapCore f).queues = s.queues := rfl
@[simp] theorem State.mapCore_heldq (f : Core → Core) : (s.mapCore f).heldq = s.heldq := rfl
@[simp] theorem State.mapCore_chains (f : Core → Core) : (s.mapCore f).chains = s.chains := rfl
@[simp] theorem State.mapCore_dies (f : Core → Core) : (s.mapCore f).dies = s.dies := rfl
@[simp] theorem State.mapCore_kernels (f : Core → Core) : (s.mapCore f).kernels = s.kernels := rfl
@[simp] theorem State.mapCore_nextKernel (f : Core → Core) : (s.mapCore f).nextKernel = s.nextKernel := rfl
@[simp] theorem State.mapCore_images (f : Core → Core) : (s.mapCore f).images = s.images := rfl
@[simp] theorem State.mapCore_tileImages (f : Core → Core) : (s.mapCore f).tileImages = s.tileImages := rfl
@[simp] theorem State.mapCore_ports (f : Core → Core) : (s.mapCore f).ports = s.ports := rfl
@[simp] theorem State.mapCore_layout (f : Core → Core) : (s.mapCore f).layout = s.layout := rfl
@[simp] theorem State.mapCore_fw (f : Core → Core) : (s.mapCore f).fw = s.fw := rfl
@[simp] theorem State.mapCore_secrets (f : Core → Core) : (s.mapCore f).secrets = s.secrets := rfl
@[simp] theorem State.mapCore_apertures (f : Core → Core) : (s.mapCore f).apertures = s.apertures := rfl
@[simp] theorem State.mapCore_handles (f : Core → Core) : (s.mapCore f).handles = s.handles := rfl
@[simp] theorem State.mapCore_unregistered (f : Core → Core) : (s.mapCore f).unregistered = s.unregistered := rfl
@[simp] theorem State.mapCore_inbound (f : Core → Core) : (s.mapCore f).inbound = s.inbound := rfl
@[simp] theorem State.mapCore_awaited (f : Core → Core) : (s.mapCore f).awaited = s.awaited := rfl
@[simp] theorem State.mapCore_nextWrite (f : Core → Core) : (s.mapCore f).nextWrite = s.nextWrite := rfl
@[simp] theorem State.mapCore_aer (f : Core → Core) : (s.mapCore f).aer = s.aer := rfl
@[simp] theorem State.mapCore_answer (f : Core → Core) : (s.mapCore f).answer = s.answer := rfl
@[simp] theorem State.mapCore_bursts (f : Core → Core) : (s.mapCore f).bursts = s.bursts := rfl
@[simp] theorem State.mapCore_dead (f : Core → Core) : (s.mapCore f).dead = s.dead := rfl
@[simp] theorem State.mapCore_pages (f : Core → Core) : (s.mapCore f).pages = s.pages := rfl
@[simp] theorem State.mapCore_repair (f : Core → Core) : (s.mapCore f).repair = s.repair := rfl
@[simp] theorem State.mapCore_reports (f : Core → Core) : (s.mapCore f).reports = s.reports := rfl
@[simp] theorem State.mapCore_dumps (f : Core → Core) : (s.mapCore f).dumps = s.dumps := rfl
@[simp] theorem State.mapCore_mask (f : Core → Core) : (s.mapCore f).mask = s.mask := rfl
@[simp] theorem State.mapCore_endpoint (f : Core → Core) : (s.mapCore f).endpoint = s.endpoint := rfl
@[simp] theorem State.mapCore_pkg (f : Core → Core) : (s.mapCore f).pkg = s.pkg := rfl
@[simp] theorem State.mapCore_kills (f : Core → Core) : (s.mapCore f).kills = s.kills := rfl
@[simp] theorem State.mapCore_spused (f : Core → Core) : (s.mapCore f).spused = s.spused := rfl
@[simp] theorem State.mapCore_pcdrop (f : Core → Core) : (s.mapCore f).pcdrop = s.pcdrop := rfl
@[simp] theorem State.mapCore_clock (f : Core → Core) : (s.mapCore f).clock = s.clock := rfl
@[simp] theorem State.mapCore_agenda (f : Core → Core) : (s.mapCore f).agenda = s.agenda := rfl
@[simp] theorem State.mapCore_freeCtr (f : Core → Core) : (s.mapCore f).freeCtr = s.freeCtr := rfl
@[simp] theorem State.mapCore_hold (f : Core → Core) : (s.mapCore f).hold = s.hold := rfl

@[simp] theorem State.putBytes_core (a : Nat) (bs : List Byte) : (s.putBytes a bs).core = s.core := rfl
@[simp] theorem State.putBytes_others (a : Nat) (bs : List Byte) : (s.putBytes a bs).others = s.others := rfl
@[simp] theorem State.putBytes_labels (a : Nat) (bs : List Byte) : (s.putBytes a bs).labels = s.labels := rfl
@[simp] theorem State.putBytes_tags (a : Nat) (bs : List Byte) : (s.putBytes a bs).tags = s.tags := rfl
@[simp] theorem State.putBytes_flights (a : Nat) (bs : List Byte) : (s.putBytes a bs).flights = s.flights := rfl
@[simp] theorem State.putBytes_signals (a : Nat) (bs : List Byte) : (s.putBytes a bs).signals = s.signals := rfl
@[simp] theorem State.putBytes_xflights (a : Nat) (bs : List Byte) : (s.putBytes a bs).xflights = s.xflights := rfl
@[simp] theorem State.putBytes_cardbuf (a : Nat) (bs : List Byte) : (s.putBytes a bs).cardbuf = s.cardbuf := rfl
@[simp] theorem State.putBytes_parts (a : Nat) (bs : List Byte) : (s.putBytes a bs).parts = s.parts := rfl
@[simp] theorem State.putBytes_remap (a : Nat) (bs : List Byte) : (s.putBytes a bs).remap = s.remap := rfl
@[simp] theorem State.putBytes_sweeps (a : Nat) (bs : List Byte) : (s.putBytes a bs).sweeps = s.sweeps := rfl
@[simp] theorem State.putBytes_sems (a : Nat) (bs : List Byte) : (s.putBytes a bs).sems = s.sems := rfl
@[simp] theorem State.putBytes_bars (a : Nat) (bs : List Byte) : (s.putBytes a bs).bars = s.bars := rfl
@[simp] theorem State.putBytes_armed (a : Nat) (bs : List Byte) : (s.putBytes a bs).armed = s.armed := rfl
@[simp] theorem State.putBytes_waits (a : Nat) (bs : List Byte) : (s.putBytes a bs).waits = s.waits := rfl
@[simp] theorem State.putBytes_posters (a : Nat) (bs : List Byte) : (s.putBytes a bs).posters = s.posters := rfl
@[simp] theorem State.putBytes_tiles (a : Nat) (bs : List Byte) : (s.putBytes a bs).tiles = s.tiles := rfl
@[simp] theorem State.putBytes_missq (a : Nat) (bs : List Byte) : (s.putBytes a bs).missq = s.missq := rfl
@[simp] theorem State.putBytes_missrr (a : Nat) (bs : List Byte) : (s.putBytes a bs).missrr = s.missrr := rfl
@[simp] theorem State.putBytes_inflight (a : Nat) (bs : List Byte) : (s.putBytes a bs).inflight = s.inflight := rfl
@[simp] theorem State.putBytes_queues (a : Nat) (bs : List Byte) : (s.putBytes a bs).queues = s.queues := rfl
@[simp] theorem State.putBytes_heldq (a : Nat) (bs : List Byte) : (s.putBytes a bs).heldq = s.heldq := rfl
@[simp] theorem State.putBytes_chains (a : Nat) (bs : List Byte) : (s.putBytes a bs).chains = s.chains := rfl
@[simp] theorem State.putBytes_dies (a : Nat) (bs : List Byte) : (s.putBytes a bs).dies = s.dies := rfl
@[simp] theorem State.putBytes_kernels (a : Nat) (bs : List Byte) : (s.putBytes a bs).kernels = s.kernels := rfl
@[simp] theorem State.putBytes_nextKernel (a : Nat) (bs : List Byte) : (s.putBytes a bs).nextKernel = s.nextKernel := rfl
@[simp] theorem State.putBytes_images (a : Nat) (bs : List Byte) : (s.putBytes a bs).images = s.images := rfl
@[simp] theorem State.putBytes_tileImages (a : Nat) (bs : List Byte) : (s.putBytes a bs).tileImages = s.tileImages := rfl
@[simp] theorem State.putBytes_ports (a : Nat) (bs : List Byte) : (s.putBytes a bs).ports = s.ports := rfl
@[simp] theorem State.putBytes_layout (a : Nat) (bs : List Byte) : (s.putBytes a bs).layout = s.layout := rfl
@[simp] theorem State.putBytes_fw (a : Nat) (bs : List Byte) : (s.putBytes a bs).fw = s.fw := rfl
@[simp] theorem State.putBytes_secrets (a : Nat) (bs : List Byte) : (s.putBytes a bs).secrets = s.secrets := rfl
@[simp] theorem State.putBytes_apertures (a : Nat) (bs : List Byte) : (s.putBytes a bs).apertures = s.apertures := rfl
@[simp] theorem State.putBytes_handles (a : Nat) (bs : List Byte) : (s.putBytes a bs).handles = s.handles := rfl
@[simp] theorem State.putBytes_unregistered (a : Nat) (bs : List Byte) : (s.putBytes a bs).unregistered = s.unregistered := rfl
@[simp] theorem State.putBytes_inbound (a : Nat) (bs : List Byte) : (s.putBytes a bs).inbound = s.inbound := rfl
@[simp] theorem State.putBytes_awaited (a : Nat) (bs : List Byte) : (s.putBytes a bs).awaited = s.awaited := rfl
@[simp] theorem State.putBytes_nextWrite (a : Nat) (bs : List Byte) : (s.putBytes a bs).nextWrite = s.nextWrite := rfl
@[simp] theorem State.putBytes_aer (a : Nat) (bs : List Byte) : (s.putBytes a bs).aer = s.aer := rfl
@[simp] theorem State.putBytes_answer (a : Nat) (bs : List Byte) : (s.putBytes a bs).answer = s.answer := rfl
@[simp] theorem State.putBytes_bursts (a : Nat) (bs : List Byte) : (s.putBytes a bs).bursts = s.bursts := rfl
@[simp] theorem State.putBytes_dead (a : Nat) (bs : List Byte) : (s.putBytes a bs).dead = s.dead := rfl
@[simp] theorem State.putBytes_pages (a : Nat) (bs : List Byte) : (s.putBytes a bs).pages = s.pages := rfl
@[simp] theorem State.putBytes_repair (a : Nat) (bs : List Byte) : (s.putBytes a bs).repair = s.repair := rfl
@[simp] theorem State.putBytes_reports (a : Nat) (bs : List Byte) : (s.putBytes a bs).reports = s.reports := rfl
@[simp] theorem State.putBytes_dumps (a : Nat) (bs : List Byte) : (s.putBytes a bs).dumps = s.dumps := rfl
@[simp] theorem State.putBytes_mask (a : Nat) (bs : List Byte) : (s.putBytes a bs).mask = s.mask := rfl
@[simp] theorem State.putBytes_endpoint (a : Nat) (bs : List Byte) : (s.putBytes a bs).endpoint = s.endpoint := rfl
@[simp] theorem State.putBytes_pkg (a : Nat) (bs : List Byte) : (s.putBytes a bs).pkg = s.pkg := rfl
@[simp] theorem State.putBytes_kills (a : Nat) (bs : List Byte) : (s.putBytes a bs).kills = s.kills := rfl
@[simp] theorem State.putBytes_spused (a : Nat) (bs : List Byte) : (s.putBytes a bs).spused = s.spused := rfl
@[simp] theorem State.putBytes_pcdrop (a : Nat) (bs : List Byte) : (s.putBytes a bs).pcdrop = s.pcdrop := rfl
@[simp] theorem State.putBytes_clock (a : Nat) (bs : List Byte) : (s.putBytes a bs).clock = s.clock := rfl
@[simp] theorem State.putBytes_agenda (a : Nat) (bs : List Byte) : (s.putBytes a bs).agenda = s.agenda := rfl
@[simp] theorem State.putBytes_freeCtr (a : Nat) (bs : List Byte) : (s.putBytes a bs).freeCtr = s.freeCtr := rfl
@[simp] theorem State.putBytes_hold (a : Nat) (bs : List Byte) : (s.putBytes a bs).hold = s.hold := rfl

@[simp] theorem State.raiseLabel_core (a n : Nat) (l : Label) : (s.raiseLabel a n l).core = s.core := rfl
@[simp] theorem State.raiseLabel_others (a n : Nat) (l : Label) : (s.raiseLabel a n l).others = s.others := rfl
@[simp] theorem State.raiseLabel_mem (a n : Nat) (l : Label) : (s.raiseLabel a n l).mem = s.mem := rfl
@[simp] theorem State.raiseLabel_tags (a n : Nat) (l : Label) : (s.raiseLabel a n l).tags = s.tags := rfl
@[simp] theorem State.raiseLabel_flights (a n : Nat) (l : Label) : (s.raiseLabel a n l).flights = s.flights := rfl
@[simp] theorem State.raiseLabel_signals (a n : Nat) (l : Label) : (s.raiseLabel a n l).signals = s.signals := rfl
@[simp] theorem State.raiseLabel_xflights (a n : Nat) (l : Label) : (s.raiseLabel a n l).xflights = s.xflights := rfl
@[simp] theorem State.raiseLabel_cardbuf (a n : Nat) (l : Label) : (s.raiseLabel a n l).cardbuf = s.cardbuf := rfl
@[simp] theorem State.raiseLabel_parts (a n : Nat) (l : Label) : (s.raiseLabel a n l).parts = s.parts := rfl
@[simp] theorem State.raiseLabel_remap (a n : Nat) (l : Label) : (s.raiseLabel a n l).remap = s.remap := rfl
@[simp] theorem State.raiseLabel_sweeps (a n : Nat) (l : Label) : (s.raiseLabel a n l).sweeps = s.sweeps := rfl
@[simp] theorem State.raiseLabel_sems (a n : Nat) (l : Label) : (s.raiseLabel a n l).sems = s.sems := rfl
@[simp] theorem State.raiseLabel_bars (a n : Nat) (l : Label) : (s.raiseLabel a n l).bars = s.bars := rfl
@[simp] theorem State.raiseLabel_armed (a n : Nat) (l : Label) : (s.raiseLabel a n l).armed = s.armed := rfl
@[simp] theorem State.raiseLabel_waits (a n : Nat) (l : Label) : (s.raiseLabel a n l).waits = s.waits := rfl
@[simp] theorem State.raiseLabel_posters (a n : Nat) (l : Label) : (s.raiseLabel a n l).posters = s.posters := rfl
@[simp] theorem State.raiseLabel_tiles (a n : Nat) (l : Label) : (s.raiseLabel a n l).tiles = s.tiles := rfl
@[simp] theorem State.raiseLabel_missq (a n : Nat) (l : Label) : (s.raiseLabel a n l).missq = s.missq := rfl
@[simp] theorem State.raiseLabel_missrr (a n : Nat) (l : Label) : (s.raiseLabel a n l).missrr = s.missrr := rfl
@[simp] theorem State.raiseLabel_inflight (a n : Nat) (l : Label) : (s.raiseLabel a n l).inflight = s.inflight := rfl
@[simp] theorem State.raiseLabel_queues (a n : Nat) (l : Label) : (s.raiseLabel a n l).queues = s.queues := rfl
@[simp] theorem State.raiseLabel_heldq (a n : Nat) (l : Label) : (s.raiseLabel a n l).heldq = s.heldq := rfl
@[simp] theorem State.raiseLabel_chains (a n : Nat) (l : Label) : (s.raiseLabel a n l).chains = s.chains := rfl
@[simp] theorem State.raiseLabel_dies (a n : Nat) (l : Label) : (s.raiseLabel a n l).dies = s.dies := rfl
@[simp] theorem State.raiseLabel_kernels (a n : Nat) (l : Label) : (s.raiseLabel a n l).kernels = s.kernels := rfl
@[simp] theorem State.raiseLabel_nextKernel (a n : Nat) (l : Label) : (s.raiseLabel a n l).nextKernel = s.nextKernel := rfl
@[simp] theorem State.raiseLabel_images (a n : Nat) (l : Label) : (s.raiseLabel a n l).images = s.images := rfl
@[simp] theorem State.raiseLabel_tileImages (a n : Nat) (l : Label) : (s.raiseLabel a n l).tileImages = s.tileImages := rfl
@[simp] theorem State.raiseLabel_ports (a n : Nat) (l : Label) : (s.raiseLabel a n l).ports = s.ports := rfl
@[simp] theorem State.raiseLabel_layout (a n : Nat) (l : Label) : (s.raiseLabel a n l).layout = s.layout := rfl
@[simp] theorem State.raiseLabel_fw (a n : Nat) (l : Label) : (s.raiseLabel a n l).fw = s.fw := rfl
@[simp] theorem State.raiseLabel_secrets (a n : Nat) (l : Label) : (s.raiseLabel a n l).secrets = s.secrets := rfl
@[simp] theorem State.raiseLabel_apertures (a n : Nat) (l : Label) : (s.raiseLabel a n l).apertures = s.apertures := rfl
@[simp] theorem State.raiseLabel_handles (a n : Nat) (l : Label) : (s.raiseLabel a n l).handles = s.handles := rfl
@[simp] theorem State.raiseLabel_unregistered (a n : Nat) (l : Label) : (s.raiseLabel a n l).unregistered = s.unregistered := rfl
@[simp] theorem State.raiseLabel_inbound (a n : Nat) (l : Label) : (s.raiseLabel a n l).inbound = s.inbound := rfl
@[simp] theorem State.raiseLabel_awaited (a n : Nat) (l : Label) : (s.raiseLabel a n l).awaited = s.awaited := rfl
@[simp] theorem State.raiseLabel_nextWrite (a n : Nat) (l : Label) : (s.raiseLabel a n l).nextWrite = s.nextWrite := rfl
@[simp] theorem State.raiseLabel_aer (a n : Nat) (l : Label) : (s.raiseLabel a n l).aer = s.aer := rfl
@[simp] theorem State.raiseLabel_answer (a n : Nat) (l : Label) : (s.raiseLabel a n l).answer = s.answer := rfl
@[simp] theorem State.raiseLabel_bursts (a n : Nat) (l : Label) : (s.raiseLabel a n l).bursts = s.bursts := rfl
@[simp] theorem State.raiseLabel_dead (a n : Nat) (l : Label) : (s.raiseLabel a n l).dead = s.dead := rfl
@[simp] theorem State.raiseLabel_pages (a n : Nat) (l : Label) : (s.raiseLabel a n l).pages = s.pages := rfl
@[simp] theorem State.raiseLabel_repair (a n : Nat) (l : Label) : (s.raiseLabel a n l).repair = s.repair := rfl
@[simp] theorem State.raiseLabel_reports (a n : Nat) (l : Label) : (s.raiseLabel a n l).reports = s.reports := rfl
@[simp] theorem State.raiseLabel_dumps (a n : Nat) (l : Label) : (s.raiseLabel a n l).dumps = s.dumps := rfl
@[simp] theorem State.raiseLabel_mask (a n : Nat) (l : Label) : (s.raiseLabel a n l).mask = s.mask := rfl
@[simp] theorem State.raiseLabel_endpoint (a n : Nat) (l : Label) : (s.raiseLabel a n l).endpoint = s.endpoint := rfl
@[simp] theorem State.raiseLabel_pkg (a n : Nat) (l : Label) : (s.raiseLabel a n l).pkg = s.pkg := rfl
@[simp] theorem State.raiseLabel_kills (a n : Nat) (l : Label) : (s.raiseLabel a n l).kills = s.kills := rfl
@[simp] theorem State.raiseLabel_spused (a n : Nat) (l : Label) : (s.raiseLabel a n l).spused = s.spused := rfl
@[simp] theorem State.raiseLabel_pcdrop (a n : Nat) (l : Label) : (s.raiseLabel a n l).pcdrop = s.pcdrop := rfl
@[simp] theorem State.raiseLabel_clock (a n : Nat) (l : Label) : (s.raiseLabel a n l).clock = s.clock := rfl
@[simp] theorem State.raiseLabel_agenda (a n : Nat) (l : Label) : (s.raiseLabel a n l).agenda = s.agenda := rfl
@[simp] theorem State.raiseLabel_freeCtr (a n : Nat) (l : Label) : (s.raiseLabel a n l).freeCtr = s.freeCtr := rfl
@[simp] theorem State.raiseLabel_hold (a n : Nat) (l : Label) : (s.raiseLabel a n l).hold = s.hold := rfl

@[simp] theorem State.clearTags_core (a n : Nat) : (s.clearTags a n).core = s.core := rfl
@[simp] theorem State.clearTags_others (a n : Nat) : (s.clearTags a n).others = s.others := rfl
@[simp] theorem State.clearTags_mem (a n : Nat) : (s.clearTags a n).mem = s.mem := rfl
@[simp] theorem State.clearTags_labels (a n : Nat) : (s.clearTags a n).labels = s.labels := rfl
@[simp] theorem State.clearTags_flights (a n : Nat) : (s.clearTags a n).flights = s.flights := rfl
@[simp] theorem State.clearTags_signals (a n : Nat) : (s.clearTags a n).signals = s.signals := rfl
@[simp] theorem State.clearTags_xflights (a n : Nat) : (s.clearTags a n).xflights = s.xflights := rfl
@[simp] theorem State.clearTags_cardbuf (a n : Nat) : (s.clearTags a n).cardbuf = s.cardbuf := rfl
@[simp] theorem State.clearTags_parts (a n : Nat) : (s.clearTags a n).parts = s.parts := rfl
@[simp] theorem State.clearTags_remap (a n : Nat) : (s.clearTags a n).remap = s.remap := rfl
@[simp] theorem State.clearTags_sweeps (a n : Nat) : (s.clearTags a n).sweeps = s.sweeps := rfl
@[simp] theorem State.clearTags_sems (a n : Nat) : (s.clearTags a n).sems = s.sems := rfl
@[simp] theorem State.clearTags_bars (a n : Nat) : (s.clearTags a n).bars = s.bars := rfl
@[simp] theorem State.clearTags_armed (a n : Nat) : (s.clearTags a n).armed = s.armed := rfl
@[simp] theorem State.clearTags_waits (a n : Nat) : (s.clearTags a n).waits = s.waits := rfl
@[simp] theorem State.clearTags_posters (a n : Nat) : (s.clearTags a n).posters = s.posters := rfl
@[simp] theorem State.clearTags_tiles (a n : Nat) : (s.clearTags a n).tiles = s.tiles := rfl
@[simp] theorem State.clearTags_missq (a n : Nat) : (s.clearTags a n).missq = s.missq := rfl
@[simp] theorem State.clearTags_missrr (a n : Nat) : (s.clearTags a n).missrr = s.missrr := rfl
@[simp] theorem State.clearTags_inflight (a n : Nat) : (s.clearTags a n).inflight = s.inflight := rfl
@[simp] theorem State.clearTags_queues (a n : Nat) : (s.clearTags a n).queues = s.queues := rfl
@[simp] theorem State.clearTags_heldq (a n : Nat) : (s.clearTags a n).heldq = s.heldq := rfl
@[simp] theorem State.clearTags_chains (a n : Nat) : (s.clearTags a n).chains = s.chains := rfl
@[simp] theorem State.clearTags_dies (a n : Nat) : (s.clearTags a n).dies = s.dies := rfl
@[simp] theorem State.clearTags_kernels (a n : Nat) : (s.clearTags a n).kernels = s.kernels := rfl
@[simp] theorem State.clearTags_nextKernel (a n : Nat) : (s.clearTags a n).nextKernel = s.nextKernel := rfl
@[simp] theorem State.clearTags_images (a n : Nat) : (s.clearTags a n).images = s.images := rfl
@[simp] theorem State.clearTags_tileImages (a n : Nat) : (s.clearTags a n).tileImages = s.tileImages := rfl
@[simp] theorem State.clearTags_ports (a n : Nat) : (s.clearTags a n).ports = s.ports := rfl
@[simp] theorem State.clearTags_layout (a n : Nat) : (s.clearTags a n).layout = s.layout := rfl
@[simp] theorem State.clearTags_fw (a n : Nat) : (s.clearTags a n).fw = s.fw := rfl
@[simp] theorem State.clearTags_secrets (a n : Nat) : (s.clearTags a n).secrets = s.secrets := rfl
@[simp] theorem State.clearTags_apertures (a n : Nat) : (s.clearTags a n).apertures = s.apertures := rfl
@[simp] theorem State.clearTags_handles (a n : Nat) : (s.clearTags a n).handles = s.handles := rfl
@[simp] theorem State.clearTags_unregistered (a n : Nat) : (s.clearTags a n).unregistered = s.unregistered := rfl
@[simp] theorem State.clearTags_inbound (a n : Nat) : (s.clearTags a n).inbound = s.inbound := rfl
@[simp] theorem State.clearTags_awaited (a n : Nat) : (s.clearTags a n).awaited = s.awaited := rfl
@[simp] theorem State.clearTags_nextWrite (a n : Nat) : (s.clearTags a n).nextWrite = s.nextWrite := rfl
@[simp] theorem State.clearTags_aer (a n : Nat) : (s.clearTags a n).aer = s.aer := rfl
@[simp] theorem State.clearTags_answer (a n : Nat) : (s.clearTags a n).answer = s.answer := rfl
@[simp] theorem State.clearTags_bursts (a n : Nat) : (s.clearTags a n).bursts = s.bursts := rfl
@[simp] theorem State.clearTags_dead (a n : Nat) : (s.clearTags a n).dead = s.dead := rfl
@[simp] theorem State.clearTags_pages (a n : Nat) : (s.clearTags a n).pages = s.pages := rfl
@[simp] theorem State.clearTags_repair (a n : Nat) : (s.clearTags a n).repair = s.repair := rfl
@[simp] theorem State.clearTags_reports (a n : Nat) : (s.clearTags a n).reports = s.reports := rfl
@[simp] theorem State.clearTags_dumps (a n : Nat) : (s.clearTags a n).dumps = s.dumps := rfl
@[simp] theorem State.clearTags_mask (a n : Nat) : (s.clearTags a n).mask = s.mask := rfl
@[simp] theorem State.clearTags_endpoint (a n : Nat) : (s.clearTags a n).endpoint = s.endpoint := rfl
@[simp] theorem State.clearTags_pkg (a n : Nat) : (s.clearTags a n).pkg = s.pkg := rfl
@[simp] theorem State.clearTags_kills (a n : Nat) : (s.clearTags a n).kills = s.kills := rfl
@[simp] theorem State.clearTags_spused (a n : Nat) : (s.clearTags a n).spused = s.spused := rfl
@[simp] theorem State.clearTags_pcdrop (a n : Nat) : (s.clearTags a n).pcdrop = s.pcdrop := rfl
@[simp] theorem State.clearTags_clock (a n : Nat) : (s.clearTags a n).clock = s.clock := rfl
@[simp] theorem State.clearTags_agenda (a n : Nat) : (s.clearTags a n).agenda = s.agenda := rfl
@[simp] theorem State.clearTags_freeCtr (a n : Nat) : (s.clearTags a n).freeCtr = s.freeCtr := rfl
@[simp] theorem State.clearTags_hold (a n : Nat) : (s.clearTags a n).hold = s.hold := rfl

@[simp] theorem State.setLabels_core (a n : Nat) (l : Label) : (s.setLabels a n l).core = s.core := rfl
@[simp] theorem State.setLabels_others (a n : Nat) (l : Label) : (s.setLabels a n l).others = s.others := rfl
@[simp] theorem State.setLabels_mem (a n : Nat) (l : Label) : (s.setLabels a n l).mem = s.mem := rfl
@[simp] theorem State.setLabels_tags (a n : Nat) (l : Label) : (s.setLabels a n l).tags = s.tags := rfl
@[simp] theorem State.setLabels_flights (a n : Nat) (l : Label) : (s.setLabels a n l).flights = s.flights := rfl
@[simp] theorem State.setLabels_signals (a n : Nat) (l : Label) : (s.setLabels a n l).signals = s.signals := rfl
@[simp] theorem State.setLabels_xflights (a n : Nat) (l : Label) : (s.setLabels a n l).xflights = s.xflights := rfl
@[simp] theorem State.setLabels_cardbuf (a n : Nat) (l : Label) : (s.setLabels a n l).cardbuf = s.cardbuf := rfl
@[simp] theorem State.setLabels_parts (a n : Nat) (l : Label) : (s.setLabels a n l).parts = s.parts := rfl
@[simp] theorem State.setLabels_remap (a n : Nat) (l : Label) : (s.setLabels a n l).remap = s.remap := rfl
@[simp] theorem State.setLabels_sweeps (a n : Nat) (l : Label) : (s.setLabels a n l).sweeps = s.sweeps := rfl
@[simp] theorem State.setLabels_sems (a n : Nat) (l : Label) : (s.setLabels a n l).sems = s.sems := rfl
@[simp] theorem State.setLabels_bars (a n : Nat) (l : Label) : (s.setLabels a n l).bars = s.bars := rfl
@[simp] theorem State.setLabels_armed (a n : Nat) (l : Label) : (s.setLabels a n l).armed = s.armed := rfl
@[simp] theorem State.setLabels_waits (a n : Nat) (l : Label) : (s.setLabels a n l).waits = s.waits := rfl
@[simp] theorem State.setLabels_posters (a n : Nat) (l : Label) : (s.setLabels a n l).posters = s.posters := rfl
@[simp] theorem State.setLabels_tiles (a n : Nat) (l : Label) : (s.setLabels a n l).tiles = s.tiles := rfl
@[simp] theorem State.setLabels_missq (a n : Nat) (l : Label) : (s.setLabels a n l).missq = s.missq := rfl
@[simp] theorem State.setLabels_missrr (a n : Nat) (l : Label) : (s.setLabels a n l).missrr = s.missrr := rfl
@[simp] theorem State.setLabels_inflight (a n : Nat) (l : Label) : (s.setLabels a n l).inflight = s.inflight := rfl
@[simp] theorem State.setLabels_queues (a n : Nat) (l : Label) : (s.setLabels a n l).queues = s.queues := rfl
@[simp] theorem State.setLabels_heldq (a n : Nat) (l : Label) : (s.setLabels a n l).heldq = s.heldq := rfl
@[simp] theorem State.setLabels_chains (a n : Nat) (l : Label) : (s.setLabels a n l).chains = s.chains := rfl
@[simp] theorem State.setLabels_dies (a n : Nat) (l : Label) : (s.setLabels a n l).dies = s.dies := rfl
@[simp] theorem State.setLabels_kernels (a n : Nat) (l : Label) : (s.setLabels a n l).kernels = s.kernels := rfl
@[simp] theorem State.setLabels_nextKernel (a n : Nat) (l : Label) : (s.setLabels a n l).nextKernel = s.nextKernel := rfl
@[simp] theorem State.setLabels_images (a n : Nat) (l : Label) : (s.setLabels a n l).images = s.images := rfl
@[simp] theorem State.setLabels_tileImages (a n : Nat) (l : Label) : (s.setLabels a n l).tileImages = s.tileImages := rfl
@[simp] theorem State.setLabels_ports (a n : Nat) (l : Label) : (s.setLabels a n l).ports = s.ports := rfl
@[simp] theorem State.setLabels_layout (a n : Nat) (l : Label) : (s.setLabels a n l).layout = s.layout := rfl
@[simp] theorem State.setLabels_fw (a n : Nat) (l : Label) : (s.setLabels a n l).fw = s.fw := rfl
@[simp] theorem State.setLabels_secrets (a n : Nat) (l : Label) : (s.setLabels a n l).secrets = s.secrets := rfl
@[simp] theorem State.setLabels_apertures (a n : Nat) (l : Label) : (s.setLabels a n l).apertures = s.apertures := rfl
@[simp] theorem State.setLabels_handles (a n : Nat) (l : Label) : (s.setLabels a n l).handles = s.handles := rfl
@[simp] theorem State.setLabels_unregistered (a n : Nat) (l : Label) : (s.setLabels a n l).unregistered = s.unregistered := rfl
@[simp] theorem State.setLabels_inbound (a n : Nat) (l : Label) : (s.setLabels a n l).inbound = s.inbound := rfl
@[simp] theorem State.setLabels_awaited (a n : Nat) (l : Label) : (s.setLabels a n l).awaited = s.awaited := rfl
@[simp] theorem State.setLabels_nextWrite (a n : Nat) (l : Label) : (s.setLabels a n l).nextWrite = s.nextWrite := rfl
@[simp] theorem State.setLabels_aer (a n : Nat) (l : Label) : (s.setLabels a n l).aer = s.aer := rfl
@[simp] theorem State.setLabels_answer (a n : Nat) (l : Label) : (s.setLabels a n l).answer = s.answer := rfl
@[simp] theorem State.setLabels_bursts (a n : Nat) (l : Label) : (s.setLabels a n l).bursts = s.bursts := rfl
@[simp] theorem State.setLabels_dead (a n : Nat) (l : Label) : (s.setLabels a n l).dead = s.dead := rfl
@[simp] theorem State.setLabels_pages (a n : Nat) (l : Label) : (s.setLabels a n l).pages = s.pages := rfl
@[simp] theorem State.setLabels_repair (a n : Nat) (l : Label) : (s.setLabels a n l).repair = s.repair := rfl
@[simp] theorem State.setLabels_reports (a n : Nat) (l : Label) : (s.setLabels a n l).reports = s.reports := rfl
@[simp] theorem State.setLabels_dumps (a n : Nat) (l : Label) : (s.setLabels a n l).dumps = s.dumps := rfl
@[simp] theorem State.setLabels_mask (a n : Nat) (l : Label) : (s.setLabels a n l).mask = s.mask := rfl
@[simp] theorem State.setLabels_endpoint (a n : Nat) (l : Label) : (s.setLabels a n l).endpoint = s.endpoint := rfl
@[simp] theorem State.setLabels_pkg (a n : Nat) (l : Label) : (s.setLabels a n l).pkg = s.pkg := rfl
@[simp] theorem State.setLabels_kills (a n : Nat) (l : Label) : (s.setLabels a n l).kills = s.kills := rfl
@[simp] theorem State.setLabels_spused (a n : Nat) (l : Label) : (s.setLabels a n l).spused = s.spused := rfl
@[simp] theorem State.setLabels_pcdrop (a n : Nat) (l : Label) : (s.setLabels a n l).pcdrop = s.pcdrop := rfl
@[simp] theorem State.setLabels_clock (a n : Nat) (l : Label) : (s.setLabels a n l).clock = s.clock := rfl
@[simp] theorem State.setLabels_agenda (a n : Nat) (l : Label) : (s.setLabels a n l).agenda = s.agenda := rfl
@[simp] theorem State.setLabels_freeCtr (a n : Nat) (l : Label) : (s.setLabels a n l).freeCtr = s.freeCtr := rfl
@[simp] theorem State.setLabels_hold (a n : Nat) (l : Label) : (s.setLabels a n l).hold = s.hold := rfl

@[simp] theorem State.store_core (a : Nat) (bs : List Byte) (l : Label) : (s.store a bs l).core = s.core := rfl
@[simp] theorem State.store_others (a : Nat) (bs : List Byte) (l : Label) : (s.store a bs l).others = s.others := rfl
@[simp] theorem State.store_flights (a : Nat) (bs : List Byte) (l : Label) : (s.store a bs l).flights = s.flights := rfl
@[simp] theorem State.store_signals (a : Nat) (bs : List Byte) (l : Label) : (s.store a bs l).signals = s.signals := rfl
@[simp] theorem State.store_xflights (a : Nat) (bs : List Byte) (l : Label) : (s.store a bs l).xflights = s.xflights := rfl
@[simp] theorem State.store_cardbuf (a : Nat) (bs : List Byte) (l : Label) : (s.store a bs l).cardbuf = s.cardbuf := rfl
@[simp] theorem State.store_parts (a : Nat) (bs : List Byte) (l : Label) : (s.store a bs l).parts = s.parts := rfl
@[simp] theorem State.store_remap (a : Nat) (bs : List Byte) (l : Label) : (s.store a bs l).remap = s.remap := rfl
@[simp] theorem State.store_sweeps (a : Nat) (bs : List Byte) (l : Label) : (s.store a bs l).sweeps = s.sweeps := rfl
@[simp] theorem State.store_sems (a : Nat) (bs : List Byte) (l : Label) : (s.store a bs l).sems = s.sems := rfl
@[simp] theorem State.store_bars (a : Nat) (bs : List Byte) (l : Label) : (s.store a bs l).bars = s.bars := rfl
@[simp] theorem State.store_armed (a : Nat) (bs : List Byte) (l : Label) : (s.store a bs l).armed = s.armed := rfl
@[simp] theorem State.store_waits (a : Nat) (bs : List Byte) (l : Label) : (s.store a bs l).waits = s.waits := rfl
@[simp] theorem State.store_posters (a : Nat) (bs : List Byte) (l : Label) : (s.store a bs l).posters = s.posters := rfl
@[simp] theorem State.store_tiles (a : Nat) (bs : List Byte) (l : Label) : (s.store a bs l).tiles = s.tiles := rfl
@[simp] theorem State.store_missq (a : Nat) (bs : List Byte) (l : Label) : (s.store a bs l).missq = s.missq := rfl
@[simp] theorem State.store_missrr (a : Nat) (bs : List Byte) (l : Label) : (s.store a bs l).missrr = s.missrr := rfl
@[simp] theorem State.store_inflight (a : Nat) (bs : List Byte) (l : Label) : (s.store a bs l).inflight = s.inflight := rfl
@[simp] theorem State.store_queues (a : Nat) (bs : List Byte) (l : Label) : (s.store a bs l).queues = s.queues := rfl
@[simp] theorem State.store_heldq (a : Nat) (bs : List Byte) (l : Label) : (s.store a bs l).heldq = s.heldq := rfl
@[simp] theorem State.store_chains (a : Nat) (bs : List Byte) (l : Label) : (s.store a bs l).chains = s.chains := rfl
@[simp] theorem State.store_dies (a : Nat) (bs : List Byte) (l : Label) : (s.store a bs l).dies = s.dies := rfl
@[simp] theorem State.store_kernels (a : Nat) (bs : List Byte) (l : Label) : (s.store a bs l).kernels = s.kernels := rfl
@[simp] theorem State.store_nextKernel (a : Nat) (bs : List Byte) (l : Label) : (s.store a bs l).nextKernel = s.nextKernel := rfl
@[simp] theorem State.store_images (a : Nat) (bs : List Byte) (l : Label) : (s.store a bs l).images = s.images := rfl
@[simp] theorem State.store_tileImages (a : Nat) (bs : List Byte) (l : Label) : (s.store a bs l).tileImages = s.tileImages := rfl
@[simp] theorem State.store_ports (a : Nat) (bs : List Byte) (l : Label) : (s.store a bs l).ports = s.ports := rfl
@[simp] theorem State.store_layout (a : Nat) (bs : List Byte) (l : Label) : (s.store a bs l).layout = s.layout := rfl
@[simp] theorem State.store_fw (a : Nat) (bs : List Byte) (l : Label) : (s.store a bs l).fw = s.fw := rfl
@[simp] theorem State.store_secrets (a : Nat) (bs : List Byte) (l : Label) : (s.store a bs l).secrets = s.secrets := rfl
@[simp] theorem State.store_apertures (a : Nat) (bs : List Byte) (l : Label) : (s.store a bs l).apertures = s.apertures := rfl
@[simp] theorem State.store_handles (a : Nat) (bs : List Byte) (l : Label) : (s.store a bs l).handles = s.handles := rfl
@[simp] theorem State.store_unregistered (a : Nat) (bs : List Byte) (l : Label) : (s.store a bs l).unregistered = s.unregistered := rfl
@[simp] theorem State.store_inbound (a : Nat) (bs : List Byte) (l : Label) : (s.store a bs l).inbound = s.inbound := rfl
@[simp] theorem State.store_awaited (a : Nat) (bs : List Byte) (l : Label) : (s.store a bs l).awaited = s.awaited := rfl
@[simp] theorem State.store_nextWrite (a : Nat) (bs : List Byte) (l : Label) : (s.store a bs l).nextWrite = s.nextWrite := rfl
@[simp] theorem State.store_aer (a : Nat) (bs : List Byte) (l : Label) : (s.store a bs l).aer = s.aer := rfl
@[simp] theorem State.store_answer (a : Nat) (bs : List Byte) (l : Label) : (s.store a bs l).answer = s.answer := rfl
@[simp] theorem State.store_bursts (a : Nat) (bs : List Byte) (l : Label) : (s.store a bs l).bursts = s.bursts := rfl
@[simp] theorem State.store_dead (a : Nat) (bs : List Byte) (l : Label) : (s.store a bs l).dead = s.dead := rfl
@[simp] theorem State.store_pages (a : Nat) (bs : List Byte) (l : Label) : (s.store a bs l).pages = s.pages := rfl
@[simp] theorem State.store_repair (a : Nat) (bs : List Byte) (l : Label) : (s.store a bs l).repair = s.repair := rfl
@[simp] theorem State.store_reports (a : Nat) (bs : List Byte) (l : Label) : (s.store a bs l).reports = s.reports := rfl
@[simp] theorem State.store_dumps (a : Nat) (bs : List Byte) (l : Label) : (s.store a bs l).dumps = s.dumps := rfl
@[simp] theorem State.store_mask (a : Nat) (bs : List Byte) (l : Label) : (s.store a bs l).mask = s.mask := rfl
@[simp] theorem State.store_endpoint (a : Nat) (bs : List Byte) (l : Label) : (s.store a bs l).endpoint = s.endpoint := rfl
@[simp] theorem State.store_pkg (a : Nat) (bs : List Byte) (l : Label) : (s.store a bs l).pkg = s.pkg := rfl
@[simp] theorem State.store_kills (a : Nat) (bs : List Byte) (l : Label) : (s.store a bs l).kills = s.kills := rfl
@[simp] theorem State.store_spused (a : Nat) (bs : List Byte) (l : Label) : (s.store a bs l).spused = s.spused := rfl
@[simp] theorem State.store_pcdrop (a : Nat) (bs : List Byte) (l : Label) : (s.store a bs l).pcdrop = s.pcdrop := rfl
@[simp] theorem State.store_clock (a : Nat) (bs : List Byte) (l : Label) : (s.store a bs l).clock = s.clock := rfl
@[simp] theorem State.store_agenda (a : Nat) (bs : List Byte) (l : Label) : (s.store a bs l).agenda = s.agenda := rfl
@[simp] theorem State.store_freeCtr (a : Nat) (bs : List Byte) (l : Label) : (s.store a bs l).freeCtr = s.freeCtr := rfl
@[simp] theorem State.store_hold (a : Nat) (bs : List Byte) (l : Label) : (s.store a bs l).hold = s.hold := rfl

@[simp] theorem State.putGranule_core (a : Nat) (k : Cap) (l : Label) : (s.putGranule a k l).core = s.core := rfl
@[simp] theorem State.putGranule_others (a : Nat) (k : Cap) (l : Label) : (s.putGranule a k l).others = s.others := rfl
@[simp] theorem State.putGranule_flights (a : Nat) (k : Cap) (l : Label) : (s.putGranule a k l).flights = s.flights := rfl
@[simp] theorem State.putGranule_signals (a : Nat) (k : Cap) (l : Label) : (s.putGranule a k l).signals = s.signals := rfl
@[simp] theorem State.putGranule_xflights (a : Nat) (k : Cap) (l : Label) : (s.putGranule a k l).xflights = s.xflights := rfl
@[simp] theorem State.putGranule_cardbuf (a : Nat) (k : Cap) (l : Label) : (s.putGranule a k l).cardbuf = s.cardbuf := rfl
@[simp] theorem State.putGranule_parts (a : Nat) (k : Cap) (l : Label) : (s.putGranule a k l).parts = s.parts := rfl
@[simp] theorem State.putGranule_remap (a : Nat) (k : Cap) (l : Label) : (s.putGranule a k l).remap = s.remap := rfl
@[simp] theorem State.putGranule_sweeps (a : Nat) (k : Cap) (l : Label) : (s.putGranule a k l).sweeps = s.sweeps := rfl
@[simp] theorem State.putGranule_sems (a : Nat) (k : Cap) (l : Label) : (s.putGranule a k l).sems = s.sems := rfl
@[simp] theorem State.putGranule_bars (a : Nat) (k : Cap) (l : Label) : (s.putGranule a k l).bars = s.bars := rfl
@[simp] theorem State.putGranule_armed (a : Nat) (k : Cap) (l : Label) : (s.putGranule a k l).armed = s.armed := rfl
@[simp] theorem State.putGranule_waits (a : Nat) (k : Cap) (l : Label) : (s.putGranule a k l).waits = s.waits := rfl
@[simp] theorem State.putGranule_posters (a : Nat) (k : Cap) (l : Label) : (s.putGranule a k l).posters = s.posters := rfl
@[simp] theorem State.putGranule_tiles (a : Nat) (k : Cap) (l : Label) : (s.putGranule a k l).tiles = s.tiles := rfl
@[simp] theorem State.putGranule_missq (a : Nat) (k : Cap) (l : Label) : (s.putGranule a k l).missq = s.missq := rfl
@[simp] theorem State.putGranule_missrr (a : Nat) (k : Cap) (l : Label) : (s.putGranule a k l).missrr = s.missrr := rfl
@[simp] theorem State.putGranule_inflight (a : Nat) (k : Cap) (l : Label) : (s.putGranule a k l).inflight = s.inflight := rfl
@[simp] theorem State.putGranule_queues (a : Nat) (k : Cap) (l : Label) : (s.putGranule a k l).queues = s.queues := rfl
@[simp] theorem State.putGranule_heldq (a : Nat) (k : Cap) (l : Label) : (s.putGranule a k l).heldq = s.heldq := rfl
@[simp] theorem State.putGranule_chains (a : Nat) (k : Cap) (l : Label) : (s.putGranule a k l).chains = s.chains := rfl
@[simp] theorem State.putGranule_dies (a : Nat) (k : Cap) (l : Label) : (s.putGranule a k l).dies = s.dies := rfl
@[simp] theorem State.putGranule_kernels (a : Nat) (k : Cap) (l : Label) : (s.putGranule a k l).kernels = s.kernels := rfl
@[simp] theorem State.putGranule_nextKernel (a : Nat) (k : Cap) (l : Label) : (s.putGranule a k l).nextKernel = s.nextKernel := rfl
@[simp] theorem State.putGranule_images (a : Nat) (k : Cap) (l : Label) : (s.putGranule a k l).images = s.images := rfl
@[simp] theorem State.putGranule_tileImages (a : Nat) (k : Cap) (l : Label) : (s.putGranule a k l).tileImages = s.tileImages := rfl
@[simp] theorem State.putGranule_ports (a : Nat) (k : Cap) (l : Label) : (s.putGranule a k l).ports = s.ports := rfl
@[simp] theorem State.putGranule_layout (a : Nat) (k : Cap) (l : Label) : (s.putGranule a k l).layout = s.layout := rfl
@[simp] theorem State.putGranule_fw (a : Nat) (k : Cap) (l : Label) : (s.putGranule a k l).fw = s.fw := rfl
@[simp] theorem State.putGranule_secrets (a : Nat) (k : Cap) (l : Label) : (s.putGranule a k l).secrets = s.secrets := rfl
@[simp] theorem State.putGranule_apertures (a : Nat) (k : Cap) (l : Label) : (s.putGranule a k l).apertures = s.apertures := rfl
@[simp] theorem State.putGranule_handles (a : Nat) (k : Cap) (l : Label) : (s.putGranule a k l).handles = s.handles := rfl
@[simp] theorem State.putGranule_unregistered (a : Nat) (k : Cap) (l : Label) : (s.putGranule a k l).unregistered = s.unregistered := rfl
@[simp] theorem State.putGranule_inbound (a : Nat) (k : Cap) (l : Label) : (s.putGranule a k l).inbound = s.inbound := rfl
@[simp] theorem State.putGranule_awaited (a : Nat) (k : Cap) (l : Label) : (s.putGranule a k l).awaited = s.awaited := rfl
@[simp] theorem State.putGranule_nextWrite (a : Nat) (k : Cap) (l : Label) : (s.putGranule a k l).nextWrite = s.nextWrite := rfl
@[simp] theorem State.putGranule_aer (a : Nat) (k : Cap) (l : Label) : (s.putGranule a k l).aer = s.aer := rfl
@[simp] theorem State.putGranule_answer (a : Nat) (k : Cap) (l : Label) : (s.putGranule a k l).answer = s.answer := rfl
@[simp] theorem State.putGranule_bursts (a : Nat) (k : Cap) (l : Label) : (s.putGranule a k l).bursts = s.bursts := rfl
@[simp] theorem State.putGranule_dead (a : Nat) (k : Cap) (l : Label) : (s.putGranule a k l).dead = s.dead := rfl
@[simp] theorem State.putGranule_pages (a : Nat) (k : Cap) (l : Label) : (s.putGranule a k l).pages = s.pages := rfl
@[simp] theorem State.putGranule_repair (a : Nat) (k : Cap) (l : Label) : (s.putGranule a k l).repair = s.repair := rfl
@[simp] theorem State.putGranule_reports (a : Nat) (k : Cap) (l : Label) : (s.putGranule a k l).reports = s.reports := rfl
@[simp] theorem State.putGranule_dumps (a : Nat) (k : Cap) (l : Label) : (s.putGranule a k l).dumps = s.dumps := rfl
@[simp] theorem State.putGranule_mask (a : Nat) (k : Cap) (l : Label) : (s.putGranule a k l).mask = s.mask := rfl
@[simp] theorem State.putGranule_endpoint (a : Nat) (k : Cap) (l : Label) : (s.putGranule a k l).endpoint = s.endpoint := rfl
@[simp] theorem State.putGranule_pkg (a : Nat) (k : Cap) (l : Label) : (s.putGranule a k l).pkg = s.pkg := rfl
@[simp] theorem State.putGranule_kills (a : Nat) (k : Cap) (l : Label) : (s.putGranule a k l).kills = s.kills := rfl
@[simp] theorem State.putGranule_spused (a : Nat) (k : Cap) (l : Label) : (s.putGranule a k l).spused = s.spused := rfl
@[simp] theorem State.putGranule_pcdrop (a : Nat) (k : Cap) (l : Label) : (s.putGranule a k l).pcdrop = s.pcdrop := rfl
@[simp] theorem State.putGranule_clock (a : Nat) (k : Cap) (l : Label) : (s.putGranule a k l).clock = s.clock := rfl
@[simp] theorem State.putGranule_agenda (a : Nat) (k : Cap) (l : Label) : (s.putGranule a k l).agenda = s.agenda := rfl
@[simp] theorem State.putGranule_freeCtr (a : Nat) (k : Cap) (l : Label) : (s.putGranule a k l).freeCtr = s.freeCtr := rfl
@[simp] theorem State.putGranule_hold (a : Nat) (k : Cap) (l : Label) : (s.putGranule a k l).hold = s.hold := rfl

@[simp] theorem State.zeroRange_core (a n : Nat) : (s.zeroRange a n).core = s.core := rfl
@[simp] theorem State.zeroRange_others (a n : Nat) : (s.zeroRange a n).others = s.others := rfl
@[simp] theorem State.zeroRange_flights (a n : Nat) : (s.zeroRange a n).flights = s.flights := rfl
@[simp] theorem State.zeroRange_signals (a n : Nat) : (s.zeroRange a n).signals = s.signals := rfl
@[simp] theorem State.zeroRange_xflights (a n : Nat) : (s.zeroRange a n).xflights = s.xflights := rfl
@[simp] theorem State.zeroRange_cardbuf (a n : Nat) : (s.zeroRange a n).cardbuf = s.cardbuf := rfl
@[simp] theorem State.zeroRange_parts (a n : Nat) : (s.zeroRange a n).parts = s.parts := rfl
@[simp] theorem State.zeroRange_remap (a n : Nat) : (s.zeroRange a n).remap = s.remap := rfl
@[simp] theorem State.zeroRange_sweeps (a n : Nat) : (s.zeroRange a n).sweeps = s.sweeps := rfl
@[simp] theorem State.zeroRange_sems (a n : Nat) : (s.zeroRange a n).sems = s.sems := rfl
@[simp] theorem State.zeroRange_bars (a n : Nat) : (s.zeroRange a n).bars = s.bars := rfl
@[simp] theorem State.zeroRange_armed (a n : Nat) : (s.zeroRange a n).armed = s.armed := rfl
@[simp] theorem State.zeroRange_waits (a n : Nat) : (s.zeroRange a n).waits = s.waits := rfl
@[simp] theorem State.zeroRange_posters (a n : Nat) : (s.zeroRange a n).posters = s.posters := rfl
@[simp] theorem State.zeroRange_tiles (a n : Nat) : (s.zeroRange a n).tiles = s.tiles := rfl
@[simp] theorem State.zeroRange_missq (a n : Nat) : (s.zeroRange a n).missq = s.missq := rfl
@[simp] theorem State.zeroRange_missrr (a n : Nat) : (s.zeroRange a n).missrr = s.missrr := rfl
@[simp] theorem State.zeroRange_inflight (a n : Nat) : (s.zeroRange a n).inflight = s.inflight := rfl
@[simp] theorem State.zeroRange_queues (a n : Nat) : (s.zeroRange a n).queues = s.queues := rfl
@[simp] theorem State.zeroRange_heldq (a n : Nat) : (s.zeroRange a n).heldq = s.heldq := rfl
@[simp] theorem State.zeroRange_chains (a n : Nat) : (s.zeroRange a n).chains = s.chains := rfl
@[simp] theorem State.zeroRange_dies (a n : Nat) : (s.zeroRange a n).dies = s.dies := rfl
@[simp] theorem State.zeroRange_kernels (a n : Nat) : (s.zeroRange a n).kernels = s.kernels := rfl
@[simp] theorem State.zeroRange_nextKernel (a n : Nat) : (s.zeroRange a n).nextKernel = s.nextKernel := rfl
@[simp] theorem State.zeroRange_images (a n : Nat) : (s.zeroRange a n).images = s.images := rfl
@[simp] theorem State.zeroRange_tileImages (a n : Nat) : (s.zeroRange a n).tileImages = s.tileImages := rfl
@[simp] theorem State.zeroRange_ports (a n : Nat) : (s.zeroRange a n).ports = s.ports := rfl
@[simp] theorem State.zeroRange_layout (a n : Nat) : (s.zeroRange a n).layout = s.layout := rfl
@[simp] theorem State.zeroRange_fw (a n : Nat) : (s.zeroRange a n).fw = s.fw := rfl
@[simp] theorem State.zeroRange_secrets (a n : Nat) : (s.zeroRange a n).secrets = s.secrets := rfl
@[simp] theorem State.zeroRange_apertures (a n : Nat) : (s.zeroRange a n).apertures = s.apertures := rfl
@[simp] theorem State.zeroRange_handles (a n : Nat) : (s.zeroRange a n).handles = s.handles := rfl
@[simp] theorem State.zeroRange_unregistered (a n : Nat) : (s.zeroRange a n).unregistered = s.unregistered := rfl
@[simp] theorem State.zeroRange_inbound (a n : Nat) : (s.zeroRange a n).inbound = s.inbound := rfl
@[simp] theorem State.zeroRange_awaited (a n : Nat) : (s.zeroRange a n).awaited = s.awaited := rfl
@[simp] theorem State.zeroRange_nextWrite (a n : Nat) : (s.zeroRange a n).nextWrite = s.nextWrite := rfl
@[simp] theorem State.zeroRange_aer (a n : Nat) : (s.zeroRange a n).aer = s.aer := rfl
@[simp] theorem State.zeroRange_answer (a n : Nat) : (s.zeroRange a n).answer = s.answer := rfl
@[simp] theorem State.zeroRange_bursts (a n : Nat) : (s.zeroRange a n).bursts = s.bursts := rfl
@[simp] theorem State.zeroRange_dead (a n : Nat) : (s.zeroRange a n).dead = s.dead := rfl
@[simp] theorem State.zeroRange_pages (a n : Nat) : (s.zeroRange a n).pages = s.pages := rfl
@[simp] theorem State.zeroRange_repair (a n : Nat) : (s.zeroRange a n).repair = s.repair := rfl
@[simp] theorem State.zeroRange_reports (a n : Nat) : (s.zeroRange a n).reports = s.reports := rfl
@[simp] theorem State.zeroRange_dumps (a n : Nat) : (s.zeroRange a n).dumps = s.dumps := rfl
@[simp] theorem State.zeroRange_mask (a n : Nat) : (s.zeroRange a n).mask = s.mask := rfl
@[simp] theorem State.zeroRange_endpoint (a n : Nat) : (s.zeroRange a n).endpoint = s.endpoint := rfl
@[simp] theorem State.zeroRange_pkg (a n : Nat) : (s.zeroRange a n).pkg = s.pkg := rfl
@[simp] theorem State.zeroRange_kills (a n : Nat) : (s.zeroRange a n).kills = s.kills := rfl
@[simp] theorem State.zeroRange_spused (a n : Nat) : (s.zeroRange a n).spused = s.spused := rfl
@[simp] theorem State.zeroRange_pcdrop (a n : Nat) : (s.zeroRange a n).pcdrop = s.pcdrop := rfl
@[simp] theorem State.zeroRange_clock (a n : Nat) : (s.zeroRange a n).clock = s.clock := rfl
@[simp] theorem State.zeroRange_agenda (a n : Nat) : (s.zeroRange a n).agenda = s.agenda := rfl
@[simp] theorem State.zeroRange_freeCtr (a n : Nat) : (s.zeroRange a n).freeCtr = s.freeCtr := rfl
@[simp] theorem State.zeroRange_hold (a n : Nat) : (s.zeroRange a n).hold = s.hold := rfl

@[simp] theorem State.copyRange_core (a n b : Nat) : (s.copyRange a n b).core = s.core := rfl
@[simp] theorem State.copyRange_others (a n b : Nat) : (s.copyRange a n b).others = s.others := rfl
@[simp] theorem State.copyRange_flights (a n b : Nat) : (s.copyRange a n b).flights = s.flights := rfl
@[simp] theorem State.copyRange_signals (a n b : Nat) : (s.copyRange a n b).signals = s.signals := rfl
@[simp] theorem State.copyRange_xflights (a n b : Nat) : (s.copyRange a n b).xflights = s.xflights := rfl
@[simp] theorem State.copyRange_cardbuf (a n b : Nat) : (s.copyRange a n b).cardbuf = s.cardbuf := rfl
@[simp] theorem State.copyRange_parts (a n b : Nat) : (s.copyRange a n b).parts = s.parts := rfl
@[simp] theorem State.copyRange_remap (a n b : Nat) : (s.copyRange a n b).remap = s.remap := rfl
@[simp] theorem State.copyRange_sweeps (a n b : Nat) : (s.copyRange a n b).sweeps = s.sweeps := rfl
@[simp] theorem State.copyRange_sems (a n b : Nat) : (s.copyRange a n b).sems = s.sems := rfl
@[simp] theorem State.copyRange_bars (a n b : Nat) : (s.copyRange a n b).bars = s.bars := rfl
@[simp] theorem State.copyRange_armed (a n b : Nat) : (s.copyRange a n b).armed = s.armed := rfl
@[simp] theorem State.copyRange_waits (a n b : Nat) : (s.copyRange a n b).waits = s.waits := rfl
@[simp] theorem State.copyRange_posters (a n b : Nat) : (s.copyRange a n b).posters = s.posters := rfl
@[simp] theorem State.copyRange_tiles (a n b : Nat) : (s.copyRange a n b).tiles = s.tiles := rfl
@[simp] theorem State.copyRange_missq (a n b : Nat) : (s.copyRange a n b).missq = s.missq := rfl
@[simp] theorem State.copyRange_missrr (a n b : Nat) : (s.copyRange a n b).missrr = s.missrr := rfl
@[simp] theorem State.copyRange_inflight (a n b : Nat) : (s.copyRange a n b).inflight = s.inflight := rfl
@[simp] theorem State.copyRange_queues (a n b : Nat) : (s.copyRange a n b).queues = s.queues := rfl
@[simp] theorem State.copyRange_heldq (a n b : Nat) : (s.copyRange a n b).heldq = s.heldq := rfl
@[simp] theorem State.copyRange_chains (a n b : Nat) : (s.copyRange a n b).chains = s.chains := rfl
@[simp] theorem State.copyRange_dies (a n b : Nat) : (s.copyRange a n b).dies = s.dies := rfl
@[simp] theorem State.copyRange_kernels (a n b : Nat) : (s.copyRange a n b).kernels = s.kernels := rfl
@[simp] theorem State.copyRange_nextKernel (a n b : Nat) : (s.copyRange a n b).nextKernel = s.nextKernel := rfl
@[simp] theorem State.copyRange_images (a n b : Nat) : (s.copyRange a n b).images = s.images := rfl
@[simp] theorem State.copyRange_tileImages (a n b : Nat) : (s.copyRange a n b).tileImages = s.tileImages := rfl
@[simp] theorem State.copyRange_ports (a n b : Nat) : (s.copyRange a n b).ports = s.ports := rfl
@[simp] theorem State.copyRange_layout (a n b : Nat) : (s.copyRange a n b).layout = s.layout := rfl
@[simp] theorem State.copyRange_fw (a n b : Nat) : (s.copyRange a n b).fw = s.fw := rfl
@[simp] theorem State.copyRange_secrets (a n b : Nat) : (s.copyRange a n b).secrets = s.secrets := rfl
@[simp] theorem State.copyRange_apertures (a n b : Nat) : (s.copyRange a n b).apertures = s.apertures := rfl
@[simp] theorem State.copyRange_handles (a n b : Nat) : (s.copyRange a n b).handles = s.handles := rfl
@[simp] theorem State.copyRange_unregistered (a n b : Nat) : (s.copyRange a n b).unregistered = s.unregistered := rfl
@[simp] theorem State.copyRange_inbound (a n b : Nat) : (s.copyRange a n b).inbound = s.inbound := rfl
@[simp] theorem State.copyRange_awaited (a n b : Nat) : (s.copyRange a n b).awaited = s.awaited := rfl
@[simp] theorem State.copyRange_nextWrite (a n b : Nat) : (s.copyRange a n b).nextWrite = s.nextWrite := rfl
@[simp] theorem State.copyRange_aer (a n b : Nat) : (s.copyRange a n b).aer = s.aer := rfl
@[simp] theorem State.copyRange_answer (a n b : Nat) : (s.copyRange a n b).answer = s.answer := rfl
@[simp] theorem State.copyRange_bursts (a n b : Nat) : (s.copyRange a n b).bursts = s.bursts := rfl
@[simp] theorem State.copyRange_dead (a n b : Nat) : (s.copyRange a n b).dead = s.dead := rfl
@[simp] theorem State.copyRange_pages (a n b : Nat) : (s.copyRange a n b).pages = s.pages := rfl
@[simp] theorem State.copyRange_repair (a n b : Nat) : (s.copyRange a n b).repair = s.repair := rfl
@[simp] theorem State.copyRange_reports (a n b : Nat) : (s.copyRange a n b).reports = s.reports := rfl
@[simp] theorem State.copyRange_dumps (a n b : Nat) : (s.copyRange a n b).dumps = s.dumps := rfl
@[simp] theorem State.copyRange_mask (a n b : Nat) : (s.copyRange a n b).mask = s.mask := rfl
@[simp] theorem State.copyRange_endpoint (a n b : Nat) : (s.copyRange a n b).endpoint = s.endpoint := rfl
@[simp] theorem State.copyRange_pkg (a n b : Nat) : (s.copyRange a n b).pkg = s.pkg := rfl
@[simp] theorem State.copyRange_kills (a n b : Nat) : (s.copyRange a n b).kills = s.kills := rfl
@[simp] theorem State.copyRange_spused (a n b : Nat) : (s.copyRange a n b).spused = s.spused := rfl
@[simp] theorem State.copyRange_pcdrop (a n b : Nat) : (s.copyRange a n b).pcdrop = s.pcdrop := rfl
@[simp] theorem State.copyRange_clock (a n b : Nat) : (s.copyRange a n b).clock = s.clock := rfl
@[simp] theorem State.copyRange_agenda (a n b : Nat) : (s.copyRange a n b).agenda = s.agenda := rfl
@[simp] theorem State.copyRange_freeCtr (a n b : Nat) : (s.copyRange a n b).freeCtr = s.freeCtr := rfl
@[simp] theorem State.copyRange_hold (a n b : Nat) : (s.copyRange a n b).hold = s.hold := rfl

@[simp] theorem State.addFlight_core (x : Flight) : (s.addFlight x).core = s.core := rfl
@[simp] theorem State.addFlight_others (x : Flight) : (s.addFlight x).others = s.others := rfl
@[simp] theorem State.addFlight_mem (x : Flight) : (s.addFlight x).mem = s.mem := rfl
@[simp] theorem State.addFlight_labels (x : Flight) : (s.addFlight x).labels = s.labels := rfl
@[simp] theorem State.addFlight_tags (x : Flight) : (s.addFlight x).tags = s.tags := rfl
@[simp] theorem State.addFlight_signals (x : Flight) : (s.addFlight x).signals = s.signals := rfl
@[simp] theorem State.addFlight_xflights (x : Flight) : (s.addFlight x).xflights = s.xflights := rfl
@[simp] theorem State.addFlight_cardbuf (x : Flight) : (s.addFlight x).cardbuf = s.cardbuf := rfl
@[simp] theorem State.addFlight_parts (x : Flight) : (s.addFlight x).parts = s.parts := rfl
@[simp] theorem State.addFlight_remap (x : Flight) : (s.addFlight x).remap = s.remap := rfl
@[simp] theorem State.addFlight_sweeps (x : Flight) : (s.addFlight x).sweeps = s.sweeps := rfl
@[simp] theorem State.addFlight_sems (x : Flight) : (s.addFlight x).sems = s.sems := rfl
@[simp] theorem State.addFlight_bars (x : Flight) : (s.addFlight x).bars = s.bars := rfl
@[simp] theorem State.addFlight_armed (x : Flight) : (s.addFlight x).armed = s.armed := rfl
@[simp] theorem State.addFlight_waits (x : Flight) : (s.addFlight x).waits = s.waits := rfl
@[simp] theorem State.addFlight_posters (x : Flight) : (s.addFlight x).posters = s.posters := rfl
@[simp] theorem State.addFlight_tiles (x : Flight) : (s.addFlight x).tiles = s.tiles := rfl
@[simp] theorem State.addFlight_missq (x : Flight) : (s.addFlight x).missq = s.missq := rfl
@[simp] theorem State.addFlight_missrr (x : Flight) : (s.addFlight x).missrr = s.missrr := rfl
@[simp] theorem State.addFlight_inflight (x : Flight) : (s.addFlight x).inflight = s.inflight := rfl
@[simp] theorem State.addFlight_queues (x : Flight) : (s.addFlight x).queues = s.queues := rfl
@[simp] theorem State.addFlight_heldq (x : Flight) : (s.addFlight x).heldq = s.heldq := rfl
@[simp] theorem State.addFlight_chains (x : Flight) : (s.addFlight x).chains = s.chains := rfl
@[simp] theorem State.addFlight_dies (x : Flight) : (s.addFlight x).dies = s.dies := rfl
@[simp] theorem State.addFlight_kernels (x : Flight) : (s.addFlight x).kernels = s.kernels := rfl
@[simp] theorem State.addFlight_nextKernel (x : Flight) : (s.addFlight x).nextKernel = s.nextKernel := rfl
@[simp] theorem State.addFlight_images (x : Flight) : (s.addFlight x).images = s.images := rfl
@[simp] theorem State.addFlight_tileImages (x : Flight) : (s.addFlight x).tileImages = s.tileImages := rfl
@[simp] theorem State.addFlight_ports (x : Flight) : (s.addFlight x).ports = s.ports := rfl
@[simp] theorem State.addFlight_layout (x : Flight) : (s.addFlight x).layout = s.layout := rfl
@[simp] theorem State.addFlight_fw (x : Flight) : (s.addFlight x).fw = s.fw := rfl
@[simp] theorem State.addFlight_secrets (x : Flight) : (s.addFlight x).secrets = s.secrets := rfl
@[simp] theorem State.addFlight_apertures (x : Flight) : (s.addFlight x).apertures = s.apertures := rfl
@[simp] theorem State.addFlight_handles (x : Flight) : (s.addFlight x).handles = s.handles := rfl
@[simp] theorem State.addFlight_unregistered (x : Flight) : (s.addFlight x).unregistered = s.unregistered := rfl
@[simp] theorem State.addFlight_inbound (x : Flight) : (s.addFlight x).inbound = s.inbound := rfl
@[simp] theorem State.addFlight_awaited (x : Flight) : (s.addFlight x).awaited = s.awaited := rfl
@[simp] theorem State.addFlight_nextWrite (x : Flight) : (s.addFlight x).nextWrite = s.nextWrite := rfl
@[simp] theorem State.addFlight_aer (x : Flight) : (s.addFlight x).aer = s.aer := rfl
@[simp] theorem State.addFlight_answer (x : Flight) : (s.addFlight x).answer = s.answer := rfl
@[simp] theorem State.addFlight_bursts (x : Flight) : (s.addFlight x).bursts = s.bursts := rfl
@[simp] theorem State.addFlight_dead (x : Flight) : (s.addFlight x).dead = s.dead := rfl
@[simp] theorem State.addFlight_pages (x : Flight) : (s.addFlight x).pages = s.pages := rfl
@[simp] theorem State.addFlight_repair (x : Flight) : (s.addFlight x).repair = s.repair := rfl
@[simp] theorem State.addFlight_reports (x : Flight) : (s.addFlight x).reports = s.reports := rfl
@[simp] theorem State.addFlight_dumps (x : Flight) : (s.addFlight x).dumps = s.dumps := rfl
@[simp] theorem State.addFlight_mask (x : Flight) : (s.addFlight x).mask = s.mask := rfl
@[simp] theorem State.addFlight_endpoint (x : Flight) : (s.addFlight x).endpoint = s.endpoint := rfl
@[simp] theorem State.addFlight_pkg (x : Flight) : (s.addFlight x).pkg = s.pkg := rfl
@[simp] theorem State.addFlight_kills (x : Flight) : (s.addFlight x).kills = s.kills := rfl
@[simp] theorem State.addFlight_spused (x : Flight) : (s.addFlight x).spused = s.spused := rfl
@[simp] theorem State.addFlight_pcdrop (x : Flight) : (s.addFlight x).pcdrop = s.pcdrop := rfl
@[simp] theorem State.addFlight_clock (x : Flight) : (s.addFlight x).clock = s.clock := rfl
@[simp] theorem State.addFlight_agenda (x : Flight) : (s.addFlight x).agenda = s.agenda := rfl
@[simp] theorem State.addFlight_freeCtr (x : Flight) : (s.addFlight x).freeCtr = s.freeCtr := rfl
@[simp] theorem State.addFlight_hold (x : Flight) : (s.addFlight x).hold = s.hold := rfl

@[simp] theorem State.setTile_core (n : Nat) (x : Tile) : (s.setTile n x).core = s.core := rfl
@[simp] theorem State.setTile_others (n : Nat) (x : Tile) : (s.setTile n x).others = s.others := rfl
@[simp] theorem State.setTile_mem (n : Nat) (x : Tile) : (s.setTile n x).mem = s.mem := rfl
@[simp] theorem State.setTile_labels (n : Nat) (x : Tile) : (s.setTile n x).labels = s.labels := rfl
@[simp] theorem State.setTile_tags (n : Nat) (x : Tile) : (s.setTile n x).tags = s.tags := rfl
@[simp] theorem State.setTile_flights (n : Nat) (x : Tile) : (s.setTile n x).flights = s.flights := rfl
@[simp] theorem State.setTile_signals (n : Nat) (x : Tile) : (s.setTile n x).signals = s.signals := rfl
@[simp] theorem State.setTile_xflights (n : Nat) (x : Tile) : (s.setTile n x).xflights = s.xflights := rfl
@[simp] theorem State.setTile_cardbuf (n : Nat) (x : Tile) : (s.setTile n x).cardbuf = s.cardbuf := rfl
@[simp] theorem State.setTile_parts (n : Nat) (x : Tile) : (s.setTile n x).parts = s.parts := rfl
@[simp] theorem State.setTile_remap (n : Nat) (x : Tile) : (s.setTile n x).remap = s.remap := rfl
@[simp] theorem State.setTile_sweeps (n : Nat) (x : Tile) : (s.setTile n x).sweeps = s.sweeps := rfl
@[simp] theorem State.setTile_sems (n : Nat) (x : Tile) : (s.setTile n x).sems = s.sems := rfl
@[simp] theorem State.setTile_bars (n : Nat) (x : Tile) : (s.setTile n x).bars = s.bars := rfl
@[simp] theorem State.setTile_armed (n : Nat) (x : Tile) : (s.setTile n x).armed = s.armed := rfl
@[simp] theorem State.setTile_waits (n : Nat) (x : Tile) : (s.setTile n x).waits = s.waits := rfl
@[simp] theorem State.setTile_posters (n : Nat) (x : Tile) : (s.setTile n x).posters = s.posters := rfl
@[simp] theorem State.setTile_missq (n : Nat) (x : Tile) : (s.setTile n x).missq = s.missq := rfl
@[simp] theorem State.setTile_missrr (n : Nat) (x : Tile) : (s.setTile n x).missrr = s.missrr := rfl
@[simp] theorem State.setTile_inflight (n : Nat) (x : Tile) : (s.setTile n x).inflight = s.inflight := rfl
@[simp] theorem State.setTile_queues (n : Nat) (x : Tile) : (s.setTile n x).queues = s.queues := rfl
@[simp] theorem State.setTile_heldq (n : Nat) (x : Tile) : (s.setTile n x).heldq = s.heldq := rfl
@[simp] theorem State.setTile_chains (n : Nat) (x : Tile) : (s.setTile n x).chains = s.chains := rfl
@[simp] theorem State.setTile_dies (n : Nat) (x : Tile) : (s.setTile n x).dies = s.dies := rfl
@[simp] theorem State.setTile_kernels (n : Nat) (x : Tile) : (s.setTile n x).kernels = s.kernels := rfl
@[simp] theorem State.setTile_nextKernel (n : Nat) (x : Tile) : (s.setTile n x).nextKernel = s.nextKernel := rfl
@[simp] theorem State.setTile_images (n : Nat) (x : Tile) : (s.setTile n x).images = s.images := rfl
@[simp] theorem State.setTile_tileImages (n : Nat) (x : Tile) : (s.setTile n x).tileImages = s.tileImages := rfl
@[simp] theorem State.setTile_ports (n : Nat) (x : Tile) : (s.setTile n x).ports = s.ports := rfl
@[simp] theorem State.setTile_layout (n : Nat) (x : Tile) : (s.setTile n x).layout = s.layout := rfl
@[simp] theorem State.setTile_fw (n : Nat) (x : Tile) : (s.setTile n x).fw = s.fw := rfl
@[simp] theorem State.setTile_secrets (n : Nat) (x : Tile) : (s.setTile n x).secrets = s.secrets := rfl
@[simp] theorem State.setTile_apertures (n : Nat) (x : Tile) : (s.setTile n x).apertures = s.apertures := rfl
@[simp] theorem State.setTile_handles (n : Nat) (x : Tile) : (s.setTile n x).handles = s.handles := rfl
@[simp] theorem State.setTile_unregistered (n : Nat) (x : Tile) : (s.setTile n x).unregistered = s.unregistered := rfl
@[simp] theorem State.setTile_inbound (n : Nat) (x : Tile) : (s.setTile n x).inbound = s.inbound := rfl
@[simp] theorem State.setTile_awaited (n : Nat) (x : Tile) : (s.setTile n x).awaited = s.awaited := rfl
@[simp] theorem State.setTile_nextWrite (n : Nat) (x : Tile) : (s.setTile n x).nextWrite = s.nextWrite := rfl
@[simp] theorem State.setTile_aer (n : Nat) (x : Tile) : (s.setTile n x).aer = s.aer := rfl
@[simp] theorem State.setTile_answer (n : Nat) (x : Tile) : (s.setTile n x).answer = s.answer := rfl
@[simp] theorem State.setTile_bursts (n : Nat) (x : Tile) : (s.setTile n x).bursts = s.bursts := rfl
@[simp] theorem State.setTile_dead (n : Nat) (x : Tile) : (s.setTile n x).dead = s.dead := rfl
@[simp] theorem State.setTile_pages (n : Nat) (x : Tile) : (s.setTile n x).pages = s.pages := rfl
@[simp] theorem State.setTile_repair (n : Nat) (x : Tile) : (s.setTile n x).repair = s.repair := rfl
@[simp] theorem State.setTile_reports (n : Nat) (x : Tile) : (s.setTile n x).reports = s.reports := rfl
@[simp] theorem State.setTile_dumps (n : Nat) (x : Tile) : (s.setTile n x).dumps = s.dumps := rfl
@[simp] theorem State.setTile_mask (n : Nat) (x : Tile) : (s.setTile n x).mask = s.mask := rfl
@[simp] theorem State.setTile_endpoint (n : Nat) (x : Tile) : (s.setTile n x).endpoint = s.endpoint := rfl
@[simp] theorem State.setTile_pkg (n : Nat) (x : Tile) : (s.setTile n x).pkg = s.pkg := rfl
@[simp] theorem State.setTile_kills (n : Nat) (x : Tile) : (s.setTile n x).kills = s.kills := rfl
@[simp] theorem State.setTile_spused (n : Nat) (x : Tile) : (s.setTile n x).spused = s.spused := rfl
@[simp] theorem State.setTile_pcdrop (n : Nat) (x : Tile) : (s.setTile n x).pcdrop = s.pcdrop := rfl
@[simp] theorem State.setTile_clock (n : Nat) (x : Tile) : (s.setTile n x).clock = s.clock := rfl
@[simp] theorem State.setTile_agenda (n : Nat) (x : Tile) : (s.setTile n x).agenda = s.agenda := rfl
@[simp] theorem State.setTile_freeCtr (n : Nat) (x : Tile) : (s.setTile n x).freeCtr = s.freeCtr := rfl
@[simp] theorem State.setTile_hold (n : Nat) (x : Tile) : (s.setTile n x).hold = s.hold := rfl

@[simp] theorem State.setSem_core (n : Nat) (x : Sem) : (s.setSem n x).core = s.core := rfl
@[simp] theorem State.setSem_others (n : Nat) (x : Sem) : (s.setSem n x).others = s.others := rfl
@[simp] theorem State.setSem_mem (n : Nat) (x : Sem) : (s.setSem n x).mem = s.mem := rfl
@[simp] theorem State.setSem_labels (n : Nat) (x : Sem) : (s.setSem n x).labels = s.labels := rfl
@[simp] theorem State.setSem_tags (n : Nat) (x : Sem) : (s.setSem n x).tags = s.tags := rfl
@[simp] theorem State.setSem_flights (n : Nat) (x : Sem) : (s.setSem n x).flights = s.flights := rfl
@[simp] theorem State.setSem_signals (n : Nat) (x : Sem) : (s.setSem n x).signals = s.signals := rfl
@[simp] theorem State.setSem_xflights (n : Nat) (x : Sem) : (s.setSem n x).xflights = s.xflights := rfl
@[simp] theorem State.setSem_cardbuf (n : Nat) (x : Sem) : (s.setSem n x).cardbuf = s.cardbuf := rfl
@[simp] theorem State.setSem_parts (n : Nat) (x : Sem) : (s.setSem n x).parts = s.parts := rfl
@[simp] theorem State.setSem_remap (n : Nat) (x : Sem) : (s.setSem n x).remap = s.remap := rfl
@[simp] theorem State.setSem_sweeps (n : Nat) (x : Sem) : (s.setSem n x).sweeps = s.sweeps := rfl
@[simp] theorem State.setSem_bars (n : Nat) (x : Sem) : (s.setSem n x).bars = s.bars := rfl
@[simp] theorem State.setSem_armed (n : Nat) (x : Sem) : (s.setSem n x).armed = s.armed := rfl
@[simp] theorem State.setSem_waits (n : Nat) (x : Sem) : (s.setSem n x).waits = s.waits := rfl
@[simp] theorem State.setSem_posters (n : Nat) (x : Sem) : (s.setSem n x).posters = s.posters := rfl
@[simp] theorem State.setSem_tiles (n : Nat) (x : Sem) : (s.setSem n x).tiles = s.tiles := rfl
@[simp] theorem State.setSem_missq (n : Nat) (x : Sem) : (s.setSem n x).missq = s.missq := rfl
@[simp] theorem State.setSem_missrr (n : Nat) (x : Sem) : (s.setSem n x).missrr = s.missrr := rfl
@[simp] theorem State.setSem_inflight (n : Nat) (x : Sem) : (s.setSem n x).inflight = s.inflight := rfl
@[simp] theorem State.setSem_queues (n : Nat) (x : Sem) : (s.setSem n x).queues = s.queues := rfl
@[simp] theorem State.setSem_heldq (n : Nat) (x : Sem) : (s.setSem n x).heldq = s.heldq := rfl
@[simp] theorem State.setSem_chains (n : Nat) (x : Sem) : (s.setSem n x).chains = s.chains := rfl
@[simp] theorem State.setSem_dies (n : Nat) (x : Sem) : (s.setSem n x).dies = s.dies := rfl
@[simp] theorem State.setSem_kernels (n : Nat) (x : Sem) : (s.setSem n x).kernels = s.kernels := rfl
@[simp] theorem State.setSem_nextKernel (n : Nat) (x : Sem) : (s.setSem n x).nextKernel = s.nextKernel := rfl
@[simp] theorem State.setSem_images (n : Nat) (x : Sem) : (s.setSem n x).images = s.images := rfl
@[simp] theorem State.setSem_tileImages (n : Nat) (x : Sem) : (s.setSem n x).tileImages = s.tileImages := rfl
@[simp] theorem State.setSem_ports (n : Nat) (x : Sem) : (s.setSem n x).ports = s.ports := rfl
@[simp] theorem State.setSem_layout (n : Nat) (x : Sem) : (s.setSem n x).layout = s.layout := rfl
@[simp] theorem State.setSem_fw (n : Nat) (x : Sem) : (s.setSem n x).fw = s.fw := rfl
@[simp] theorem State.setSem_secrets (n : Nat) (x : Sem) : (s.setSem n x).secrets = s.secrets := rfl
@[simp] theorem State.setSem_apertures (n : Nat) (x : Sem) : (s.setSem n x).apertures = s.apertures := rfl
@[simp] theorem State.setSem_handles (n : Nat) (x : Sem) : (s.setSem n x).handles = s.handles := rfl
@[simp] theorem State.setSem_unregistered (n : Nat) (x : Sem) : (s.setSem n x).unregistered = s.unregistered := rfl
@[simp] theorem State.setSem_inbound (n : Nat) (x : Sem) : (s.setSem n x).inbound = s.inbound := rfl
@[simp] theorem State.setSem_awaited (n : Nat) (x : Sem) : (s.setSem n x).awaited = s.awaited := rfl
@[simp] theorem State.setSem_nextWrite (n : Nat) (x : Sem) : (s.setSem n x).nextWrite = s.nextWrite := rfl
@[simp] theorem State.setSem_aer (n : Nat) (x : Sem) : (s.setSem n x).aer = s.aer := rfl
@[simp] theorem State.setSem_answer (n : Nat) (x : Sem) : (s.setSem n x).answer = s.answer := rfl
@[simp] theorem State.setSem_bursts (n : Nat) (x : Sem) : (s.setSem n x).bursts = s.bursts := rfl
@[simp] theorem State.setSem_dead (n : Nat) (x : Sem) : (s.setSem n x).dead = s.dead := rfl
@[simp] theorem State.setSem_pages (n : Nat) (x : Sem) : (s.setSem n x).pages = s.pages := rfl
@[simp] theorem State.setSem_repair (n : Nat) (x : Sem) : (s.setSem n x).repair = s.repair := rfl
@[simp] theorem State.setSem_reports (n : Nat) (x : Sem) : (s.setSem n x).reports = s.reports := rfl
@[simp] theorem State.setSem_dumps (n : Nat) (x : Sem) : (s.setSem n x).dumps = s.dumps := rfl
@[simp] theorem State.setSem_mask (n : Nat) (x : Sem) : (s.setSem n x).mask = s.mask := rfl
@[simp] theorem State.setSem_endpoint (n : Nat) (x : Sem) : (s.setSem n x).endpoint = s.endpoint := rfl
@[simp] theorem State.setSem_pkg (n : Nat) (x : Sem) : (s.setSem n x).pkg = s.pkg := rfl
@[simp] theorem State.setSem_kills (n : Nat) (x : Sem) : (s.setSem n x).kills = s.kills := rfl
@[simp] theorem State.setSem_spused (n : Nat) (x : Sem) : (s.setSem n x).spused = s.spused := rfl
@[simp] theorem State.setSem_pcdrop (n : Nat) (x : Sem) : (s.setSem n x).pcdrop = s.pcdrop := rfl
@[simp] theorem State.setSem_clock (n : Nat) (x : Sem) : (s.setSem n x).clock = s.clock := rfl
@[simp] theorem State.setSem_agenda (n : Nat) (x : Sem) : (s.setSem n x).agenda = s.agenda := rfl
@[simp] theorem State.setSem_freeCtr (n : Nat) (x : Sem) : (s.setSem n x).freeCtr = s.freeCtr := rfl
@[simp] theorem State.setSem_hold (n : Nat) (x : Sem) : (s.setSem n x).hold = s.hold := rfl

@[simp] theorem State.setBar_core (n : Nat) (x : Barrier) : (s.setBar n x).core = s.core := rfl
@[simp] theorem State.setBar_others (n : Nat) (x : Barrier) : (s.setBar n x).others = s.others := rfl
@[simp] theorem State.setBar_mem (n : Nat) (x : Barrier) : (s.setBar n x).mem = s.mem := rfl
@[simp] theorem State.setBar_labels (n : Nat) (x : Barrier) : (s.setBar n x).labels = s.labels := rfl
@[simp] theorem State.setBar_tags (n : Nat) (x : Barrier) : (s.setBar n x).tags = s.tags := rfl
@[simp] theorem State.setBar_flights (n : Nat) (x : Barrier) : (s.setBar n x).flights = s.flights := rfl
@[simp] theorem State.setBar_signals (n : Nat) (x : Barrier) : (s.setBar n x).signals = s.signals := rfl
@[simp] theorem State.setBar_xflights (n : Nat) (x : Barrier) : (s.setBar n x).xflights = s.xflights := rfl
@[simp] theorem State.setBar_cardbuf (n : Nat) (x : Barrier) : (s.setBar n x).cardbuf = s.cardbuf := rfl
@[simp] theorem State.setBar_parts (n : Nat) (x : Barrier) : (s.setBar n x).parts = s.parts := rfl
@[simp] theorem State.setBar_remap (n : Nat) (x : Barrier) : (s.setBar n x).remap = s.remap := rfl
@[simp] theorem State.setBar_sweeps (n : Nat) (x : Barrier) : (s.setBar n x).sweeps = s.sweeps := rfl
@[simp] theorem State.setBar_sems (n : Nat) (x : Barrier) : (s.setBar n x).sems = s.sems := rfl
@[simp] theorem State.setBar_armed (n : Nat) (x : Barrier) : (s.setBar n x).armed = s.armed := rfl
@[simp] theorem State.setBar_waits (n : Nat) (x : Barrier) : (s.setBar n x).waits = s.waits := rfl
@[simp] theorem State.setBar_posters (n : Nat) (x : Barrier) : (s.setBar n x).posters = s.posters := rfl
@[simp] theorem State.setBar_tiles (n : Nat) (x : Barrier) : (s.setBar n x).tiles = s.tiles := rfl
@[simp] theorem State.setBar_missq (n : Nat) (x : Barrier) : (s.setBar n x).missq = s.missq := rfl
@[simp] theorem State.setBar_missrr (n : Nat) (x : Barrier) : (s.setBar n x).missrr = s.missrr := rfl
@[simp] theorem State.setBar_inflight (n : Nat) (x : Barrier) : (s.setBar n x).inflight = s.inflight := rfl
@[simp] theorem State.setBar_queues (n : Nat) (x : Barrier) : (s.setBar n x).queues = s.queues := rfl
@[simp] theorem State.setBar_heldq (n : Nat) (x : Barrier) : (s.setBar n x).heldq = s.heldq := rfl
@[simp] theorem State.setBar_chains (n : Nat) (x : Barrier) : (s.setBar n x).chains = s.chains := rfl
@[simp] theorem State.setBar_dies (n : Nat) (x : Barrier) : (s.setBar n x).dies = s.dies := rfl
@[simp] theorem State.setBar_kernels (n : Nat) (x : Barrier) : (s.setBar n x).kernels = s.kernels := rfl
@[simp] theorem State.setBar_nextKernel (n : Nat) (x : Barrier) : (s.setBar n x).nextKernel = s.nextKernel := rfl
@[simp] theorem State.setBar_images (n : Nat) (x : Barrier) : (s.setBar n x).images = s.images := rfl
@[simp] theorem State.setBar_tileImages (n : Nat) (x : Barrier) : (s.setBar n x).tileImages = s.tileImages := rfl
@[simp] theorem State.setBar_ports (n : Nat) (x : Barrier) : (s.setBar n x).ports = s.ports := rfl
@[simp] theorem State.setBar_layout (n : Nat) (x : Barrier) : (s.setBar n x).layout = s.layout := rfl
@[simp] theorem State.setBar_fw (n : Nat) (x : Barrier) : (s.setBar n x).fw = s.fw := rfl
@[simp] theorem State.setBar_secrets (n : Nat) (x : Barrier) : (s.setBar n x).secrets = s.secrets := rfl
@[simp] theorem State.setBar_apertures (n : Nat) (x : Barrier) : (s.setBar n x).apertures = s.apertures := rfl
@[simp] theorem State.setBar_handles (n : Nat) (x : Barrier) : (s.setBar n x).handles = s.handles := rfl
@[simp] theorem State.setBar_unregistered (n : Nat) (x : Barrier) : (s.setBar n x).unregistered = s.unregistered := rfl
@[simp] theorem State.setBar_inbound (n : Nat) (x : Barrier) : (s.setBar n x).inbound = s.inbound := rfl
@[simp] theorem State.setBar_awaited (n : Nat) (x : Barrier) : (s.setBar n x).awaited = s.awaited := rfl
@[simp] theorem State.setBar_nextWrite (n : Nat) (x : Barrier) : (s.setBar n x).nextWrite = s.nextWrite := rfl
@[simp] theorem State.setBar_aer (n : Nat) (x : Barrier) : (s.setBar n x).aer = s.aer := rfl
@[simp] theorem State.setBar_answer (n : Nat) (x : Barrier) : (s.setBar n x).answer = s.answer := rfl
@[simp] theorem State.setBar_bursts (n : Nat) (x : Barrier) : (s.setBar n x).bursts = s.bursts := rfl
@[simp] theorem State.setBar_dead (n : Nat) (x : Barrier) : (s.setBar n x).dead = s.dead := rfl
@[simp] theorem State.setBar_pages (n : Nat) (x : Barrier) : (s.setBar n x).pages = s.pages := rfl
@[simp] theorem State.setBar_repair (n : Nat) (x : Barrier) : (s.setBar n x).repair = s.repair := rfl
@[simp] theorem State.setBar_reports (n : Nat) (x : Barrier) : (s.setBar n x).reports = s.reports := rfl
@[simp] theorem State.setBar_dumps (n : Nat) (x : Barrier) : (s.setBar n x).dumps = s.dumps := rfl
@[simp] theorem State.setBar_mask (n : Nat) (x : Barrier) : (s.setBar n x).mask = s.mask := rfl
@[simp] theorem State.setBar_endpoint (n : Nat) (x : Barrier) : (s.setBar n x).endpoint = s.endpoint := rfl
@[simp] theorem State.setBar_pkg (n : Nat) (x : Barrier) : (s.setBar n x).pkg = s.pkg := rfl
@[simp] theorem State.setBar_kills (n : Nat) (x : Barrier) : (s.setBar n x).kills = s.kills := rfl
@[simp] theorem State.setBar_spused (n : Nat) (x : Barrier) : (s.setBar n x).spused = s.spused := rfl
@[simp] theorem State.setBar_pcdrop (n : Nat) (x : Barrier) : (s.setBar n x).pcdrop = s.pcdrop := rfl
@[simp] theorem State.setBar_clock (n : Nat) (x : Barrier) : (s.setBar n x).clock = s.clock := rfl
@[simp] theorem State.setBar_agenda (n : Nat) (x : Barrier) : (s.setBar n x).agenda = s.agenda := rfl
@[simp] theorem State.setBar_freeCtr (n : Nat) (x : Barrier) : (s.setBar n x).freeCtr = s.freeCtr := rfl
@[simp] theorem State.setBar_hold (n : Nat) (x : Barrier) : (s.setBar n x).hold = s.hold := rfl

@[simp] theorem State.setQueue_core (n : Nat) (x : Queue) : (s.setQueue n x).core = s.core := rfl
@[simp] theorem State.setQueue_others (n : Nat) (x : Queue) : (s.setQueue n x).others = s.others := rfl
@[simp] theorem State.setQueue_mem (n : Nat) (x : Queue) : (s.setQueue n x).mem = s.mem := rfl
@[simp] theorem State.setQueue_labels (n : Nat) (x : Queue) : (s.setQueue n x).labels = s.labels := rfl
@[simp] theorem State.setQueue_tags (n : Nat) (x : Queue) : (s.setQueue n x).tags = s.tags := rfl
@[simp] theorem State.setQueue_flights (n : Nat) (x : Queue) : (s.setQueue n x).flights = s.flights := rfl
@[simp] theorem State.setQueue_signals (n : Nat) (x : Queue) : (s.setQueue n x).signals = s.signals := rfl
@[simp] theorem State.setQueue_xflights (n : Nat) (x : Queue) : (s.setQueue n x).xflights = s.xflights := rfl
@[simp] theorem State.setQueue_cardbuf (n : Nat) (x : Queue) : (s.setQueue n x).cardbuf = s.cardbuf := rfl
@[simp] theorem State.setQueue_parts (n : Nat) (x : Queue) : (s.setQueue n x).parts = s.parts := rfl
@[simp] theorem State.setQueue_remap (n : Nat) (x : Queue) : (s.setQueue n x).remap = s.remap := rfl
@[simp] theorem State.setQueue_sweeps (n : Nat) (x : Queue) : (s.setQueue n x).sweeps = s.sweeps := rfl
@[simp] theorem State.setQueue_sems (n : Nat) (x : Queue) : (s.setQueue n x).sems = s.sems := rfl
@[simp] theorem State.setQueue_bars (n : Nat) (x : Queue) : (s.setQueue n x).bars = s.bars := rfl
@[simp] theorem State.setQueue_armed (n : Nat) (x : Queue) : (s.setQueue n x).armed = s.armed := rfl
@[simp] theorem State.setQueue_waits (n : Nat) (x : Queue) : (s.setQueue n x).waits = s.waits := rfl
@[simp] theorem State.setQueue_posters (n : Nat) (x : Queue) : (s.setQueue n x).posters = s.posters := rfl
@[simp] theorem State.setQueue_tiles (n : Nat) (x : Queue) : (s.setQueue n x).tiles = s.tiles := rfl
@[simp] theorem State.setQueue_missq (n : Nat) (x : Queue) : (s.setQueue n x).missq = s.missq := rfl
@[simp] theorem State.setQueue_missrr (n : Nat) (x : Queue) : (s.setQueue n x).missrr = s.missrr := rfl
@[simp] theorem State.setQueue_inflight (n : Nat) (x : Queue) : (s.setQueue n x).inflight = s.inflight := rfl
@[simp] theorem State.setQueue_heldq (n : Nat) (x : Queue) : (s.setQueue n x).heldq = s.heldq := rfl
@[simp] theorem State.setQueue_chains (n : Nat) (x : Queue) : (s.setQueue n x).chains = s.chains := rfl
@[simp] theorem State.setQueue_dies (n : Nat) (x : Queue) : (s.setQueue n x).dies = s.dies := rfl
@[simp] theorem State.setQueue_kernels (n : Nat) (x : Queue) : (s.setQueue n x).kernels = s.kernels := rfl
@[simp] theorem State.setQueue_nextKernel (n : Nat) (x : Queue) : (s.setQueue n x).nextKernel = s.nextKernel := rfl
@[simp] theorem State.setQueue_images (n : Nat) (x : Queue) : (s.setQueue n x).images = s.images := rfl
@[simp] theorem State.setQueue_tileImages (n : Nat) (x : Queue) : (s.setQueue n x).tileImages = s.tileImages := rfl
@[simp] theorem State.setQueue_ports (n : Nat) (x : Queue) : (s.setQueue n x).ports = s.ports := rfl
@[simp] theorem State.setQueue_layout (n : Nat) (x : Queue) : (s.setQueue n x).layout = s.layout := rfl
@[simp] theorem State.setQueue_fw (n : Nat) (x : Queue) : (s.setQueue n x).fw = s.fw := rfl
@[simp] theorem State.setQueue_secrets (n : Nat) (x : Queue) : (s.setQueue n x).secrets = s.secrets := rfl
@[simp] theorem State.setQueue_apertures (n : Nat) (x : Queue) : (s.setQueue n x).apertures = s.apertures := rfl
@[simp] theorem State.setQueue_handles (n : Nat) (x : Queue) : (s.setQueue n x).handles = s.handles := rfl
@[simp] theorem State.setQueue_unregistered (n : Nat) (x : Queue) : (s.setQueue n x).unregistered = s.unregistered := rfl
@[simp] theorem State.setQueue_inbound (n : Nat) (x : Queue) : (s.setQueue n x).inbound = s.inbound := rfl
@[simp] theorem State.setQueue_awaited (n : Nat) (x : Queue) : (s.setQueue n x).awaited = s.awaited := rfl
@[simp] theorem State.setQueue_nextWrite (n : Nat) (x : Queue) : (s.setQueue n x).nextWrite = s.nextWrite := rfl
@[simp] theorem State.setQueue_aer (n : Nat) (x : Queue) : (s.setQueue n x).aer = s.aer := rfl
@[simp] theorem State.setQueue_answer (n : Nat) (x : Queue) : (s.setQueue n x).answer = s.answer := rfl
@[simp] theorem State.setQueue_bursts (n : Nat) (x : Queue) : (s.setQueue n x).bursts = s.bursts := rfl
@[simp] theorem State.setQueue_dead (n : Nat) (x : Queue) : (s.setQueue n x).dead = s.dead := rfl
@[simp] theorem State.setQueue_pages (n : Nat) (x : Queue) : (s.setQueue n x).pages = s.pages := rfl
@[simp] theorem State.setQueue_repair (n : Nat) (x : Queue) : (s.setQueue n x).repair = s.repair := rfl
@[simp] theorem State.setQueue_reports (n : Nat) (x : Queue) : (s.setQueue n x).reports = s.reports := rfl
@[simp] theorem State.setQueue_dumps (n : Nat) (x : Queue) : (s.setQueue n x).dumps = s.dumps := rfl
@[simp] theorem State.setQueue_mask (n : Nat) (x : Queue) : (s.setQueue n x).mask = s.mask := rfl
@[simp] theorem State.setQueue_endpoint (n : Nat) (x : Queue) : (s.setQueue n x).endpoint = s.endpoint := rfl
@[simp] theorem State.setQueue_pkg (n : Nat) (x : Queue) : (s.setQueue n x).pkg = s.pkg := rfl
@[simp] theorem State.setQueue_kills (n : Nat) (x : Queue) : (s.setQueue n x).kills = s.kills := rfl
@[simp] theorem State.setQueue_spused (n : Nat) (x : Queue) : (s.setQueue n x).spused = s.spused := rfl
@[simp] theorem State.setQueue_pcdrop (n : Nat) (x : Queue) : (s.setQueue n x).pcdrop = s.pcdrop := rfl
@[simp] theorem State.setQueue_clock (n : Nat) (x : Queue) : (s.setQueue n x).clock = s.clock := rfl
@[simp] theorem State.setQueue_agenda (n : Nat) (x : Queue) : (s.setQueue n x).agenda = s.agenda := rfl
@[simp] theorem State.setQueue_freeCtr (n : Nat) (x : Queue) : (s.setQueue n x).freeCtr = s.freeCtr := rfl
@[simp] theorem State.setQueue_hold (n : Nat) (x : Queue) : (s.setQueue n x).hold = s.hold := rfl

@[simp] theorem State.setChain_core (n : Nat) (x : Chain) : (s.setChain n x).core = s.core := rfl
@[simp] theorem State.setChain_others (n : Nat) (x : Chain) : (s.setChain n x).others = s.others := rfl
@[simp] theorem State.setChain_mem (n : Nat) (x : Chain) : (s.setChain n x).mem = s.mem := rfl
@[simp] theorem State.setChain_labels (n : Nat) (x : Chain) : (s.setChain n x).labels = s.labels := rfl
@[simp] theorem State.setChain_tags (n : Nat) (x : Chain) : (s.setChain n x).tags = s.tags := rfl
@[simp] theorem State.setChain_flights (n : Nat) (x : Chain) : (s.setChain n x).flights = s.flights := rfl
@[simp] theorem State.setChain_signals (n : Nat) (x : Chain) : (s.setChain n x).signals = s.signals := rfl
@[simp] theorem State.setChain_xflights (n : Nat) (x : Chain) : (s.setChain n x).xflights = s.xflights := rfl
@[simp] theorem State.setChain_cardbuf (n : Nat) (x : Chain) : (s.setChain n x).cardbuf = s.cardbuf := rfl
@[simp] theorem State.setChain_parts (n : Nat) (x : Chain) : (s.setChain n x).parts = s.parts := rfl
@[simp] theorem State.setChain_remap (n : Nat) (x : Chain) : (s.setChain n x).remap = s.remap := rfl
@[simp] theorem State.setChain_sweeps (n : Nat) (x : Chain) : (s.setChain n x).sweeps = s.sweeps := rfl
@[simp] theorem State.setChain_sems (n : Nat) (x : Chain) : (s.setChain n x).sems = s.sems := rfl
@[simp] theorem State.setChain_bars (n : Nat) (x : Chain) : (s.setChain n x).bars = s.bars := rfl
@[simp] theorem State.setChain_armed (n : Nat) (x : Chain) : (s.setChain n x).armed = s.armed := rfl
@[simp] theorem State.setChain_waits (n : Nat) (x : Chain) : (s.setChain n x).waits = s.waits := rfl
@[simp] theorem State.setChain_posters (n : Nat) (x : Chain) : (s.setChain n x).posters = s.posters := rfl
@[simp] theorem State.setChain_tiles (n : Nat) (x : Chain) : (s.setChain n x).tiles = s.tiles := rfl
@[simp] theorem State.setChain_missq (n : Nat) (x : Chain) : (s.setChain n x).missq = s.missq := rfl
@[simp] theorem State.setChain_missrr (n : Nat) (x : Chain) : (s.setChain n x).missrr = s.missrr := rfl
@[simp] theorem State.setChain_inflight (n : Nat) (x : Chain) : (s.setChain n x).inflight = s.inflight := rfl
@[simp] theorem State.setChain_queues (n : Nat) (x : Chain) : (s.setChain n x).queues = s.queues := rfl
@[simp] theorem State.setChain_heldq (n : Nat) (x : Chain) : (s.setChain n x).heldq = s.heldq := rfl
@[simp] theorem State.setChain_dies (n : Nat) (x : Chain) : (s.setChain n x).dies = s.dies := rfl
@[simp] theorem State.setChain_kernels (n : Nat) (x : Chain) : (s.setChain n x).kernels = s.kernels := rfl
@[simp] theorem State.setChain_nextKernel (n : Nat) (x : Chain) : (s.setChain n x).nextKernel = s.nextKernel := rfl
@[simp] theorem State.setChain_images (n : Nat) (x : Chain) : (s.setChain n x).images = s.images := rfl
@[simp] theorem State.setChain_tileImages (n : Nat) (x : Chain) : (s.setChain n x).tileImages = s.tileImages := rfl
@[simp] theorem State.setChain_ports (n : Nat) (x : Chain) : (s.setChain n x).ports = s.ports := rfl
@[simp] theorem State.setChain_layout (n : Nat) (x : Chain) : (s.setChain n x).layout = s.layout := rfl
@[simp] theorem State.setChain_fw (n : Nat) (x : Chain) : (s.setChain n x).fw = s.fw := rfl
@[simp] theorem State.setChain_secrets (n : Nat) (x : Chain) : (s.setChain n x).secrets = s.secrets := rfl
@[simp] theorem State.setChain_apertures (n : Nat) (x : Chain) : (s.setChain n x).apertures = s.apertures := rfl
@[simp] theorem State.setChain_handles (n : Nat) (x : Chain) : (s.setChain n x).handles = s.handles := rfl
@[simp] theorem State.setChain_unregistered (n : Nat) (x : Chain) : (s.setChain n x).unregistered = s.unregistered := rfl
@[simp] theorem State.setChain_inbound (n : Nat) (x : Chain) : (s.setChain n x).inbound = s.inbound := rfl
@[simp] theorem State.setChain_awaited (n : Nat) (x : Chain) : (s.setChain n x).awaited = s.awaited := rfl
@[simp] theorem State.setChain_nextWrite (n : Nat) (x : Chain) : (s.setChain n x).nextWrite = s.nextWrite := rfl
@[simp] theorem State.setChain_aer (n : Nat) (x : Chain) : (s.setChain n x).aer = s.aer := rfl
@[simp] theorem State.setChain_answer (n : Nat) (x : Chain) : (s.setChain n x).answer = s.answer := rfl
@[simp] theorem State.setChain_bursts (n : Nat) (x : Chain) : (s.setChain n x).bursts = s.bursts := rfl
@[simp] theorem State.setChain_dead (n : Nat) (x : Chain) : (s.setChain n x).dead = s.dead := rfl
@[simp] theorem State.setChain_pages (n : Nat) (x : Chain) : (s.setChain n x).pages = s.pages := rfl
@[simp] theorem State.setChain_repair (n : Nat) (x : Chain) : (s.setChain n x).repair = s.repair := rfl
@[simp] theorem State.setChain_reports (n : Nat) (x : Chain) : (s.setChain n x).reports = s.reports := rfl
@[simp] theorem State.setChain_dumps (n : Nat) (x : Chain) : (s.setChain n x).dumps = s.dumps := rfl
@[simp] theorem State.setChain_mask (n : Nat) (x : Chain) : (s.setChain n x).mask = s.mask := rfl
@[simp] theorem State.setChain_endpoint (n : Nat) (x : Chain) : (s.setChain n x).endpoint = s.endpoint := rfl
@[simp] theorem State.setChain_pkg (n : Nat) (x : Chain) : (s.setChain n x).pkg = s.pkg := rfl
@[simp] theorem State.setChain_kills (n : Nat) (x : Chain) : (s.setChain n x).kills = s.kills := rfl
@[simp] theorem State.setChain_spused (n : Nat) (x : Chain) : (s.setChain n x).spused = s.spused := rfl
@[simp] theorem State.setChain_pcdrop (n : Nat) (x : Chain) : (s.setChain n x).pcdrop = s.pcdrop := rfl
@[simp] theorem State.setChain_clock (n : Nat) (x : Chain) : (s.setChain n x).clock = s.clock := rfl
@[simp] theorem State.setChain_agenda (n : Nat) (x : Chain) : (s.setChain n x).agenda = s.agenda := rfl
@[simp] theorem State.setChain_freeCtr (n : Nat) (x : Chain) : (s.setChain n x).freeCtr = s.freeCtr := rfl
@[simp] theorem State.setChain_hold (n : Nat) (x : Chain) : (s.setChain n x).hold = s.hold := rfl

@[simp] theorem State.setKernel_core (n : Nat) (x : Kernel) : (s.setKernel n x).core = s.core := rfl
@[simp] theorem State.setKernel_others (n : Nat) (x : Kernel) : (s.setKernel n x).others = s.others := rfl
@[simp] theorem State.setKernel_mem (n : Nat) (x : Kernel) : (s.setKernel n x).mem = s.mem := rfl
@[simp] theorem State.setKernel_labels (n : Nat) (x : Kernel) : (s.setKernel n x).labels = s.labels := rfl
@[simp] theorem State.setKernel_tags (n : Nat) (x : Kernel) : (s.setKernel n x).tags = s.tags := rfl
@[simp] theorem State.setKernel_flights (n : Nat) (x : Kernel) : (s.setKernel n x).flights = s.flights := rfl
@[simp] theorem State.setKernel_signals (n : Nat) (x : Kernel) : (s.setKernel n x).signals = s.signals := rfl
@[simp] theorem State.setKernel_xflights (n : Nat) (x : Kernel) : (s.setKernel n x).xflights = s.xflights := rfl
@[simp] theorem State.setKernel_cardbuf (n : Nat) (x : Kernel) : (s.setKernel n x).cardbuf = s.cardbuf := rfl
@[simp] theorem State.setKernel_parts (n : Nat) (x : Kernel) : (s.setKernel n x).parts = s.parts := rfl
@[simp] theorem State.setKernel_remap (n : Nat) (x : Kernel) : (s.setKernel n x).remap = s.remap := rfl
@[simp] theorem State.setKernel_sweeps (n : Nat) (x : Kernel) : (s.setKernel n x).sweeps = s.sweeps := rfl
@[simp] theorem State.setKernel_sems (n : Nat) (x : Kernel) : (s.setKernel n x).sems = s.sems := rfl
@[simp] theorem State.setKernel_bars (n : Nat) (x : Kernel) : (s.setKernel n x).bars = s.bars := rfl
@[simp] theorem State.setKernel_armed (n : Nat) (x : Kernel) : (s.setKernel n x).armed = s.armed := rfl
@[simp] theorem State.setKernel_waits (n : Nat) (x : Kernel) : (s.setKernel n x).waits = s.waits := rfl
@[simp] theorem State.setKernel_posters (n : Nat) (x : Kernel) : (s.setKernel n x).posters = s.posters := rfl
@[simp] theorem State.setKernel_tiles (n : Nat) (x : Kernel) : (s.setKernel n x).tiles = s.tiles := rfl
@[simp] theorem State.setKernel_missq (n : Nat) (x : Kernel) : (s.setKernel n x).missq = s.missq := rfl
@[simp] theorem State.setKernel_missrr (n : Nat) (x : Kernel) : (s.setKernel n x).missrr = s.missrr := rfl
@[simp] theorem State.setKernel_inflight (n : Nat) (x : Kernel) : (s.setKernel n x).inflight = s.inflight := rfl
@[simp] theorem State.setKernel_queues (n : Nat) (x : Kernel) : (s.setKernel n x).queues = s.queues := rfl
@[simp] theorem State.setKernel_heldq (n : Nat) (x : Kernel) : (s.setKernel n x).heldq = s.heldq := rfl
@[simp] theorem State.setKernel_chains (n : Nat) (x : Kernel) : (s.setKernel n x).chains = s.chains := rfl
@[simp] theorem State.setKernel_dies (n : Nat) (x : Kernel) : (s.setKernel n x).dies = s.dies := rfl
@[simp] theorem State.setKernel_nextKernel (n : Nat) (x : Kernel) : (s.setKernel n x).nextKernel = s.nextKernel := rfl
@[simp] theorem State.setKernel_images (n : Nat) (x : Kernel) : (s.setKernel n x).images = s.images := rfl
@[simp] theorem State.setKernel_tileImages (n : Nat) (x : Kernel) : (s.setKernel n x).tileImages = s.tileImages := rfl
@[simp] theorem State.setKernel_ports (n : Nat) (x : Kernel) : (s.setKernel n x).ports = s.ports := rfl
@[simp] theorem State.setKernel_layout (n : Nat) (x : Kernel) : (s.setKernel n x).layout = s.layout := rfl
@[simp] theorem State.setKernel_fw (n : Nat) (x : Kernel) : (s.setKernel n x).fw = s.fw := rfl
@[simp] theorem State.setKernel_secrets (n : Nat) (x : Kernel) : (s.setKernel n x).secrets = s.secrets := rfl
@[simp] theorem State.setKernel_apertures (n : Nat) (x : Kernel) : (s.setKernel n x).apertures = s.apertures := rfl
@[simp] theorem State.setKernel_handles (n : Nat) (x : Kernel) : (s.setKernel n x).handles = s.handles := rfl
@[simp] theorem State.setKernel_unregistered (n : Nat) (x : Kernel) : (s.setKernel n x).unregistered = s.unregistered := rfl
@[simp] theorem State.setKernel_inbound (n : Nat) (x : Kernel) : (s.setKernel n x).inbound = s.inbound := rfl
@[simp] theorem State.setKernel_awaited (n : Nat) (x : Kernel) : (s.setKernel n x).awaited = s.awaited := rfl
@[simp] theorem State.setKernel_nextWrite (n : Nat) (x : Kernel) : (s.setKernel n x).nextWrite = s.nextWrite := rfl
@[simp] theorem State.setKernel_aer (n : Nat) (x : Kernel) : (s.setKernel n x).aer = s.aer := rfl
@[simp] theorem State.setKernel_answer (n : Nat) (x : Kernel) : (s.setKernel n x).answer = s.answer := rfl
@[simp] theorem State.setKernel_bursts (n : Nat) (x : Kernel) : (s.setKernel n x).bursts = s.bursts := rfl
@[simp] theorem State.setKernel_dead (n : Nat) (x : Kernel) : (s.setKernel n x).dead = s.dead := rfl
@[simp] theorem State.setKernel_pages (n : Nat) (x : Kernel) : (s.setKernel n x).pages = s.pages := rfl
@[simp] theorem State.setKernel_repair (n : Nat) (x : Kernel) : (s.setKernel n x).repair = s.repair := rfl
@[simp] theorem State.setKernel_reports (n : Nat) (x : Kernel) : (s.setKernel n x).reports = s.reports := rfl
@[simp] theorem State.setKernel_dumps (n : Nat) (x : Kernel) : (s.setKernel n x).dumps = s.dumps := rfl
@[simp] theorem State.setKernel_mask (n : Nat) (x : Kernel) : (s.setKernel n x).mask = s.mask := rfl
@[simp] theorem State.setKernel_endpoint (n : Nat) (x : Kernel) : (s.setKernel n x).endpoint = s.endpoint := rfl
@[simp] theorem State.setKernel_pkg (n : Nat) (x : Kernel) : (s.setKernel n x).pkg = s.pkg := rfl
@[simp] theorem State.setKernel_kills (n : Nat) (x : Kernel) : (s.setKernel n x).kills = s.kills := rfl
@[simp] theorem State.setKernel_spused (n : Nat) (x : Kernel) : (s.setKernel n x).spused = s.spused := rfl
@[simp] theorem State.setKernel_pcdrop (n : Nat) (x : Kernel) : (s.setKernel n x).pcdrop = s.pcdrop := rfl
@[simp] theorem State.setKernel_clock (n : Nat) (x : Kernel) : (s.setKernel n x).clock = s.clock := rfl
@[simp] theorem State.setKernel_agenda (n : Nat) (x : Kernel) : (s.setKernel n x).agenda = s.agenda := rfl
@[simp] theorem State.setKernel_freeCtr (n : Nat) (x : Kernel) : (s.setKernel n x).freeCtr = s.freeCtr := rfl
@[simp] theorem State.setKernel_hold (n : Nat) (x : Kernel) : (s.setKernel n x).hold = s.hold := rfl

@[simp] theorem State.setDie_core (n : Nat) (x : Die) : (s.setDie n x).core = s.core := rfl
@[simp] theorem State.setDie_others (n : Nat) (x : Die) : (s.setDie n x).others = s.others := rfl
@[simp] theorem State.setDie_mem (n : Nat) (x : Die) : (s.setDie n x).mem = s.mem := rfl
@[simp] theorem State.setDie_labels (n : Nat) (x : Die) : (s.setDie n x).labels = s.labels := rfl
@[simp] theorem State.setDie_tags (n : Nat) (x : Die) : (s.setDie n x).tags = s.tags := rfl
@[simp] theorem State.setDie_flights (n : Nat) (x : Die) : (s.setDie n x).flights = s.flights := rfl
@[simp] theorem State.setDie_signals (n : Nat) (x : Die) : (s.setDie n x).signals = s.signals := rfl
@[simp] theorem State.setDie_xflights (n : Nat) (x : Die) : (s.setDie n x).xflights = s.xflights := rfl
@[simp] theorem State.setDie_cardbuf (n : Nat) (x : Die) : (s.setDie n x).cardbuf = s.cardbuf := rfl
@[simp] theorem State.setDie_parts (n : Nat) (x : Die) : (s.setDie n x).parts = s.parts := rfl
@[simp] theorem State.setDie_remap (n : Nat) (x : Die) : (s.setDie n x).remap = s.remap := rfl
@[simp] theorem State.setDie_sweeps (n : Nat) (x : Die) : (s.setDie n x).sweeps = s.sweeps := rfl
@[simp] theorem State.setDie_sems (n : Nat) (x : Die) : (s.setDie n x).sems = s.sems := rfl
@[simp] theorem State.setDie_bars (n : Nat) (x : Die) : (s.setDie n x).bars = s.bars := rfl
@[simp] theorem State.setDie_armed (n : Nat) (x : Die) : (s.setDie n x).armed = s.armed := rfl
@[simp] theorem State.setDie_waits (n : Nat) (x : Die) : (s.setDie n x).waits = s.waits := rfl
@[simp] theorem State.setDie_posters (n : Nat) (x : Die) : (s.setDie n x).posters = s.posters := rfl
@[simp] theorem State.setDie_tiles (n : Nat) (x : Die) : (s.setDie n x).tiles = s.tiles := rfl
@[simp] theorem State.setDie_missq (n : Nat) (x : Die) : (s.setDie n x).missq = s.missq := rfl
@[simp] theorem State.setDie_missrr (n : Nat) (x : Die) : (s.setDie n x).missrr = s.missrr := rfl
@[simp] theorem State.setDie_inflight (n : Nat) (x : Die) : (s.setDie n x).inflight = s.inflight := rfl
@[simp] theorem State.setDie_queues (n : Nat) (x : Die) : (s.setDie n x).queues = s.queues := rfl
@[simp] theorem State.setDie_heldq (n : Nat) (x : Die) : (s.setDie n x).heldq = s.heldq := rfl
@[simp] theorem State.setDie_chains (n : Nat) (x : Die) : (s.setDie n x).chains = s.chains := rfl
@[simp] theorem State.setDie_kernels (n : Nat) (x : Die) : (s.setDie n x).kernels = s.kernels := rfl
@[simp] theorem State.setDie_nextKernel (n : Nat) (x : Die) : (s.setDie n x).nextKernel = s.nextKernel := rfl
@[simp] theorem State.setDie_images (n : Nat) (x : Die) : (s.setDie n x).images = s.images := rfl
@[simp] theorem State.setDie_tileImages (n : Nat) (x : Die) : (s.setDie n x).tileImages = s.tileImages := rfl
@[simp] theorem State.setDie_ports (n : Nat) (x : Die) : (s.setDie n x).ports = s.ports := rfl
@[simp] theorem State.setDie_layout (n : Nat) (x : Die) : (s.setDie n x).layout = s.layout := rfl
@[simp] theorem State.setDie_fw (n : Nat) (x : Die) : (s.setDie n x).fw = s.fw := rfl
@[simp] theorem State.setDie_secrets (n : Nat) (x : Die) : (s.setDie n x).secrets = s.secrets := rfl
@[simp] theorem State.setDie_apertures (n : Nat) (x : Die) : (s.setDie n x).apertures = s.apertures := rfl
@[simp] theorem State.setDie_handles (n : Nat) (x : Die) : (s.setDie n x).handles = s.handles := rfl
@[simp] theorem State.setDie_unregistered (n : Nat) (x : Die) : (s.setDie n x).unregistered = s.unregistered := rfl
@[simp] theorem State.setDie_inbound (n : Nat) (x : Die) : (s.setDie n x).inbound = s.inbound := rfl
@[simp] theorem State.setDie_awaited (n : Nat) (x : Die) : (s.setDie n x).awaited = s.awaited := rfl
@[simp] theorem State.setDie_nextWrite (n : Nat) (x : Die) : (s.setDie n x).nextWrite = s.nextWrite := rfl
@[simp] theorem State.setDie_aer (n : Nat) (x : Die) : (s.setDie n x).aer = s.aer := rfl
@[simp] theorem State.setDie_answer (n : Nat) (x : Die) : (s.setDie n x).answer = s.answer := rfl
@[simp] theorem State.setDie_bursts (n : Nat) (x : Die) : (s.setDie n x).bursts = s.bursts := rfl
@[simp] theorem State.setDie_dead (n : Nat) (x : Die) : (s.setDie n x).dead = s.dead := rfl
@[simp] theorem State.setDie_pages (n : Nat) (x : Die) : (s.setDie n x).pages = s.pages := rfl
@[simp] theorem State.setDie_repair (n : Nat) (x : Die) : (s.setDie n x).repair = s.repair := rfl
@[simp] theorem State.setDie_reports (n : Nat) (x : Die) : (s.setDie n x).reports = s.reports := rfl
@[simp] theorem State.setDie_dumps (n : Nat) (x : Die) : (s.setDie n x).dumps = s.dumps := rfl
@[simp] theorem State.setDie_mask (n : Nat) (x : Die) : (s.setDie n x).mask = s.mask := rfl
@[simp] theorem State.setDie_endpoint (n : Nat) (x : Die) : (s.setDie n x).endpoint = s.endpoint := rfl
@[simp] theorem State.setDie_pkg (n : Nat) (x : Die) : (s.setDie n x).pkg = s.pkg := rfl
@[simp] theorem State.setDie_kills (n : Nat) (x : Die) : (s.setDie n x).kills = s.kills := rfl
@[simp] theorem State.setDie_spused (n : Nat) (x : Die) : (s.setDie n x).spused = s.spused := rfl
@[simp] theorem State.setDie_pcdrop (n : Nat) (x : Die) : (s.setDie n x).pcdrop = s.pcdrop := rfl
@[simp] theorem State.setDie_clock (n : Nat) (x : Die) : (s.setDie n x).clock = s.clock := rfl
@[simp] theorem State.setDie_agenda (n : Nat) (x : Die) : (s.setDie n x).agenda = s.agenda := rfl
@[simp] theorem State.setDie_freeCtr (n : Nat) (x : Die) : (s.setDie n x).freeCtr = s.freeCtr := rfl
@[simp] theorem State.setDie_hold (n : Nat) (x : Die) : (s.setDie n x).hold = s.hold := rfl

@[simp] theorem State.setPart_core (n : Nat) (x : Part) : (s.setPart n x).core = s.core := rfl
@[simp] theorem State.setPart_others (n : Nat) (x : Part) : (s.setPart n x).others = s.others := rfl
@[simp] theorem State.setPart_mem (n : Nat) (x : Part) : (s.setPart n x).mem = s.mem := rfl
@[simp] theorem State.setPart_labels (n : Nat) (x : Part) : (s.setPart n x).labels = s.labels := rfl
@[simp] theorem State.setPart_tags (n : Nat) (x : Part) : (s.setPart n x).tags = s.tags := rfl
@[simp] theorem State.setPart_flights (n : Nat) (x : Part) : (s.setPart n x).flights = s.flights := rfl
@[simp] theorem State.setPart_signals (n : Nat) (x : Part) : (s.setPart n x).signals = s.signals := rfl
@[simp] theorem State.setPart_xflights (n : Nat) (x : Part) : (s.setPart n x).xflights = s.xflights := rfl
@[simp] theorem State.setPart_cardbuf (n : Nat) (x : Part) : (s.setPart n x).cardbuf = s.cardbuf := rfl
@[simp] theorem State.setPart_remap (n : Nat) (x : Part) : (s.setPart n x).remap = s.remap := rfl
@[simp] theorem State.setPart_sweeps (n : Nat) (x : Part) : (s.setPart n x).sweeps = s.sweeps := rfl
@[simp] theorem State.setPart_sems (n : Nat) (x : Part) : (s.setPart n x).sems = s.sems := rfl
@[simp] theorem State.setPart_bars (n : Nat) (x : Part) : (s.setPart n x).bars = s.bars := rfl
@[simp] theorem State.setPart_armed (n : Nat) (x : Part) : (s.setPart n x).armed = s.armed := rfl
@[simp] theorem State.setPart_waits (n : Nat) (x : Part) : (s.setPart n x).waits = s.waits := rfl
@[simp] theorem State.setPart_posters (n : Nat) (x : Part) : (s.setPart n x).posters = s.posters := rfl
@[simp] theorem State.setPart_tiles (n : Nat) (x : Part) : (s.setPart n x).tiles = s.tiles := rfl
@[simp] theorem State.setPart_missq (n : Nat) (x : Part) : (s.setPart n x).missq = s.missq := rfl
@[simp] theorem State.setPart_missrr (n : Nat) (x : Part) : (s.setPart n x).missrr = s.missrr := rfl
@[simp] theorem State.setPart_inflight (n : Nat) (x : Part) : (s.setPart n x).inflight = s.inflight := rfl
@[simp] theorem State.setPart_queues (n : Nat) (x : Part) : (s.setPart n x).queues = s.queues := rfl
@[simp] theorem State.setPart_heldq (n : Nat) (x : Part) : (s.setPart n x).heldq = s.heldq := rfl
@[simp] theorem State.setPart_chains (n : Nat) (x : Part) : (s.setPart n x).chains = s.chains := rfl
@[simp] theorem State.setPart_dies (n : Nat) (x : Part) : (s.setPart n x).dies = s.dies := rfl
@[simp] theorem State.setPart_kernels (n : Nat) (x : Part) : (s.setPart n x).kernels = s.kernels := rfl
@[simp] theorem State.setPart_nextKernel (n : Nat) (x : Part) : (s.setPart n x).nextKernel = s.nextKernel := rfl
@[simp] theorem State.setPart_images (n : Nat) (x : Part) : (s.setPart n x).images = s.images := rfl
@[simp] theorem State.setPart_tileImages (n : Nat) (x : Part) : (s.setPart n x).tileImages = s.tileImages := rfl
@[simp] theorem State.setPart_ports (n : Nat) (x : Part) : (s.setPart n x).ports = s.ports := rfl
@[simp] theorem State.setPart_layout (n : Nat) (x : Part) : (s.setPart n x).layout = s.layout := rfl
@[simp] theorem State.setPart_fw (n : Nat) (x : Part) : (s.setPart n x).fw = s.fw := rfl
@[simp] theorem State.setPart_secrets (n : Nat) (x : Part) : (s.setPart n x).secrets = s.secrets := rfl
@[simp] theorem State.setPart_apertures (n : Nat) (x : Part) : (s.setPart n x).apertures = s.apertures := rfl
@[simp] theorem State.setPart_handles (n : Nat) (x : Part) : (s.setPart n x).handles = s.handles := rfl
@[simp] theorem State.setPart_unregistered (n : Nat) (x : Part) : (s.setPart n x).unregistered = s.unregistered := rfl
@[simp] theorem State.setPart_inbound (n : Nat) (x : Part) : (s.setPart n x).inbound = s.inbound := rfl
@[simp] theorem State.setPart_awaited (n : Nat) (x : Part) : (s.setPart n x).awaited = s.awaited := rfl
@[simp] theorem State.setPart_nextWrite (n : Nat) (x : Part) : (s.setPart n x).nextWrite = s.nextWrite := rfl
@[simp] theorem State.setPart_aer (n : Nat) (x : Part) : (s.setPart n x).aer = s.aer := rfl
@[simp] theorem State.setPart_answer (n : Nat) (x : Part) : (s.setPart n x).answer = s.answer := rfl
@[simp] theorem State.setPart_bursts (n : Nat) (x : Part) : (s.setPart n x).bursts = s.bursts := rfl
@[simp] theorem State.setPart_dead (n : Nat) (x : Part) : (s.setPart n x).dead = s.dead := rfl
@[simp] theorem State.setPart_pages (n : Nat) (x : Part) : (s.setPart n x).pages = s.pages := rfl
@[simp] theorem State.setPart_repair (n : Nat) (x : Part) : (s.setPart n x).repair = s.repair := rfl
@[simp] theorem State.setPart_reports (n : Nat) (x : Part) : (s.setPart n x).reports = s.reports := rfl
@[simp] theorem State.setPart_dumps (n : Nat) (x : Part) : (s.setPart n x).dumps = s.dumps := rfl
@[simp] theorem State.setPart_mask (n : Nat) (x : Part) : (s.setPart n x).mask = s.mask := rfl
@[simp] theorem State.setPart_endpoint (n : Nat) (x : Part) : (s.setPart n x).endpoint = s.endpoint := rfl
@[simp] theorem State.setPart_pkg (n : Nat) (x : Part) : (s.setPart n x).pkg = s.pkg := rfl
@[simp] theorem State.setPart_kills (n : Nat) (x : Part) : (s.setPart n x).kills = s.kills := rfl
@[simp] theorem State.setPart_spused (n : Nat) (x : Part) : (s.setPart n x).spused = s.spused := rfl
@[simp] theorem State.setPart_pcdrop (n : Nat) (x : Part) : (s.setPart n x).pcdrop = s.pcdrop := rfl
@[simp] theorem State.setPart_clock (n : Nat) (x : Part) : (s.setPart n x).clock = s.clock := rfl
@[simp] theorem State.setPart_agenda (n : Nat) (x : Part) : (s.setPart n x).agenda = s.agenda := rfl
@[simp] theorem State.setPart_freeCtr (n : Nat) (x : Part) : (s.setPart n x).freeCtr = s.freeCtr := rfl
@[simp] theorem State.setPart_hold (n : Nat) (x : Part) : (s.setPart n x).hold = s.hold := rfl

@[simp] theorem State.setPort_core (n : Nat) (x : KPort) : (s.setPort n x).core = s.core := rfl
@[simp] theorem State.setPort_others (n : Nat) (x : KPort) : (s.setPort n x).others = s.others := rfl
@[simp] theorem State.setPort_mem (n : Nat) (x : KPort) : (s.setPort n x).mem = s.mem := rfl
@[simp] theorem State.setPort_labels (n : Nat) (x : KPort) : (s.setPort n x).labels = s.labels := rfl
@[simp] theorem State.setPort_tags (n : Nat) (x : KPort) : (s.setPort n x).tags = s.tags := rfl
@[simp] theorem State.setPort_flights (n : Nat) (x : KPort) : (s.setPort n x).flights = s.flights := rfl
@[simp] theorem State.setPort_signals (n : Nat) (x : KPort) : (s.setPort n x).signals = s.signals := rfl
@[simp] theorem State.setPort_xflights (n : Nat) (x : KPort) : (s.setPort n x).xflights = s.xflights := rfl
@[simp] theorem State.setPort_cardbuf (n : Nat) (x : KPort) : (s.setPort n x).cardbuf = s.cardbuf := rfl
@[simp] theorem State.setPort_parts (n : Nat) (x : KPort) : (s.setPort n x).parts = s.parts := rfl
@[simp] theorem State.setPort_remap (n : Nat) (x : KPort) : (s.setPort n x).remap = s.remap := rfl
@[simp] theorem State.setPort_sweeps (n : Nat) (x : KPort) : (s.setPort n x).sweeps = s.sweeps := rfl
@[simp] theorem State.setPort_sems (n : Nat) (x : KPort) : (s.setPort n x).sems = s.sems := rfl
@[simp] theorem State.setPort_bars (n : Nat) (x : KPort) : (s.setPort n x).bars = s.bars := rfl
@[simp] theorem State.setPort_armed (n : Nat) (x : KPort) : (s.setPort n x).armed = s.armed := rfl
@[simp] theorem State.setPort_waits (n : Nat) (x : KPort) : (s.setPort n x).waits = s.waits := rfl
@[simp] theorem State.setPort_posters (n : Nat) (x : KPort) : (s.setPort n x).posters = s.posters := rfl
@[simp] theorem State.setPort_tiles (n : Nat) (x : KPort) : (s.setPort n x).tiles = s.tiles := rfl
@[simp] theorem State.setPort_missq (n : Nat) (x : KPort) : (s.setPort n x).missq = s.missq := rfl
@[simp] theorem State.setPort_missrr (n : Nat) (x : KPort) : (s.setPort n x).missrr = s.missrr := rfl
@[simp] theorem State.setPort_inflight (n : Nat) (x : KPort) : (s.setPort n x).inflight = s.inflight := rfl
@[simp] theorem State.setPort_queues (n : Nat) (x : KPort) : (s.setPort n x).queues = s.queues := rfl
@[simp] theorem State.setPort_heldq (n : Nat) (x : KPort) : (s.setPort n x).heldq = s.heldq := rfl
@[simp] theorem State.setPort_chains (n : Nat) (x : KPort) : (s.setPort n x).chains = s.chains := rfl
@[simp] theorem State.setPort_dies (n : Nat) (x : KPort) : (s.setPort n x).dies = s.dies := rfl
@[simp] theorem State.setPort_kernels (n : Nat) (x : KPort) : (s.setPort n x).kernels = s.kernels := rfl
@[simp] theorem State.setPort_nextKernel (n : Nat) (x : KPort) : (s.setPort n x).nextKernel = s.nextKernel := rfl
@[simp] theorem State.setPort_images (n : Nat) (x : KPort) : (s.setPort n x).images = s.images := rfl
@[simp] theorem State.setPort_tileImages (n : Nat) (x : KPort) : (s.setPort n x).tileImages = s.tileImages := rfl
@[simp] theorem State.setPort_layout (n : Nat) (x : KPort) : (s.setPort n x).layout = s.layout := rfl
@[simp] theorem State.setPort_fw (n : Nat) (x : KPort) : (s.setPort n x).fw = s.fw := rfl
@[simp] theorem State.setPort_secrets (n : Nat) (x : KPort) : (s.setPort n x).secrets = s.secrets := rfl
@[simp] theorem State.setPort_apertures (n : Nat) (x : KPort) : (s.setPort n x).apertures = s.apertures := rfl
@[simp] theorem State.setPort_handles (n : Nat) (x : KPort) : (s.setPort n x).handles = s.handles := rfl
@[simp] theorem State.setPort_unregistered (n : Nat) (x : KPort) : (s.setPort n x).unregistered = s.unregistered := rfl
@[simp] theorem State.setPort_inbound (n : Nat) (x : KPort) : (s.setPort n x).inbound = s.inbound := rfl
@[simp] theorem State.setPort_awaited (n : Nat) (x : KPort) : (s.setPort n x).awaited = s.awaited := rfl
@[simp] theorem State.setPort_nextWrite (n : Nat) (x : KPort) : (s.setPort n x).nextWrite = s.nextWrite := rfl
@[simp] theorem State.setPort_aer (n : Nat) (x : KPort) : (s.setPort n x).aer = s.aer := rfl
@[simp] theorem State.setPort_answer (n : Nat) (x : KPort) : (s.setPort n x).answer = s.answer := rfl
@[simp] theorem State.setPort_bursts (n : Nat) (x : KPort) : (s.setPort n x).bursts = s.bursts := rfl
@[simp] theorem State.setPort_dead (n : Nat) (x : KPort) : (s.setPort n x).dead = s.dead := rfl
@[simp] theorem State.setPort_pages (n : Nat) (x : KPort) : (s.setPort n x).pages = s.pages := rfl
@[simp] theorem State.setPort_repair (n : Nat) (x : KPort) : (s.setPort n x).repair = s.repair := rfl
@[simp] theorem State.setPort_reports (n : Nat) (x : KPort) : (s.setPort n x).reports = s.reports := rfl
@[simp] theorem State.setPort_dumps (n : Nat) (x : KPort) : (s.setPort n x).dumps = s.dumps := rfl
@[simp] theorem State.setPort_mask (n : Nat) (x : KPort) : (s.setPort n x).mask = s.mask := rfl
@[simp] theorem State.setPort_endpoint (n : Nat) (x : KPort) : (s.setPort n x).endpoint = s.endpoint := rfl
@[simp] theorem State.setPort_pkg (n : Nat) (x : KPort) : (s.setPort n x).pkg = s.pkg := rfl
@[simp] theorem State.setPort_kills (n : Nat) (x : KPort) : (s.setPort n x).kills = s.kills := rfl
@[simp] theorem State.setPort_spused (n : Nat) (x : KPort) : (s.setPort n x).spused = s.spused := rfl
@[simp] theorem State.setPort_pcdrop (n : Nat) (x : KPort) : (s.setPort n x).pcdrop = s.pcdrop := rfl
@[simp] theorem State.setPort_clock (n : Nat) (x : KPort) : (s.setPort n x).clock = s.clock := rfl
@[simp] theorem State.setPort_agenda (n : Nat) (x : KPort) : (s.setPort n x).agenda = s.agenda := rfl
@[simp] theorem State.setPort_freeCtr (n : Nat) (x : KPort) : (s.setPort n x).freeCtr = s.freeCtr := rfl
@[simp] theorem State.setPort_hold (n : Nat) (x : KPort) : (s.setPort n x).hold = s.hold := rfl

@[simp] theorem State.setBuf_core (k : Nat) (ws : List FarWrite) : (s.setBuf k ws).core = s.core := rfl
@[simp] theorem State.setBuf_others (k : Nat) (ws : List FarWrite) : (s.setBuf k ws).others = s.others := rfl
@[simp] theorem State.setBuf_mem (k : Nat) (ws : List FarWrite) : (s.setBuf k ws).mem = s.mem := rfl
@[simp] theorem State.setBuf_labels (k : Nat) (ws : List FarWrite) : (s.setBuf k ws).labels = s.labels := rfl
@[simp] theorem State.setBuf_tags (k : Nat) (ws : List FarWrite) : (s.setBuf k ws).tags = s.tags := rfl
@[simp] theorem State.setBuf_flights (k : Nat) (ws : List FarWrite) : (s.setBuf k ws).flights = s.flights := rfl
@[simp] theorem State.setBuf_signals (k : Nat) (ws : List FarWrite) : (s.setBuf k ws).signals = s.signals := rfl
@[simp] theorem State.setBuf_xflights (k : Nat) (ws : List FarWrite) : (s.setBuf k ws).xflights = s.xflights := rfl
@[simp] theorem State.setBuf_parts (k : Nat) (ws : List FarWrite) : (s.setBuf k ws).parts = s.parts := rfl
@[simp] theorem State.setBuf_remap (k : Nat) (ws : List FarWrite) : (s.setBuf k ws).remap = s.remap := rfl
@[simp] theorem State.setBuf_sweeps (k : Nat) (ws : List FarWrite) : (s.setBuf k ws).sweeps = s.sweeps := rfl
@[simp] theorem State.setBuf_sems (k : Nat) (ws : List FarWrite) : (s.setBuf k ws).sems = s.sems := rfl
@[simp] theorem State.setBuf_bars (k : Nat) (ws : List FarWrite) : (s.setBuf k ws).bars = s.bars := rfl
@[simp] theorem State.setBuf_armed (k : Nat) (ws : List FarWrite) : (s.setBuf k ws).armed = s.armed := rfl
@[simp] theorem State.setBuf_waits (k : Nat) (ws : List FarWrite) : (s.setBuf k ws).waits = s.waits := rfl
@[simp] theorem State.setBuf_posters (k : Nat) (ws : List FarWrite) : (s.setBuf k ws).posters = s.posters := rfl
@[simp] theorem State.setBuf_tiles (k : Nat) (ws : List FarWrite) : (s.setBuf k ws).tiles = s.tiles := rfl
@[simp] theorem State.setBuf_missq (k : Nat) (ws : List FarWrite) : (s.setBuf k ws).missq = s.missq := rfl
@[simp] theorem State.setBuf_missrr (k : Nat) (ws : List FarWrite) : (s.setBuf k ws).missrr = s.missrr := rfl
@[simp] theorem State.setBuf_inflight (k : Nat) (ws : List FarWrite) : (s.setBuf k ws).inflight = s.inflight := rfl
@[simp] theorem State.setBuf_queues (k : Nat) (ws : List FarWrite) : (s.setBuf k ws).queues = s.queues := rfl
@[simp] theorem State.setBuf_heldq (k : Nat) (ws : List FarWrite) : (s.setBuf k ws).heldq = s.heldq := rfl
@[simp] theorem State.setBuf_chains (k : Nat) (ws : List FarWrite) : (s.setBuf k ws).chains = s.chains := rfl
@[simp] theorem State.setBuf_dies (k : Nat) (ws : List FarWrite) : (s.setBuf k ws).dies = s.dies := rfl
@[simp] theorem State.setBuf_kernels (k : Nat) (ws : List FarWrite) : (s.setBuf k ws).kernels = s.kernels := rfl
@[simp] theorem State.setBuf_nextKernel (k : Nat) (ws : List FarWrite) : (s.setBuf k ws).nextKernel = s.nextKernel := rfl
@[simp] theorem State.setBuf_images (k : Nat) (ws : List FarWrite) : (s.setBuf k ws).images = s.images := rfl
@[simp] theorem State.setBuf_tileImages (k : Nat) (ws : List FarWrite) : (s.setBuf k ws).tileImages = s.tileImages := rfl
@[simp] theorem State.setBuf_ports (k : Nat) (ws : List FarWrite) : (s.setBuf k ws).ports = s.ports := rfl
@[simp] theorem State.setBuf_layout (k : Nat) (ws : List FarWrite) : (s.setBuf k ws).layout = s.layout := rfl
@[simp] theorem State.setBuf_fw (k : Nat) (ws : List FarWrite) : (s.setBuf k ws).fw = s.fw := rfl
@[simp] theorem State.setBuf_secrets (k : Nat) (ws : List FarWrite) : (s.setBuf k ws).secrets = s.secrets := rfl
@[simp] theorem State.setBuf_apertures (k : Nat) (ws : List FarWrite) : (s.setBuf k ws).apertures = s.apertures := rfl
@[simp] theorem State.setBuf_handles (k : Nat) (ws : List FarWrite) : (s.setBuf k ws).handles = s.handles := rfl
@[simp] theorem State.setBuf_unregistered (k : Nat) (ws : List FarWrite) : (s.setBuf k ws).unregistered = s.unregistered := rfl
@[simp] theorem State.setBuf_inbound (k : Nat) (ws : List FarWrite) : (s.setBuf k ws).inbound = s.inbound := rfl
@[simp] theorem State.setBuf_awaited (k : Nat) (ws : List FarWrite) : (s.setBuf k ws).awaited = s.awaited := rfl
@[simp] theorem State.setBuf_nextWrite (k : Nat) (ws : List FarWrite) : (s.setBuf k ws).nextWrite = s.nextWrite := rfl
@[simp] theorem State.setBuf_aer (k : Nat) (ws : List FarWrite) : (s.setBuf k ws).aer = s.aer := rfl
@[simp] theorem State.setBuf_answer (k : Nat) (ws : List FarWrite) : (s.setBuf k ws).answer = s.answer := rfl
@[simp] theorem State.setBuf_bursts (k : Nat) (ws : List FarWrite) : (s.setBuf k ws).bursts = s.bursts := rfl
@[simp] theorem State.setBuf_dead (k : Nat) (ws : List FarWrite) : (s.setBuf k ws).dead = s.dead := rfl
@[simp] theorem State.setBuf_pages (k : Nat) (ws : List FarWrite) : (s.setBuf k ws).pages = s.pages := rfl
@[simp] theorem State.setBuf_repair (k : Nat) (ws : List FarWrite) : (s.setBuf k ws).repair = s.repair := rfl
@[simp] theorem State.setBuf_reports (k : Nat) (ws : List FarWrite) : (s.setBuf k ws).reports = s.reports := rfl
@[simp] theorem State.setBuf_dumps (k : Nat) (ws : List FarWrite) : (s.setBuf k ws).dumps = s.dumps := rfl
@[simp] theorem State.setBuf_mask (k : Nat) (ws : List FarWrite) : (s.setBuf k ws).mask = s.mask := rfl
@[simp] theorem State.setBuf_endpoint (k : Nat) (ws : List FarWrite) : (s.setBuf k ws).endpoint = s.endpoint := rfl
@[simp] theorem State.setBuf_pkg (k : Nat) (ws : List FarWrite) : (s.setBuf k ws).pkg = s.pkg := rfl
@[simp] theorem State.setBuf_kills (k : Nat) (ws : List FarWrite) : (s.setBuf k ws).kills = s.kills := rfl
@[simp] theorem State.setBuf_spused (k : Nat) (ws : List FarWrite) : (s.setBuf k ws).spused = s.spused := rfl
@[simp] theorem State.setBuf_pcdrop (k : Nat) (ws : List FarWrite) : (s.setBuf k ws).pcdrop = s.pcdrop := rfl
@[simp] theorem State.setBuf_clock (k : Nat) (ws : List FarWrite) : (s.setBuf k ws).clock = s.clock := rfl
@[simp] theorem State.setBuf_agenda (k : Nat) (ws : List FarWrite) : (s.setBuf k ws).agenda = s.agenda := rfl
@[simp] theorem State.setBuf_freeCtr (k : Nat) (ws : List FarWrite) : (s.setBuf k ws).freeCtr = s.freeCtr := rfl
@[simp] theorem State.setBuf_hold (k : Nat) (ws : List FarWrite) : (s.setBuf k ws).hold = s.hold := rfl

@[simp] theorem State.answers_core (x : Answer) : (s.answers x).core = s.core := rfl
@[simp] theorem State.answers_others (x : Answer) : (s.answers x).others = s.others := rfl
@[simp] theorem State.answers_mem (x : Answer) : (s.answers x).mem = s.mem := rfl
@[simp] theorem State.answers_labels (x : Answer) : (s.answers x).labels = s.labels := rfl
@[simp] theorem State.answers_tags (x : Answer) : (s.answers x).tags = s.tags := rfl
@[simp] theorem State.answers_flights (x : Answer) : (s.answers x).flights = s.flights := rfl
@[simp] theorem State.answers_signals (x : Answer) : (s.answers x).signals = s.signals := rfl
@[simp] theorem State.answers_xflights (x : Answer) : (s.answers x).xflights = s.xflights := rfl
@[simp] theorem State.answers_cardbuf (x : Answer) : (s.answers x).cardbuf = s.cardbuf := rfl
@[simp] theorem State.answers_parts (x : Answer) : (s.answers x).parts = s.parts := rfl
@[simp] theorem State.answers_remap (x : Answer) : (s.answers x).remap = s.remap := rfl
@[simp] theorem State.answers_sweeps (x : Answer) : (s.answers x).sweeps = s.sweeps := rfl
@[simp] theorem State.answers_sems (x : Answer) : (s.answers x).sems = s.sems := rfl
@[simp] theorem State.answers_bars (x : Answer) : (s.answers x).bars = s.bars := rfl
@[simp] theorem State.answers_armed (x : Answer) : (s.answers x).armed = s.armed := rfl
@[simp] theorem State.answers_waits (x : Answer) : (s.answers x).waits = s.waits := rfl
@[simp] theorem State.answers_posters (x : Answer) : (s.answers x).posters = s.posters := rfl
@[simp] theorem State.answers_tiles (x : Answer) : (s.answers x).tiles = s.tiles := rfl
@[simp] theorem State.answers_missq (x : Answer) : (s.answers x).missq = s.missq := rfl
@[simp] theorem State.answers_missrr (x : Answer) : (s.answers x).missrr = s.missrr := rfl
@[simp] theorem State.answers_inflight (x : Answer) : (s.answers x).inflight = s.inflight := rfl
@[simp] theorem State.answers_queues (x : Answer) : (s.answers x).queues = s.queues := rfl
@[simp] theorem State.answers_heldq (x : Answer) : (s.answers x).heldq = s.heldq := rfl
@[simp] theorem State.answers_chains (x : Answer) : (s.answers x).chains = s.chains := rfl
@[simp] theorem State.answers_dies (x : Answer) : (s.answers x).dies = s.dies := rfl
@[simp] theorem State.answers_kernels (x : Answer) : (s.answers x).kernels = s.kernels := rfl
@[simp] theorem State.answers_nextKernel (x : Answer) : (s.answers x).nextKernel = s.nextKernel := rfl
@[simp] theorem State.answers_images (x : Answer) : (s.answers x).images = s.images := rfl
@[simp] theorem State.answers_tileImages (x : Answer) : (s.answers x).tileImages = s.tileImages := rfl
@[simp] theorem State.answers_ports (x : Answer) : (s.answers x).ports = s.ports := rfl
@[simp] theorem State.answers_layout (x : Answer) : (s.answers x).layout = s.layout := rfl
@[simp] theorem State.answers_fw (x : Answer) : (s.answers x).fw = s.fw := rfl
@[simp] theorem State.answers_secrets (x : Answer) : (s.answers x).secrets = s.secrets := rfl
@[simp] theorem State.answers_apertures (x : Answer) : (s.answers x).apertures = s.apertures := rfl
@[simp] theorem State.answers_handles (x : Answer) : (s.answers x).handles = s.handles := rfl
@[simp] theorem State.answers_unregistered (x : Answer) : (s.answers x).unregistered = s.unregistered := rfl
@[simp] theorem State.answers_inbound (x : Answer) : (s.answers x).inbound = s.inbound := rfl
@[simp] theorem State.answers_awaited (x : Answer) : (s.answers x).awaited = s.awaited := rfl
@[simp] theorem State.answers_nextWrite (x : Answer) : (s.answers x).nextWrite = s.nextWrite := rfl
@[simp] theorem State.answers_aer (x : Answer) : (s.answers x).aer = s.aer := rfl
@[simp] theorem State.answers_bursts (x : Answer) : (s.answers x).bursts = s.bursts := rfl
@[simp] theorem State.answers_dead (x : Answer) : (s.answers x).dead = s.dead := rfl
@[simp] theorem State.answers_pages (x : Answer) : (s.answers x).pages = s.pages := rfl
@[simp] theorem State.answers_repair (x : Answer) : (s.answers x).repair = s.repair := rfl
@[simp] theorem State.answers_reports (x : Answer) : (s.answers x).reports = s.reports := rfl
@[simp] theorem State.answers_dumps (x : Answer) : (s.answers x).dumps = s.dumps := rfl
@[simp] theorem State.answers_mask (x : Answer) : (s.answers x).mask = s.mask := rfl
@[simp] theorem State.answers_endpoint (x : Answer) : (s.answers x).endpoint = s.endpoint := rfl
@[simp] theorem State.answers_pkg (x : Answer) : (s.answers x).pkg = s.pkg := rfl
@[simp] theorem State.answers_kills (x : Answer) : (s.answers x).kills = s.kills := rfl
@[simp] theorem State.answers_spused (x : Answer) : (s.answers x).spused = s.spused := rfl
@[simp] theorem State.answers_pcdrop (x : Answer) : (s.answers x).pcdrop = s.pcdrop := rfl
@[simp] theorem State.answers_clock (x : Answer) : (s.answers x).clock = s.clock := rfl
@[simp] theorem State.answers_agenda (x : Answer) : (s.answers x).agenda = s.agenda := rfl
@[simp] theorem State.answers_freeCtr (x : Answer) : (s.answers x).freeCtr = s.freeCtr := rfl
@[simp] theorem State.answers_hold (x : Answer) : (s.answers x).hold = s.hold := rfl

@[simp] theorem State.setCoreAt_mem (p : Nat) (c : Core) : (s.setCoreAt p c).mem = s.mem := by unfold State.setCoreAt; split <;> rfl
@[simp] theorem State.setCoreAt_labels (p : Nat) (c : Core) : (s.setCoreAt p c).labels = s.labels := by unfold State.setCoreAt; split <;> rfl
@[simp] theorem State.setCoreAt_tags (p : Nat) (c : Core) : (s.setCoreAt p c).tags = s.tags := by unfold State.setCoreAt; split <;> rfl
@[simp] theorem State.setCoreAt_flights (p : Nat) (c : Core) : (s.setCoreAt p c).flights = s.flights := by unfold State.setCoreAt; split <;> rfl
@[simp] theorem State.setCoreAt_signals (p : Nat) (c : Core) : (s.setCoreAt p c).signals = s.signals := by unfold State.setCoreAt; split <;> rfl
@[simp] theorem State.setCoreAt_xflights (p : Nat) (c : Core) : (s.setCoreAt p c).xflights = s.xflights := by unfold State.setCoreAt; split <;> rfl
@[simp] theorem State.setCoreAt_cardbuf (p : Nat) (c : Core) : (s.setCoreAt p c).cardbuf = s.cardbuf := by unfold State.setCoreAt; split <;> rfl
@[simp] theorem State.setCoreAt_parts (p : Nat) (c : Core) : (s.setCoreAt p c).parts = s.parts := by unfold State.setCoreAt; split <;> rfl
@[simp] theorem State.setCoreAt_remap (p : Nat) (c : Core) : (s.setCoreAt p c).remap = s.remap := by unfold State.setCoreAt; split <;> rfl
@[simp] theorem State.setCoreAt_sweeps (p : Nat) (c : Core) : (s.setCoreAt p c).sweeps = s.sweeps := by unfold State.setCoreAt; split <;> rfl
@[simp] theorem State.setCoreAt_sems (p : Nat) (c : Core) : (s.setCoreAt p c).sems = s.sems := by unfold State.setCoreAt; split <;> rfl
@[simp] theorem State.setCoreAt_bars (p : Nat) (c : Core) : (s.setCoreAt p c).bars = s.bars := by unfold State.setCoreAt; split <;> rfl
@[simp] theorem State.setCoreAt_armed (p : Nat) (c : Core) : (s.setCoreAt p c).armed = s.armed := by unfold State.setCoreAt; split <;> rfl
@[simp] theorem State.setCoreAt_waits (p : Nat) (c : Core) : (s.setCoreAt p c).waits = s.waits := by unfold State.setCoreAt; split <;> rfl
@[simp] theorem State.setCoreAt_posters (p : Nat) (c : Core) : (s.setCoreAt p c).posters = s.posters := by unfold State.setCoreAt; split <;> rfl
@[simp] theorem State.setCoreAt_tiles (p : Nat) (c : Core) : (s.setCoreAt p c).tiles = s.tiles := by unfold State.setCoreAt; split <;> rfl
@[simp] theorem State.setCoreAt_missq (p : Nat) (c : Core) : (s.setCoreAt p c).missq = s.missq := by unfold State.setCoreAt; split <;> rfl
@[simp] theorem State.setCoreAt_missrr (p : Nat) (c : Core) : (s.setCoreAt p c).missrr = s.missrr := by unfold State.setCoreAt; split <;> rfl
@[simp] theorem State.setCoreAt_inflight (p : Nat) (c : Core) : (s.setCoreAt p c).inflight = s.inflight := by unfold State.setCoreAt; split <;> rfl
@[simp] theorem State.setCoreAt_queues (p : Nat) (c : Core) : (s.setCoreAt p c).queues = s.queues := by unfold State.setCoreAt; split <;> rfl
@[simp] theorem State.setCoreAt_heldq (p : Nat) (c : Core) : (s.setCoreAt p c).heldq = s.heldq := by unfold State.setCoreAt; split <;> rfl
@[simp] theorem State.setCoreAt_chains (p : Nat) (c : Core) : (s.setCoreAt p c).chains = s.chains := by unfold State.setCoreAt; split <;> rfl
@[simp] theorem State.setCoreAt_dies (p : Nat) (c : Core) : (s.setCoreAt p c).dies = s.dies := by unfold State.setCoreAt; split <;> rfl
@[simp] theorem State.setCoreAt_kernels (p : Nat) (c : Core) : (s.setCoreAt p c).kernels = s.kernels := by unfold State.setCoreAt; split <;> rfl
@[simp] theorem State.setCoreAt_nextKernel (p : Nat) (c : Core) : (s.setCoreAt p c).nextKernel = s.nextKernel := by unfold State.setCoreAt; split <;> rfl
@[simp] theorem State.setCoreAt_images (p : Nat) (c : Core) : (s.setCoreAt p c).images = s.images := by unfold State.setCoreAt; split <;> rfl
@[simp] theorem State.setCoreAt_tileImages (p : Nat) (c : Core) : (s.setCoreAt p c).tileImages = s.tileImages := by unfold State.setCoreAt; split <;> rfl
@[simp] theorem State.setCoreAt_ports (p : Nat) (c : Core) : (s.setCoreAt p c).ports = s.ports := by unfold State.setCoreAt; split <;> rfl
@[simp] theorem State.setCoreAt_layout (p : Nat) (c : Core) : (s.setCoreAt p c).layout = s.layout := by unfold State.setCoreAt; split <;> rfl
@[simp] theorem State.setCoreAt_fw (p : Nat) (c : Core) : (s.setCoreAt p c).fw = s.fw := by unfold State.setCoreAt; split <;> rfl
@[simp] theorem State.setCoreAt_secrets (p : Nat) (c : Core) : (s.setCoreAt p c).secrets = s.secrets := by unfold State.setCoreAt; split <;> rfl
@[simp] theorem State.setCoreAt_apertures (p : Nat) (c : Core) : (s.setCoreAt p c).apertures = s.apertures := by unfold State.setCoreAt; split <;> rfl
@[simp] theorem State.setCoreAt_handles (p : Nat) (c : Core) : (s.setCoreAt p c).handles = s.handles := by unfold State.setCoreAt; split <;> rfl
@[simp] theorem State.setCoreAt_unregistered (p : Nat) (c : Core) : (s.setCoreAt p c).unregistered = s.unregistered := by unfold State.setCoreAt; split <;> rfl
@[simp] theorem State.setCoreAt_inbound (p : Nat) (c : Core) : (s.setCoreAt p c).inbound = s.inbound := by unfold State.setCoreAt; split <;> rfl
@[simp] theorem State.setCoreAt_awaited (p : Nat) (c : Core) : (s.setCoreAt p c).awaited = s.awaited := by unfold State.setCoreAt; split <;> rfl
@[simp] theorem State.setCoreAt_nextWrite (p : Nat) (c : Core) : (s.setCoreAt p c).nextWrite = s.nextWrite := by unfold State.setCoreAt; split <;> rfl
@[simp] theorem State.setCoreAt_aer (p : Nat) (c : Core) : (s.setCoreAt p c).aer = s.aer := by unfold State.setCoreAt; split <;> rfl
@[simp] theorem State.setCoreAt_answer (p : Nat) (c : Core) : (s.setCoreAt p c).answer = s.answer := by unfold State.setCoreAt; split <;> rfl
@[simp] theorem State.setCoreAt_bursts (p : Nat) (c : Core) : (s.setCoreAt p c).bursts = s.bursts := by unfold State.setCoreAt; split <;> rfl
@[simp] theorem State.setCoreAt_dead (p : Nat) (c : Core) : (s.setCoreAt p c).dead = s.dead := by unfold State.setCoreAt; split <;> rfl
@[simp] theorem State.setCoreAt_pages (p : Nat) (c : Core) : (s.setCoreAt p c).pages = s.pages := by unfold State.setCoreAt; split <;> rfl
@[simp] theorem State.setCoreAt_repair (p : Nat) (c : Core) : (s.setCoreAt p c).repair = s.repair := by unfold State.setCoreAt; split <;> rfl
@[simp] theorem State.setCoreAt_reports (p : Nat) (c : Core) : (s.setCoreAt p c).reports = s.reports := by unfold State.setCoreAt; split <;> rfl
@[simp] theorem State.setCoreAt_dumps (p : Nat) (c : Core) : (s.setCoreAt p c).dumps = s.dumps := by unfold State.setCoreAt; split <;> rfl
@[simp] theorem State.setCoreAt_mask (p : Nat) (c : Core) : (s.setCoreAt p c).mask = s.mask := by unfold State.setCoreAt; split <;> rfl
@[simp] theorem State.setCoreAt_endpoint (p : Nat) (c : Core) : (s.setCoreAt p c).endpoint = s.endpoint := by unfold State.setCoreAt; split <;> rfl
@[simp] theorem State.setCoreAt_pkg (p : Nat) (c : Core) : (s.setCoreAt p c).pkg = s.pkg := by unfold State.setCoreAt; split <;> rfl
@[simp] theorem State.setCoreAt_kills (p : Nat) (c : Core) : (s.setCoreAt p c).kills = s.kills := by unfold State.setCoreAt; split <;> rfl
@[simp] theorem State.setCoreAt_spused (p : Nat) (c : Core) : (s.setCoreAt p c).spused = s.spused := by unfold State.setCoreAt; split <;> rfl
@[simp] theorem State.setCoreAt_pcdrop (p : Nat) (c : Core) : (s.setCoreAt p c).pcdrop = s.pcdrop := by unfold State.setCoreAt; split <;> rfl
@[simp] theorem State.setCoreAt_clock (p : Nat) (c : Core) : (s.setCoreAt p c).clock = s.clock := by unfold State.setCoreAt; split <;> rfl
@[simp] theorem State.setCoreAt_agenda (p : Nat) (c : Core) : (s.setCoreAt p c).agenda = s.agenda := by unfold State.setCoreAt; split <;> rfl
@[simp] theorem State.setCoreAt_freeCtr (p : Nat) (c : Core) : (s.setCoreAt p c).freeCtr = s.freeCtr := by unfold State.setCoreAt; split <;> rfl
@[simp] theorem State.setCoreAt_hold (p : Nat) (c : Core) : (s.setCoreAt p c).hold = s.hold := by unfold State.setCoreAt; split <;> rfl

@[simp] theorem State.onCore_mem (p : Nat) (f : Core → Core) : (s.onCore p f).mem = s.mem := State.setCoreAt_mem s p _
@[simp] theorem State.onCore_labels (p : Nat) (f : Core → Core) : (s.onCore p f).labels = s.labels := State.setCoreAt_labels s p _
@[simp] theorem State.onCore_tags (p : Nat) (f : Core → Core) : (s.onCore p f).tags = s.tags := State.setCoreAt_tags s p _
@[simp] theorem State.onCore_flights (p : Nat) (f : Core → Core) : (s.onCore p f).flights = s.flights := State.setCoreAt_flights s p _
@[simp] theorem State.onCore_signals (p : Nat) (f : Core → Core) : (s.onCore p f).signals = s.signals := State.setCoreAt_signals s p _
@[simp] theorem State.onCore_xflights (p : Nat) (f : Core → Core) : (s.onCore p f).xflights = s.xflights := State.setCoreAt_xflights s p _
@[simp] theorem State.onCore_cardbuf (p : Nat) (f : Core → Core) : (s.onCore p f).cardbuf = s.cardbuf := State.setCoreAt_cardbuf s p _
@[simp] theorem State.onCore_parts (p : Nat) (f : Core → Core) : (s.onCore p f).parts = s.parts := State.setCoreAt_parts s p _
@[simp] theorem State.onCore_remap (p : Nat) (f : Core → Core) : (s.onCore p f).remap = s.remap := State.setCoreAt_remap s p _
@[simp] theorem State.onCore_sweeps (p : Nat) (f : Core → Core) : (s.onCore p f).sweeps = s.sweeps := State.setCoreAt_sweeps s p _
@[simp] theorem State.onCore_sems (p : Nat) (f : Core → Core) : (s.onCore p f).sems = s.sems := State.setCoreAt_sems s p _
@[simp] theorem State.onCore_bars (p : Nat) (f : Core → Core) : (s.onCore p f).bars = s.bars := State.setCoreAt_bars s p _
@[simp] theorem State.onCore_armed (p : Nat) (f : Core → Core) : (s.onCore p f).armed = s.armed := State.setCoreAt_armed s p _
@[simp] theorem State.onCore_waits (p : Nat) (f : Core → Core) : (s.onCore p f).waits = s.waits := State.setCoreAt_waits s p _
@[simp] theorem State.onCore_posters (p : Nat) (f : Core → Core) : (s.onCore p f).posters = s.posters := State.setCoreAt_posters s p _
@[simp] theorem State.onCore_tiles (p : Nat) (f : Core → Core) : (s.onCore p f).tiles = s.tiles := State.setCoreAt_tiles s p _
@[simp] theorem State.onCore_missq (p : Nat) (f : Core → Core) : (s.onCore p f).missq = s.missq := State.setCoreAt_missq s p _
@[simp] theorem State.onCore_missrr (p : Nat) (f : Core → Core) : (s.onCore p f).missrr = s.missrr := State.setCoreAt_missrr s p _
@[simp] theorem State.onCore_inflight (p : Nat) (f : Core → Core) : (s.onCore p f).inflight = s.inflight := State.setCoreAt_inflight s p _
@[simp] theorem State.onCore_queues (p : Nat) (f : Core → Core) : (s.onCore p f).queues = s.queues := State.setCoreAt_queues s p _
@[simp] theorem State.onCore_heldq (p : Nat) (f : Core → Core) : (s.onCore p f).heldq = s.heldq := State.setCoreAt_heldq s p _
@[simp] theorem State.onCore_chains (p : Nat) (f : Core → Core) : (s.onCore p f).chains = s.chains := State.setCoreAt_chains s p _
@[simp] theorem State.onCore_dies (p : Nat) (f : Core → Core) : (s.onCore p f).dies = s.dies := State.setCoreAt_dies s p _
@[simp] theorem State.onCore_kernels (p : Nat) (f : Core → Core) : (s.onCore p f).kernels = s.kernels := State.setCoreAt_kernels s p _
@[simp] theorem State.onCore_nextKernel (p : Nat) (f : Core → Core) : (s.onCore p f).nextKernel = s.nextKernel := State.setCoreAt_nextKernel s p _
@[simp] theorem State.onCore_images (p : Nat) (f : Core → Core) : (s.onCore p f).images = s.images := State.setCoreAt_images s p _
@[simp] theorem State.onCore_tileImages (p : Nat) (f : Core → Core) : (s.onCore p f).tileImages = s.tileImages := State.setCoreAt_tileImages s p _
@[simp] theorem State.onCore_ports (p : Nat) (f : Core → Core) : (s.onCore p f).ports = s.ports := State.setCoreAt_ports s p _
@[simp] theorem State.onCore_layout (p : Nat) (f : Core → Core) : (s.onCore p f).layout = s.layout := State.setCoreAt_layout s p _
@[simp] theorem State.onCore_fw (p : Nat) (f : Core → Core) : (s.onCore p f).fw = s.fw := State.setCoreAt_fw s p _
@[simp] theorem State.onCore_secrets (p : Nat) (f : Core → Core) : (s.onCore p f).secrets = s.secrets := State.setCoreAt_secrets s p _
@[simp] theorem State.onCore_apertures (p : Nat) (f : Core → Core) : (s.onCore p f).apertures = s.apertures := State.setCoreAt_apertures s p _
@[simp] theorem State.onCore_handles (p : Nat) (f : Core → Core) : (s.onCore p f).handles = s.handles := State.setCoreAt_handles s p _
@[simp] theorem State.onCore_unregistered (p : Nat) (f : Core → Core) : (s.onCore p f).unregistered = s.unregistered := State.setCoreAt_unregistered s p _
@[simp] theorem State.onCore_inbound (p : Nat) (f : Core → Core) : (s.onCore p f).inbound = s.inbound := State.setCoreAt_inbound s p _
@[simp] theorem State.onCore_awaited (p : Nat) (f : Core → Core) : (s.onCore p f).awaited = s.awaited := State.setCoreAt_awaited s p _
@[simp] theorem State.onCore_nextWrite (p : Nat) (f : Core → Core) : (s.onCore p f).nextWrite = s.nextWrite := State.setCoreAt_nextWrite s p _
@[simp] theorem State.onCore_aer (p : Nat) (f : Core → Core) : (s.onCore p f).aer = s.aer := State.setCoreAt_aer s p _
@[simp] theorem State.onCore_answer (p : Nat) (f : Core → Core) : (s.onCore p f).answer = s.answer := State.setCoreAt_answer s p _
@[simp] theorem State.onCore_bursts (p : Nat) (f : Core → Core) : (s.onCore p f).bursts = s.bursts := State.setCoreAt_bursts s p _
@[simp] theorem State.onCore_dead (p : Nat) (f : Core → Core) : (s.onCore p f).dead = s.dead := State.setCoreAt_dead s p _
@[simp] theorem State.onCore_pages (p : Nat) (f : Core → Core) : (s.onCore p f).pages = s.pages := State.setCoreAt_pages s p _
@[simp] theorem State.onCore_repair (p : Nat) (f : Core → Core) : (s.onCore p f).repair = s.repair := State.setCoreAt_repair s p _
@[simp] theorem State.onCore_reports (p : Nat) (f : Core → Core) : (s.onCore p f).reports = s.reports := State.setCoreAt_reports s p _
@[simp] theorem State.onCore_dumps (p : Nat) (f : Core → Core) : (s.onCore p f).dumps = s.dumps := State.setCoreAt_dumps s p _
@[simp] theorem State.onCore_mask (p : Nat) (f : Core → Core) : (s.onCore p f).mask = s.mask := State.setCoreAt_mask s p _
@[simp] theorem State.onCore_endpoint (p : Nat) (f : Core → Core) : (s.onCore p f).endpoint = s.endpoint := State.setCoreAt_endpoint s p _
@[simp] theorem State.onCore_pkg (p : Nat) (f : Core → Core) : (s.onCore p f).pkg = s.pkg := State.setCoreAt_pkg s p _
@[simp] theorem State.onCore_kills (p : Nat) (f : Core → Core) : (s.onCore p f).kills = s.kills := State.setCoreAt_kills s p _
@[simp] theorem State.onCore_spused (p : Nat) (f : Core → Core) : (s.onCore p f).spused = s.spused := State.setCoreAt_spused s p _
@[simp] theorem State.onCore_pcdrop (p : Nat) (f : Core → Core) : (s.onCore p f).pcdrop = s.pcdrop := State.setCoreAt_pcdrop s p _
@[simp] theorem State.onCore_clock (p : Nat) (f : Core → Core) : (s.onCore p f).clock = s.clock := State.setCoreAt_clock s p _
@[simp] theorem State.onCore_agenda (p : Nat) (f : Core → Core) : (s.onCore p f).agenda = s.agenda := State.setCoreAt_agenda s p _
@[simp] theorem State.onCore_freeCtr (p : Nat) (f : Core → Core) : (s.onCore p f).freeCtr = s.freeCtr := State.setCoreAt_freeCtr s p _
@[simp] theorem State.onCore_hold (p : Nat) (f : Core → Core) : (s.onCore p f).hold = s.hold := State.setCoreAt_hold s p _

@[simp] theorem State.focus_mem (p : Nat) : (s.focus p).mem = s.mem := by unfold State.focus; split <;> rfl
@[simp] theorem State.focus_labels (p : Nat) : (s.focus p).labels = s.labels := by unfold State.focus; split <;> rfl
@[simp] theorem State.focus_tags (p : Nat) : (s.focus p).tags = s.tags := by unfold State.focus; split <;> rfl
@[simp] theorem State.focus_flights (p : Nat) : (s.focus p).flights = s.flights := by unfold State.focus; split <;> rfl
@[simp] theorem State.focus_signals (p : Nat) : (s.focus p).signals = s.signals := by unfold State.focus; split <;> rfl
@[simp] theorem State.focus_xflights (p : Nat) : (s.focus p).xflights = s.xflights := by unfold State.focus; split <;> rfl
@[simp] theorem State.focus_cardbuf (p : Nat) : (s.focus p).cardbuf = s.cardbuf := by unfold State.focus; split <;> rfl
@[simp] theorem State.focus_parts (p : Nat) : (s.focus p).parts = s.parts := by unfold State.focus; split <;> rfl
@[simp] theorem State.focus_remap (p : Nat) : (s.focus p).remap = s.remap := by unfold State.focus; split <;> rfl
@[simp] theorem State.focus_sweeps (p : Nat) : (s.focus p).sweeps = s.sweeps := by unfold State.focus; split <;> rfl
@[simp] theorem State.focus_sems (p : Nat) : (s.focus p).sems = s.sems := by unfold State.focus; split <;> rfl
@[simp] theorem State.focus_bars (p : Nat) : (s.focus p).bars = s.bars := by unfold State.focus; split <;> rfl
@[simp] theorem State.focus_armed (p : Nat) : (s.focus p).armed = s.armed := by unfold State.focus; split <;> rfl
@[simp] theorem State.focus_waits (p : Nat) : (s.focus p).waits = s.waits := by unfold State.focus; split <;> rfl
@[simp] theorem State.focus_posters (p : Nat) : (s.focus p).posters = s.posters := by unfold State.focus; split <;> rfl
@[simp] theorem State.focus_tiles (p : Nat) : (s.focus p).tiles = s.tiles := by unfold State.focus; split <;> rfl
@[simp] theorem State.focus_missq (p : Nat) : (s.focus p).missq = s.missq := by unfold State.focus; split <;> rfl
@[simp] theorem State.focus_missrr (p : Nat) : (s.focus p).missrr = s.missrr := by unfold State.focus; split <;> rfl
@[simp] theorem State.focus_inflight (p : Nat) : (s.focus p).inflight = s.inflight := by unfold State.focus; split <;> rfl
@[simp] theorem State.focus_queues (p : Nat) : (s.focus p).queues = s.queues := by unfold State.focus; split <;> rfl
@[simp] theorem State.focus_heldq (p : Nat) : (s.focus p).heldq = s.heldq := by unfold State.focus; split <;> rfl
@[simp] theorem State.focus_chains (p : Nat) : (s.focus p).chains = s.chains := by unfold State.focus; split <;> rfl
@[simp] theorem State.focus_dies (p : Nat) : (s.focus p).dies = s.dies := by unfold State.focus; split <;> rfl
@[simp] theorem State.focus_kernels (p : Nat) : (s.focus p).kernels = s.kernels := by unfold State.focus; split <;> rfl
@[simp] theorem State.focus_nextKernel (p : Nat) : (s.focus p).nextKernel = s.nextKernel := by unfold State.focus; split <;> rfl
@[simp] theorem State.focus_images (p : Nat) : (s.focus p).images = s.images := by unfold State.focus; split <;> rfl
@[simp] theorem State.focus_tileImages (p : Nat) : (s.focus p).tileImages = s.tileImages := by unfold State.focus; split <;> rfl
@[simp] theorem State.focus_ports (p : Nat) : (s.focus p).ports = s.ports := by unfold State.focus; split <;> rfl
@[simp] theorem State.focus_layout (p : Nat) : (s.focus p).layout = s.layout := by unfold State.focus; split <;> rfl
@[simp] theorem State.focus_fw (p : Nat) : (s.focus p).fw = s.fw := by unfold State.focus; split <;> rfl
@[simp] theorem State.focus_secrets (p : Nat) : (s.focus p).secrets = s.secrets := by unfold State.focus; split <;> rfl
@[simp] theorem State.focus_apertures (p : Nat) : (s.focus p).apertures = s.apertures := by unfold State.focus; split <;> rfl
@[simp] theorem State.focus_handles (p : Nat) : (s.focus p).handles = s.handles := by unfold State.focus; split <;> rfl
@[simp] theorem State.focus_unregistered (p : Nat) : (s.focus p).unregistered = s.unregistered := by unfold State.focus; split <;> rfl
@[simp] theorem State.focus_inbound (p : Nat) : (s.focus p).inbound = s.inbound := by unfold State.focus; split <;> rfl
@[simp] theorem State.focus_awaited (p : Nat) : (s.focus p).awaited = s.awaited := by unfold State.focus; split <;> rfl
@[simp] theorem State.focus_nextWrite (p : Nat) : (s.focus p).nextWrite = s.nextWrite := by unfold State.focus; split <;> rfl
@[simp] theorem State.focus_aer (p : Nat) : (s.focus p).aer = s.aer := by unfold State.focus; split <;> rfl
@[simp] theorem State.focus_answer (p : Nat) : (s.focus p).answer = s.answer := by unfold State.focus; split <;> rfl
@[simp] theorem State.focus_bursts (p : Nat) : (s.focus p).bursts = s.bursts := by unfold State.focus; split <;> rfl
@[simp] theorem State.focus_dead (p : Nat) : (s.focus p).dead = s.dead := by unfold State.focus; split <;> rfl
@[simp] theorem State.focus_pages (p : Nat) : (s.focus p).pages = s.pages := by unfold State.focus; split <;> rfl
@[simp] theorem State.focus_repair (p : Nat) : (s.focus p).repair = s.repair := by unfold State.focus; split <;> rfl
@[simp] theorem State.focus_reports (p : Nat) : (s.focus p).reports = s.reports := by unfold State.focus; split <;> rfl
@[simp] theorem State.focus_dumps (p : Nat) : (s.focus p).dumps = s.dumps := by unfold State.focus; split <;> rfl
@[simp] theorem State.focus_mask (p : Nat) : (s.focus p).mask = s.mask := by unfold State.focus; split <;> rfl
@[simp] theorem State.focus_endpoint (p : Nat) : (s.focus p).endpoint = s.endpoint := by unfold State.focus; split <;> rfl
@[simp] theorem State.focus_pkg (p : Nat) : (s.focus p).pkg = s.pkg := by unfold State.focus; split <;> rfl
@[simp] theorem State.focus_kills (p : Nat) : (s.focus p).kills = s.kills := by unfold State.focus; split <;> rfl
@[simp] theorem State.focus_spused (p : Nat) : (s.focus p).spused = s.spused := by unfold State.focus; split <;> rfl
@[simp] theorem State.focus_pcdrop (p : Nat) : (s.focus p).pcdrop = s.pcdrop := by unfold State.focus; split <;> rfl
@[simp] theorem State.focus_clock (p : Nat) : (s.focus p).clock = s.clock := by unfold State.focus; split <;> rfl
@[simp] theorem State.focus_agenda (p : Nat) : (s.focus p).agenda = s.agenda := by unfold State.focus; split <;> rfl
@[simp] theorem State.focus_freeCtr (p : Nat) : (s.focus p).freeCtr = s.freeCtr := by unfold State.focus; split <;> rfl
@[simp] theorem State.focus_hold (p : Nat) : (s.focus p).hold = s.hold := by unfold State.focus; split <;> rfl

end

end Sys2Proof.Machine
end

