-- ==== Sys2Proof/Laws/Memory.lean ====
section
/-! SUPPORT. Laws of cores by number and of memory: what is read after a write, and that every memory operation keeps the
canonical form. -/

namespace Sys2Proof.Machine

/-! ### Cores -/

theorem coreAt_setCoreAt (s : State) (p q : Nat) (c : Core) (h : c.phys = p) :
    (s.setCoreAt p c).coreAt q = if q = p then c else s.coreAt q := by
  unfold State.setCoreAt
  by_cases hp : p = s.core.phys
  · rw [if_pos hp]
    unfold State.coreAt
    by_cases hq : q = p
    · simp [hq, h]
    · rw [hp] at hq h
      simp [h, hq, hp]
  · rw [if_neg hp]
    unfold State.coreAt
    by_cases hq : q = p
    · subst hq; simp [hp]
    · simp [hq]

theorem coreAt_onCore (s : State) (p q : Nat) (f : Core → Core) (h : (f (s.coreAt p)).phys = p) :
    (s.onCore p f).coreAt q = if q = p then f (s.coreAt p) else s.coreAt q := coreAt_setCoreAt s p q _ h

/-- A core looks the same from every core's turn. -/
theorem coreAt_focus (s : State) (p q : Nat) (h : (s.coreAt p).phys = p) : (s.focus p).coreAt q = s.coreAt q := by
  unfold State.focus
  by_cases hp : p = s.core.phys
  · rw [if_pos hp]
  · rw [if_neg hp]
    have hlook : s.coreAt p = SMap.look Core.reset s.others p := by unfold State.coreAt; rw [if_neg hp]
    unfold State.coreAt at h hlook ⊢
    rw [if_neg hp] at h hlook ⊢
    by_cases hq : q = p
    · subst hq; simp [h, hp]
    · simp only [h, hq, if_false]
      by_cases hc : q = s.core.phys
      · subst hc
        simp only [SMap.look, SMap.listed_drop, hq, if_false, if_true]
        have := SMap.look_put Core.reset s.others s.core.phys s.core.phys s.core
        simpa [SMap.look] using this
      · simp only [SMap.look, SMap.listed_drop, hq, if_false, hc]
        have := SMap.look_put Core.reset s.others s.core.phys q s.core
        simpa [SMap.look, hc] using this

theorem core_focus (s : State) (p : Nat) : (s.focus p).core = s.coreAt p := by
  unfold State.focus State.coreAt
  by_cases hp : p = s.core.phys <;> simp [hp]

/-! ### Bytes, labels, tags -/

theorem byteAt_putBytes (s : State) (a x : Nat) (bs : List Byte) :
    (s.putBytes a bs).byteAt x = if h : a ≤ x ∧ x < a + bs.length then bs[x - a]'(by omega) else s.byteAt x :=
  SMap.look_putList _ _ _ _ _

theorem byteAt_store (s : State) (a x : Nat) (bs : List Byte) (l : Label) :
    (s.store a bs l).byteAt x = if h : a ≤ x ∧ x < a + bs.length then bs[x - a]'(by omega) else s.byteAt x :=
  byteAt_putBytes s a x bs

theorem byteAt_store_in (s : State) (a y : Nat) (bs : List Byte) (l : Label) (h : y < bs.length) :
    (s.store a bs l).byteAt (a + y) = bs[y] := by
  rw [byteAt_store, dif_pos ⟨by omega, by omega⟩]; congr 1; omega

theorem byteAt_store_out (s : State) (a x : Nat) (bs : List Byte) (l : Label) (h : x < a ∨ a + bs.length ≤ x) :
    (s.store a bs l).byteAt x = s.byteAt x := by
  rw [byteAt_store, dif_neg (by omega)]

/-- The units that [a, a + n) meets, each once. -/
theorem mem_unitsOf (g a n k : Nat) (hn : 0 < n) : k ∈ unitsOf g a n ↔ a / g ≤ k ∧ k ≤ (a + n - 1) / g := by
  have hle : a / g ≤ (a + n - 1) / g := Nat.div_le_div_right (by omega)
  unfold unitsOf
  rw [if_neg (by omega)]
  simp only [List.mem_map, List.mem_range]
  constructor
  · rintro ⟨i, hi, rfl⟩; omega
  · rintro ⟨h1, h2⟩; exact ⟨k - a / g, by omega, by omega⟩

theorem unit_of_byte (g a n k : Nat) (hg : 0 < g) (hn : 0 < n) :
    (a / g ≤ k ∧ k ≤ (a + n - 1) / g) ↔ ∃ y, y < n ∧ (a + y) / g = k := by
  constructor
  · rintro ⟨h1, h2⟩
    by_cases h : k = a / g
    · exact ⟨0, hn, by simp [h]⟩
    · have hk : a / g + 1 ≤ k := by omega
      have h3 : a < k * g := by
        have := Nat.lt_succ_self (a / g)
        exact (Nat.div_lt_iff_lt_mul hg).1 (by omega)
      have h4 : k * g ≤ a + n - 1 := by
        have := Nat.div_mul_le_self (a + n - 1) g
        have := Nat.mul_le_mul_right g h2
        omega
      exact ⟨k * g - a, by omega, by rw [show a + (k * g - a) = k * g by omega, Nat.mul_div_cancel _ hg]⟩
  · rintro ⟨y, hy, rfl⟩
    exact ⟨Nat.div_le_div_right (by omega), Nat.div_le_div_right (by omega)⟩

/-- A key read after the same change to several keys, each change depending on that key alone. -/
theorem look_foldl_put {β : Type} [DecidableEq β] (d : Nat → β) (f : Nat → β → β) (hf : ∀ k v, f k (f k v) = f k v)
    (ks : List Nat) (m : SMap β) (j : Nat) :
    SMap.look d (ks.foldl (fun m k => SMap.put d m k (f k (SMap.look d m k))) m) j =
      if j ∈ ks then f j (SMap.look d m j) else SMap.look d m j := by
  induction ks generalizing m with
  | nil => simp
  | cons k ks ih =>
    rw [List.foldl_cons, ih]
    by_cases hj : j = k
    · subst hj; simp [hf]
    · simp [hj]

/-- Labels after a line range is raised (R202). -/
theorem labelAt_raiseLabel (s : State) (a n x : Nat) (l : Label) :
    (s.raiseLabel a n l).labelAt x = if x / 64 ∈ unitsOf 64 a n then Label.max (s.labelAt x) l else s.labelAt x := by
  have := look_foldl_put (fun _ => (0 : Label)) (fun _ v => Label.max v l)
    (by intro k v; unfold Label.max; split <;> simp_all) (unitsOf 64 a n) s.labels (x / 64)
  exact this

/-- Tags after a granule range is cleared (R92). -/
theorem memTagAt_clearTags (s : State) (a n x : Nat) :
    (s.clearTags a n).memTagAt x = if x / 16 ∈ unitsOf 16 a n then false else s.memTagAt x := by
  have := look_foldl_put (fun _ => false) (fun _ _ => false) (by simp) (unitsOf 16 a n) s.tags (x / 16)
  exact this

theorem labelAt_store (s : State) (a x : Nat) (bs : List Byte) (l : Label) :
    (s.store a bs l).labelAt x =
      if x / 64 ∈ unitsOf 64 a bs.length then Label.max (s.labelAt x) l else s.labelAt x :=
  labelAt_raiseLabel (s.putBytes a bs) a bs.length x l

theorem memTagAt_store (s : State) (a x : Nat) (bs : List Byte) (l : Label) :
    (s.store a bs l).memTagAt x = if x / 16 ∈ unitsOf 16 a bs.length then false else s.memTagAt x :=
  memTagAt_clearTags ((s.putBytes a bs).raiseLabel a bs.length l) a bs.length x

/-- Everything that a store does (R92, R202). -/
theorem stored_store (s : State) (a : Nat) (bs : List Byte) (l : Label) (h : bs ≠ []) :
    Stored a bs.length (fun y => bs.getD y 0) l false s (s.store a bs l) := by
  have hn : 0 < bs.length := List.length_pos_iff.2 h
  have hu : ∀ g z, 0 < g → (z / g ∈ unitsOf g a bs.length ↔ ∃ y, y < bs.length ∧ z / g = (a + y) / g) := by
    intro g z hg
    rw [mem_unitsOf g a bs.length _ hn, unit_of_byte g a bs.length _ hg hn]
    exact ⟨fun ⟨y, h1, h2⟩ => ⟨y, h1, h2.symm⟩, fun ⟨y, h1, h2⟩ => ⟨y, h1, h2.symm⟩⟩
  refine ⟨?_, ?_, ?_, ?_, ?_, ?_⟩
  · intro y hy; rw [byteAt_store_in s a y bs l hy]; simp [List.getD, hy]
  · intro y hy; exact byteAt_store_out s a y bs l hy
  · intro y z hy hz; rw [labelAt_store, if_pos ((hu 64 z (by omega)).2 ⟨y, hy, hz⟩)]
  · intro z hz; rw [labelAt_store, if_neg]; rintro hm; obtain ⟨y, h1, h2⟩ := (hu 64 z (by omega)).1 hm; exact hz y h1 h2
  · intro y z hy hz; rw [memTagAt_store, if_pos ((hu 16 z (by omega)).2 ⟨y, hy, hz⟩)]
  · intro z hz; rw [memTagAt_store, if_neg]; rintro hm; obtain ⟨y, h1, h2⟩ := (hu 16 z (by omega)).1 hm; exact hz y h1 h2

/-! ### The canonical form -/

theorem SMap.wfFrom_list_any {β : Type} [DecidableEq β] (v₀ : β) (m : SMap β) (k : Nat) (v : β) (hv : v ≠ v₀)
    (hm : SMap.wf (fun _ => v₀) m = true) : SMap.wf (fun _ => v₀) (SMap.list m k v) = true :=
  SMap.wfFrom_list (fun _ => v₀) m 0 k v hv (Nat.zero_le _) hm

theorem SMap.wf_copyRange {β : Type} [DecidableEq β] (v₀ : β) (m : SMap β) (lo n dst : Nat)
    (hm : SMap.wf (fun _ => v₀) m = true) : SMap.wf (fun _ => v₀) (SMap.copyRange m lo n dst) = true := by
  have hne : ∀ e ∈ SMap.range m lo (lo + n), e.2 ≠ v₀ := by
    intro e he
    exact SMap.mem_ne (fun _ => v₀) m 0 hm e (List.mem_of_mem_filter he)
  unfold SMap.copyRange
  generalize SMap.range m lo (lo + n) = es at hne
  have key : ∀ (es : SMap β) (acc : SMap β), (∀ e ∈ es, e.2 ≠ v₀) → SMap.wf (fun _ => v₀) acc = true →
      SMap.wf (fun _ => v₀) (es.foldl (fun acc e => SMap.list acc (dst + (e.1 - lo)) e.2) acc) = true := by
    intro es
    induction es with
    | nil => intro acc _ h; exact h
    | cons e es ih =>
      intro acc he h
      exact ih _ (fun x hx => he x (List.mem_cons_of_mem _ hx))
        (SMap.wfFrom_list_any v₀ acc _ _ (he e (List.mem_cons_self)) h)
  exact key es _ hne (SMap.wf_clearRange _ m dst (dst + n) hm)

theorem wf_foldl_keys {β : Type} [DecidableEq β] (d : Nat → β) (f : SMap β → Nat → β) (ks : List Nat) (m : SMap β)
    (hm : SMap.wf d m = true) : SMap.wf d (ks.foldl (fun m k => SMap.put d m k (f m k)) m) = true :=
  SMap.wf_foldl_put d _ (fun m x h => SMap.wf_put d m x _ h) ks m hm

end Sys2Proof.Machine

namespace Sys2Proof

open Sys2Proof.Machine

theorem MemoryWf.of_eq {s t : State} (h : MemoryWf s) (hm : t.mem = s.mem) (hl : t.labels = s.labels) (ht : t.tags = s.tags) :
    MemoryWf t := ⟨by rw [hm]; exact h.1, by rw [hl]; exact h.2.1, by rw [ht]; exact h.2.2⟩

theorem MemoryWf.reset : MemoryWf State.reset := ⟨rfl, rfl, rfl⟩

theorem MemoryWf.setCoreAt {s : State} (h : MemoryWf s) (p : Nat) (c : Core) : MemoryWf (s.setCoreAt p c) :=
  h.of_eq (by simp) (by simp) (by simp)
theorem MemoryWf.onCore {s : State} (h : MemoryWf s) (p : Nat) (f : Core → Core) : MemoryWf (s.onCore p f) := h.setCoreAt p _
theorem MemoryWf.focus {s : State} (h : MemoryWf s) (p : Nat) : MemoryWf (s.focus p) := h.of_eq (by simp) (by simp) (by simp)
theorem MemoryWf.mapCore {s : State} (h : MemoryWf s) (f : Core → Core) : MemoryWf (s.mapCore f) := h

theorem MemoryWf.putBytes {s : State} (h : MemoryWf s) (a : Nat) (bs : List Byte) : MemoryWf (s.putBytes a bs) :=
  ⟨SMap.wf_putList _ _ a bs h.1, h.2⟩
theorem MemoryWf.raiseLabel {s : State} (h : MemoryWf s) (a n : Nat) (l : Label) : MemoryWf (s.raiseLabel a n l) :=
  ⟨h.1, wf_foldl_keys _ (fun m k => Label.max (SMap.look (fun _ => 0) m k) l) _ _ h.2.1, h.2.2⟩
theorem MemoryWf.clearTags {s : State} (h : MemoryWf s) (a n : Nat) : MemoryWf (s.clearTags a n) :=
  ⟨h.1, h.2.1, wf_foldl_keys _ (fun _ _ => false) _ _ h.2.2⟩
theorem MemoryWf.store {s : State} (h : MemoryWf s) (a : Nat) (bs : List Byte) (l : Label) : MemoryWf (s.store a bs l) :=
  ((h.putBytes a bs).raiseLabel a bs.length l).clearTags a bs.length
theorem MemoryWf.putGranule {s : State} (h : MemoryWf s) (a : Nat) (k : Cap) (l : Label) : MemoryWf (s.putGranule a k l) :=
  let g := (h.putBytes a (bytesOf 8 k.addr.toNat ++ bytesOf 8 k.hi.toNat)).raiseLabel a 16 l
  ⟨g.1, g.2.1, SMap.wf_put _ _ _ _ g.2.2⟩
theorem MemoryWf.setLabels {s : State} (h : MemoryWf s) (a n : Nat) (l : Label) : MemoryWf (s.setLabels a n l) :=
  ⟨h.1, wf_foldl_keys _ (fun _ _ => l) _ _ h.2.1, h.2.2⟩
theorem MemoryWf.lowerLabel {s : State} (h : MemoryWf s) (a n : Nat) (l : Label) : MemoryWf (s.lowerLabel a n l) :=
  ⟨h.1, wf_foldl_keys _ (fun m k => if l < SMap.look (fun _ => (0 : Label)) m k then l else SMap.look (fun _ => (0 : Label)) m k)
    _ _ h.2.1, h.2.2⟩
theorem MemoryWf.zeroRange {s : State} (h : MemoryWf s) (a n : Nat) : MemoryWf (s.zeroRange a n) :=
  ⟨SMap.wf_clearRange _ _ _ _ h.1, SMap.wf_clearRange _ _ _ _ h.2.1, SMap.wf_clearRange _ _ _ _ h.2.2⟩
theorem MemoryWf.copyRange {s : State} (h : MemoryWf s) (a n b : Nat) : MemoryWf (s.copyRange a n b) :=
  ⟨SMap.wf_copyRange _ _ _ _ _ h.1, SMap.wf_copyRange _ _ _ _ _ h.2.1, SMap.wf_copyRange _ _ _ _ _ h.2.2⟩
theorem MemoryWf.setTags {s : State} (h : MemoryWf s) (a : Nat) (ts : List Bool) : MemoryWf (s.setTags a ts) :=
  ⟨h.1, h.2.1, SMap.wf_foldl_put _ _ (fun m _ g => SMap.wf_put _ m _ _ g) _ _ h.2.2⟩
theorem MemoryWf.putStore {s : State} (h : MemoryWf s) (p : Nat) (x : StoreImg) : MemoryWf (s.putStore p x) :=
  let g := h.zeroRange (lsBase p) lsSize
  ⟨SMap.wf_foldl_put _ _ (fun m _ g => SMap.wf_put _ m _ _ g) _ _ g.1,
    SMap.wf_foldl_put _ _ (fun m _ g => SMap.wf_put _ m _ _ g) _ _ g.2.1,
    SMap.wf_foldl_put _ _ (fun m _ g => SMap.wf_put _ m _ _ g) _ _ g.2.2⟩

/-- A change made step by step keeps the form when each step does. -/
theorem MemoryWf.foldl {α : Type} {f : State → α → State} (hf : ∀ u x, MemoryWf u → MemoryWf (f u x)) (xs : List α) {s : State}
    (h : MemoryWf s) : MemoryWf (xs.foldl f s) := by
  induction xs generalizing s with
  | nil => exact h
  | cons x xs ih => exact ih (hf s x h)

theorem MemoryWf.trace {s : State} (h : MemoryWf s) (o src off kind size len : Nat) : MemoryWf (s.trace o src off kind size len) := by
  unfold State.trace
  split
  · exact h
  · exact ((((h.putBytes _ _).clearTags _ _).setLabels _ _ _).putBytes _ _).setCoreAt _ _
theorem MemoryWf.retrace {s : State} (h : MemoryWf s) (o off n : Nat) : MemoryWf (s.retrace o off n) := by
  unfold State.retrace
  split
  · exact h.onCore _ _
  · exact h
theorem MemoryWf.logUndo {s : State} (h : MemoryWf s) (o src off n : Nat) : MemoryWf (s.logUndo o src off n) := by
  unfold State.logUndo
  split
  · exact h
  · split
    · exact h
    · exact h.setCoreAt _ _

/-- A write at the port of one copy keeps the form when its effect does. -/
theorem MemoryWf.writeAt {s : State} (h : MemoryWf s) (p src off n kind : Nat) (log : Option Nat) (f : Nat → State → State)
    (hf : ∀ y u, MemoryWf u → MemoryWf (f y u)) : MemoryWf (s.writeAt p src off n kind log f) := by
  have g := (hf (lsBase p + off) s h).retrace p off n
  unfold State.writeAt
  split
  · exact g.trace _ _ _ _ _ _
  · exact g

/-- A write at a port keeps the form when its effect does. -/
theorem MemoryWf.portWrite {s : State} (h : MemoryWf s) (o src off n kind : Nat) (log : Option Nat) (f : Nat → State → State)
    (hf : ∀ y u, MemoryWf u → MemoryWf (f y u)) : MemoryWf (s.portWrite o src off n kind log f) :=
  MemoryWf.foldl (fun _ p g => g.writeAt p src off n kind log f hf) _ (h.logUndo o src off n)

end Sys2Proof
end

