-- ==== Sys2Proof/Laws/Ops.lean ====
section
/-! SUPPORT. What the shared operations can do, one law for each: windows, traps, messages, signals, acknowledgements, queues,
labels of capabilities, and the maps of units by number. -/

namespace Sys2Proof.Machine

/-! ### Units by number -/

@[simp] theorem tileAt_setTile (s : State) (n m : Nat) (x : Tile) : (s.setTile n x).tileAt m = if m = n then x else s.tileAt m :=
  SMap.look_put _ _ _ _ _
@[simp] theorem queueAt_setQueue (s : State) (n m : Nat) (x : Queue) :
    (s.setQueue n x).queueAt m = if m = n then x else s.queueAt m := SMap.look_put _ _ _ _ _
@[simp] theorem chainAt_setChain (s : State) (n m : Nat) (x : Chain) :
    (s.setChain n x).chainAt m = if m = n then x else s.chainAt m := SMap.look_put _ _ _ _ _
@[simp] theorem dieAt_setDie (s : State) (n m : Nat) (x : Die) : (s.setDie n x).dieAt m = if m = n then x else s.dieAt m :=
  SMap.look_put _ _ _ _ _
@[simp] theorem portAt_setPort (s : State) (n m : Nat) (x : KPort) : (s.setPort n x).portAt m = if m = n then x else s.portAt m :=
  SMap.look_put _ _ _ _ _
@[simp] theorem parts_setPart (s : State) (n m : Nat) (x : Part) :
    (s.setPart n x).parts.listed m = if m = n then some x else s.parts.listed m := SMap.listed_list _ _ _ _
@[simp] theorem kernels_setKernel (s : State) (n m : Nat) (x : Kernel) :
    (s.setKernel n x).kernels.listed m = if m = n then some x else s.kernels.listed m := SMap.listed_list _ _ _ _

@[simp] theorem bufAt_setBuf (s : State) (n m : Nat) (ws : List FarWrite) :
    (s.setBuf n ws).bufAt m = if m = n then ws else s.bufAt m := SMap.look_put _ _ _ _ _

/-! ### Card buffers and domains (R333, R334, R483) -/

/-- Nothing waits for card writes where every buffer is empty. -/
theorem farWaits_nil {s : State} (h : s.cardbuf = []) (t card part : Nat) (sc : Scope) : s.farWaits t card part sc = false := by
  simp [State.farWaits, h]
theorem farFrom_nil {s : State} (h : s.cardbuf = []) (t : Nat) : s.farFrom t = false := by simp [State.farFrom, h]

/-! ### Ports and the ordering point (R206, R211, R336) -/

/-- A port with nothing waiting serves every access that its groups let in. -/
theorem portReady_nil {s : State} {o : Nat} (h : (s.coreAt o).portq = []) (part src off n : Nat) :
    s.portReady part o src off n = !s.portBlocks part o src off n := by
  simp [State.portReady, State.portHead, h]

/-- A request that stands in no order leaves none. -/
theorem portLeave_nil {s : State} {o : Nat} (h : (s.coreAt o).portq = []) (src : Nat) : s.portLeave o src = s := by
  simp [State.portLeave, h]

/-- While accesses wait for their events, a write of the host takes its place behind its function's earlier ones and acts no further. -/
theorem takeWrite_hold {s : State} (h : s.hold = true) (ps : List Piece) :
    s.takeWrite ps = { s with inbound := s.inbound ++ ps, nextWrite := s.nextWrite + 1 } := by
  simp [State.takeWrite, h]

/-! ### Windows (R8 to R10) -/

/-- What an address reaches: the core's own store, or that of a rank of its partition; nothing else. -/
theorem reach_cases {s : State} {c : Core} {x : Word} {n o off : Nat} (h : s.reach c x n = some (o, off)) :
    (selfWindow ≤ x.toNat ∧ o = c.phys ∧ off = x.toNat - selfWindow ∧ off + n ≤ storeSize c.phys) ∨
    (remoteWindow ≤ x.toNat ∧ x.toNat < selfWindow ∧ off = (x.toNat - remoteWindow) % rankSpan ∧ off + n ≤ lsSize ∧
      s.ofRank c ((x.toNat - remoteWindow) / rankSpan) = some o) := by
  unfold State.reach at h
  simp only at h
  split at h
  · split at h
    · rename_i h1 h2
      obtain ⟨rfl, rfl⟩ : c.phys = o ∧ x.toNat - selfWindow = off := by simpa using h
      exact .inl ⟨h1, rfl, rfl, h2⟩
    · exact nomatch h
  · split at h
    · split at h
      · rename_i h1 h2 h3
        rw [Option.map_eq_some_iff] at h
        obtain ⟨p, hp, he⟩ := h
        obtain ⟨rfl, rfl⟩ : p = o ∧ (x.toNat - remoteWindow) % rankSpan = off := by simpa using he
        exact .inr ⟨h2, by omega, rfl, h3, hp⟩
      · exact nomatch h
    · exact nomatch h

theorem ofRank_cases {s : State} {c : Core} {r o : Nat} (h : s.ofRank c r = some o) :
    r < (s.partOf c).len ∧ o = s.physOfIndex ((s.partOf c).base + r) := by
  unfold State.ofRank at h
  split at h
  · rename_i hr; exact ⟨hr, by simpa using h.symm⟩
  · exact nomatch h

/-! ### Traps (R50, R69, R476) -/

/-- A core that waits at no object any more leaves every core as it is. -/
@[simp] theorem State.unwait_core (s : State) (p : Nat) : (s.unwait p).core = s.core := by
  unfold State.unwait State.leaveSem; repeat' split
  all_goals rfl
@[simp] theorem State.unwait_others (s : State) (p : Nat) : (s.unwait p).others = s.others := by
  unfold State.unwait State.leaveSem; repeat' split
  all_goals rfl

/-- A trap enters the handler, or, without one, the core halts and the OS servers of its die are told; it waits at no object. -/
theorem deliver_cases (s : State) (cause : BitVec 8) (tval epc : Word) :
    (s.core.hlens.tag = true ∧ s.core.hpcc.tag = true ∧
      s.deliver cause tval epc = { s.unwait s.core.phys with core := (s.core.saveTrap cause tval epc).enterHandler.countEntry }) ∨
    ((s.core.hlens.tag = false ∨ s.core.hpcc.tag = false) ∧ ∃ m, s.deliver cause tval epc =
      State.tellServers { s.unwait s.core.phys with core := (s.core.saveTrap cause tval epc).halt } s.core.phys m) := by
  unfold State.deliver
  simp only [State.unwait_core]
  split
  · rename_i h
    have h' : s.core.hlens.tag = true ∧ s.core.hpcc.tag = true := by simpa [Core.saveTrap] using h
    exact .inl ⟨h'.1, h'.2, rfl⟩
  · rename_i h
    refine .inr ⟨?_, _, rfl⟩
    have h' : ¬ (s.core.hlens.tag = true ∧ s.core.hpcc.tag = true) := by simpa [Core.saveTrap] using h
    cases hl : s.core.hlens.tag <;> simp_all

/-- A trap is delivered at once, or waits until everything that the core has issued is over. -/
theorem raiseAt_cases (s : State) (cause : BitVec 8) (tval epc : Word) :
    let c := if s.hold then s.core else s.core.landReady
    (c.quiet = true ∧ s.raiseAt cause tval epc = State.deliver { s with core := c } cause tval epc) ∨
    (c.quiet = false ∧
      s.raiseAt cause tval epc = { s with core := { c with trapDue := some ⟨cause, tval, epc⟩, stalled := true } }) := by
  intro c
  unfold State.raiseAt
  by_cases h : c.quiet = true
  · exact .inl ⟨h, by simp only; rw [if_pos h]⟩
  · exact .inr ⟨by simpa using h, by simp only; rw [if_neg h]⟩

/-- What a trap saves is saved whole, and the handler's lens, PCC and PC take over. -/
theorem enterHandler_saveTrap (c : Core) (cause : BitVec 8) (tval epc : Word) :
    let d := (c.saveTrap cause tval epc).enterHandler
    d.elens = c.lens ∧ d.cause = cause ∧ d.prevMode = c.mode ∧ d.lens = c.hlens ∧ d.pcc = c.hpcc ∧ d.pc = c.hpcc.addr ∧
      d.mode = (if c.mode = .f then .f else .s) ∧ d.regs = c.regs ∧ d.tags = c.tags := ⟨rfl, rfl, rfl, rfl, rfl, rfl, rfl, rfl, rfl⟩

/-! ### Messages, signals, acknowledgements (R207, R313, R324) -/

/-- A message waits on its way, or enters at once. -/
theorem sendMsg_cases (s : State) (f : Flight) :
    s.sendMsg f = s.addFlight f ∨ (s.hold = false ∧ s.refuses f = false ∧ s.sendMsg f = s.enterMsg f) := by
  unfold State.sendMsg
  split
  · exact .inl rfl
  · rename_i h
    simp only [Bool.or_eq_true, not_or, Bool.not_eq_true] at h
    exact .inr ⟨h.1.1, h.2, rfl⟩

/-- A signal waits on its way, or arrives at once. -/
theorem signal_cases (s : State) (g : Signal) :
    s.signal g = { s with signals := s.signals ++ [g] } ∨ (s.hold = false ∧ s.signal g = s.arrive g) := by
  unfold State.signal
  split
  · exact .inl rfl
  · rename_i h
    simp only [Bool.or_eq_true, not_or, Bool.not_eq_true] at h
    exact .inr ⟨h.1.1, rfl⟩

theorem ack_none (s : State) : s.ack none = s := rfl
theorem ack_some (s : State) (p id : Nat) : s.ack (some (p, id)) = s.onCore p (Core.partDone s.hold id) := rfl

/-- An acknowledgement changes what the sender waits for, and nothing else of it. -/
theorem partDone_frame (hold : Bool) (id : Nat) (c : Core) :
    Core.partDone hold id c = { c with unacked := (Core.partDone hold id c).unacked } := by
  unfold Core.partDone Core.dropAcked
  cases hold <;> rfl

/-! ### Queues (R345 to R347) -/

/-- A push leaves the state as it is, or appends its entry and wakes the oldest record parked there. -/
theorem push_cases (s : State) (n : Nat) (e : QEntry) (rsv : Bool) :
    (s.pushStatus (s.queueAt n) e rsv ≠ 0 ∧ s.push n e rsv = (s, s.pushStatus (s.queueAt n) e rsv)) ∨
    (s.pushStatus (s.queueAt n) e rsv = 0 ∧ s.push n e rsv = ((s.append n e).wakeParked n, 0)) := by
  unfold State.push
  by_cases h : s.pushStatus (s.queueAt n) e rsv = 0
  · exact .inr ⟨h, by simp [h]⟩
  · exact .inl ⟨h, by simp [h]⟩

/-- A queue that is not ON, or is assigned to no partition, answers a pop with a status, unchanged. -/
theorem pop_off {s : State} {n : Nat} (h : (s.queueAt n).answering ≠ .on) : s.pop n = .status s 4 ∨ s.pop n = .status s 6 := by
  unfold State.pop
  simp only
  split
  · exact .inl rfl
  · exact .inl rfl
  · exact .inr rfl
  · rename_i h1; exact absurd h1 h

/-- Nothing is tried again where no push is held. -/
theorem retryFor_nil {s : State} (n : Nat) (h : s.heldq = []) : s.retryFor n = s := by
  simp only [State.retryFor, State.retryWhere, h, retryHeld]

end Sys2Proof.Machine
end

