-- ==== Sys2Proof/Laws/Run.lean ====
section
/-! SUPPORT. How an instruction that may issue ends, once for every instruction. -/

namespace Sys2Proof.Machine

open Sys2Proof

/-- An instruction that may issue on a core by itself has its own effect and no other. -/
theorem run_ready {i : Instr} {s : State} (h : MayIssue i s) (body : State → Res) :
    run i s body = .next ((body s).finish i) := by
  obtain ⟨⟨hg, hi⟩, hn⟩ := h
  simp [run, runOne, runBody, hg, hi, hn]

theorem run_next (i : Instr) (s : State) (body : State → Res) : ∃ t, run i s body = .next t := ⟨_, rfl⟩

/-- The same, as a statement of completion. -/
theorem completes_of_run {i : Instr} {s : State} {P : State → Prop} {body : State → Res} (he : exec i s = run i s body)
    (h : MayIssue i s) (hp : P ((body s).finish i)) : Completes i s P := ⟨_, by rw [he, run_ready h], hp⟩

@[simp] theorem mapCore_core (s : State) (f : Core → Core) : (s.mapCore f).core = f s.core := rfl

/-- A core that differs in its registers alone, after its instruction has retired. -/
theorem likeButRegs_retire {c c' : Core} (h : c.likeButRegs c') (n : Nat) :
    c'.retire n = { c with
      regs := c'.regs, tags := c'.tags, opf := c'.opf, q := c'.q, pending := c'.pending,
      pc := (c.after n).1, rep := (c.after n).2, resume := none, stalled := false, waiting := none, woken := false } := by
  unfold Core.likeButRegs at h
  rw [h]
  rfl

theorem onlyResults_retire {i : Instr} {s : State} {f : Core → Core} (h : s.core.likeButRegs (f s.core)) :
    OnlyResults i s ((Res.done (s.mapCore f)).finish i) :=
  ⟨rfl, likeButRegs_retire h _⟩

/-- A scalar result with q (R149). -/
theorem scalarOut_done {i : Instr} {s : State} (h : Alone s) (d : Name) (v : LVal) :
    WordDone i d v s ((scalarOut d v s).finish i) := by
  have hw := Core.wrQ_written h.2 d v
  refine ⟨onlyResults_retire (Core.wrQ_like h.2 d v), ⟨hw.value, hw.entries, hw.pairs, hw.operands, hw.quotient, hw.zero⟩,
    fun hp => Core.wrQ_pending_nil h.2 d v hp⟩

/-- Results of one, two and three operands, for an instruction whose body computes them. -/
theorem computes1 {mk : Name → Name → Instr} {f : Word → Word → Prop} {g : Word → Word}
    (he : ∀ d a s, exec (mk d a) s = run (mk d a) s (scalar1 d a g)) (hf : ∀ x, f x (g x)) : Computes1 mk f :=
  fun d a s h => ⟨_, hf _, completes_of_run (he d a s) h (scalarOut_done h.1 _ _)⟩

theorem computes2 {mk : Name → Name → Name → Instr} {f g : Word → Word → Word}
    (he : ∀ d a b s, exec (mk d a b) s = run (mk d a b) s (scalar2 d a b g)) (hf : ∀ x y, g x y = f x y) :
    Computes2 mk f := by
  intro d a b s h
  refine completes_of_run (he d a b s) h ?_
  unfold scalar2; rw [hf]; exact scalarOut_done h.1 _ _

theorem computes3 {mk : Name → Name → Name → Name → Instr} {f : Word → Word → Word → Word → Prop}
    {g : Word → Word → Word → Word}
    (he : ∀ d a b c s, exec (mk d a b c) s = run (mk d a b c) s (scalar3 d a b c g)) (hf : ∀ x y z, f x y z (g x y z)) :
    Computes3 mk f :=
  fun d a b c s h => ⟨_, hf _ _ _, completes_of_run (he d a b c s) h (scalarOut_done h.1 _ _)⟩

theorem foldl_cancel_nil (ws : List TWrite) (c : Core) (h : c.pending = []) :
    ws.foldl (fun c w => c.cancel w.tgt) c = c := by
  induction ws with
  | nil => rfl
  | cons w ws ih =>
    have : c.cancel w.tgt = c := by simp [Core.cancel, h]; rw [← h]
    rw [List.foldl_cons, this, ih]

/-- A late write of a core on its own: only the late writes and their counter change. -/
theorem Core.later_alone {c : Core} (hi : c.interval = none) (ws : List TWrite) (fl : BitVec 5) (fll : Label) (left : Nat)
    (acq : Bool) : (c.later ws fl fll left acq) =
      { c with pending := (c.later ws fl fll left acq).pending, nextId := c.nextId + 1 } := by
  have : ∀ (ws : List TWrite) (c : Core), (ws.foldl (fun c w => c.cancel w.tgt) c) =
      { c with pending := (ws.foldl (fun c w => c.cancel w.tgt) c).pending } := by
    intro ws
    induction ws with
    | nil => intro c; rfl
    | cons w ws ih => intro c; rw [List.foldl_cons, ih]; rfl
  simp only [Core.later]
  rw [this ws c]
  generalize (ws.foldl (fun c w => c.cancel w.tgt) c).pending = p
  rw [Core.note_alone (by simpa using hi), Core.noteEntries_alone (by simpa using hi)]

theorem Core.later_length (c : Core) (ws : List TWrite) (fl : BitVec 5) (fll : Label) (left : Nat) (acq : Bool) :
    (c.later ws fl fll left acq).pending.length = c.pending.length + 1 := by
  have : ∀ (ws : List TWrite) (c : Core), (ws.foldl (fun c w => c.cancel w.tgt) c).pending.length = c.pending.length := by
    intro ws
    induction ws with
    | nil => intro c; rfl
    | cons w ws ih => intro c; rw [List.foldl_cons, ih]; simp [Core.cancel]
  simp [Core.later, this]

theorem Core.later_pending {c : Core} (h : c.pending = []) (ws : List TWrite) (fl : BitVec 5) (fll : Label) (left : Nat)
    (acq : Bool) : (c.later ws fl fll left acq).pending = [⟨c.nextId, ws, fl, c.lo, fll, c.word, c.issuePc, left, acq, false, false, false⟩] := by
  simp [Core.later, foldl_cancel_nil ws c h, h]

/-- The only late write of a core lands. -/
theorem Core.landReady_one {c : Core} (hi : c.interval = none) {p : Pending} (hp : c.pending = [p]) (hl : p.left = 0)
    (hx : p.xmax = false) (hf : p.flags = 0) :
    c.landReady = p.writes.foldl Core.landOne { c with pending := [], xwait := c.xwait.filter (fun x => decide (x.id ≠ p.id)) } := by
  have keep : ∀ (ws : List TWrite) (c : Core), (ws.foldl Core.landOne c).interval = c.interval := by
    intro ws
    induction ws with
    | nil => intro c; rfl
    | cons w ws ih =>
      intro c; rw [List.foldl_cons, ih]
      unfold Core.landOne; split <;> first | rfl | simp
  simp only [Core.landReady, hp, List.filter_cons, hl, hx, List.filter_nil]
  simp only [decide_true, Bool.not_false, Bool.and_self, if_true, List.foldl_cons, List.foldl_nil, Core.land, Core.forget, hp,
    List.filter_cons, List.filter_nil]
  simp [Core.landFlags, Core.fillStream, keep, hi, hf]

/-- A late write issued by an instruction that completes (R48). -/
theorem later_issued {i : Instr} {s : State} (h : Alone s) (ws : List TWrite) (fl : BitVec 5) (fll : Label) (left : Nat)
    (acq : Bool) : LateIssued i s ((Res.done (s.mapCore (fun c => c.later ws fl fll left acq))).finish i) := by
  refine ⟨rfl, ?_, ?_⟩
  · show (s.core.later ws fl fll left acq).retire _ = _
    rw [Core.later_alone h.2]; rfl
  · exact Core.later_length _ _ _ _ _ _

/-- A late scalar result with q (R149, R152). -/
theorem lateQ_done {i : Instr} {s : State} (h : Alone s) (d : Name) (v : LVal) :
    WordLate i d v true s ((Res.done (s.mapCore (fun c => c.later (c.lateQ d v) 0 0 0 false))).finish i) := by
  refine ⟨later_issued h _ _ _ _ _, fun hp => ?_⟩
  have e := Core.later_alone h.2 (s.core.lateQ d v) 0 0 0 false
  have e2 := Core.later_pending hp (s.core.lateQ d v) 0 0 0 false
  show WordWritten d v true s.core ((s.core.later (s.core.lateQ d v) 0 0 0 false).retire _).landReady ∧
    ((s.core.later (s.core.lateQ d v) 0 0 0 false).retire _).landReady.pending = []
  have h1 : ((s.core.later (s.core.lateQ d v) 0 0 0 false).retire (instrBytes i)).interval = none := by rw [e]; exact h.2
  rw [Core.landReady_one h1 (show Core.pending (Core.retire _ _) = _ from e2) rfl rfl rfl]
  exact ⟨lateQ_lands _ _ _ _ rfl (by rw [e]; rfl) (by rw [e]; rfl) (by rw [e]; rfl) (by rw [e]; rfl) (by rw [e]; rfl),
    landOne_pending _ _⟩

/-- A branch (R167). -/
theorem branch_done {i : Instr} {s : State} (taken : Bool) (disp : Int) :
    Jumped i taken (s.core.pc + BitVec.ofInt 64 disp) s ((branch taken disp s).finish i) := by
  cases taken <;> exact ⟨rfl, rfl⟩

theorem branches2 {mk : Name → Name → Int → Instr} {cond : Word → Word → Prop} {g : Word → Word → Bool}
    (he : ∀ a b disp s, exec (mk a b disp) s = run (mk a b disp) s (branch2 a b disp g)) (hc : ∀ x y, g x y = true ↔ cond x y) :
    Branches2 mk cond :=
  fun a b disp s h => ⟨_, hc _ _, completes_of_run (he a b disp s) h (branch_done _ _)⟩

/-- What the checks of rows 7 to 10 of R52 leave when none fails. -/
theorem nameTrap_none {i : Instr} {c : Core} (h : nameTrap i c = none) : ∀ o ∈ i.operands,
    operandIllegal o = false ∧ operandMisaligned c.lb o = false ∧ operandBeyond c.lb c.top o = false := by
  intro o ho
  simp only [nameTrap, rowsTrap] at h
  repeat' split at h
  all_goals cases h
  rename_i h1 _ h2 _ h3 _ _
  simp only [List.find?_eq_none] at h1 h2 h3
  exact ⟨by simpa using h1 o ho, by simpa using h2 o ho, by simpa using h3 o ho⟩

/-- A c name that may issue names an aligned pair. -/
theorem cap_name {i : Instr} {c : Core} (h : nameTrap i c = none) {r : Role} {n : Name} (ho : ⟨r, .cap, n⟩ ∈ i.operands) :
    ∃ k, n = .w k ∧ (c.lb + k) % 2 = 0 := by
  have := nameTrap_none h _ ho
  cases n <;> simp [operandIllegal, operandMisaligned] at this
  exact ⟨_, rfl, by omega⟩

/-- A capability result. -/
theorem capOut_done {i : Instr} {s : State} (h : MayIssue i s) {r : Role} {d : Name} (ho : ⟨r, .cap, d⟩ ∈ i.operands)
    (k : Cap) (l : Label) : CapDone i d k l s ((capOut d k l s).finish i) := by
  obtain ⟨n, rfl, _⟩ := cap_name h.2 ho
  have hw := Core.wrCap_written h.1.2 n k l
  refine ⟨onlyResults_retire (Core.wrCap_like h.1.2 _ k l), ⟨hw.value, hw.lower, hw.upper, hw.entries, hw.pairs,
    hw.operands, hw.quotient⟩, fun hp => ?_⟩
  show (s.core.wrCap (.w n) k l).pending = []
  rw [Core.wrCap_alone h.1.2]
  exact Core.cancel_pending_nil _ _ hp

/-- A word result that q does not take. -/
theorem wordOut_done {i : Instr} {s : State} (h : Alone s) (d : Name) (v : LVal) :
    WordPut i d v s ((wordOut d v s).finish i) := by
  have hw := Core.wr_written h.2 d v
  exact ⟨onlyResults_retire (Core.wr_like h.2 d v), ⟨hw.value, hw.entries, hw.pairs, hw.operands, hw.quotient, hw.zero⟩,
    fun hp => Core.wr_pending_nil h.2 d v hp⟩

/-- The checks of an instruction whose body is guarded by them. -/
theorem checked_nil {i : Instr} {s : State} {P : State → Prop} {body : State → Res} (he : exec i s = run i s body)
    (h : MayIssue i s) (hp : P ((body s).finish i)) : Checked i s P [] := completes_of_run he h hp

theorem checked_cons {i : Instr} {s : State} {P : State → Prop} {body : State → Res} (he : exec i s = run i s body)
    (h : MayIssue i s) {p : Prop} {k : Cause} {v : Word} {rest : List (Prop × Cause × Word)}
    (hf : p → body s = .trap s k v) (hr : ¬ p → Checked i s P rest) : Checked i s P ((p, k, v) :: rest) :=
  ⟨fun g => by rw [he, run_ready h, hf g]; rfl, hr⟩

@[simp] theorem firstOf_one (x : Fails) : firstOf [x] = x := by
  cases x <;> rfl

@[simp] theorem guarded_failIf (p : Bool) (k : Cause) (v : Word) (rest : List Fails) (s : State) (f : State → Res) :
    guarded (firstOf (failIf p k v :: rest)) s f = if p = true then .trap s k v else guarded (firstOf rest) s f := by
  cases p <;> rfl

@[simp] theorem guarded_nil (s : State) (f : State → Res) : guarded (firstOf []) s f = f s := rfl

/-- An instruction guarded by checks, each of which says what it should: in order they raise their causes, and past them
the instruction has its effect. -/
theorem checked_guard {i : Instr} {s : State} {P : State → Prop} {body f : State → Res} (he : exec i s = run i s body)
    (hm : MayIssue i s) (L : List (Bool × Cause × Word)) (Q : List (Prop × Cause × Word))
    (hq : List.Forall₂ (fun l q => (q.1 ↔ l.1 = true) ∧ l.2 = q.2) L Q)
    (hb : body s = guarded (firstOf (L.map (fun x => failIf x.1 x.2.1 x.2.2))) s f)
    (hp : (∀ l ∈ L, l.1 = false) → P ((f s).finish i)) : Checked i s P Q := by
  have hx : exec i s = .next ((guarded (firstOf (L.map (fun x => failIf x.1 x.2.1 x.2.2))) s f).finish i) := by
    rw [he, run_ready hm, hb]
  clear he hb
  induction hq with
  | nil => exact ⟨_, hx, hp (by simp)⟩
  | @cons l q L Q h _ ih =>
    obtain ⟨lp, lk, lv⟩ := l
    obtain ⟨qp, qk, qv⟩ := q
    obtain ⟨h1, h2⟩ := h
    cases h2
    refine ⟨fun g => ?_, fun g => ih (fun a => hp ?_) ?_⟩
    · have : lp = true := h1.mp g
      rw [hx, List.map_cons, guarded_failIf, this]; rfl
    · intro l hl
      rcases List.mem_cons.mp hl with rfl | hl
      · simpa using fun y => g (h1.mpr y)
      · exact a l hl
    · have : lp = false := by simpa using fun y => g (h1.mpr y)
      rw [hx, List.map_cons, guarded_failIf, this]; simp

/-- The same for one check. -/
theorem checked_one {i : Instr} {s : State} {P : State → Prop} {body f : State → Res} (he : exec i s = run i s body)
    (hm : MayIssue i s) (p : Bool) {q : Prop} {k : Cause} {v : Word} (hq : q ↔ p = true)
    (hb : body s = guarded (failIf p k v) s f) (hp : p = false → P ((f s).finish i)) : Checked i s P [(q, k, v)] :=
  checked_guard he hm [(p, k, v)] _ (.cons ⟨hq, rfl⟩ .nil) (by simpa using hb) (fun a => hp (a (p, k, v) (by simp)))

end Sys2Proof.Machine
end

