-- ==== Sys2Proof/Laws/Topology.lean ====
section
/-! SUPPORT. The numbering of compute cores by tile and tile position (R5 to R8). -/

namespace Sys2Proof.Machine

/-- One die, core by core: the curve stays on the die, and its tile's first core and the core's position give the core back. -/
def dieCoreOk (q : Nat) : Bool :=
  let h := hilbert (q % 32) (q / 32 % 32)
  let xy := hilbertInv (16 * (h / 16))
  decide (h < 1024 ∧ xy.1 < 32 ∧ xy.2 < 32 ∧ (xy.2 / 4 * 4 + tilePos q / 4) * 32 + (xy.1 / 4 * 4 + tilePos q % 4) = q)

theorem dieCoreOk_all : (List.range 1024).all dieCoreOk = true := by decide +kernel

theorem chipOrder_round (d : Nat) (h : d < 8) : chipOrderDie (chipOrderPos d) = d ∧ chipOrderPos d < 8 := by
  have : ∀ d < 8, chipOrderDie (chipOrderPos d) = d ∧ chipOrderPos d < 8 := by decide
  exact this d h

/-- A compute core stands at the position of its tile that its number says. -/
theorem tileCore_tileOf (p : Nat) (h : p < 8192) : tileCore (tileOf p) (tilePos p) = p := by
  have ok : dieCoreOk (p % 1024) = true := List.all_eq_true.1 dieCoreOk_all _ (List.mem_range.2 (Nat.mod_lt _ (by omega)))
  obtain ⟨hd, hp⟩ := chipOrder_round (dieOf p) (by unfold dieOf; omega)
  have hx : p % 1024 % 32 = xOf p := by unfold xOf; omega
  have hy : p % 1024 / 32 % 32 = yOf p := by unfold yOf; omega
  have hpos : tilePos (p % 1024) = tilePos p := by
    unfold tilePos xOf yOf; rw [show p % 1024 / 32 % 32 = p / 32 % 32 by omega, show p % 1024 % 32 = p % 32 by omega]
  unfold dieCoreOk at ok
  rw [hx, hy, hpos] at ok
  simp only [decide_eq_true_eq] at ok
  obtain ⟨h1, h2, h3, h4⟩ := ok
  unfold tileCore tileOf chipIndex physOfChip
  generalize hilbert (xOf p) (yOf p) = k at *
  have e1 : 16 * ((chipOrderPos (dieOf p) * 1024 + k) / 16) / 1024 = chipOrderPos (dieOf p) := by omega
  have e2 : 16 * ((chipOrderPos (dieOf p) * 1024 + k) / 16) % 1024 = 16 * (k / 16) := by omega
  simp only [e1, e2, hd]
  generalize hilbertInv (16 * (k / 16)) = xy at *
  have hdie : dieOf p = p / 1024 := by unfold dieOf; omega
  have ed : dieOf (physOf (dieOf p) xy.2 xy.1) = dieOf p := by unfold physOf; unfold dieOf at *; omega
  have ey : yOf (physOf (dieOf p) xy.2 xy.1) = xy.2 := by unfold physOf yOf; omega
  have ex : xOf (physOf (dieOf p) xy.2 xy.1) = xy.1 := by unfold physOf xOf; omega
  rw [ed, ey, ex]
  unfold physOf
  omega

theorem tilePos_lt (p : Nat) : tilePos p < 16 := by
  unfold tilePos yOf xOf
  omega

end Sys2Proof.Machine
end

