-- ==== Sys2Proof/Tests/Slice0.lean ====
section
/-! SUPPORT. The model's own tests: words of the spec's encoding, ill-formed terms, single steps whose results the spec gives,
and states that meet the hypotheses of the statements. -/

namespace Sys2Proof.Tests

open Sys2Proof Sys2Proof.Machine

/-- Whether the decoder reads an instruction from words. -/
def reads (ws : List Nat) (i : Instr) : Bool :=
  match decodeWords ws with
  | .ok j => decide (j = i)
  | .error _ => false

/-- Short names for the four lengths (R33). -/
def w : Hd := ⟨.w32, false⟩
def ws : Hd := ⟨.w32, true⟩
def xl : Hd := ⟨.x96l, false⟩
def x3 : Hd := ⟨.x96x, false⟩
def x3s : Hd := ⟨.x96x, true⟩
def x5 : Hd := ⟨.x160, false⟩

/-- Whether words decode. -/
def decodes (ws : List Nat) : Bool :=
  match decodeWords ws with
  | .ok _ => true
  | .error _ => false


/-- R43, MAJOR 0x00. -/
theorem test_words_arithmetic : [
    ([0x0B85E000], .add ⟨.w32, false⟩ .q (.w 5) (.w 46)),
    ([0x127AB800], .sub ⟨.w32, false⟩ (.w 46) .zr (.w 9)),
    ([0x2079DC00], .mul ⟨.w32, false⟩ (.o 7) .st (.w 1)),
    ([0x3E283000], .mulh ⟨.w32, false⟩ (.w 12) (.w 40) .q),
    ([0x4CE11C00], .mulhz ⟨.w32, false⟩ (.w 7) (.w 33) (.o 3)),
    ([0x5B85E000], .div ⟨.w32, false⟩ .q (.w 5) (.w 46)),
    ([0x627AB800], .divz ⟨.w32, false⟩ (.w 46) .zr (.w 9)),
    ([0x7079DC00], .rem ⟨.w32, false⟩ (.o 7) .st (.w 1)),
    ([0x8E283000], .remz ⟨.w32, false⟩ (.w 12) (.w 40) .q),
    ([0x9CE11C00], .min ⟨.w32, false⟩ (.w 7) (.w 33) (.o 3)),
    ([0xAB85E000], .max ⟨.w32, false⟩ .q (.w 5) (.w 46)),
    ([0xB27AB800], .minz ⟨.w32, false⟩ (.w 46) .zr (.w 9)),
    ([0xC079DC00], .maxz ⟨.w32, false⟩ (.o 7) .st (.w 1)),
    ([0x0084B002, 0x00FF5FEF, 0x00000000], .mul ⟨.x96x, false⟩ (.w 300) (.w 4079) (.o 5))].all (fun x : List Nat × Instr => reads x.1 x.2) = true := by decide

/-- R43, MAJOR 0x01; LOGT as the chapter of scalar words writes it out. -/
theorem test_words_logic : [
    ([0x0E283008], .andW ⟨.w32, false⟩ (.w 12) (.w 40) .q),
    ([0x1CE11C08], .orW ⟨.w32, false⟩ (.w 7) (.w 33) (.o 3)),
    ([0x2B85E008], .xor ⟨.w32, false⟩ .q (.w 5) (.w 46)),
    ([0x327AB808], .andn ⟨.w32, false⟩ (.w 46) .zr (.w 9)),
    ([0x4079DC08], .orn ⟨.w32, false⟩ (.o 7) .st (.w 1)),
    ([0x5E283008], .xnor ⟨.w32, false⟩ (.w 12) (.w 40) .q),
    ([0x0180100A, 0x00002001, 0x00E80003], .logt ⟨.x96x, false⟩ (.w 4) (.w 1) (.w 2) (.w 3) 0xE8)].all (fun x : List Nat × Instr => reads x.1 x.2) = true := by decide

/-- R43, MAJOR 0x02. -/
theorem test_words_shifts : [
    ([0x0CE11C10], .shl ⟨.w32, false⟩ (.w 7) (.w 33) (.o 3)),
    ([0x1B85E010], .shr ⟨.w32, false⟩ .q (.w 5) (.w 46)),
    ([0x227AB810], .sar ⟨.w32, false⟩ (.w 46) .zr (.w 9)),
    ([0x3079DC10], .rot ⟨.w32, false⟩ (.o 7) .st (.w 1)),
    ([0x01001412, 0x00007006, 0x00000008], .fshl ⟨.x96x, false⟩ (.w 5) (.w 6) (.w 7) (.w 8)),
    ([0x01401412, 0x00007006, 0x00000FF9], .fshr ⟨.x96x, false⟩ (.w 5) (.w 6) (.w 7) .st)].all (fun x : List Nat × Instr => reads x.1 x.2) = true := by decide

/-- R43, MAJORs 0x03 to 0x05; BFX as the chapter writes it out. -/
theorem test_words_bits : [
    ([0x00283018], .clz ⟨.w32, false⟩ (.w 12) (.w 40)),
    ([0x10211C18], .ctz ⟨.w32, false⟩ (.w 7) (.w 33)),
    ([0x2005E018], .popc ⟨.w32, false⟩ .q (.w 5)),
    ([0x303AB818], .brev ⟨.w32, false⟩ (.w 46) .zr),
    ([0x4039DC18], .bswap ⟨.w32, false⟩ (.o 7) .st),
    ([0x70283018], .mov ⟨.w32, false⟩ (.w 12) (.w 40)),
    ([0x57C20418], .sext ⟨.w32, false⟩ (.w 1) (.w 2) 31),
    ([0x6FC20418], .zext ⟨.w32, false⟩ (.w 1) (.w 2) 63),
    ([0x0000142A, 0x00000006, 0x02C80000], .bfx ⟨.x96x, false⟩ (.w 5) (.w 6) 8 11),
    ([0x0040142A, 0x00000006, 0x003F0000], .bfxz ⟨.x96x, false⟩ (.w 5) (.w 6) 63 0),
    ([0x0080142A, 0x00000006, 0x0FC00000], .bfi ⟨.x96x, false⟩ (.w 5) (.w 6) 0 63),
    ([0x0CE11C20], .seq ⟨.w32, false⟩ (.w 7) (.w 33) (.o 3)),
    ([0x1B85E020], .sne ⟨.w32, false⟩ .q (.w 5) (.w 46)),
    ([0x227AB820], .slt ⟨.w32, false⟩ (.w 46) .zr (.w 9)),
    ([0x3079DC20], .sltz ⟨.w32, false⟩ (.o 7) .st (.w 1)),
    ([0x4E283020], .sel ⟨.w32, false⟩ (.w 12) (.w 40) .q)].all (fun x : List Nat × Instr => reads x.1 x.2) = true := by decide

/-- R36, R38, R41, R43, MAJORs 0x10 to 0x18; ADDI and LI as the chapter writes them out. -/
theorem test_words_immediates : [
    ([0xFFC20880], .addi ⟨.w32, false⟩ (.w 2) (.w 2) (-1)),
    ([0x80040C88], .andi ⟨.w32, false⟩ (.w 3) (.w 4) (-512)),
    ([0x80040C90], .ori ⟨.w32, false⟩ (.w 3) (.w 4) (-512)),
    ([0x80040C98], .xori ⟨.w32, false⟩ (.w 3) (.w 4) (-512)),
    ([0x0FC40CA0], .shli ⟨.w32, false⟩ (.w 3) (.w 4) 63),
    ([0x0FC40CA8], .shri ⟨.w32, false⟩ (.w 3) (.w 4) 63),
    ([0x0FC40CB0], .sari ⟨.w32, false⟩ (.w 3) (.w 4) 63),
    ([0x7FC40CB8], .slti ⟨.w32, false⟩ (.w 3) (.w 4) 511),
    ([0xB50024C0], .li ⟨.w32, false⟩ (.w 9) (-300)),
    ([0x000024C1, 0xFFFFFFFE, 0xFFFFFFFF], .li ⟨.x96l, false⟩ (.w 9) (-2)),
    ([0x000024C2, 0x00000000, 0x80000000], .li ⟨.x96x, false⟩ (.w 9) (-32768)),
    ([0x00002483, 0x0000000A, 0x00000000, 0x00000001, 0x7FFFFFFF], .addi ⟨.x160, false⟩ (.w 9) (.w 10) 0x7FFFFFFF00000001)].all (fun x : List Nat × Instr => reads x.1 x.2) = true := by decide

/-- R35, R36, R41, R43, MAJORs 0x20 to 0x27, 0x2B; J as the chapter writes it out. -/
theorem test_words_branches : [
    ([0x80040D00], .beq ⟨.w32, false⟩ (.w 3) (.w 4) (-2048)),
    ([0x80040D08], .bne ⟨.w32, false⟩ (.w 3) (.w 4) (-2048)),
    ([0x80040D10], .blt ⟨.w32, false⟩ (.w 3) (.w 4) (-2048)),
    ([0x80040D18], .bge ⟨.w32, false⟩ (.w 3) (.w 4) (-2048)),
    ([0x80040D20], .blo ⟨.w32, false⟩ (.w 3) (.w 4) (-2048)),
    ([0x80040D28], .bhs ⟨.w32, false⟩ (.w 3) (.w 4) (-2048)),
    ([0x7FC00D30], .bz ⟨.w32, false⟩ (.w 3) 2044),
    ([0x00410D30], .bnz ⟨.w32, false⟩ (.w 3) 4),
    ([0x00010138], .j ⟨.w32, false⟩ 0x100),
    ([0x00000102, 0x00004003, 0x80000000], .beq ⟨.x96x, false⟩ (.w 3) (.w 4) (-131072)),
    ([0x00000139, 0x00000000, 0x00000001], .j ⟨.x96l, false⟩ 0x100000000),
    ([0x0145FD58], .rpt ⟨.w32, false⟩ 63 5 40)].all (fun x : List Nat × Instr => reads x.1 x.2) = true := by decide

/-- R43, MAJORs 0x28 to 0x2A; five of them as the chapter of contexts writes them out. -/
theorem test_words_contexts : [
    ([0x00140140], .lns ⟨.w32, false⟩ (.w 20)),
    ([0x10001940], .lget ⟨.w32, false⟩ (.w 6)),
    ([0x20060140], .ldrain ⟨.w32, false⟩ (.w 6)),
    ([0x30062940], .callc ⟨.w32, false⟩ 10 (.w 6)),
    ([0x40001140], .ret ⟨.w32, false⟩ 4),
    ([0x52080140], .park ⟨.w32, false⟩ (.w 8) (.w 8)),
    ([0x60380140], .trap ⟨.w32, false⟩ .q),
    ([0x70000140], .eret ⟨.w32, false⟩),
    ([0x00102948], .call ⟨.w32, false⟩ 10 0x40),
    ([0x0154A150], .lspill ⟨.w32, false⟩ (.w 40) (.w 20) (.w 5)),
    ([0x1154A150], .lfill ⟨.w32, false⟩ (.w 40) (.w 20) (.w 5)),
    ([0x2154A150], .lmove ⟨.w32, false⟩ (.w 40) (.w 20) (.w 5))].all (fun x : List Nat × Instr => reads x.1 x.2) = true := by decide

/-- R43, MAJORs 0x30 to 0x33; five of them as the chapter of capabilities writes them out. -/
theorem test_words_capabilities : [
    ([0x00081180], .cget ⟨.w32, false⟩ 0 (.w 4) (.w 8)),
    ([0x70081180], .cget ⟨.w32, false⟩ 7 (.w 4) (.w 8)),
    ([0x01882988], .csetaddr ⟨.w32, false⟩ (.w 10) (.w 8) (.w 6)),
    ([0x11882988], .cincaddr ⟨.w32, false⟩ (.w 10) (.w 8) (.w 6)),
    ([0x31882988], .cnarrowx ⟨.w32, false⟩ (.w 10) (.w 8) (.w 6)),
    ([0x41882988], .cdrop ⟨.w32, false⟩ (.w 10) (.w 8) (.w 6)),
    ([0x51882988], .craiselbl ⟨.w32, false⟩ (.w 10) (.w 8) (.w 6)),
    ([0x21882988], .cnarrow ⟨.w32, false⟩ (.w 10) (.w 8) (.w 6)),
    ([0x610A3188], .cseal ⟨.w32, false⟩ (.w 12) (.w 10) (.w 4)),
    ([0x710A3188], .cunseal ⟨.w32, false⟩ (.w 12) (.w 10) (.w 4)),
    ([0x800A3188], .cgate ⟨.w32, false⟩ (.w 12) (.w 10)),
    ([0x900A3188], .cstrip ⟨.w32, false⟩ (.w 12) (.w 10)),
    ([0xA00A3188], .cmov ⟨.w32, false⟩ (.w 12) (.w 10)),
    ([0xB10AE188], .cwithin ⟨.w32, false⟩ .q (.w 10) (.w 4)),
    ([0xC0093188], .cfitlen ⟨.w32, false⟩ (.w 12) (.w 9)),
    ([0xD0093188], .cfitmask ⟨.w32, false⟩ (.w 12) (.w 9)),
    ([0xFC082190], .cincaddri ⟨.w32, false⟩ (.w 8) (.w 8) (-16)),
    ([0x01020198], .crvmark ⟨.w32, false⟩ (.w 2) (.w 4)),
    ([0x10020198], .csweep ⟨.w32, false⟩ (.w 2))].all (fun x : List Nat × Instr => reads x.1 x.2) = true := by decide

/-- R35, R36, R38, R43, MAJORs 0x40 to 0x4F; LDVG.nf as the chapter of lines writes it out. -/
theorem test_words_memory : [
    ([0x80422200], .ldS8 ⟨.w32, false⟩ (.w 8) (.w 2) (-511)),
    ([0x80422208], .ldZ8 ⟨.w32, false⟩ (.w 8) (.w 2) (-511)),
    ([0x80422210], .ldS16 ⟨.w32, false⟩ (.w 8) (.w 2) (-1022)),
    ([0x80422218], .ldZ16 ⟨.w32, false⟩ (.w 8) (.w 2) (-1022)),
    ([0x80422220], .ldS32 ⟨.w32, false⟩ (.w 8) (.w 2) (-2044)),
    ([0x80422228], .ldZ32 ⟨.w32, false⟩ (.w 8) (.w 2) (-2044)),
    ([0x80422230], .ldD ⟨.w32, false⟩ (.w 8) (.w 2) (-4088)),
    ([0x80422238], .stB ⟨.w32, false⟩ (.w 8) (.w 2) (-511)),
    ([0x80422240], .stH ⟨.w32, false⟩ (.w 8) (.w 2) (-1022)),
    ([0x80422248], .stW ⟨.w32, false⟩ (.w 8) (.w 2) (-2044)),
    ([0x80422250], .stD ⟨.w32, false⟩ (.w 8) (.w 2) (-4088)),
    ([0x80422258], .ldc ⟨.w32, false⟩ (.w 8) (.w 2) (-8176)),
    ([0x80422260], .stc ⟨.w32, false⟩ (.w 8) (.w 2) (-8176)),
    ([0x80422268], .ldv ⟨.w32, false⟩ (.w 8) (.w 2) (-16352)),
    ([0x80422270], .stv ⟨.w32, false⟩ (.w 8) (.w 2) (-16352)),
    ([0x00002232, 0x00000002, 0xFFF90000], .ldD ⟨.x96x, false⟩ (.w 8) (.w 2) (-7)),
    ([0x39422278], .lda ⟨.w32, false⟩ (.w 8) (.w 2) 0 .sz32 .acq .sys),
    ([0x22022278], .lda ⟨.w32, false⟩ (.w 8) (.w 2) 0 .s8 .sc .die),
    ([0xC0C22278], .stl ⟨.w32, false⟩ (.w 8) (.w 2) 0 .sd .rel .fab),
    ([0x0040227A, 0x97000002, 0xFFFD6000], .stl ⟨.x96x, false⟩ (.w 8) (.w 2) (-3) .sb .sc .pkg),
    ([0x5080227A, 0x07004002, 0x000C0000], .ldvg ⟨.x96x, false⟩ (.w 8) (.w 2) (.w 4) 12 5 .f32),
    ([0x00C0227A, 0x00004002, 0x00000FF3], .ldvgNf ⟨.x96x, false⟩ (.w 8) (.w 2) (.w 4) (.o 3) 0 0 .implied),
    ([0x1100227A, 0x06004002, 0x00000000], .stvs ⟨.x96x, false⟩ (.w 8) (.w 2) (.w 4) 0 1 .z32),
    ([0x0140027A, 0x00000000, 0x00010000], .bsleep ⟨.x96x, false⟩ 1),
    ([0x0180027A, 0x00000000, 0x00020000], .bwake ⟨.x96x, false⟩ 2)].all (fun x : List Nat × Instr => reads x.1 x.2) = true := by decide

/-- R43, MAJORs 0x50 to 0x52. -/
theorem test_words_atomics : [
    ([0x00000E82, 0x00004002, 0xFFF80000], .amoaddW ⟨.x96x, false⟩ (.w 3) (.w 2) (.w 4) (-8) .rlx .core),
    ([0x00400E82, 0x20004002, 0xFFF81000], .amoandW ⟨.x96x, false⟩ (.w 3) (.w 2) (.w 4) (-8) .acq .gang),
    ([0x00800E82, 0x40004002, 0xFFF82000], .amoorW ⟨.x96x, false⟩ (.w 3) (.w 2) (.w 4) (-8) .rel .tile),
    ([0x00C00E82, 0x60004002, 0xFFF83000], .amoxorW ⟨.x96x, false⟩ (.w 3) (.w 2) (.w 4) (-8) .ar .clus),
    ([0x01000E82, 0x80004002, 0xFFF84000], .amominW ⟨.x96x, false⟩ (.w 3) (.w 2) (.w 4) (-8) .sc .die),
    ([0x01400E82, 0x00004002, 0xFFF85000], .amomaxW ⟨.x96x, false⟩ (.w 3) (.w 2) (.w 4) (-8) .rlx .part),
    ([0x01800E82, 0x20004002, 0xFFF86000], .amominzW ⟨.x96x, false⟩ (.w 3) (.w 2) (.w 4) (-8) .acq .pkg),
    ([0x01C00E82, 0x40004002, 0xFFF87000], .amomaxzW ⟨.x96x, false⟩ (.w 3) (.w 2) (.w 4) (-8) .rel .sys),
    ([0x02000E82, 0x60004002, 0xFFF88000], .amoswapW ⟨.x96x, false⟩ (.w 3) (.w 2) (.w 4) (-8) .ar .fab),
    ([0x02400E82, 0x80004002, 0xFFF80000], .amocasW ⟨.x96x, false⟩ (.w 3) (.w 2) (.w 4) (-8) .sc .core),
    ([0x00000E8A, 0x00004002, 0xFFF80000], .amoaddD ⟨.x96x, false⟩ (.w 3) (.w 2) (.w 4) (-8) .rlx .core),
    ([0x00400E8A, 0x20004002, 0xFFF81000], .amoandD ⟨.x96x, false⟩ (.w 3) (.w 2) (.w 4) (-8) .acq .gang),
    ([0x00800E8A, 0x40004002, 0xFFF82000], .amoorD ⟨.x96x, false⟩ (.w 3) (.w 2) (.w 4) (-8) .rel .tile),
    ([0x00C00E8A, 0x60004002, 0xFFF83000], .amoxorD ⟨.x96x, false⟩ (.w 3) (.w 2) (.w 4) (-8) .ar .clus),
    ([0x01000E8A, 0x80004002, 0xFFF84000], .amominD ⟨.x96x, false⟩ (.w 3) (.w 2) (.w 4) (-8) .sc .die),
    ([0x01400E8A, 0x00004002, 0xFFF85000], .amomaxD ⟨.x96x, false⟩ (.w 3) (.w 2) (.w 4) (-8) .rlx .part),
    ([0x01800E8A, 0x20004002, 0xFFF86000], .amominzD ⟨.x96x, false⟩ (.w 3) (.w 2) (.w 4) (-8) .acq .pkg),
    ([0x01C00E8A, 0x40004002, 0xFFF87000], .amomaxzD ⟨.x96x, false⟩ (.w 3) (.w 2) (.w 4) (-8) .rel .sys),
    ([0x02000E8A, 0x60004002, 0xFFF88000], .amoswapD ⟨.x96x, false⟩ (.w 3) (.w 2) (.w 4) (-8) .ar .fab),
    ([0x02400E8A, 0x80004002, 0xFFF80000], .amocasD ⟨.x96x, false⟩ (.w 3) (.w 2) (.w 4) (-8) .sc .core),
    ([0x01020E88], .amoaddD ⟨.w32, false⟩ (.w 3) (.w 2) (.w 4) 0 .rlx .core),
    ([0x01021A90], .amocasc ⟨.w32, false⟩ (.w 6) (.w 2) (.w 4) 0 .rlx .core)].all (fun x : List Nat × Instr => reads x.1 x.2) = true := by decide

/-- R43, MAJORs 0x58 to 0x5A, as the chapter of barriers writes most of them out. -/
theorem test_words_waiting : [
    ([0x000512C0], .wfe ⟨.w32, false⟩ (.w 4) (.w 5)),
    ([0x10C202C0], .sev ⟨.w32, false⟩ (.w 2) (.w 3)),
    ([0x200802C0], .bara ⟨.w32, false⟩ (.w 8)),
    ([0x300802C4], .barw ⟨.w32, true⟩ (.w 8)),
    ([0x400802C0], .semp ⟨.w32, false⟩ (.w 8)),
    ([0x500802C0], .semv ⟨.w32, false⟩ (.w 8)),
    ([0x0000F2C8], .fence ⟨.w32, false⟩ .sc .sys),
    ([0x00004AC8], .fence ⟨.w32, false⟩ .rel .tile),
    ([0x024602D0], .waitva ⟨.w32, false⟩ (.w 6) (.w 9) .rlx .core),
    ([0x124602D0], .wakeva ⟨.w32, false⟩ (.w 6) (.w 9) .rlx .core),
    ([0x220602D0], .mpost ⟨.w32, false⟩ (.w 6) (.w 8) .rlx .core),
    ([0x320302D0], .send ⟨.w32, false⟩ (.w 3) (.w 8) .rlx .core),
    ([0x403A42D0], .recv ⟨.w32, false⟩ (.w 16) .zr .rlx .core),
    ([0x00C002D2, 0x40008003, 0x00005000], .send ⟨.x96x, false⟩ (.w 3) (.w 8) .rel .part),
    ([0x010042D2, 0x20000FFA, 0x00005000], .recv ⟨.x96x, false⟩ (.w 16) .zr .acq .part)].all (fun x : List Nat × Instr => reads x.1 x.2) = true := by decide

/-- R40, R43, MAJORs 0x60 to 0x6C. -/
theorem test_words_lanes : [
    ([0x53042300], .vadd ⟨.w32, false⟩ (.w 8) (.w 4) (.w 12) 5 .implied),
    ([0xD3042300], .vsub ⟨.w32, false⟩ (.w 8) (.w 4) (.w 12) 5 .implied),
    ([0x53042308], .vmul ⟨.w32, false⟩ (.w 8) (.w 4) (.w 12) 5 .implied),
    ([0x53042310], .vmad ⟨.w32, false⟩ (.w 8) (.w 4) (.w 12) 5 .implied),
    ([0x53042328], .vand ⟨.w32, false⟩ (.w 8) (.w 4) (.w 12) 5 .implied),
    ([0x53042330], .vor ⟨.w32, false⟩ (.w 8) (.w 4) (.w 12) 5 .implied),
    ([0x53042338], .vxor ⟨.w32, false⟩ (.w 8) (.w 4) (.w 12) 5 .implied),
    ([0x53042340], .vshl ⟨.w32, false⟩ (.w 8) (.w 4) (.w 12) 5 .implied),
    ([0x53042348], .vshr ⟨.w32, false⟩ (.w 8) (.w 4) (.w 12) 5 .implied),
    ([0xD3042348], .vsar ⟨.w32, false⟩ (.w 8) (.w 4) (.w 12) 5 .implied),
    ([0x03042318], .vmin ⟨.w32, false⟩ (.w 8) (.w 4) (.w 12) 0 .implied),
    ([0x83042320], .vmax ⟨.w32, false⟩ (.w 8) (.w 4) (.w 12) 0 .z32),
    ([0x00042350], .vabs ⟨.w32, false⟩ (.w 8) (.w 4) 0 .implied),
    ([0xF0042350], .vneg ⟨.w32, false⟩ (.w 8) (.w 4) 7 .implied),
    ([0x20402302, 0x0100C004, 0x00000000], .vsub ⟨.x96x, false⟩ (.w 8) (.w 4) (.w 12) 2 .i8),
    ([0x3000235A, 0x0400C004, 0x00960010], .vlogt ⟨.x96x, false⟩ (.w 8) (.w 4) (.w 12) (.w 16) 0x96 3 .z8),
    ([0x103FCB62, 0x0900C004, 0x00060000], .vcmp ⟨.x96x, false⟩ (.o 2) (.w 4) (.w 12) 6 1 .f16),
    ([0x10402362, 0x0B00C004, 0x00000000], .vsel ⟨.x96x, false⟩ (.w 8) (.w 4) (.w 12) 1 .e5m2),
    ([0x00802362, 0x02000FF8, 0x00000000], .vbcast ⟨.x96x, false⟩ (.w 8) .q 0 .i16),
    ([0x00C00F62, 0x00005004, 0x00000000], .vext ⟨.x96x, false⟩ (.w 3) (.w 4) (.w 5) .implied),
    ([0x01002362, 0x03005003, 0x00000000], .vins ⟨.x96x, false⟩ (.w 8) (.w 3) (.w 5) .i32),
    ([0x01402362, 0x0100C004, 0x00000000], .vperm ⟨.x96x, false⟩ (.w 8) (.w 4) (.w 12) 0 .i8),
    ([0x71800F62, 0x07000004, 0x00020000], .vred ⟨.x96x, false⟩ (.w 3) (.w 4) 2 7 .f32)].all (fun x : List Nat × Instr => reads x.1 x.2) = true := by decide

/-- R40, R43, MAJORs 0x70 to 0x79; VCVT as the chapter of lanes writes it out. -/
theorem test_words_floats : [
    ([0x33042380], .vfadd ⟨.w32, false⟩ (.w 8) (.w 4) (.w 12) 3 .implied),
    ([0xB3042380], .vfsub ⟨.w32, false⟩ (.w 8) (.w 4) (.w 12) 3 .implied),
    ([0x33042388], .vfmul ⟨.w32, false⟩ (.w 8) (.w 4) (.w 12) 3 .implied),
    ([0x33042390], .vfma ⟨.w32, false⟩ (.w 8) (.w 4) (.w 12) 3 .implied),
    ([0xB3042390], .vfnma ⟨.w32, false⟩ (.w 8) (.w 4) (.w 12) 3 .implied),
    ([0x33042398], .vfmin ⟨.w32, false⟩ (.w 8) (.w 4) (.w 12) 3 .implied),
    ([0xB3042398], .vfmax ⟨.w32, false⟩ (.w 8) (.w 4) (.w 12) 3 .implied),
    ([0x330423A0], .vfdiv ⟨.w32, false⟩ (.w 8) (.w 4) (.w 12) 3 .implied),
    ([0x000423A8], .vfsqrt ⟨.w32, false⟩ (.w 8) (.w 4) 0 .implied),
    ([0x004423A8], .vfrcp ⟨.w32, false⟩ (.w 8) (.w 4) 0 .implied),
    ([0x008423A8], .vfrsq ⟨.w32, false⟩ (.w 8) (.w 4) 0 .implied),
    ([0x00C423A8], .vfexp2 ⟨.w32, false⟩ (.w 8) (.w 4) 0 .implied),
    ([0x010423A8], .vflog2 ⟨.w32, false⟩ (.w 8) (.w 4) 0 .implied),
    ([0x014423A8], .vftanh ⟨.w32, false⟩ (.w 8) (.w 4) 0 .implied),
    ([0x000023C2, 0x08000004, 0x00270000], .vcvt ⟨.x96x, false⟩ (.w 8) (.w 4) 7 1 0 .bf16),
    ([0x004023C2, 0x0C000004, 0x00000000], .vquant ⟨.x96x, false⟩ (.w 8) (.w 4) .kb2),
    ([0x008023C2, 0x0E000004, 0x00000000], .vdeq ⟨.x96x, false⟩ (.w 8) (.w 4) .kb7),
    ([0x000023CA, 0x06000004, 0x00000000], .xmax ⟨.x96x, false⟩ (.w 8) (.w 4) .z32),
    ([0x004023CA, 0x0D00C004, 0x00000000], .vbaddq ⟨.x96x, false⟩ (.w 8) (.w 4) (.w 12) .kb4)].all (fun x : List Nat × Instr => reads x.1 x.2) = true := by decide

/-- R43, MAJOR 0x7C, as the chapters of planes and of job cards write most of them out. -/
theorem test_words_engines : [
    ([0x000013E2, 0x0D000008, 0x00020000], .mload ⟨.x96x, false⟩ (.w 4) (.w 8) 0 0 1 .kb4),
    ([0x007FEBE2, 0x00000000, 0x00010000], .mswap ⟨.x96x, false⟩ .zr 0 1),
    ([0x008017E2, 0x0E00600A, 0x00C70047], .mrun ⟨.x96x, false⟩ (.w 5) (.w 10) (.w 6) 0x47 199 .kb7 0),
    ([0x00C013E2, 0x0000600C, 0x00004000], .mdrain ⟨.x96x, false⟩ (.w 4) (.w 12) (.w 6) 0 .die 0),
    ([0x010003E2, 0x00000003, 0x00050000], .mslot ⟨.x96x, false⟩ (.w 3) 5),
    ([0x014027E2, 0x00000000, 0x00000000], .mstat ⟨.x96x, false⟩ (.w 9) 0),
    ([0x020013E2, 0x0000C00A, 0x00000043], .cpy ⟨.x96x, false⟩ (.w 4) (.w 10) (.w 12) 0x43 .core 0),
    ([0x224017E2, 0x0000C00A, 0x00000043], .cpym ⟨.x96x, false⟩ (.w 5) (.w 10) (.w 12) 0x43 2 .core 0),
    ([0x02801BE2, 0x0E01000E, 0x00000000], .conv ⟨.x96x, false⟩ (.w 6) (.w 14) (.w 16) 0 .kb7 .core 0),
    ([0x020013E3, 0x0000C00A, 0x00000003, 0x00030004, 0x00010002], .cpy ⟨.x160, false⟩ (.w 4) (.w 10) (.w 12) 3 .core 0x0001000200030004),
    ([0x02C01FE2, 0x00000004, 0x00000000], .jwait ⟨.x96x, false⟩ (.w 7) (.w 4) (.w 0) 0 0),
    ([0x02C01FE2, 0x00008000, 0x00010003], .jwait ⟨.x96x, false⟩ (.w 7) (.w 0) (.w 8) 3 1),
    ([0x03001FE2, 0x00000004, 0x00000000], .jstat ⟨.x96x, false⟩ (.w 7) (.w 4) 0 0),
    ([0x03401FE2, 0x00000004, 0x00000000], .jcancel ⟨.x96x, false⟩ (.w 7) (.w 4))].all (fun x : List Nat × Instr => reads x.1 x.2) = true := by decide

/-- R43, MAJOR 0x7D, as the chapters of groups, queues, kernels and tables write most of them out. -/
theorem test_words_groups : [
    ([0x008003E8], .gang ⟨.w32, false⟩ 2),
    ([0x010003EC], .gang ⟨.w32, true⟩ 4),
    ([0x100003E8], .split ⟨.w32, false⟩),
    ([0x200003E8], .mpair ⟨.w32, false⟩),
    ([0x300003E8], .munpair ⟨.w32, false⟩),
    ([0x400017E8], .mchk ⟨.w32, false⟩ (.w 5)),
    ([0x540A13E8], .qpush ⟨.w32, false⟩ (.w 4) (.w 10) (.w 16) 0),
    ([0x640A13E8], .qpushWait ⟨.w32, false⟩ (.w 4) (.w 10) (.w 16)),
    ([0x700A23EC], .qpop ⟨.w32, true⟩ (.w 8) (.w 10)),
    ([0x800A23E8], .qpopg ⟨.w32, false⟩ (.w 8) (.w 10)),
    ([0x900A17E8], .qstat ⟨.w32, false⟩ (.w 5) (.w 10)),
    ([0x014013EA, 0x0001000A, 0x00010000], .qpush ⟨.x96x, false⟩ (.w 4) (.w 10) (.w 16) 1),
    ([0xA40013E8], .spawn ⟨.w32, false⟩ (.w 4) (.w 16)),
    ([0xB00017EC], .shape ⟨.w32, true⟩ (.w 5) 0),
    ([0xB2401BE8], .shape ⟨.w32, false⟩ (.w 6) 9),
    ([0xC0001FE8], .kstat ⟨.w32, false⟩ (.w 7) 0),
    ([0xD40A13E8], .prpush ⟨.w32, false⟩ (.w 4) (.w 10) (.w 16)),
    ([0xE00A23EC], .prpop ⟨.w32, true⟩ (.w 8) (.w 10)),
    ([0xF40A13E8], .prclass ⟨.w32, false⟩ (.w 4) (.w 10) (.w 16)),
    ([0x040013EA, 0x0000C00A, 0x00310006], .ptwr ⟨.x96x, false⟩ (.w 4) (.w 10) (.w 12) (.w 6) 1 3),
    ([0x044053EA, 0x0000600A, 0x00110000], .ptrd ⟨.x96x, false⟩ (.w 20) (.w 10) (.w 6) 1 1 0),
    ([0x048003EA, 0x0000000A, 0x00030000], .ptflip ⟨.x96x, false⟩ (.w 10) 3)].all (fun x : List Nat × Instr => reads x.1 x.2) = true := by decide

/-- R43, MAJORs 0x7D and 0x7E, as the chapters of pages and of core life write most of them out. -/
theorem test_words_system : [
    ([0x060013EA, 0x0000C00A, 0x00000000], .tlbw ⟨.x96x, false⟩ (.w 4) (.w 10) (.w 12)),
    ([0x064003EA, 0x0000B00A, 0x00010000], .tlbi ⟨.x96x, false⟩ (.w 10) (.w 11) 1),
    ([0x068023EA, 0x00000000, 0x00010000], .frpop ⟨.x96x, false⟩ (.w 8) 1),
    ([0x06C017EA, 0x00000006, 0x00000000], .cresume ⟨.x96x, false⟩ (.w 5) (.w 6) 0),
    ([0x080003EA, 0x0000600A, 0x00000000], .decl ⟨.x96x, false⟩ (.w 10) (.w 6)),
    ([0x02000BF0], .srd ⟨.w32, false⟩ (.w 2) 8),
    ([0x01000BF0], .srd ⟨.w32, false⟩ (.w 2) 4),
    ([0x10CC03F0], .swr ⟨.w32, false⟩ (.w 12) 3),
    ([0x200003F0], .bkpt ⟨.w32, false⟩),
    ([0x300003F4], .halt ⟨.w32, true⟩)].all (fun x : List Nat × Instr => reads x.1 x.2) = true := by decide



/-! ### Ill-formed terms: each is one step outside a range that the check names. -/

/-- Lengths (R43) and name codes (R18, R42). -/
theorem test_wf_names : [
    .add xl (.w 0) (.w 1) (.w 2), .add x5 (.w 0) (.w 1) (.w 2), .logt w (.w 0) (.w 1) (.w 2) (.w 3) 0, .rpt x3 0 0 1,
    .bsleep w 1, .ldvg w (.w 0) (.w 2) (.w 4) 0 0 .f32, .cpy w (.w 0) (.w 2) (.w 4) 0 .core 0, .amoaddW xl (.w 0) (.w 2) (.w 4) 0 .rlx .core,
    .add w (.w 48) (.w 1) (.w 2), .add w (.w 0) (.w 48) (.w 2), .add w (.w 0) (.w 1) (.w 48), .add x3 (.w 4080) (.w 1) (.w 2),
    .add x3 (.w 0) (.w 4080) (.w 2), .add w (.o 8) (.w 1) (.w 2), .add w (.w 0) (.rsv 5) (.w 2), .lget w (.w 48),
    .lns w (.o 8), .srd x3 (.rsv 5) 0].all (fun i : Instr => !i.wf) = true := by decide

/-- Immediates, offsets and displacements (R36, R38, R41). -/
theorem test_wf_immediates : [
    .addi w (.w 0) (.w 1) 512, .addi w (.w 0) (.w 1) (-513), .addi x3 (.w 0) (.w 1) 32768, .addi x3 (.w 0) (.w 1) (-32769),
    .addi x5 (.w 0) (.w 1) (2 ^ 63), .addi xl (.w 0) (.w 1) (-2 ^ 63 - 1), .shli w (.w 0) (.w 1) 64, .sari w (.w 0) (.w 1) (-1),
    .beq w (.w 0) (.w 1) 2048, .beq w (.w 0) (.w 1) 2, .beq w (.w 0) (.w 1) (-2052), .j w (2 ^ 23), .j x5 2, .call w 2 (2 ^ 17),
    .ldD w (.w 0) (.w 2) 4, .ldD w (.w 0) (.w 2) 4096, .ldS16 w (.w 0) (.w 2) 1, .stW w (.w 0) (.w 2) 2, .ldc w (.w 0) (.w 2) 8,
    .stv w (.w 0) (.w 4) 16, .lda w (.w 0) (.w 2) 1 .ld .acq .core, .amoaddD w (.w 0) (.w 2) (.w 4) 8 .rlx .core,
    .stvs x3 (.w 0) (.w 4) (.w 8) 32768 0 .f32].all (fun i : Instr => !i.wf) = true := by decide

/-- Function fields of the scalar, control, capability, memory and synchronisation instructions. -/
theorem test_wf_fields : [
    .sext w (.w 0) (.w 1) 64, .bfx x3 (.w 0) (.w 1) 64 0, .bfxz x3 (.w 0) (.w 1) 0 64, .bfi x3 (.w 0) (.w 1) 32 32,
    .logt x3 (.w 0) (.w 1) (.w 2) (.w 3) 256, .rpt w 64 0 1, .rpt w 0 8 1, .rpt w 0 0 0, .rpt w 0 0 64, .call w 0 0, .call w 3 0,
    .ret w 48, .callc w 47 (.w 2), .cget w 8 (.w 0) (.w 2), .lda w (.w 0) (.w 2) 0 .sd .acq .core, .lda w (.w 0) (.w 2) 0 .ld .rel .core,
    .stl w (.w 0) (.w 2) 0 .ld .rel .core, .stl w (.w 0) (.w 2) 0 .sb .acq .core, .ldvg x3 (.w 0) (.w 4) (.w 8) 0 8 .f32,
    .ldvg x3 (.w 0) (.w 4) (.w 8) 0 0 .i16, .bsleep x3 0, .bwake x3 3, .amoaddW w (.w 0) (.w 2) (.w 4) 0 .acq .core,
    .amoaddW w (.w 0) (.w 2) (.w 4) 0 .rlx .tile, .fence w .rlx .core, .waitva x3 (.w 0) (.w 2) .rel .core, .wakeva x3 (.w 0) (.w 2) .acq .core,
    .mpost w (.w 0) (.w 4) .rel .core, .send x3 (.w 0) (.w 4) .sc .core, .recv x3 (.w 0) (.w 4) .ar .core,
    .recv w (.w 0) (.w 4) .rlx .gang].all (fun i : Instr => !i.wf) = true := by decide

/-- Function fields of the vector, matrix, card, queue, chain, page and system instructions. -/
theorem test_wf_units : [
    .vadd x3 (.w 0) (.w 4) (.w 8) 8 .i8, .vadd x3 (.w 0) (.w 4) (.w 8) 0 .f32, .vadd w (.w 0) (.w 4) (.w 8) 0 .i16,
    .vmin w (.w 0) (.w 4) (.w 8) 0 .i32, .vabs x3 (.w 0) (.w 4) 0 .z8, .vlogt x3 (.w 0) (.w 4) (.w 8) (.w 12) 256 0 .i8,
    .vcmp x3 (.w 0) (.w 4) (.w 8) 8 0 .i8, .vsel x3 (.w 0) (.w 4) (.w 8) 0 .kb2, .vred x3 (.w 0) (.w 4) 3 0 .f32,
    .vfadd x3 (.w 0) (.w 4) (.w 8) 0 .i8, .vfadd w (.w 0) (.w 4) (.w 8) 0 .bf16, .vcvt x3 (.w 0) (.w 4) 0 0 0 .f32,
    .vcvt x3 (.w 0) (.w 4) 12 0 0 .f32, .vcvt x3 (.w 0) (.w 4) 7 6 0 .f32, .vcvt x3 (.w 0) (.w 4) 7 0 0 .implied,
    .vquant x3 (.w 0) (.w 8) .f32, .xmax x3 (.w 0) (.w 4) .bf16, .mload x3 (.w 0) (.w 2) 128 0 0 .kb4, .mload x3 (.w 0) (.w 2) 0 2 0 .kb4,
    .mload x3 (.w 0) (.w 2) 0 0 2 .kb4, .mload x3 (.w 0) (.w 2) 0 0 0 .f32, .mswap x3 (.w 0) 0 0, .mswap x3 (.w 0) 0 4,
    .mrun x3 (.w 0) (.w 2) (.w 4) 0 65536 .kb4 0, .mrun x3 (.w 0) (.w 2) (.w 4) 0 0 .kb4 1, .mrun x5 (.w 0) (.w 2) (.w 0) 0 1 .kb4 0,
    .mrun x5 (.w 0) (.w 2) (.w 4) 0 0 .kb4 0, .mslot x3 (.w 0) 64, .mstat x3 (.w 0) 3, .cpy x3 (.w 0) (.w 2) (.w 4) 0 .core 1,
    .cpym x3 (.w 0) (.w 2) (.w 4) 0 0 .core 0, .conv x3 (.w 0) (.w 2) (.w 4) 0 .implied .core 0, .jwait x3 (.w 0) (.w 1) (.w 2) 0 0,
    .jwait x3 (.w 0) (.w 1) (.w 2) 0 1, .jwait x3 (.w 0) (.w 1) (.w 0) 1 0, .jwait x3 (.w 0) (.w 0) (.w 2) 64 1, .jstat x3 (.w 0) (.w 1) 0 2,
    .gang w 0, .gang w 5, .qpush w (.w 0) (.w 2) (.w 8) 1, .qpush x3 (.w 0) (.w 2) (.w 8) 2, .shape w (.w 0) 6, .shape w (.w 0) 16,
    .kstat w (.w 0) 4, .ptwr x3 (.w 0) (.w 2) (.w 4) (.w 6) 9 1, .ptwr x3 (.w 0) (.w 2) (.w 4) (.w 6) 8 1,
    .ptwr x3 (.w 0) (.w 2) (.w 4) (.w 6) 0 4, .ptrd x3 (.w 0) (.w 2) (.w 4) 10 0 0, .ptrd x3 (.w 0) (.w 2) (.w 4) 0 2 0,
    .ptrd x3 (.w 0) (.w 2) (.w 4) 0 0 2, .ptflip x3 (.w 2) 0, .ptflip x3 (.w 2) 1024, .tlbi x3 (.w 0) (.w 1) 4, .tlbi x3 (.w 1) (.w 1) 2,
    .frpop x3 (.w 0) 3, .cresume x3 (.w 0) (.w 1) 2, .srd w (.w 0) 23, .swr w (.w 0) 23].all (fun i : Instr => !i.wf) = true := by decide

/-- Events name objects that exist (R5 to R8, R227, R343, R382, R431, R457). -/
theorem test_wf_events : [
    .trapDelivery 8264, .portAccess 0 8264, .matrixCardStart 512 0, .cardEnd 0 32 1, .queueRingError 16384, .launchDispatch 8,
    .chainRecordEnter 128, .partitionStart 64 0, .portYield 18, .tlbProbeResult 512 0, .sweepComplete 64,
    .kustadLinkStateChange 18 0].all (fun i : Instr => !i.wf) = true := by decide


/-! ### Small states. -/

/-- A core in S mode at an instruction of its own local store, with handlers set and a lens of 4080 entries. -/
def core (p : Nat) : Core :=
  { Core.reset p with
    cstate := .running, pc := 0xFFF8000000001000#64, pcc := Cap.memoryRoot, hlens := Cap.lens 15 4095 16, hpcc := Cap.memoryRoot }

/-- The core with a word, a label or a capability in a w name. -/
def reg (n : Nat) (v : Word) (c : Core) : Core := c.putEnt (c.lb + n) ⟨v, 0⟩
def regL (n : Nat) (v : Word) (l : Label) (c : Core) : Core := c.putEnt (c.lb + n) ⟨v, l⟩
def cap (n : Nat) (k : Cap) (c : Core) : Core := c.putPair (c.lb + n) k 0

/-- The package with one core's turn, and the same with other cores. -/
def on (c : Core) : State := { State.reset with core := c }
def also (c : Core) (s : State) : State := { s with others := s.others.put Core.reset c.phys c }

/-- A plain state: S mode, nothing outstanding. -/
def plain : State := on (core 0)

/-- Partition 1, of tile 0, running, with one core of it. -/
def part1 : Part := { Part.free with len := 16, weight := 1, st := .run }
def inPart (c : Core) : State := { on { c with part := 1 } with parts := [(1, part1)] }

/-- A capability over [lo, hi) at an address. -/
def over_ (lo hi a : Nat) (perm : BitVec 14) (label : Label) : Cap := { Cap.make lo hi perm label with addr := BitVec.ofNat 64 a }

/-- A capability over the core's own store at an offset, for every memory access. -/
def own (off : Nat) : Cap := { Cap.memoryRoot with addr := BitVec.ofNat 64 (selfWindow + off) }

/-- The address of an offset in the core's own store. -/
def own_ (off : Nat) : Word := BitVec.ofNat 64 (selfWindow + off)

def mayIssue (i : Instr) (s : State) : Bool :=
  decide (s.core.gang.fused = false) && decide (s.core.interval = none) && decide (nameTrap i s.core = none)

theorem mayIssue_of {i : Instr} {s : State} (h : mayIssue i s = true) : MayIssue i s := by
  simp only [mayIssue, Bool.and_eq_true, decide_eq_true_eq] at h
  exact ⟨⟨h.1.1, h.1.2⟩, h.2⟩

theorem mayAll {is : List Instr} {s : State} (h : is.all (fun i => mayIssue i s) = true) : ∀ i ∈ is, MayIssue i s :=
  fun i hi => mayIssue_of (List.all_eq_true.1 h i hi)

/-- The next state of an outcome, and what a step leaves in a w name, at once or landed. -/
def nextOf (o : Host.Outcome State Fault Refusal) : Option State :=
  match o with
  | .next t => some t
  | _ => none
def now (i : Instr) (s : State) (n : Nat) : Option Word := (nextOf (exec i s)).map (fun t => (t.core.rd (.w n)).v)
def landed (i : Instr) (s : State) (n : Nat) : Option Word := (nextOf (exec i s)).map (fun t => (t.core.landReady.rd (.w n)).v)

/-- The cause and the value that a step leaves in sy.cause and sy.tval of a core in S mode. -/
def traps (i : Instr) (s : State) : Option (Nat × Word) := (nextOf (exec i s)).map (fun t => (t.core.cause.toNat, t.core.tval))

/-- Every instruction of a list, in its state, ends in the trap with that cause and value; (0, 0) says that it takes none. -/
def trapsAre (l : List (Instr × State × Nat × Word)) : Bool := l.all (fun x => decide (traps x.1 x.2.1 = some (x.2.2.1, x.2.2.2)))

theorem clear_use {s : State} {n : Name} {k : Cap} {perm : Prop}
    (h : k.tag = true ∧ s.revoked s.core k = false ∧ k.otype = 0 ∧ perm) : ∀ f ∈ useChecks s n k perm, ¬ f.1 := by
  obtain ⟨h1, h2, h3, h4⟩ := h
  simp [useChecks, h1, h2, h3, h4]

theorem clear_access {s : State} {n : Name} {k : Cap} {perm : Prop} {align size : Nat} {x : Word} {l : Label} {o : Option Label}
    (ho : o = none ∨ o = some l) (h : k.tag = true ∧ s.revoked s.core k = false ∧ k.otype = 0 ∧ perm ∧ x.toNat % align = 0 ∧
      k.base ≤ (x.toNat : Int) ∧ (x.toNat : Int) + size ≤ k.top ∧ l ≤ k.label ∧ s.reach s.core x size ≠ none) :
    ∀ f ∈ accessChecks s n k perm align size x o, ¬ f.1 := by
  obtain ⟨h1, h2, h3, h4, h5, h6, h7, h8, h9⟩ := h
  rcases ho with rfl | rfl <;> simp [accessChecks, h1, h2, h3, h4, h5, h6, h7, h8, h9]

theorem noAcquire_of {c : Core} (h : (c.pending.all (fun p => !p.acq) && c.unacked.all (fun u => !u.bar)) = true) : NoAcquire c := by
  simp only [Bool.and_eq_true, List.all_eq_true, Bool.not_eq_true'] at h
  exact h

theorem takesTraps_of {s : State} (h : (s.core.pending.isEmpty && s.core.unacked.isEmpty && s.core.drain.all (fun d => decide (d.2 = 0)) &&
    s.core.hlens.tag && s.core.hpcc.tag) = true) : TakesTraps s := by
  simp only [Bool.and_eq_true, List.isEmpty_iff, Option.all_eq_true, decide_eq_true_eq] at h
  exact ⟨h.1.1.1.1, h.1.1.1.2, fun d hd => h.1.1.2 d hd, h.1.2, h.2⟩

def portOpen (s : State) (x : Word) (n : Nat) : Bool :=
  !s.hold && match s.reach s.core x n with
  | none => true
  | some (o, off) => !s.away s.core.part o && decide ((s.coreAt o).cstate ≠ .killed) && (s.coreAt o).portq.isEmpty &&
      !(s.coreAt o).blocks s.core.phys off n && (s.bufAt (bufKey o)).all (fun w => decide (w.store ≠ o) || !s.farSeen s.core.phys w)

theorem portOpen_of {s : State} {x : Word} {n : Nat} (h : portOpen s x n = true) : PortOpen s x n := by
  unfold portOpen at h
  simp only [Bool.and_eq_true, Bool.not_eq_true'] at h
  refine ⟨h.1, fun o off ho => ?_⟩
  have h2 := h.2
  rw [ho] at h2
  simp only [Bool.and_eq_true, Bool.not_eq_true', decide_eq_true_eq, List.isEmpty_iff, List.all_eq_true, Bool.or_eq_true] at h2
  exact ⟨h2.1.1.1.1, h2.1.1.1.2, h2.1.1.2, h2.1.2, fun w hw e => (h2.2 w hw).resolve_left (absurd e)⟩

def plainWrite (s : State) (x : Word) (n : Nat) : Bool :=
  s.core.unacked.all (fun u => decide (0 < u.left ∧ u.id < s.core.nextId)) && match s.reach s.core x n with
  | none => true
  | some (o, off) => !(s.coreAt o).paired && decide (s.traceLen o = 0) && decide (off + n ≤ traceOff ∨ traceOff + 4 ≤ off)

theorem plainWrite_of {s : State} {x : Word} {n : Nat} (h : plainWrite s x n = true) : PlainWrite s x n := by
  unfold plainWrite at h
  simp only [Bool.and_eq_true, List.all_eq_true, decide_eq_true_eq] at h
  refine ⟨h.1, fun o off ho => ?_⟩
  have h2 := h.2
  rw [ho] at h2
  simpa [and_assoc] using h2

theorem highest_range {f : Nat → Label} {n : Nat} {l : Label}
    (h : ((List.range n).all (fun i => decide (f i ≤ l)) && (decide (l = 0) || (List.range n).any (fun i => decide (l = f i)))) = true) :
    Highest (fun x => ∃ i, i < n ∧ x = f i) l := by
  simp only [Bool.and_eq_true, List.all_eq_true, decide_eq_true_eq, Bool.or_eq_true, List.any_eq_true, List.mem_range] at h
  exact ⟨by rintro x ⟨i, hi, rfl⟩; exact h.1 i hi, h.2⟩

theorem clear_object {s : State} {n : Name} {sem : Bool}
    (h : (s.core.rdCap n).tag = true ∧ (s.core.rdCap n).otype = 4 ∧ (s.core.rdCap n).perm.getLsbD 4 = true ∧
      (s.named s.core (s.core.rdCap n)).obj.map objKind ≠ some (some (!sem)) ∧ (s.named s.core (s.core.rdCap n)).ok = true ∧
      s.mayUse s.core ((s.named s.core (s.core.rdCap n)).obj.getD 0) = true) : ∀ f ∈ objectChecks s n sem, ¬ f.1 := by
  obtain ⟨h1, h2, h3, h4, h5, h6⟩ := h
  have h7 : ¬ ∃ a, (s.named s.core (s.core.rdCap n)).obj = some a ∧ objKind a = some (!sem) := by
    rintro ⟨a, ha, hk⟩
    exact h4 (by rw [ha]; simp [hk])
  simp only [objectChecks, List.mem_cons, List.not_mem_nil, or_false]
  rintro f (rfl | rfl | rfl | rfl | rfl) <;> simp_all

def portFree (s : State) (o off n : Nat) : Bool :=
  s.portClear o off n && (s.coreAt o).portq.all (fun a => decide (a.src ≠ atSrc s.core.phys)) && decide ((s.coreAt o).cstate ≠ .killed)

theorem portFree_of {s : State} {o off n : Nat} (h : portFree s o off n = true) : PortFree s o off n := by
  simpa [portFree, PortFree, and_assoc] using h

theorem objectOpen_of {s : State} {n : Name} (h : (match s.bindingBlock s.core (s.core.rdCap n) with
    | none => true
    | some (p, off) => s.core.pending.all (fun p => !p.acq) && s.core.unacked.all (fun u => !u.bar) && portFree s p off 32) = true) :
    ObjectOpen s n := by
  intro p off hb
  rw [hb] at h
  simp only [Bool.and_eq_true] at h
  exact ⟨noAcquire_of (by simpa using h.1), portFree_of h.2⟩

/-- A write in the inbound card buffer of the cluster of tile 0. -/
def farW : FarWrite := ⟨4, 0, 0, .tile, none, 0, 0, [1], 0, [], []⟩

theorem clear_key {s : State} {n : Name} {bit : Nat}
    (h : (s.core.rdCap n).tag = true ∧ s.revoked s.core (s.core.rdCap n) = false ∧ (s.core.rdCap n).otype = 0 ∧
      (s.core.rdCap n).perm.getLsbD bit = true ∧ (s.core.rdCap n).addr.toNat % 8 = 0 ∧
      ((s.core.rdCap n).base ≤ (s.core.rdCap n).addr.toNat ∧ ((s.core.rdCap n).addr.toNat : Int) + 8 ≤ (s.core.rdCap n).top) ∧
      s.waitKey s.core (s.core.rdCap n).addr ≠ none) : ∀ f ∈ keyChecks s n bit, ¬ f.1 := by
  obtain ⟨h1, h2, h3, h4, h5, h6, h7⟩ := h
  simp only [keyChecks, List.mem_append]
  rintro f (hf | hf)
  · exact clear_use ⟨h1, h2, h3, h4⟩ f hf
  · simp only [List.mem_cons, List.not_mem_nil, or_false] at hf
    rcases hf with rfl | rfl | rfl
    · simpa using h5
    · simpa using h6
    · simpa using h7

theorem clear_queue {n : Name} {k : Cap} {bit : Nat} (h : k.tag = true ∧ k.otype = 5 ∧ k.perm.getLsbD bit = true) :
    ∀ f ∈ queueChecks n k bit, ¬ f.1 := by
  obtain ⟨h1, h2, h3⟩ := h
  simp [queueChecks, h1, h2, h3]

/-- A late write to q that has not landed. -/
def lateQ : Pending := ⟨0, [⟨.q, 1, 0, false, 0⟩], 0, 0, 0, 0, 0, 1, false, false, false, false⟩


/-! ### Hypotheses met: scalars, branches, capabilities, traps. -/

theorem witness_ArithmeticResults : ∀ i ∈ [Instr.add w (.w 0) (.w 1) (.w 2), .sub x3 (.w 4078) .q (.o 7), .mul w .zr (.w 1) (.w 2),
    .mulh w .st (.w 1) (.w 2), .mulhz w (.o 0) (.w 1) (.w 2), .min w (.w 47) (.w 47) (.w 47), .max w .q .q .q, .minz w (.w 0) .zr .st,
    .maxz w (.w 0) (.w 1) (.w 2), .div w (.w 0) (.w 1) .zr, .rem w .zr (.w 1) (.w 2), .divz x3 (.w 0) (.w 1) (.w 2),
    .remz w .q (.w 1) (.w 2)], MayIssue i plain := mayAll (by decide)

theorem witness_LogicAndShiftResults : ∀ i ∈ [Instr.andW w (.w 0) (.w 1) (.w 2), .orW w (.w 0) (.w 1) (.w 2), .xor w (.w 0) (.w 1) (.w 2),
    .andn w (.w 0) (.w 1) (.w 2), .orn w (.w 0) (.w 1) (.w 2), .xnor w (.w 0) (.w 1) (.w 2), .logt x3 (.w 0) (.w 1) (.w 2) (.w 3) 255,
    .shl w (.w 0) (.w 1) (.w 2), .shr w (.w 0) (.w 1) (.w 2), .sar w (.w 0) (.w 1) (.w 2), .rot w (.w 0) (.w 1) (.w 2),
    .fshl x3 (.w 0) (.w 1) (.w 2) (.w 3), .fshr x3 (.w 0) (.w 1) (.w 2) (.w 3)], MayIssue i plain := mayAll (by decide)

/-- Fields at the top of the word (pos + width = 64), and one bit beyond it. -/
theorem witness_BitAndFieldResults : (∀ i ∈ [Instr.clz w (.w 0) (.w 1), .ctz w (.w 0) (.w 1), .popc w (.w 0) (.w 1), .brev w (.w 0) (.w 1),
    .bswap w (.w 0) (.w 1), .mov w (.w 0) (.w 1), .sext w (.w 0) (.w 1) 63, .zext w (.w 0) (.w 1) 0, .bfx x3 (.w 0) (.w 1) 63 0,
    .bfxz x3 (.w 0) (.w 1) 0 63, .bfi x3 (.w 0) (.w 1) 32 31, .bfi x3 (.w 0) (.w 1) 33 31, .bfx x3 (.w 0) (.w 1) 33 31,
    .bfxz x3 (.w 0) (.w 1) 33 31], MayIssue i plain) ∧ 32 + (31 + 1) ≤ 64 ∧ 64 < 33 + (31 + 1) := ⟨mayAll (by decide), by decide⟩

theorem witness_CompareAndImmediateResults : ∀ i ∈ [Instr.seq w (.w 0) (.w 1) (.w 2), .sne w (.w 0) (.w 1) (.w 2), .slt w (.w 0) (.w 1) (.w 2),
    .sltz w (.w 0) (.w 1) (.w 2), .sel w (.w 0) (.w 1) (.w 2), .addi xl (.w 0) (.w 1) (-1), .andi w (.w 0) (.w 1) 511,
    .ori w (.w 0) (.w 1) 0, .xori w (.w 0) (.w 1) (-512), .shli w (.w 0) (.w 1) 0, .shri w (.w 0) (.w 1) 63, .sari w (.w 0) (.w 1) 63,
    .slti w (.w 0) (.w 1) 1, .li x5 (.w 0) (2 ^ 63 - 1)], MayIssue i plain := mayAll (by decide)

theorem witness_BranchTargets : ∀ i ∈ [Instr.beq w (.w 0) (.w 1) (-2048), .bne w (.w 0) (.w 1) 2044, .blt w (.w 0) (.w 1) 0,
    .bge w (.w 0) (.w 1) 4, .blo w (.w 0) (.w 1) 4, .bhs x3 (.w 0) (.w 1) 4, .bz w (.w 0) 4, .bnz w .q 4, .j w (-2 ^ 23)],
    MayIssue i plain := mayAll (by decide)

/-- Without a value from sy.rpt, and with the least, the greatest and one beyond the repetition count. -/
theorem witness_RepeatBegins : ∀ r ∈ [none, some 0, some 1, some 64, some 65],
    MayIssue (.rpt w 63 7 1) (on { core 0 with resume := r }) := by
  intro r hr; fin_cases hr <;> exact mayIssue_of (by decide)

theorem witness_CapabilityFieldsAndAddresses : (∀ i ∈ [Instr.cget w 0 (.w 0) (.w 2), .cget w 7 (.w 0) (.w 2), .csetaddr w (.w 4) (.w 2) (.w 0),
    .cincaddr w (.w 4) (.w 2) (.w 0), .cincaddri w (.w 4) (.w 2) (-512)], MayIssue i (on (cap 2 (own 0) (core 0)))) ∧
    ¬ Sealed ((on (cap 2 (own 0) (core 0))).core.rdCap (.w 2)) ∧
    Sealed ((on (cap 2 { own 0 with otype := 1 } (core 0))).core.rdCap (.w 2)) :=
  ⟨mayAll (by decide), by unfold Sealed; decide, by unfold Sealed; decide⟩

/-- CNARROW's and CNARROWX's paths and CDROP to CGATE: the instructions issue, and each check has its state. -/
theorem witness_CapabilityBoundsAndRights : (∀ i ∈ [Instr.cnarrow w (.w 4) (.w 2) (.w 0), .cnarrowx w (.w 4) (.w 2) (.w 0),
    .cdrop w (.w 4) (.w 2) (.w 0), .craiselbl w (.w 4) (.w 2) (.w 0), .cgate w (.w 4) (.w 2)], MayIssue i (on (cap 2 (own 0) (core 0)))) ∧
  [traps (.cnarrow w (.w 4) (.w 2) (.w 0)) (on (core 0)), traps (.cnarrow w (.w 4) (.w 2) (.w 0)) (on (cap 2 { own 0 with otype := 1 } (core 0))),
    traps (.cnarrow w (.w 4) (.w 2) (.w 0)) (on (reg 0 17 (cap 2 (over_ 16 32 16 3 0) (core 0)))),
    traps (.cnarrow w (.w 4) (.w 2) (.w 0)) (on (reg 0 16 (cap 2 (over_ 16 32 16 3 0) (core 0)))),
    traps (.cnarrowx w (.w 4) (.w 2) (.w 0)) (on (reg 0 0x60001 (cap 2 (own 0) (core 0)))),
    traps (.cdrop w (.w 4) (.w 2) (.w 0)) (on (cap 2 { own 0 with otype := 1 } (core 0))),
    traps (.craiselbl w (.w 4) (.w 2) (.w 0)) (on (reg 0 8 (cap 2 (own 0) (core 0)))),
    traps (.craiselbl w (.w 4) (.w 2) (.w 0)) (on (reg 0 7 (cap 2 { own 0 with otype := 1 } (core 0)))),
    traps (.craiselbl w (.w 4) (.w 2) (.w 0)) (on (reg 0 7 (cap 2 (over_ 0 16 0 3 6) (core 0)))),
    traps (.craiselbl w (.w 4) (.w 2) (.w 0)) (on (reg 0 7 (cap 2 (over_ 0 16 0 3 7) (core 0)))),
    traps (.cgate w (.w 4) (.w 2)) (on (core 0)), traps (.cgate w (.w 4) (.w 2)) (on (cap 2 { own 0 with otype := 1 } (core 0))),
    traps (.cgate w (.w 4) (.w 2)) (on (cap 2 (over_ 0 16 0 3 7) (core 0)))] =
  [some (5, 2), some (8, 2), some (6, 16), some (0, 0), some (6, 0x60001), some (8, 2), some (6, 8), some (8, 2), some (7, 2), some (0, 0),
    some (5, 2), some (8, 2), some (7, 2)] := ⟨mayAll (by decide), by decide +kernel⟩


/-- CSEAL and CUNSEAL: a sealing capability over [0, 16), and each check at its edge. -/
theorem witness_CapabilitySeals :
    let s := fun (k m : Cap) => on (cap 4 m (cap 2 k (core 0)))
    let m := fun (a : Nat) (p : BitVec 14) => over_ 0 16 a p 0
    (∀ i ∈ [Instr.cseal w (.w 6) (.w 2) (.w 4), .cunseal w (.w 6) (.w 2) (.w 4)], MayIssue i (s (own 0) (m 2 0x1A00))) ∧
    trapsAre [(.cseal w (.w 6) (.w 2) (.w 4), s (own 0) (m 2 0x1A00), 0, 0), (.cseal w (.w 6) (.w 2) (.w 4), s (own 0) (m 14 0x1A00), 0, 0),
      (.cseal w (.w 6) (.w 2) (.w 4), on (core 0), 5, 2), (.cseal w (.w 6) (.w 2) (.w 4), on (cap 2 (own 0) (core 0)), 5, 4),
      (.cseal w (.w 6) (.w 2) (.w 4), s { own 0 with otype := 1 } (m 2 0x1A00), 8, 2),
      (.cseal w (.w 6) (.w 2) (.w 4), s (own 0) { m 2 0x1A00 with otype := 1 }, 8, 4),
      (.cseal w (.w 6) (.w 2) (.w 4), s (own 0) (m 2 0x1200), 7, 4), (.cseal w (.w 6) (.w 2) (.w 4), s (own 0) (m 0 0x1A00), 6, 0),
      (.cseal w (.w 6) (.w 2) (.w 4), s (own 0) (m 1 0x1A00), 6, 1), (.cseal w (.w 6) (.w 2) (.w 4), s (own 0) (m 7 0x1A00), 6, 7),
      (.cseal w (.w 6) (.w 2) (.w 4), s (own 0) (m 15 0x1A00), 6, 15), (.cseal w (.w 6) (.w 2) (.w 4), s (own 0) (over_ 0 2 2 0x1A00 0), 6, 2),
      (.cunseal w (.w 6) (.w 2) (.w 4), s { own 0 with otype := 2 } (m 2 0x1A00), 0, 0),
      (.cunseal w (.w 6) (.w 2) (.w 4), s { own 0 with otype := 1 } (m 1 0x1A00), 8, 2),
      (.cunseal w (.w 6) (.w 2) (.w 4), s { own 0 with otype := 7 } (m 7 0x1A00), 8, 2),
      (.cunseal w (.w 6) (.w 2) (.w 4), s (own 0) (m 0 0x1A00), 8, 2),
      (.cunseal w (.w 6) (.w 2) (.w 4), s { own 0 with otype := 2 } (m 2 0x0A00), 7, 4),
      (.cunseal w (.w 6) (.w 2) (.w 4), s { own 0 with otype := 2 } (m 16 0x1A00), 6, 16),
      (.cunseal w (.w 6) (.w 2) (.w 4), s { own 0 with otype := 2 } (m 3 0x1A00), 8, 4)] = true := ⟨mayAll (by decide), by decide +kernel⟩

theorem witness_CapabilityCopiesAndTests : ∀ i ∈ [Instr.cmov w (.w 6) (.w 2), .cstrip w (.w 6) (.w 2), .cwithin w (.w 0) (.w 2) (.w 4),
    .cfitlen w (.w 0) (.w 1), .cfitmask w (.w 0) (.w 1)], MayIssue i plain := mayAll (by decide)

/-- R52 in its order: PRIV in U mode, a reserved or misused name, a misaligned name, a name beyond the lens, the tail of a record. -/
theorem witness_NameChecksComeFirst :
    let u := on { core 0 with mode := .u, word := 0x1234 }
    let s := on { core 0 with lens := Cap.lens 15 64 17 }
    let t := on { core 0 with lens := Cap.lens 15 62 16 }
    [nameTrap (.eret ws) u.core, nameTrap (.add w (.rsv 2) (.w 1) (.w 2)) s.core, nameTrap (.cmov w (.w 1) (.w 2)) s.core,
      nameTrap (.cmov w (.w 0) (.w 2)) s.core, nameTrap (.add w (.w 47) (.w 1) (.w 2)) s.core, nameTrap (.add w (.w 46) (.w 1) (.w 2)) s.core,
      nameTrap (.vadd w (.w 42) (.w 4) (.w 8) 0 .implied) t.core, nameTrap (.vadd w (.w 44) (.w 4) (.w 8) 0 .implied) t.core,
      nameTrap (.qpush w (.w 0) (.w 2) (.w 40) 0) t.core, nameTrap (.qpush w (.w 0) (.w 2) (.w 36) 0) t.core] =
    [some (.priv, 0x1234), some (.illopnd, 61), some (.illopnd, 1), some (.align, 0), some (.lenslimit, 47), none, some (.illopnd, 42),
      some (.lenslimit, 44), some (.lenslimit, 44), none] ∧
    Alone u ∧ Alone s ∧ Alone t ∧ (Instr.eret ws).sMode = true ∧ u.core.mode = .u ∧ (Instr.eret ws).hd ≠ none :=
  ⟨by decide, ⟨rfl, rfl⟩, ⟨rfl, rfl⟩, ⟨rfl, rfl⟩, rfl, rfl, by decide⟩

theorem witness_TrapDelivery : TakesTraps plain ∧
    (let s := { on { core 0 with pending := [lateQ] } with hold := true }
     s.hold = true ∧ ∃ p ∈ s.core.pending, p.flags ≠ 0 ∨ ∃ w ∈ p.writes, w.tgt ≠ Tgt.o 8) ∧
    (let s := { on { core 0 with unacked := [⟨0, 1, false, 15, 4095, false, none⟩] } with hold := true }
     s.hold = true ∧ s.core.unacked ≠ []) :=
  ⟨takesTraps_of (by decide), ⟨rfl, lateQ, List.mem_singleton.2 rfl, .inr ⟨_, List.mem_singleton.2 rfl, by decide⟩⟩, rfl, by decide⟩

/-- LNS with the least and the greatest lens, and with each check at its edge; LDRAIN idle, busy with a late write, and busy with a spill
that is not acknowledged. -/
theorem witness_LensInstructions :
    let s := fun k : Cap => on (cap 2 k (core 0))
    let busy := on { cap 2 (Cap.lens 100 164 101) (core 0) with pending := [{ lateQ with writes := [⟨.entry 163, 1, 0, false, 0⟩] }] }
    let idle := on { cap 2 (Cap.lens 100 164 101) (core 0) with pending := [{ lateQ with writes := [⟨.entry 164, 1, 0, false, 0⟩] }] }
    let spilt := on { cap 2 (Cap.lens 100 164 101) (core 0) with
      unacked := [⟨0, 1, false, 15, 4095, false, some ⟨.spill, 160, 0, own_ 0, 4, 0, false, 0, 15⟩⟩] }
    trapsAre [(.lns w (.w 2), s (Cap.lens 15 4095 16), 0, 0), (.lns w (.w 2), s (Cap.lens 4094 4096 4095), 0, 0),
      (.lns w (.w 2), on (core 0), 5, 2), (.lns w (.w 2), s { Cap.lens 15 64 16 with otype := 0 }, 8, 2),
      (.lns w (.w 2), s { Cap.lens 15 64 16 with perm := 1 }, 7, 2), (.lns w (.w 2), s (Cap.lens 16 4098 17), 6, 17),
      (.lns w (.w 2), s (Cap.lens 15 15 15), 6, 15), (.lns w (.w 2), s (Cap.lens 15 4096 16), 6, 16),
      (.lns w (.w 2), s (Cap.lens 15 64 15), 6, 15), (.lns w (.w 2), s (Cap.lens 15 64 64), 0, 0), (.lns w (.w 2), s (Cap.lens 15 64 65), 6, 65),
      (.ldrain w (.w 2), on (core 0), 5, 2), (.ldrain w (.w 2), s (own 0), 8, 2)] = true ∧
    MayIssue (.lget w (.w 2)) plain ∧
    (MayIssue (.ldrain w (.w 2)) idle ∧ ¬ RegionBusy idle.core (idle.core.rdCap (.w 2)).base.toNat (idle.core.rdCap (.w 2)).top.toNat) ∧
    MayIssue (.ldrain w (.w 2)) busy ∧ RegionBusy busy.core (busy.core.rdCap (.w 2)).base.toNat (busy.core.rdCap (.w 2)).top.toNat ∧
    (busy.core.rdCap (.w 2)).tag = true ∧ (busy.core.rdCap (.w 2)).otype = 2 ∧
    MayIssue (.ldrain w (.w 2)) spilt ∧ RegionBusy spilt.core (spilt.core.rdCap (.w 2)).base.toNat (spilt.core.rdCap (.w 2)).top.toNat := by
  refine ⟨by decide +kernel, mayIssue_of (by decide), ⟨mayIssue_of (by decide), ?_⟩, mayIssue_of (by decide), ?_, by decide, by decide,
    mayIssue_of (by decide), ⟨163, by decide, by decide, .inr (.inr ⟨_, List.mem_singleton.2 rfl, _, rfl, by decide, by decide⟩)⟩⟩
  · rintro ⟨e, -, he, h⟩
    have he' : e < 164 := lt_of_lt_of_eq he (by decide)
    rcases h with ⟨p, hp, h⟩ | ⟨r, hr, -⟩ | ⟨u, hu, -⟩
    · simp [on] at hp
      subst hp
      simp [lateQ, Tgt.entries] at h
      omega
    · simp [on, cap, core, Core.reset, Core.putPair] at hr
    · simp [on, cap, core, Core.reset, Core.putPair] at hu
  · exact ⟨163, by decide, by decide, .inl ⟨_, List.mem_singleton.2 rfl, .inl ⟨_, List.mem_singleton.2 rfl, by decide⟩⟩⟩

/-- CALL's checks, CALLC's, and those of RET: an odd window base, too small a lens, the wrong capability in c0. -/
theorem witness_CallsAndReturns :
    let s := fun k : Cap => on (cap 2 k (core 0))
    let r := fun (lo lb : Nat) (k : Cap) => on (cap 0 k { core 0 with lens := Cap.lens lo 4095 lb })
    trapsAre [(.call w 2 4, plain, 0, 0), (.call w 46 (-131072), plain, 0, 0), (.callc w 2 (.w 2), s { own 0 with otype := 1 }, 0, 0),
      (.callc w 2 (.w 2), on (core 0), 5, 2), (.callc w 2 (.w 2), s (own 0), 8, 2),
      (.callc w 2 (.w 2), s { own 0 with otype := 1, perm := 3 }, 7, 2),
      (.call w 2 4, on { core 0 with lens := Cap.lens 15 4095 17 }, 4, 0), (.call w 2 4, on { core 0 with lens := Cap.lens 15 66 16 }, 0, 0),
      (.call w 2 4, on { core 0 with lens := Cap.lens 15 65 16 }, 11, 2), (.ret w 2, r 15 18 { own 0 with otype := 7 }, 0, 0),
      (.ret w 2, on { core 0 with lens := Cap.lens 15 64 17 }, 4, 0), (.ret w 2, on { core 0 with lens := Cap.lens 15 17 16 }, 3, 0),
      (.ret w 2, plain, 5, 0), (.ret w 2, r 15 18 (own 0), 8, 0), (.ret w 2, r 15 16 { own 0 with otype := 7 }, 12, 2)] = true := by
  decide +kernel

theorem witness_SystemCallsAndReturns : MayIssue (.trap w (.w 1)) plain ∧ TakesTraps plain ∧ MayIssue (.eret ws) plain ∧
    MayIssue (.trap x3 .zr) plain ∧
    MayIssue (.eret ws) (on { core 0 with rptValid := true, rptRemain := 64, elens := Cap.lens 15 64 16, epcc := own 0 }) :=
  ⟨mayIssue_of (by decide), takesTraps_of (by decide), mayIssue_of (by decide), mayIssue_of (by decide), mayIssue_of (by decide)⟩

/-- LSPILL, LFILL and LMOVE with the least and the greatest count, and each check. -/
theorem witness_BulkMoves :
    let l := { Cap.lens 64 4095 100 with addr := 100 }
    let s := fun (d a : Cap) (n : Word) => { on (reg 0 n (cap 4 a (cap 2 d (core 0)))) with hold := true }
    let p := Instr.lspill w (.w 2) (.w 4) (.w 0)
    let f := Instr.lfill w (.w 2) (.w 4) (.w 0)
    let m := Instr.lmove w (.w 2) (.w 4) (.w 0)
    let held := fun (d : Cap) (n : Word) => { on ((reg 0 n (cap 4 l (cap 2 d (core 0)))).putPair 100 (own 0) 0) with hold := true }
    (∀ i ∈ [p, f, m], MayIssue i (s (own 0) l 1)) ∧
    trapsAre [(p, held { own 0 with perm := 0x602 } 2, 7, 2), (p, held { own 8 with perm := 0x602 } 2, 7, 2), (p, held { own 0 with perm := 0x702 } 2, 0, 0),
      (p, held { own 0 with perm := 0x602 } 1, 0, 0), (p, s (own 0x2000) l 1, 0, 0), (p, s (own 0x2000) l 3995, 0, 0), (p, s (own 0x2000) l 0, 6, 0), (p, s (own 0x2000) l 4081, 6, 4081),
      (p, s Cap.null l 1, 5, 2), (p, s { own 0 with otype := 1 } l 1, 8, 2), (p, s { own 0 with perm := 1 } l 1, 7, 2),
      (p, s (own 0) Cap.null 1, 5, 4), (p, s (own 0) (own 0) 1, 8, 4), (p, s (own 0) { l with perm := 2 } 1, 7, 4),
      (p, s (own 8) l 1, 4, 2), (p, s (own 0) { l with addr := 63 } 1, 6, 63), (p, s (own 0) l 3996, 6, 4095),
      (p, s (over_ 0x1000 0x1010 0x1000 0x7FF 7) l 3, 6, 0x1010), (p, s (own 0x5FFF0) l 3, 6, own_ 0x5FFF0),
      (f, s l (own 0x2000) 1, 0, 0), (f, s l (own 0x2000) 3995, 0, 0), (f, s l (own 0x2000) 4081, 6, 4081), (f, s (own 0) (own 0) 1, 8, 2),
      (f, s { l with perm := 1 } (own 0) 1, 7, 2), (f, s l Cap.null 1, 5, 4), (f, s l { own 0 with perm := 2 } 1, 7, 4), (f, s l (own 8) 1, 4, 4),
      (f, s l (own 0x5FFF0) 3, 6, own_ 0x5FFF0), (m, s l l 3995, 0, 0), (m, s l l 3996, 6, 4095), (m, s l { l with addr := 4095 } 1, 6, 4095),
      (m, s l (own 0) 1, 8, 4)] = true := ⟨mayAll (by decide), by decide +kernel⟩


/-! ### Hypotheses met: memory. -/

/-- The core's own store at an offset in c2, 9 in w0. -/
def mem (off : Nat) : State := on (reg 0 9 (cap 2 (own off) (core 0)))

/-- LD at the first and the last bytes of the store, and each check of an access. -/
theorem witness_LoadResults :
    (∀ i ∈ [Instr.ldS8 w (.w 0) (.w 2) 0, .ldZ8 w (.w 0) (.w 2) 0, .ldS16 w (.w 0) (.w 2) 0, .ldZ16 w (.w 0) (.w 2) 0,
      .ldS32 w (.w 0) (.w 2) 0, .ldZ32 w (.w 0) (.w 2) 0, .ldD w (.w 0) (.w 2) 0, .ldD xl .zr (.w 2) 0], MayIssue i (mem 0x5FFF8)) ∧
    NoAcquire (mem 0x5FFF8).core ∧ PortOpen (mem 0x5FFF8) (addrOf (mem 0x5FFF8) (.w 2) 0) 8 ∧
    (∀ f ∈ accessChecks (mem 0x5FFF8) (.w 2) ((mem 0x5FFF8).core.rdCap (.w 2)) (((mem 0x5FFF8).core.rdCap (.w 2)).perm.getLsbD 0 = true) 1 8
      (addrOf (mem 0x5FFF8) (.w 2) 0) none, ¬ f.1) ∧
    let s := fun k : Cap => on (cap 2 k (core 0))
    let i := Instr.ldD w (.w 0) (.w 2) 0
    trapsAre [(i, s Cap.null, 5, 2), (i, s { own 0 with otype := 1 }, 8, 2), (i, s { own 0 with perm := 2 }, 7, 2),
      (i, s (over_ 0x1000 0x1010 0x1009 0x7FF 7), 6, 0x1009), (i, s (over_ 0x1000 0x1010 0xFFF 0x7FF 7), 6, 0xFFF), (i, s (own 0x5FFF9), 6, own_ 0x5FFF9),
      (i, s { own 0 with addr := 0 }, 6, 0),
      (i, { s (over_ 0x20000 0x30000 0x20000 0x7FF 7) with sweeps := [(0, ⟨0, 0, 0x20000, 256, [(0, 1)], []⟩)] }, 10, 2)] = true :=
  ⟨mayAll (by decide), noAcquire_of (by decide), portOpen_of (by decide +kernel),
    clear_access (l := 0) (.inl rfl) (by decide +kernel), by decide +kernel⟩

/-- ST at both ends of the store, on either side of the trace descriptor, and the LABEL check at its edge. -/
theorem witness_StoreResults :
    (∀ i ∈ [Instr.stB w (.w 0) (.w 2) 0, .stH w (.w 0) (.w 2) 0, .stW w (.w 0) (.w 2) 0, .stD w (.w 0) (.w 2) 0], MayIssue i (mem 0)) ∧
    NoAcquire (mem 0).core ∧
    (∀ off ∈ [0, 0x5FFB8, 0x5FFC4, 0x5FFF8], PortOpen (mem off) (addrOf (mem off) (.w 2) 0) 8 ∧
      PlainWrite (mem off) (addrOf (mem off) (.w 2) 0) 8) ∧
    (∀ f ∈ accessChecks (mem 0) (.w 2) ((mem 0).core.rdCap (.w 2)) (((mem 0).core.rdCap (.w 2)).perm.getLsbD 1 = true) 1 8
      (addrOf (mem 0) (.w 2) 0) (some 0), ¬ f.1) ∧
    let s := fun (l m : Label) => on (regL 0 9 l (cap 2 { own 0 with label := m } (core 0)))
    trapsAre [(.stB w (.w 0) (.w 2) 0, s 3 3, 0, 0), (.stB w (.w 0) (.w 2) 0, s 3 2, 9, own_ 0),
      (.stB w (.w 0) (.w 2) 0, on (cap 2 { own 0 with perm := 1 } (core 0)), 7, 2)] = true :=
  ⟨mayAll (by decide), noAcquire_of (by decide),
    by intro off h; fin_cases h <;> exact ⟨portOpen_of (by decide +kernel), plainWrite_of (by decide +kernel)⟩,
    clear_access (l := 0) (.inr rfl) (by decide +kernel), by decide +kernel⟩

/-- Every atomic, with and without orders; ALIGN and PERM. -/
theorem witness_AtomicResults :
    (∀ i ∈ [Instr.amoaddW w (.w 0) (.w 2) (.w 1) 0 .rlx .core, .amoaddD w (.w 0) (.w 2) (.w 1) 0 .rlx .core,
      .amoandW x3 (.w 0) (.w 2) (.w 1) 0 .acq .fab, .amoandD w (.w 0) (.w 2) (.w 1) 0 .rlx .core, .amoorW x3 (.w 0) (.w 2) (.w 1) 0 .rel .die,
      .amoorD w (.w 0) (.w 2) (.w 1) 0 .rlx .core, .amoxorW x3 (.w 0) (.w 2) (.w 1) 0 .ar .core, .amoxorD w (.w 0) (.w 2) (.w 1) 0 .rlx .core,
      .amominW x3 (.w 0) (.w 2) (.w 1) 0 .sc .core, .amominD w (.w 0) (.w 2) (.w 1) 0 .rlx .core, .amomaxW w .zr (.w 2) (.w 1) 0 .rlx .core,
      .amomaxD w (.w 0) (.w 2) (.w 1) 0 .rlx .core, .amominzW w (.w 0) (.w 2) (.w 1) 0 .rlx .core, .amominzD w (.w 0) (.w 2) (.w 1) 0 .rlx .core,
      .amomaxzW w (.w 0) (.w 2) (.w 1) 0 .rlx .core, .amomaxzD w (.w 0) (.w 2) (.w 1) 0 .rlx .core, .amoswapW w (.w 0) (.w 2) (.w 1) 0 .rlx .core,
      .amoswapD w (.w 0) (.w 2) (.w 1) 0 .rlx .core, .amocasW w (.w 0) (.w 2) (.w 1) 0 .rlx .core, .amocasD w (.w 0) (.w 2) (.w 1) 0 .rlx .core],
      MayIssue i (mem 8)) ∧
    NoAcquire (mem 8).core ∧ PortOpen (mem 8) (addrOf (mem 8) (.w 2) 0) 8 ∧ PlainWrite (mem 8) (addrOf (mem 8) (.w 2) 0) 8 ∧
    (mem 8).core.unacked = [] ∧
    (∀ f ∈ accessChecks (mem 8) (.w 2) ((mem 8).core.rdCap (.w 2)) (((mem 8).core.rdCap (.w 2)).perm.getLsbD 0 = true ∧
      ((mem 8).core.rdCap (.w 2)).perm.getLsbD 1 = true) 8 8 (addrOf (mem 8) (.w 2) 0) (some 0), ¬ f.1) ∧
    trapsAre [(.amoaddW w (.w 0) (.w 2) (.w 1) 0 .rlx .core, mem 4, 0, 0), (.amoaddW w (.w 0) (.w 2) (.w 1) 0 .rlx .core, mem 2, 4, 2),
      (.amoaddD w (.w 0) (.w 2) (.w 1) 0 .rlx .core, mem 4, 4, 2),
      (.amoswapD w (.w 0) (.w 2) (.w 1) 0 .rlx .core, on (cap 2 { own 0 with perm := 1 } (core 0)), 7, 2)] = true :=
  ⟨mayAll (by decide), noAcquire_of (by decide), portOpen_of (by decide +kernel), plainWrite_of (by decide +kernel), rfl,
    clear_access (l := 0) (.inr rfl) (by decide +kernel), by decide +kernel⟩

theorem witness_CapabilityMemory :
    let s := mem 0x1000
    (∀ i ∈ [Instr.ldc w (.w 4) (.w 2) 0, .stc w (.w 4) (.w 2) 0, .amocasc w (.w 4) (.w 2) (.w 6) 0 .rlx .core,
      .amocasc x3 (.w 4) (.w 2) (.w 6) 16 .sc .core], MayIssue i s) ∧ NoAcquire s.core ∧ PortOpen s (addrOf s (.w 2) 0) 16 ∧
    PlainWrite s (addrOf s (.w 2) 0) 16 ∧ (s.core.unacked = [] ∧ NoReplay s.core) ∧
    (∀ f ∈ accessChecks s (.w 2) (s.core.rdCap (.w 2)) (((s.core.rdCap (.w 2)).perm.getLsbD 0 = true ∧
      (s.core.rdCap (.w 2)).perm.getLsbD 1 = true) ∧ (Cap.null.tag = false)) 16 16 (addrOf s (.w 2) 0) (some 0), ¬ f.1) ∧
    let t := fun (p : BitVec 14) (k : Cap) => on (cap 4 k (cap 2 { own 0 with perm := p } (core 0)))
    trapsAre [(.ldc w (.w 4) (.w 2) 0, mem 8, 4, 2), (.stc w (.w 4) (.w 2) 0, t 0x003 Cap.null, 0, 0),
      (.stc w (.w 4) (.w 2) 0, t 0x703 (own 0), 0, 0), (.stc w (.w 4) (.w 2) 0, t 0x603 (own 0), 7, 2),
      (.stc w (.w 4) (.w 2) 0, t 0x303 (own 0), 0, 0), (.stc w (.w 4) (.w 2) 0, t 0x103 (own 0), 0, 0),
      (.stc w (.w 4) (.w 2) 0, t 0x103 { own 0 with perm := 0x1FF }, 7, 2),
      (.stc w (.w 4) (.w 2) 0, t 0x503 { own 0 with perm := 0x1FF }, 0, 0)] = true :=
  ⟨mayAll (by decide), noAcquire_of (by decide), portOpen_of (by decide +kernel), plainWrite_of (by decide +kernel), ⟨rfl, rfl⟩,
    clear_access (l := 0) (.inr rfl) (by decide +kernel), by decide +kernel⟩

theorem witness_VectorMemory :
    let s := mem 0x1000
    (∀ i ∈ [Instr.ldv w (.w 4) (.w 2) 0, .stv w (.w 4) (.w 2) 0], MayIssue i s) ∧ NoAcquire s.core ∧ PortOpen s (addrOf s (.w 2) 0) 32 ∧
    PlainWrite s (addrOf s (.w 2) 0) 32 ∧ Highest (fun y => ∃ i, i < 4 ∧ y = (s.core.ent (s.core.physOf (.w 4) + i)).l) 0 ∧
    (∀ f ∈ accessChecks s (.w 2) (s.core.rdCap (.w 2)) ((s.core.rdCap (.w 2)).perm.getLsbD 1 = true) 32 32 (addrOf s (.w 2) 0) (some 0), ¬ f.1) ∧
    trapsAre [(.ldv w (.w 4) (.w 2) 0, mem 16, 4, 2), (.ldv w (.w 4) (.w 2) 0, mem 0x5FFE0, 0, 0), (.stv w (.w 4) (.w 2) 32, mem 0x5FFE0, 6, own_ 0x60000)] = true :=
  ⟨mayAll (by decide), noAcquire_of (by decide), portOpen_of (by decide +kernel), plainWrite_of (by decide +kernel),
    highest_range (by decide),
    clear_access (l := 0) (.inr rfl) (by decide +kernel), by decide +kernel⟩

theorem witness_OrderedAccesses :
    let s := mem 0x1000
    let busy := on { (mem 0x1000).core with unacked := [⟨0, 1, false, 15, 4095, false, none⟩], nextId := 1 }
    (∀ i ∈ [Instr.lda w (.w 0) (.w 2) 0 .s8 .acq .core, .lda w (.w 0) (.w 2) 0 .sz8 .sc .core, .lda w (.w 0) (.w 2) 0 .s16 .acq .core,
      .lda w (.w 0) (.w 2) 0 .sz16 .acq .core, .lda w (.w 0) (.w 2) 0 .s32 .acq .core, .lda w (.w 0) (.w 2) 0 .sz32 .acq .core,
      .lda w (.w 0) (.w 2) 0 .ld .sc .sys, .stl w (.w 0) (.w 2) 0 .sb .rel .core, .stl w (.w 0) (.w 2) 0 .sh .rel .core,
      .stl w (.w 0) (.w 2) 0 .sw .sc .core, .stl w (.w 0) (.w 2) 0 .sd .sc .core], MayIssue i s) ∧ NoAcquire s.core ∧
    PortOpen s (addrOf s (.w 2) 0) 8 ∧ PlainWrite s (addrOf s (.w 2) 0) 8 ∧ s.core.unacked = [] ∧
    (∀ f ∈ accessChecks s (.w 2) (s.core.rdCap (.w 2)) ((s.core.rdCap (.w 2)).perm.getLsbD 1 = true) 8 8 (addrOf s (.w 2) 0) (some 0), ¬ f.1) ∧
    (MayIssue (.stl w (.w 0) (.w 2) 0 .sd .rel .core) busy ∧ busy.core.unacked ≠ [] ∧ NoAcquire busy.core ∧
      ∀ f ∈ accessChecks busy (.w 2) (busy.core.rdCap (.w 2)) ((busy.core.rdCap (.w 2)).perm.getLsbD 1 = true) 8 8 (addrOf busy (.w 2) 0) (some 0),
        ¬ f.1) ∧
    trapsAre [(.lda w (.w 0) (.w 2) 0 .ld .acq .core, mem 4, 4, 2), (.stl w (.w 0) (.w 2) 0 .sh .rel .core, mem 1, 4, 2)] = true :=
  ⟨mayAll (by decide), noAcquire_of (by decide), portOpen_of (by decide +kernel), plainWrite_of (by decide +kernel), rfl,
    clear_access (l := 0) (.inr rfl) (by decide +kernel),
    ⟨mayIssue_of (by decide), by decide, noAcquire_of (by decide), clear_access (l := 0) (.inr rfl) (by decide +kernel)⟩, by decide +kernel⟩


/-- A gather whose lanes are all in place, and one whose lanes are misaligned or beyond the store. -/
theorem witness_GatherAndScatter :
    let s := mem 0x5FFFC
    let high := on (regL 4 0 1 (cap 2 { own 0x5FFFC with label := 0 } (core 0)))
    let all := mem 0x5FFFA
    let bad := on (reg 8 0x0000000400000002#64 (mem 0x5FFFC).core)
    let o := Instr.ldvg x3 (.w 4) (.w 2) (.w 8) 0 0 .f32
    (∀ i ∈ [o, .ldvg x5 (.w 4) (.w 2) (.w 8) 0 7 .implied, .ldvgNf x3 (.w 4) (.w 2) (.w 8) (.o 1) 0 0 .z32,
      .ldvgNf x3 (.w 4) (.w 2) (.w 8) (.o 7) 0 0 .i32, .stvs x3 (.w 4) (.w 2) (.w 8) 0 0 .f32], MayIssue i s) ∧ NoAcquire s.core ∧ s.hold = false ∧
    (∀ i, LanePerformed s (.w 2) (.w 8) 0 0 i → PortOpen s (laneAddr s (.w 2) (.w 8) 0 i) 4) ∧ (∀ i, ¬ LaneFaults s (.w 2) (.w 8) 0 0 i) ∧
    (∀ f ∈ useChecks s (.w 2) (s.core.rdCap (.w 2)) ((s.core.rdCap (.w 2)).perm.getLsbD 1 = true), ¬ f.1) ∧
    (∀ i, LaneActive s 0 i → PlainWrite s (laneAddr s (.w 2) (.w 8) 0 i) 4 ∧
      ¬ (s.core.rdCap (.w 2)).label < (s.core.ent (s.core.physOf (.w 4) + i / 2)).l) ∧
    MayIssue o bad ∧ LaneFaults bad (.w 2) (.w 8) 0 0 0 ∧ ¬ LaneOut bad (.w 2) (.w 8) 0 2 ∧ LaneFaults bad (.w 2) (.w 8) 0 0 1 ∧
    LaneOut bad (.w 2) (.w 8) 0 1 ∧ (∀ i, LanePerformed bad (.w 2) (.w 8) 0 0 i → PortOpen bad (laneAddr bad (.w 2) (.w 8) 0 i) 4) ∧
    (∀ f ∈ useChecks bad (.w 2) (bad.core.rdCap (.w 2)) ((bad.core.rdCap (.w 2)).perm.getLsbD 0 = true), ¬ f.1) ∧
    MayIssue (.stvs x3 (.w 4) (.w 2) (.w 8) 0 0 .f32) high ∧ LaneLabelled (.w 4) (.w 2) (.w 8) 0 0 high 0 ∧
    (∀ i, ¬ LanePerformed all (.w 2) (.w 8) 0 0 i) ∧ LaneFaults all (.w 2) (.w 8) 0 0 0 ∧ MayIssue o all ∧
    trapsAre [(o, all, 6, 0xFFFF), (.stvs x3 (.w 4) (.w 2) (.w 8) 0 0 .f32, high, 9, own_ 0x5FFFC), (o, on (core 0), 5, 2), (o, on (cap 2 { own 0 with perm := 2 } (core 0)), 7, 2),
      (.stvs x3 (.w 4) (.w 2) (.w 8) 0 0 .f32, on (cap 2 { own 0 with perm := 1 } (core 0)), 7, 2)] = true := by
  refine ⟨mayAll (by decide), noAcquire_of (by decide), rfl, ?_, ?_, clear_use (by decide +kernel), ?_, mayIssue_of (by decide),
    ⟨⟨by decide, .inl rfl⟩, .inl (by decide +kernel)⟩, ?_, ⟨⟨by decide, .inl rfl⟩, .inr ?_⟩, ?_, ?_, clear_use (by decide +kernel), mayIssue_of (by decide),
    ⟨⟨⟨by decide, .inl rfl⟩, ?_⟩, by decide +kernel⟩, ?_, ⟨⟨by decide, .inl rfl⟩, .inl (by decide +kernel)⟩, mayIssue_of (by decide), by decide +kernel⟩
  · rintro i ⟨⟨h, -⟩, -⟩; interval_cases i <;> exact portOpen_of (by decide +kernel)
  · rintro i ⟨⟨h, -⟩, hf⟩; revert hf; simp only [LaneOut]; interval_cases i <;> decide +kernel
  · rintro i ⟨h, -⟩; interval_cases i <;> exact ⟨plainWrite_of (by decide +kernel), by decide +kernel⟩
  · simp only [LaneOut]; decide +kernel
  · simp only [LaneOut]; decide +kernel
  · simp only [LaneOut]; decide +kernel
  · rintro i ⟨⟨h, -⟩, -⟩; interval_cases i <;> exact portOpen_of (by decide +kernel)
  · rintro ⟨-, hf⟩; revert hf; simp only [LaneOut]; decide +kernel
  · rintro i ⟨⟨h, -⟩, hf⟩
    have h0 : ∀ j, j < 8 → (laneAddr (mem 0x5FFFA) (.w 2) (.w 8) 0 j).toNat % 4 ≠ 0 := by decide +kernel
    exact hf ⟨⟨h, .inl rfl⟩, .inl (h0 i h)⟩

/-- BSLEEP of an awake and of a sleeping group, BWAKE of each, and the ILLEGAL of a gateway core. -/
theorem witness_BankGroups :
    let z := on { core 0 with g2 := .sleeping }
    (∀ i ∈ [Instr.bsleep x3 1, .bsleep x3 2, .bwake x3 1, .bwake x3 2], MayIssue i plain ∧ MayIssue i z) ∧ plain.core.portq = [] ∧
    plain.core.spillq = [] ∧ plain.core.groupSt 1 = .awake ∧ plain.core.groupSt 2 = .awake ∧ z.core.groupSt 2 = .sleeping ∧
    isGateway plain.core.phys = false ∧ isGateway (on (core 0x2000)).core.phys = true ∧ MayIssue (.bsleep x3 1) (on (core 0x2000)) ∧
    trapsAre [(.bsleep x3 1, on (core 0x2000), 1, 0), (.bwake x3 2, on (core 0x2047), 1, 0)] = true := by
  refine ⟨fun i hi => ⟨mayAll (by decide) i hi, mayAll (by decide) i hi⟩, rfl, rfl, rfl, rfl, rfl, by decide, by decide, mayIssue_of (by decide),
    by decide +kernel⟩

/-- Every register number, from both modes: those that U mode may read or write, and those that it may not. -/
theorem witness_SystemRegisters :
    let u := on { core 0 with mode := .u, prevMode := .u, word := 0x5000_0000 }
    (∀ reg, reg < 23 → MayIssue (.srd w (.w 0) reg) plain ∧ MayIssue (.swr w (.w 0) reg) plain) ∧
    (∀ reg ∈ [3, 4, 5, 6], MayIssue (.srd w (.w 4) reg) plain ∧ MayIssue (.swr w (.w 2) reg) plain) ∧
    MayIssue (.bkpt w) plain ∧ TakesTraps plain ∧
    (List.range 23).filter (fun r => decide (traps (.srd w (.w 4) r) u = some (0, 0))) = [0, 7, 8, 9, 10, 11, 12, 13, 14, 15, 16, 17, 18, 19, 20, 21, 22] ∧
    (List.range 23).filter (fun r => decide (traps (.swr w .zr r) u = some (0, 0))) = [12, 16] ∧
    trapsAre [(.swr w .zr 7, plain, 14, 0), (.swr w .zr 21, plain, 14, 0), (.swr w .zr 22, plain, 0, 0),
      (.swr w (.w 2) 3, plain, 5, 2), (.swr w (.w 2) 3, on (cap 2 { own 0 with otype := 2 } (core 0)), 8, 2),
      (.swr w (.w 2) 6, on (cap 2 (own 0) (core 0)), 0, 0), (.swr w (.w 2) 4, on (cap 2 (own 0) (core 0)), 8, 2),
      (.swr w (.w 2) 5, on (cap 2 { Cap.lens 15 64 16 with perm := 2 } (core 0)), 7, 2),
      (.swr w (.w 2) 5, on (cap 2 (Cap.lens 15 64 15) (core 0)), 6, 15), (.swr w (.w 2) 5, on (cap 2 (Cap.lens 15 64 64) (core 0)), 0, 0)] = true := by
  refine ⟨fun reg h => ?_, fun reg h => ?_, mayIssue_of (by decide), takesTraps_of (by decide), by decide +kernel, by decide +kernel, by decide +kernel⟩
  · interval_cases reg <;> exact ⟨mayIssue_of (by decide), mayIssue_of (by decide)⟩
  · fin_cases h <;> exact ⟨mayIssue_of (by decide), mayIssue_of (by decide)⟩


/-! ### Hypotheses met: barriers, events, waits, queues. -/

/-- A barrier of tile 0 for `n` parties, and a semaphore of it. -/
def barCap (n : Nat) : Cap := { over_ 0x8020 (0x8020 + n) 0x8020 0x10 0 with otype := 4 }
def semCap : Cap := { over_ 0x8000 0x8001 0x8000 0x10 0 with otype := 4 }
def barState (n : Nat) (b : Option Barrier) (as : List Arrival) : State :=
  { on { cap 2 (barCap n) (core 0) with arrivals := as } with bars := b.toList.map (fun x => (0x8020, x)) }
def semState (m : Option Sem) : State := { on (cap 2 semCap (core 0)) with sems := m.toList.map (fun x => (0x8000, x)) }

/-- The first and the last arrival of a phase, with no and with three earlier arrivals outstanding; a repeated arrival's waits;
a semaphore's units. -/
theorem witness_BarriersAndSemaphores :
    let old := [⟨0x8020, 4⟩, ⟨0x8021, 0⟩, ⟨0x8022, 0⟩]
    (∀ s ∈ [barState 2 none [], barState 2 (some ⟨5, 1, 2, []⟩) [], barState 2 (some ⟨5, 1, 2, []⟩) old, barState 65535 (some ⟨65535, 0, 0, []⟩) []],
      MayIssue (.bara w (.w 2)) s ∧ ReleasesAtOnce s (.w 2) ∧ s.core.arrivals.length < 4 ∧
      ((s.barAt (objectOf s (.w 2))).arrived = 0 ∨ (s.barAt (objectOf s (.w 2))).parties = (s.named s.core (s.core.rdCap (.w 2))).parties) ∧
      (∀ r ∈ s.core.arrivals, r.obj = objectOf s (.w 2) → (s.barAt (objectOf s (.w 2))).phase ≠ r.phase) ∧
      (s.barAt (objectOf s (.w 2))).parked = [] ∧ Single s ∧ ObjectOpen s (.w 2) ∧ ∀ f ∈ objectChecks s (.w 2) false, ¬ f.1) ∧
    (let s := barState 2 (some ⟨5, 1, 3, []⟩) []
     Single s ∧ ObjectOpen s (.w 2) ∧ (∀ f ∈ objectChecks s (.w 2) false, ¬ f.1) ∧ MayIssue (.bara w (.w 2)) s ∧ ReleasesAtOnce s (.w 2) ∧ (s.barAt (objectOf s (.w 2))).arrived ≠ 0 ∧
      (s.barAt (objectOf s (.w 2))).parties ≠ (s.named s.core (s.core.rdCap (.w 2))).parties) ∧
    (let s := barState 2 (some ⟨5, 1, 2, []⟩) [⟨0x8020, 4⟩]
     Single s ∧ ObjectOpen s (.w 2) ∧ 0x8000 ≤ objectOf s (.w 2) ∧ MayIssue (.barw w (.w 2)) s ∧ ∀ r ∈ s.core.arrivals, r.obj = objectOf s (.w 2) → (s.barAt (objectOf s (.w 2))).phase ≠ r.phase) ∧
    (let s := barState 2 (some ⟨5, 1, 2, []⟩) [⟨0x8020, 5⟩]
     Single s ∧ ObjectOpen s (.w 2) ∧ (∀ f ∈ objectChecks s (.w 2) false, ¬ f.1) ∧ MayIssue (.barw w (.w 2)) s ∧ ∃ rs, s.core.arrivals = rs ++ [⟨objectOf s (.w 2), (s.barAt (objectOf s (.w 2))).phase⟩]) ∧
    (∀ s ∈ [semState (some ⟨1, []⟩), semState (some ⟨65535, [.core 0]⟩)], MayIssue (.semp w (.w 2)) s ∧ (s.semAt (objectOf s (.w 2))).count ≠ 0 ∧
      ((s.semAt (objectOf s (.w 2))).waiters = [] ∨ (s.semAt (objectOf s (.w 2))).waiters = [.core s.core.phys]) ∧
      Single s ∧ ObjectOpen s (.w 2) ∧ ∀ f ∈ objectChecks s (.w 2) true, ¬ f.1) ∧
    (∀ s ∈ [semState none, semState (some ⟨65535, []⟩)], MayIssue (.semv w (.w 2)) s ∧ ReleasesAtOnce s (.w 2) ∧
      (s.semAt (objectOf s (.w 2))).waiters = [] ∧ Single s ∧ ObjectOpen s (.w 2) ∧ ∀ f ∈ objectChecks s (.w 2) true, ¬ f.1) ∧
    (MayIssue (.semp w (.w 2)) (semState none) ∧ ((semState none).semAt (objectOf (semState none) (.w 2))).count = 0) ∧
    trapsAre [(.bara w (.w 2), barState 2 (some ⟨5, 1, 3, []⟩) [], 6, 0x8020), (.bara w (.w 2), on (core 0), 5, 2),
      (.bara w (.w 2), on (cap 2 { barCap 2 with otype := 0 } (core 0)), 8, 2), (.bara w (.w 2), on (cap 2 { barCap 2 with perm := 0 } (core 0)), 7, 2),
      (.bara w (.w 2), semState none, 8, 2), (.semp w (.w 2), barState 1 none [], 8, 2),
      (.bara w (.w 2), on (cap 2 { over_ 0x8030 0x8032 0x8030 0x10 0 with otype := 4 } (core 0)), 6, 0x8030),
      (.bara w (.w 2), on (cap 2 { over_ 0x8060 0x8062 0x8060 0x10 0 with otype := 4 } (core 0)), 6, 0x8060),
      (.semp w (.w 2), on (cap 2 { over_ 0x8000 0x8002 0x8000 0x10 0 with otype := 4 } (core 0)), 6, 0x8000)] = true := by
  refine ⟨fun s hs => ?_, ⟨⟨rfl, by decide⟩, objectOpen_of (by decide), clear_object (by decide +kernel), mayIssue_of (by decide), ⟨rfl, by decide⟩, by decide,
    by decide⟩, ⟨⟨rfl, by decide⟩, objectOpen_of (by decide), by decide, mayIssue_of (by decide), by decide⟩,
    ⟨⟨rfl, by decide⟩, objectOpen_of (by decide), clear_object (by decide +kernel), mayIssue_of (by decide), [], by decide⟩, fun s hs => ?_, fun s hs => ?_, ⟨mayIssue_of (by decide), by decide⟩, by decide +kernel⟩
  · fin_cases hs <;> exact ⟨mayIssue_of (by decide +kernel), ⟨rfl, by decide +kernel⟩, by decide +kernel, by decide +kernel, by decide +kernel, by decide +kernel,
      ⟨rfl, by decide⟩, objectOpen_of (by decide), clear_object (by decide +kernel)⟩
  · fin_cases hs <;> exact ⟨mayIssue_of (by decide), by decide +kernel, by decide +kernel, ⟨rfl, by decide⟩, objectOpen_of (by decide),
      clear_object (by decide +kernel)⟩
  · fin_cases hs <;> exact ⟨mayIssue_of (by decide), ⟨rfl, by decide +kernel⟩, by decide +kernel, ⟨rfl, by decide⟩, objectOpen_of (by decide),
      clear_object (by decide +kernel)⟩

/-- WFE with and without a bit that it takes; SEV and SEND to the first and the last rank and one beyond; FENCE's orders; RECV. -/
theorem witness_EventsAndMessages :
    let e := on (reg 1 0x80000000#64 { core 0 with evt := 0xC0000000#32 })
    let h := fun r : Word => { inPart (reg 1 r (core 0)) with hold := true }
    let n := 16
    let buf := { plain with cardbuf := [(bufKey 0, [farW])] }
    let busy := on { core 0 with pending := [lateQ], unacked := [⟨0, 1, false, 15, 4095, false, none⟩] }
    let x : InMsg := ⟨.msg, [1, 2, 3, 4], 2, 5⟩
    let y : InMsg := ⟨.error, [0, 0, 0, 0], 0, 6⟩
    let m := { on { reg 1 1 (core 0) with inbox := [y, x] } with hold := true }
    (MayIssue (.wfe w (.w 0) (.w 1)) e ∧ e.core.evt &&& 0x80000000#32 ≠ 0) ∧ (MayIssue (.wfe w (.w 0) (.w 1)) plain ∧ plain.core.evt &&& 0xFFFFFFFF#32 = 0) ∧
    (∀ r ∈ [0, n - 1], MayIssue (.sev w (.w 1) (.w 2)) (h (BitVec.ofNat 64 r)) ∧ MayIssue (.send w (.w 1) (.w 4) .rlx .core) (h (BitVec.ofNat 64 r)) ∧
      NoAcquire (h (BitVec.ofNat 64 r)).core ∧ ∃ q, (h (BitVec.ofNat 64 r)).ofRank (h (BitVec.ofNat 64 r)).core
        ((h (BitVec.ofNat 64 r)).core.rd (.w 1)).v.toNat = some q) ∧
    (MayIssue (.sev w (.w 1) (.w 2)) (h (BitVec.ofNat 64 n)) ∧ MayIssue (.send x3 (.w 1) (.w 4) .rel .core) (h (BitVec.ofNat 64 n)) ∧
      n ≤ ((h (BitVec.ofNat 64 n)).core.rd (.w 1)).v.toNat) ∧
    (∀ o ∈ [Ord.acq, .rel, .ar, .sc], MayIssue (.fence w o .sys) plain) ∧ plain.core.pending = [] ∧ plain.core.unacked = [] ∧
    NoBuffered plain .sys ∧ NoBuffered buf .tile ∧ MayIssue (.fence w .acq .clus) buf ∧ buf.core.pending = [] ∧ ¬ NoBuffered buf .clus ∧
    MayIssue (.fence w .acq .core) busy ∧ (∃ p ∈ busy.core.pending, p.left ≠ 0 ∨ ∃ x ∈ p.writes, x.tgt.real = true) ∧
    MayIssue (.fence w .rel .sys) busy ∧ busy.core.unacked ≠ [] ∧
    (MayIssue (.recv w (.w 4) (.w 1) .acq .sys) m ∧ NoAcquire m.core ∧ NoReplay m.core ∧ NoBuffered m .sys ∧ m.core.inbox = [y] ++ x :: [] ∧
      (∀ z ∈ [y], (1 : Nat).testBit z.kind.code = false) ∧ (1 : Nat).testBit x.kind.code = true) ∧
    (MayIssue (.recv w (.w 4) .zr .rlx .core) plain ∧ ∀ z ∈ plain.core.inbox, (15 : Nat).testBit z.kind.code = false) := by
  refine ⟨⟨mayIssue_of (by decide), by decide⟩, ⟨mayIssue_of (by decide), by decide⟩, fun r hr => ?_, ⟨mayIssue_of (by decide), mayIssue_of (by decide),
    by decide +kernel⟩, fun o ho => ?_, rfl, rfl, .inr rfl, .inl rfl, mayIssue_of (by decide), rfl, by unfold NoBuffered; decide,
      mayIssue_of (by decide), ⟨_, List.mem_singleton.2 rfl, by decide⟩, mayIssue_of (by decide), by decide, ⟨mayIssue_of (by decide),
      noAcquire_of (by decide), rfl, .inr rfl, rfl, by decide, by decide⟩, mayIssue_of (by decide), by decide⟩
  · fin_cases hr <;> exact ⟨mayIssue_of (by decide), mayIssue_of (by decide), noAcquire_of (by decide), Option.isSome_iff_exists.1 (by decide +kernel)⟩
  · fin_cases ho <;> exact mayIssue_of (by decide)

/-- A mailbox block of the core's own store in its states, and keys that agree with, differ from and wake their waiters. -/
theorem witness_WaitsAndMailboxes :
    let s := on (reg 0 9 (cap 2 (own 0x1000) (core 0)))
    let z := on (reg 0 0 (cap 2 (own 0x1000) (core 0)))
    let b := on (cap 2 { over_ (selfWindow + 0x1000) (selfWindow + 0x1040) (selfWindow + 0x1000) 8 0 with otype := 3 } (core 0))
    let box := fun v : Byte => { b with mem := if v = 0 then [] else [(lsBase 0 + 0x1030, v)] }
    let u := on (cap 2 (over_ 0x2000 0x2008 0x2000 0x3 0) (core 0))
    let post := { b with posters := [(lsBase 0 + 0x1000, 3)] }
    let wk := { z with waits := [⟨.store 0 0x1000, 0, .core 1⟩, ⟨.virt 8, 0, .core 2⟩] }
    (MayIssue (.waitva w (.w 2) (.w 0) .rlx .core) s ∧ NoAcquire s.core ∧ s.core.woken = false ∧ (∀ e ∈ s.waits, e.who ≠ .core s.core.phys) ∧
      s.waitKey s.core (s.core.rdCap (.w 2)).addr = some (.store 0 0x1000) ∧ PortFree s 0 0x1000 8 ∧ NoReplay s.core ∧
      s.numAt (lsBase 0 + 0x1000) 8 ≠ (s.core.rd (.w 0)).v.toNat ∧ ∀ f ∈ keyChecks s (.w 2) 0, ¬ f.1) ∧
    (MayIssue (.waitva w (.w 2) (.w 0) .rlx .core) z ∧ z.numAt (lsBase 0 + 0x1000) 8 = (z.core.rd (.w 0)).v.toNat ∧ z.waits.length < 65536) ∧
    MayIssue (.waitva w (.w 2) (.w 0) .rlx .core) (on { s.core with woken := true }) ∧
    (MayIssue (.waitva w (.w 2) (.w 0) .acq .sys) u ∧ NoAcquire u.core ∧ (u.core.rdCap (.w 2)).addr.toNat < 2 ^ 47 ∧ u.waits.length < 65536 ∧
      ∀ f ∈ keyChecks u (.w 2) 0, ¬ f.1) ∧
    (MayIssue (.mpost w (.w 2) (.w 4) .rlx .core) post ∧ post.numAt (lsBase 0 + 0x1000 + 48) 8 % 4 ≠ 3 ∧
      post.posters = [] ++ (lsBase 0 + 0x1000, 3) :: [] ∧ 3 ≠ post.core.phys) ∧
    (∀ i ∈ [Instr.wakeva w (.w 2) (.w 0) .rlx .core, .wakeva x3 (.w 2) (.w 0) .rel .sys], MayIssue i wk) ∧ wk.core.unacked = [] ∧ wk.core.pending = [] ∧
    wk.waitKey wk.core (wk.core.rdCap (.w 2)).addr = some (.store 0 0x1000) ∧ (∀ e ∈ wk.waits, ∃ p, e.who = .core p) ∧
    (∀ f ∈ keyChecks wk (.w 2) 1, ¬ f.1) ∧
    (∀ v ∈ [(0 : Byte), 2, 3], MayIssue (.mpost w (.w 2) (.w 4) .rlx .core) (box v) ∧ (box v).mailbox (box v).core ((box v).core.rdCap (.w 2)) = some (0, 0x1000) ∧
      PortFree (box v) 0 0x1000 64 ∧ NoAcquire (box v).core ∧ ((box v).coreAt 0).paired = false ∧ (box v).posters = [] ∧
      ((box v).core.rdCap (.w 2)).tag = true ∧ ((box v).core.rdCap (.w 2)).otype = 3 ∧ ((box v).core.rdCap (.w 2)).perm.getLsbD 3 = true ∧ (box v).numAt (lsBase 0 + 0x1000 + 48) 8 % 4 = v.toNat) ∧
    Highest (fun x => ∃ i, i < 4 ∧ x = (b.core.ent (b.core.physOf (.w 4) + i)).l) 0 ∧
    trapsAre [(.waitva w (.w 2) (.w 0) .rlx .core, on (cap 2 (own 4) (core 0)), 4, 2),
      (.waitva w (.w 2) (.w 0) .rlx .core, on (cap 2 (own 0x60000) (core 0)), 6, own_ 0x60000),
      (.mpost w (.w 2) (.w 4) .rlx .core, s, 8, 2), (.mpost w (.w 2) (.w 4) .rlx .core, box 3, 10, own_ 0x1000)] = true := by
  refine ⟨⟨mayIssue_of (by decide), noAcquire_of (by decide), rfl, by decide, by decide +kernel, portFree_of (by decide +kernel), rfl, by decide +kernel, clear_key (by decide +kernel)⟩,
    ⟨mayIssue_of (by decide), by decide +kernel, by decide⟩, mayIssue_of (by decide), ⟨mayIssue_of (by decide), noAcquire_of (by decide), by decide,
      by decide, clear_key (by decide +kernel)⟩, ⟨mayIssue_of (by decide), by decide +kernel, rfl, by decide⟩, mayAll (by decide), rfl, rfl, by decide +kernel, ?_,
    clear_key (by decide +kernel), fun v hv => ?_, highest_range (by decide), by decide +kernel⟩
  · intro e he; fin_cases he <;> exact ⟨_, rfl⟩
  · fin_cases hv <;> exact ⟨mayIssue_of (by decide), by decide +kernel, portFree_of (by decide +kernel), noAcquire_of (by decide), by decide, rfl, by decide, by decide, by decide,
      by decide +kernel⟩


/-- A queue 5 in a state that holds its effects until their events, with a capability for it in c2 and a record in w16 to w23. -/
def queueCap : Cap := { over_ 0 16384 5 0x183 7 with otype := 5 }
def qs (q : Queue) : State := { on (cap 2 queueCap (core 0)) with hold := true, queues := [(5, q)] }
def entryOf (n : Word) : QEntry := ⟨List.replicate 8 n, List.replicate 4 false, 0⟩

/-- Pushes to an empty segment and to one with a single place left, to a queue in each state; pops of one and of the last entry, of
an empty queue; the checks. -/
theorem witness_QueueInstructions :
    let on0 : Queue := { Queue.reset with part := 1, st := .on }
    let on15 : Queue := { Queue.reset with part := 1, st := .on, head := 2 ^ 64 - 5, tail := 10, seg := List.replicate 15 (entryOf 1) }
    let on1 : Queue := { Queue.reset with part := 1, st := .on, kind := 3, head := 7, tail := 8, seg := [entryOf 1] }
    let rsv := on { cap 2 queueCap (core 0) with mode := .u, word := 6 }
    (∀ q ∈ [on0, on15, { on0 with hostp := true }, { on0 with st := .off }, { on0 with st := .stopped }, { on0 with st := .fault }],
      (qs q).hold = true ∧ NoAcquire (qs q).core ∧ NoReplay (qs q).core ∧ (qs q).queueAt 5 = q ∧ q.bin = false ∧
      (q.tail + 2 ^ 64 - q.head) % 2 ^ 64 < 16 ∧ q.seg.length = (q.tail + 2 ^ 64 - q.head) % 2 ^ 64 ∧ q.parked = [] ∧ q.pushers = [] ∧
      (qs q).core.unacked = [] ∧ MayIssue (.qpush x3 (.w 0) (.w 2) (.w 16) 1) (qs q) ∧ MayIssue (.qpush w (.w 0) (.w 2) (.w 16) 0) (qs q) ∧
      MayIssue (.qpushWait w (.w 0) (.w 2) (.w 16)) (qs q)) ∧
    (∀ q ∈ [on0, { on0 with st := .off }, { on0 with st := .fault }, { on0 with hostp := true }], pushCode q false ≠ 2) ∧
    (∀ b ∈ [false, true], ∀ f ∈ pushChecks (qs on0) (.w 2) (.w 16) b, ¬ f.1) ∧
    (on1.part ≠ 0 ∧ (qs on1).bufAt (bufKey (qs on1).core.phys) = [] ∧ on1.st = .on ∧ (on1.kind = 0 ∨ on1.kind = 3) ∧ on1.seg ≠ [] ∧ on1.seg.length ≤ (on1.tail + 2 ^ 64 - on1.head) % 2 ^ 64 ∧
      (qs on1).heldq = [] ∧ MayIssue (.qpop w (.w 8) (.w 2)) (qs on1) ∧ MayIssue (.qpopg w (.w 8) (.w 2)) (qs on1) ∧
      ∀ f ∈ queueChecks (.w 2) ((qs on1).core.rdCap (.w 2)) 0, ¬ f.1) ∧
    (on0.part ≠ 0 ∧ on0.kind ≠ 2 ∧ (on0.tail + 2 ^ 64 - on0.head) % 2 ^ 64 = 0 ∧ MayIssue (.qpop w (.w 8) (.w 2)) (qs on0)) ∧
    MayIssue (.qstat w (.w 0) (.w 2)) (qs { on0 with parked := [⟨Cap.null, 0, 0, 0, none⟩] }) ∧
    trapsAre [(.qpush w (.w 0) (.w 2) (.w 16) 0, on (core 0), 5, 2), (.qpop w (.w 8) (.w 2), on (cap 2 { queueCap with otype := 4 } (core 0)), 8, 2),
      (.qpush w (.w 0) (.w 2) (.w 16) 0, on (cap 2 { queueCap with perm := 1 } (core 0)), 7, 2),
      (.qpop w (.w 8) (.w 2), on (cap 2 { queueCap with perm := 2 } (core 0)), 7, 2), (.qpush x3 (.w 0) (.w 2) (.w 16) 1, rsv, 14, 6),
      (.qpush w (.w 0) (.w 2) (.w 16) 0, on (regL 23 0 3 (cap 2 { queueCap with label := 2 } (core 0))), 9, 5),
      (.qpush w (.w 0) (.w 2) (.w 16) 0, on (regL 23 0 2 (cap 2 { queueCap with label := 2 } (core 0))), 0, 0),
      (.qpush w (.w 0) (.w 2) (.w 16) 0, on (cap 22 (own 0) (cap 2 { queueCap with perm := 3 } (core 0))), 7, 2)] = true := by
  refine ⟨fun q hq => ?_, by decide, fun b hb => ?_, ⟨by decide, rfl, rfl, by decide, by decide, by decide, rfl, mayIssue_of (by decide), mayIssue_of (by decide),
    clear_queue (by decide)⟩, ⟨by decide, by decide, by decide, mayIssue_of (by decide)⟩, mayIssue_of (by decide), by decide +kernel⟩
  · fin_cases hq <;> exact ⟨rfl, noAcquire_of (by decide), rfl, rfl, rfl, by decide, by decide, rfl, rfl, rfl, mayIssue_of (by decide +kernel),
      mayIssue_of (by decide +kernel), mayIssue_of (by decide +kernel)⟩
  · have h1 : ∀ f ∈ queueChecks (.w 2) ((qs { Queue.reset with part := 1, st := .on }).core.rdCap (.w 2)) 1, ¬ f.1 := clear_queue (by decide)
    have h2 : ∀ i, i < 8 → ¬ ((qs { Queue.reset with part := 1, st := .on }).core.rdCap (.w 2)).label <
        ((qs { Queue.reset with part := 1, st := .on }).core.ent ((qs { Queue.reset with part := 1, st := .on }).core.physOf (.w 16) + i)).l := by decide +kernel
    intro f hf
    simp only [pushChecks, List.mem_append, List.mem_cons, List.not_mem_nil, or_false] at hf
    rcases hf with hf | rfl | rfl | rfl
    · exact h1 f hf
    · exact fun h => absurd h.2 (by decide)
    · rintro ⟨i, hi, h⟩; exact h2 i hi h
    · exact fun h => absurd h.1 (by decide)

/-! ### Hypotheses met: vectors. -/

theorem witness_IntegerLanes : ∀ i ∈ intTypes.flatMap (fun t => [Instr.vadd x3 (.w 0) (.w 4) (.w 8) 0 t.1, .vsub x3 (.w 0) (.w 4) (.w 8) 7 t.1,
    .vmul x3 (.w 0) (.w 4) (.w 8) 0 t.1, .vmad x3 (.w 0) (.w 0) (.w 0) 0 t.1, .vmin x3 (.w 0) (.w 4) (.w 8) 0 t.1, .vmax x3 (.w 0) (.w 4) (.w 8) 0 t.1,
    .vand x3 (.w 0) (.w 4) (.w 8) 0 t.1, .vor x3 (.w 0) (.w 4) (.w 8) 0 t.1, .vxor x3 (.w 0) (.w 4) (.w 8) 0 t.1, .vshl x3 (.w 0) (.w 4) (.w 8) 0 t.1,
    .vshr x3 (.w 0) (.w 4) (.w 8) 0 t.1, .vsar x3 (.w 0) (.w 4) (.w 8) 0 t.1, .vabs x3 (.w 0) (.w 4) 0 t.1, .vneg x3 (.w 0) (.w 4) 0 t.1,
    .vlogt x3 (.w 0) (.w 4) (.w 8) (.w 12) 255 0 t.1]), MayIssue i plain := mayAll (by decide +kernel)

theorem witness_LaneMoves : ∀ i ∈ moveTypes.flatMap (fun t => [Instr.vsel x3 (.w 0) (.w 4) (.w 8) 0 t.1, .vbcast x3 (.w 0) (.w 4) 1 t.1,
    .vext x3 (.w 0) (.w 4) (.w 8) t.1, .vins x3 (.w 0) (.w 4) (.w 8) t.1, .vperm x3 (.w 0) (.w 4) (.w 8) 7 t.1]) ++
    intTypes.flatMap (fun t => [Instr.vcmp x3 (.o 1) (.w 4) (.w 8) 0 0 t.1, .vcmp x3 (.o 1) (.w 4) (.w 8) 7 7 t.1, .vred x3 (.w 0) (.w 4) 0 0 t.1,
      .vred x3 (.w 0) (.w 4) 2 1 t.1]), MayIssue i plain := mayAll (by decide +kernel)

/-- The status word with a mode in RM, in the lens's first entry. -/
def rounding (rm : Nat) : State := on ((core 0).putEnt 15 ⟨BitVec.ofNat 64 (rm * 2 ^ 10), 0⟩)

theorem witness_FloatLanes : (∀ i ∈ floatTypes.flatMap (fun t => [Instr.vfadd x3 (.w 0) (.w 4) (.w 8) 0 t.1, .vfsub x3 (.w 0) (.w 4) (.w 8) 7 t.1,
    .vfmul x3 (.w 0) (.w 4) (.w 8) 0 t.1, .vfma x3 (.w 0) (.w 4) (.w 8) 0 t.1, .vfnma x3 (.w 0) (.w 4) (.w 8) 0 t.1, .vfmin x3 (.w 0) (.w 4) (.w 8) 0 t.1,
    .vfmax x3 (.w 0) (.w 4) (.w 8) 0 t.1, .vfdiv x3 (.w 0) (.w 4) (.w 8) 0 t.1, .vfsqrt x3 (.w 0) (.w 4) 0 t.1, .vfrcp x3 (.w 0) (.w 4) 0 t.1,
    .vfrsq x3 (.w 0) (.w 4) 0 t.1, .vfexp2 x3 (.w 0) (.w 4) 0 t.1, .vflog2 x3 (.w 0) (.w 4) 0 t.1, .vftanh x3 (.w 0) (.w 4) 0 t.1,
    .vcmp x3 (.o 1) (.w 4) (.w 8) 0 0 t.1, .vcmp x3 (.o 1) (.w 4) (.w 8) 7 0 t.1, .vred x3 (.w 0) (.w 4) 0 0 t.1, .vred x3 (.w 0) (.w 4) 2 0 t.1]),
    MayIssue i (rounding 3)) ∧ (∀ f ∈ rmCheck (rounding 3), ¬ f.1) ∧
    trapsAre [(.vfadd x3 (.w 0) (.w 4) (.w 8) 0 .f32, rounding 4, 1, 0), (.vftanh x3 (.w 0) (.w 4) 0 .f32, rounding 7, 1, 0),
      (.vred x3 (.w 0) (.w 4) 0 0 .f32, rounding 4, 1, 0), (.vred x3 (.w 0) (.w 4) 1 0 .f32, rounding 4, 0, 0),
      (.vfmin x3 (.w 0) (.w 4) (.w 8) 0 .f32, rounding 4, 0, 0)] = true :=
  ⟨mayAll (by decide +kernel), by simp only [rmCheck, List.mem_singleton, forall_eq]; decide +kernel, by decide +kernel⟩

theorem witness_FormatLanes : (∀ i ∈ (moveTypes.filter (fun t => t.1 != .implied)).flatMap (fun t => (List.range 11).flatMap (fun k =>
    [Instr.vcvt x3 (.w 0) (.w 4) (k + 1) 0 0 t.1, .vcvt x3 (.w 0) (.w 4) (k + 1) 5 7 t.1])) ++
    [.vquant x3 (.w 0) (.w 8) .kb2, .vquant x3 (.w 0) (.w 8) .kb7, .vdeq x3 (.w 0) (.w 8) .kb4, .vbaddq x3 (.w 0) (.w 4) (.w 8) .kb4],
      MayIssue i plain) ∧
    trapsAre [(.vcvt x3 (.w 0) (.w 4) 7 0 0 .bf16, rounding 4, 1, 0), (.vcvt x3 (.w 0) (.w 4) 8 0 0 .f32, rounding 4, 0, 0),
      (.vcvt x3 (.w 0) (.w 4) 7 5 0 .bf16, rounding 4, 0, 0), (.vquant x3 (.w 0) (.w 8) .kb4, on { core 0 with lens := Cap.lens 15 31 16 }, 3, 12),
      (.vquant x3 (.w 0) (.w 8) .kb4, on { core 0 with lens := Cap.lens 15 32 16 }, 0, 0),
      (.vdeq x3 (.w 8) (.w 0) .kb4, on { core 0 with lens := Cap.lens 15 31 16 }, 3, 12)] = true := ⟨mayAll (by decide +kernel), by decide +kernel⟩

/-- In f32: 3 is represented, 2^24 + 1 is not, 2^128 overflows in every mode. -/
theorem witness_Rounding : FFmt.f32 ∈ [FFmt.f32, .f16, .bf16, .e4m3, .e5m2] ∧
    ([RMode.rne, .rtz, .rdn, .rup].map (fun m => ((FFmt.f32.round m 0 false 3 0 false).fl.nx, (FFmt.f32.round m 0 false 16777217 0 false).fl.nx,
      (FFmt.f32.round m 0 true 16777217 0 false).fl.of, (FFmt.f32.round m 0 false 1 128 false).fl.of))) =
    [(false, true, false, true), (false, true, false, true), (false, true, false, true), (false, true, false, true)] := by decide +kernel


/-! ### Hypotheses met: exchange, revocation, the events of a core. -/

/-- Words in memory from an address, eight bytes each. -/
def wordsAt (a : Nat) (vs : List Nat) (s : State) : State :=
  { s with mem := s.mem.putList (fun _ => 0) a (vs.flatMap (fun v => bytesOf 8 v)) }

/-- XMAX alone and in a group of two; while another waits; contributions for this count and the next, and for another; one that
cannot come. -/
theorem witness_MaximumExchange :
    let i := Instr.xmax x3 (.w 0) (.w 4) .f32
    let two := { inPart (core 0) with hold := true, parts := [(1, { part1 with len := 4 })] }
    let wait : XWait := ⟨0, 0, [1], true, 16, [0, 0, 0, 0], 0⟩
    let late : Pending := { lateQ with xmax := true }
    let fly := fun n : Nat => { plain with xflights := [⟨0, ⟨2, 0, [], 0⟩, 0⟩, ⟨0, ⟨1, n, [0, 0, 0, 0], 0⟩, 0⟩] }
    let stuck := { on { core 0 with xwait := some wait, pending := [late], trapDue := some ⟨1, 0, 0⟩ } with xflights := [] }
    (∀ s ∈ [{ plain with hold := true }, two], ∀ t ∈ [Ty.f32, .z32, .implied], MayIssue (.xmax x3 (.w 0) (.w 4) t) s ∧ s.core.xwait = none ∧
      s.hold = true ∧ isGateway s.core.phys = false ∧ s.core.xbuf = [] ∧ s.core.pending = []) ∧
    ({ plain with hold := true } : State).exchangeGroup 0 = [] ∧ two.exchangeGroup 0 = [1] ∧
    MayIssue i stuck ∧ stuck.core.xwait ≠ none ∧ trapsAre [(i, on (core 0x2000), 1, 0)] = true ∧
    (∀ n ∈ [0, 1, 2, 65535], (fly n).xflights = [⟨0, ⟨2, 0, [], 0⟩, 0⟩] ++ ⟨0, ⟨1, n, [0, 0, 0, 0], 0⟩, 0⟩ :: [] ∧
      (∀ x ∈ [(⟨0, ⟨2, 0, [], 0⟩, 0⟩ : XFlight)], ¬ (x.dst = 0 ∧ x.x.src = 1)) ∧ ((fly n).focus 0).core.xwait = none) ∧
    (stuck.focus 0).core.xwait = some wait ∧ (∃ x ∈ (stuck.focus 0).core.pending, x.id = wait.id ∧ x.xmax = true) ∧
    (stuck.focus 0).core.trapDue ≠ none ∧ (∀ n ∈ [0, 1], ((fly n).focus 0).unreachable 0 0 = false) ∧ isGateway 0 = false := by
  refine ⟨fun s hs t ht => ?_, by decide, by decide +kernel, mayIssue_of (by decide), by decide, by decide +kernel, fun n hn => ?_, rfl,
    ⟨_, List.mem_singleton.2 rfl, rfl, rfl⟩, by decide, by decide, by decide⟩
  · fin_cases hs <;> fin_cases ht <;> exact ⟨mayIssue_of (by decide), rfl, rfl, by decide, rfl, rfl⟩
  · fin_cases hn <;> exact ⟨rfl, by decide, rfl⟩

/-- A map over [0x10000, 0x10800) in the core's own store, and a capability over its last granule. -/
def revState : State :=
  wordsAt (lsBase 0 + 0x1000) [0x10000, 0x800, 0, 0] (on (cap 4 (over_ (selfWindow + 0x1000) (selfWindow + 0x1040) (selfWindow + 0x1000) 0x2003 0)
    (cap 2 (over_ 0x10700 0x10800 0x10700 3 0) (core 0))))

theorem witness_Revocation :
    let s := revState
    let asleep := { revState with core := { revState.core with portq := [⟨1, 9, 0x1000, 0, .store [1] 0 none, true⟩] } }
    let sw : Sweep := ⟨0, 0x1000, 0x10000, 0x800, [], []⟩
    let run := { inPart (core 0) with sweeps := [(1, { sw with checked := [0] })] }
    let chk := { inPart (core 0) with sweeps := [(1, sw)] }
    (MayIssue (.crvmark w (.w 2) (.w 4)) s ∧ s.core.unacked = [] ∧
      s.reach s.core (BitVec.ofInt 64 (s.core.rdCap (.w 4)).base) 32 = some (0, 0x1000) ∧ (s.coreAt 0).cstate ≠ .killed ∧ NoAcquire s.core ∧
      PortFree s 0 0x1000 33 ∧ PortFree s 0 0x1000 32 ∧ s.numAt (lsBase 0 + 0x1008) 8 = 0x800 ∧ (s.coreAt 0).paired = false ∧ s.traceLen 0 = 0 ∧
      (s.core.rdCap (.w 2)).base.toNat = 0x10700 ∧ (s.core.rdCap (.w 2)).top.toNat = 0x10800 ∧ s.numAt (lsBase 0 + 0x1000) 8 = 0x10000 ∧
      ∀ i, i + 0x10000 / 256 ≤ (0x10800 - 1) / 256 → 0x1000 + 33 + i / 8 ≤ traceOff) ∧
    (MayIssue (.crvmark w (.w 2) (.w 4)) asleep ∧ asleep.portClear 0 0x1000 33 = false ∧
      asleep.reach asleep.core (BitVec.ofInt 64 (asleep.core.rdCap (.w 4)).base) 32 = some (0, 0x1000)) ∧
    (MayIssue (.csweep w (.w 4)) s ∧ s.sweeps.listed s.core.part = none) ∧
    (let t := { s with sweeps := [(0, sw)] }
     MayIssue (.csweep w (.w 4)) t ∧ t.sweeps.listed t.core.part ≠ none) ∧
    (Named chk 0 ∧ (chk.focus 0).sweeps.listed (chk.focus 0).core.part = some sw ∧ 0 ∉ sw.checked) ∧
    (run.sweeps.listed 1 = some { sw with checked := [0] } ∧ run.tiles = [] ∧ (run.coreAt 0).cstate ≠ .killed ∧
      (∀ q ∈ run.coresOf 1, q ∈ [0] ∨ (run.coreAt q).awake = false) ∧ run.portReady 1 0 engineSrc 0x1000 32 = true) ∧
    trapsAre [(.crvmark w (.w 2) (.w 4), s, 0, 0), (.csweep w (.w 4), s, 0, 0), (.crvmark w (.w 6) (.w 4), s, 5, 6), (.crvmark w (.w 2) (.w 6), s, 5, 6),
      (.crvmark w (.w 2) (.w 2), s, 7, 2), (.crvmark w (.w 4) (.w 4), s, 6, own_ 0x1000), (.csweep w (.w 6), s, 5, 6), (.csweep w (.w 2), s, 7, 2),
      (.csweep w (.w 4), wordsAt (lsBase 0 + 0x1000) [0xFF00, 0x800] s, 6, own_ 0x1000),
      (.csweep w (.w 4), wordsAt (lsBase 0 + 0x1000) [0x10000, 0] s, 6, own_ 0x1000),
      (.csweep w (.w 4), wordsAt (lsBase 0 + 0x1000) [0x10000, 0x10000] s, 0, 0),
      (.csweep w (.w 4), wordsAt (lsBase 0 + 0x1000) [0x10000, 0x10100] s, 6, own_ 0x1000)] = true := by
  refine ⟨⟨mayIssue_of (by decide), rfl, by decide +kernel, by decide, noAcquire_of (by decide), portFree_of (by decide +kernel), portFree_of (by decide +kernel), by decide +kernel, by decide, by decide +kernel, by decide, by decide, by decide +kernel, ?_⟩,
    ⟨mayIssue_of (by decide), by decide +kernel, by decide +kernel⟩, ⟨mayIssue_of (by decide), rfl⟩, ⟨mayIssue_of (by decide), by decide⟩,
    ⟨⟨by decide, rfl⟩, rfl, by decide⟩, ⟨rfl, rfl, by decide, by decide +kernel, by decide +kernel⟩, by decide +kernel⟩
  intro i hi
  have : i ≤ 7 := by omega
  have : traceOff = 0x5FFC0 := rfl
  omega

/-- A trap that waits; each asynchronous cause as the first that is due; the timer; an enabled event and both replies. -/
theorem witness_TrapEvents :
    let c := core 0
    let due := [{ c with dueSpill := [1, 4], dueMirror := some 2 }, { c with dueMirror := some 2, dueWatchdog := [3] },
      { c with dueWatchdog := [3, 5], duePreempt := true }, { c with duePreempt := true, evt := 1, evmask := 1 },
      { c with evt := 0x80000000#32, evmask := 0x80000000#32 }]
    let trap := on { c with trapDue := some ⟨5, 2, 0⟩ }
    let tick := on { c with mode := .u, ptimer := 1 }
    let twin := on { c with mode := .u, ptimer := 1, interval := some ⟨0, 0, [], 0, [], [], [], [], false, false, c.agreedNow⟩, pair := { c.pair with pstate := .running } }
    let mute := inPart { c with fpEvent := some ⟨1, 0, 0, 0⟩, fpsup := 16 }
    let fp := { inPart { c with fpEvent := some ⟨1, 0, 0, 0⟩, fpsup := 15 } with hold := true }
    let reply := fun v : Word => on { c with fpWait := some 3, fpReply := some ⟨.msg, [v, 0, 0, 0], 0, 15⟩ }
    (Named trap 0 ∧ (trap.focus 0).core.trapDue = some ⟨5, 2, 0⟩ ∧ firstDue (trap.focus 0).core = none ∧ (trap.focus 0).core.pair.pstate = .unpaired ∧ TakesTraps (trap.focus 0)) ∧
    (due.map (fun x => (firstDue x).map (fun y => (y.1.toNat, y.2.1))) = [some (18, 1), some (17, 2), some (20, 3), some (15, 0), some (16, 0x80000000)]) ∧
    (∀ x ∈ due, Named (on x) 0 ∧ TakesTraps ((on x).focus 0) ∧ x.gang.fused = false ∧ x.interval = none ∧ x.woken = false ∧ x.tabRun = none ∧ x.trapDue = none ∧
      x.pair.pstate = .unpaired ∧
      x.awake = true ∧ (on x).matrixHolds 0 = false) ∧
    (let x := on { c with fpWait := some 3, fpReply := some ⟨.msg, [1, 0, 0, 0], 0, 15⟩, duePreempt := true }
     Named x 0 ∧ firstDue (x.focus 0).core ≠ none ∧ (x.focus 0).core.fpReply ≠ none ∧ TakesTraps (x.focus 0)) ∧
    (Named tick 0 ∧ (tick.focus 0).core.awake = true ∧ (tick.focus 0).core.mode = .u ∧ (tick.focus 0).core.ptimer ≠ 0 ∧ (tick.focus 0).core.interval = none) ∧
    (Named twin 0 ∧ (twin.focus 0).core.awake = true ∧ (twin.focus 0).core.mode = .u ∧ (twin.focus 0).core.ptimer ≠ 0 ∧ (twin.focus 0).core.interval ≠ none) ∧
    (Named mute 0 ∧ mute.core.fpEvent = some ⟨1, 0, 0, 0⟩ ∧ (mute.focus 0).ofRank (mute.focus 0).core mute.core.fpsup.toNat = none) ∧
    (Named fp 0 ∧ fp.core.fpEvent = some ⟨1, 0, 0, 0⟩ ∧ fp.core.fpWait = none ∧ fp.core.awake = true ∧ fp.core.gang.fused = false ∧
      fp.core.pending = [] ∧ fp.core.unacked = [] ∧ fp.core.paired = false ∧ fp.hold = true ∧ ∃ q, (fp.focus 0).ofRank (fp.focus 0).core 15 = some q) ∧
    (∀ v ∈ [0x300000001#64, 0x300000102#64, 0x300001402#64], Named (reply v) 0 ∧ (reply v).core.fpWait = some 3 ∧ v.toNat / 65536 % 65536 = 0 ∧
      v.toNat / 2 ^ 32 = 3) ∧ (0x300000001#64).toNat % 256 = 1 ∧ (0x300000102#64).toNat % 256 = 2 ∧ (0x300000102#64).toNat / 256 % 256 = 1 ∧
    (0x300001402#64).toNat / 256 % 256 = 0x14 ∧ c.hlens.tag = true ∧ c.hpcc.tag = true := by
  refine ⟨⟨⟨by decide, rfl⟩, rfl, rfl, rfl, takesTraps_of (by decide)⟩, by decide, fun x hx => ?_,
    ⟨⟨by decide, rfl⟩, by decide, by decide, takesTraps_of (by decide)⟩, ⟨⟨by decide, rfl⟩, by decide, rfl, by decide, rfl⟩,
    ⟨⟨by decide, rfl⟩, by decide, rfl, by decide, by decide⟩, ⟨⟨by decide, rfl⟩, rfl, by decide +kernel⟩,
    ⟨⟨by decide, rfl⟩, rfl, rfl, by decide, rfl, rfl, rfl, by decide, rfl, Option.isSome_iff_exists.1 (by decide +kernel)⟩, fun v hv => ?_, by decide, by decide,
    by decide, by decide, rfl, rfl⟩
  · fin_cases hx <;> exact ⟨⟨by decide, rfl⟩, takesTraps_of (by decide), rfl, rfl, rfl, rfl, rfl, rfl, by decide, by decide⟩
  · fin_cases hv <;> exact ⟨⟨by decide, rfl⟩, rfl, by decide, by decide⟩

/-- One state for each event of a core: a missing line, a late write ready to land, moves and fills, a store at a port, an
acknowledgement, an evicted core's port, a waking group, a message and a signal on their way. -/
theorem witness_CoreEvents :
    let c := core 0
    let fetch := on { c with ibuf := (List.range 127).map (fun k => (k, [])) }
    let land := on { c with pending := [{ lateQ with id := 4 }, { lateQ with writes := [⟨.entry 16, 7, 0, false, 0⟩], left := 0 }] }
    let halves : Pending := { lateQ with writes := [⟨.entry 16, 7, 0, false, 0⟩, ⟨.entry 17, 8, 0, false, 0⟩], left := 0 }
    let part := on { c with pending := [halves] }
    let spill := on { c with spillq := [⟨.spill, 16, 0, own_ 0x1000, 4, 0, false, 0, 15⟩] }
    let move := on { c with spillq := [⟨.move, 100, 4094, 0, 1, 0, false, 0, 15⟩] }
    let fill := on { c with spillq := [⟨.fill, 0, 101, own_ 0x5FFF0, 1, 0, true, 0, 15⟩] }
    let acc : Access := ⟨1, 9, 0x5FFB8, 0, .store [1, 2, 3, 4, 5, 6, 7, 8] 0 none, true⟩
    let port := { on { c with portq := [acc] } with hold := true }
    let ack := on { c with unacked := [⟨3, 0, false, 15, 4095, false, none⟩, ⟨4, 1, false, 15, 4095, false, none⟩] }
    let gone := on { c with cstate := .evicted, portq := [acc] }
    let wake := on { c with g2 := .waking }
    let msg : InMsg := ⟨.msg, [1, 2, 3, 4], 0, 0⟩
    let fly := { on { c with inbox := List.replicate 63 msg } with flights := [⟨1, msg, none, 0⟩, ⟨0, msg, none, 0⟩] }
    let rep := { on { c with inbox := List.replicate 64 msg, fpWait := some 0, fpsup := 5 } with flights := [⟨0, { msg with src := 5 }, none, 0⟩] }
    let sig := { plain with signals := [⟨1, 1, (2, 0), 0⟩, ⟨0, 2, (1, 5), 0⟩], hold := true }
    (rep.core.inbox.length = 64 ∧ rep.flights = [] ++ ⟨0, { msg with src := 5 }, none, 0⟩ :: [] ∧ rep.core.fpWait ≠ none ∧ rep.core.fpReply = none ∧
      BitVec.ofNat 64 5 = rep.core.fpsup ∧ rep.away 0 0 = false ∧ Named rep 0) ∧
    (Named spill 0 ∧ spill.reach spill.core (own_ 0x1000) 32 = some (0, 0x1000) ∧ spill.portBlocks 0 0 (spillSrc 0) 0x1000 32 = false ∧
      (∀ i, i < 4 → (spill.core.ent (16 + i)).l ≤ 0) ∧ (4 : Nat) ≤ 4) ∧
    (Named part 0 ∧ part.core.pending = [] ++ halves :: [] ∧ halves.writes[1]? = some ⟨.entry 17, 8, 0, false, 0⟩ ∧
      ∃ k x, k ≠ 1 ∧ halves.writes[k]? = some x ∧ x.tgt.real = true) ∧
    (∀ s ∈ [fetch, land, move, fill, port, ack, gone, wake, fly, sig], Named s 0) ∧
    ((∀ e ∈ fetch.core.ibuf, e.1 ≠ 0xFFF8000000001040) ∧ fetch.core.ibuf.length < 128 ∧
      0xFFF8000000001040 = fetch.core.pc.toNat / 64 * 64 + 64 ∧
      fetch.reach fetch.core (BitVec.ofNat 64 0xFFF8000000001040) 64 = some (0, 0x1040) ∧ fetch.portOpen (fetchSrc 0) 0 0x1040 64 (write := false) = true ∧ fetch.core.portq = [] ∧ fetch.fetchTrap 0xFFF8000000001040 4 = none ∧
      (fetch.coreAt 0).cstate ≠ .killed) ∧
    (land.core.pending = [{ lateQ with id := 4 }] ++ { lateQ with writes := [⟨.entry 16, 7, 0, false, 0⟩], left := 0 } :: [] ∧
      land.core.interval = none) ∧
    (move.core.spillq = ⟨.move, 100, 4094, 0, 1, 0, false, 0, 15⟩ :: [] ∧ fill.core.spillq = ⟨.fill, 0, 101, own_ 0x5FFF0, 1, 0, true, 0, 15⟩ :: [] ∧
      fill.reach fill.core (own_ 0x5FFF0) (8 * ((101 + 1 + 1) / 2 * 2 - 101 / 2 * 2)) = some (0, 0x5FFF0) ∧
      fill.portBlocks 0 0 (spillSrc 0) 0x5FFF0 16 = false) ∧
    (port.core.portq = [acc] ∧ port.hold = true ∧ port.away (port.coreAt 1).part 0 = false ∧ port.core.blocks 1 0x5FFB8 8 = false ∧
      port.core.cstate ≠ .killed ∧ port.core.paired = false ∧ 0x5FFB8 + 8 ≤ traceOff) ∧
    (ack.core.unacked = [] ++ ⟨3, 0, false, 15, 4095, false, none⟩ :: [⟨4, 1, false, 15, 4095, false, none⟩]) ∧ gone.core.cstate = .evicted ∧
    (wake.core.groupSt 2 = .waking ∧ wake.core.portq = []) ∧
    (fly.flights = [⟨1, msg, none, 0⟩] ++ ⟨0, msg, none, 0⟩ :: [] ∧ fly.core.inbox.length < 64 ∧ fly.core.cstate = .running ∧
      fly.core.pair.pstate = .unpaired ∧ fly.away 0 0 = false ∧ fly.core.fpWait = none) ∧
    (sig.signals = [⟨1, 1, (2, 0), 0⟩] ++ ⟨0, 2, (1, 5), 0⟩ :: [] ∧ sig.hold = true ∧ sig.core.paired = false ∧ sig.away 0 0 = false) := by
  refine ⟨⟨by decide, rfl, by decide, rfl, by decide, by decide, by decide, rfl⟩, ⟨⟨by decide, rfl⟩, by decide +kernel, by decide +kernel, by decide, by decide⟩,
    ⟨⟨by decide, rfl⟩, rfl, rfl, 0, _, by decide, rfl, by decide⟩, fun s hs => ?_,
    ⟨by decide +kernel, by decide +kernel, by decide, by decide +kernel, by decide +kernel, rfl, by decide +kernel, by decide⟩, ⟨rfl, rfl⟩, ⟨rfl, rfl, by decide +kernel, by decide +kernel⟩,
    ⟨rfl, rfl, by decide, by decide +kernel, by decide, by decide, by decide⟩, rfl, rfl, ⟨rfl, rfl⟩, ⟨rfl, by decide, rfl, rfl, by decide, rfl⟩, rfl, rfl, by decide, by decide⟩
  fin_cases hs <;> exact ⟨by decide, rfl⟩


/-! ### Hypotheses met: cards and the matrix engine. -/

/-- A card of tile 0 at its issue, and a state of its engine core with cards in the window. -/
def cardOf_ (kind : CardKind) : Card where
  kind := kind
  seq := 0
  core := if kind.isMatrix then 99 else 97
  part := 0
  owner := 15
  slot := none
  scope := 0
  dst := own 0x2000
  src := own 0x1000
  desc := 63
  typ := .kb7
  mask := 1
  bound := 1
  sampled := 0
  plane0 := 0
  plane1 := 0
  reads := []
  writes := []
  preds := []
  after := []
  state := .waiting
  begun := false
  status := 0
  flags := 0
  dmask := 0
  offset := 0
  cancel := false
  doomed := false
  stale := false
  due := none
  miss := none
  failed := []
  ending := none
  timed := false
  starve := 0

def engineAt (p : Nat) (x : Tile) : State := { on (cap 4 (own 0x2000) (cap 2 (own 0x1000) (core p))) with tiles := [(0, x)] }
def window (cs : List (Nat × Card)) : Tile := { Tile.reset with cards := cs }
def full : Tile := window ((List.range 32).map (fun e => (e, { cardOf_ .cpy with state := .running })))

theorem free_of {x : Tile} {e : Nat} (h : (decide (e < 32) && match x.cards.listed e with
    | some k => decide (k.state = .ended)
    | none => true) = true) : FreeAt x e := by
  simp only [Bool.and_eq_true, decide_eq_true_eq] at h
  refine ⟨h.1, fun k hk => ?_⟩
  have h2 := h.2
  rw [hk] at h2
  simpa using h2

theorem full_of {x : Tile} (h : (List.range 32).all (fun e => match x.cards.listed e with
    | some k => decide (k.state ≠ .ended)
    | none => false) = true) : ∀ e, ¬ FreeAt x e := by
  rintro e ⟨he, hk⟩
  have h2 := List.all_eq_true.1 h e (List.mem_range.2 he)
  revert h2 hk
  cases x.cards.listed e with
  | none => simp
  | some k => intro hk h2; exact absurd (hk k rfl) (by simpa using h2)

/-- Each card instruction at its engine's position, with an empty window, one free entry, and none; the ILLEGAL elsewhere. -/
theorem witness_CardIssue :
    let last := window ((List.range 31).map (fun e => (e, { cardOf_ .cpy with state := .running })) ++ [(31, { cardOf_ .cpy with state := .ended })])
    (∀ t ∈ [Tile.reset, last], (∀ i ∈ [Instr.cpy x3 (.w 0) (.w 2) (.w 4) 127 .core 0, .cpy x5 (.w 0) (.w 2) (.w 4) 0 .fab 63,
      .cpym x3 (.w 0) (.w 2) (.w 4) 0 7 .core 0], MayIssue i (engineAt 97 t)) ∧ MayIssue (.conv x3 (.w 0) (.w 2) (.w 4) 0 .kb7 .core 0) (engineAt 98 t) ∧
      (∀ i ∈ [Instr.mload x3 (.w 0) (.w 2) 0 1 1 .kb2, .mswap x3 (.w 0) 64 3, .mrun x3 (.w 0) (.w 2) (.w 6) 0 65535 .kb4 0,
        .mrun x5 (.w 0) (.w 2) (.w 0) 0 0 .kb4 1, .mdrain x3 (.w 0) (.w 2) (.w 6) 0 .core 0], MayIssue i (engineAt 99 t))) ∧
    (∀ p ∈ [97, 98, 99], ownTile (engineAt p full) = 0 ∧ FreeAt ((engineAt p Tile.reset).tileAt 0) 0 ∧ FreeAt ((engineAt p last).tileAt 0) 31 ∧
      ∀ e, ¬ FreeAt ((engineAt p full).tileAt 0) e) ∧
    (∀ p ∈ [97, 98, 99], NoAcquire (engineAt p full).core ∧ isGateway (engineAt p full).core.phys = false) ∧
    [97, 98, 99].map (fun p => tilePos (engineAt p full).core.phys) = [13, 14, 15] ∧
    privTrap (.mswap x3 (.w 0) 0 1) (engineAt 97 full).core = none ∧ privTrap (.mswap x3 (.w 0) 0 1) (engineAt 0x2000 full).core = none ∧
    ((Tile.reset.table.look (fun _ => 0x8000#16) 63).getLsbD 15 = true ∧
      ((({ Tile.reset with table := [(63, 15)] } : Tile).table.look (fun _ => 0x8000#16) 63).extractLsb' 0 12).toNat = (core 99).lo) ∧
    trapsAre [(.cpy x3 (.w 0) (.w 2) (.w 4) 0 .core 0, engineAt 98 Tile.reset, 1, 0), (.conv x3 (.w 0) (.w 2) (.w 4) 0 .kb7 .core 0, engineAt 99 Tile.reset, 1, 0),
      (.mswap x3 (.w 0) 0 1, engineAt 97 Tile.reset, 1, 0), (.mswap x3 (.w 0) 0 1, engineAt 0x2000 Tile.reset, 1, 0)] = true := by
  refine ⟨fun t ht => ?_, fun p hp => ?_, fun p hp => ?_, by decide, by decide, by decide, by decide, by decide +kernel⟩
  · fin_cases ht <;> exact ⟨mayAll (by decide +kernel), mayIssue_of (by decide +kernel), mayAll (by decide +kernel)⟩
  · fin_cases hp <;> exact ⟨by decide +kernel, free_of (by decide +kernel), free_of (by decide +kernel), full_of (by decide +kernel)⟩
  · fin_cases hp <;> exact ⟨noAcquire_of (by decide), by decide⟩

/-- Handles of a card that has ended, that runs, that waits and of none; a slot with the count asked for, and with none asked. -/
theorem witness_CardStatus :
    let s := fun k : Card => { engineAt 97 (window [(5, k)]) with core := reg 1 261 (core 97) }
    let k := { cardOf_ .cpy with seq := 1 }
    let slots := { engineAt 97 { Tile.reset with slots := [(63, ⟨65535, 3, false⟩)] } with core := reg 2 65535 (core 97) }
    (∀ st ∈ [CardSt.ended, .running, .waiting, .faulted, .held], ∀ i ∈ [Instr.jwait x3 (.w 0) (.w 1) (.w 0) 0 0, .jstat x3 (.w 0) (.w 1) 0 0,
      .jcancel x3 (.w 0) (.w 1)], MayIssue i (s { k with state := st }) ∧ ownTile (s { k with state := st }) = 0 ∧
      cardOf (s { k with state := st }) 0 (((s { k with state := st }).core.rd (.w 1)).v.toNat % 32) = some { k with state := st } ∧
      ((s { k with state := st }).core.rd (.w 1)).v = BitVec.ofNat 64 (k.seq * 256 + 5)) ∧
    k.slot = none ∧ k.kind.isMatrix = false ∧ EndsAtOnce (s k) 0 k ∧ NoReplay (s k).core ∧ (s k).bufAt (bufKey 97) = [] ∧ cardOf plain 0 5 = none ∧
    (MayIssue (.jwait x3 (.w 0) (.w 0) (.w 2) 63 1) slots ∧ (slots.core.rd (.w 2)).v.toNat % 65536 = 65535 ∧
      ((slots.tileAt 0).slots.look (fun _ => noArrivals) (63 % 64)).count = 65535 ∧ (∀ y ∈ (slots.tileAt 0).slotWaits, y.2 ≠ 63 % 64)) ∧
    MayIssue (.jstat x3 (.w 0) (.w 0) 63 1) slots ∧ slots.bufAt (bufKey slots.core.phys) = [] ∧ engine (tilePos slots.core.phys) ∧
    privTrap (.jcancel x3 (.w 0) (.w 1)) plain.core = none ∧ ¬ engine (tilePos plain.core.phys) ∧
    trapsAre [(.jwait x3 (.w 0) (.w 1) (.w 0) 0 0, plain, 1, 0), (.jcancel x3 (.w 0) (.w 1), on (core 0x2000), 1, 0)] = true := by
  refine ⟨fun st hst i hi => ?_, rfl, rfl, by unfold EndsAtOnce; decide +kernel, rfl, rfl, rfl, ⟨mayIssue_of (by decide), by decide, by decide, by decide⟩,
    mayIssue_of (by decide), rfl, by unfold engine; decide, by decide, by unfold engine; decide, by decide +kernel⟩
  fin_cases hst <;> fin_cases hi <;> exact ⟨mayIssue_of (by decide), by decide, by decide +kernel, by decide⟩

/-- A copy of one line that starts, one that fails a check, its last line; a miss with and without a neighbour's entry; a record. -/
theorem witness_CardEvents :
    let k := cardOf_ .cpy
    let s := fun c : Card => engineAt 97 (window [(0, c)])
    let te : BitVec 128 := 0x0000048000000001#64 ++ 0x10000000#64
    let m : Miss := ⟨.probing, 0x1000, 0, false, false, 0, 0⟩
    let probe := fun l : List (BitVec 128) =>
      { plain with tiles := [(0, { Tile.reset with misses := [(2, m)] }), (1, { Tile.reset with tlb := l })] }
    let f := fun b : Bool => { k with state := .running, due := some ⟨1, b, false, 0x1000, 0⟩ }
    (∀ c ∈ [k, { k with src := Cap.null }], ((s c).tileAt 0).cards = [(0, c)] ∧ c.kind.isMatrix = false ∧ c.state = .waiting ∧ c.preds = [] ∧
      c.begun = false ∧ c.doomed = false ∧ ((s c).coreAt c.core).unacked = [] ∧ c.ending = none ∧ (s c).tileSaving 0 = false ∧
      EndsAtOnce (s c) 0 c) ∧ (s k).startChecks 0 k = .inr k ∧
    (s { k with src := Cap.null }).startChecks 0 { k with src := Cap.null } = .inl 5 ∧
    (let r := { k with state := .running }
     cardOf (s r) 0 0 = some r ∧ (r.desc.extractLsb' 0 20).toNat + 1 = 64 ∧ r.desc.extractLsb' 20 10 = 0 ∧ r.src.addr.toNat % 64 = 0 ∧
      r.dst.addr.toNat % 64 = 0 ∧ 2 ^ 47 ≤ r.src.addr.toNat ∧ 2 ^ 47 ≤ r.dst.addr.toNat ∧
      (s r).reach ((s r).cardCore r) r.src.addr 1 = some (97, 0x1000) ∧ (s r).reach ((s r).cardCore r) r.dst.addr 1 = some (97, 0x2000) ∧
      ((s r).coreAt 97).cstate ≠ .killed ∧ (s r).portBlocks 0 97 (cardSrc 0 0) 0x1000 64 = false ∧ (s r).portBlocks 0 97 (cardSrc 0 0) 0x2000 64 = false ∧
      (s r).bufAt (bufKey 97) = [] ∧ (s r).buffers 0 97 = false ∧ EndsAtOnce (s r) 0 r ∧ ((s r).coreAt 97).portq = [] ∧
      ((s r).coreAt 97).paired = false ∧ 0x2000 + 64 ≤ traceOff ∧ (s r).labelOver (lsBase 97 + 0x1000) 64 ≤ r.dst.label) ∧
    ((probe []).tileAt 0).misses.listed 2 = some m ∧ (probe []).neighbour 0 0 0x1000 false = none ∧
    (probe [te]).neighbour 0 0 0x1000 false = some te ∧
    (∀ b ∈ [false, true], cardOf (s (f b)) 0 0 = some (f b) ∧ (f b).part = 0 ∧ EndsAtOnce (s (f b)) 0 (f b) ∧ ((s (f b)).dieAt (tileDie 0)).retry.length < 256 ∧
      ((s (f b)).dieAt (tileDie 0)).term.length < 256) := by
  refine ⟨fun c hc => ?_, by decide +kernel, by decide +kernel, ⟨rfl, by decide, by decide, by decide, by decide, by decide, by decide, by decide +kernel, by decide +kernel,
    by decide, by decide +kernel, by decide +kernel, rfl, by decide, by unfold EndsAtOnce; decide +kernel, by decide, by decide, by decide, by decide +kernel⟩,
    rfl, by decide +kernel, by decide +kernel, fun b hb => ?_⟩
  · fin_cases hc <;> exact ⟨rfl, rfl, rfl, rfl, rfl, rfl, rfl, rfl, by decide +kernel, by unfold EndsAtOnce; decide +kernel⟩
  · fin_cases hb <;> exact ⟨rfl, rfl, by unfold EndsAtOnce; decide +kernel, by decide, by decide⟩

/-- MSLOT and MSTAT; a card of each kind at its start and its last line, row or group; the slot clock; the watchdog; no slot. -/
theorem witness_MatrixEngine :
    let s := fun k : Card => engineAt 99 (window [(3, k)])
    let run := fun k : CardKind => { cardOf_ k with state := .running }
    let ld := cardOf_ .mload
    let last := { run .mload with offset := imageSize .kb7 - 64 }
    let mr := { run .mrun with desc := 0x10000#64 }
    let md := { run .mdrain with desc := 0x10000#64 }
    let busy := { engineAt 99 { window [(3, { ld with starve := 65536 })] with table := (List.range 64).map (fun i => (i, 0)) } with hold := false }
    (∀ i ∈ [Instr.mslot x3 (.w 0) 0, .mslot x3 (.w 0) 63, .mstat x3 (.w 0) 0, .mstat x3 (.w 0) 1, .mstat x3 (.w 0) 2, .mstat x3 (.w 0) 0x101],
      MayIssue i (s ld)) ∧ (s ld).core.mode ≠ .u ∧ tilePos (s ld).core.phys = 15 ∧ NoReplay (s ld).core ∧
    (∀ k ∈ [ld, { cardOf_ .mswap with mask := 1 }], ((s k).tileAt 0).cards = [(3, k)] ∧ k.state = .waiting ∧ k.preds = [] ∧
      ((s k).coreAt k.core).unacked = [] ∧ k.ending = none ∧ k.slot = none ∧ (s k).tileSaving 0 = false ∧ EndsAtOnce (s k) 0 k ∧
      (((s k).tileAt 0).table.look (fun _ => 0x8000#16) (((s k).tileAt 0).slotClock / 1024)).getLsbD 15 = true) ∧
    (s ld).operandStatus ld ld.dst (ld.dst.can .load) 1 (imageSize ld.typ) true = none ∧ ld.bound < 4 ∧
    ((s ld).tileAt 0).m0.esel < 2 ∧
    (((s last).tileAt 0).cards = [(3, last)] ∧ 0 < imageSize last.typ - last.offset ∧
      (last.dst.addr.toNat + last.offset) % 64 + (imageSize last.typ - last.offset) ≤ 64 ∧
      (s last).reach ((s last).cardCore last) (last.dst.addr + BitVec.ofNat 64 last.offset) 1 = some (99, 0x2000 + last.offset) ∧
      (s last).portBlocks 0 99 (cardSrc 0 3) (0x2000 + last.offset) 64 = false ∧ ((s last).coreAt 99).cstate ≠ .killed) ∧
    ((mdescOf mr.desc).rows = 1 ∧ (mdescOf mr.desc).macros = 1 ∧ (mdescOf mr.desc).acc = false ∧ ((s mr).tileAt 0).cards = [(3, mr)] ∧
      (s mr).reach ((s mr).cardCore mr) mr.dst.addr 1 = some (99, 0x2000) ∧ (s mr).portBlocks 0 99 (cardSrc 0 3) 0x2000 (rowBytes mr.typ) = false) ∧
    ((mdescOf md.desc).rows = 1 ∧ (mdescOf md.desc).macros = 1 ∧ ((s md).tileAt 0).cards = [(3, md)] ∧ ((s md).coreAt 99).paired = false ∧
      0x2000 + 64 * ((mdescOf md.desc).ncb + 1) ≤ traceOff ∧ (s md).portBlocks 0 99 (cardSrc 0 3) 0x2000 (64 * ((mdescOf md.desc).ncb + 1)) = false ∧
      ((s md).tileAt 0).m0.rowLab.look (fun _ => 0) (mdescOf md.desc).row0 ≤ md.dst.label) ∧
    (∀ k ∈ [last, mr, md], EndsAtOnce (s k) 0 k ∧ k.slot = none ∧ k.ending = none ∧ (s k).bufAt (bufKey 99) = [] ∧ (s k).buffers 0 99 = false ∧
      ((s k).coreAt 99).portq = []) ∧
    (cardOf (s mr) 0 3 = some mr ∧ mr.kind = .mrun ∧ mr.state = .running ∧ mr.slot = none) ∧
    (((s ld).tileAt 0).slotClock % 1024 + 1023 < 1024 ∧ 1024 ≤ (Tile.reset.slotClock % 1024) + 1024 ∧ Tile.reset.cards = []) ∧
    (cardOf busy 0 3 = some { ld with starve := 65536 } ∧ EndsAtOnce busy 0 { ld with starve := 65536 } ∧ ld.state = .waiting ∧ ld.kind.isMatrix = true ∧ ∀ i, i < 64 → ((busy.tileAt 0).table.look (fun _ => 0x8000#16) i).getLsbD 15 = false ∧
      (((busy.tileAt 0).table.look (fun _ => 0x8000#16) i).extractLsb' 0 12).toNat ≠ ld.owner) ∧
    trapsAre [(.mslot x3 (.w 0) 0, plain, 1, 0), (.mstat x3 (.w 0) 0, engineAt 97 Tile.reset, 1, 0)] = true := by
  refine ⟨mayAll (by decide), by decide, by decide, rfl, fun k hk => ?_, by decide +kernel, by decide, by decide,
    ⟨rfl, by decide, by decide, by decide +kernel, by decide +kernel, by decide⟩, ⟨by decide, by decide, by decide, rfl, by decide +kernel, by decide +kernel⟩,
    ⟨by decide, by decide, rfl, by decide, by decide, by decide +kernel, by decide +kernel⟩, fun k hk => ?_, ⟨rfl, rfl, rfl, rfl⟩, by decide,
    ⟨rfl, by unfold EndsAtOnce; decide +kernel, rfl, rfl, by decide +kernel⟩, by decide +kernel⟩
  · fin_cases hk <;> exact ⟨rfl, rfl, rfl, rfl, rfl, rfl, by decide +kernel, by unfold EndsAtOnce; decide +kernel, by decide⟩
  · fin_cases hk <;> exact ⟨by unfold EndsAtOnce; decide +kernel, rfl, rfl, rfl, by decide +kernel, rfl⟩


/-! ### Hypotheses met: gangs, mirror pairs, parking and killing. -/

/-- A core of the team of kernel 0 on tile 0, and the sixteen of them. -/
def mate (p : Nat) : Core := { core p with kernel := some 0 }
def teamOf (f : Core → Core) : State := (tileCores 0).foldl (fun s p => if p = 0 then s else also (f (mate p)) s) (on (mate 0))

/-- GANG as the last to arrive, for two and for sixteen cores, and as the first; its fusing; SPLIT in a gang; MPAIR first and last;
MUNPAIR and MCHK outside and at the end of an interval; the events of a pair. -/
theorem witness_GangsAndMirrors :
    let ready := fun b : Nat => teamOf (fun c => { c with waiting := some (gangWait b) })
    let alone := teamOf id
    let fuse := (ready 1).setCoreAt 0 { mate 0 with waiting := some (gangWait 1) }
    let fused := fun p : Nat => { mate p with gang := ⟨0, 0, 1, true, 3⟩ }
    let gang := also (fused 1) (on (fused 0))
    let pst := fun (p : Nat) (x : PState) => { core p with kernel := some 0, pair := ⟨0, 0, x, 0, false, 256⟩ }
    let join := also (pst 1 .joining) (on (mate 0))
    let iv := fun (n : Nat) (st : List StreamItem) (again : Bool) => some (⟨n, 0, [], 0, [], [], [], st, again, false, (core 0).agreedNow⟩ : Interval)
    let at_ := fun (p : Nat) (x : PState) (i : Option Interval) => { core p with pair := ⟨0, 0, x, 0, true, 256⟩, interval := i }
    let mid := also { at_ 1 .running (iv 0 [] false) with waiting := some unpairWait } (on (at_ 0 .running (iv 0 [] false)))
    let long := also (at_ 1 .running (iv 255 [] false)) (on (at_ 0 .running (iv 256 [] false)))
    let copy := also (at_ 1 .copying none) (on (at_ 0 .copying none))
    let cmp := fun (x y : List StreamItem) (again : Bool) => also (at_ 1 .comparing (iv 256 y again)) (on (at_ 0 .comparing (iv 256 x again)))
    (∀ b ∈ [1, 4], MayIssue (.gang w b) (ready b) ∧ (ready b).core.pending = [] ∧ (ready b).core.unacked = [] ∧ (ready b).core.awake = true ∧
      (ready b).hold = false ∧ (∀ q ∈ gangSet 0 b, q = (ready b).core.phys ∨ (((ready b).coreAt q).waiting = some (gangWait b) ∧
        ((ready b).coreAt q).pc = (ready b).core.pc ∧ ((ready b).coreAt q).awake = true)) ∧ isGateway (ready b).core.phys = false ∧
      ∀ q ∈ gangSet 0 b, ((ready b).coreAt q).phys = 0 ∨ ((ready b).core.kernel ≠ none ∧ ((ready b).coreAt q).kernel = (ready b).core.kernel ∧
        ((ready b).coreAt q).team = (ready b).core.team ∧ ((ready b).coreAt q).part = (ready b).core.part ∧ ((ready b).coreAt q).cstate ≠ .killed)) ∧
    (MayIssue (.gang w 4) alone ∧ 1 ∈ gangSet 0 4 ∧ (alone.coreAt 1).waiting ≠ some (gangWait 4)) ∧
    (Named fuse 0 ∧ (fuse.focus 0).core.waiting = some (gangWait 1) ∧ ∀ q ∈ gangSet 0 1, ((fuse.focus 0).coreAt q).waiting = some (gangWait 1) ∧
      ((fuse.focus 0).coreAt q).pc = (fuse.focus 0).core.pc ∧ ((fuse.focus 0).coreAt q).awake = true) ∧
    MayIssue (.split w) plain ∧
    (gang.core.gang.fused = true ∧ gang.core.phys ∈ gang.core.members ∧ gang.core.rep = none ∧ ∀ q ∈ gang.core.members,
      (gang.coreAt q).phys = q ∧ (gang.coreAt q).gangNext = none ∧ (gang.coreAt q).trapDue = none ∧ (gang.coreAt q).stalled = false ∧
      (gang.coreAt q).fpEvent = none ∧ (gang.coreAt q).interval = none) ∧
    (MayIssue (.mpair w) join ∧ (join.coreAt (mateOf 0)).phys = mateOf 0 ∧ (join.coreAt (mateOf 0)).pair.pstate = .joining ∧
      (join.coreAt (mateOf 0)).pc = join.core.pc ∧ join.hold = false ∧ MemoryWf join ∧ join.core.portq = [] ∧ (join.coreAt (mateOf 0)).portq = []) ∧
    (MayIssue (.mpair w) alone ∧ (alone.coreAt (mateOf 0)).pair.pstate ≠ .joining) ∧ MayIssue (.munpair w) plain ∧ MayIssue (.mchk w (.w 0)) plain ∧
    (mid.core.gang.fused = false ∧ mid.core.interval = iv 0 [] false ∧ (mid.coreAt 1).phys = 1 ∧ (mid.coreAt 1).waiting = some unpairWait ∧
      (mid.coreAt 1).pc = mid.core.pc ∧ nameTrap (.mchk w (.w 0)) mid.core = none) ∧
    (Named long 0 ∧ (long.focus 0).core.interval = iv 256 [] false ∧ (long.focus 0).core.pair.pstate = .running ∧ (long.focus 0).core.pair.n ≤ 256 ∧
      ((long.focus 0).coreAt (mateOf 0)).interval = iv 255 [] false) ∧
    (Named copy 1 ∧ (copy.focus 1).core.owed = [] ∧ MemoryWf copy ∧ ((copy.focus 1).coreAt 0).pair.pstate = .copying ∧ ((copy.focus 1).coreAt 1).pair.pstate = .copying ∧
      ((copy.focus 1).coreAt 0).phys = 0 ∧ ((copy.focus 1).coreAt 1).phys = 1 ∧ ((copy.focus 1).coreAt 0).portq = [] ∧ ((copy.focus 1).coreAt 1).portq = []) ∧
    (∀ x ∈ [cmp [] [] false, cmp [.bytes [1]] [] false, cmp [.bytes [1]] [] true], Named x 0 ∧ (x.focus 0).core.owed = [] ∧ ∀ q, q = 0 ∨ q = 1 → ((x.focus 0).coreAt q).phys = q ∧
      ((x.focus 0).coreAt q).pair.pstate = .comparing ∧ ((x.focus 0).coreAt q).pending = [] ∧ ((x.focus 0).coreAt q).unacked = [] ∧ ((x.focus 0).coreAt q).spillq = [] ∧
      ((x.focus 0).coreAt q).drain = none ∧ ((x.focus 0).coreAt q).portq = [] ∧
      ((x.focus 0).coreAt q).awake = true ∧ ((x.focus 0).coreAt q).gang.fused = false ∧ ((x.focus 0).coreAt q).kernel = none) ∧
    fingerprint [.bytes [1]] ≠ fingerprint [] ∧
    trapsAre [(.gang w 1, on (core 0x2000), 1, 0), (.gang w 1, plain, 6, 3), (.mpair w, on (core 0x2000), 1, 0), (.mpair w, plain, 6, 3)] = true := by
  refine ⟨fun b hb => ?_, ⟨mayIssue_of (by decide), by decide, by decide +kernel⟩, ⟨⟨by decide, rfl⟩, by decide +kernel, by decide +kernel⟩, mayIssue_of (by decide),
    ⟨rfl, by decide, rfl, by decide +kernel⟩, ⟨mayIssue_of (by decide), by decide, by decide, by decide, rfl, ⟨rfl, rfl, rfl⟩, rfl, by decide⟩,
    ⟨mayIssue_of (by decide), by decide +kernel⟩, mayIssue_of (by decide), mayIssue_of (by decide), ⟨rfl, rfl, by decide, by decide, by decide, by decide⟩,
    ⟨⟨by decide, rfl⟩, rfl, rfl, by decide, by decide +kernel⟩, ⟨⟨by decide, by decide +kernel⟩, rfl, ⟨rfl, rfl, rfl⟩, by decide +kernel, by decide +kernel, by decide +kernel,
      by decide +kernel, by decide +kernel, by decide +kernel⟩, fun x hx => ?_, by decide +kernel, by decide +kernel⟩
  · fin_cases hb <;> exact ⟨mayIssue_of (by decide), rfl, rfl, by decide, rfl, by decide +kernel, by decide, by decide +kernel⟩
  · fin_cases hx <;> exact ⟨⟨by decide, by decide +kernel⟩, rfl, by rintro q (rfl | rfl) <;> decide +kernel⟩

/-- A core with a small lens, a record capability in c2 whose record names a spill image, and a queue capability in c4. -/
def parking : State :=
  let s := on (cap 4 { over_ 0 16384 5 0x183 7 with otype := 5 } (cap 2 (own 0x1000) { core 0 with lens := Cap.lens 15 40 16 }))
  { wordsAt (lsBase 0 + 0x1010) [(own 0x2000).addr.toNat, (own 0x2000).hi.toNat] s with
    tags := [((lsBase 0 + 0x1010) / 16, true)]
    queues := [(5, { Queue.reset with part := 1, st := .on })] }

/-- PARK to retire, to yield and on a queue, with an image of the whole lens that ends where the record does not begin; a kill;
the spares of a cluster. -/
theorem witness_KillParkAndTurn :
    let s := parking
    let k := s.core.rdCap (.w 2)
    let sp := own 0x2000
    let dead := { inPart (core 1) with others := [(0, { core 0 with cstate := .killed, part := 1 })] }
    (plain.core.gang.fused = false ∧ TakesTraps plain) ∧
    (∀ i ∈ [Instr.park w (.w 2) (.w 2), .park w (.w 2) .zr, .park w (.w 2) (.w 4)], MayIssue i s) ∧
    (s.sweepOf s.core = none ∧ s.core.spillq = [] ∧ s.core.kernel = none ∧ s.core.waiting = none ∧ NoReplay s.core ∧ TakesTraps s ∧ PortOpen s k.addr 64 ∧ PlainWrite s k.addr 64) ∧
    (s.reach s.core k.addr 64 = some (0, 0x1000) ∧ k.perm.getLsbD 7 = true ∧ sp = s.granule (lsBase 0 + 0x1000 + 16) ∧ PortOpen s sp.addr 208 ∧
      PlainWrite s sp.addr 208 ∧ 8 * ((40 + 1) / 2 * 2 - 15 / 2 * 2) = 208 ∧ (∀ e, 15 ≤ e → e < 40 → (s.core.ent e).l ≤ sp.label) ∧
      ∀ q x, s.reach s.core sp.addr 208 = some (q, x) → lsBase q + x + 208 ≤ lsBase 0 + 0x1000 ∨ lsBase 0 + 0x1000 + 64 ≤ lsBase q + x) ∧
    ((s.core.rdCap (.w 4)).otype = 5 ∧ (s.queueAt (s.core.rdCap (.w 4)).addr.toNat).part ≠ 0 ∧ (s.queueAt (s.core.rdCap (.w 4)).addr.toNat).st = .on ∧ (s.queueAt (s.core.rdCap (.w 4)).addr.toNat).parked = []) ∧
    (Named { plain with hold := true } 0 ∧ plain.core.cstate ≠ .killed ∧ plain.core.cstate ≠ .reset ∧ plain.core.paired = false ∧
      plain.core.kernel = none ∧ plain.core.waiting = none ∧ plain.core.portq = []) ∧
    (0 < (dead.partAt 1).len ∧ (dead.coreAt (dead.physOfIndex 0)).cstate = .killed ∧ tileCore (lastTile 8) 11 ∈ dead.roleCores .spare (chipOrderDie 0) ∧ (dead.coreAt (tileCore (lastTile 8) 11)).cstate = .idle ∧
      ∀ e ∈ dead.remap, e.2 ≠ tileCore (lastTile 8) 11) ∧
    trapsAre [(.park w (.w 6) (.w 6), s, 5, 6), (.park w (.w 4) (.w 4), s, 8, 4),
      (.park w (.w 2) (.w 2), on (cap 2 { own 0x1000 with perm := 3 } (core 0)), 7, 2), (.park w (.w 2) (.w 2), on (cap 2 (own 0x1010) (core 0)), 4, 2),
      (.park w (.w 2) (.w 2), on (cap 2 (own 0x60000) (core 0)), 6, own_ 0x60000), (.park w (.w 2) .zr, on (cap 2 (own 0x1000) (core 0)), 18, 0),
      (.park w (.w 2) (.w 4), on (cap 2 (own 0x1000) (core 0)), 5, 4)] = true := by
  refine ⟨⟨rfl, takesTraps_of (by decide)⟩, mayAll (by decide +kernel), ⟨rfl, rfl, rfl, rfl, rfl, takesTraps_of (by decide), portOpen_of (by decide +kernel), plainWrite_of (by decide +kernel)⟩,
    ⟨by decide +kernel, by decide +kernel, by decide +kernel, portOpen_of (by decide +kernel), plainWrite_of (by decide +kernel), by decide, ?_, ?_⟩,
    by decide +kernel, ⟨⟨by decide, rfl⟩, by decide, by decide, by decide, rfl, rfl, rfl⟩, by decide +kernel, by decide +kernel⟩
  · intro e h1 h2; interval_cases e <;> decide +kernel
  · intro q x h
    rw [show parking.reach parking.core (own 0x2000).addr 208 = some (0, 0x2000) by decide +kernel] at h
    obtain ⟨rfl, rfl⟩ := Prod.mk.inj (Option.some.inj h)
    exact .inr (by decide)


/-! ### Hypotheses met: launches and teams. -/

/-- An offset in the store of the core of rank 16 as partition 1 sees it, and as it stands in memory. -/
def far (off : Nat) : Nat := remoteWindow + 16 * 0x80000 + off
def farAt (off : Nat) : Nat := lsBase (State.physOfIndex State.reset 16) + off

def capWords (k : Cap) : List Nat := [k.addr.toNat, k.hi.toNat]
def farCap (off : Nat) : Cap := { Cap.memoryRoot with addr := BitVec.ofNat 64 (far off) }

/-- Partition 1 with tiles 0 and 1: a header, a data section whose granule 0 is a lens, a shape of one core, and the root RCB. -/
def rooted : Part := { part1 with len := 32, root := farCap 0x3000 }
def shapeOne : List Nat := [1, 0, 0, 0, 0, 0, 0, 0, 1, 0x10000] ++ List.replicate 22 0
def rcbWords (cores : Nat) (mbox : Cap) : List Nat := [0, 0] ++ capWords mbox ++ [cores + 0x20000 * 2 ^ 16, 16, 100000, 0, 0, 0, 0]
def launchable (cores : Nat) : State :=
  let s := wordsAt (farAt 0x1000) (capWords (farCap 0x8000) ++ capWords (farCap 0x2000) ++ capWords (farCap 0x3000) ++ [0, 0, 17 * 2 ^ 48 + 1 * 2 ^ 32 + 0xFFFF * 2 ^ 16])
    (wordsAt (farAt 0x2000) (capWords (Cap.lens 15 64 16) ++ shapeOne) (wordsAt (farAt 0x3000) (rcbWords cores Cap.null) (inPart (core 0))))
  { s with
    parts := [(1, rooted)]
    tags := [(farAt 0x1000 / 16, true), (farAt 0x1010 / 16, true), (farAt 0x1020 / 16, true), (farAt 0x2000 / 16, true)] }
def launchWords : List Word := [BitVec.ofNat 64 (far 0x1000), 1, 7, 0, 0, 0, 0, 0]
/-- The kernel that a dispatcher makes of it, its state, class and teams. -/
def kern (cls : Nat) (st : KSt) (teams : List Team) (tiles : List Nat) : Kernel where
  part := 1
  parent := none
  kid := 0
  cls := cls
  header := far 0x1000
  user := [0, 0, 0, 0]
  cookie := 7
  pcc := farCap 0x8000
  image := farCap 0x2000
  imgctl := BitVec.ofNat 64 (17 * 2 ^ 48 + 1 * 2 ^ 32 + 0xFFFF * 2 ^ 16)
  shape := shapeOne.map (BitVec.ofNat 64)
  rcb := farCap 0x3000
  path := [farAt 0x3000]
  st := st
  status := 0
  used := 0
  tiles := tiles
  teams := teams
  cores := 1
  abort := false
  post := false
def team_ (st : TeamSt) : Team := ⟨1, st, 0, 0, 100000, false, [], none⟩
def member (s : State) : State := { s with core := { s.core with kernel := some 0 }, kernels := [(0, kern 1 .running [team_ .placed] [0])] }
def pooled (cs : List Child) (s : State) : State := { s with dies := [(0, { Die.reset with pool := cs })] }
/-- The same with a child ring of two records at 0x10000 of HBM, described at 0x20000. -/
def ringed (cs : List Child) : State :=
  let s := wordsAt 0x20000 [0x10000, 2, 0] (launchable 8192)
  { s with parts := [(1, { rooted with child := 0x20000 })], dies := [(0, { Die.reset with backing := [(1, cs)] })] }

def dispPlain (s : State) (x a : Nat) : Bool :=
  decide (2 ^ 47 ≤ x) && (storeOf a).all (fun o => decide ((s.coreAt o).cstate ≠ .killed) && !(s.coreAt o).paired)

theorem dispPlain_of {s : State} {part x a : Nat} (h : dispPlain s x a = true) : DispPlain s part x a := by
  simp only [dispPlain, Bool.and_eq_true, decide_eq_true_eq, Option.all_eq_true, Bool.not_eq_true'] at h
  exact ⟨by simp only [State.dispWrites, h.1, decide_true, Bool.true_or], .inl h.1, h.2⟩

def shaped (words : List Nat) : State := wordsAt (lsBase 0 + 0x1FF00) words plain

/-- SPAWN at both sides of its limits, by a core of no kernel and by one of a kernel; SHAPE of a valid record in each split and of
others; KSTAT; a launch that a dispatcher rejects and one that it accepts. -/
theorem witness_Launches :
    let kid : Child := ⟨launchWords, 1, some 0, 0, List.replicate 4 false, 0⟩
    let orphan : Child := ⟨launchWords, 1, none, 0, List.replicate 4 false, 0⟩
    let sp := Instr.spawn w (.w 0) (.w 8)
    let root := launchable 8192
    let m := member root
    let a := farAt 0x3000
    let shp := fun split : Nat => [1, 0, 0, 0, 0, 0, 0, 0, 10, split + 3 * 2 ^ 16 + 2 * 2 ^ 32]
    let bad := [launchWords.set 1 4, launchWords.set 3 4, launchWords.set 1 3]
    (∀ n ∈ [0, 3839, 3840, 4095, 4096], let s := pooled (List.replicate n orphan) root
      MayIssue sp s ∧ NoReplay s.core ∧ s.core.pending = [] ∧ s.core.unacked = [] ∧ (s.partAt s.core.part).st = .run ∧ s.core.kernel = none ∧
      ((4096 - (s.dieAt (s.homeDie s.core.phys)).pool.length ≤ 256) ↔ 3840 ≤ n) ∧ (s.dieAt (s.homeDie 0)).backing = []) ∧
    (∀ n ∈ [1, 2], let s := ringed (List.replicate n orphan)
      MayIssue sp s ∧ NoReplay s.core ∧ s.core.pending = [] ∧ s.core.unacked = [] ∧ (s.partAt s.core.part).st = .run ∧ s.core.kernel = none ∧
      (s.dieAt (s.homeDie 0)).backing.look (fun _ => []) 1 = List.replicate n orphan ∧
      s.numAt ((s.partAt 1).child + 32 * s.homeDie 0 + 8) 8 = 2) ∧
    (∀ n ∈ [0, 15, 16], let s := pooled (List.replicate n kid) m
      MayIssue sp s ∧ NoReplay s.core ∧ s.core.pending = [] ∧ s.core.unacked = [] ∧ (s.partAt s.core.part).st = .run ∧ s.core.kernel = some 0 ∧
      s.kernels.listed 0 = some (kern 1 .running [team_ .placed] [0]) ∧ s.pathOf (kern 1 .running [team_ .placed] [0]) = [a] ∧
      (s.pendingUnder a < (s.rcbSeen s.core.part a).qent ↔ n < 16)) ∧
    (∀ i ∈ [Instr.shape w (.w 0) 0, .shape w (.w 0) 5, .shape w (.w 0) 8, .shape w (.w 0) 13], ∀ k ∈ [0, 1, 2, 3, 4],
      MayIssue i (shaped (shp k)) ∧ PortFree (shaped (shp k)) (shaped (shp k)).core.phys 0x1FF00 256 ∧
      let words := (List.range 32).map (fun i => BitVec.ofNat 64 ((shaped (shp k)).numAt (lsBase 0 + 0x1FF00 + 8 * i) 8))
      shapeValid words = decide (k ≤ 3) ∧ shapeClean words = true) ∧
    (∀ i ∈ [Instr.kstat w (.w 0) 0, .kstat w (.w 0) 1, .kstat w (.w 0) 2, .kstat w (.w 0) 3], MayIssue i m) ∧
    (m.core.kernel = some 0 ∧ isGateway m.core.phys = false) ∧
    (∀ ws ∈ launchWords :: (launchWords.set 0 64) :: bad, let e : Child := ⟨ws, 1, none, 0, List.replicate 4 false, 0⟩
      let s := pooled [e] root
      s.queues = [] ∧ s.dies = [(0, s.dieAt 0)] ∧ (s.dieAt 0).pool = [e] ∧ (s.dieAt 0).backing = [] ∧ (s.partAt 1).st = .run) ∧
    (∀ ws ∈ bad, let s := pooled [⟨ws, 1, none, 0, List.replicate 4 false, 0⟩] root
      (ws.getD 0 0).toNat % 128 = 0 ∧ (4 ≤ (ws.getD 1 0).toNat ∨ (ws.getD 3 0).toNat ≠ 0 ∨ (ws.getD 1 0).toNat % 4 = 3) ∧
      s.dispReach 1 (ws.getD 0 0).toNat 128 = .mem (farAt 0x1000) ∧ rcbCapOk (s.granule (farAt 0x1020)) = true ∧
      s.dispReach 1 (s.granule (farAt 0x1020)).addr.toNat 128 = .mem a ∧ dispPlain s (s.granule (farAt 0x1020)).addr.toNat a = true ∧
      (s.granule (a + 16)).tag = false ∧ a % 16 = 0) ∧
    DispPlain (pooled [orphan] root) 1 ((pooled [orphan] root).headerRcb 1 (far 0x1000)).addr.toNat a ∧
    (pooled [orphan] root).judge 1 true none launchWords = .accept (kern 1 .accepted [team_ .unplaced] [0]) a ∧
    (pooled [orphan] root).dispReach 1 (far 0x3000) 128 = .mem a ∧
    (let busy := { kern 1 .running [team_ .placed] [0, 1] with rcb := farCap 0x5000, path := [farAt 0x5000] };
      ({ pooled [orphan] root with kernels := [(7, busy)] }).judge 1 true none launchWords = .hold a false) ∧
    trapsAre [(sp, plain, 0, 0)] = true := by
  refine ⟨fun n hn => ?_, fun n hn => ?_, fun n hn => ?_, fun i hi k hk => ?_, mayAll (by decide +kernel), by decide +kernel, fun ws hw => ?_,
    by decide +kernel, dispPlain_of (by decide +kernel), by decide +kernel, by decide +kernel, by decide +kernel, by decide +kernel⟩
  · fin_cases hn <;> exact ⟨mayIssue_of (by decide +kernel), by decide +kernel⟩
  · fin_cases hn <;> exact ⟨mayIssue_of (by decide +kernel), by decide +kernel⟩
  · fin_cases hn <;> exact ⟨mayIssue_of (by decide +kernel), by decide +kernel⟩
  · fin_cases hi <;> fin_cases hk <;> exact ⟨mayIssue_of (by decide +kernel), portFree_of (by decide +kernel), by decide +kernel⟩
  · fin_cases hw <;> decide +kernel

/-- The team of the kernel above on tile 0 in a state, with its core. -/
def teamAt (st : TeamSt) (k : Kernel) (p : Core) : State :=
  let s := launchable 8192
  { s with
    core := p
    kernels := [(0, { k with teams := k.teams.set 0 { team_ st with n := 1 } })]
    tiles := [(0, { Tile.reset with team := some (0, 0) })] }

/-- A placement of an image of 17 granules; a slice that ends; a swap out and in; HALT outside a team and as the last of one; a
completion with a mailbox; an abort. -/
theorem witness_Teams :
    let k0 := kern 1 .accepted [team_ .unplaced] [0]
    let free := { launchable 8192 with core := { core 0 with cstate := .idle, part := 1 }, kernels := [(0, k0)] }
    let conc := kern 0 .accepted [team_ .unplaced] [0]
    let mine := { core 0 with part := 1, kernel := some 0 }
    let two := kern 1 .running [team_ .placed, team_ .unplaced] [0]
    let slice := { teamAt .placed two mine with clock := 100000, tiles := [(0, { Tile.reset with team := some (0, 0), cards := [(0, { cardOf_ .cpy with state := .running })] })] }
    let out := teamAt .swappingOut (kern 1 .running [team_ .swappingOut] [0]) { mine with cstate := .evicted }
    let img : Team := { team_ .swappingIn with image := [⟨{ mine with cstate := .evicted }, ⟨[(5, 7)], [], [], []⟩, [], 0⟩], tileImg := none }
    let in_ := { teamAt .swappingIn (kern 1 .running [img] [0]) { core 0 with cstate := .idle } with kernels := [(0, kern 1 .running [img] [0])] }
    let last := teamAt .placed (kern 1 .running [team_ .placed] [0]) mine
    let box : Cap := { over_ (far 0x4000) (far 0x4000 + 64) (far 0x4000) 0x8 0 with otype := 3 }
    let drain := { wordsAt (farAt 0x3010) (capWords box) { launchable 8192 with kernels := [(0, kern 1 .draining [team_ .done] [0])] } with
      tags := [(farAt 0x3010 / 16, true)] }
    let kd := kern 1 .draining [team_ .done] [0]
    let ps := [(0 : Nat)]
    (∀ s ∈ [free, slice, out, in_, last, drain], ∃ k m, s.kernels.listed 0 = some k ∧ k.teams[0]? = some m ∧
      (List.range m.n).map (fun j => s.physOfIndex (chipIndex (tileCore 0 j))) = ps) ∧
    (∃ src, k0.nextTeam 0 = some 0 ∧ (free.tileAt 0).team = none ∧ (free.tileAt 0).cards = [] ∧ k0.live = true ∧
      (free.partAt k0.part).st = .run ∧ free.imageAt k0.load = some src ∧ src.length = 17 ∧ ps.Nodup ∧ free.sweeps.listed k0.part = none ∧
      imgLen k0.imgctl ≤ 0x1FF00 ∧ k0.shape.length = 32 ∧ (team_ .unplaced).n ≤ free.placeRoom k0.part (free.pathOf k0) ∧ ∀ p ∈ ps, (free.coreAt p).cstate = .idle ∧ (free.coreAt p).pending = [] ∧
        (free.coreAt p).unacked = [] ∧ (free.coreAt p).drain = none ∧ (free.coreAt p).portq = [] ∧ free.away k0.part p = false ∧
        (∀ a ∈ src, a + 16 ≤ lsBase p ∨ lsBase p + lsSize ≤ a) ∧
        free.dispReach k0.part k0.rcb.addr.toNat 128 = .mem (farAt 0x3000) ∧ (farAt 0x3000 + 88 ≤ lsBase p ∨ lsBase p + lsSize ≤ farAt 0x3000) ∧
        storeOf (farAt 0x3000) ≠ some (mateOf p) ∧ 2 ^ 47 ≤ k0.rcb.addr.toNat) ∧
    (conc.cls = 0 ∧ conc.nextTeam 0 = some 0 ∧ conc.live = true ∧ free.concOpen conc = true ∧ conc.tiles.Nodup ∧ free.imageAt conc.load ≠ none) ∧
    ((slice.tileAt 0).team = some (0, 0) ∧ two.cls = 1 ∧ (team_ .placed).left ≤ (team_ .placed).ran slice.clock ∧
      two.teams[1]? = some (team_ .unplaced) ∧ two.tiles.length ≤ 1 ∧
      (∀ e ∈ (slice.tileAt 0).cards, e.2.kind.isMatrix = true → e.2.state ≠ .running) ∧
      ∀ p ∈ ps, (slice.coreAt p).pending = [] ∧ (slice.coreAt p).unacked = [] ∧ (slice.coreAt p).drain = none ∧ (slice.coreAt p).tabRun = none ∧ (slice.coreAt p).gang.fused = false) ∧
    ((out.tileAt 0).team = some (0, 0) ∧ out.farFrom 0 = false ∧ out.xflights = [] ∧ ∀ p ∈ ps, (out.coreAt p).portq = []) ∧
    ((in_.tileAt 0).team = some (0, 0) ∧ img.st = .swappingIn ∧ img.image.length = img.n ∧
      (img.image.map (fun x => x.core.phys)).Nodup ∧ in_.heldq = [] ∧ in_.queues = [] ∧
      ∀ y ∈ img.image, y.core.cstate ≠ .killed ∧ y.core.fpWait = none ∧ y.core.paired = false ∧ y.flights = [] ∧ Memory.wf y.store.bytes = true ∧ ∀ e ∈ y.store.bytes, e.1 < lsSize) ∧
    (MayIssue (.halt w) plain ∧ plain.core.pending = [] ∧ (plain.tileAt (plain.teamTile plain.core.phys)).team = none) ∧
    (MayIssue (.halt w) last ∧ last.core.pending = [] ∧ isGateway last.core.phys = false ∧ last.teamTile last.core.phys = 0 ∧
      (last.tileAt 0).team = some (0, 0) ∧ last.core.phys ∈ ps ∧ last.core.kernel = some 0) ∧
    (kd.st = .draining ∧ kd.abort = false ∧ kd.post = false ∧ (∀ x ∈ kd.teams, x.tileImg = none) ∧ (∀ j ∈ kd.tiles, (drain.tileAt j).team = none ∧ (drain.tileAt j).cards = [] ∧
        drain.farFrom j = false ∧ drain.tileImages.listed (kd.part * 512 + j) = none ∧
        ∀ pos, pos < 16 → (drain.coreAt (drain.physOfIndex (chipIndex (tileCore j pos)))).unacked = []) ∧
      drain.dispReach 1 (far 0x3000) 128 = .mem (farAt 0x3000) ∧ (drain.rcbAt (farAt 0x3000)).mbox = box ∧ box.tag = true ∧ box.otype = 3 ∧
      box.perm.getLsbD 3 = true ∧ drain.dispReach 1 box.addr.toNat 64 = .mem (farAt 0x4000) ∧
      dispPlain drain (far 0x3000) (farAt 0x3000) = true ∧ dispPlain drain box.addr.toNat (farAt 0x4000) = true ∧
      (drain.mailbox (partCore kd.part) box).isSome = true ∧ (drain.coreAt (ownerOf (farAt 0x4000))).paired = false ∧
      (drain.coreAt (ownerOf (farAt 0x4000))).cstate ≠ .killed ∧ drain.numAt (farAt 0x4000 + 48) 8 % 4 = 0 ∧
      farAt 0x3000 + 128 ≤ farAt 0x4000) ∧
    (∀ k, k = kern 1 .running [team_ .placed] [0] → last.kernels = [(0, k)] ∧ k.live = true ∧ k.tiles = [0] ∧ (last.tileAt 0).cards = [] ∧
      last.farFrom 0 = false ∧ last.tileImages.listed (k.part * 512) = none ∧
      (∀ x ∈ k.teams, x.st ≠ .swappingOut ∧ x.st ≠ .swappingIn) ∧
      (∀ pos, pos < 16 → (last.coreAt (last.physOfIndex (chipIndex (tileCore 0 pos)))).unacked = []) ∧
      ∀ p ∈ ps, (last.coreAt p).pending = [] ∧ (last.coreAt p).unacked = [] ∧ (last.coreAt p).drain = none ∧ (last.coreAt p).portq = [] ∧ (last.coreAt p).gang.fused = false) := by
  refine ⟨fun s hs => ?_, ⟨_, by decide +kernel, rfl, rfl, by decide, by decide, rfl, by decide +kernel⟩, by decide +kernel, by decide +kernel, by decide +kernel,
    by decide +kernel, ⟨mayIssue_of (by decide), rfl, rfl⟩, ⟨mayIssue_of (by decide +kernel), by decide +kernel⟩, by decide +kernel, ?_⟩
  · fin_cases hs <;> exact ⟨_, _, rfl, rfl, by decide +kernel⟩
  · rintro k rfl; decide +kernel

/-- A tile whose team is being swapped out (R267). -/
theorem witness_SavingTile : (teamAt .swappingOut (kern 1 .running [team_ .swappingOut] [0]) (core 0)).tileSaving 0 = true := by
  decide +kernel


/-! ### Hypotheses met: the prism chains. -/

/-- Chain 5 of partition 1; its capability stands in c2, one over the core's own store in c4, words in w6 and w8 to w15. -/
def chained (x : Chain) (sel : Word) (words : List Word) : State :=
  let c := cap 4 (own 0x2000) (cap 2 { over_ 0 16384 5 0x123 7 with otype := 6 } (reg 6 sel (core 0)))
  let s := inPart (words.zipIdx.foldl (fun c v => reg (8 + v.2) v.1 c) c)
  { s with
    parts := [(1, { part1 with chains := 32 })]
    chains := [(5, x)] }
def rec_ (lab : Label) (facet rc : Nat) : PRec := ⟨List.replicate 16 9, lab, 0, rc, facet, 0, 0, none, none⟩
def offClass : List Word := List.replicate 8 0x80000
def withBanks (bs : List (Nat × Bank)) : Chain := { Chain.reset with banks := bs }

/-- PRPUSH at both sides of a full queue and on a stopped partition; PRPOP of nothing and of a record; PRCLASS of a valid class, of one
that is not and while a bank drains; PTWR of each kind at the limits of its index; PTRD; PTFLIP. -/
theorem witness_ChainInstructions :
    let push := Instr.prpush w (.w 0) (.w 2) (.w 8)
    let pop := Instr.prpop w (.w 8) (.w 2)
    let cls := Instr.prclass w (.w 0) (.w 2) (.w 8)
    let tw := fun item kind : Nat => Instr.ptwr x3 (.w 0) (.w 2) (.w 4) (.w 6) item kind
    let rd := fun item side half : Nat => Instr.ptrd x3 (.w 16) (.w 2) (.w 6) item side half
    let flip := Instr.ptflip x3 (.w 2) 0x201
    let inqs := fun n : Nat => chained { Chain.reset with inq := List.replicate n (rec_ 0 0 0) } 0 []
    let ready := fun s : State => NoReplay s.core ∧ s.core.pending = [] ∧ s.core.unacked = [] ∧ s.core.tabRun = none
    let sels : List (Nat × Nat × Nat × Bool) := [(0, 1, 4096, true), (0, 1, 4097, false), (1, 1, 1, false), (0, 2, 512, true), (511, 2, 1, true),
      (512, 2, 1, false), (255, 3, 1, true), (0, 3, 257, false), (63, 0, 1, true), (64, 0, 1, false), (0, 3, 0, false)]
    let tabs := withBanks [(0, ⟨3, [(7, ⟨1, 2, 3, 4, true⟩)], [], [], 0⟩), (2, ⟨1, [(slotOf 0 7, ⟨7, 0, 3, 4, true⟩)], [], [], 0⟩)]
    (∀ n ∈ [0, 63, 64], MayIssue push (inqs n) ∧ ready (inqs n) ∧ ((inqs n).partAt 1).st = .run ∧ ((inqs n).chainAt 5).inq.length = n) ∧
    (let s := { inqs 0 with parts := [(1, { part1 with chains := 32, st := .stopped })] };
      MayIssue push s ∧ ready s ∧ s.core.part ≠ 0 ∧ (s.partAt s.core.part).st ≠ .run) ∧
    (∀ q ∈ [[], [rec_ 3 8 0, rec_ 0 8 0]], let s := chained { Chain.reset with outq := q } 0 []
      MayIssue pop s ∧ ready s ∧ s.bufAt (bufKey s.core.phys) = [] ∧ (s.chainAt 5).outq = q) ∧
    (∀ ws ∈ [[], offClass, offClass.set 3 0], MayIssue cls (chained Chain.reset 0 ws) ∧ ready (chained Chain.reset 0 ws)) ∧
    ((List.range 8).map (fun f => facetOk f (offClass.getD f 0)) = List.replicate 8 true ∧ facetOk 0 0 = false ∧ facetOk 3 0 = false) ∧
    (∀ z ∈ sels, let s := chained Chain.reset (BitVec.ofNat 64 (z.1 + z.2.2.1 * 2 ^ 16)) []
      let i := tw (if z.2.1 = 0 then 8 else 0) z.2.1
      MayIssue i s ∧ ready s ∧ (s.core.rd (.w 6)).v.toNat % 2 ^ 16 = z.1 ∧ (s.core.rd (.w 6)).v.toNat / 2 ^ 16 % 2 ^ 16 = z.2.2.1 ∧
      (z.2.2.1 = 1 → z.2.2.2 = true → PortOpen s (own 0x2000).addr (tabSize z.2.1) ∧ s.sweepOf s.core = none)) ∧
    (let s := chained Chain.reset 0x10000 []
      let d := { s with core := { s.core with duePreempt := true } }
      MayIssue (tw 0 3) d ∧ ready d ∧ PortOpen d (own 0x2000).addr (tabSize 3) ∧ d.core.duePreempt = true) ∧
    (let y : TabRun := ⟨1, { over_ 0 16384 5 0x123 7 with otype := 6 }, own 0x2000, 0x30000, 1⟩
      let s := chained Chain.reset 0x30000 []
      let d := { s with core := { s.core with duePreempt := true, tabRun := some y } }
      MayIssue (tw 0 3) d ∧ NoReplay d.core ∧ d.core.pending = [] ∧ d.core.unacked = [] ∧ rangeOk 3 y.range = true ∧ 0 < y.done ∧
        y.chain.addr = 5 ∧ s.reach d.core y.image.addr 96 = some (0, 0x2000) ∧ d.portOpen (atSrc d.core.phys) 0 0x2000 96 (write := false) = true ∧ d.core.duePreempt = true) ∧
    (∀ s ∈ [chained { Chain.reset with drain := [1, 19] } (BitVec.ofNat 64 0x10000) offClass], MayIssue (tw 0 3) s ∧ MayIssue cls s ∧ ready s ∧
      1 ∈ (s.chainAt 5).drain ∧ 19 ∈ (s.chainAt 5).drain) ∧
    (∀ v ∈ [7, 8], ∀ i ∈ [rd 0 0 0, rd 1 0 0, rd 8 1 0, rd 9 0 1], MayIssue i (chained tabs v []) ∧ ready (chained tabs v [])) ∧
    ((tabs.bank 0).kind = 3 ∧ (tabs.bank 0).tab.listed 7 = some ⟨1, 2, 3, 4, true⟩ ∧ (tabs.bank 0).tab.listed 8 = none ∧ (tabs.bank 2).kind = 1 ∧
      (tabs.bank 2).find 7 = some (slotOf 0 7, ⟨7, 0, 3, 4, true⟩) ∧ (tabs.bank 2).find 8 = none) ∧
    (∀ s ∈ [inqs 0, { inqs 0 with core := { (inqs 0).core with woken := true } }, { inqs 0 with hold := true }], MayIssue flip s ∧ ready s ∧
      (s.chainAt 5).flips = []) ∧
    trapsAre [(push, inqs 0, 0, 0), (pop, inqs 0, 0, 0), (cls, inqs 0, 0, 0), (tw 0 3, inqs 0, 0, 0), (rd 9 0 0, inqs 0, 0, 0), (flip, inqs 0, 0, 0),
      (push, plain, 5, 2), (.prpush w (.w 0) (.w 4) (.w 8), inqs 0, 8, 4),
      (push, { inqs 0 with parts := [(1, part1)] }, 6, 5),
      (push, { inqs 0 with core := regL 9 1 7 (cap 2 { over_ 0 16384 5 0x123 6 with otype := 6 } (inqs 0).core) }, 9, 5),
      (pop, { inqs 0 with core := cap 2 { over_ 0 16384 5 0x122 6 with otype := 6 } (inqs 0).core }, 7, 2)] = true := by
  refine ⟨fun n hn => ?_, ⟨mayIssue_of (by decide), by decide, by decide, by decide⟩, fun q hq => ?_, fun ws hw => ?_, by decide, fun z hz => ?_,
    ⟨mayIssue_of (by decide), by decide, portOpen_of (by decide +kernel), rfl⟩, ⟨mayIssue_of (by decide), by decide +kernel⟩, fun s hs => ?_, fun v hv i hi => ?_, by decide +kernel, fun s hs => ?_, by decide +kernel⟩
  · fin_cases hn <;> exact ⟨mayIssue_of (by decide +kernel), by decide +kernel⟩
  · fin_cases hq <;> exact ⟨mayIssue_of (by decide), by decide +kernel⟩
  · fin_cases hw <;> exact ⟨mayIssue_of (by decide), by decide +kernel⟩
  · fin_cases hz <;> exact ⟨mayIssue_of (by decide +kernel), by decide +kernel, by decide +kernel, by decide +kernel,
      fun _ _ => ⟨portOpen_of (by decide +kernel), by decide +kernel⟩⟩
  · fin_cases hs; exact ⟨mayIssue_of (by decide +kernel), mayIssue_of (by decide +kernel), by decide +kernel⟩
  · fin_cases hv <;> fin_cases hi <;> exact ⟨mayIssue_of (by decide +kernel), by decide +kernel⟩
  · fin_cases hs <;> exact ⟨mayIssue_of (by decide +kernel), by decide +kernel⟩

/-- A PTWR of two column entries whose accesses wait for their events goes on by one entry (R405). -/
theorem test_ptwr_by_entry :
    (nextOf (exec (.ptwr x3 (.w 0) (.w 2) (.w 4) (.w 6) 8 0) { chained Chain.reset 0x20000 [] with hold := true })).map
      (fun t => (t.core.tabRun.map TabRun.done, t.core.stalled)) = some (some 1, true) := by decide +kernel

/-- A record at the end of chain 5, at a facet of some kind with an action for a miss and a table, and column entry 0. -/
def leaving (r : PRec) (kind prim : Nat) (tab : List (Nat × TabEntry)) (col : Cap) : State :=
  let x := withBanks [(0, ⟨3, tab, [], [], 0⟩), (16, ⟨0, [], [(0, col)], [], 0⟩),
    (18, ⟨0, [], [], offClass.set 0 (BitVec.ofNat 64 (kind * 2 ^ 20 + 8 * 2 ^ 16 + prim)), 0⟩)]
  let s := chained { x with pipe := [r] } 0 []
  { s with
    hold := true
    parts := [(1, { part1 with chains := 32, len := 32 })]
    queues := [(5, { Queue.reset with part := 1, st := .on, rlen := 16 }), (6, Queue.reset)] }
def exits (s : State) (op arg kind : Nat) (hit : Bool) : Prop :=
  let x := s.chainAt 5
  let w := (x.bank 18).cls.getD 0 0
  let found := if (x.bank 0).kind = kind then (x.bank 0).find 9 else none
  ∃ r, x.pipe = [r] ∧ x.outq.length < 64 ∧ r.doing = none ∧ r.leave = none ∧ s.hold = true ∧ r.facet < 8 ∧ r.stamp = 0 ∧ (w.extractLsb' 16 4).toNat = 8 ∧
    (w.extractLsb' 20 2).toNat = kind ∧ arg < 2 ^ 12 ∧ (found.isSome = hit ∧ ∀ e ∈ found, e.2.act = op * 2 ^ 12 + arg) ∧
    (hit = false → (w.extractLsb' 0 16).toNat = op * 2 ^ 12 + arg)

/-- A record that enters from each queue and at the pipeline's limit; a flip; a bank that has drained; a hit in each kind of table; each
action, on a hit and on a miss, with each of its ends. -/
theorem witness_ChainEvents :
    let r := rec_ 3 0 0
    let pipes := fun n : Nat => { Chain.reset with pipe := List.replicate n r, inq := [r] }
    let miss := fun prim : Nat => leaving r 3 prim [] Cap.null
    let hit := fun prim : Nat => leaving r 3 0 [(4, ⟨0, 0xFFFFFFFF, prim, 5, true⟩)] Cap.null
    let qcap := { over_ 0 16384 5 0x183 7 with otype := 5 }
    let count := { over_ 0 (2 ^ 64) (far 0x1000) 0x183 7 with addr := BitVec.ofNat 64 (far 0x1000) }
    let col := fun (op : Nat) (k : Cap) => leaving r 3 (op * 2 ^ 12) [] k
    let t3 : Bank := ⟨3, [(4, ⟨5, 9, 0, 1, true⟩), (7, ⟨9, 12, 0, 2, true⟩)], [], [], 0⟩
    let t2 : Bank := ⟨2, [(4, ⟨8, 12, 0, 1, true⟩), (7, ⟨0, 0, 0, 2, true⟩)], [], [], 0⟩
    let t1 : Bank := ⟨1, [(slotOf 0 7, ⟨7, 0, 0, 1, true⟩)], [], [], 0⟩
    ((pipes 24).pipe.length = 24 ∧ (pipes 23).stuck = false ∧ (pipes 23).pipe.length < 24 ∧ (pipes 23).recirc = [] ∧ (pipes 23).inq = r :: [] ∧
      ({ pipes 23 with recirc := [r] } : Chain).recirc = r :: []) ∧
    ({ pipes 0 with flips := [(3, 0x201)] } : Chain).flips = (3, 0x201) :: [] ∧
    (∀ z ∈ (pipes 2).pipe ++ (pipes 2).recirc, (if z.stamp.testBit 4 then 1 else 0) ≠ 1) ∧
    (∀ b ∈ [t1, t2, t3], b.tab.Pairwise (fun x y => x.1 < y.1)) ∧
    (t1.find 7 = some (slotOf 0 7, ⟨7, 0, 0, 1, true⟩) ∧ t2.find 9 = some (4, ⟨8, 12, 0, 1, true⟩) ∧ t2.find 4 = some (7, ⟨0, 0, 0, 2, true⟩) ∧
      t3.find 5 = some (4, ⟨5, 9, 0, 1, true⟩) ∧ t3.find 9 = some (4, ⟨5, 9, 0, 1, true⟩) ∧ t3.find 12 = some (7, ⟨9, 12, 0, 2, true⟩)) ∧
    (exits (leaving r 0 0 [] Cap.null) 0 0 0 false) ∧
    (∀ z ∈ [(0, 0), (1, 0), (1, 0x1F), (1, 0xFE5), (2, 0), (2, 0x2F), (2, 0xFD5), (3, 0), (5, 8), (6, 0), (6, 7), (7, 0), (8, 15)],
      exits (miss (z.1 * 2 ^ 12 + z.2)) z.1 z.2 3 false ∧ exits (hit (z.1 * 2 ^ 12 + z.2)) z.1 z.2 3 true) ∧
    (∀ k ∈ [qcap, { qcap with addr := 6 }, { qcap with label := 2 }, { qcap with tag := false }], exits (col 3 k) 3 0 3 false) ∧
    (∀ z ∈ [(qcap, 0), ({ qcap with addr := 6 }, 4)], let y := State.push (col 3 z.1) z.1.addr.toNat ⟨List.replicate 8 0x900000009, List.replicate 4 false, 3⟩ false
      y.2 = z.2 ∧ y.1.chains = (col 3 z.1).chains) ∧
    (∀ k ∈ [count, { count with label := 2 }, { count with perm := 1 }, own 0x1000], exits (col 4 k) 4 0 3 false) ∧
    (let s := col 4 count;
      count.tag = true ∧ s.revoked (partCore 1) count = false ∧ count.otype = 0 ∧ count.addr.toNat % 4 = 0 ∧ count.base = 0 ∧
      count.addr.toNat < selfWindow ∧ selfWindow ≤ (own 0x1000).addr.toNat ∧ ∃ o off, s.reach (partCore 1) count.addr 4 = some (o, off) ∧
        (s.coreAt o).portq = [] ∧ s.portBlocks 1 o (chainSrc 5) off 4 = false ∧ (s.coreAt o).cstate ≠ .killed ∧ (s.coreAt o).paired = false ∧
        s.traceLen o = 0 ∧ off + 4 ≤ traceOff) ∧
    (let q := State.physOfIndex State.reset 16
      let s := { col 4 { count with addr := count.addr + 0x20000 } with others := [(q, { Core.reset q with part := 1, g1 := .waking })] };
      exits s 4 0 3 false ∧ ∃ off, s.reach (partCore 1) (count.addr + 0x20000) 4 = some (q, off) ∧
        s.portBlocks 1 q (chainSrc 5) off 4 = true ∧ (s.coreAt q).portq = [] ∧ (s.coreAt q).paired = false) ∧
    (∀ n ∈ [2, 3], exits (leaving (rec_ 3 0 n) 3 0x6000 [] Cap.null) 6 0 3 false) ∧
    (∀ z ∈ [0, 0x1005], exits (leaving (rec_ 3 0 3) 3 z [(4, ⟨0, 0xFFFFFFFF, 0x6000, 5, true⟩)] Cap.null) 6 0 3 true ∧
      (((leaving (rec_ 3 0 3) 3 z [] Cap.null).chainAt 5).bank 18).cls.getD 0 0 = BitVec.ofNat 64 (3 * 2 ^ 20 + 8 * 2 ^ 16 + z)) ∧
    (let full := List.replicate 64 r
      let x := { Chain.reset with pipe := [r], outq := full }
      r.doing = none ∧ r.leave = none ∧ 64 ≤ x.outq.length ∧ ({ r with leave := some 4 } : PRec).leave = some 4 ∧
      ((((leaving r 0 0 [] Cap.null).chainAt 5).bank 18).cls.getD 0 0).extractLsb' 20 2 = 0) ∧
    (let s := miss 0x8000;
      (rec_ 3 0 0).word 0 % 2 ^ 13 = 9 ∧ ∃ q, s.ofRank (partCore (s.chainPart 5)) 9 = some q ∧ s.away (s.chainPart 5) q = false ∧
        (s.coreAt q).refusesMsg ⟨.punt, (List.range 4).map (fun i => BitVec.ofNat 64 (r.word (2 * i) + r.word (2 * i + 1) * 2 ^ 32)), r.lab, 0x1FFF⟩ = false) ∧
    (let s := leaving { r with words := r.words.set 0 32 } 3 0x8000 [] Cap.null;
      exits s 8 0 3 false ∧ s.ofRank (partCore (s.chainPart 5)) 32 = none) := by
  refine ⟨by decide, by decide, by decide, by decide, by decide +kernel, ⟨_, rfl, by decide +kernel⟩, fun z hz => ?_, fun k hk => ?_, fun z hz => ?_,
    fun k hk => ?_, ⟨by decide +kernel, by decide +kernel, by decide +kernel, by decide +kernel, by decide +kernel, by decide +kernel, by decide +kernel, State.physOfIndex State.reset 16, 0x1000, by decide +kernel⟩, ⟨⟨_, rfl, by decide +kernel⟩, 0x21000, by decide +kernel⟩, fun n hn => ?_, fun z hz => ?_, by decide +kernel, ⟨by decide, State.physOfIndex State.reset 9, by decide +kernel⟩,
    ⟨⟨_, rfl, by decide +kernel⟩, by decide +kernel⟩⟩
  · fin_cases hz <;> exact ⟨⟨_, rfl, by decide +kernel⟩, ⟨_, rfl, by decide +kernel⟩⟩
  · fin_cases hk <;> exact ⟨_, rfl, by decide +kernel⟩
  · fin_cases hz <;> decide +kernel
  · fin_cases hk <;> exact ⟨_, rfl, by decide +kernel⟩
  · fin_cases hn <;> exact ⟨_, rfl, by decide +kernel⟩
  · fin_cases hz <;> exact ⟨⟨_, rfl, by decide +kernel⟩, by decide +kernel⟩


/-! ### Hypotheses met: page service, evictions, queues. -/

/-- A loupe core and an OS server core of cluster 0. -/
def loupe : Nat := tileCore 3 12
def server : Nat := tileCore 3 11

/-- An entry for a page of 4 KiB of HBM: partition 1, readable, VALID or with a fault code, page number, frame. -/
def page (valid : Bool) (fcode vpn ppn : Nat) : Nat :=
  1 * 2 ^ 122 + 2 ^ 106 + valid.toNat * 2 ^ 103 + fcode * 2 ^ 99 + vpn * 2 ^ 64 + ppn * 2 ^ 12
def missOf (st : MissSt) : Miss := ⟨st, 0x5000, 1, false, false, 7, 0⟩

/-- A core of cluster 0 with an entry in w8 and w9 and a word in w6, and tile 2 with an entry and a miss. -/
def paging (p : Nat) (e : Nat) (tgt : Nat) (x : Tile) : State :=
  let c := reg 9 (BitVec.ofNat 64 (e / 2 ^ 64)) (reg 8 (BitVec.ofNat 64 e) (reg 6 (BitVec.ofNat 64 tgt) (core p)))
  { on c with
    tiles := [(2, x)]
    parts := [(1, part1)] }
def walked (st : MissSt) : Tile := { Tile.reset with misses := [(4, missOf st)], tlb := [BitVec.ofNat 128 (page true 0 5 9), BitVec.ofNat 128 (page true 0 6 9)] }

/-- TLBW with each of its statuses; TLBI; FRPOP of a miss, of a record and of nothing; CRESUME of no card, of one that runs and of one
that is FAULTED; a burst; a pseudo-channel. -/
theorem witness_PageService :
    let tw := Instr.tlbw x3 (.w 0) (.w 8) (.w 6)
    let ti := fun ext : Nat => Instr.tlbi x3 (.w 8) (.w 6) ext
    let fr := fun ext : Nat => Instr.frpop x3 (.w 16) ext
    let cr := fun bad : Nat => Instr.cresume x3 (.w 0) (.w 6) bad
    let ready := fun s : State => NoReplay s.core ∧ s.core.pending = [] ∧ s.core.unacked = []
    let bad := fun s : State => s.malformed ((s.core.ent (s.core.physOf (.w 8) + 1)).v ++ (s.core.ent (s.core.physOf (.w 8))).v)
    let named := 2 + 4 * 2 ^ 32
    let w0 := walked .walking
    let card := { cardOf_ .cpy with state := .running, miss := some ⟨4, 0x5000, true⟩ }
    let faulted := fun st : CardSt => paging loupe 0 (2 * 2 ^ 32) (window [(0, { cardOf_ .cpy with state := st })])
    let rings := fun r : List FRec => { on (core server) with dies := [(dieOf server, { Die.reset with retry := r, term := r })] }
    (∀ z ∈ [(page true 0 5 1, named, false), (page true 0 5 1, 2 + 0xFFFF * 2 ^ 32, false), (page false 0 5 1, named, false), (page false 2 5 1, named, false),
        (page true 0 5 1, 2 + 4 * 2 ^ 32 + 1 * 2 ^ 16, false), (page true 0 5 (511 * 2 ^ 18), named, false), (page true 0 5 (512 * 2 ^ 18), named, true),
        (page true 1 5 1, named, true), (page false 0 5 1 + 1, named, true)], let s := paging loupe z.1 z.2.1 w0
      MayIssue tw s ∧ ready s ∧ s.isLoupe s.core.phys = true ∧ clusterOf s.core.phys = 0 ∧ (s.core.rd (.w 6)).v.toNat = z.2.1 ∧ bad s = z.2.2) ∧
    (w0.gen = 0 ∧ w0.misses.listed 4 = some (missOf .walking) ∧ (walked .waiting).misses.listed 4 = some (missOf .waiting) ∧ w0.tlb.length < 1024) ∧
    (let s := { paging loupe (page false 2 5 1) named { w0 with cards := [(0, card)] } with hold := true };
      MayIssue tw s ∧ ready s ∧ bad s = false ∧ s.hold = true ∧ (s.tileAt 2).cards = [(0, card)] ∧ card.miss = some ⟨4, 0x5000, true⟩) ∧
    (∀ p ∈ [loupe, server], ∀ v ∈ [0, 1, 63, 64], ∀ ext ∈ [0, 1, 2, 3], MayIssue (ti ext) (paging p 0x5000 v w0) ∧ ready (paging p 0x5000 v w0)) ∧
    (let s := { paging loupe 0 0 (walked .waiting) with missq := [(0, [(2, 4)])] };
      MayIssue (fr 0) s ∧ ready s ∧ s.missq.look (fun _ => []) 0 = [(2, 4)] ∧ (missOf .waiting).part < 64 ∧ s.walking 0 1 < 16) ∧
    (∀ r ∈ [[], [⟨[1, 2, 3, 4], 1⟩]], ∀ ext ∈ [1, 2], MayIssue (fr ext) (rings r) ∧ ready (rings r) ∧ (rings r).isServer (rings r).core.phys = true ∧
      ((rings r).dieAt (dieOf server)).retry = r ∧ ((rings r).dieAt (dieOf server)).term = r) ∧
    (∀ st ∈ [CardSt.running, .faulted], ∀ b ∈ [0, 1], MayIssue (cr b) (faulted st) ∧ ready (faulted st) ∧
      ((faulted st).core.rd (.w 6)).v.toNat / 2 ^ 32 = 2 ∧ cardOf (faulted st) 2 0 = some { cardOf_ .cpy with state := st } ∧ (cardOf_ .cpy).seq = 0) ∧
    ((cardOf_ .cpy).ending = none ∧ (cardOf_ .cpy).slot = none ∧ EndsAtOnce (faulted .faulted) 2 { cardOf_ .cpy with state := .faulted }) ∧
    (MayIssue (cr 0) (paging server 0 (512 * 2 ^ 32) w0) ∧ MayIssue (cr 0) (paging server 0 7 w0)) ∧
    (let far_ := { farW with part := 1, via := some (BitVec.ofNat 128 (page true 0 5 9)) }
      let s := { paging loupe 0x5000 1 w0 with cardbuf := [(4, [far_])] };
      MayIssue (ti 1) s ∧ ready s ∧ far_.tile < 512 ∧ tePart (BitVec.ofNat 128 (page true 0 5 9)) = 1 ∧
        teCovers (BitVec.ofNat 128 (page true 0 5 9)) (s.core.rd (.w 8)).v.toNat = true ∧
        ({ s with others := [(0, { Core.reset 0 with part := 2 })] } : State).away 1 0 = true) ∧
    (let s := { on { core 0 with part := 1, tabRun := some ⟨1, Cap.null, Cap.null, 0, 1⟩ } with parts := [(1, part1)] };
      s.repair = none ∧ s.others = [] ∧ s.core.cstate = .running ∧ s.core.part ≠ 0 ∧ s.core.tabRun ≠ none ∧ s.core.interval = none ∧
        s.core.pair.pstate = .unpaired ∧ 511 ∉ s.dead) ∧
    (∀ s ∈ [State.reset, { State.reset with repair := some 511 }], s.repair = none ∨ s.repair = some 511) ∧ State.reset.tiles = [] ∧
    (∀ p, ((State.reset.coreAt p).cstate = .running → (State.reset.coreAt p).part = 0) ∧ (State.reset.coreAt p).cstate ≠ .evicted) ∧
    (64 * (2 ^ 33 - 1) < plain.hbmTop ∧ ¬ 64 * 2 ^ 33 < plain.hbmTop ∧ 511 ∉ plain.dead) ∧
    trapsAre [(tw, paging loupe 0 0 w0, 0, 0), (tw, on { core loupe with lens := Cap.lens 15 25 16 }, 3, 9), (tw, on { core server with lens := Cap.lens 15 25 16 }, 1, 0), (ti 0, paging server 0 64 w0, 6, 64), (ti 0, paging server 0 63 w0, 0, 0), (tw, paging server 0 0 w0, 1, 0),
      (ti 0, plain, 1, 0), (fr 0, on (core server), 1, 0), (fr 1, on (core loupe), 1, 0), (cr 0, plain, 1, 0)] = true := by
  refine ⟨fun z hz => ?_, by decide, ⟨mayIssue_of (by decide), by decide +kernel⟩, fun p hp v hv e he => ?_, ⟨mayIssue_of (by decide), by decide +kernel⟩,
    fun r hr e he => ?_, fun st hs b hb => ?_, ⟨by decide, by decide, by unfold EndsAtOnce; decide⟩,
    ⟨mayIssue_of (by decide), mayIssue_of (by decide)⟩, ⟨mayIssue_of (by decide), by decide +kernel⟩, by decide +kernel, by decide +kernel, rfl,
    fun p => ?_, by decide +kernel, by decide +kernel⟩
  · fin_cases hz <;> exact ⟨mayIssue_of (by decide), by decide +kernel⟩
  · fin_cases hp <;> fin_cases hv <;> fin_cases he <;> exact ⟨mayIssue_of (by decide), by decide +kernel⟩
  · fin_cases hr <;> fin_cases he <;> exact ⟨mayIssue_of (by decide), by decide +kernel⟩
  · fin_cases hs <;> fin_cases hb <;> exact ⟨mayIssue_of (by decide), by decide +kernel⟩
  · have h (q : Nat) : (Core.reset q).part = 0 ∧ (Core.reset q).cstate ≠ .evicted := by simp only [Core.reset]; split <;> simp
    unfold State.coreAt; split
    · exact ⟨fun _ => (h rootCore).1, (h rootCore).2⟩
    · exact ⟨fun _ => (h p).1, (h p).2⟩

/-- The cores of tile 0 in partition 1 but for one, which is in some state. -/
def shared_ (k : Core) (img : CoreImg) : State :=
  let s := (tileCores 0).foldl (fun s q => if q = k.phys then s else also { core q with part := 1 } s) (on k)
  { s with
    hold := true
    parts := [(1, { part1 with shared := true, slots := 1 }), (2, { part1 with shared := true, slots := 2 })]
    images := [(16384 + s.indexOf k.phys, img)] }
def five : Nat := tileCore 0 5
def saved_ (p : Nat) (st : CState) : CoreImg := ⟨{ core p with part := 1, cstate := st }, ⟨[(3, 9)], [], [], []⟩, [], 0⟩

/-- An eviction of a core with an engine and without; a restore; a SHARED partition's turn on a tile where it left a core, and where the
core is another partition's. -/
theorem witness_Evictions :
    let quiet := fun k : Core => k.pending = [] ∧ k.unacked = [] ∧ k.drain = none ∧ k.interval = none ∧ k.tabRun = none ∧ k.pair.pstate = .unpaired ∧ k.gang.fused = false
    let stop := fun s : State => { s with parts := [(1, { part1 with st := .stopped })] }
    let eng := { on { core (tileCore 0 15) with part := 1 } with tiles := [(0, window [(0, cardOf_ .cpy)])] }
    let back := { on { core 0 with part := 1, cstate := .evicted } with hold := true, parts := [(1, part1)], images := [(16384, saved_ 0 .evicted)] }
    let a := shared_ { core five with part := 1, cstate := .evicted } (saved_ five .evicted)
    let b := shared_ { core five with part := 2 } (saved_ five .evicted)
    (Named plain 0 ∧ (plain.focus 0).evictDue 0 = false) ∧
    (∀ z ∈ [(0, stop (on { core 0 with part := 1 })), (tileCore 0 15, stop eng)], Named z.2 z.1 ∧ (z.2.focus z.1).evictDue z.1 = true ∧ (z.2.focus z.1).core.cstate = .running ∧ quiet (z.2.focus z.1).core ∧ (z.2.focus z.1).core.waiting = none ∧
      (z.2.focus z.1).waits = []) ∧
    (tilePos (tileCore 0 15) = 15 ∧ ∀ e ∈ (eng.tileAt (tileOf (tileCore 0 15))).cards, e.2.kind.isMatrix = true → e.2.state ≠ .running) ∧
    (Named back 0 ∧ (back.focus 0).core.cstate = .evicted ∧ ((back.focus 0).partAt (back.focus 0).core.part).st = .run ∧
      (back.focus 0).images.listed ((back.focus 0).imageKey 0) = some (saved_ 0 .evicted) ∧ back.hold = true ∧ back.repair = none ∧ back.fw.activating = false ∧ back.heldq = [] ∧
      Memory.wf (saved_ 0 .evicted).store.bytes = true ∧ ∀ e ∈ (saved_ 0 .evicted).store.bytes, e.1 < lsSize) ∧
    (∀ s ∈ [a, b], (s.partAt 1).shared = true ∧ (s.partAt 1).st = .run ∧ (s.partAt 1).base = 16 * 0 ∧ (s.partAt 1).len = 16 ∧ five ∈ tileCores 0 ∧ (s.coreAt five).phys = five ∧
      s.indexOf five < 16 ∧ (s.partAt 1).slots.testBit (s.clock / 500000 % 16) = true ∧ s.hold = true ∧ s.heldq = [] ∧
      (∀ q ∈ tileCores 0, q ≠ five → (s.coreAt q).part = 1 ∧ (s.coreAt q).cstate ≠ .evicted) ∧
      s.images.listed (1 * 16384 + (s.indexOf five - (s.partAt 1).base)) = some (saved_ five .evicted)) ∧
    ((a.coreAt five).part = 1 ∧ (a.coreAt five).cstate = .evicted) ∧
    ((b.coreAt five).part ≠ 0 ∧ (b.coreAt five).part ≠ 1 ∧ (b.coreAt five).cstate = .running ∧ quiet (b.coreAt five) ∧ (b.coreAt five).waiting = none ∧ b.waits = [] ∧
      b.usesTile 1 0 = false ∧ tileOf five = 0 ∧ tilePos five ≠ 15) := by
  refine ⟨⟨⟨by decide, by decide⟩, by decide +kernel⟩, fun z hz => ?_, by decide, ⟨⟨by decide, by decide⟩, by decide +kernel⟩, fun s hs => ?_, by decide +kernel, by decide +kernel⟩
  · fin_cases hz <;> exact ⟨⟨by decide, by decide⟩, by decide +kernel⟩
  · fin_cases hs <;> decide +kernel

/-- Descriptor writes that keep every rule, with a ring and without, and that break one; a refill, a ring error, doorbells at the limits
of the ring. -/
theorem witness_QueueStates :
    let ring := over_ 0x100000 0x100400 0x100000 0x183 0
    let cfg := fun (rlen weight : Nat) => rlen + weight * 2 ^ 40 + 1 * 2 ^ 52
    let ok := fun cfg : Nat => (cfg / 2 ^ 58 % 2 ^ 6 = 0 ∧ cfg / 2 ^ 21 % 2 ^ 11 = 0 ∧ cfg / 2 ^ 38 % 4 ≠ 3 ∧ cfg / 2 ^ 40 % 2 ^ 8 ≠ 0)
    let r := Cap.ofWords (BitVec.ofNat 64 ring.addr.toNat) (BitVec.ofNat 64 ring.hi.toNat) true
    let st := fun q : Queue => { plain with queues := [(3, q)], hold := true, unregistered := [] }
    let x := { Queue.reset with part := 1, st := .on, rlen := 16, ring := r, tail := 5, head := 2, hostp := true }
    ok (cfg 16 1) ∧ ok (cfg 0 255) ∧ ¬ ok (cfg 0 0) ∧ ¬ ok (cfg 0 1 + 3 * 2 ^ 38) ∧ ¬ ok (cfg (2 ^ 21) 1) ∧
    (cfg 16 1 % 2 ^ 21 = 2 ^ 4 ∧ r.sound = true ∧ r.otype = 0 ∧ r.base % 64 = 0 ∧ 0 ≤ r.base ∧ r.top = r.base + 64 * 16 ∧ r.top ≤ plain.hbmTop ∧
      r.perm.getLsbD 0 = true ∧ r.perm.getLsbD 1 = true ∧ r.perm.getLsbD 7 = true ∧ r.perm.getLsbD 8 = true) ∧
    (plain.queueAt 16383).st = .off ∧ plain.heldq = [] ∧
    (let p := { st x with bursts := [(0x100080 / 64, ⟨0, 0, true, (0, 0), 0⟩)] };
      (p.burst (x.ring.base.toNat + 64 * (2 % 16))).poison = true ∧ ((st x).burst (x.ring.base.toNat + 64 * (2 % 16))).poison = false) ∧
    (∀ z ∈ [(0, true), (2, true), (3, false)], let q := { x with seg := List.replicate z.1 ⟨[], [], 0⟩ }
      (st q).queueAt 3 = q ∧ (q.seg.length < 16 ∧ q.seg.length < (q.tail + 2 ^ 64 - q.head) % 2 ^ 64 ↔ z.2 = true)) ∧
    (x.st = .on ∧ x.rlen ≠ 0) ∧ ¬ (Queue.reset.st = .on ∧ Queue.reset.rlen ≠ 0) ∧
    (x.hostp = true ∧ x.part ∉ (st x).unregistered ∧ (st x).endpoint = true ∧ (st x).hold = true ∧ (5 + 2 ^ 64 - x.head) % 2 ^ 64 = 3 ∧ (18 + 2 ^ 64 - x.head) % 2 ^ 64 = 16 ∧
      (19 + 2 ^ 64 - x.head) % 2 ^ 64 = 17 ∧ (4 + 2 ^ 64 - x.head) % 2 ^ 64 = 2 ∧ x.parked = [] ∧
      ∃ t, t = { st x with inbound := [⟨fnOrder 1, 4, 8, none, 0, bytesOf 8 18, false, false, false, x.part, some (queueReg 3)⟩] } ∧ t.queueAt 3 = x) := by
  refine ⟨by decide, by decide, by decide, by decide, by decide, by decide +kernel, by decide, by decide, by decide +kernel, fun z hz => ?_, by decide, by decide,
    rfl, by decide, rfl, rfl, by decide, by decide, by decide, by decide, rfl, _, rfl, rfl⟩
  fin_cases hz <;> decide +kernel


/-! ### Hypotheses met: partitions and what tenants ask of the package. -/

/-- An entry of the partition table: what it says, in bytes. -/
def tableEntry (base len shared slots weight chains : Nat) (places : List Nat) : List Byte :=
  bytesOf 8 (base + len * 2 ^ 16 + shared * 2 ^ 32) ++ bytesOf 8 (slots + weight * 2 ^ 16) ++ bytesOf 8 0 ++ bytesOf 8 0 ++ bytesOf 16 chains ++
    bytesOf 16 0 ++ bytesOf 8 0 ++ places.flatMap (bytesOf 8)
def placesOk : List Nat := [0x1000000, 0x2000, 0x2020, 0x3000, 0x4000]
def withPart (y : Part) : State := { State.reset with parts := [(1, y)], fw := ⟨[1], 3, none, false⟩ }
def part1At (st : PartSt) : Part := { part1 with st := st, save := 0x1000000, dlog := 0x2000, vfring := 0x2020, ready := 0x3000, child := 0x4000, chains := 3 }

/-- Table writes that each rule refuses and ones that it takes; a partition in each state, idle. -/
theorem witness_Partitions :
    let f := fun (e : List Byte) (k m : Nat) => ofBytes ((e.drop k).take m)
    let good := tableEntry 16 16 0 0 1 4 placesOk
    let two : State := { withPart (part1At .configured) with parts := [(1, part1At .configured), (2, { part1At .configured with base := 32 })] }
    let wrote := fun (part : Nat) (e : List Byte) =>
      (nextOf (exec (.partitionTableWrite part ⟨e, [(0x100000, 4096)]⟩) two)).map (fun t => (t.answer, decide (t.parts = two.parts)))
    let idle := fun s : State => s.heldq = [] ∧ (∀ e ∈ s.tiles, e.2.team = none) ∧ s.ports = [];
    (f good 0 8 % 2 ^ 13 = 16 ∧ f good 0 8 / 2 ^ 16 % 2 ^ 14 = 16 ∧ f good 8 2 = 0 ∧ f good 10 1 = 1 ∧ f good 32 16 = 4 ∧ f good 72 8 = 0x1000000 ∧
      f good 80 8 = 0x2000 ∧ f good 88 8 = 0x2020 ∧ f good 96 8 = 0x3000 ∧ f good 104 8 = 0x4000 ∧ good.length = 112) ∧
    (let entries := [(good, 0), (tableEntry 8191 1 0 0 1 0 placesOk, 0), (tableEntry 8191 2 0 0 1 0 placesOk, 1), (tableEntry 40 16 0 0 1 0 placesOk, 1),
        (tableEntry 16 16 0 0 1 1 placesOk, 1), (tableEntry 16 16 1 0 1 0 placesOk, 1), (tableEntry 16 16 0 0 0 0 placesOk, 1),
        (tableEntry 16 16 0 0 1 0 [0x1000000, 0x2001, 0x2020, 0x3000, 0x4000], 1), (tableEntry 16 0 0 0 1 0 placesOk, 1)]
      ∀ e ∈ entries, wrote 1 e.1 = some (if e.2 = 0 then (.accepted, false) else (.refused, true))) ∧
    wrote 3 (tableEntry 16 0 0 0 1 0 placesOk) = some (.accepted, true) ∧
    (∀ st ∈ [PartSt.configured, .run, .stopping, .stopped], let s := withPart (part1At st)
      s.parts.listed 1 = some (part1At st) ∧ idle s ∧ (∀ p ∈ s.coresOf 1, (s.coreAt p).cstate = .idle ∧ (s.coreAt p).awake = false ∧ (s.coreAt p).pending = [] ∧
        (s.coreAt p).unacked = [] ∧ (s.coreAt p).drain = none) ∧
      SMap.wf (fun _ => Queue.reset) s.queues = true ∧ (part1At st).dlog + 32 ≤ (part1At st).vfring ∧ s.flights = []) ∧
    (withPart (part1At .configured)).parts.listed 2 = none ∧ (part1At .stopping).cut = false := by
  refine ⟨by decide +kernel, by decide +kernel, by decide +kernel, fun st hs => ?_, by decide, by decide⟩
  fin_cases hs <;> decide +kernel

/-- A capability whose region DECL can lower, in a tile with a label to lower; a session secret that unwraps; firmware in each state. -/
theorem witness_TenantServices :
    let decl := Instr.decl w (.w 2) (.w 6)
    let k := over_ (selfWindow + 0x1000) (selfWindow + 0x1040) (selfWindow + 0x1000) 0x43 7
    let at_ := fun (k : Cap) (v : Word) => { on (reg 6 v (cap 2 k (core 0))) with labels := [((lsBase 0 + 0x1000) / 64, 5)] }
    let s := at_ k 3
    let fw := fun (st : Option (List Byte × Nat)) (act : Bool) => { withPart (part1At .run) with fw := ⟨[1], 3, st, act⟩ }
    let pend := { withPart { part1At .run with updpend := true } with fw := ⟨[1], 3, some ([2], 4), false⟩ }
    let secret := shake256 32 (Config.sessionSecret 1 ++ bytesOf 8 State.reset.layout ++ bytesOf 1 1)
    (MayIssue decl s ∧ NoReplay s.core ∧ NoAcquire s.core ∧ s.regionStore s.core (s.core.rdCap (.w 2)) = some (0, 0x1000) ∧ 0 < coreCount ∧ (s.coreAt 0).portq = [] ∧
      s.portBlocks 0 0 0 0x1000 64 = false ∧ (s.coreAt 0).cstate ≠ .killed ∧ (s.coreAt 0).paired = false ∧ s.labelAt (lsBase 0 + 0x1000) = 5) ∧
    trapsAre [(decl, s, 0, 0), (decl, at_ k 7, 0, 0), (decl, at_ k 8, 6, 8), (decl, at_ { k with perm := 3 } 3, 7, 2),
      (decl, at_ (over_ (selfWindow + 0x1000) (selfWindow + 0x1020) (selfWindow + 0x1000) 0x43 7) 3, 4, 2), (decl, plain, 5, 2)] = true ∧
    (∀ y : List Byte, y.length = 32 → ∃ bs, kwpUnwrap secret bs = some y) ∧ kwpUnwrap secret [] = none ∧
    (∀ n ∈ [1, 63], 0 < n ∧ n < 64 ∧ State.reset.handles.listed n = none) ∧ (List.replicate 32 (0 : Byte)).length = 32 ∧
    ((part1At .run).slots < 2 ^ 16 ∧ (part1At .run).weight < 2 ^ 8 ∧ (part1At .run).base < 2 ^ 13 ∧ (part1At .run).len < 2 ^ 14) ∧
    ((fw none false).fw.ctr < 4 ∧ ¬ (fw none false).fw.ctr < 3 ∧ (fw none false).fw.staged = none ∧ (fw none false).parts.listed 1 ≠ none) ∧
    (∃ e ∈ pend.parts, e.2.st = .run ∧ e.2.updpend = true) ∧ (¬ ∃ e ∈ (fw (some ([2], 4)) false).parts, e.2.st = .run ∧ e.2.updpend = true) ∧
    (∀ p, ((fw (some ([2], 4)) false).coreAt p).cstate ≠ .running ∧ ((fw (some ([2], 4)) false).coreAt p).cstate ≠ .evicted) := by
  refine ⟨⟨mayIssue_of (by decide), rfl, noAcquire_of (by decide), by decide +kernel⟩, by decide +kernel,
    fun y hy => unwrap_onto _ (shake256_length 32 (by decide) _) y hy, by simp [kwpUnwrap], by decide, by decide, by decide, by decide, by decide, by decide, fun p => ?_⟩
  show (State.coreAt State.reset p).cstate ≠ .running ∧ (State.coreAt State.reset p).cstate ≠ .evicted
  have h : ∀ q, (Core.reset q).cstate ≠ .running ∧ (Core.reset q).cstate ≠ .evicted := fun q => by
    show (if isRoot q then CState.boot else .idle) ≠ .running ∧ (if isRoot q then CState.boot else .idle) ≠ .evicted
    split <;> decide
  unfold State.coreAt
  split
  · exact h _
  · exact h p


/-! ### Hypotheses met: the host link, the ports, decoding and stepping. -/

/-- An aperture entry: VALID, W and R, of one unit of 2 MiB at 0. -/
def apEntry (valid w r : Nat) : Nat := valid * 2 ^ 106 + r * 2 ^ 107 + w * 2 ^ 108
def hosted (hold : Bool) : State :=
  { withPart (part1At .run) with
    endpoint := true
    unregistered := [2]
    pages := [(1, 0, 2 ^ 21)]
    hold := hold
    apertures := [(16, BitVec.ofNat 128 (apEntry 1 1 1)), (17, BitVec.ofNat 128 (apEntry 0 0 0))] }

/-- Accesses to a core's store and through an aperture at the limits of both; aperture entries that fit and that do not; waits that a
write of the host wakes; writes of the host on their way; resets. -/
theorem witness_HostLink :
    let s := hosted false
    let p := State.physOfIndex s 0
    let key := WaitKey.virt 0x5000
    let ws : List WaitEntry := [⟨key, 1, .host 7 3⟩, ⟨key, 1, .core 5⟩]
    let waiting := { s with waits := ws }
    let piece : Piece := ⟨1, 4, 0, none, 0x100, [1], false, false, false, 1, none⟩
    let gone : Piece := { piece with wid := 3, route := 1, left := true, performed := true }
    (∀ z ∈ [(0, 1, true), (0x5FFFF, 1, true), (0x60000, 1, false), (0x5FFFF, 2, false), (15 * 0x80000, 64, true), (16 * 0x80000, 1, false), (0, 0, false)],
      (z.1 / 0x80000 < (part1At .run).len ∧ 0 < z.2.1 ∧ z.1 % 0x80000 + z.2.1 ≤ 0x60000 ∧ (part1At .run).st = .run) ↔ z.2.2 = true) ∧
    (s.endpoint = true ∧ (hosted true).hold = true ∧ s.hold = false ∧ s.inbound = [] ∧ s.portBlocks 1 p (hostSrc 1) 8 8 = false ∧
      s.portBlocks 1 p engineSrc 8 8 (write := false) = false ∧ s.awaited = [] ∧ 0xFFF8 + 8 ≤ 0x10000 ∧ 0x10000 < 0xFFF9 + 8 ∧ (s.queueAt 5).part = 0 ∧ 64 ≤ 65 ∧
      (s.coreAt p).portq = [] ∧ p ≠ engineSrc ∧ (s.coreAt p).cstate ≠ .killed ∧ (s.coreAt p).paired = false ∧ 8 + 8 ≤ traceOff) ∧
    (∀ z ∈ [(0, 8, true), (2 ^ 21 - 8, 8, true), (2 ^ 21 - 8, 9, false), (2 ^ 36, 8, false), (2 ^ 37, 8, false), (16 * 2 ^ 36, 8, false)],
      let e := s.apertures.look (fun _ => 0#128) (16 + z.1 / 2 ^ 36);
      (z.1 / 2 ^ 36 < 16 ∧ apValid e = true ∧ apW e = true ∧ apR e = true ∧ 0 < z.2.1 ∧ z.1 % 2 ^ 36 + z.2.1 ≤ apBytes e ∧
        s.burstsAre (apBase e + z.1 % 2 ^ 36) z.2.1 (apEnc e) (apKey e) = true) ↔ z.2.2 = true) ∧
    (∀ z ∈ [(apEntry 1 0 1, 15, 0), (apEntry 0 0 0 + 3 * 2 ^ 112, 15, 0), (apEntry 1 0 1, 16, 1), (apEntry 1 0 1 + 3 * 2 ^ 112, 0, 1), (apEntry 1 0 1 + 1 * 2 ^ 114, 0, 1),
        (apEntry 1 0 1 + (2 ^ 18) * 2 ^ 21, 0, 1)],
      (nextOf (exec (.apertureWrite 1 z.2.1 (z.1 % 2 ^ 64) (z.1 / 2 ^ 64)) s)).map State.answer = some (if z.2.2 = 0 then .accepted else .refused)) ∧
    (s.waitKey (partCore 1) 0x5000 = some key ∧ s.waitKey (partCore 1) (BitVec.ofNat 64 (remoteWindow + 8)) = some (.store p 8) ∧ s.waits.length < 65536 ∧ 1 ∉ s.unregistered ∧ waiting.waits = ws ∧
      (ws.filter (fun w => decide (w.key = key ∧ w.part = 1))).take 1 = [⟨key, 1, .host 7 3⟩] ∧
      s.waitKey (partCore 1) 0x800000000000 = none) ∧
    ((List.replicate 65536 (⟨key, 1, .host 7 3⟩ : WaitEntry)).length = 65536) ∧
    (let u := { hosted true with inbound := [piece] };
      u.inbound = [piece] ∧ piece.fn = 1 ∧ piece.left = false ∧ piece.performed = false ∧ piece.wid = 4 ∧ u.hold = true ∧ piece.store = none ∧
      gone.left = true ∧ gone.performed = true ∧ gone.wid ≠ piece.wid ∧ gone.route ≠ piece.route) ∧
    (∀ r ∈ [(8, bytesOf 8 15), (8, bytesOf 8 16), (16, bytesOf 8 0), (wakeReg, bytesOf 8 0x5000 ++ bytesOf 2 0),
        (wakeReg, bytesOf 8 0x800000000000 ++ bytesOf 2 1), (8, bytesOf 4 0), (24, bytesOf 8 0)],
      let z : Piece := { piece with reg := some r.1, data := r.2 }
      let u := { waiting with inbound := [z], hold := true }
      u.inbound = [z] ∧ z.store = none ∧ z.part = 1 ∧ z.reg = some r.1 ∧ z.data = r.2 ∧ 1 ∉ u.unregistered ∧
        1 ∈ ({ u with unregistered := [1] } : State).unregistered) ∧
    ((bytesOf 8 15).length = 8 ∧ ofBytes (bytesOf 8 15) < (part1At .run).len ∧ ¬ ofBytes (bytesOf 8 16) < (part1At .run).len ∧
      ofBytes ((bytesOf 8 0x5000 ++ bytesOf 2 0).take 8) = 0x5000 ∧ ofBytes ((bytesOf 8 0x5000 ++ bytesOf 2 0).drop 8) = 0 ∧
      (waiting.waits.filter (fun w => decide (w.key = key ∧ w.part = 1))) = [⟨key, 1, .host 7 3⟩, ⟨key, 1, .core 5⟩]) ∧
    (({ s with endpoint := false } : State).endpoint = false ∧ s.memTagAt 0 = false ∧
      287 < 288 ∧ (s.parts.listed 1).map Part.stopwhy = some 0) ∧
    (let d : Dump := ⟨bytesOf 4 1 ++ bytesOf 4 1, [], [], [], ⟨[], [], [], []⟩⟩;
      ({ s with dumps := [d] } : State).dumps[0]? = some d ∧ (d.header.getD 4 0).toNat % 64 = 1 ∧ 0xF8 + 8 ≤ 0x100 ∧ 0x6C3F8 + 8 ≤ 0x6C400) ∧
    (let u := { hosted true with inbound := [{ gone with wid := 4 }, { gone with wid := 4, route := 2 }] };
      (∀ z ∈ u.inbound, z.fn = 1 ∧ z.left = true ∧ z.performed = true ∧ z.wid = 4 ∧ z.acked = false) ∧ gone.acked = false) := by
  refine ⟨by decide +kernel, by decide +kernel, by decide +kernel, by decide +kernel, by decide +kernel, List.length_replicate, by decide, fun r hr => ?_, by decide +kernel, by decide, by decide, by decide⟩
  fin_cases hr <;> exact ⟨rfl, rfl, rfl, rfl, rfl, by decide, by decide⟩

/-- Writes of a port's entry that are taken and refused; a yield; deliveries at the limits of an inbox and a lane; block entries that are
sent, dropped and kept; cuts. -/
theorem witness_KustadPorts :
    let m : BlockMsg := ⟨[1, 2, 3, 4], 0, [false, false, false, false]⟩
    let x : KPort := { KPort.reset with part := 1, sendq := 3, enable := true, link := 2, peermap := 0x8000 }
    let e : QEntry := ⟨[1, 2, 3, 2 ^ 33, 0, 0, 0, 0], [false, false, false, false], 0⟩
    let q : Queue := { Queue.reset with part := 1, st := .on, seg := [e], tail := 1 }
    let port := fun (x : KPort) (st : PartSt) => { withPart (part1At st) with ports := [(2, x)], queues := [(3, q)], hold := true }
    let s := port x .run
    let p := gatewayCore 2 1
    let y := { withPart (part1At .run) with others := [(p, { core p with part := 1 })] }
    let lanes := fun n : Nat => { x with lanes := [(1, List.replicate n m)] }
    (s.portAt 2 = x ∧ (s.parts.listed 1).map Part.st = some .run ∧ x.enable = true ∧ ((port x .stopped).parts.listed 1).map Part.st = some .stopped ∧
      (s.queueAt 3).part = 1 ∧ (s.queueAt 3).kind = 0 ∧ (s.queueAt 3).hostp = false ∧ (s.queueAt 3).bin = false ∧ (s.queueAt 4).part ≠ 1) ∧
    ((y.coreAt p).cstate = .running ∧ (y.coreAt p).pending = [] ∧ (y.coreAt p).unacked = [] ∧ (y.coreAt p).drain = none ∧ (y.coreAt p).interval = none ∧ (y.coreAt p).tabRun = none ∧ (y.coreAt p).retiredIn = 0 ∧
      (y.coreAt p).pair.pstate = .unpaired ∧ (y.coreAt p).gang.fused = false ∧ (y.coreAt p).waiting = none ∧ y.waits = [] ∧
      ∀ j, j < 4 → j ≠ 1 → (y.coreAt (gatewayCore 2 j)).cstate ≠ .running) ∧
    (∀ n ∈ [63, 64], let c := { core p with inbox := List.replicate n ⟨.msg, [], 0, 0⟩ }
      let u := { port (lanes 1) .run with others := [(p, c)] };
      ((u.portAt 2).lanes.look (fun _ => []) 1 = [m]) ∧ (u.coreAt p).inbox.length = n ∧ (u.coreAt p).cstate ≠ .killed ∧ (u.coreAt p).cstate ≠ .evicted ∧
      (u.coreAt p).pair.pstate = .unpaired ∧ (u.coreAt p).fpWait = none ∧ u.away 1 p = false) ∧
    (∀ n ∈ [63, 64], ((lanes n).lanes.look (fun _ => []) 1).length = n ∧ (lanes n).part ≠ 0) ∧
    ({ x with popped := some (some 7, m), enable := false }.enable = false ∧ (let f := { x with popped := some (none, m), lanes := [(0, List.replicate 64 m)] }; f.popped = some (none, m) ∧
        64 ≤ (f.lanes.look (fun _ => []) (m.bidx % 4)).length) ∧
      x.popped = none ∧ q.seg = e :: [] ∧ (q.tail + 2 ^ 64 - q.head) % 2 ^ 64 ≠ 0 ∧ s.heldq = [] ∧ s.hold = true ∧ e.words.length = 8) ∧
    (∀ z ∈ [(0x8000, true, true, false), (0, true, false, false), (5, true, false, true), (288, true, false, false), (0x200, false, false, false)],
      let route : Nat := z.1
      let entry := (wordsAt (0x8000 + 8) [0x8007 * 2 ^ 16] s).numAt (x.peermap + 2 * (route % 512)) 2
      ((route / 2 ^ 9 % 2 ^ 6 = 0 ∧ route < 2 ^ 16) ↔ z.2.1 = true) ∧ (2 ^ 15 ≤ route ↔ z.2.2.1 = true) ∧
      ((route < 288 ∧ entry.testBit 15 = true ∧ x.link = 2) ↔ z.2.2.2 = true)) ∧
    (0 ∉ x.marks ∧ 0 ∈ ({ x with marks := [0] } : KPort).marks) ∧
    ((∀ p ∈ s.coresOf 1, (s.coreAt p).cstate = .idle) ∧ s.tiles = [] ∧ SMap.wf (fun _ => KPort.reset) s.ports = true ∧
      SMap.wf (fun _ => Queue.reset) s.queues = true ∧ (List.replicate 576 (0 : Byte)).length = 576 ∧ (port x .stopped).ports = [(2, x)]) ∧
    (let z := { y with endpoint := true, others := [(p, { core p with part := 1, tabRun := some ⟨1, Cap.null, Cap.null, 0, 1⟩ })] };
      z.endpoint = true ∧ (z.coreAt p).cstate = .running ∧ (z.coreAt p).interval = none ∧ (z.coreAt p).tabRun ≠ none ∧
        (z.coreAt p).pair.pstate = .unpaired ∧ ∀ j, j < 4 → j ≠ 1 → (z.coreAt (gatewayCore 2 j)).cstate ≠ .running) ∧
    (∀ l ∈ [1, 2], let f := { x with popped := some (some 7, m), enable := false, link := l }
      f.popped = some (some 7, m) ∧ f.enable = false ∧ (f.link ≠ 2 ↔ l = 1)) ∧
    (65 % 128 ≠ 0 ∧ ∀ j ∈ portCores 2, (s.coreAt j).cstate ≠ .running) ∧
    (∀ ls ∈ [[], [(2, 1, bytesOf 8 7, 3)], [(3, 1, bytesOf 8 7, 3)]],
      (ls.filter (fun l : Nat × Nat × List Byte × Nat => decide (l.1 = 2)) = [] ↔ ls ≠ [(2, 1, bytesOf 8 7, 3)])) := by
  refine ⟨by decide +kernel, by decide +kernel, fun n hn => ?_, fun n hn => ?_, by decide +kernel, by decide +kernel, by decide, by decide +kernel, by decide +kernel, by decide, by decide +kernel, by decide +kernel⟩
  · fin_cases hn <;> decide +kernel
  · fin_cases hn <;> decide +kernel

/-- Well-formed instructions of each length with fields, words that decode, and an event that has none. -/
theorem witness_EncodeThenDecode :
    (∀ i ∈ [Instr.addi w (.w 2) (.w 2) (-1), .addi w (.w 0) (.w 31) 511, .addi w (.w 0) (.w 0) (-512), .logt x3 (.w 4) (.w 1) (.w 2) (.w 3) 0xE8,
        .qpop ws (.w 8) (.w 10)], i.wf = true ∧ i.fields ≠ none) ∧
    (∀ z ∈ [0xFFC20880, 0x00010138], z < 2 ^ 32 ∧ decodes [z, 7] = true) ∧ (Instr.bankFlip 0).fields = none := by
  refine ⟨fun i hi => ?_, by decide, by decide⟩
  fin_cases hi <;> decide

/-- A plain core before ADDI, before a word that is no instruction, at a PC that is not aligned and under a PCC without its tag; an agenda. -/
theorem witness_StepRunsDecoded :
    let at_ := fun word : Nat => wordsAt (lsBase 0 + 0x1000) [word] plain
    let c := (at_ 0).core
    (∀ s ∈ [at_ 0xFFC20880, at_ 0x000003F8, at_ 0x700A23EC, on { c with pc := c.pc + 2 }, on { c with pcc := { c.pcc with tag := false } }],
      s.agenda = [] ∧ (s.clock + 1) % 64 ≠ 0 ∧ Alone s ∧ s.core.issues = true ∧ s.core.stalled = false ∧ s.core.rep = none ∧ s.core.drain = none ∧ s.core.ptimer = 0 ∧
      s.core.pending = [] ∧ s.core.trapDue = none ∧ s.core.fpWait = none ∧ s.core.fpEvent = none ∧ s.core.owed = [] ∧ s.core.pair.pstate = .unpaired ∧
      firstDue s.core = none) ∧
    (∀ z ∈ [0xFFC20880, 0x000003F8, 0x700A23EC], let line := c.pc.toNat / 64 * 64
      let n := wordLength ((at_ z).numAt (lsBase 0 + 0x1000) 4);
      c.ibuf = [] ∧ (at_ z).reach c (BitVec.ofNat 64 line) 64 = some (0, 0x1000) ∧ (at_ z).portOpen (fetchSrc 0) 0 0x1000 64 (write := false) = true ∧ ((at_ z).coreAt 0).portq = [] ∧
      ((at_ z).coreAt 0).cstate ≠ .killed ∧ line = c.pc.toNat ∧ n = 4 ∧ c.pc.toNat % 4 = 0 ∧ c.pcc.tag = true ∧ c.pcc.otype = 0 ∧
      c.pcc.perm.getLsbD 2 = true ∧ c.pcc.base ≤ c.pc.toNat ∧ (c.pc.toNat : Int) + n ≤ c.pcc.top ∧ c.pc.toNat + n ≤ line + 64 ∧
      (at_ z).reach c c.pc n ≠ none ∧ reads (wordsOfBytes ((at_ z).bytesAt (lsBase 0 + 0x1000) n)) (.addi w (.w 2) (.w 2) (-1)) = decide (z = 0xFFC20880) ∧
      decodes (wordsOfBytes ((at_ z).bytesAt (lsBase 0 + 0x1000) n)) = decide (z ≠ 0x000003F8)) ∧
    ((Instr.addi w (.w 2) (.w 2) (-1)).hd = some w ∧ engineStalls (.addi w (.w 2) (.w 2) (-1)) c = false ∧ c.markerReady = true ∧
      (at_ 0x700A23EC).sweepOf c = none ∧ (Instr.qpop ws (.w 8) (.w 10)).hd = some ws ∧ engineStalls (.qpop ws (.w 8) (.w 10)) c = false) ∧
    (∀ k ∈ [{ c with drain := some (0, 1) }, { c with fpWait := some 3 }], let s := on k
      s.agenda = [] ∧ (s.clock + 1) % 64 ≠ 0 ∧ Alone s ∧ k.issues = true ∧ k.stalled = false ∧ k.ptimer = 0 ∧ k.pending = [] ∧ k.trapDue = none ∧ k.owed = [] ∧
      k.pair.pstate = .unpaired ∧ firstDue k = none ∧ k.fpReply = none ∧ (k.drain = some (0, 1) ∨ k.drain = none ∧ k.fpWait = some 3)) ∧
    (c.pc + 2).toNat % 4 ≠ 0 ∧ ({ plain with agenda := [.event (.bankFlip 0), .core 1] } : State).agenda = .event (.bankFlip 0) :: [.core 1] := by
  refine ⟨fun s hs => ?_, fun z hz => ?_, by decide +kernel, fun k hk => ?_, by decide, rfl⟩
  · fin_cases hs <;> exact ⟨rfl, by decide, ⟨rfl, rfl⟩, by decide, rfl, rfl, rfl, rfl, rfl, rfl, rfl, rfl, rfl, rfl, by decide⟩
  · fin_cases hz <;> decide +kernel
  · fin_cases hk <;> exact ⟨rfl, by decide, ⟨rfl, rfl⟩, by decide, rfl, rfl, rfl, rfl, rfl, rfl, by decide, rfl, by decide⟩

/-- A state whose memory, labels and tags are not empty, and that steps. -/
theorem witness_MemoryWfKept :
    let s := { wordsAt (lsBase 0 + 0x1000) [0xFFC20880] plain with labels := [(5, 3)], tags := [(9, true)] }
    MemoryWf s ∧ (nextOf (step s)).isSome = true := by
  exact ⟨⟨by decide +kernel, by decide, by decide⟩, by decide +kernel⟩


/-! ### Single steps and values, as the chapters of the spec work them out. -/

/-- Two words and an instruction of them. -/
def two (x y : Word) : State := on (reg 2 y (reg 1 x (core 0)))

theorem test_add_wraps : now (.add w (.w 3) (.w 1) (.w 2)) (two 0xFFFFFFFFFFFFFFFF 2) 3 = some 1 := by decide +kernel

/-- Chapter 7, after R156: the high halves of the product of all ones with itself. -/
theorem test_mulh : now (.mulh w (.w 3) (.w 1) (.w 2)) (two 0xFFFFFFFFFFFFFFFF 0xFFFFFFFFFFFFFFFF) 3 = some 0 := by decide +kernel
theorem test_mulhz : now (.mulhz w (.w 3) (.w 1) (.w 2)) (two 0xFFFFFFFFFFFFFFFF 0xFFFFFFFFFFFFFFFF) 3 = some 0xFFFFFFFFFFFFFFFE := by
  decide +kernel

/-- Chapter 7, at R157: −7 DIV 2 is −3 and −7 REM 2 is −1. -/
theorem test_div : landed (.div w (.w 3) (.w 1) (.w 2)) (two (-7) 2) 3 = some (-3) := by decide +kernel
theorem test_rem : landed (.rem w (.w 3) (.w 1) (.w 2)) (two (-7) 2) 3 = some (-1) := by decide +kernel
theorem test_div_zero : landed (.div w (.w 3) (.w 1) (.w 2)) (two 5 0) 3 = some 0xFFFFFFFFFFFFFFFF := by decide +kernel

/-- Chapter 7, at R161. -/
theorem test_fshl : now (.fshl x3 (.w 3) (.w 1) (.w 2) (.w 4)) (on (reg 4 4 (two 0x8000000000000001 0xF000000000000000).core)) 3 = some 0x1F := by
  decide +kernel
theorem test_fshr : now (.fshr x3 (.w 3) (.w 1) (.w 2) (.w 4)) (on (reg 4 4 (two 0x8000000000000001 0xF000000000000000).core)) 3 =
    some 0x1F00000000000000 := by decide +kernel

/-- A byte with its top bit set, loaded with each extension (chapter 9). -/
theorem test_ld_s8 : landed (.ldS8 w (.w 3) (.w 4) 0) (wordsAt (lsBase 0 + 0x1000) [0x80] (on (cap 4 (own 0x1000) (core 0)))) 3 =
    some 0xFFFFFFFFFFFFFF80 := by decide +kernel
theorem test_ld_z8 : landed (.ldZ8 w (.w 3) (.w 4) 0) (wordsAt (lsBase 0 + 0x1000) [0x80] (on (cap 4 (own 0x1000) (core 0)))) 3 =
    some 0x80 := by decide +kernel

/-- Chapter 5, after R91: two capabilities decoded. -/
def decoded (addr : Word) (b t : BitVec 18) : Cap := { Cap.null with addr := addr, b := b, t := t, tag := true }
theorem test_bounds : (decoded 0xFFF8000000001100 0x01040 0x01428).base = 0xFFF8000000001040 ∧
    (decoded 0xFFF8000000001100 0x01040 0x01428).top = 0xFFF8000000001428 := by decide +kernel
theorem test_bounds_across : (decoded 0xFFF8000000040080 0x3FF00 0x00100).base = 0xFFF800000003FF00 ∧
    (decoded 0xFFF8000000040080 0x3FF00 0x00100).top = 0xFFF8000000040100 := by decide +kernel

/-- Chapter 1, after R7: where core 0xC22 stands. -/
theorem test_chip_index : chipIndex 0xC22 = 2055 ∧ tilePos 0xC22 = 6 := by decide +kernel

/-- Chapter 6, after R136: sixteen values quantised to KB4, and the flags that it raises. -/
def quantised : Option State :=
  let xs := [0x40400000, 0xBFA00000, 0x3F000000, 0, 0x3E400000, 0xBDC00000, 0x40D00000, 0x40000000]
  let c := (List.range 4).foldl (fun c i => reg (16 + i) (BitVec.ofNat 64 (xs.getD (2 * i) 0 + xs.getD (2 * i + 1) 0 * 2 ^ 32)) c) (core 0)
  nextOf (exec (.vquant x3 (.w 8) (.w 16) .kb4) (on c))

theorem test_quantise : quantised.map (fun t => ((t.core.landReady.rd (.w 8)).v, (t.core.landReady.rd (.w 9)).v)) =
    some (0x002340000AACF181, 0) := by decide +kernel

/-- Chapter 8, after R200: two KB4 blocks added on a gateway core. -/
theorem test_vbaddq : landed (.vbaddq x3 (.w 8) (.w 16) (.w 20) .kb4)
    (on (reg 20 0x002108421084F580 (reg 16 0x002340000AACF181 (core 0x2000)))) 8 = some 0x002B8211126EF181 := by decide +kernel

/-- Chapter 26, after R474: the header of a dump. -/
theorem test_dump_header :
    let c := { core 0xC22 with lens := Cap.lens 63 111 64, part := 3 }
    let s := { on (c.putEnt 68 ⟨7, 2⟩) with parts := [(3, { part1 with base := 2048 })], clock := 0x12345678 }
    let d := s.dumpHeader 0xC22 1 0x20040 0
    ofBytes (d.take 8) = 0x0001000300070C22 ∧ ofBytes ((d.drop 8).take 8) = 0x12345678 ∧ ofBytes ((d.drop 16).take 8) = 0x0002006F0040003F ∧
      ofBytes ((d.drop 48).take 8) = 0x02004001 := by decide +kernel

end Sys2Proof.Tests
end

section
/-! SUPPORT. Laws of the events of one core (O38): the cores by number, memory and lists that the effects below go through, then each
effect on the state seen from its core, then the event as that effect. -/

namespace Sys2Proof.Machine

open Sys2Proof

/-! ### The cores by number -/

theorem coreAt_current {s : State} {p : Nat} (h : s.core.phys = p) : s.coreAt p = s.core := by
  unfold State.coreAt; rw [if_pos h.symm]

theorem setCoreAt_current {s : State} {p : Nat} (h : s.core.phys = p) (c : Core) :
    s.setCoreAt p c = { s with core := c } := by
  unfold State.setCoreAt; rw [if_pos h.symm]

theorem onCore_current {s : State} {p : Nat} (h : s.core.phys = p) (f : Core → Core) : s.onCore p f = s.mapCore f := by
  unfold State.onCore; rw [setCoreAt_current h, coreAt_current h]; rfl

theorem onCore_core (s : State) (p : Nat) (f : Core → Core) :
    (s.onCore p f).core = if p = s.core.phys then f s.core else s.core := by
  unfold State.onCore State.setCoreAt State.coreAt; split <;> rfl

/-- A change that keeps the core's number changes that core and no other. -/
theorem coreAt_onCore_keeps {f : Core → Core} (hf : ∀ c, (f c).phys = c.phys) (s : State) (p q : Nat) :
    (s.onCore p f).coreAt q = if q = p then f (s.coreAt p) else s.coreAt q := by
  by_cases hp : s.core.phys = p
  · exact coreAt_onCore s p q f (by rw [hf, coreAt_current hp, hp])
  · have hp' : ¬ p = s.core.phys := fun h => hp h.symm
    unfold State.onCore State.setCoreAt
    rw [if_neg hp']
    unfold State.coreAt
    by_cases hq : q = p
    · simp [hq, hp']
    · simp [hq]

/-- A state that differs from another one in its current core alone has the other cores that it had. -/
theorem coreAt_withCore {s : State} {c : Core} (h : c.phys = s.core.phys) (q : Nat) :
    State.coreAt { s with core := c } q = if q = s.core.phys then c else s.coreAt q := by
  unfold State.coreAt
  by_cases hq : q = s.core.phys <;> simp [hq, h]

/-- What a change of the current core leaves of it, it leaves of every core. -/
theorem mapCore_keeps {α : Type} {f : Core → Core} (g : Core → α) (hf : ∀ c, (f c).phys = c.phys) (hg : ∀ c, g (f c) = g c)
    (s : State) (q : Nat) : g ((s.mapCore f).coreAt q) = g (s.coreAt q) := by
  rw [State.mapCore, coreAt_withCore (hf _)]
  split
  · rename_i h; rw [hg, coreAt_current h.symm]
  · rfl

@[simp] theorem partDone_phys (hold : Bool) (id : Nat) (c : Core) : (Core.partDone hold id c).phys = c.phys := by
  rw [partDone_frame]

/-- While acknowledgements wait for their events, a part that is performed counts down and no access leaves the list (R207). -/
theorem partDone_hold (id : Nat) (c : Core) : Core.partDone true id c =
    { c with unacked := c.unacked.map (fun u => if u.id = id then { u with left := u.left - 1 } else u) } := rfl

theorem drain_nil {s : State} {o : Nat} (h : (s.coreAt o).portq = []) : s.drain o = s := by
  simp [State.drain, h, State.drainPort]

/-! ### What is on its way behind entries that differ from it -/

theorem dropFirst_append {α : Type} [DecidableEq α] (x : α) (before rest : List α) (h : ∀ y ∈ before, y ≠ x) :
    dropFirst x (before ++ x :: rest) = before ++ rest := by
  induction before with
  | nil => simp [dropFirst]
  | cons y ys ih =>
    have hy : y ≠ x := h y List.mem_cons_self
    simp [dropFirst, hy, ih (fun z hz => h z (List.mem_cons_of_mem _ hz))]

theorem nthFlight_zero {p : Nat} {before rest : List Flight} {f : Flight} (hb : ∀ x ∈ before, x.dst ≠ p) (hf : f.dst = p) :
    nthFlight p 0 (before ++ f :: rest) = some f := by
  have h0 : before.filter (fun g => decide (g.dst = p)) = [] := List.filter_eq_nil_iff.2 (fun x hx => by simpa using hb x hx)
  simp [nthFlight, List.filter_append, h0, hf]

/-! ### Maps without a range, bytes of a word -/

theorem SMap.listed_filter {β : Type} (m : SMap β) (P : Nat → Bool) (k : Nat) :
    SMap.listed (m.filter (fun e => P e.1)) k = if P k = true then SMap.listed m k else none := by
  induction m with
  | nil => simp [SMap.listed]
  | cons e rest ih =>
    obtain ⟨j, v⟩ := e
    by_cases hj : j = k
    · subst hj; by_cases hP : P j = true <;> simp_all [SMap.listed]
    · by_cases hP : P j = true <;> simp_all [SMap.listed]

/-- What a key reads after a range is cleared. -/
theorem SMap.look_clearRange {β : Type} (d : Nat → β) (m : SMap β) (lo hi k : Nat) :
    SMap.look d (SMap.clearRange m lo hi) k = if lo ≤ k ∧ k < hi then d k else SMap.look d m k := by
  unfold SMap.look SMap.clearRange
  rw [SMap.listed_filter m (fun j => !(decide (lo ≤ j) && decide (j < hi)))]
  by_cases h : lo ≤ k ∧ k < hi
  · simp [h]
  · rw [if_neg h, if_pos]; simp only [Bool.not_eq_true', Bool.and_eq_false_iff, decide_eq_false_iff_not]; omega

theorem byteAt_zeroRange (s : State) (a n y : Nat) :
    (s.zeroRange a n).byteAt y = if a ≤ y ∧ y < a + n then 0 else s.byteAt y := SMap.look_clearRange _ _ _ _ _

theorem labelAt_zeroRange {s : State} {a n : Nat} (ha : a % 64 = 0) (hn : n % 64 = 0) (y : Nat) :
    (s.zeroRange a n).labelAt y = if a ≤ y ∧ y < a + n then 0 else s.labelAt y := by
  have e : (a / 64 ≤ y / 64 ∧ y / 64 < (a + n) / 64) ↔ (a ≤ y ∧ y < a + n) := by omega
  exact (SMap.look_clearRange _ _ _ _ _).trans (if_congr e rfl rfl)

theorem memTagAt_zeroRange {s : State} {a n : Nat} (ha : a % 16 = 0) (hn : n % 16 = 0) (y : Nat) :
    (s.zeroRange a n).memTagAt y = if a ≤ y ∧ y < a + n then false else s.memTagAt y := by
  have e : (a / 16 ≤ y / 16 ∧ y / 16 < (a + n) / 16) ↔ (a ≤ y ∧ y < a + n) := by omega
  exact (SMap.look_clearRange _ _ _ _ _).trans (if_congr e rfl rfl)

theorem lsBase_aligned (p : Nat) : lsBase p % 64 = 0 := by
  unfold lsBase; split <;> omega

@[simp] theorem length_bytesOf (n v : Nat) : (bytesOf n v).length = n := by
  induction n generalizing v with
  | zero => rfl
  | succ n ih => simp [bytesOf, ih]

theorem ofBytes_bytesOf (n v : Nat) : ofBytes (bytesOf n v) = v % 256 ^ n := by
  induction n generalizing v with
  | zero => simp [bytesOf, ofBytes, Nat.mod_one]
  | succ n ih => rw [Nat.pow_succ', Nat.mod_mul]; simp [bytesOf, ofBytes, ih]

theorem bytesAt_eq {s : State} {a : Nat} {bs : List Byte} (h : ∀ y, y < bs.length → s.byteAt (a + y) = bs.getD y 0) :
    s.bytesAt a bs.length = bs := by
  induction bs generalizing a with
  | nil => rfl
  | cons b bs ih =>
    have h0 : s.byteAt a = b := by simpa using h 0 (by simp)
    have hs : s.bytesAt (a + 1) bs.length = bs := ih (fun y hy => by
      simpa [Nat.add_assoc, Nat.add_comm 1 y] using h (y + 1) (by simpa using hy))
    exact congrArg₂ List.cons h0 hs

/-- Eight bytes that are those of a word say the word. -/
theorem numAt_word {s : State} {a : Nat} {v : Word} (h : ∀ y, y < 8 → s.byteAt (a + y) = (bytesOf 8 v.toNat).getD y 0) :
    s.numAt a 8 = v.toNat := by
  have e := bytesAt_eq (bs := bytesOf 8 v.toNat) (s := s) (a := a) (by simpa using h)
  rw [length_bytesOf] at e
  rw [State.numAt, e, ofBytes_bytesOf]
  exact Nat.mod_eq_of_lt v.isLt

/-- The upper word of a capability made of two words (R85, R86). -/
@[simp] theorem Cap.ofWords_hi (lo hi : Word) (tag : Bool) : (Cap.ofWords lo hi tag).hi = hi := by
  simp only [Cap.hi, Cap.ofWords]
  iterate 6 rw [BitVec.extractLsb'_append_extractLsb'_eq_extractLsb' (by omega)]
  exact BitVec.extractLsb'_eq_self

/-! ### Fetch (R14) -/

/-- A line that is not in the buffer, while there is room, is read at its port and kept behind the others. -/
theorem fetchLine_kept {s : State} {line o off : Nat} (hnew : ∀ e ∈ s.core.ibuf, e.1 ≠ line) (hroom : s.core.ibuf.length < 128)
    (hreach : s.reach s.core (BitVec.ofNat 64 line) 64 = some (o, off))
    (hport : s.portOpen (fetchSrc s.core.phys) o off 64 false = true)
    (hsrc : ∀ a ∈ (s.coreAt o).portq, a.src ≠ fetchSrc s.core.phys) (hlive : (s.coreAt o).cstate ≠ .killed) :
    (s.fetchLine line).1 =
      { s with core := { s.core with ibuf := s.core.ibuf ++ [(line, s.bytesAt (lsBase o + off) 64)] } } := by
  have hfind : s.core.ibuf.find? (fun e => decide (e.1 = line)) = none := List.find?_eq_none.2 (by simpa using hnew)
  have hleave : s.portLeave o (fetchSrc s.core.phys) = s := by
    unfold State.portLeave; rw [if_neg]; simpa using hsrc
  have hfull : ¬ 128 ≤ s.core.ibuf.length := by omega
  simp [State.fetchLine, hfind, hreach, hport, hleave, hlive, hfull]

/-! ### Late writes (R48, R49, R181) -/

/-- Without an interval and without flags, the end of a late write raises nothing. -/
theorem landFlags_none {c : Core} {w : Pending} (hi : c.interval = none) (hf : w.flags = 0) : c.landFlags w = c := by
  simp [Core.landFlags, Core.fillStream, hf, hi]

theorem forget_split {c : Core} {before rest : List Pending} {w : Pending} (hp : c.pending = before ++ w :: rest)
    (hother : ∀ x ∈ before ++ rest, x.id ≠ w.id) :
    c.forget w.id = { c with pending := before ++ rest, xwait := c.xwait.filter (fun x => decide (x.id ≠ w.id)) } := by
  have keep : ∀ l : List Pending, (∀ x ∈ l, x.id ≠ w.id) → l.filter (fun x => decide (x.id ≠ w.id)) = l := fun l h =>
    List.filter_eq_self.2 (by simpa using h)
  simp only [Core.forget, hp, List.filter_append, List.filter_cons]
  rw [keep _ (fun x hx => hother x (List.mem_append_left _ hx)), keep _ (fun x hx => hother x (List.mem_append_right _ hx))]
  simp

/-- The only place of a late write lands, and the write is over. -/
theorem landPlace_only {c : Core} {w : Pending} {e : Nat} {v hi : Word} {tag : Bool} {l : Label} (k : Nat) (hn : c.interval = none)
    (hf : w.flags = 0) (hw : w.writes = [⟨.entry e, v, hi, tag, l⟩]) :
    c.landPlace w k = (c.forget w.id).putEnt e ⟨v, l⟩ := by
  have hland : c.land w = (c.forget w.id).putEnt e ⟨v, l⟩ := by
    simp only [Core.land, hw, List.foldl_cons, List.foldl_nil, Core.landOne, Core.setTgt]
    exact landFlags_none (by simpa [Core.forget] using hn) hf
  have hgone : Tgt.real (Tgt.gone (.entry e)) = false := rfl
  unfold Core.landPlace
  cases w.joint with
  | true => exact hland
  | false =>
    cases k with
    | succ k => simpa [hw] using hland
    | zero =>
      simp only [hw, Bool.false_eq_true, if_false, List.getElem?_cons_zero, List.set_cons_zero, List.any_cons, hgone, List.any_nil,
        Bool.or_self]
      exact landFlags_none (by simpa [Core.forget, Core.landOne, Core.setTgt] using hn) hf

/-- One place of a late write lands while another one is left: the write waits on, without it. -/
theorem landPlace_one {c : Core} {w : Pending} {before rest : List Pending} {e k j : Nat} {v hi : Word} {tag : Bool} {l : Label}
    {x : TWrite} (hp : c.pending = before ++ w :: rest) (hother : ∀ y ∈ before ++ rest, y.id ≠ w.id) (hj : w.joint = false)
    (hk : w.writes[k]? = some ⟨.entry e, v, hi, tag, l⟩) (hne : j ≠ k) (hx : w.writes[j]? = some x) (hr : x.tgt.real = true) :
    c.landPlace w k = { c.putEnt e ⟨v, l⟩ with
      pending := before ++ { w with writes := w.writes.set k ⟨.nowhere, v, hi, tag, l⟩ } :: rest } := by
  have hleft : (w.writes.set k ⟨.nowhere, v, hi, tag, l⟩).any (fun y => y.tgt.real) = true :=
    List.any_eq_true.2 ⟨x, List.mem_of_getElem? (by rw [List.getElem?_set_ne (Ne.symm hne), hx]), hr⟩
  have keep : ∀ (q : Pending) (ys : List Pending), (∀ y ∈ ys, y.id ≠ w.id) →
      ys.map (fun y => if y.id = w.id then q else y) = ys := fun q ys h =>
    (List.map_congr_left (fun y hy => if_neg (h y hy))).trans (List.map_id' ys)
  simp only [Core.landPlace, hj, hk, Bool.false_eq_true, if_false, Tgt.gone, hleft, if_true, Core.landOne, Core.setTgt,
    Core.putEnt_pending, hp, List.map_append, List.map_cons]
  rw [keep _ _ (fun y hy => hother y (List.mem_append_left _ hy)), keep _ _ (fun y hy => hother y (List.mem_append_right _ hy))]

/-- Place `k` of a late write, ready to land, is an entry: the entry takes its value, its pair loses the tag, and the write is over, or
waits on for another place that is left. -/
theorem landPlace_entry {c : Core} {w : Pending} {before rest : List Pending} (hp : c.pending = before ++ w :: rest)
    (hother : ∀ y ∈ before ++ rest, y.id ≠ w.id) (hn : c.interval = none) (hf : w.flags = 0) (k e : Nat) (v hi : Word) (tag : Bool)
    (l : Label) : ∃ c' : Core, c'.ent e = ⟨v, l⟩ ∧ (∀ x, x ≠ e → c'.ent x = c.ent x) ∧
      (∀ x, c'.tagAt x = if x / 2 = e / 2 then false else c.tagAt x) ∧
      (w.writes = [⟨.entry e, v, hi, tag, l⟩] → c.landPlace w k = c' ∧
        c' = { c with regs := c'.regs, tags := c'.tags, pending := before ++ rest, xwait := c'.xwait }) ∧
      (w.joint = false → w.writes[k]? = some ⟨.entry e, v, hi, tag, l⟩ →
        (∃ j x, j ≠ k ∧ w.writes[j]? = some x ∧ x.tgt.real = true) → c.landPlace w k = c' ∧
        c' = { c with
          regs := c'.regs, tags := c'.tags
          pending := before ++ { w with writes := w.writes.set k ⟨.nowhere, v, hi, tag, l⟩ } :: rest }) := by
  have hent : (c.putEnt e ⟨v, l⟩).ent e = ⟨v, l⟩ := by simp
  have hents : ∀ x, x ≠ e → (c.putEnt e ⟨v, l⟩).ent x = c.ent x := fun x hx => by simp [hx]
  by_cases hw : w.writes = [⟨.entry e, v, hi, tag, l⟩]
  · refine ⟨(c.forget w.id).putEnt e ⟨v, l⟩, hent, hents, Core.putEnt_tagAt _ _ _,
      fun _ => ⟨landPlace_only k hn hf hw, ?_⟩, ?_⟩
    · rw [forget_split hp hother]; rfl
    · rintro - hk ⟨j, x, hne, hx, -⟩
      have hk1 := (List.getElem?_eq_some_iff.1 hk).1
      have hj1 := (List.getElem?_eq_some_iff.1 hx).1
      rw [hw, List.length_singleton] at hk1 hj1
      omega
  · exact ⟨{ c.putEnt e ⟨v, l⟩ with pending := before ++ { w with writes := w.writes.set k ⟨.nowhere, v, hi, tag, l⟩ } :: rest },
      hent, hents, Core.putEnt_tagAt c e ⟨v, l⟩, fun h => absurd h hw,
      fun hj hk ⟨j, x, hne, hx, hr⟩ => ⟨landPlace_one hp hother hj hk hne hx hr, rfl⟩⟩

/-! ### The spill engine: moves and fills (R61, R66, R67, R83) -/

/-- The `n` entries of `c` from `dst` up have taken the values of `val`, and nothing else of the core has changed but tags. -/
structure EntriesPut (val : Nat → LVal) (dst n : Nat) (c c' : Core) : Prop where
  like : c' = { c with regs := c'.regs, tags := c'.tags }
  value : ∀ i, i < n → c'.ent (dst + i) = val i
  entries : ∀ x, x < dst ∨ dst + n ≤ x → c'.ent x = c.ent x

theorem EntriesPut.none (val : Nat → LVal) (dst : Nat) (c : Core) : EntriesPut val dst 0 c c :=
  ⟨rfl, fun _ h => absurd h (Nat.not_lt_zero _), fun _ _ => rfl⟩

/-- The next entry is written. -/
theorem EntriesPut.next {val : Nat → LVal} {dst n : Nat} {c c' c'' : Core} (h : EntriesPut val dst n c c')
    (hlike : c'' = { c' with regs := c''.regs, tags := c''.tags })
    (hent : ∀ x, c''.ent x = if x = dst + n then val n else c'.ent x) : EntriesPut val dst (n + 1) c c'' := by
  refine ⟨?_, fun i hi => ?_, fun x hx => ?_⟩
  · rw [h.like] at hlike; exact hlike
  · rw [hent]
    by_cases hin : i = n
    · rw [hin, if_pos rfl]
    · rw [if_neg (by omega)]; exact h.value i (by omega)
  · rw [hent, if_neg (by omega)]; exact h.entries x (by omega)

/-- The tags change, and no entry. -/
theorem EntriesPut.retag {val : Nat → LVal} {dst n : Nat} {c c' c'' : Core} (h : EntriesPut val dst n c c')
    (hlike : c'' = { c' with tags := c''.tags }) : EntriesPut val dst n c c'' := by
  have hent : ∀ x, c''.ent x = c'.ent x := fun x => by rw [hlike]; rfl
  refine ⟨?_, fun i hi => (hent _).trans (h.value i hi), fun x hx => (hent x).trans (h.entries x hx)⟩
  rw [h.like] at hlike; rw [hlike]

theorem EntriesPut.interval {val : Nat → LVal} {dst n : Nat} {c c' : Core} (h : EntriesPut val dst n c c') :
    c'.interval = c.interval := by rw [h.like]

/-- An entry written on a core without an interval leaves no note. -/
theorem putEnt_noted {c : Core} (hi : c.interval = none) (e : Nat) (v w : LVal) :
    ((c.putEnt e v).noteVal w).noteEntry e = c.putEnt e v := by
  rw [Core.noteVal_alone (by simpa using hi), Core.noteEntry_alone (by simpa using hi)]

/-- Changes of tags one after another change tags alone. -/
theorem foldl_tags {α : Type} {f : Core → α → Core} (hf : ∀ c x, f c x = { c with tags := (f c x).tags }) (xs : List α)
    (c : Core) : xs.foldl f c = { c with tags := (xs.foldl f c).tags } := by
  induction xs generalizing c with
  | nil => rfl
  | cons x xs ih => rw [List.foldl_cons, ih, hf]

/-- Entries written one after another from `dst` up. -/
theorem putEntries_put (val : Nat → LVal) (dst n : Nat) {c : Core} (hi : c.interval = none) : EntriesPut val dst n c
    ((List.range n).foldl (fun b i => ((b.putEnt (dst + i) (val i)).noteVal (val i)).noteEntry (dst + i)) c) := by
  induction n with
  | zero => exact .none _ _ _
  | succ n ih =>
    rw [List.range_succ, List.foldl_append, List.foldl_cons, List.foldl_nil, putEnt_noted (by rw [ih.interval, hi])]
    exact ih.next rfl (Core.putEnt_ent _ _ _)

/-- A move gives each entry of its destination what the source's entry held before it (R83). -/
theorem moveEntries_put {c : Core} (hi : c.interval = none) (src dst n lo : Nat) :
    EntriesPut (fun i => entryVal lo (dst + i) (c.ent (src + i))) dst n c (c.moveEntries src dst n lo) :=
  (putEntries_put (fun i => entryVal lo (dst + i) (c.ent (src + i))) dst n hi).retag
    (foldl_tags (fun b i => by split <;> rfl) _ _)

/-- One entry of a fill, read from a store whose core is not killed. -/
theorem fillEntry_put {s : State} {p : Nat} (hp : s.core.phys = p) (hi : s.core.interval = none) {o : Nat}
    (hlive : (s.coreAt o).cstate ≠ .killed) (off e n lo x : Nat) (keep : Bool) : ∃ c',
      s.fillEntry p o off e n lo x keep = { s with core := c' } ∧ c' = { s.core with regs := c'.regs, tags := c'.tags } ∧
      ∀ y, c'.ent y = if y = x then
        entryVal lo x ⟨BitVec.ofNat 64 (s.numAt (lsBase o + off + 8 * (x - imageFirst e)) 8),
          s.labelAt (lsBase o + off + 8 * (x - imageFirst e))⟩ else s.core.ent y := by
  unfold State.fillEntry
  simp only [coreAt_current hp, setCoreAt_current hp, hlive, decide_false, Bool.false_eq_true, if_false, putEnt_noted hi]
  split
  · exact ⟨_, rfl, rfl, Core.putEnt_ent _ _ _⟩
  · exact ⟨_, rfl, rfl, Core.putEnt_ent _ _ _⟩

/-- The value that a fill gives to the `i`-th entry of its range (R67). -/
def filledWith (s : State) (o off e lo i : Nat) : LVal :=
  let a := lsBase o + off + 8 * (e + i - imageFirst e)
  entryVal lo (e + i) ⟨BitVec.ofNat 64 (s.numAt a 8), s.labelAt a⟩

theorem fillImage_put {s : State} {p : Nat} (hp : s.core.phys = p) (hi : s.core.interval = none) {o : Nat}
    (hlive : (s.coreAt o).cstate ≠ .killed) (off e n lo : Nat) (keep : Bool) : ∃ c',
      s.fillImage p o off e n lo keep = { s with core := c' } ∧ EntriesPut (filledWith s o off e lo) e n s.core c' := by
  unfold State.fillImage
  suffices ∀ m, ∃ c', (List.range m).foldl (fun t i => t.fillEntry p o off e n lo (e + i) keep) s = { s with core := c' } ∧
      EntriesPut (filledWith s o off e lo) e m s.core c' from this n
  intro m
  induction m with
  | zero => exact ⟨s.core, rfl, .none _ _ _⟩
  | succ m ih =>
    obtain ⟨c', hs, hput⟩ := ih
    have hphys : c'.phys = s.core.phys := by rw [hput.like]
    have hlive' : (State.coreAt { s with core := c' } o).cstate ≠ .killed := by
      rw [coreAt_withCore hphys]
      split
      · rename_i ho
        rw [ho, coreAt_current rfl] at hlive
        rw [hput.like]; exact hlive
      · exact hlive
    obtain ⟨c'', hs', hlike, hent⟩ := fillEntry_put (s := { s with core := c' }) (hphys.trans hp) (hput.interval.trans hi) hlive'
      off e n lo (e + m) keep
    refine ⟨c'', ?_, hput.next hlike hent⟩
    rw [List.range_succ, List.foldl_append, List.foldl_cons, List.foldl_nil, hs, hs']

/-- The oldest request leaves the spill engine. -/
def Core.takeSpill (c : Core) : Core := { c with spillq := c.spillq.tail }

theorem takeSpill_eq {c : Core} {r : SpillReq} {rest : List SpillReq} (hq : c.spillq = r :: rest) :
    c.takeSpill = { c with spillq := rest } := by
  rw [Core.takeSpill, hq]; rfl

theorem setCoreAt_takeSpill {s : State} {p : Nat} (hp : s.core.phys = p) {r : SpillReq} {rest : List SpillReq}
    (hq : s.core.spillq = r :: rest) : s.setCoreAt p { s.core with spillq := rest } = s.mapCore Core.takeSpill := by
  rw [setCoreAt_current hp, State.mapCore, takeSpill_eq hq]

/-- The oldest request, a move, is carried out at once. -/
theorem spillStep_move {s : State} {p : Nat} (hp : s.core.phys = p) (hi : s.core.interval = none) {r : SpillReq}
    {rest : List SpillReq} (hq : s.core.spillq = r :: rest) (hk : r.kind = .move) : ∃ c', s.spillStep p = { s with core := c' } ∧
      EntriesPut (fun i => entryVal r.lo (r.dst + i) (s.core.ent (r.src + i))) r.dst r.n { s.core with spillq := rest } c' := by
  have hp' : (s.mapCore Core.takeSpill).core.phys = p := hp
  refine ⟨Core.moveEntries { s.core with spillq := rest } r.src r.dst r.n r.lo, ?_,
    moveEntries_put (c := { s.core with spillq := rest }) hi _ _ _ _⟩
  simp only [State.spillStep, coreAt_current hp, hq, setCoreAt_takeSpill hp hq, hk, onCore_current hp']
  rw [← takeSpill_eq hq]
  rfl

/-- The oldest request, whose image lies in a store with an idle port, is carried out there. -/
theorem spillStep_port {s : State} {p : Nat} (hp : s.core.phys = p) {r : SpillReq} {rest : List SpillReq}
    (hq : s.core.spillq = r :: rest) (hk : r.kind ≠ .move) {o off : Nat} (hplace : s.spillPlace p r = some (o, off))
    (hfree : s.portBlocks s.core.part o (spillSrc p) off r.bytes = false) (hport : (s.coreAt o).portq = []) :
    s.spillStep p = ((s.mapCore Core.takeSpill).spillMove p o off r).drain o := by
  have hport' : ((s.mapCore Core.takeSpill).coreAt o).portq = [] := by
    rw [mapCore_keeps (f := Core.takeSpill) Core.portq (fun _ => rfl) (fun _ => rfl)]; exact hport
  simp only [State.spillStep, coreAt_current hp, hq, setCoreAt_takeSpill hp hq, hplace, portReady_nil hport, hfree, Bool.not_false, if_true,
    portLeave_nil hport']

/-! ### Writes at the port of one store (R206, R209, R289, R292) -/

/-- A write that has no other copy, is not logged for a rollback and not traced is its effect, and a reread of the descriptor. -/
theorem portWrite_plain {s : State} {o src : Nat} (hpair : (s.coreAt o).paired = false)
    (hlog : src = o → (s.coreAt o).interval = none) (off n kind : Nat) (f : Nat → State → State) :
    s.portWrite o src off n kind none f = (f (lsBase o + off) s).retrace o off n := by
  have hcopies : s.copiesOf o src = [o] := by simp [State.copiesOf, hpair]
  have hundo : s.logUndo o src off n = s := by
    unfold State.logUndo
    split
    · rfl
    · rename_i h; rw [hlog (not_not.1 h)]
  rw [State.portWrite, hcopies, hundo]
  rfl

/-- A write beside the descriptor's TRLEN leaves the arrival numbers as they are. -/
theorem retrace_beside (s : State) {o off n : Nat} (h : off + n ≤ traceOff ∨ traceOff + 4 ≤ off) : s.retrace o off n = s := by
  unfold State.retrace; rw [if_neg (by omega)]

/-- `t` has the cores of `s`, but for the arrival numbers of their trace rings (R209). -/
structure Retraced (s t : State) : Prop where
  core : t.core = { s.core with traceSeq := t.core.traceSeq }
  cores : ∀ q, t.coreAt q = { s.coreAt q with traceSeq := (t.coreAt q).traceSeq }

theorem Retraced.refl (s : State) : Retraced s s := ⟨rfl, fun _ => rfl⟩

theorem Retraced.trans {s t u : State} (h : Retraced s t) (g : Retraced t u) : Retraced s u := by
  refine ⟨?_, fun q => ?_⟩
  · have := g.core; rw [h.core] at this; exact this
  · have := g.cores q; rw [h.cores q] at this; exact this

/-- What does not ask for an arrival number reads the same. -/
theorem Retraced.keeps {α : Type} {s t : State} (h : Retraced s t) (g : Core → α) (hg : ∀ c n, g { c with traceSeq := n } = g c)
    (q : Nat) : g (t.coreAt q) = g (s.coreAt q) := by rw [h.cores q, hg]

theorem retraced_retrace (s : State) (o off n : Nat) : Retraced s (s.retrace o off n) := by
  unfold State.retrace
  split
  · refine ⟨?_, fun q => ?_⟩
    · rw [onCore_core]; split <;> rfl
    · rw [coreAt_onCore_keeps (f := fun c : Core => { c with traceSeq := 0 }) (fun _ => rfl)]
      split
      · rename_i h; rw [h]
      · rfl
  · exact .refl s

@[simp] theorem coreAt_putGranule (s : State) (a q : Nat) (k : Cap) (l : Label) : (s.putGranule a k l).coreAt q = s.coreAt q := rfl

theorem retraced_putGranule (s : State) (a : Nat) (k : Cap) (l : Label) : Retraced s (s.putGranule a k l) :=
  ⟨rfl, fun q => by rw [coreAt_putGranule]⟩

@[simp] theorem retrace_mem (s : State) (o off n : Nat) : (s.retrace o off n).mem = s.mem := by
  unfold State.retrace; split
  · exact State.onCore_mem _ _ _
  · rfl

@[simp] theorem byteAt_retrace (s : State) (o off n y : Nat) : (s.retrace o off n).byteAt y = s.byteAt y := by
  unfold State.byteAt; rw [retrace_mem]

/-- The sixteen bytes of a capability in memory (R86). -/
def capBytes (k : Cap) : List Byte := bytesOf 8 k.addr.toNat ++ bytesOf 8 k.hi.toNat

theorem byteAt_putGranule (s : State) (a x : Nat) (k : Cap) (l : Label) :
    (s.putGranule a k l).byteAt x = if a ≤ x ∧ x < a + 16 then (capBytes k).getD (x - a) 0 else s.byteAt x := by
  have hlen : (capBytes k).length = 16 := by simp [capBytes]
  refine (byteAt_putBytes s a x (capBytes k)).trans ?_
  by_cases h : a ≤ x ∧ x < a + 16
  · rw [dif_pos (by omega), if_pos h, List.getD_eq_getElem]
  · rw [dif_neg (by omega), if_neg h]

/-! ### The spill engine: images stored (R67, R68) -/

/-- Granules that stand in memory one after another from `a` up. -/
def GranulesAt (s : State) (a : Nat) (ks : List (Cap × Label)) : Prop :=
  ∀ j k, ks[j]? = some k → ∀ y, y < 16 → s.byteAt (a + 16 * j + y) = (capBytes k.1).getD y 0

/-- Granules written one after another at a port, the first of them the `m`-th behind `off`: they stand there, what lies before them
is as it was, and no core changes but for arrival numbers. -/
theorem putGranules_store {o src off : Nat} (ks : List (Cap × Label)) : ∀ {s : State} (m : Nat), (s.coreAt o).paired = false →
    (src = o → (s.coreAt o).interval = none) →
    let t := (ks.zipIdx m).foldl (fun t k => t.portWrite o src (off + 16 * k.2) 16 0 none (fun y t => t.putGranule y k.1.1 k.1.2)) s
    Retraced s t ∧ (∀ x, x < lsBase o + off + 16 * m → t.byteAt x = s.byteAt x) ∧ GranulesAt t (lsBase o + off + 16 * m) ks := by
  induction ks with
  | nil => exact fun {s} _ _ _ => ⟨.refl s, fun _ _ => rfl, fun j k hk => nomatch hk⟩
  | cons k ks ih =>
    intro s m hpair hlog
    rw [List.zipIdx_cons, List.foldl_cons, portWrite_plain hpair hlog]
    generalize hu : (s.putGranule (lsBase o + (off + 16 * m)) k.1 k.2).retrace o (off + 16 * m) 16 = u
    have hsu : Retraced s u := by
      rw [← hu]; exact (retraced_putGranule _ _ _ _).trans (retraced_retrace _ _ _ _)
    have hbyte : ∀ x, u.byteAt x = if lsBase o + off + 16 * m ≤ x ∧ x < lsBase o + off + 16 * m + 16 then
        (capBytes k.1).getD (x - (lsBase o + off + 16 * m)) 0 else s.byteAt x := fun x => by
      rw [← hu, byteAt_retrace, byteAt_putGranule, ← Nat.add_assoc]
    obtain ⟨hut, hlow, hgran⟩ := ih (s := u) (m + 1) ((hsu.keeps Core.paired (fun _ _ => rfl) o).trans hpair)
      (fun h => (hsu.keeps Core.interval (fun _ _ => rfl) o).trans (hlog h))
    refine ⟨hsu.trans hut, fun x hx => ?_, fun j k' hk y hy => ?_⟩
    · rw [hlow x (by omega), hbyte, if_neg (by omega)]
    · cases j with
      | zero =>
        obtain rfl : k = k' := by simpa using hk
        rw [hlow _ (by omega), hbyte, if_pos (by omega)]
        congr 1; omega
      | succ j =>
        rw [← hgran j k' (by simpa using hk) y hy]
        congr 1; omega

/-- An image goes to memory granule by granule, and no core changes but for arrival numbers. -/
theorem putImage_stores {s : State} {o src : Nat} (off : Nat) (ks : List (Cap × Label)) (hpair : (s.coreAt o).paired = false)
    (hlog : src = o → (s.coreAt o).interval = none) :
    Retraced s (s.putImage src o off ks) ∧ GranulesAt (s.putImage src o off ks) (lsBase o + off) ks := by
  obtain ⟨hcores, -, hgran⟩ := putGranules_store ks 0 hpair hlog
  exact ⟨hcores, hgran⟩

theorem noteImage_alone {c : Core} (h : c.interval = none) (addr : Word) (ks : List (Cap × Label)) : Core.noteImage addr ks c = c := by
  unfold Core.noteImage
  induction ks.zipIdx with
  | nil => rfl
  | cons k ks ih => rw [List.foldl_cons, Core.note_alone h]; exact ih

/-- A core without an interval stores an image at once, where the store's core is not killed. -/
theorem storeImage_alone {s : State} {p o : Nat} (hp : s.core.phys = p) (hi : s.core.interval = none)
    (hlive : (s.coreAt o).cstate ≠ .killed) (off : Nat) (addr : Word) (ks : List (Cap × Label)) :
    s.storeImage p o off addr ks = s.putImage p o off ks := by
  have hnote : s.onCore p (Core.noteImage addr ks) = s := by
    rw [onCore_current hp, State.mapCore, noteImage_alone hi]
  have hout : s.core.outbound o = false := by simp [Core.outbound, hi]
  simp [State.storeImage, hnote, coreAt_current hp, hout, hlive]

/-- The first `k` entries of a range are moved, where the label check stops at the next one or the range ends (R68). -/
theorem spillCount_eq {c : Core} {e n k : Nat} {lab : Label} (hk : k ≤ n) (hle : ∀ i, i < k → (c.ent (e + i)).l ≤ lab)
    (hstop : k < n → lab < (c.ent (e + k)).l) : c.spillCount e n lab = k := by
  obtain ⟨m, rfl⟩ := Nat.exists_eq_add_of_le hk
  unfold Core.spillCount
  rw [List.range_add, List.takeWhile_append_of_pos (by simpa using hle)]
  cases m with
  | zero => simp
  | succ m =>
    have hs : ¬ (c.ent (e + k)).l ≤ lab := BitVec.not_le.2 (hstop (by omega))
    simp [List.range_succ_eq_map, hs]

/-- The two words of a capability, by their place (R86). -/
def Cap.word (k : Cap) (i : Nat) : Word := if i % 2 = 0 then k.addr else k.hi

theorem capBytes_word (k : Cap) (i y : Nat) (hy : y < 8) :
    (capBytes k).getD (8 * (i % 2) + y) 0 = (bytesOf 8 (Cap.word k i).toNat).getD y 0 := by
  unfold capBytes Cap.word
  rcases Nat.mod_two_eq_zero_or_one i with h | h <;> simp [h, List.getD, List.getElem?_append, hy]

theorem sweptCap_word (s : State) (c : Core) (k : Cap) (i : Nat) : (s.sweptCap c k).word i = k.word i := by
  unfold State.sweptCap
  split
  · split <;> rfl
  · rfl

/-- The image of [e, e + n) holds each entry of the range in its place (R67). -/
theorem imagePairs_word (s : State) (p : Nat) {e n i : Nat} (hi : i < n) : ∃ k,
    (s.imagePairs p e n)[(e % 2 + i) / 2]? = some k ∧ k.1.word (e % 2 + i) = ((s.coreAt p).ent (e + i)).v := by
  refine ⟨s.imagePair p e n (imageFirst e + 2 * ((e % 2 + i) / 2)), ?_, ?_⟩
  · have hlt : (e % 2 + i) / 2 < (e + n + 1) / 2 - e / 2 := by omega
    simp [State.imagePairs, hlt, show n ≠ 0 by omega]
  · have hin : e ≤ e + i ∧ e + i < e + n := by omega
    simp only [State.imagePair, sweptCap_word]
    unfold Cap.word
    rcases Nat.mod_two_eq_zero_or_one (e % 2 + i) with h | h
    · have he : imageFirst e + 2 * ((e % 2 + i) / 2) = e + i := by unfold imageFirst; omega
      simp [h, he, hin, Cap.ofWords]
    · have he : imageFirst e + 2 * ((e % 2 + i) / 2) + 1 = e + i := by unfold imageFirst; omega
      simp [h, he, hin]

/-! ### The spill engine: fills and spills carried out at an idle port (R66 to R68) -/

/-- What the end of a spill leaves at its core: the stores performed, and SPILLFAULT due where the label check stopped it (R68). -/
def Core.spillEnd (hold : Bool) (r : SpillReq) (k : Nat) (c : Core) : Core :=
  let c1 := Core.partDone hold r.id c
  if k = r.n then c1 else { c1 with dueSpill := c1.dueSpill ++ [BitVec.ofNat 64 k] }

theorem spillEnd_frame (hold : Bool) (r : SpillReq) (k : Nat) (c : Core) : c.spillEnd hold r k =
    { c with
      unacked := (c.spillEnd hold r k).unacked
      dueSpill := if k = r.n then c.dueSpill else c.dueSpill ++ [BitVec.ofNat 64 k] } := by
  unfold Core.spillEnd
  by_cases hk : k = r.n
  · simp only [if_pos hk]; exact partDone_frame hold r.id c
  · simp only [if_neg hk]; rw [partDone_frame]

theorem spillMove_spill {s : State} {p o : Nat} (hp : s.core.phys = p) (hi : s.core.interval = none) {r : SpillReq}
    (hk : r.kind = .spill) (hlive : (s.coreAt o).cstate ≠ .killed) (hpair : (s.coreAt o).paired = false) {off k : Nat}
    (hcount : s.core.spillCount r.src r.n r.lab = k) : ∃ hold, s.spillMove p o off r =
      (s.putImage p o off (s.imagePairs p r.src k)).mapCore (Core.spillEnd hold r k) := by
  have hlog : p = o → (s.coreAt o).interval = none := by rintro rfl; rw [coreAt_current hp]; exact hi
  obtain ⟨hr, -⟩ := putImage_stores off (s.imagePairs p r.src k) hpair hlog
  have hv : (s.putImage p o off (s.imagePairs p r.src k)).core.phys = p := by rw [hr.core]; exact hp
  refine ⟨s.hold, ?_⟩
  simp only [State.spillMove, hk, coreAt_current hp, hcount, storeImage_alone hp hi hlive]
  generalize s.putImage p o off (s.imagePairs p r.src k) = v at hv
  have hv' : (v.mapCore (Core.partDone s.hold r.id)).core.phys = p := (partDone_phys _ _ _).trans hv
  rw [onCore_current hv]
  split
  · rename_i h; simp [State.mapCore, Core.spillEnd, h]
  · rename_i h; rw [onCore_current hv']; simp [State.mapCore, Core.spillEnd, h]

/-- The oldest request, a spill of whose entries the first `k` may move, at an idle port. -/
theorem spillStep_spill {s : State} {p : Nat} (hp : s.core.phys = p) (hi : s.core.interval = none) {r : SpillReq}
    {rest : List SpillReq} (hq : s.core.spillq = r :: rest) (hk : r.kind = .spill) {o off k : Nat}
    (hplace : s.reach s.core r.addr (imageBytes r.src r.n) = some (o, off))
    (hfree : s.portBlocks s.core.part o (spillSrc p) off (imageBytes r.src r.n) = false) (hport : (s.coreAt o).portq = [])
    (hlive : (s.coreAt o).cstate ≠ .killed) (hpair : (s.coreAt o).paired = false)
    (hcount : s.core.spillCount r.src r.n r.lab = k) :
    (∀ i, i < k → (s.spillStep p).numAt (lsBase o + off + 8 * (r.src % 2 + i)) 8 = (s.core.ent (r.src + i)).v.toNat) ∧
    (s.spillStep p).core.spillq = rest ∧ (s.spillStep p).core.regs = s.core.regs ∧
    (s.spillStep p).core.dueSpill = if k = r.n then s.core.dueSpill else s.core.dueSpill ++ [BitVec.ofNat 64 k] := by
  generalize hu : s.mapCore Core.takeSpill = u
  have hcore : u.core = s.core.takeSpill := by rw [← hu]; rfl
  have keeps : ∀ {α : Type} (g : Core → α), (∀ c, g (Core.takeSpill c) = g c) → g (u.coreAt o) = g (s.coreAt o) := fun g hg => by
    rw [← hu]; exact mapCore_keeps (f := Core.takeSpill) g (fun _ => rfl) hg s o
  have hup : u.core.phys = p := by rw [hcore]; exact hp
  have hui : u.core.interval = none := by rw [hcore]; exact hi
  have hupair : (u.coreAt o).paired = false := (keeps Core.paired (fun _ => rfl)).trans hpair
  have hlog : p = o → (u.coreAt o).interval = none := by rintro rfl; rw [coreAt_current hup]; exact hui
  obtain ⟨hret, hgran⟩ := putImage_stores off (u.imagePairs p r.src k) hupair hlog
  have hulive : (u.coreAt o).cstate ≠ .killed := by rw [keeps Core.cstate (fun _ => rfl)]; exact hlive
  obtain ⟨hold, hmove⟩ := spillMove_spill (off := off) (k := k) hup hui hk hulive hupair (by rw [hcore]; exact hcount)
  generalize u.putImage p o off (u.imagePairs p r.src k) = v at hret hgran hmove
  have hstep : s.spillStep p = v.mapCore (Core.spillEnd hold r k) := by
    rw [spillStep_port hp hq (by rw [hk]; decide) (by simpa [State.spillPlace, hk, coreAt_current hp] using hplace)
      (by simpa [SpillReq.bytes, hk] using hfree) hport, hu, hmove]
    refine drain_nil ?_
    rw [mapCore_keeps Core.portq (fun c => by rw [spillEnd_frame]) (fun c => by rw [spillEnd_frame]),
      hret.keeps Core.portq (fun _ _ => rfl), keeps Core.portq (fun _ => rfl)]
    exact hport
  rw [hstep, mapCore_core, spillEnd_frame, hret.core, hcore]
  refine ⟨fun i hik => ?_, by simp [Core.takeSpill, hq], rfl, rfl⟩
  obtain ⟨g, hg, hword⟩ := imagePairs_word u p hik
  rw [coreAt_current hup, hcore] at hword
  have hent : (s.core.ent (r.src + i)).v = g.1.word (r.src % 2 + i) := hword.symm
  rw [hent]
  refine numAt_word (fun y hy => ?_)
  rw [← capBytes_word _ _ _ hy, ← hgran _ g hg _ (by omega)]
  show v.byteAt _ = v.byteAt _
  congr 1
  omega

/-- The oldest request, a fill, at an idle port. -/
theorem spillStep_fill {s : State} {p : Nat} (hp : s.core.phys = p) (hi : s.core.interval = none) {r : SpillReq}
    {rest : List SpillReq} (hq : s.core.spillq = r :: rest) (hk : r.kind = .fill) {o off : Nat}
    (hplace : s.reach s.core r.addr (imageBytes r.dst r.n) = some (o, off))
    (hfree : s.portBlocks s.core.part o (spillSrc p) off (imageBytes r.dst r.n) = false) (hport : (s.coreAt o).portq = [])
    (hlive : (s.coreAt o).cstate ≠ .killed) : ∃ c', s.spillStep p = { s with core := c' } ∧
      EntriesPut (filledWith s o off r.dst r.lo) r.dst r.n { s.core with spillq := rest } c' := by
  have keeps : ∀ {α : Type} (g : Core → α), (∀ c, g (Core.takeSpill c) = g c) →
      g ((s.mapCore Core.takeSpill).coreAt o) = g (s.coreAt o) := fun g hg =>
    mapCore_keeps (f := Core.takeSpill) g (fun _ => rfl) hg s o
  have hlive' : ((s.mapCore Core.takeSpill).coreAt o).cstate ≠ .killed := by rw [keeps Core.cstate (fun _ => rfl)]; exact hlive
  obtain ⟨c', hfill, hput⟩ := fillImage_put (s := s.mapCore Core.takeSpill) hp hi hlive' off r.dst r.n r.lo r.keep
  refine ⟨c', ?_, takeSpill_eq hq ▸ hput⟩
  have hmove : (s.mapCore Core.takeSpill).spillMove p o off r = { s with core := c' } := by
    simp only [State.spillMove, hk, hfill, hlive', if_false]
    rfl
  rw [spillStep_port hp hq (by rw [hk]; decide) (by simpa [State.spillPlace, hk, coreAt_current hp] using hplace)
    (by simpa [SpillReq.bytes, hk] using hfree) hport, hmove]
  refine drain_nil ?_
  have hq' : c'.portq = s.core.portq := by rw [hput.like]; rfl
  rw [coreAt_withCore (by rw [hput.like]; rfl)]
  split
  · rename_i ho; rw [ho, coreAt_current rfl] at hport; rw [hq']; exact hport
  · exact hport

/-! ### Ports and bank groups (R206, R207, R210, R212) -/

theorem farFirst_nil {s : State} {o : Nat} (h : s.bufAt (bufKey o) = []) (a : Access) : s.farFirst o a = s := by
  simp [State.farFirst, h]

theorem awaitBuf_nil {s : State} {p : Nat} (h : s.bufAt (bufKey p) = []) (id : Nat) : s.awaitBuf p id = s := by
  simp [State.awaitBuf, h]

/-- Bytes, labels and tags after a store stand in every state with the same memory. -/
theorem stored_congr {a n : Nat} {value : Nat → Byte} {l : Label} {tag : Bool} {s s' t t' : State} (h : Stored a n value l tag s t)
    (hs : s'.mem = s.mem ∧ s'.labels = s.labels ∧ s'.tags = s.tags)
    (ht : t'.mem = t.mem ∧ t'.labels = t.labels ∧ t'.tags = t.tags) : Stored a n value l tag s' t' := by
  obtain ⟨hm, hl, hg⟩ := hs
  obtain ⟨hm', hl', hg'⟩ := ht
  constructor <;> simp only [State.byteAt, State.labelAt, State.memTagAt, hm, hl, hg, hm', hl', hg']
  · exact h.bytes
  · exact h.others
  · exact h.labels
  · exact h.otherLabels
  · exact h.granules
  · exact h.otherGranules

/-- A store by another core, alone at a port that can perform it, is performed there and one part of it is done (R206, R207). -/
theorem portStep_store {s : State} {p n : Nat} (hp : s.core.phys = p) {x : Access} {data : List Byte} {lab : Label}
    (hq : s.core.portq = [x]) (hsrc : x.src = n) (hop : x.op = .store data lab none) (hne : n ≠ p) (hn : n < coreCount)
    (hbufn : s.bufAt (bufKey n) = []) (hbufp : s.bufAt (bufKey p) = []) (haway : s.away (s.coreAt n).part p = false)
    (hfree : s.core.blocks n x.off data.length = false) (hlive : s.core.cstate ≠ .killed) (hpair : s.core.paired = false)
    (hbeside : x.off + data.length ≤ traceOff ∨ traceOff + 4 ≤ x.off) :
    s.portStep p n = ((s.mapCore (fun c => { c with portq := [] })).store (lsBase p + x.off) data lab).onCore n
      (Core.partDone s.hold x.id) := by
  subst hsrc
  have hsrc : x.src ≠ engineSrc := Nat.ne_of_lt hn
  have hnext : s.core.nextAccess x.src = some (x, []) := by
    unfold Core.nextAccess
    rw [hq]
    cases h : x.arrived <;> simp [takeFirst, h]
  have hpart : s.srcPart x.src = (s.coreAt x.src).part := by simp [State.srcPart, srcCore, hn]
  have hblocks : s.accBlocks p x = false := by
    simp [State.accBlocks, State.copyBlocks, State.copiesOf, coreAt_current hp, hop, hpair, AccOp.writes, AccOp.bytes, hfree]
  have htake : s.setCoreAt p { s.core with portq := [] } = s.mapCore (fun c => { c with portq := [] }) := setCoreAt_current hp _
  simp only [State.portStep, if_neg hsrc, coreAt_current hp, hnext, hpart, haway, hop, hblocks, htake, Bool.false_eq_true, if_false]
  generalize hu : s.mapCore (fun c => { c with portq := [] }) = u
  have hup : u.core.phys = p := by rw [← hu]; exact hp
  have hulive : u.core.cstate ≠ .killed := by rw [← hu]; exact hlive
  have hupair : (u.coreAt p).paired = false := by rw [coreAt_current hup, ← hu]; exact hpair
  have hbuf : ∀ k, u.bufAt k = s.bufAt k := fun k => by rw [← hu]; rfl
  have hhold : u.hold = s.hold := by rw [← hu]; rfl
  have hop' : u.performOp p x = (u.store (lsBase p + x.off) data lab).onCore x.src (Core.partDone s.hold x.id) := by
    simp only [State.performOp, hop]
    rw [portWrite_plain hupair (fun h => absurd h hne), retrace_beside _ hbeside, hhold]
  rw [State.perform, coreAt_current hup, if_neg hulive, farFirst_nil ((hbuf _).trans hbufp), hop']
  refine awaitBuf_nil ?_ _
  unfold State.bufAt
  rw [State.onCore_cardbuf]
  exact (hbuf _).trans hbufn

/-- What such a store does: the bytes stand in the port's store, the access leaves the port, and its core waits for one part less. -/
theorem portStep_store_effect {s : State} {p n : Nat} (hp : s.core.phys = p) (hne : n ≠ p) {data : List Byte} (hdata : data ≠ [])
    (a id : Nat) (lab : Label) :
    let t := ((s.mapCore (fun c => { c with portq := [] })).store a data lab).onCore n (Core.partDone true id)
    Stored a data.length (fun y => data.getD y 0) lab false s t ∧ t.core = { s.core with portq := [] } ∧
      (t.coreAt n).unacked = (s.coreAt n).unacked.map (fun y => if y.id = id then { y with left := y.left - 1 } else y) ∧
      ∀ q, q ≠ p → q ≠ n → t.coreAt q = s.coreAt q := by
  have hcores : ∀ q, q ≠ p → ((s.mapCore (fun c => { c with portq := [] })).store a data lab).coreAt q = s.coreAt q := fun q hq =>
    (coreAt_withCore (s := s) (c := { s.core with portq := [] }) rfl q).trans (if_neg (by rw [hp]; exact hq))
  refine ⟨stored_congr (stored_store (s.mapCore (fun c => { c with portq := [] })) a data lab hdata) ⟨rfl, rfl, rfl⟩
    ⟨State.onCore_mem _ _ _, State.onCore_labels _ _ _, State.onCore_tags _ _ _⟩,
    (onCore_core _ _ _).trans (if_neg (by intro h; exact hne (h.trans hp))), ?_, fun q hqp hqn => ?_⟩
  · rw [coreAt_onCore_keeps (partDone_phys _ _), if_pos rfl, hcores n hne, partDone_hold]
  · rw [coreAt_onCore_keeps (partDone_phys _ _), if_neg hqn, hcores q hqp]

theorem mateOf_ne (p : Nat) : mateOf p ≠ p := by unfold mateOf; omega

/-- A waking group with nothing at its ports becomes AWAKE with zero contents (R210, R212). -/
theorem wakeGroup_idle {s : State} {p g : Nat} (hp : s.core.phys = p) (hport : s.core.portq = [])
    (hmate : s.core.paired = true → (s.coreAt (mateOf p)).portq = []) :
    s.wakeGroup p g = (s.zeroRange (lsBase p + 0x20000 * g) 0x20000).mapCore (fun c => c.setGroup g .awake) := by
  have hset : ∀ c : Core, (c.setGroup g .awake).phys = c.phys ∧ (c.setGroup g .awake).portq = c.portq ∧
      (c.setGroup g .awake).paired = c.paired := fun c => by unfold Core.setGroup; split <;> (try split) <;> exact ⟨rfl, rfl, rfl⟩
  generalize hz : s.zeroRange (lsBase p + 0x20000 * g) 0x20000 = z
  have hzc : z.core = s.core ∧ ∀ q, z.coreAt q = s.coreAt q := by rw [← hz]; exact ⟨rfl, fun _ => rfl⟩
  generalize hw : z.mapCore (fun c => c.setGroup g .awake) = w
  have hwc : w.coreAt p = s.core.setGroup g .awake := by
    rw [← hw, coreAt_current ((hset _).1.trans (by rw [hzc.1]; exact hp)), mapCore_core, hzc.1]
  have hwm : w.coreAt (mateOf p) = s.coreAt (mateOf p) := by
    rw [← hw, State.mapCore, coreAt_withCore (hset _).1, hzc.1, if_neg (by rw [hp]; exact mateOf_ne p), hzc.2]
  have hdrain : w.drain p = w := drain_nil (by rw [hwc, (hset _).2.1, hport])
  simp only [State.wakeGroup, hz]
  rw [onCore_current (by rw [hzc.1]; exact hp), hw, hdrain]
  split
  · rename_i h
    refine drain_nil ?_
    rw [hwm]
    exact hmate (by rw [← (hset s.core).2.2, ← hwc]; exact h)
  · rfl

/-! ### The inbox and signals (R313, R314, R324) -/

theorem inboxesOf_alone {s : State} {p : Nat} (h : (s.coreAt p).paired = false) : s.inboxesOf p = [p] := by
  simp [State.inboxesOf, h]

theorem paired_unpaired {c : Core} (h : c.pair.pstate = .unpaired) : c.paired = false := by
  simp [Core.paired, h]

/-- A message that the current core, in no pair, can take now. -/
theorem refuses_alone {s : State} {p : Nat} (hp : s.core.phys = p) {f : Flight} (hf : f.dst = p)
    (hstate : s.core.cstate ≠ .evicted) (hpair : s.core.pair.pstate = .unpaired) (haway : s.away f.part p = false)
    (hroom : if s.core.isReply f.msg = true then s.core.fpReply = none else s.core.inbox.length < 64) : s.refuses f = false := by
  subst hf
  have hpaired := paired_unpaired hpair
  rw [← coreAt_current hp] at hpaired
  have hr : s.core.refusesMsg f.msg = false := by
    cases h : s.core.isReply f.msg <;> simp [h] at hroom <;> simp [Core.refusesMsg, h, hstate, hpair, hroom]
  simp [State.refuses, inboxesOf_alone hpaired, coreAt_current hp, hr, haway]

/-- A message from no core meets the current core, which is in no pair: it enters the inbox with its event bit, or, where it is the
reply that the core waits for, passes by the inbox. -/
theorem enterMsg_alone {s : State} {p : Nat} (hp : s.core.phys = p) {f : Flight} (hf : f.dst = p) (hsender : f.sender = none)
    (hlive : s.core.cstate ≠ .killed) (hpair : s.core.pair.pstate = .unpaired) :
    s.enterMsg f = s.mapCore (fun c => if s.core.isReply f.msg = true then { c with fpReply := some f.msg } else c.takeMsg f.msg) := by
  subst hf
  have hpaired := paired_unpaired hpair
  rw [← coreAt_current hp] at hpaired
  simp only [State.enterMsg, coreAt_current hp, if_neg hlive, hsender, ack_none, inboxesOf_alone hpaired, List.foldl_cons, List.foldl_nil,
    onCore_current hp]
  split <;> rfl

/-- A signal meets the current core, which runs in no pair: its bits join sy.evt, and its sender has one part less to wait for. -/
theorem arrive_alone {s : State} {p : Nat} (hp : s.core.phys = p) {g : Signal} (hg : g.dst = p) (hsender : g.sender.1 ≠ p)
    (hlive : s.core.cstate ≠ .killed) (hpair : s.core.paired = false) :
    s.arrive g = (s.onCore g.sender.1 (Core.partDone s.hold g.sender.2)).mapCore (fun c => { c with evt := c.evt ||| g.bits }) := by
  subst hg
  rw [← coreAt_current hp] at hpair
  have hcore : (s.ack (some g.sender)).core = s.core := (onCore_core _ _ _).trans (if_neg (by rw [hp]; exact hsender))
  simp only [State.arrive, coreAt_current hp, if_neg hlive, inboxesOf_alone hpair, List.foldl_cons, List.foldl_nil]
  exact onCore_current (by rw [hcore]; exact hp) _

/-- What an arriving signal does while acknowledgements wait for their events. -/
theorem arrive_effect {s : State} {p q : Nat} (hp : s.core.phys = p) (hne : q ≠ p) (id : Nat) (bits : BitVec 32) :
    let t := (s.onCore q (Core.partDone true id)).mapCore (fun c => { c with evt := c.evt ||| bits })
    t.signals = s.signals ∧ t.core = { s.core with evt := s.core.evt ||| bits } ∧ t.mem = s.mem ∧
      (t.coreAt q).unacked = (s.coreAt q).unacked.map (fun y => if y.id = id then { y with left := y.left - 1 } else y) := by
  have hcore : (s.onCore q (Core.partDone true id)).core = s.core :=
    (onCore_core _ _ _).trans (if_neg (by rw [hp]; exact hne))
  refine ⟨State.onCore_signals _ _ _, by rw [mapCore_core, hcore], State.onCore_mem _ _ _, ?_⟩
  rw [mapCore_keeps (f := fun c : Core => { c with evt := c.evt ||| bits }) Core.unacked (fun _ => rfl) (fun _ => rfl),
    coreAt_onCore_keeps (partDone_phys _ _), if_pos rfl, partDone_hold]

/-! ### The events of a core, each as the effect of its row on the state seen from that core -/

/-- An event leaves one state. -/
theorem event_of_eq {i : Instr} {s t u : State} (h : Event i s t) (e : t = u) : Event i s u := e ▸ h

/-- An acknowledgement leaves the accesses that it is for (R207). -/
def Core.storeAcked (id : Nat) (c : Core) : Core :=
  { c with unacked := c.unacked.filter (fun u => !decide (u.id = id ∧ u.left = 0)) }

theorem storeAcked_split {c : Core} {before rest : List Unacked} {x : Unacked} (hq : c.unacked = before ++ x :: rest)
    (hleft : x.left = 0) (hother : ∀ y ∈ before ++ rest, y.id ≠ x.id) :
    c.storeAcked x.id = { c with unacked := before ++ rest } := by
  have keep : ∀ ys : List Unacked, (∀ y ∈ ys, y.id ≠ x.id) → ys.filter (fun y => !decide (y.id = x.id ∧ y.left = 0)) = ys :=
    fun ys h => List.filter_eq_self.2 (fun y hy => by simp [h y hy])
  rw [Core.storeAcked, hq, List.filter_append, List.filter_cons_of_neg (by simp [hleft]),
    keep _ (fun y hy => hother y (List.mem_append_left _ hy)), keep _ (fun y hy => hother y (List.mem_append_right _ hy))]

section
variable {s : State} {p : Nat} (hp : p < coreCount)
include hp

/-- An event at a core of the package is the effect that its row names. -/
theorem coreEvent_named (f : State → State) : coreEvent p s f = .next ((f (s.focus p)).focus s.core.phys) := if_pos hp

theorem event_ifetchLineMiss {line : Nat}
    (hline : line = (s.focus p).core.pc.toNat / 64 * 64 ∨ line = (s.focus p).core.pc.toNat / 64 * 64 + 64 ∨
      line = (s.focus p).core.pc.toNat / 64 * 64 + 128)
    (htrap : (s.focus p).fetchTrap
      (if line = (s.focus p).core.pc.toNat / 64 * 64 then (s.focus p).core.pc.toNat else line) 4 = none) :
    Event (.ifetchLineMiss p line) s ((s.focus p).fetchLine line).1 := by
  show execIfetchLineMiss p line s = _
  rw [execIfetchLineMiss, coreEvent_named hp, if_pos ⟨hline, by rw [htrap]; rfl⟩]

theorem event_lateWriteLand {id : Nat} {w : Pending} (hw : (s.focus p).core.pending.find?
      (fun x => decide (x.id = id / 64 ∧ x.left = 0) && !x.xmax) = some w) :
    Event (.lateWriteLand p id) s ((s.focus p).mapCore (fun c => c.landPlace w (id % 64))) := by
  show execLateWriteLand p id s = _
  simp only [execLateWriteLand, coreEvent_named hp, hw]

theorem event_spillEngineMove : Event (.spillEngineMove p) s ((s.focus p).spillStep p) :=
  coreEvent_named hp (fun s => s.spillStep p)

theorem event_portAccess (src : Nat) : Event (.portAccess p src) s ((s.focus p).portStep p src) :=
  coreEvent_named hp (fun s => s.portStep p src)

theorem event_storeAck (id : Nat) : Event (.storeAck p id) s ((s.focus p).mapCore (Core.storeAcked id)) :=
  coreEvent_named hp (fun s => s.mapCore (Core.storeAcked id))

theorem event_accessRetry (h : (s.focus p).core.cstate = .evicted) : Event (.accessRetry p) s ((s.focus p).mapCore (fun c =>
    { c with portq := (c.portq.filter (fun a => decide (a.src < engineSrc))).map (fun a => { a with arrived := false }) })) := by
  show execAccessRetry p s = _
  rw [execAccessRetry, coreEvent_named hp, if_pos h]

theorem event_groupWakeComplete {g : Nat} (hg : g = 1 ∨ g = 2) (h : (s.focus p).core.groupSt g = .waking) :
    Event (.groupWakeComplete p g) s ((s.focus p).wakeGroup p g) := by
  show execGroupWakeComplete p g s = _
  rw [execGroupWakeComplete, coreEvent_named hp, if_pos ⟨h, hg⟩]

theorem event_inboxMessageEnter {k : Nat} {f : Flight} (hf : nthFlight p k (s.focus p).flights = some f)
    (htakes : (s.focus p).refuses f = false) : Event (.inboxMessageEnter p k) s
      (State.enterMsg { s.focus p with flights := dropFirst f (s.focus p).flights } f) := by
  show execInboxMessageEnter p k s = _
  simp only [execInboxMessageEnter, coreEvent_named hp, hf, htakes, Bool.false_and, Bool.false_eq_true, if_false]

theorem event_eventSignalArrive {g : Signal} (hg : (s.focus p).signals.find?
      (fun g => decide (g.dst = p) && !(s.focus p).away g.part p) = some g) (h : (s.focus p).core.cstate ≠ .evicted) :
    Event (.eventSignalArrive p) s (State.arrive { s.focus p with signals := dropFirst g (s.focus p).signals } g) := by
  show execEventSignalArrive p s = _
  simp only [execEventSignalArrive, coreEvent_named hp, hg, h, if_false]

/-- A message to the core that no earlier one comes before, and that the core, in no pair, can take. -/
theorem event_enterMsg_alone (hup : (s.focus p).core.phys = p) {before rest : List Flight} {f : Flight}
    (hfs : (s.focus p).flights = before ++ f :: rest) (hbefore : ∀ x ∈ before, x.dst ≠ p) (hf : f.dst = p) (hsender : f.sender = none)
    (hstate : (s.focus p).core.cstate ≠ .evicted) (hlive : (s.focus p).core.cstate ≠ .killed)
    (hpair : (s.focus p).core.pair.pstate = .unpaired) (haway : (s.focus p).away f.part p = false)
    (hroom : if (s.focus p).core.isReply f.msg = true then (s.focus p).core.fpReply = none else (s.focus p).core.inbox.length < 64) :
    Event (.inboxMessageEnter p 0) s { s.focus p with
      flights := before ++ rest
      core := if (s.focus p).core.isReply f.msg = true then { (s.focus p).core with fpReply := some f.msg }
        else (s.focus p).core.takeMsg f.msg } := by
  have hnth : nthFlight p 0 (s.focus p).flights = some f := by rw [hfs]; exact nthFlight_zero hbefore hf
  refine event_of_eq (event_inboxMessageEnter hp hnth (refuses_alone hup hf hstate hpair haway hroom)) ?_
  rw [hfs, dropFirst_append f before rest (by rintro x hx rfl; exact hbefore x hx hf)]
  exact enterMsg_alone (s := { s.focus p with flights := before ++ rest }) hup hf hsender hlive hpair

end

end Sys2Proof.Machine

namespace Sys2Proof

open Sys2Proof.Machine

/-- Settles O38: each event is the effect of its row on the state seen from its core, and each effect is the one that its law
names. -/
theorem coreEvents : Obligations.CoreEvents := by
  unfold Obligations.CoreEvents
  rintro p n s ⟨hp, hup⟩ u c
  have hhold : u.hold = s.hold := State.focus_hold s p
  refine ⟨?fetch, ?land, ?spill, ?access, ?ack, ?retry, ?wake, ?inbox, ?reply, ?signal⟩
  case fetch =>
    intro line o off hline hnew hroom hreach hport hsrc hlive htrap
    rw [← hup] at hport hsrc
    exact event_of_eq (event_ifetchLineMiss hp hline htrap) (fetchLine_kept hnew hroom hreach hport hsrc hlive)
  case land =>
    rintro before w rest e v hi tag l place hpend hother rfl hleft hx hf hint hplace
    have hfind : c.pending.find? (fun x => decide (x.id = (64 * w.id + place) / 64 ∧ x.left = 0) && !x.xmax) = some w := by
      rw [show (64 * w.id + place) / 64 = w.id by omega]
      exact List.find?_eq_some_iff_append.2 ⟨by simp [hleft, hx], before, rest, hpend, fun x hx => by
        simp [hother x (List.mem_append_left _ hx)]⟩
    have hevent := event_lateWriteLand hp hfind
    rw [show (64 * w.id + place) % 64 = place by omega] at hevent
    obtain ⟨c', hent, hents, htags, honly, hone⟩ := landPlace_entry hpend hother hint hf place e v hi tag l
    refine ⟨c', hent, hents, htags, fun hw => ?_, fun hj hw hex => ?_⟩
    · obtain ⟨hc, hframe⟩ := honly hw
      exact ⟨hframe, event_of_eq hevent (by rw [← hc]; rfl)⟩
    · obtain ⟨hc, hframe⟩ := hone hj hw hex
      exact ⟨hframe, event_of_eq hevent (by rw [← hc]; rfl)⟩
  case spill =>
    intro r rest hq hint masked
    refine ⟨fun hk => ?_, fun hk o off hreach hfree hport hlive => ?_,
      fun hk o off k hreach hfree hport hlive hpair hkn hle hstop => ?_⟩
    · obtain ⟨c', hstep, hput⟩ := spillStep_move hup hint hq hk
      exact ⟨c', hput.like, hput.value, hput.entries, event_of_eq (event_spillEngineMove hp) hstep⟩
    · obtain ⟨c', hstep, hput⟩ := spillStep_fill hup hint hq hk hreach hfree hport hlive
      refine ⟨c', hput.like, fun x hlo hhi => ?_, hput.entries, event_of_eq (event_spillEngineMove hp) hstep⟩
      obtain ⟨i, rfl⟩ := Nat.exists_eq_add_of_le hlo
      exact hput.value i (by omega)
    · exact ⟨_, event_spillEngineMove hp, spillStep_spill hup hint hq hk hreach hfree hport hlive hpair (spillCount_eq hkn hle hstop)⟩
  case access =>
    intro x data lab hq hsrc hop hne hh hdata hn hbufn hbufp haway hfree hlive hpair hbeside
    have hstep := portStep_store hup hq hsrc hop hne hn hbufn hbufp haway hfree hlive hpair hbeside
    rw [State.focus_hold, hh] at hstep
    exact ⟨_, event_of_eq (event_portAccess hp n) hstep, portStep_store_effect hup hne hdata _ _ _⟩
  case ack =>
    rintro before x rest hq rfl hleft hother
    refine event_of_eq (event_storeAck hp x.id) ?_
    rw [← storeAcked_split hq hleft hother]
    rfl
  case retry => exact fun h => event_accessRetry hp h
  case wake =>
    intro hn hwake hport hmate lies
    have ha : (lsBase p + 0x20000 * n) % 64 = 0 := by have := lsBase_aligned p; omega
    have hbyte := byteAt_zeroRange u (lsBase p + 0x20000 * n) 0x20000
    have hlabel := labelAt_zeroRange (s := u) (n := 0x20000) ha (by decide)
    have htag := memTagAt_zeroRange (s := u) (a := lsBase p + 0x20000 * n) (n := 0x20000) (by omega) (by decide)
    refine ⟨_, event_of_eq (event_groupWakeComplete hp hn hwake) (wakeGroup_idle hup hport hmate),
      fun y hy => ⟨(hbyte y).trans (if_pos hy), (hlabel y).trans (if_pos hy), (htag y).trans (if_pos hy)⟩,
      fun y hy => ⟨(hbyte y).trans (if_neg hy), (hlabel y).trans (if_neg hy), (htag y).trans (if_neg hy)⟩, ?_⟩
    rcases hn with rfl | rfl <;> rfl
  case inbox =>
    intro before f rest hfs hbefore hf hsender hroom hstate hlive hpair haway hwait
    have hreply : c.isReply f.msg = false := by simp [Core.isReply, hwait]
    refine event_of_eq (event_enterMsg_alone hp hup hfs hbefore hf hsender hstate hlive hpair haway ?_) ?_
    · rw [if_neg (by rw [hreply]; decide)]; exact hroom
    · rw [if_neg (by rw [hreply]; decide)]; rfl
  case reply =>
    intro before f rest hfs hbefore hf hsender hstate hlive hpair haway hwait hnone hmsg hsup
    have hreply : c.isReply f.msg = true := by simp [Core.isReply, Option.isSome_iff_ne_none, hwait, hmsg, hsup]
    refine event_of_eq (event_enterMsg_alone hp hup hfs hbefore hf hsender hstate hlive hpair haway ?_) ?_
    · rw [if_pos hreply]; exact hnone
    · rw [if_pos hreply]
  case signal =>
    intro before g rest hsig hbefore hg hsender hh hstate hlive hpair haway
    have hfind : u.signals.find? (fun g => decide (g.dst = p) && !u.away g.part p) = some g :=
      List.find?_eq_some_iff_append.2 ⟨by simp [hg, haway], before, rest, hsig, fun x hx => by simp [hbefore x hx]⟩
    have hdrop : dropFirst g u.signals = before ++ rest := by
      rw [hsig]; exact dropFirst_append g before rest (by rintro x hx rfl; exact hbefore x hx hg)
    have harrive := arrive_alone (s := { u with signals := dropFirst g u.signals }) hup hg hsender hlive hpair
    obtain ⟨hsignals, hcore, hmem, hacks⟩ :=
      arrive_effect (s := { u with signals := dropFirst g u.signals }) hup hsender g.sender.2 g.bits
    refine ⟨_, event_of_eq (event_eventSignalArrive hp hfind hstate) (harrive.trans (by rw [hhold, hh])), hsignals.trans hdrop,
      hcore, hmem, hacks⟩

end Sys2Proof
end

section
/-! SUPPORT. Laws of the encoding (O56): words and the fields that they say, the codes of names and of immediates, and the opcode map in
both directions. -/

namespace Sys2Proof

/-! ### Fields of words (R33 to R37) -/

/-- The fields lie below these bounds. -/
def Fields.below (f : Fields) (fn d a b c msk typ ord scope imm : Nat) : Prop :=
  f.fn < fn ∧ f.d < d ∧ f.a < a ∧ f.b < b ∧ f.c < c ∧ f.msk < msk ∧ f.typ < typ ∧ f.ord < ord ∧ f.scope < scope ∧ f.imm < imm

/-- What bits 31:10 of a base word can say, by its form (R35, R38); a field below 1 is one that the form does not have. -/
def Fields.inForm (f : Fields) : Form → Prop
  | .a => f.below 16 64 64 64 1 1 1 1 1 1
  | .i => f.below 1 64 64 1 1 1 1 1 1 1024
  | .m => f.below 1 64 64 1 1 1 1 1 1 1024
  | .b => f.below 1 1 64 64 1 1 1 1 1 1024
  | .j => f.below 1 1 1 1 1 1 1 1 1 4194304
  | .v => f.below 2 64 64 64 1 8 1 1 1 1
  | .mo => f.below 2 64 64 1 1 1 32 8 16 1 ∧ (f.ord = 1 + f.fn ∨ f.ord = 4) ∧
      (if f.fn = 0 then 16 ≤ f.typ ∧ f.typ < 24 else 23 ≤ f.typ ∧ f.typ < 31)
  | .jk => f.below 1 64 1 1 1 1 1 1 1 65536
  | .p => f.below 1 64 8 64 1 1 1 1 1 1
  | .o => f.below 1 1 1 1 1 1 1 8 16 1

/-- What the words of an instruction of this length can say (R33 to R38). -/
structure Fields.Sayable (f : Fields) : Prop where
  major : f.major < 128
  lit : f.lit < 2 ^ 64
  noLit : f.len = .w32 ∨ f.len = .x96x → f.lit = 0
  base : f.len.wide = false → f.inForm (.ofMajor f.major)
  ext : f.len.wide = true → f.below 64 4096 4096 4096 4096 8 32 8 16 65536

/-- ORD2 2 or 3 of form MO, which no instruction has (R35). -/
def Fields.reservedOrd (f : Fields) : Prop := f.len.wide = false ∧ Form.ofMajor f.major = .mo ∧ f.ord = 7

theorem baseBits_lt {f : Fields} (h : f.inForm (.ofMajor f.major)) : f.baseBits < 2 ^ 22 := by
  unfold Fields.baseBits
  revert h
  cases Form.ofMajor f.major <;> intro h <;> simp only [Fields.inForm, Fields.below] at h ⊢ <;> (repeat' split) <;> omega

/-- The bits of a base word give back the fields that they say. -/
theorem baseFields_baseBits {f : Fields} (h : f.inForm (.ofMajor f.major)) :
    baseFields (.ofMajor f.major) f.len f.s f.major f.baseBits f.lit = .ok f := by
  obtain ⟨len, s, major, fn, d, a, b, c, msk, typ, ord, scope, imm, lit⟩ := f
  unfold Fields.baseBits
  revert h
  simp only
  cases Form.ofMajor major <;> intro h <;> simp only [Fields.inForm, Fields.below, baseFields] at h ⊢
  case mo =>
    obtain ⟨h, ho, ht⟩ := h
    have hfn : fn = 0 ∨ fn = 1 := by omega
    rcases hfn with rfl | rfl <;> rcases ho with rfl | rfl <;> simp at ht ⊢ <;> (refine ⟨?_, ?_, ?_, ?_, ?_, ?_, ?_⟩) <;>
      (repeat' split) <;> omega
  case p => rw [if_neg (by omega)]; simp only [Except.ok.injEq, Fields.mk.injEq, true_and, and_true]; omega
  case o => rw [if_neg (by omega)]; simp only [Except.ok.injEq, Fields.mk.injEq, true_and, and_true]; omega
  all_goals simp only [Except.ok.injEq, Fields.mk.injEq, true_and, and_true]; omega

theorem extFields_eq {len : Len} {s : Bool} {major w0 w1 w2 lit : Nat} (h : w0 / 2 ^ 31 = 0) : extFields len s major w0 w1 w2 lit =
    .ok { len, s, major, lit, msk := w0 / 2 ^ 28 % 8, fn := w0 / 2 ^ 22 % 64, d := w0 / 1024 % 4096, ord := w1 / 2 ^ 29,
          typ := w1 / 2 ^ 24 % 32, b := w1 / 4096 % 4096, a := w1 % 4096, imm := w2 / 2 ^ 16, scope := w2 / 4096 % 16,
          c := w2 % 4096 } := by
  rw [extFields, if_neg (not_not.2 h)]

@[simp] theorem Len.ofCode_code (l : Len) : Len.ofCode l.code = l := by cases l <;> rfl
theorem Len.code_lt (l : Len) : l.code < 4 := by cases l <;> decide
theorem Len.code_ofCode {n : Nat} (h : n < 4) : (Len.ofCode n).code = n := by
  have : ∀ n < 4, (Len.ofCode n).code = n := by decide
  exact this n h

/-- Bits 9:0 of a first word give back LEN, S and MAJOR (R33), whatever stands above them. -/
theorem lowBits_read (f : Fields) (hm : f.major < 128) (y : Nat) :
    Len.ofCode ((f.lowBits + y * 1024) % 4) = f.len ∧ decide ((f.lowBits + y * 1024) / 4 % 2 = 1) = f.s ∧
      (f.lowBits + y * 1024) / 8 % 128 = f.major ∧ (f.lowBits + y * 1024) / 1024 = y := by
  have hc := f.len.code_lt
  have hl : (f.lowBits + y * 1024) % 4 = f.len.code := by unfold Fields.lowBits; split <;> omega
  refine ⟨by rw [hl, Len.ofCode_code], ?_, ?_, ?_⟩
  · unfold Fields.lowBits
    cases f.s <;> simp only [decide_eq_true_eq, decide_eq_false_iff_not, if_true, Bool.false_eq_true, if_false] <;> omega
  · unfold Fields.lowBits; split <;> omega
  · unfold Fields.lowBits; split <;> omega

theorem lowBits_lt {f : Fields} (hm : f.major < 128) : f.lowBits < 1024 := by
  have hc := f.len.code_lt
  unfold Fields.lowBits; split <;> omega

/-- The first word of an instruction holds more than its low bits. -/
def Fields.above (f : Fields) : Nat := if f.len.wide = true then f.d + f.fn * 4096 + f.msk * 2 ^ 18 else f.baseBits

theorem words_cons (f : Fields) : ∃ tail, f.words = (f.lowBits + f.above * 1024) :: tail ∧
    tail.length + 1 = f.len.words := by
  unfold Fields.words Fields.above
  cases hl : f.len <;> simp [Len.wide, Len.words] <;> ring

/-- The words of an extended form give back the fields that they say, with whatever literal is read behind them. -/
theorem extFields_words {f : Fields} (hm : f.major < 128) (h : f.below 64 4096 4096 4096 4096 8 32 8 16 65536) :
    extFields f.len f.s f.major (f.lowBits + (f.d + f.fn * 4096 + f.msk * 2 ^ 18) * 1024)
      (f.a + f.b * 4096 + f.typ * 2 ^ 24 + f.ord * 2 ^ 29) (f.c + f.scope * 4096 + f.imm * 2 ^ 16) f.lit = .ok f := by
  have hl := lowBits_lt hm
  obtain ⟨hfn, hd, ha, hb, hc, hmsk, htyp, hord, hscope, himm⟩ := h
  rw [extFields_eq (by omega)]
  obtain ⟨len, s, major, fn, d, a, b, c, msk, typ, ord, scope, imm, lit⟩ := f
  simp only [Except.ok.injEq, Fields.mk.injEq, true_and, and_true] at *
  omega

/-- The form by which the first word says that the instruction is read (R33 to R37), with its literal. -/
def readBase (w0 lit : Nat) : Except Reject Fields :=
  baseFields (.ofMajor (w0 / 8 % 128)) (Len.ofCode (w0 % 4)) (decide (w0 / 4 % 2 = 1)) (w0 / 8 % 128) (w0 / 1024) lit
def readExt (w0 w1 w2 lit : Nat) : Except Reject Fields :=
  extFields (Len.ofCode (w0 % 4)) (decide (w0 / 4 % 2 = 1)) (w0 / 8 % 128) w0 w1 w2 lit

theorem fieldsOfWords_w32 {w0 : Nat} (h : Len.ofCode (w0 % 4) = .w32) (rest : List Nat) :
    fieldsOfWords (w0 :: rest) = readBase w0 0 := by
  simp only [fieldsOfWords, readBase, h]
theorem fieldsOfWords_x96l {w0 : Nat} (h : Len.ofCode (w0 % 4) = .x96l) (l0 l1 : Nat) (rest : List Nat) :
    fieldsOfWords (w0 :: l0 :: l1 :: rest) = readBase w0 (l0 + l1 * 2 ^ 32) := by
  simp only [fieldsOfWords, readBase, h]
theorem fieldsOfWords_x96x {w0 : Nat} (h : Len.ofCode (w0 % 4) = .x96x) (w1 w2 : Nat) (rest : List Nat) :
    fieldsOfWords (w0 :: w1 :: w2 :: rest) = readExt w0 w1 w2 0 := by
  simp only [fieldsOfWords, readExt, h]
theorem fieldsOfWords_x160 {w0 : Nat} (h : Len.ofCode (w0 % 4) = .x160) (w1 w2 l0 l1 : Nat) (rest : List Nat) :
    fieldsOfWords (w0 :: w1 :: w2 :: l0 :: l1 :: rest) = readExt w0 w1 w2 (l0 + l1 * 2 ^ 32) := by
  simp only [fieldsOfWords, readExt, h]

theorem readBase_words {f : Fields} (hm : f.major < 128) (h : f.inForm (.ofMajor f.major)) :
    readBase (f.lowBits + f.baseBits * 1024) f.lit = .ok f := by
  obtain ⟨hlen, hs, hmajor, htop⟩ := lowBits_read f hm f.baseBits
  rw [readBase, hlen, hs, hmajor, htop, baseFields_baseBits h]

theorem readExt_words {f : Fields} (hm : f.major < 128) (h : f.below 64 4096 4096 4096 4096 8 32 8 16 65536) :
    readExt (f.lowBits + f.d * 1024 + f.fn * 2 ^ 22 + f.msk * 2 ^ 28)
      (f.a + f.b * 4096 + f.typ * 2 ^ 24 + f.ord * 2 ^ 29) (f.c + f.scope * 4096 + f.imm * 2 ^ 16) f.lit = .ok f := by
  have hfirst : f.lowBits + f.d * 1024 + f.fn * 2 ^ 22 + f.msk * 2 ^ 28 =
      f.lowBits + (f.d + f.fn * 4096 + f.msk * 2 ^ 18) * 1024 := by ring
  obtain ⟨hlen, hs, hmajor, -⟩ := lowBits_read f hm (f.d + f.fn * 4096 + f.msk * 2 ^ 18)
  rw [hfirst, readExt, hlen, hs, hmajor, extFields_words hm h]

/-- The words that fields say are read as those fields, whatever words follow. -/
theorem fieldsOfWords_words {f : Fields} (h : f.Sayable) (rest : List Nat) : fieldsOfWords (f.words ++ rest) = .ok f := by
  obtain ⟨hm, hlit, hno, hbase, hext⟩ := h
  have hjoin : f.lit % 2 ^ 32 + f.lit / 2 ^ 32 * 2 ^ 32 = f.lit := by omega
  have hlow : ∀ y, Len.ofCode ((f.lowBits + y * 1024) % 4) = f.len := fun y => (lowBits_read f hm y).1
  have hfirst : Len.ofCode ((f.lowBits + f.d * 1024 + f.fn * 2 ^ 22 + f.msk * 2 ^ 28) % 4) = f.len := by
    rw [← hlow (f.d + f.fn * 4096 + f.msk * 2 ^ 18)]; congr 2; ring
  unfold Fields.words
  cases hl : f.len with
  | w32 =>
    refine (fieldsOfWords_w32 ((hlow _).trans hl) _).trans ?_
    rw [← hno (.inl hl)]; exact readBase_words hm (hbase (by rw [hl]; rfl))
  | x96l =>
    refine (fieldsOfWords_x96l ((hlow _).trans hl) _ _ _).trans ?_
    rw [hjoin]; exact readBase_words hm (hbase (by rw [hl]; rfl))
  | x96x =>
    refine (fieldsOfWords_x96x (hfirst.trans hl) _ _ _).trans ?_
    rw [← hno (.inr hl)]; exact readExt_words hm (hext (by rw [hl]; rfl))
  | x160 =>
    refine (fieldsOfWords_x160 (hfirst.trans hl) _ _ _ _ _).trans ?_
    rw [hjoin]; exact readExt_words hm (hext (by rw [hl]; rfl))

/-! ### Words of fields -/

/-- The bits of a base word are those that its fields say. -/
theorem baseFields_ok {m x lit : Nat} {len : Len} {s : Bool} {f : Fields} (hx : x < 2 ^ 22)
    (h : baseFields (.ofMajor m) len s m x lit = .ok f) (ho : Form.ofMajor m = .mo → f.ord ≠ 7) :
    f.len = len ∧ f.s = s ∧ f.major = m ∧ f.lit = lit ∧ f.inForm (.ofMajor m) ∧ f.baseBits = x := by
  have hmajor : f.major = m := by
    revert h; unfold baseFields
    split <;> (try split) <;> rintro ⟨⟩ <;> rfl
  unfold Fields.baseBits
  rw [hmajor]
  revert h ho
  cases Form.ofMajor m <;> intro h ho <;> simp only [baseFields, Except.ok.injEq] at h
  case p =>
    split at h
    · cases h
    · cases h; simp only [Fields.inForm, Fields.below, true_and]; omega
  case o =>
    split at h
    · cases h
    · cases h; simp only [Fields.inForm, Fields.below, true_and]; omega
  case mo =>
    subst h
    have ho := ho rfl
    simp only [Fields.inForm, Fields.below, true_and, ne_eq] at ho ⊢
    split_ifs at ho ⊢ <;> simp at ho <;> omega
  all_goals subst h; simp only [Fields.inForm, Fields.below, true_and, and_true]; omega

theorem words_lt {f : Fields} (h : f.Sayable) : ∀ w ∈ f.words, w < 2 ^ 32 := by
  obtain ⟨hm, hlit, hno, hbase, hext⟩ := h
  have hl := lowBits_lt hm
  unfold Fields.words
  intro w hw
  rcases hlen : f.len with _ | _ | _ | _ <;> simp only [hlen, Len.wide, forall_const, Bool.false_eq_true, IsEmpty.forall_iff, List.mem_cons, List.mem_append, List.not_mem_nil, or_false] at *
  · have := baseBits_lt hbase; omega
  · have := baseBits_lt hbase; omega
  · simp only [Fields.below] at hext;omega
  · simp only [Fields.below] at hext;omega

/-- The three words of an extended form are those that its fields say. -/
theorem extFields_ok {len : Len} {s : Bool} {major w0 w1 w2 lit : Nat} {f : Fields} (h1 : w1 < 2 ^ 32)
    (h2 : w2 < 2 ^ 32) (h : extFields len s major w0 w1 w2 lit = .ok f) : f.len = len ∧ f.s = s ∧ f.major = major ∧ f.lit = lit ∧
      f.below 64 4096 4096 4096 4096 8 32 8 16 65536 ∧ f.d + f.fn * 4096 + f.msk * 2 ^ 18 = w0 / 1024 ∧
      f.a + f.b * 4096 + f.typ * 2 ^ 24 + f.ord * 2 ^ 29 = w1 ∧ f.c + f.scope * 4096 + f.imm * 2 ^ 16 = w2 := by
  unfold extFields at h
  split at h
  · cases h
  · cases h; simp only [Fields.below, true_and]; omega

/-- A word is its low bits and what stands above them. -/
theorem lowBits_of_word {f : Fields} {w : Nat} (hl : f.len = Len.ofCode (w % 4)) (hs : f.s = decide (w / 4 % 2 = 1))
    (hm : f.major = w / 8 % 128) : f.lowBits + w / 1024 * 1024 = w := by
  unfold Fields.lowBits
  rw [hl, hs, hm, Len.code_ofCode (by omega)]
  by_cases h : w / 4 % 2 = 1 <;> simp only [h, decide_true, decide_false, if_true, Bool.false_eq_true, if_false] <;> omega

/-- What a base word and its literal are read as. -/
theorem sayable_of_baseFields {w0 lit : Nat} {f : Fields} (h0 : w0 < 2 ^ 32) (hlit : lit < 2 ^ 64)
    (hwide : (Len.ofCode (w0 % 4)).wide = false) (hno : Len.ofCode (w0 % 4) = .w32 → lit = 0)
    (h : readBase w0 lit = .ok f)
    (ho : ¬ f.reservedOrd) : f.Sayable ∧ f.len = Len.ofCode (w0 % 4) ∧ f.lowBits + f.baseBits * 1024 = w0 ∧ f.lit = lit := by
  have hord : Form.ofMajor (w0 / 8 % 128) = .mo → f.ord ≠ 7 := by
    intro hmo h7
    have hlm : f.len = Len.ofCode (w0 % 4) ∧ f.major = w0 / 8 % 128 := by
      rw [readBase, hmo] at h; simp only [baseFields, Except.ok.injEq] at h; subst h; exact ⟨rfl, rfl⟩
    exact ho ⟨by rw [hlm.1]; exact hwide, by rw [hlm.2]; exact hmo, h7⟩
  obtain ⟨hl, hs, hm, hlit', hform, hbits⟩ := baseFields_ok (by omega) h hord
  refine ⟨⟨by omega, by omega, ?_, fun _ => by rw [hm]; exact hform, ?_⟩, hl, ?_, hlit'⟩
  · rintro (h | h)
    · rw [hlit']; exact hno (hl.symm.trans h)
    · rw [← hl, h] at hwide; cases hwide
  · intro h; rw [hl, hwide] at h; cases h
  · rw [hbits]; exact lowBits_of_word hl hs hm

/-- What the words of an extended form and its literal are read as. -/
theorem sayable_of_extFields {w0 w1 w2 lit : Nat} {f : Fields} (h1 : w1 < 2 ^ 32) (h2 : w2 < 2 ^ 32) (hlit : lit < 2 ^ 64)
    (hwide : (Len.ofCode (w0 % 4)).wide = true) (hno : Len.ofCode (w0 % 4) = .x96x → lit = 0)
    (h : readExt w0 w1 w2 lit = .ok f) :
    f.Sayable ∧ f.len = Len.ofCode (w0 % 4) ∧ f.lowBits + f.d * 1024 + f.fn * 2 ^ 22 + f.msk * 2 ^ 28 = w0 ∧
      f.a + f.b * 4096 + f.typ * 2 ^ 24 + f.ord * 2 ^ 29 = w1 ∧ f.c + f.scope * 4096 + f.imm * 2 ^ 16 = w2 ∧ f.lit = lit := by
  obtain ⟨hl, hs, hm, hlit', hbelow, e0, e1, e2⟩ := extFields_ok h1 h2 h
  refine ⟨⟨by omega, by omega, ?_, ?_, fun _ => hbelow⟩, hl, ?_, e1, e2, hlit'⟩
  · rintro (h | h)
    · rw [← hl, h] at hwide; cases hwide
    · rw [hlit']; exact hno (hl.symm.trans h)
  · intro h; rw [hl, hwide] at h; cases h
  · have := lowBits_of_word hl hs hm
    omega

/-- The fields that words begin with say those words, unless a reserved ORD2 was read. -/
theorem words_of_fieldsOfWords {ws : List Nat} {f : Fields} (hw : ∀ w ∈ ws, w < 2 ^ 32) (h : fieldsOfWords ws = .ok f)
    (ho : ¬ f.reservedOrd) : f.Sayable ∧ ∃ rest, ws = f.words ++ rest := by
  have literal : ∀ {l0 l1 : Nat}, l0 < 2 ^ 32 → l1 < 2 ^ 32 → f.lit = l0 + l1 * 2 ^ 32 → f.lit % 2 ^ 32 = l0 ∧ f.lit / 2 ^ 32 = l1 := by
    omega
  cases ws with
  | nil => cases h
  | cons w0 rest =>
    have h0 : w0 < 2 ^ 32 := hw w0 (by simp)
    unfold fieldsOfWords at h
    dsimp only at h
    split at h
    case h_1 tail _ _ hl =>
      obtain ⟨hf, hlen, e0, -⟩ := sayable_of_baseFields h0 (by decide) (by rw [hl]; rfl) (fun _ => rfl) h ho
      refine ⟨hf, tail, ?_⟩
      rw [hl] at hlen
      simp only [Fields.words, hlen, e0]; rfl
    case h_2 l0 l1 tail hl =>
      have hb0 : l0 < 2 ^ 32 := hw l0 (by simp)
      have hb1 : l1 < 2 ^ 32 := hw l1 (by simp)
      obtain ⟨hf, hlen, e0, el⟩ := sayable_of_baseFields h0 (show l0 + l1 * 2 ^ 32 < 2 ^ 64 by omega) (by rw [hl]; rfl) (by rw [hl]; nofun) h ho
      obtain ⟨el0, el1⟩ := literal hb0 hb1 el
      refine ⟨hf, tail, ?_⟩
      rw [hl] at hlen
      simp only [Fields.words, hlen, e0, el0, el1]; rfl
    case h_3 w1 w2 tail hl =>
      have hb1 : w1 < 2 ^ 32 := hw w1 (by simp)
      have hb2 : w2 < 2 ^ 32 := hw w2 (by simp)
      obtain ⟨hf, hlen, e0, e1, e2, -⟩ := sayable_of_extFields hb1 hb2 (by decide) (by rw [hl]; rfl) (fun _ => rfl) h
      refine ⟨hf, tail, ?_⟩
      rw [hl] at hlen
      simp only [Fields.words, hlen, e0, e1, e2]; rfl
    case h_4 w1 w2 l0 l1 tail hl =>
      have hb1 : w1 < 2 ^ 32 := hw w1 (by simp)
      have hb2 : w2 < 2 ^ 32 := hw w2 (by simp)
      have hc0 : l0 < 2 ^ 32 := hw l0 (by simp)
      have hc1 : l1 < 2 ^ 32 := hw l1 (by simp)
      obtain ⟨hf, hlen, e0, e1, e2, el⟩ := sayable_of_extFields hb1 hb2 (show l0 + l1 * 2 ^ 32 < 2 ^ 64 by omega) (by rw [hl]; rfl) (by rw [hl]; nofun) h
      obtain ⟨el0, el1⟩ := literal hc0 hc1 el
      refine ⟨hf, tail, ?_⟩
      rw [hl] at hlen
      simp only [Fields.words, hlen, e0, e1, e2, el0, el1]; rfl
    case h_5 => cases h

/-! ### Bytes of words (R33) -/

theorem wordOfBytes_bytesOfWord {w : Nat} (h : w < 2 ^ 32) : wordOfBytes (BitVec.ofNat 8 w) (BitVec.ofNat 8 (w / 2 ^ 8))
    (BitVec.ofNat 8 (w / 2 ^ 16)) (BitVec.ofNat 8 (w / 2 ^ 24)) = w := by
  simp only [wordOfBytes, BitVec.toNat_ofNat]; omega

theorem wordsOfBytes_bytesOfWord {ws : List Nat} (h : ∀ w ∈ ws, w < 2 ^ 32) : wordsOfBytes (ws.flatMap bytesOfWord) = ws := by
  induction ws with
  | nil => rfl
  | cons w ws ih =>
    show wordOfBytes _ _ _ _ :: wordsOfBytes (ws.flatMap bytesOfWord) = _
    rw [wordOfBytes_bytesOfWord (h w (by simp)), ih (fun x hx => h x (by simp [hx]))]

/-- What an entry of the opcode map asks of the fields that it reads (R44). -/
theorem leaf_ok {f : Fields} {lens : List Len} {unused : List Nat} {ok : Prop} [Decidable ok] {i j : Instr} :
    f.leaf lens unused ok i = .ok j ↔ f.len ∈ lens ∧ (∀ x ∈ unused, x = 0) ∧ ok ∧ i = j := by
  have hany : unused.any (· != 0) = true ↔ ¬ ∀ x ∈ unused, x = 0 := by simp
  unfold Fields.leaf
  split_ifs with h1 h2 h3
  · simp [hany.1 h2]
  · have hu := not_not.1 (mt hany.2 h2)
    exact ⟨fun h => ⟨List.contains_iff_mem.1 h1, hu, h3, Except.ok.inj h⟩, fun ⟨_, _, _, h⟩ => congrArg _ h⟩
  · simp [h3]
  · simp [mt List.contains_iff_mem.2 h1]

theorem leaf_of {f : Fields} {lens : List Len} {unused : List Nat} {ok : Prop} [Decidable ok] {i j : Instr} (hlen : f.len ∈ lens)
    (hu : unused.all (· == 0) = true) (hok : ok) (hij : i = j) : f.leaf lens unused ok i = .ok j :=
  leaf_ok.2 ⟨hlen, by simpa using hu, hok, hij⟩

/-- The bound of a name code of this length (R42). -/
def Len.nameBound (l : Len) : Nat := if l.wide = true then 4096 else 64

theorem name_wf {len : Len} {c : Nat} (h : c < len.nameBound) : (Name.ofCode len c).wf len = true := by
  unfold Len.nameBound at h
  unfold Name.ofCode Name.ofHigh
  cases hw : len.wide <;> simp only [hw, if_true, if_false, Bool.false_eq_true] at h ⊢ <;> repeat' split
  all_goals simp only [Name.wf, hw, decide_eq_true_eq, if_true, if_false, Bool.false_eq_true] <;> omega

@[simp] theorem name_code {len : Len} (c : Nat) : (Name.ofCode len c).code len = c := by
  unfold Name.ofCode Name.ofHigh
  cases hw : len.wide <;> simp only [if_true, if_false, Bool.false_eq_true] <;> repeat' split
  all_goals simp only [Name.code, hw, if_true, if_false, Bool.false_eq_true] <;> omega

/-- The first name code above those of the w names (R42). -/
def Len.highBase (l : Len) : Nat := if l.wide = true then 0xFF0 else 48

theorem ofCode_eq (len : Len) (c : Nat) :
    Name.ofCode len c = if c < len.highBase then .w c else .ofHigh (c - len.highBase) := by
  cases len <;> rfl

theorem ofCode_highBase (len : Len) (k : Nat) : Name.ofCode len (len.highBase + k) = .ofHigh k := by
  rw [ofCode_eq, if_neg (by omega), Nat.add_sub_cancel_left]

theorem code_name {len : Len} {n : Name} (h : n.wf len = true) : Name.ofCode len (n.code len) = n := by
  have high : ∀ k, n.code len = len.highBase + k → Name.ofHigh k = n → Name.ofCode len (n.code len) = n := fun k hk hn => by
    rw [hk, ofCode_highBase, hn]
  cases n with
  | w n =>
    simp only [Name.wf] at h
    unfold Name.ofCode Name.code
    cases hw : len.wide <;> simp only [hw, decide_eq_true_eq, if_true, if_false, Bool.false_eq_true] at h ⊢ <;>
      exact if_pos (by omega)
  | o n =>
    have hn : n < 8 := by simpa [Name.wf] using h
    exact high n (by cases len <;> rfl) (by rw [Name.ofHigh, if_pos hn])
  | q => exact high 8 (by cases len <;> rfl) rfl
  | st => exact high 9 (by cases len <;> rfl) rfl
  | zr => exact high 10 (by cases len <;> rfl) rfl
  | rsv i =>
    refine high (11 + i) (by cases len <;> simp only [Name.code, Len.highBase, Len.wide, if_true, if_false, Bool.false_eq_true] <;> omega) ?_
    unfold Name.ofHigh
    rw [if_neg (by omega), if_neg (by omega), if_neg (by omega), if_neg (by omega), Nat.add_sub_cancel_left]

theorem code_lt {len : Len} {n : Name} (h : n.wf len = true) : n.code len < len.nameBound := by
  unfold Len.nameBound
  cases n <;> cases hw : len.wide <;> simp [Name.wf, Name.code, hw] at h ⊢ <;> omega

/-! ### Immediates (R36, R38, R41) -/

theorem sext_bounds {bits x : Nat} (h0 : 0 < bits) (h : x < 2 ^ bits) :
    -(2 ^ (bits - 1) : Int) ≤ sext bits x ∧ sext bits x < (2 ^ (bits - 1) : Int) ∧ sext bits x % 2 ^ bits = x := by
  obtain ⟨n, rfl⟩ : ∃ n, bits = n + 1 := ⟨bits - 1, by omega⟩
  have hx : (x : Int) < 2 ^ n * 2 := by rw [← pow_succ]; exact_mod_cast h
  have e : sext (n + 1) x % 2 ^ (n + 1) = (x : Int) % 2 ^ (n + 1) := by
    unfold sext; split
    · rfl
    · exact Int.sub_emod_right _ _
  refine ⟨?_, ?_, e.trans (Int.emod_eq_of_lt (by omega) (by exact_mod_cast h))⟩ <;> unfold sext <;> split <;> rename_i hs
  · exact le_trans (by simp) (Int.natCast_nonneg x)
  · have : (2 : Int) ^ n ≤ x := by exact_mod_cast not_lt.1 hs
    rw [Nat.add_sub_cancel, pow_succ]; omega
  · exact_mod_cast hs
  · rw [Nat.add_sub_cancel, pow_succ]; omega

/-- A signed field in units: the value that it says fits it. -/
theorem signedWf_sext {bits unit x : Nat} (h : x < 2 ^ bits) (hu : 0 < unit ∨ bits = 0) :
    signedWf bits unit (sext bits x * unit) = true ∧ (sext bits x * unit / unit % 2 ^ bits).toNat = x := by
  by_cases hb : bits = 0
  · subst hb
    have hx : x = 0 := by simpa using h
    subst hx
    simp [signedWf, sext]
  · have hu : 0 < unit := hu.resolve_right hb
    have hz : (unit : Int) ≠ 0 := by omega
    obtain ⟨h1, h2, h3⟩ := sext_bounds (Nat.pos_of_ne_zero hb) h
    rw [Int.mul_ediv_cancel _ hz, h3]
    refine ⟨?_, rfl⟩
    simp only [signedWf, Int.mul_emod_left, decide_true, Bool.true_and, hb, if_false, decide_eq_true_eq]
    exact ⟨Int.mul_le_mul_of_nonneg_right h1 (by omega), Int.mul_lt_mul_of_pos_right h2 (by omega)⟩

theorem sext_emod {bits : Nat} {v : Int} (h0 : 0 < bits) (h1 : -(2 ^ (bits - 1) : Int) ≤ v) (h2 : v < (2 ^ (bits - 1) : Int)) :
    sext bits (v % 2 ^ bits).toNat = v := by
  obtain ⟨n, rfl⟩ : ∃ n, bits = n + 1 := ⟨bits - 1, by omega⟩
  rw [Nat.add_sub_cancel] at h1 h2
  have hp : (2 : Int) ^ (n + 1) = 2 * 2 ^ n := by rw [pow_succ]; ring
  have hpos : (0 : Int) < 2 ^ n := by positivity
  have hcast : ((v % 2 ^ (n + 1)).toNat : Int) = v % 2 ^ (n + 1) := Int.toNat_of_nonneg (Int.emod_nonneg _ (by omega))
  unfold sext
  rw [Nat.add_sub_cancel]
  by_cases hv : 0 ≤ v
  · have e : v % 2 ^ (n + 1) = v := Int.emod_eq_of_lt hv (by omega)
    rw [e] at hcast ⊢
    rw [if_pos (by zify; omega), hcast]
  · have e : v % 2 ^ (n + 1) = v + 2 ^ (n + 1) := by
      rw [← Int.add_emod_right]; exact Int.emod_eq_of_lt (by omega) (by omega)
    rw [e] at hcast ⊢
    rw [if_neg (by zify; omega), hcast]; omega

/-- A value that fits a signed field is said by it. -/
theorem sext_signedWf {bits unit : Nat} {v : Int} (h : signedWf bits unit v = true) :
    sext bits (v / unit % 2 ^ bits).toNat * unit = v ∧ (v / unit % 2 ^ bits).toNat < 2 ^ bits := by
  have hpos : (0 : Int) < 2 ^ bits := by positivity
  have hlt := Int.emod_lt_of_pos (v / unit) hpos
  refine ⟨?_, by zify; rw [Int.toNat_of_nonneg (Int.emod_nonneg _ hpos.ne')]; exact hlt⟩
  obtain ⟨hdvd, h⟩ : v % unit = 0 ∧ _ := by simpa only [signedWf, Bool.and_eq_true, decide_eq_true_eq] using h
  have hv : v / unit * unit = v := Int.ediv_mul_cancel (Int.dvd_of_emod_eq_zero hdvd)
  by_cases hb : bits = 0
  · have hv0 : v = 0 := by simpa [hb] using h
    subst hb hv0; simp [sext]
  · simp only [hb, if_false, decide_eq_true_eq] at h
    obtain ⟨h1, h2⟩ := h
    have hu : (0 : Int) < unit := by
      rcases Nat.eq_zero_or_pos unit with rfl | hu
      · simp at h1 h2; omega
      · exact_mod_cast hu
    rw [← hv] at h1 h2
    rw [sext_emod (Nat.pos_of_ne_zero hb) (le_of_mul_le_mul_right (by linarith) hu) (lt_of_mul_lt_mul_right h2 hu.le), hv]

/-- What the immediate field and the literal of an instruction hold (R36, R38, R41). -/
structure Fields.ImmFits (f : Fields) (bits : Nat) : Prop where
  lit : f.lit < 2 ^ 64
  noLit : f.len = .w32 ∨ f.len = .x96x → f.lit = 0
  place : f.litPlace
  base : f.len = .w32 → f.imm < 2 ^ bits
  ext : f.len = .x96x → f.imm < 2 ^ 16

/-- The immediate that the fields say is one that its instruction can hold, and the fields are those that say it. -/
theorem immediate_wf {f : Fields} {bits ub ue : Nat} (h : f.ImmFits bits) (hub : 0 < ub ∨ bits = 0) (hue : 0 < ue) :
    immWf bits ub ue f.len (f.immediate bits ub ue) = true ∧ immField bits ub ue f.len (f.immediate bits ub ue) = f.imm ∧
      immLit f.len (f.immediate bits ub ue) = f.lit := by
  obtain ⟨hlit, hno, hplace, hbase, hext⟩ := h
  have literal : signedWf 64 1 (sext 64 f.lit) = true ∧ (sext 64 f.lit % 2 ^ 64).toNat = f.lit := by
    simpa using signedWf_sext (unit := 1) hlit (.inl one_pos)
  unfold immWf immField immLit Fields.immediate
  cases hl : f.len with
  | w32 => obtain ⟨h1, h2⟩ := signedWf_sext (hbase hl) hub; exact ⟨h1, h2, (hno (.inl hl)).symm⟩
  | x96x => obtain ⟨h1, h2⟩ := signedWf_sext (hext hl) (.inl hue); exact ⟨h1, h2, (hno (.inr hl)).symm⟩
  | x96l => exact ⟨literal.1, (hplace (.inl hl)).symm, literal.2⟩
  | x160 => exact ⟨literal.1, (hplace (.inr hl)).symm, literal.2⟩

/-- Fields that say an immediate are read as it. -/
theorem immediate_of_wf {f : Fields} {bits ub ue : Nat} {v : Int} (h : immWf bits ub ue f.len v = true)
    (hi : f.imm = immField bits ub ue f.len v) (hl : f.lit = immLit f.len v) :
    f.ImmFits bits ∧ f.immediate bits ub ue = v := by
  unfold immWf at h
  unfold immField at hi
  unfold immLit at hl
  unfold Fields.immediate
  rcases hlen : f.len with _ | _ | _ | _ <;> simp only [hlen] at h hi hl ⊢
  · obtain ⟨h1, h2⟩ := sext_signedWf h
    rw [← hi] at h1 h2
    exact ⟨⟨by omega, by simp [hl], by simp [Fields.litPlace, hlen], fun _ => h2, by simp [hlen]⟩, h1⟩
  · have := sext_signedWf h
    simp only [Int.ediv_one, Nat.cast_one, mul_one, ← hl] at this
    exact ⟨⟨this.2, by simp [hlen], by simp [Fields.litPlace, hi], by simp [hlen], by simp [hlen]⟩, this.1⟩
  · obtain ⟨h1, h2⟩ := sext_signedWf h
    rw [← hi] at h1 h2
    exact ⟨⟨by omega, by simp [hl], by simp [Fields.litPlace, hlen], by simp [hlen], fun _ => h2⟩, h1⟩
  · have := sext_signedWf h
    simp only [Int.ediv_one, Nat.cast_one, mul_one, ← hl] at this
    exact ⟨⟨this.2, by simp [hlen], by simp [Fields.litPlace, hi], by simp [hlen], by simp [hlen]⟩, this.1⟩

/-! ### Codes of names, types and immediates within their fields -/

@[simp] theorem Ty.ofCode_code (t : Ty) : Ty.ofCode t.code = t := by cases t <;> rfl
@[simp] theorem Ord.ofCode_code (o : Ord) : Ord.ofCode o.code = o := by cases o <;> rfl
@[simp] theorem Scope.ofCode_code (c : Scope) : Scope.ofCode c.code = c := by cases c <;> rfl
@[simp] theorem Ty.code_implied : Ty.implied.code = 0 := rfl
theorem Ty.code_lt (t : Ty) : t.code < 32 := by cases t <;> decide
theorem Ord.code_lt (t : Ord) : t.code < 8 := by cases t <;> decide
theorem Scope.code_le (t : Scope) : t.code ≤ 8 := by cases t <;> decide
theorem Scope.code_lt (t : Scope) : t.code < 16 := lt_of_le_of_lt t.code_le (by decide)

theorem code_lt_base {len : Len} {n : Name} (hw : len.wide = false) (h : n.wf len = true) : n.code len < 64 := by
  have := code_lt h; rwa [Len.nameBound, hw] at this
theorem code_lt_ext {len : Len} {n : Name} (hw : len.wide = true) (h : n.wf len = true) : n.code len < 4096 := by
  have := code_lt h; rwa [Len.nameBound, hw] at this
theorem name_code_w (len : Len) (n : Nat) : (Name.w n).code len = n := rfl
theorem Len.of_wide_false {l : Len} (h : l.wide = false) : l = .w32 ∨ l = .x96l := by
  cases l <;> simp [Len.wide] at h ⊢

theorem immediate_mk {len : Len} {s : Bool} {major fn d a b c msk typ ord scope bits ub ue : Nat} {v : Int}
    (h : immWf bits ub ue len v = true) :
    Fields.immediate ⟨len, s, major, fn, d, a, b, c, msk, typ, ord, scope, immField bits ub ue len v, immLit len v⟩ bits ub ue = v :=
  (immediate_of_wf h rfl rfl).2
theorem immField_place {l : Len} (h : l = .x96l ∨ l = .x160) (bits ub ue : Nat) (v : Int) : immField bits ub ue l v = 0 := by
  rcases h with rfl | rfl <;> rfl
theorem immField_none {l : Len} (h : l = .w32) (ub ue : Nat) (v : Int) : immField 0 ub ue l v = 0 := by
  subst h; simp [immField]
theorem immField_lt {l : Len} (h : l.wide = false) {bits : Nat} (ub ue : Nat) (v : Int) : immField bits ub ue l v < 2 ^ bits := by
  have hpos : (0 : Int) < 2 ^ bits := by positivity
  rcases Len.of_wide_false h with rfl | rfl
  · show (v / ub % 2 ^ bits).toNat < 2 ^ bits
    zify; rw [Int.toNat_of_nonneg (Int.emod_nonneg _ hpos.ne')]; exact Int.emod_lt_of_pos _ hpos
  · exact Nat.two_pow_pos _
theorem immField_lt_of {l : Len} (h : l.wide = false) {bits n : Nat} (hn : 2 ^ bits ≤ n) (ub ue : Nat) (v : Int) :
    immField bits ub ue l v < n := lt_of_lt_of_le (immField_lt h ub ue v) hn
theorem immField_zero {l : Len} (h : l.wide = false) (ub ue : Nat) (v : Int) : immField 0 ub ue l v = 0 :=
  Nat.lt_one_iff.1 (immField_lt h ub ue v)
theorem immField_lt_ext {l : Len} (h : l.wide = true) (bits ub ue : Nat) (v : Int) : immField bits ub ue l v < 65536 := by
  cases l with
  | w32 => cases h
  | x96l => cases h
  | x96x => show (v / ue % 2 ^ 16).toNat < 65536; omega
  | x160 => exact Nat.zero_lt_succ _
theorem immLit_lt (l : Len) (v : Int) : immLit l v < 18446744073709551616 := by
  cases l <;> simp only [immLit] <;> omega
theorem immLit_none {l : Len} (h : l = .w32 ∨ l = .x96x) (v : Int) : immLit l v = 0 := by
  rcases h with rfl | rfl <;> rfl
theorem lit_toNat_lt (v : BitVec 64) : v.toNat < 18446744073709551616 := v.isLt

/-! ### The fields of a well-formed instruction

One case per instruction: what its words can say, and the entry of the opcode map that reads them. -/

section
variable {i : Instr} {f : Fields} (hwf : i.wf = true) (hf : i.fields = some f)
include hwf hf

theorem fields_lit : f.lit < 2 ^ 64 ∧ (f.len = .w32 ∨ f.len = .x96x → f.lit = 0) := by
  cases i <;> cases hf
  all_goals
    unfold Instr.wf at hwf
    simp only [Hd.okLen, List.contains_iff_mem, Bool.and_eq_true, decide_eq_true_eq] at hwf
    refine ⟨by simp [immLit_lt, lit_toNat_lt], fun h => ?_⟩
    simp [immLit_none h]; try grind

theorem fields_below (hw : f.len.wide = true) : f.below 64 4096 4096 4096 4096 8 32 8 16 65536 := by
  cases i <;> cases hf
  all_goals
    unfold Instr.wf at hwf
    simp only [Hd.okLen, List.contains_iff_mem, Bool.and_eq_true, decide_eq_true_eq] at hwf
    simp [Fields.below, code_lt_ext hw, hwf, immField_lt_ext hw, Scope.code_lt, Ord.code_lt, Ty.code_lt]; try grind

theorem fields_inForm (hw : f.len.wide = false) : f.inForm (.ofMajor f.major) := by
  cases i <;> cases hf
  case lda | stl | ldvg | ldvgNf | stvs | bsleep | bwake =>
    unfold Instr.wf at hwf
    simp only [Hd.okLen, List.contains_iff_mem, Bool.and_eq_true, decide_eq_true_eq] at hwf
    simp [Fields.inForm, Form.ofMajor, Fields.below, code_lt_base hw, hwf, immField_zero hw, Scope.code_lt, Ord.code_lt, Ty.code_lt]
    grind [Len.of_wide_false]
  all_goals
    unfold Instr.wf at hwf
    simp only [Hd.okLen, List.contains_iff_mem, Bool.and_eq_true, decide_eq_true_eq] at hwf
    change Fields.below _ _ _ _ _ _ _ _ _ _ _
    simp only [Fields.below, code_lt_base hw, hwf, immField_lt_of hw, immField_zero hw, Ord.code_lt, Scope.code_lt, Nat.reduceLT,
      Nat.lt_one_iff, Nat.ofNat_pos, Nat.reducePow, le_refl, true_and, and_true]
  case cget => omega
  all_goals
    obtain hl | hl : Hd.len _ = .w32 ∨ Hd.len _ = .x96l := Len.of_wide_false hw
    all_goals simp only [hl, List.mem_cons, reduceCtorEq, List.not_mem_nil, or_false, false_and, true_and, bne_self_eq_false,
      Bool.false_or, decide_eq_true_eq] at hwf
    all_goals simp only [hl, hwf, Ty.code_implied, and_self, if_true, true_and]
  all_goals grind

theorem decode_fields : f.decode = .ok i := by
  cases i <;> cases hf
  case cget h fsel d a =>
    unfold Instr.wf at hwf
    simp only [Hd.okLen, List.contains_iff_mem, Bool.and_eq_true, decide_eq_true_eq] at hwf
    change ite (8 ≤ fsel) _ _ = _
    rw [if_neg (by omega)]
    exact leaf_of (by simp [hwf]) rfl trivial (by simp [hwf, Fields.hd, Fields.name, code_name])
  case vmin | vmax =>
    unfold Instr.wf at hwf
    simp only [Hd.okLen, List.contains_iff_mem, Bool.and_eq_true, decide_eq_true_eq] at hwf
    change ite (2 ≤ ite _ 1 0 ∨ _) _ _ = _
    rw [if_neg (by grind)]
    refine leaf_of (by simp [hwf]) rfl ?_ ?_
    · grind
    · simp [hwf, Fields.hd, Fields.name, code_name]; grind [Ty.ofCode_code, Ty.ofCode]
  all_goals
    unfold Instr.wf at hwf
    simp only [Hd.okLen, List.contains_iff_mem, Bool.and_eq_true, decide_eq_true_eq] at hwf
    refine leaf_of (by simp [hwf]) rfl ?_ ?_
    · simp +contextual [hwf, Scope.code_le, Fields.litPlace, immField_place, immField_none, immediate_mk]
      try omega
      try grind [name_code_w]
    · simp [hwf, Fields.hd, Fields.name, code_name, immediate_mk]
      try omega

end

/-! ### What fields that words can say hold -/

/-- How many bits the immediate field of a form has; the forms without one have a field of none (R35). -/
def Form.immBits : Form → Nat
  | .i | .m | .b => 10
  | .j => 22
  | .jk => 16
  | .a | .v | .mo | .p | .o => 0

theorem Form.ofMajor_mo {m : Nat} (h : Form.ofMajor m = .mo) : m = 0x4F := by
  unfold Form.ofMajor at h; split_ifs at h; assumption
theorem Form.ofMajor_o {m : Nat} (h : Form.ofMajor m = .o) : m = 0x59 := by
  unfold Form.ofMajor at h; split_ifs at h; assumption

theorem Ty.ofCode_zero : Ty.ofCode 0 = .implied := rfl
theorem Ty.code_ofCode {t : Nat} (h : t < 27) (h' : t ≠ 15) : (Ty.ofCode t).code = t := by
  have : ∀ t < 27, t ≠ 15 → (Ty.ofCode t).code = t := by decide
  exact this t h h'
theorem Ord.code_ofCode {t : Nat} (h : t ≤ 4) : (Ord.ofCode t).code = t := by
  have : ∀ t ≤ 4, (Ord.ofCode t).code = t := by decide
  exact this t h
theorem Scope.code_ofCode {t : Nat} (h : t ≤ 8) : (Scope.ofCode t).code = t := by
  have : ∀ t ≤ 8, (Scope.ofCode t).code = t := by decide
  exact this t h
theorem Fields.name_zero (f : Fields) : f.name 0 = .w 0 := by
  unfold Fields.name; cases f.len <;> rfl

/-- No immediate field stands beside the literal of an immediate (R41). -/
def Fields.Placed (f : Fields) : Prop := f.litPlace
theorem placed_iff {f : Fields} : (f.len = .x96l ∨ f.len = .x160 → f.imm = 0) ↔ f.Placed := Iff.rfl

theorem fields_eq_iff {f : Fields} {m fn d a b c msk typ ord scope imm lit : Nat} :
    (⟨f.len, f.s, m, fn, d, a, b, c, msk, typ, ord, scope, imm, lit⟩ : Fields) = f ↔ m = f.major ∧ fn = f.fn ∧ d = f.d ∧ a = f.a ∧
      b = f.b ∧ c = f.c ∧ msk = f.msk ∧ typ = f.typ ∧ ord = f.ord ∧ scope = f.scope ∧ imm = f.imm ∧ lit = f.lit := by
  cases f; simp

namespace Fields.Sayable
variable {f : Fields} (h : f.Sayable)
include h

theorem msk_lt : f.msk < 8 := by
  obtain ⟨-, -, -, hb, he⟩ := h
  cases hw : f.len.wide
  · replace hb := hb hw
    revert hb
    cases Form.ofMajor f.major <;> simp only [Fields.inForm, Fields.below] <;> omega
  · have hbelow := he hw
    simp only [Fields.below] at hbelow; omega

/-- Every name field holds a code of a name (R42). -/
theorem names_wf : (f.name f.d).wf f.len = true ∧ (f.name f.a).wf f.len = true ∧ (f.name f.b).wf f.len = true ∧
    (f.name f.c).wf f.len = true := by
  have codes : f.d < f.len.nameBound ∧ f.a < f.len.nameBound ∧ f.b < f.len.nameBound ∧ f.c < f.len.nameBound := by
    obtain ⟨-, -, -, hb, he⟩ := h
    unfold Len.nameBound
    cases hw : f.len.wide
    · replace hb := hb hw
      revert hb
      cases Form.ofMajor f.major <;> simp only [Fields.inForm, Fields.below, Bool.false_eq_true, if_false] <;> omega
    · have hbelow := he hw
      simp only [Fields.below] at hbelow
      simp only [if_true]; omega
  obtain ⟨hd, ha, hb, hc⟩ := codes
  exact ⟨name_wf hd, name_wf ha, name_wf hb, name_wf hc⟩

/-- Outside the forms MO and O a base word has no TYPE, ORD and SCOPE (R35). -/
theorem unsaid (hl : f.len = .w32) (hm : f.major ≠ 0x4F) (ho : f.major ≠ 0x59) : f.typ = 0 ∧ f.ord = 0 ∧ f.scope = 0 := by
  have hb := h.base (by rw [hl]; rfl)
  cases hform : Form.ofMajor f.major <;> simp only [hform, Fields.inForm, Fields.below] at hb
  case mo => exact absurd (Form.ofMajor_mo hform) hm
  case o => exact absurd (Form.ofMajor_o hform) ho
  all_goals omega

theorem imm_lt (hl : f.len = .w32) : f.imm < 2 ^ (Form.ofMajor f.major).immBits := by
  have hb := h.base (by rw [hl]; rfl)
  revert hb
  cases Form.ofMajor f.major <;> simp only [Fields.inForm, Fields.below, Form.immBits] <;> omega

/-- A base word whose form has no immediate field says no immediate (R35). -/
theorem noImm (hl : f.len = .w32) (hb : (Form.ofMajor f.major).immBits = 0) : f.imm = 0 := by
  have := h.imm_lt hl
  rw [hb] at this; omega

variable {bits ub ue : Nat} (hp : f.Placed) (hb : (Form.ofMajor f.major).immBits = bits) (hub : 0 < ub ∨ bits = 0) (hue : 0 < ue)
include hp hb

theorem immFits : f.ImmFits bits := by
  refine ⟨h.lit, h.noLit, hp, fun hl => hb ▸ h.imm_lt hl, fun hl => ?_⟩
  have hbelow := h.ext (by rw [hl]; rfl)
  simp only [Fields.below] at hbelow; omega

include hub hue

theorem immWf_immediate : immWf bits ub ue f.len (f.immediate bits ub ue) = true :=
  (immediate_wf (h.immFits hp hb) hub hue).1
theorem immField_immediate : immField bits ub ue f.len (f.immediate bits ub ue) = f.imm :=
  (immediate_wf (h.immFits hp hb) hub hue).2.1
theorem immLit_immediate : immLit f.len (f.immediate bits ub ue) = f.lit :=
  (immediate_wf (h.immFits hp hb) hub hue).2.2

end Fields.Sayable

/-! ### What the opcode map reads

One case per entry: the instruction that it reads is well-formed, and its fields are the ones read. -/

section
variable {f : Fields} {i : Instr} (hf : f.Sayable) (h : f.decode = .ok i)
include hf h

theorem wf_decode : i.wf = true := by
  unfold Fields.decode at h
  split at h
  all_goals simp only [Fields.decode00, Fields.decode01, Fields.decode02, Fields.decode03, Fields.decode04, Fields.decode05, Fields.decode10,
      Fields.decode11, Fields.decode12, Fields.decode13, Fields.decode14, Fields.decode15, Fields.decode16,
      Fields.decode17, Fields.decode18, Fields.decode20, Fields.decode21, Fields.decode22, Fields.decode23,
      Fields.decode24, Fields.decode25, Fields.decode26, Fields.decode27, Fields.decode28, Fields.decode29,
      Fields.decode2A, Fields.decode2B, Fields.decode30, Fields.decode31, Fields.decode32, Fields.decode33,
      Fields.decode40, Fields.decode41, Fields.decode42, Fields.decode43, Fields.decode44, Fields.decode45,
      Fields.decode46, Fields.decode47, Fields.decode48, Fields.decode49, Fields.decode4A, Fields.decode4B,
      Fields.decode4C, Fields.decode4D, Fields.decode4E, Fields.decode4F, Fields.decode50, Fields.decode51,
      Fields.decode52, Fields.decode58, Fields.decode59, Fields.decode5A, Fields.decode60, Fields.decode61,
      Fields.decode62, Fields.decode63, Fields.decode64, Fields.decode65, Fields.decode66, Fields.decode67,
      Fields.decode68, Fields.decode69, Fields.decode6A, Fields.decode6B, Fields.decode6C, Fields.decode70,
      Fields.decode71, Fields.decode72, Fields.decode73, Fields.decode74, Fields.decode75, Fields.decode78,
      Fields.decode79, Fields.decode7C, Fields.decode7D, Fields.decode7E, reduceCtorEq] at h
  all_goals try split at h
  all_goals try split at h
  all_goals try cases h
  all_goals
    obtain ⟨hlen, hu, hok, rfl⟩ := leaf_ok.1 h
    clear h
    unfold Instr.wf
    simp only [List.mem_cons, List.not_mem_nil, or_false, forall_eq_or_imp, forall_eq, placed_iff] at hu hok
    simp only [Hd.okLen, Fields.hd, hf.names_wf, List.contains_iff_mem, hlen, Bool.and_eq_true, decide_eq_true_eq, and_true, true_and,
      and_self]
  all_goals simp only [List.mem_cons, List.not_mem_nil, or_false] at hlen
  all_goals try simp (disch := omega) only [Ty.code_ofCode, Ord.code_ofCode, Scope.code_ofCode]
  all_goals try omega
  all_goals simp [hf.immWf_immediate, Form.ofMajor, Form.immBits, hf.msk_lt, ← imp_iff_not_or, *]
  all_goals try simp +contextual [Ty.ofCode_zero, Fields.name_zero, hf.unsaid, hf.noImm, Form.ofMajor, Form.immBits, *]
  all_goals grind [Ty.code, Fields.name_zero, hf.noLit, Fields.Placed]

theorem fields_decode : i.fields = some f := by
  have hlit : f.lit < 18446744073709551616 := hf.lit
  unfold Fields.decode at h
  split at h
  all_goals simp only [Fields.decode00, Fields.decode01, Fields.decode02, Fields.decode03, Fields.decode04, Fields.decode05, Fields.decode10,
      Fields.decode11, Fields.decode12, Fields.decode13, Fields.decode14, Fields.decode15, Fields.decode16,
      Fields.decode17, Fields.decode18, Fields.decode20, Fields.decode21, Fields.decode22, Fields.decode23,
      Fields.decode24, Fields.decode25, Fields.decode26, Fields.decode27, Fields.decode28, Fields.decode29,
      Fields.decode2A, Fields.decode2B, Fields.decode30, Fields.decode31, Fields.decode32, Fields.decode33,
      Fields.decode40, Fields.decode41, Fields.decode42, Fields.decode43, Fields.decode44, Fields.decode45,
      Fields.decode46, Fields.decode47, Fields.decode48, Fields.decode49, Fields.decode4A, Fields.decode4B,
      Fields.decode4C, Fields.decode4D, Fields.decode4E, Fields.decode4F, Fields.decode50, Fields.decode51,
      Fields.decode52, Fields.decode58, Fields.decode59, Fields.decode5A, Fields.decode60, Fields.decode61,
      Fields.decode62, Fields.decode63, Fields.decode64, Fields.decode65, Fields.decode66, Fields.decode67,
      Fields.decode68, Fields.decode69, Fields.decode6A, Fields.decode6B, Fields.decode6C, Fields.decode70,
      Fields.decode71, Fields.decode72, Fields.decode73, Fields.decode74, Fields.decode75, Fields.decode78,
      Fields.decode79, Fields.decode7C, Fields.decode7D, Fields.decode7E, reduceCtorEq] at h
  all_goals try split at h
  all_goals try split at h
  all_goals try cases h
  all_goals
    obtain ⟨hlen, hu, hok, rfl⟩ := leaf_ok.1 h
    clear h
    simp only [List.mem_cons, List.not_mem_nil, or_false, forall_eq_or_imp, forall_eq, placed_iff] at hlen hu hok
    refine congrArg some (fields_eq_iff.2 ?_)
  all_goals try simp (disch := omega) only [Ty.code_ofCode, Ord.code_ofCode, Scope.code_ofCode]
  all_goals simp [Fields.name, Fields.hd, hf.immField_immediate, hf.immLit_immediate, Form.ofMajor, Form.immBits, hf.noLit, *]
  all_goals try omega
  all_goals grind [Ty.ofCode_zero, hf.unsaid]

end

/-- A reserved ORD2 is refused (R35). -/
theorem not_reservedOrd_of_decode {f : Fields} {i : Instr} (h : f.decode = .ok i) : ¬ f.reservedOrd := by
  rintro ⟨hw, hform, hord⟩
  have h : f.decode4F = .ok i := by
    unfold Fields.decode at h
    rwa [Form.ofMajor_mo hform] at h
  unfold Fields.decode4F at h
  have hlens := Len.of_wide_false hw
  split at h
  case h_8 => cases h
  all_goals
    obtain ⟨hlen, hu, hok, -⟩ := leaf_ok.1 h
    simp only [List.mem_cons, List.not_mem_nil, or_false, forall_eq_or_imp, forall_eq] at hlen hu
    grind

open Sys2Proof.Machine

/-! ### The encoding (R33 to R44) -/

theorem hd_of_fields {i : Instr} {f : Fields} (hf : i.fields = some f) : i.hd = some f.hd := by
  cases i <;> cases hf <;> rfl

theorem sayable_fields {i : Instr} {f : Fields} (hwf : i.wf = true) (hf : i.fields = some f) : f.Sayable := by
  have hmajor : f.major < 128 := by cases i <;> cases hf <;> exact Nat.le_of_ble_eq_true rfl
  obtain ⟨hlit, hno⟩ := fields_lit hwf hf
  exact ⟨hmajor, hlit, hno, fields_inForm hwf hf, fields_below hwf hf⟩

theorem encode_of_fields {i : Instr} {f : Fields} (hf : i.fields = some f) : encode i = f.words := by
  rw [encode, hf]

theorem decodeWords_encode {i : Instr} {f : Fields} (hwf : i.wf = true) (hf : i.fields = some f) (rest : List Nat) :
    decodeWords (encode i ++ rest) = .ok i := by
  rw [encode_of_fields hf, decodeWords, fieldsOfWords_words (sayable_fields hwf hf)]
  exact decode_fields hwf hf

theorem wordLength_encode {f : Fields} (hf : f.Sayable) {w : Nat} {tail : List Nat} (h : f.words = w :: tail) :
    wordLength w = 4 * f.len.words := by
  obtain ⟨tail', hwords, -⟩ := words_cons f
  obtain ⟨rfl, -⟩ := List.cons.inj (h.symm.trans hwords)
  rw [wordLength, (lowBits_read f hf.major f.above).1]

/-- The words that the decoder reads begin with the encoding of what it reads. -/
theorem encode_of_decodeWords {ws : List Nat} {i : Instr} (hw : ∀ w ∈ ws, w < 2 ^ 32) (h : decodeWords ws = .ok i) :
    i.wf = true ∧ i.fields ≠ none ∧ ∃ rest, ws = encode i ++ rest := by
  unfold decodeWords at h
  split at h
  · cases h
  case h_2 f hread =>
    obtain ⟨hsay, rest, hws⟩ := words_of_fieldsOfWords hw hread (not_reservedOrd_of_decode h)
    have hf := fields_decode hsay h
    exact ⟨wf_decode hsay h, by rw [hf]; exact Option.some_ne_none f, rest, by rw [encode_of_fields hf, hws]⟩

/-- Settles O56: the fields of an instruction are what its words say, and the opcode map reads them back. -/
theorem encodeThenDecode : Obligations.EncodeThenDecode := by
  unfold Obligations.EncodeThenDecode
  refine ⟨fun i rest hwf hsome => ?_, fun ws i hw h => encode_of_decodeWords hw h, fun i hnone => by rw [encode, hnone]⟩
  obtain ⟨f, hf⟩ := Option.ne_none_iff_exists'.1 hsome
  have hsay := sayable_fields hwf hf
  have hbytes : instrBytes i = 4 * f.len.words := by rw [instrBytes, hd_of_fields hf]; rfl
  have hlt : ∀ w ∈ encode i, w < 2 ^ 32 := by rw [encode_of_fields hf]; exact words_lt hsay
  refine ⟨decodeWords_encode hwf hf rest, ?_, hlt, fun w tail h => ?_, ?_⟩
  · obtain ⟨tail, hwords, hlength⟩ := words_cons f
    rw [encode_of_fields hf, hbytes, hwords, List.length_cons, hlength]
  · rw [encode_of_fields hf] at h
    rw [hbytes, wordLength_encode hsay h]
  · rw [decodeBytes, wordsOfBytes_bytesOfWord hlt]
    simpa using decodeWords_encode hwf hf []

end Sys2Proof
end

section
/-! SUPPORT. The words that chapters write out (O57). -/

namespace Sys2Proof.Encoding

open Sys2Proof

/-- Settles O57: every word list is closed, so the decoder runs on it. -/
theorem decodeWords : Obligations.DecodeWords := by
  unfold Obligations.DecodeWords
  exact ⟨rfl, rfl, rfl, rfl, rfl, rfl, rfl, rfl, rfl, rfl, rfl, rfl, rfl⟩

end Sys2Proof.Encoding
end

section
/-! SUPPORT. The checks of R52, rows 7 to 10, before an instruction's own effect (O11). -/

namespace Sys2Proof.Machine

open Sys2Proof

/-- An instruction whose name check fails has no effect of its own: it raises that check's cause. -/
theorem run_trapped {i : Instr} {s : State} {k : Cause} {v : Word} (ha : Alone s) (h : nameTrap i s.core = some (k, v))
    (body : State → Res) : run i s body = .next (s.raise k v) := by
  obtain ⟨hg, hi⟩ := ha
  simp [run, runOne, runBody, hg, hi, h, Res.finish]

/-- On a core that issues alone SPLIT leaves the gang that is not there, and has no other effect. -/
theorem execSplit_alone {s : State} (ha : Alone s) (h : Hd) : execSplit h s = run (.split h) s (fun s => .done s) := by
  obtain ⟨hg, -⟩ := ha
  simp [execSplit, run, hg]

/-- Every instruction that a core issues alone is its own effect behind the checks on its names. -/
theorem exec_run {i : Instr} {s : State} (hi : i.hd ≠ none) (ha : Alone s) : ∃ body, exec i s = run i s body := by
  cases i <;> try exact absurd rfl hi
  case gang h lg => exact ⟨_, if_neg (by rw [ha.1]; exact Bool.false_ne_true)⟩
  case split h => exact ⟨_, execSplit_alone ha h⟩
  all_goals exact ⟨_, rfl⟩

/-- An S-mode instruction is one that a core issues: an event has no mode. -/
theorem hd_of_sMode {i : Instr} (h : i.sMode = true) : i.hd ≠ none := by
  cases i <;> cases h <;> exact Option.some_ne_none _

theorem nameTrap_priv {i : Instr} {c : Core} (hu : c.mode = .u) (h : i.sMode = true) :
    nameTrap i c = some (.priv, BitVec.ofNat 64 c.word) := by
  simp [nameTrap, privTrap, h, hu]

end Sys2Proof.Machine

namespace Sys2Proof

open Sys2Proof.Machine

/-- Settles O11: every instruction that a core issues runs behind `nameTrap`, of which PRIV is the first check. -/
theorem nameChecksComeFirst : Obligations.NameChecksComeFirst := by
  unfold Obligations.NameChecksComeFirst
  have raises : ∀ (i : Instr) (s : State) (k : Cause) (v : Word), i.hd ≠ none → Alone s → nameTrap i s.core = some (k, v) →
      exec i s = .next (s.raise k v) := by
    intro i s k v hi ha h
    obtain ⟨body, hrun⟩ := exec_run hi ha
    rw [hrun, run_trapped ha h]
  exact ⟨raises, fun i s ha hu hs => raises i s _ _ (hd_of_sMode hs) ha (nameTrap_priv hu hs)⟩

end Sys2Proof
end

section
/-! SUPPORT. The delivery of traps (O12). -/

namespace Sys2Proof.Machine

open Sys2Proof

theorem Core.landReady_nil {c : Core} (h : c.pending = []) : c.landReady = c := by
  simp [Core.landReady, h]

theorem Core.quiet_iff (c : Core) : c.quiet = true ↔
    (∀ p ∈ c.pending, p.open = false) ∧ c.unacked = [] ∧ ∀ d, c.drain = some d → d.2 = 0 := by
  simp [Core.quiet, and_assoc, Option.all_eq_true]

/-- Nothing that a core which takes traps has issued is outstanding (R50). -/
theorem quiet_of_takesTraps {s : State} (h : TakesTraps s) : s.core.quiet = true := by
  obtain ⟨hpending, hunacked, hdrain, -, -⟩ := h
  exact (Core.quiet_iff _).2 ⟨by simp [hpending], hunacked, hdrain⟩

theorem Core.remaining_eq (c : Core) : c.remaining = leftOver c := by
  unfold Core.remaining leftOver
  cases c.rep <;> rfl

/-- What a trap saves as sy.epcc and sy.tval (R98). -/
theorem Core.savedPc_region {c : Core} {epc : Word} (h : c.pcc.tag = false ∨ c.pcc.inRegion epc.toNat = true) :
    c.savedPc epc = ({ c.pcc with addr := epc }, none) := by
  unfold Core.savedPc
  rw [if_neg]
  · rfl
  · rcases h with h | h <;> simp [h]
theorem Core.savedPc_outside {c : Core} {epc : Word} (ht : c.pcc.tag = true) (hr : c.pcc.inRegion epc.toNat = false) :
    c.savedPc epc = ({ c.pcc with addr := BitVec.ofInt 64 c.pcc.base }, some epc) := by
  unfold Core.savedPc
  rw [if_pos (by simp [ht, hr])]
  rfl

/-- A trap that is delivered to a core with a handler enters it (R69). -/
theorem deliver_entered {s : State} (hl : s.core.hlens.tag = true) (hp : s.core.hpcc.tag = true) (cause : BitVec 8) (tval epc : Word) :
    Entered cause tval epc s (s.deliver cause tval epc) := by
  obtain ⟨-, -, he⟩ | ⟨h, -⟩ := deliver_cases s cause tval epc
  · refine ⟨(s.core.savedPc epc).1, (s.core.savedPc epc).2.getD tval, fun h => ?_, fun ⟨ht, hr⟩ => ?_, ?_⟩
    · rw [Core.savedPc_region h]; exact ⟨rfl, rfl⟩
    · rw [Core.savedPc_outside ht hr]; exact ⟨rfl, rfl⟩
    · rw [he, ← Core.remaining_eq]; rfl
  · rw [hl, hp] at h; simp at h

/-- A trap that can be taken is taken at once (R50). -/
theorem raiseAt_deliver {s : State} (h : TakesTraps s) (cause : BitVec 8) (tval epc : Word) :
    s.raiseAt cause tval epc = s.deliver cause tval epc := by
  have hc : (if s.hold then s.core else s.core.landReady) = s.core := by
    rw [Core.landReady_nil h.1, ite_self]
  have hcases := raiseAt_cases s cause tval epc
  rw [hc] at hcases
  obtain ⟨-, he⟩ | ⟨hq, -⟩ := hcases
  · exact he
  · rw [quiet_of_takesTraps h] at hq; cases hq

theorem raiseAt_entered {s : State} (h : TakesTraps s) (cause : BitVec 8) (tval epc : Word) :
    Entered cause tval epc s (s.raiseAt cause tval epc) := by
  rw [raiseAt_deliver h]
  obtain ⟨-, -, -, hl, hp⟩ := h
  exact deliver_entered hl hp cause tval epc

/-- A late write has something to do while a place, flags, an access or a contribution of its is left (R47, R50). -/
theorem Pending.open_of {p : Pending} (h : p.flags ≠ 0 ∨ p.left ≠ 0 ∨ p.xmax = true ∨ ∃ w ∈ p.writes, w.tgt.real = true) :
    p.open = true := by
  simp only [Pending.open, Pending.live, Bool.or_eq_true, List.any_eq_true, decide_eq_true_eq]
  obtain h | h | h | h := h
  · exact .inl (.inl (.inr h))
  · exact .inl (.inr h)
  · exact .inr h
  · exact .inl (.inl (.inl h))

theorem Core.not_quiet_of {c : Core}
    (h : (∃ p ∈ c.pending, p.flags ≠ 0 ∨ p.left ≠ 0 ∨ p.xmax = true ∨ ∃ w ∈ p.writes, w.tgt.real = true) ∨ c.unacked ≠ [] ∨
      ∃ d, c.drain = some d ∧ d.2 ≠ 0) : c.quiet = false := by
  rw [← Bool.not_eq_true, Core.quiet_iff]
  rintro ⟨hpending, hunacked, hdrain⟩
  obtain ⟨p, hp, hopen⟩ | h | ⟨d, hd, hleft⟩ := h
  · exact absurd (Pending.open_of hopen) (by simp [hpending p hp])
  · exact h hunacked
  · exact hleft (hdrain d hd)

end Sys2Proof.Machine

namespace Sys2Proof

open Sys2Proof.Machine

/-- Settles O12: `raiseAt` delivers at once where the core is quiet, and otherwise records the trap as due. -/
theorem trapDelivery : Obligations.TrapDelivery := by
  unfold Obligations.TrapDelivery
  refine ⟨fun s cause tval epc h => raiseAt_entered h cause tval epc, fun s cause tval epc hhold h => ?_⟩
  have hcases := raiseAt_cases s cause tval epc
  rw [if_pos hhold] at hcases
  obtain ⟨hq, -⟩ | ⟨-, he⟩ := hcases
  · rw [Core.not_quiet_of h] at hq; cases hq
  · exact he

end Sys2Proof
end

section
/-! SUPPORT. A core's turn (O58): the fetch of its instruction, what a boundary delivers, and what issues. -/

namespace Sys2Proof.Machine

open Sys2Proof

/-! ### Causes that are due (R482) -/

/-- The first cause that is due, with the core that no longer has it due. -/
theorem firstDue_eq (c : Core) : firstDue c = c.dueCause.map (fun d => (d.1.code, d.2, c.takeDue d.1)) := by
  unfold firstDue Core.dueCause
  rcases hspill : c.dueSpill with _ | ⟨v, rest⟩ <;> rcases hmirror : c.dueMirror with _ | w <;>
    rcases hdog : c.dueWatchdog with _ | ⟨x, rest'⟩ <;> simp [Core.takeDue, hspill, hmirror, hdog, Cause.code]
  split_ifs <;> simp_all

theorem dueCause_none {c : Core} (h : firstDue c = none) : c.dueCause = none := by
  rwa [firstDue_eq, Option.map_eq_none_iff] at h

/-! ### Bytes of a line, and the words that they say (R33) -/

theorem bytesAt_slice (s : State) (a i n N : Nat) (h : i + n ≤ N) : ((s.bytesAt a N).drop i).take n = s.bytesAt (a + i) n := by
  induction i generalizing a N with
  | zero =>
    induction n generalizing a N with
    | zero => rfl
    | succ n ih =>
      obtain ⟨N, rfl⟩ : ∃ m, N = m + 1 := ⟨N - 1, by omega⟩
      exact congrArg (s.byteAt a :: ·) (ih (a + 1) N (by omega))
  | succ i ih =>
    obtain ⟨N, rfl⟩ : ∃ m, N = m + 1 := ⟨N - 1, by omega⟩
    rw [show a + (i + 1) = a + 1 + i by omega]
    exact ih (a + 1) N (by omega)

theorem four_le_wordLength (w : Nat) : 4 ≤ wordLength w := by
  unfold wordLength; cases Len.ofCode (w % 4) <;> decide

theorem headD_wordsOfBytes (b0 b1 b2 b3 : Byte) (rest : List Byte) :
    (wordsOfBytes (b0 :: b1 :: b2 :: b3 :: rest)).headD 0 = ofBytes [b0, b1, b2, b3] := by
  rw [wordsOfBytes, List.headD_cons, wordOfBytes]
  simp only [ofBytes]
  omega

/-- The first word of at least four bytes is the number that the first four say. -/
theorem headD_words_bytesAt (s : State) (a : Nat) {n : Nat} (h : 4 ≤ n) : (wordsOfBytes (s.bytesAt a n)).headD 0 = s.numAt a 4 := by
  obtain ⟨m, rfl⟩ : ∃ m, n = m + 4 := ⟨n - 4, by omega⟩
  exact headD_wordsOfBytes (s.byteAt a) (s.byteAt (a + 1)) (s.byteAt (a + 1 + 1)) (s.byteAt (a + 1 + 1 + 1)) _

/-! ### Fetch (R14, R34, R52) -/

/-- A range that fits still fits when it is shorter. -/
theorem fits_shorter {α : Type} {x : Option α} {a m n b : Nat} (hmn : m ≤ n) (h : (if a + n ≤ b then x else none) ≠ none) :
    (if a + m ≤ b then x else none) ≠ none := by
  split at h
  · rwa [if_pos (by omega)]
  · exact absurd rfl h

/-- A shorter range is reached where a longer one at the same address is (R9). -/
theorem reach_shorter {s : State} {c : Core} {x : Word} {m n : Nat} (hmn : m ≤ n) (h : s.reach c x n ≠ none) : s.reach c x m ≠ none := by
  unfold State.reach at h ⊢
  by_cases hself : selfWindow ≤ x.toNat
  · rw [if_pos hself] at h ⊢
    exact fits_shorter hmn h
  · rw [if_neg hself] at h ⊢
    by_cases hremote : remoteWindow ≤ x.toNat
    · rw [if_pos hremote] at h ⊢
      exact fits_shorter hmn h
    · rw [if_neg hremote] at h
      exact absurd rfl h

/-- The instruction buffer holds one line. -/
def State.keepLine (s : State) (line : Nat) (bs : List Byte) : State := { s with core := { s.core with ibuf := [(line, bs)] } }

/-- `n` bytes of code at an address pass rows 1 to 5 of R52. -/
structure MayFetch (s : State) (x n : Nat) : Prop where
  aligned : x % 4 = 0
  tagged : s.core.pcc.tag = true
  unsealed : s.core.pcc.otype = 0
  exec : s.core.pcc.perm.getLsbD 2 = true
  above : s.core.pcc.base ≤ x
  below : (x : Int) + n ≤ s.core.pcc.top
  reached : s.reach s.core (BitVec.ofNat 64 x) n ≠ none

theorem MayFetch.shorter {s : State} {x m n : Nat} (h : MayFetch s x n) (hmn : m ≤ n) : MayFetch s x m :=
  { h with below := by have := h.below; omega, reached := reach_shorter hmn h.reached }

theorem MayFetch.keepLine {s : State} {x n : Nat} (h : MayFetch s x n) (line : Nat) (bs : List Byte) : MayFetch (s.keepLine line bs) x n :=
  ⟨h.aligned, h.tagged, h.unsealed, h.exec, h.above, h.below, h.reached⟩

theorem MayFetch.fetchTrap {s : State} {x n : Nat} (h : MayFetch s x n) : s.fetchTrap x n = none := by
  obtain ⟨haligned, htag, htype, hexec, habove, hbelow, hreach⟩ := h
  have hcan : s.core.pcc.can .exec = true := hexec
  have hcovers : s.core.pcc.covers x n = true := decide_eq_true ⟨habove, hbelow⟩
  simp [State.fetchTrap, haligned, htag, htype, hcan, hcovers, hreach]

section
variable {s : State} {x o off : Nat} (hbuf : s.core.ibuf = []) (hreach : s.reach s.core (BitVec.ofNat 64 (x / 64 * 64)) 64 = some (o, off))
  (hport : s.portOpen (fetchSrc s.core.phys) o off 64 false = true)
  (hsrc : ∀ a ∈ (s.coreAt o).portq, a.src ≠ fetchSrc s.core.phys) (hlive : (s.coreAt o).cstate ≠ .killed)
include hbuf hreach hport hsrc hlive

/-- A line that the empty buffer does not hold is read at its port and kept. -/
theorem fetchLine_first : s.fetchLine (x / 64 * 64) =
    (s.keepLine (x / 64 * 64) (s.bytesAt (lsBase o + off) 64), some (s.bytesAt (lsBase o + off) 64)) := by
  have hleave : s.portLeave o (fetchSrc s.core.phys) = s := by
    unfold State.portLeave; rw [if_neg]; simpa using hsrc
  simp [State.fetchLine, hbuf, hreach, hport, hleave, hlive, State.keepLine]

theorem fetch_first {n : Nat} (hn : x + n ≤ x / 64 * 64 + 64) : s.fetch x n =
    (s.keepLine (x / 64 * 64) (s.bytesAt (lsBase o + off) 64), some (s.bytesAt (lsBase o + off + (x - x / 64 * 64)) n)) := by
  rw [State.fetch, fetchLine_first hbuf hreach hport hsrc hlive]
  dsimp only
  rw [if_pos hn, bytesAt_slice _ _ _ _ _ (by omega)]

omit hbuf hreach hport hsrc hlive in
/-- The line that the buffer holds is not read again. -/
theorem fetch_kept (a : Nat) {n : Nat} (hn : x + n ≤ x / 64 * 64 + 64) :
    (s.keepLine (x / 64 * 64) (s.bytesAt a 64)).fetch x n =
      (s.keepLine (x / 64 * 64) (s.bytesAt a 64), some (s.bytesAt (a + (x - x / 64 * 64)) n)) := by
  have hline : (s.keepLine (x / 64 * 64) (s.bytesAt a 64)).fetchLine (x / 64 * 64) =
      (s.keepLine (x / 64 * 64) (s.bytesAt a 64), some (s.bytesAt a 64)) := by
    simp [State.fetchLine, State.keepLine]
  rw [State.fetch, hline]
  dsimp only
  rw [if_pos hn, bytesAt_slice _ _ _ _ _ (by omega)]

/-- The words at an address, from the one line that holds them all: as many as the first word says. -/
theorem fetchWords_line {n : Nat} (hlen : n = wordLength (s.numAt (lsBase o + off + (x - x / 64 * 64)) 4)) (hmay : MayFetch s x n)
    (hn : x + n ≤ x / 64 * 64 + 64) : s.fetchWords x = .words (s.keepLine (x / 64 * 64) (s.bytesAt (lsBase o + off) 64))
      (wordsOfBytes (s.bytesAt (lsBase o + off + (x - x / 64 * 64)) n)) := by
  have hfour : 4 ≤ n := hlen ▸ four_le_wordLength _
  have hfirst : wordLength (ofBytes (s.bytesAt (lsBase o + off + (x - x / 64 * 64)) 4)) = n := hlen.symm
  rw [State.fetchWords, (hmay.shorter hfour).fetchTrap]
  dsimp only
  rw [fetch_first hbuf hreach hport hsrc hlive (by omega)]
  dsimp only
  rw [hfirst]
  split
  · rename_i h4; rw [h4]
  · rw [(hmay.keepLine _ _).fetchTrap]
    dsimp only
    rw [fetch_kept _ hn]

end

theorem fetchTrap_misaligned {s : State} {x n : Nat} (h : x % 4 ≠ 0) : s.fetchTrap x n = some .align := by
  rw [State.fetchTrap]; exact if_pos h

theorem fetchTrap_untagged {s : State} {x n : Nat} (h : x % 4 = 0) (ht : s.core.pcc.tag = false) : s.fetchTrap x n = some .tag := by
  simp [State.fetchTrap, h, ht]

/-! ### What issues with a core that issues alone (R47, R48, R66, R103, R477, R482) -/

theorem together_alone {s : State} (ha : Alone s) : s.core.together = [s.core.phys] := by
  rw [Core.together, ha.1]; rfl

theorem onCore_self (s : State) (f : Core → Core) : s.onCore s.core.phys f = s.mapCore f := onCore_current rfl f

/-- With its timer stopped and nothing on its way, the core's turn begins as it is. -/
theorem tickTurn_idle {s : State} (ha : Alone s) (ht : s.core.ptimer = 0) (hp : s.core.pending = []) : s.tickTurn = s := by
  have htick : s.core.tick = s.core := if_neg (by simp [ht])
  have htimed : s.timed = [s.core.phys] := by rw [State.timed, ha.2]; exact together_alone ha
  have htimes : s.timed.foldl (fun t p => t.onCore p Core.tick) s = s := by
    rw [htimed, List.foldl_cons, List.foldl_nil, onCore_self, State.mapCore, htick]
  have hland : s.landAll = s := by
    unfold State.landAll
    rw [together_alone ha, List.foldl_cons, List.foldl_nil, onCore_self, State.mapCore, Core.landReady_nil hp, ite_self]
  rw [State.tickTurn, htimes, hland]

/-- An instruction that is not RPT clears what ERET has loaded for it (R174). -/
theorem noResumes_alone {s : State} (ha : Alone s) : s.noResumes = s.mapCore Core.noResume := by
  rw [State.noResumes, together_alone ha, List.foldl_cons, List.foldl_nil, onCore_self]

theorem raiseAll_alone {s : State} (ha : Alone s) (k : Cause) (v : Word) : s.raiseAll k v = s.raise k v := by
  rw [State.raiseAll, ha.1]; rfl

theorem markerHolds_alone {s : State} (ha : Alone s) {i : Instr} {h : Hd} (hi : i.hd = some h)
    (hready : h.s = true → s.core.markerReady = true) : s.markerHolds i = false := by
  rw [State.markerHolds, hi]
  cases hs : h.s
  · simp [hs]
  · simp [hs, together_alone ha, coreAt_current, ha.2, hready hs]

theorem markerCheck_alone {s : State} (ha : Alone s) {i : Instr} {h : Hd} (hi : i.hd = some h)
    (hsweep : h.s = true → s.sweepOf s.core = none) : s.markerCheck i = s := by
  rw [State.markerCheck, hi]
  cases hs : h.s
  · simp [hs]
  · simp [hs, together_alone ha, State.sweepCheck, coreAt_current, hsweep hs]

theorem enginesStall_alone {s : State} (ha : Alone s) (i : Instr) : s.enginesStall i = engineStalls i s.core := by
  rw [State.enginesStall, together_alone ha]
  simp [coreAt_current]

/-! ### The boundary (R143, R482) -/

theorem draining_iff (c : Core) : c.draining = true ↔ ∃ d, c.drain = some d ∧ d.2 ≠ 0 := by
  unfold Core.draining
  cases c.drain <;> simp

/-- While buffered card writes are left that an acquire of its has met, the core waits (R483). -/
theorem boundary_draining {s : State} {d : Nat × Nat} (hd : s.core.drain = some d) (hleft : d.2 ≠ 0) :
    s.boundary = some (s.mapCore Core.stall) := by
  have h : s.core.draining = true := (draining_iff _).2 ⟨d, hd, hleft⟩
  simp [State.boundary, h]

/-- A core that waits for a reply waits on while none has come and no cause is due (R146). -/
theorem boundary_waiting {s : State} (htrap : s.core.trapDue = none) (hwait : ∃ q, s.core.fpWait = some q) (hdue : s.core.dueCause = none)
    (hreply : s.core.fpReply = none) : s.boundary = some (s.mapCore Core.stall) := by
  obtain ⟨q, hq⟩ := hwait
  simp [State.boundary, htrap, hq, hdue, hreply]

/-- Nothing is delivered: the core goes on to issue. -/
theorem boundary_none {s : State} (ha : Alone s) (hdrain : s.core.draining = false) (hpair : s.core.pair.pstate = .unpaired)
    (howed : s.core.owed = []) (htrap : s.core.trapDue = none) (hwait : s.core.fpWait = none) (hevent : s.core.fpEvent = none)
    (hdue : s.core.dueCause = none) : s.boundary = none := by
  have hexchange : s.core.exchanging = false := by simp [Core.exchanging, hpair]
  simp [State.boundary, hdrain, hexchange, howed, htrap, hwait, hevent, State.mateEnded, ha.2, together_alone ha, coreAt_current,
    State.dueTogether, State.dueForBoth, hdue]

/-! ### The turn (R52) -/

section
variable {s : State} (hissues : s.core.issues = true) (hgoes : s.core.stalled = false) (hshare : s.clock % 64 ≠ 0) (ha : Alone s)
  (ht : s.core.ptimer = 0) (hp : s.core.pending = [])
include hissues hgoes hshare ha ht hp

/-- What the boundary of a turn delivers is the step. -/
theorem coreStep_boundary {u : State} (h : s.boundary = some u) : coreStep s = .next u := by
  simp [coreStep, hissues, hgoes, turnLength, hshare, tickTurn_idle ha ht hp, h]

/-- Without it, an instruction that is not ready ends the turn. -/
theorem coreStep_stop (hnone : s.boundary = none) {u : State} (h : s.prepare = .stop u) : coreStep s = .next u := by
  simp [coreStep, hissues, hgoes, turnLength, hshare, tickTurn_idle ha ht hp, hnone, h]

/-- And one that is ready is executed. -/
theorem coreStep_go (hnone : s.boundary = none) {i : Instr} {u : State} (h : s.prepare = .go i u) : coreStep s = exec i u := by
  simp [coreStep, hissues, hgoes, turnLength, hshare, tickTurn_idle ha ht hp, hnone, h]

end

/-! ### Ready to issue (R44, R52) -/

/-- The core as its instruction issues: the line fetched, the first word noted, the repetitions that ERET has loaded left or cleared. -/
def State.loaded (s : State) (line : Nat) (bs : List Byte) (w : Nat) (again : Option Nat) : State :=
  { s with core := { s.core with ibuf := [(line, bs)], word := w, resume := again } }

theorem keepLine_word (s : State) (line : Nat) (bs : List Byte) (w : Nat) :
    (s.keepLine line bs).mapCore (fun c => { c with word := w }) = s.loaded line bs w s.core.resume := rfl

theorem loaded_noResumes {s : State} (ha : Alone s) (line : Nat) (bs : List Byte) (w : Nat) (again : Option Nat) :
    (s.loaded line bs w again).noResumes = s.loaded line bs w none := noResumes_alone (s := s.loaded line bs w again) ha

theorem fetchWords_trap {s : State} {x : Nat} {k : Cause} (h : s.fetchTrap x 4 = some k) : s.fetchWords x = .trap k := by
  rw [State.fetchWords, h]

section
variable {s : State} (ha : Alone s) (hrep : s.core.rep = none)
include ha hrep

/-- A fetch that fails a check of R52 raises its cause with the PC. -/
theorem prepare_trap {k : Cause} (h : s.fetchTrap s.core.pc.toNat 4 = some k) : s.prepare = .stop (s.raise k s.core.pc) := by
  rw [State.prepare, hrep]
  dsimp only
  rw [fetchWords_trap h]
  exact congrArg Ready.stop (raiseAll_alone ha k _)

variable {line : Nat} {bs : List Byte} {ws : List Nat} (h : s.fetchWords s.core.pc.toNat = .words (s.keepLine line bs) ws)
include h

/-- Words that are no instruction issue as ILLEGAL_ENCODING of the first of them (R44). -/
theorem prepare_illegal {e : Reject} (hd : decodeWords ws = .error e) :
    s.prepare = .go (.illegalEncoding (ws.headD 0)) (s.loaded line bs (ws.headD 0) none) := by
  rw [State.prepare, hrep]
  dsimp only
  rw [h]
  dsimp only
  rw [hd]
  dsimp only
  rw [keepLine_word, loaded_noResumes ha]

/-- An instruction that no marker and no entry of the spill engine holds issues (R47, R66). -/
theorem prepare_go {i : Instr} {hd : Hd} (hdec : decodeWords ws = .ok i) (hi : i.hd = some hd) (hengine : engineStalls i s.core = false)
    (hmark : hd.s = true → s.core.markerReady = true ∧ s.sweepOf s.core = none) :
    s.prepare = .go i (s.loaded line bs (ws.headD 0) (if isRpt i = true then s.core.resume else none)) := by
  have hload : (if isRpt i = true then s.loaded line bs (ws.headD 0) s.core.resume
      else (s.loaded line bs (ws.headD 0) s.core.resume).noResumes) =
      s.loaded line bs (ws.headD 0) (if isRpt i = true then s.core.resume else none) := by
    rw [loaded_noResumes ha]
    split <;> rfl
  rw [State.prepare, hrep]
  dsimp only
  rw [h]
  dsimp only
  rw [hdec]
  dsimp only
  rw [keepLine_word, hload]
  generalize (if isRpt i = true then s.core.resume else none) = again
  have halone : Alone (s.loaded line bs (ws.headD 0) again) := ha
  have hrep' : (s.loaded line bs (ws.headD 0) again).core.rep = none := hrep
  have hholds := markerHolds_alone halone hi (fun hs => (hmark hs).1)
  have hengines := (enginesStall_alone halone i).trans hengine
  rw [hrep']
  dsimp only
  rw [hholds, hengines, markerCheck_alone halone hi (fun hs => (hmark hs).2)]
  exact if_neg Bool.false_ne_true

end

/-! ### The agenda (R33) -/

theorem step_idle {s : State} (h : s.agenda = []) : step s = coreStep { s with clock := s.clock + 1 } := by
  rw [step]
  dsimp only
  rw [h]

theorem step_event {s : State} {i : Instr} {rest : List Turn} (h : s.agenda = .event i :: rest) :
    step s = exec i { s with clock := s.clock + 1, agenda := rest } := by
  rw [step]
  dsimp only
  rw [h]

theorem step_turn {s : State} {p : Nat} {rest : List Turn} (h : s.agenda = .core p :: rest) :
    step s = .next (State.focus { s with clock := s.clock + 1, agenda := rest } p) := by
  rw [step]
  dsimp only
  rw [h]

end Sys2Proof.Machine

namespace Sys2Proof

open Sys2Proof.Machine

/-- Settles O58: the agenda goes first; a turn is its boundary, then the fetch of the line at the PC, then what its words decode to. -/
theorem stepRunsDecoded : Obligations.StepRunsDecoded := by
  unfold Obligations.StepRunsDecoded
  intro i p rest s u c line turn plain fits
  have hidle : s.agenda = [] → step s = coreStep u := step_idle
  have hquiet : plain → u.boundary = none := by
    rintro ⟨⟨-, -, ha, -⟩, -, hdrain, htrap, hwait, hevent, howed, hpair, hdue⟩
    refine boundary_none ha ?_ hpair howed htrap hwait hevent (dueCause_none hdue)
    rw [← Bool.not_eq_true, draining_iff]
    rintro ⟨d, hd, hleft⟩
    exact hleft (hdrain d hd)
  have hstop : ∀ t, plain → u.prepare = .stop t → step s = .next t := by
    intro t hplain h
    have hnone := hquiet hplain
    obtain ⟨⟨hagenda, hshare, ha, hissues, hgoes, ht, hp⟩, -⟩ := hplain
    exact (hidle hagenda).trans (coreStep_stop (s := u) hissues hgoes hshare ha ht hp hnone h)
  refine ⟨?agenda, ?turns, ?decoded, ?draining, ?waiting, ?misaligned, ?untagged⟩
  case agenda => exact step_event
  case turns => exact step_turn
  case misaligned => exact fun hplain h => hstop _ hplain (prepare_trap (s := u) hplain.1.2.2.1 hplain.2.1 (fetchTrap_misaligned h))
  case untagged => exact fun hplain h htag => hstop _ hplain (prepare_trap (s := u) hplain.1.2.2.1 hplain.2.1 (fetchTrap_untagged h htag))
  case draining =>
    rintro d ⟨hagenda, hshare, ha, hissues, hgoes, ht, hp⟩ hd hleft
    exact (hidle hagenda).trans (coreStep_boundary (s := u) hissues hgoes hshare ha ht hp (boundary_draining hd hleft))
  case waiting =>
    rintro ⟨hagenda, hshare, ha, hissues, hgoes, ht, hp⟩ - htrap - hwait hdue hreply
    exact (hidle hagenda).trans (coreStep_boundary (s := u) hissues hgoes hshare ha ht hp
      (boundary_waiting htrap hwait (dueCause_none hdue) hreply))
  case decoded =>
    intro o off hplain hbuf hreach hport hsrc hlive place n ws t hfits hreached
    obtain ⟨haligned, htagged, hunsealed, hexec, habove, hbelow, hline⟩ := hfits
    have hmay : MayFetch u u.core.pc.toNat n :=
      ⟨haligned, htagged, hunsealed, hexec, habove, hbelow, by rw [BitVec.ofNat_toNat, BitVec.setWidth_eq]; exact hreached⟩
    have hwords : u.fetchWords c.pc.toNat = .words (u.keepLine line (s.bytesAt (lsBase o + off) 64)) ws :=
      fetchWords_line (s := u) hbuf hreach hport hsrc hlive rfl hmay hline
    have hfirst : ws.headD 0 = s.numAt place 4 := headD_words_bytesAt u place (four_le_wordLength _)
    have hnone := hquiet hplain
    obtain ⟨⟨hagenda, hshare, ha, hissues, hgoes, ht, hp⟩, hrep, -⟩ := hplain
    have hgo : ∀ j v, u.prepare = .go j v → step s = exec j v := fun j v h =>
      (hidle hagenda).trans (coreStep_go (s := u) hissues hgoes hshare ha ht hp hnone h)
    refine ⟨fun e he => ?_, fun hd hdec hi hengine hmark => ?_⟩
    · rw [hgo _ _ (prepare_illegal (s := u) ha hrep hwords he), hfirst]
      rfl
    · rw [hgo _ _ (prepare_go (s := u) ha hrep hwords hdec hi hengine hmark), hfirst]
      rfl

end Sys2Proof
end

section
/-! SUPPORT. The events that deliver traps and causes, run the timer, and stop and answer floating-point events (O37): each effect on
the state seen from its core, then the event as that effect. -/

namespace Sys2Proof.Machine

open Sys2Proof

/-! ### A core that stands alone at a boundary -/

theorem exchanging_false {c : Core} (h1 : c.pair.pstate ≠ .comparing) (h2 : c.pair.pstate ≠ .copying) (h3 : c.pair.pstate ≠ .rollback) :
    c.exchanging = false := by
  simp [Core.exchanging, h1, h2, h3]

theorem mateEnded_alone {s : State} (hi : s.core.interval = none) : s.mateEnded = false := by
  simp [State.mateEnded, hi]

/-- A core alone takes a cause unless a wake has just ended its wait, or a PTWR is under way (R320, R405). -/
theorem causeMay_alone {s : State} (ha : Alone s) (hwoken : s.core.woken = false) (htab : s.core.tabRun = none) (k : Cause) :
    s.causeMay k = true := by
  simp [State.causeMay, State.wokenTogether, State.tabRuns, State.mateAhead, together_alone ha, coreAt_current, ha.2, hwoken, htab]

theorem draining_of_takesTraps {s : State} (h : TakesTraps s) : s.core.draining = false := by
  obtain ⟨-, -, hdrain, -⟩ := h
  rw [← Bool.not_eq_true, draining_iff]
  rintro ⟨d, hd, hleft⟩
  exact hleft (hdrain d hd)

theorem quietFor_of_takesTraps {s : State} (h : TakesTraps s) {k : Cause} (hk : k = .preempt → s.matrixHolds s.core.phys = false) :
    s.quietFor s.core k = true := by
  simpa [State.quietFor, quiet_of_takesTraps h, ← imp_iff_not_or] using hk

theorem markerReady_nil {c : Core} (hp : c.pending = []) (hu : c.unacked = []) : c.markerReady = true := by
  simp [Core.markerReady, hp, hu]

/-! ### Traps and causes delivered (R50, R69, R302, R482) -/

/-- A trap that waited is delivered where no cause is due. -/
theorem trapBoundary_deliver {s : State} (h : TakesTraps s) (hdue : s.core.dueCause = none) (x : TrapDue) :
    s.trapBoundary x = s.deliver x.cause x.tval x.epc := by
  simp [State.trapBoundary, quiet_of_takesTraps h, hdue]

theorem asyncBoundary_alone {s : State} (ha : Alone s) {k : Cause} (hq : s.quietFor s.core k = true) (v : Word) :
    s.asyncBoundary k v = s.deliverAsync k v := by
  simp [State.asyncBoundary, ha.1, ha.2, hq]

/-- The cause PREEMPT, or EXTIRQ, is the one that has its code. -/
theorem code_preempt (k : Cause) : k.code = 0x0F ↔ k = .preempt := by cases k <;> decide
theorem code_extirq (k : Cause) : k.code = 0x10 ↔ k = .extirq := by cases k <;> decide

theorem takeDue_handler (c : Core) (k : Cause) : (c.takeDue k).hlens = c.hlens ∧ (c.takeDue k).hpcc = c.hpcc := by
  cases k <;> exact ⟨rfl, rfl⟩
theorem takeDue_pair (c : Core) (k : Cause) : (c.takeDue k).pair = c.pair := by cases k <;> rfl
theorem takeDue_phys (c : Core) (k : Cause) : (c.takeDue k).phys = c.phys := by cases k <;> rfl

/-! A cause that goes first ends the wait for a reply; one that has come goes to the inbox, or stands before it (R146). -/

section
variable {s : State} (hj : s.core.pair.pstate ≠ .joining)
include hj

theorem leaveWaits_core : s.core.leaveWaits = { s.core with fpReply := none, fpWait := none } := by
  rw [Core.leaveWaits, if_neg hj]

theorem leaveWaits_none (hr : s.core.fpReply = none) :
    s.leaveWaits = { s with core := { s.core with fpReply := none, fpWait := none } } := by
  rw [← leaveWaits_core hj]; simp [State.leaveWaits, hr, State.mapCore]

theorem leaveWaits_room {m : InMsg} (hr : s.core.fpReply = some m) (hroom : s.core.inbox.length < 64) :
    s.leaveWaits = { s with core := { s.core with
      fpReply := none, fpWait := none, inbox := s.core.inbox ++ [m], evt := s.core.evt ||| 0x10000#32 } } := by
  have htake : s.core.leaveWaits.takeMsg m = { s.core with
      fpReply := none, fpWait := none, inbox := s.core.inbox ++ [m], evt := s.core.evt ||| 0x10000#32 } := by
    rw [leaveWaits_core hj]; rfl
  rw [← htake]; simp [State.leaveWaits, hr, State.mapCore, hroom]

theorem leaveWaits_full {m : InMsg} (hr : s.core.fpReply = some m) (hfull : ¬ s.core.inbox.length < 64) :
    s.leaveWaits = { s with
      core := { s.core with fpReply := none, fpWait := none }, flights := ⟨s.core.phys, m, none, s.core.part⟩ :: s.flights } := by
  rw [← leaveWaits_core hj]; simp [State.leaveWaits, hr, State.mapCore, hfull]

end

theorem leaveWaits_handler (s : State) : s.leaveWaits.core.hlens = s.core.hlens ∧ s.leaveWaits.core.hpcc = s.core.hpcc := by
  unfold State.leaveWaits
  dsimp only
  split
  · exact ⟨rfl, rfl⟩
  · split <;> exact ⟨rfl, rfl⟩

/-- An asynchronous cause enters the handler at the next instruction, once the waits have ended (R70, R146). -/
theorem deliverAsync_entered {s : State} (h : TakesTraps s) (k : Cause) (v : Word) :
    Entered k.code v s.core.pc (s.mapCore (fun c => c.takeDue k)).leaveWaits (s.deliverAsync k v) := by
  obtain ⟨-, -, -, hl, hp⟩ := h
  obtain ⟨hlens, hpcc⟩ := leaveWaits_handler (s.mapCore (fun c => c.takeDue k))
  obtain ⟨hlens', hpcc'⟩ := takeDue_handler s.core k
  refine deliver_entered ?_ ?_ _ _ _
  · rw [hlens]; exact hlens' ▸ hl
  · rw [hpcc]; exact hpcc' ▸ hp

/-! ### The timer (R477) -/

/-- The timer runs out: PREEMPT is due. -/
def Core.timeOut (c : Core) : Core := { c with ptimer := 0, duePreempt := true }

theorem onCore_other {s : State} {p : Nat} (h : p ≠ s.core.phys) (f : Core → Core) :
    s.onCore p f = { s with others := (s.onCore p f).others } := by
  unfold State.onCore State.setCoreAt
  rw [if_neg h]

/-! ### Enabled floating-point events (R143 to R147) -/

/-- Where a core that stops inside RPT stands is saved; outside one VALID is 0 (R173). -/
theorem saveRepeat_some {c : Core} {r : Rep} (h : c.rep = some r) :
    c.saveRepeat = { c with epcc := (c.savedPc c.pc).1, rptValid := true, rptRemain := r.n - r.i } := by
  rw [Core.saveRepeat, h]
theorem saveRepeat_none {c : Core} (h : c.rep = none) : c.saveRepeat = { c with rptValid := false, rptRemain := 0 } := by
  rw [Core.saveRepeat, h]

theorem saveRepeat_frame (c : Core) : c.saveRepeat = { c with
    epcc := c.saveRepeat.epcc, rptValid := c.saveRepeat.rptValid, rptRemain := c.saveRepeat.rptRemain } := by
  unfold Core.saveRepeat
  split <;> rfl

section
variable {s : State} (ha : Alone s) (hp : s.core.pending = []) (hu : s.core.unacked = [])
include ha hp hu

/-- A supervisor rank that names no core answers at once (R147). -/
theorem fpStop_unanswered (hr : s.ofRank s.core s.core.fpsup.toNat = none) (e : FpEvent) :
    s.fpStop e = { s with core := { s.core.saveRepeat with fpEvent := none } } := by
  simp [State.fpStop, ha.1, ha.2, markerReady_nil hp hu, hr, State.mapCore]

/-- The core sends its supervisor the message of R144 and waits. -/
theorem fpStop_sent {q : Nat} (hr : s.ofRank s.core s.core.fpsup.toNat = some q) (hpair : s.core.paired = false) (hhold : s.hold = true)
    (e : FpEvent) : s.fpStop e = { s with
      core := { s.core.saveRepeat with
        fpEvent := none, fpWait := some s.core.fpSeq, fpRaised := e.raised, fpSeq := (s.core.fpSeq + 1) % 2 ^ 32, stalled := true },
      flights := s.flights ++ [⟨q, fpMessage s s.core e, none, s.core.part⟩] } := by
  simp [State.fpStop, ha.1, ha.2, markerReady_nil hp hu, hr, hpair, State.sendMsg, hhold, State.addFlight]

end

/-- The codes of CONVERT are those of R69. -/
theorem ofCode_isSome {k : Nat} (h1 : 1 ≤ k) (h2 : k ≤ 0x14) : (Cause.ofCode k).isSome = true := by
  interval_cases k <;> rfl

/-- A word that says RESUME, or CONVERT with a cause, is a reply (R145). -/
theorem fpReplyOf_word {w : Word} {code cause : Nat} (hzero : w.toNat / 65536 % 65536 = 0) (hcode : w.toNat % 256 = code)
    (hcause : w.toNat / 256 % 256 = cause) (h : code = 1 ∨ (code = 2 ∧ (Cause.ofCode cause).isSome = true)) :
    fpReplyOf [w, 0, 0, 0] = some (code, cause, w.toNat / 2 ^ 32) := by
  unfold fpReplyOf
  simp only [List.getD_cons_zero, List.getD_cons_succ, hcode, hcause, hzero]
  rw [if_neg (by simp), if_pos h]

/-- A reply with the sequence number that the core waits for is valid. -/
theorem validReply_of {c : Core} {m : InMsg} {r : Nat × Nat × Nat} (hwait : c.fpWait = some r.2.2) (hreply : c.fpReply = some m)
    (hr : fpReplyOf m.words = some r) : c.validReply = some r := by
  simp [Core.validReply, hwait, hreply, hr]

/-- A converted event enters the handler with its cause and the flags raised (R145). -/
theorem fpConvert_entered {s : State} (h : TakesTraps s) (k : Nat) (raised : BitVec 5) :
    Entered (BitVec.ofNat 8 k) (raised.setWidth 64) s.core.pc { s with core := s.core.fpResume } (s.fpConvert k raised) := by
  have hquiet := quiet_of_takesTraps h
  obtain ⟨hp, -, -, hl, hpcc⟩ := h
  have hdeliver : s.fpConvert k raised =
      State.deliver { s with core := s.core.fpResume } (BitVec.ofNat 8 k) (raised.setWidth 64) s.core.pc := by
    simp [State.fpConvert, Core.landReady_nil hp, hquiet]
  rw [hdeliver]
  exact deliver_entered (s := { s with core := s.core.fpResume }) hl hpcc _ _ _

/-! ### The events -/

section
variable {s : State} {p : Nat} (hp : p < coreCount)
include hp

theorem event_trapDelivery {x : TrapDue} (hx : (s.focus p).core.trapDue = some x) (hquiet : (s.focus p).core.quiet = true)
    (hex : (s.focus p).core.exchanging = false) (hmate : (s.focus p).mateEnded = false) :
    Event (.trapDelivery p) s ((s.focus p).trapBoundary x) := by
  show execTrapDelivery p s = _
  simp only [execTrapDelivery, coreEvent_named hp, hx, hquiet, hex, hmate, Bool.not_false, Bool.and_self, if_true]

theorem event_asyncCauseDelivery {k : Cause} {v : Word} (hdue : (s.focus p).core.dueCause = some (k, v))
    (hat : (s.focus p).atBoundary k = true) : Event (.asyncCauseDelivery p) s ((s.focus p).asyncBoundary k v) := by
  show execAsyncCauseDelivery p s = _
  simp only [execAsyncCauseDelivery, coreEvent_named hp, hdue, hat, if_true]

theorem event_extirq {v : Word} (hdue : (s.focus p).core.dueCause = some (.extirq, v))
    (hat : (s.focus p).atBoundary .extirq = true) : Event (.extirq p) s ((s.focus p).asyncBoundary .extirq v) := by
  show execExtirq p s = _
  simp only [execExtirq, coreEvent_named hp, hdue, hat, if_true]

theorem event_ptimerExpiry (h : (s.focus p).core.awake = true ∧ (s.focus p).core.mode = .u ∧ (s.focus p).core.ptimer ≠ 0) :
    Event (.ptimerExpiry p) s ((s.focus p).timedWith.foldl (fun t q => t.onCore q Core.timeOut) (s.focus p)) := by
  show execPtimerExpiry p s = _
  rw [execPtimerExpiry, coreEvent_named hp, if_pos h]
  rfl

theorem event_fpEventStop {e : FpEvent} (he : (s.focus p).core.fpEvent = some e) (hwait : (s.focus p).core.fpWait = none)
    (hawake : (s.focus p).core.awake = true) (htrap : (s.focus p).core.trapDue = none) (hex : (s.focus p).core.exchanging = false) :
    Event (.fpEventStop p) s ((s.focus p).fpStop e) := by
  show execFpEventStop p s = _
  simp only [execFpEventStop, coreEvent_named hp, he, hwait, hawake, htrap, hex, Option.isNone_none, Bool.not_false, Bool.and_self, if_true]

theorem event_fpReplyResume {sq k : Nat} (h : (s.focus p).core.validReply = some (1, k, sq)) :
    Event (.fpReplyResume p sq) s ((s.focus p).mapCore Core.fpResume) := by
  show execFpReplyResume p sq s = _
  simp only [execFpReplyResume, coreEvent_named hp, h, if_true]

theorem event_fpReplyConvert {sq k : Nat} (h : (s.focus p).core.validReply = some (2, k, sq)) :
    Event (.fpReplyConvert p sq k) s ((s.focus p).fpConvert k (s.focus p).core.fpRaised) := by
  show execFpReplyConvert p sq k s = _
  simp only [execFpReplyConvert, coreEvent_named hp, h, and_self, if_true]

end

end Sys2Proof.Machine

namespace Sys2Proof

open Sys2Proof.Machine

/-- Settles O37: each event's effect, at a core that stands alone at a boundary, is the delivery, the timer or the stop of its rule. -/
theorem trapEvents : Obligations.TrapEvents := by
  unfold Obligations.TrapEvents
  intro p sq k s ⟨hp, hphys⟩ u c alone saves
  have hex : alone → c.exchanging = false := fun ⟨_, _, h1, h2, h3⟩ => exchanging_false h1 h2 h3
  have hsaves : saves c.saveRepeat := by
    show (match c.rep with | some r => _ | none => _)
    rcases hrep : c.rep with _ | r
    · rw [saveRepeat_none hrep]; exact ⟨rfl, rfl, rfl⟩
    · rw [saveRepeat_some hrep]
      exact ⟨rfl, rfl, fun h => congrArg Prod.fst (Core.savedPc_region h)⟩
  refine ⟨?trap, ?async, ?timer, ?sent, ?unanswered, ?reply⟩
  case trap =>
    intro x hx hdue halone htakes
    have ha : Alone u := ⟨halone.1, halone.2.1⟩
    refine ⟨_, event_trapDelivery hp hx (quiet_of_takesTraps htakes) (hex halone) (mateEnded_alone ha.2), ?_⟩
    rw [trapBoundary_deliver htakes (dueCause_none hdue)]
    exact deliver_entered htakes.2.2.2.1 htakes.2.2.2.2 _ _ _
  case async =>
    intro halone htrap hwoken htab hjoin hawake htakes cause v c' hdue hmatrix left u'
    have ha : Alone u := ⟨halone.1, halone.2.1⟩
    obtain ⟨⟨k, v'⟩, hk, heq⟩ := Option.map_eq_some_iff.1 ((firstDue_eq c).symm.trans hdue)
    obtain ⟨rfl, rfl, rfl⟩ : k.code = cause ∧ v' = v ∧ c.takeDue k = c' := by simpa using heq
    have hquiet : u.quietFor u.core k = true :=
      quietFor_of_takesTraps htakes (fun h => hphys ▸ hmatrix ((code_preempt k).2 h))
    have hat : u.atBoundary k = true := by
      have hdrain := draining_of_takesTraps htakes
      have hex' := hex halone
      have hmay := causeMay_alone ha hwoken htab k
      simp only [State.atBoundary, hquiet, hdrain, hmay, mateEnded_alone ha.2, Bool.and_true, Bool.not_false, Bool.and_eq_true,
        Bool.not_eq_true', Option.isNone_iff_eq_none]
      exact ⟨⟨hawake, htrap⟩, hex'⟩
    have hjoin' : (u.mapCore (fun c => c.takeDue k)).core.pair.pstate ≠ .joining := by
      show (c.takeDue k).pair.pstate ≠ .joining
      rw [takeDue_pair]; exact hjoin
    have hphys' : (u.mapCore (fun c => c.takeDue k)).core.phys = p := (takeDue_phys _ _).trans hphys
    have hu' : (u.mapCore (fun c => c.takeDue k)).leaveWaits = u' := by
      show _ = (match (c.takeDue k).fpReply with | some m => _ | none => _)
      rcases hr : (c.takeDue k).fpReply with _ | m
      · exact leaveWaits_none hjoin' hr
      · dsimp only
        by_cases hroom : (c.takeDue k).inbox.length < 64
        · rw [if_pos hroom]; exact leaveWaits_room hjoin' hr hroom
        · rw [if_neg hroom, leaveWaits_full hjoin' hr hroom, hphys']; rfl
    have hasync := asyncBoundary_alone ha hquiet v'
    refine ⟨_, hu' ▸ deliverAsync_entered htakes k v', event_of_eq (event_asyncCauseDelivery hp hk hat) hasync, fun hext => ?_⟩
    obtain rfl := (code_extirq k).1 hext
    exact event_of_eq (event_extirq hp hk hat) hasync
  case timer =>
    intro hawake hmode htimer run
    have hevent := event_ptimerExpiry (s := s) hp ⟨hawake, hmode, htimer⟩
    refine ⟨fun hnone => event_of_eq hevent ?_, fun hsome => ⟨_, hevent, ?_⟩⟩
    · have htimed : u.timedWith = [p] := by rw [State.timedWith, if_pos (by rw [hnone]; rfl), hphys]
      rw [htimed]
      exact onCore_current hphys Core.timeOut
    · have htimed : u.timedWith = [p, mateOf p] := by
        rw [State.timedWith, if_neg (by simpa [Option.isNone_iff_eq_none] using hsome), hphys]
      have hother : mateOf p ≠ (u.mapCore Core.timeOut).core.phys := by
        show mateOf p ≠ u.core.phys
        rw [hphys]; exact mateOf_ne p
      rw [htimed, List.foldl_cons, List.foldl_cons, List.foldl_nil, onCore_current hphys]
      refine ⟨onCore_other hother Core.timeOut, fun q hq => ?_⟩
      have hcore : ∀ r, r ≠ p → (u.mapCore Core.timeOut).coreAt r = u.coreAt r := fun r hr => by
        rw [State.mapCore, coreAt_withCore (c := u.core.timeOut) rfl, if_neg (fun h => hr (h.trans hphys))]
      rw [coreAt_onCore_keeps (f := Core.timeOut) (fun _ => rfl), hcore q hq, hcore _ (mateOf_ne p)]
      split
      · rename_i h; rw [h]; rfl
      · rfl
  case sent =>
    intro e q he hwait hawake htrap halone hpending hunacked hpair hhold hrank place msg
    refine ⟨c.saveRepeat, hsaves, event_of_eq (event_fpEventStop hp he hwait hawake htrap (hex halone)) ?_⟩
    have hhold' : u.hold = true := (State.focus_hold s p).trans hhold
    rw [fpStop_sent ⟨halone.1, halone.2.1⟩ hpending hunacked hrank hpair hhold', saveRepeat_frame]
    rfl
  case unanswered =>
    intro e he hwait hawake htrap halone hpending hunacked hrank
    refine ⟨c.saveRepeat, hsaves, event_of_eq (event_fpEventStop hp he hwait hawake htrap (hex halone)) ?_⟩
    rw [fpStop_unanswered ⟨halone.1, halone.2.1⟩ hpending hunacked hrank, saveRepeat_frame]
  case reply =>
    intro w0 m hwait hreply hm hzero hseq c'
    have hvalid : ∀ code cause, w0.toNat % 256 = code → w0.toNat / 256 % 256 = cause →
        (code = 1 ∨ (code = 2 ∧ (Cause.ofCode cause).isSome = true)) → c.validReply = some (code, cause, sq) :=
      fun code cause hcode hcause h => validReply_of hwait hreply (by rw [hm, fpReplyOf_word hzero hcode hcause h, hseq])
    refine ⟨fun hcode => event_fpReplyResume hp (hvalid _ _ hcode rfl (.inl rfl)), fun hcode hcause h1 h2 htakes => ?_⟩
    exact ⟨_, event_fpReplyConvert hp (hvalid _ _ hcode hcause (.inr ⟨rfl, ofCode_isSome h1 h2⟩)), fpConvert_entered htakes k _⟩

end Sys2Proof
end

section
/-! SUPPORT. PARK of a lens that holds no entry (O44). -/

namespace Sys2Proof.Machine

open Sys2Proof

/-- An instruction whose checks all pass completes. -/
theorem completes_of_checked {i : Instr} {s : State} {P : State → Prop} :
    ∀ {checks : List (Prop × Cause × Word)}, Checked i s P checks → (∀ x ∈ checks, ¬ x.1) → Completes i s P
  | [], h, _ => h
  | x :: _, h, hpass =>
    completes_of_checked (h.2 (hpass x List.mem_cons_self)) (fun y hy => hpass y (List.mem_cons_of_mem _ hy))

/-- A capability over the core's own store, for every access, at an offset. -/
def ownStore (off : Nat) : Cap := { Cap.memoryRoot with addr := BitVec.ofNat 64 (selfWindow + off) }

/-- A core whose lens begins and ends at entry 81, an odd one; w2 holds the capability of the record. -/
def emptyLensCore : Core :=
  { Core.reset 0 with
    cstate := .running
    pc := (ownStore 0x1000).addr
    pcc := Cap.memoryRoot
    hlens := Cap.lens 15 4095 16
    hpcc := Cap.memoryRoot
    lens := Cap.lens 81 81 16
    regs := [(18, ⟨(ownStore 0x1000).addr, 0⟩), (19, ⟨(ownStore 0x1000).hi, 0⟩)]
    tags := [(18, true)] }

/-- The record says where the image goes, and the first byte there is 1. -/
def emptyLensPark : State :=
  { State.reset with
    core := emptyLensCore
    mem := (State.reset.mem.putList (fun _ => 0) (lsBase 0 + 0x1010)
      (bytesOf 8 (ownStore 0x2000).addr.toNat ++ bytesOf 8 (ownStore 0x2000).hi.toNat)).putList (fun _ => 0) (lsBase 0 + 0x2000) [1]
    tags := [((lsBase 0 + 0x1010) / 16, true)] }

/-- PARK that yields, with the record at w2. -/
def parkYield : Instr := .park ⟨.w32, false⟩ (.w 2) .zr

theorem emptyLensPark_mayIssue : MayIssue parkYield emptyLensPark := ⟨⟨rfl, rfl⟩, by decide +kernel⟩

theorem emptyLensPark_takesTraps : TakesTraps emptyLensPark := ⟨rfl, rfl, fun _ h => (Option.some_ne_none _ h.symm).elim, rfl, rfl⟩

theorem emptyLensPark_lo : emptyLensPark.core.lo = 81 := by decide +kernel

theorem emptyLensPark_top : emptyLensPark.core.top = 81 := by decide +kernel

theorem emptyLensPark_record : emptyLensPark.core.rdCap (.w 2) = ownStore 0x1000 := by decide +kernel

theorem emptyLensPark_image : emptyLensPark.granule (lsBase 0 + 0x1000 + 16) = ownStore 0x2000 := by decide +kernel

theorem emptyLensPark_reachRecord : emptyLensPark.reach emptyLensPark.core (ownStore 0x1000).addr 64 = some (0, 0x1000) := by
  decide +kernel

theorem emptyLensPark_reachImage : emptyLensPark.reach emptyLensPark.core (ownStore 0x2000).addr 16 = some (0, 0x2000) := by
  decide +kernel

/-- Its own port is idle, and nothing traces or copies what is written there. -/
theorem emptyLensPark_port {x : Word} {n off : Nat} (hreach : emptyLensPark.reach emptyLensPark.core x n = some (0, off))
    (hgroup : emptyLensCore.blocks 0 off n = false) (hoff : off + n ≤ traceOff) :
    PortOpen emptyLensPark x n ∧ PlainWrite emptyLensPark x n := by
  refine ⟨⟨rfl, fun o y h => ?_⟩, fun u hu => (List.not_mem_nil hu).elim, fun o y h => ?_⟩ <;>
    obtain ⟨rfl, rfl⟩ := Prod.mk.inj (Option.some.inj (h.symm.trans hreach))
  · exact ⟨by decide +kernel, by decide, rfl, hgroup, fun w hw => (List.not_mem_nil hw).elim⟩
  · exact ⟨by decide, by decide +kernel, .inl hoff⟩

/-- PARK completes, and the byte is still 1. -/
theorem parkYield_keeps {t : State} (h : exec parkYield emptyLensPark = .next t) : t.byteAt (lsBase 0 + 0x2000) = 1 := by
  have hrun : (match exec parkYield emptyLensPark with
    | .next t => t.byteAt (lsBase 0 + 0x2000)
    | _ => 1) = 1 := by decide +kernel
  rw [h] at hrun
  exact hrun

end Sys2Proof.Machine

namespace Sys2Proof

open Sys2Proof.Machine

/-- Refutes O44, at its clause of PARK to yield: the lens of `emptyLensPark` is [81, 81), and of an empty lens the model writes no image,
while the statement says that the granule of entries 80 and 81, of which the lens holds neither, is written zero.  Its first byte is 1
before that PARK and after it.  R59 takes no empty lens, but the statement does not ask for a valid one. -/
theorem not_killParkAndTurn : ¬ Obligations.KillParkAndTurn := by
  unfold Obligations.KillParkAndTurn
  intro h
  obtain ⟨-, -, hyield, -⟩ := h ⟨.w32, false⟩ (.w 2) .zr 0 0 0 0 emptyLensPark
  replace hyield := hyield (ownStore 0x2000) (lsBase 0 + 0x1000) 0 0x1000 emptyLensPark_mayIssue rfl
  simp only [emptyLensPark_record, emptyLensPark_lo, emptyLensPark_top] at hyield
  obtain ⟨hopen, hplain⟩ := emptyLensPark_port emptyLensPark_reachRecord (by decide +kernel) (by decide)
  obtain ⟨hopen', hplain'⟩ := emptyLensPark_port emptyLensPark_reachImage (by decide +kernel) (by decide)
  have hlens : ∀ e, 81 ≤ e → e < 81 → (emptyLensPark.core.ent e).l ≤ (ownStore 0x2000).label := fun e h1 h2 => by omega
  have hapart : ∀ q x, emptyLensPark.reach emptyLensPark.core (ownStore 0x2000).addr 16 = some (q, x) →
      lsBase q + x + 16 ≤ lsBase 0 + 0x1000 ∨ lsBase 0 + 0x1000 + 64 ≤ lsBase q + x := fun q x h => by
    obtain ⟨rfl, rfl⟩ := Prod.mk.inj (Option.some.inj (h.symm.trans emptyLensPark_reachImage))
    exact .inr (by decide)
  have hchecked := hyield ⟨rfl, rfl, rfl, rfl, rfl, emptyLensPark_takesTraps, hopen, hplain⟩
    ⟨emptyLensPark_reachRecord, trivial, rfl, emptyLensPark_image.symm, hopen', hplain', by decide, hlens, hapart⟩
  obtain ⟨t, ht, q, x, hreach, himage, -⟩ := completes_of_checked hchecked (by
    simp only [List.cons_append, List.nil_append, List.forall_mem_cons]
    refine ⟨by decide, by decide, by decide, by decide, by decide, by decide +kernel, ?_, fun h => h ?_, ?_⟩
    · rw [emptyLensPark_reachRecord]; exact Option.some_ne_none _
    · exact ⟨rfl, rfl, rfl, rfl, .inl rfl, by decide, by decide +kernel, by decide +kernel,
        by rw [emptyLensPark_reachImage]; exact Option.some_ne_none _⟩
    · exact fun _ hx => (List.not_mem_nil hx).elim)
  obtain ⟨rfl, rfl⟩ := Prod.mk.inj (Option.some.inj (hreach.symm.trans emptyLensPark_reachImage))
  have hzero : t.byteAt (lsBase 0 + 0x2000) = 0 := (himage 80 (by decide) (by decide)).1 0 (by decide)
  rw [parkYield_keeps ht] at hzero
  exact absurd hzero (by decide)

end Sys2Proof
end

section
/-! SUPPORT. Checks in their order, alone or in groups (R72, R75, R77, R84, R95), and how an effect on the core alone ends. -/

namespace Sys2Proof.Machine

open Sys2Proof

/-- What a body finds to fail is the first check of the list that holds. -/
def FirstFailing (f : Fails) : List (Prop × Cause × Word) → Prop
  | [] => f = none
  | (fails, k, v) :: rest => (fails → f = some (k, v)) ∧ (¬ fails → FirstFailing f rest)

theorem FirstFailing.none_nil : FirstFailing (firstOf []) [] := rfl

/-- A check before others: those are asked only where it passes. -/
theorem FirstFailing.cons {p : Prop} {b : Bool} {k : Cause} {v : Word} {L : List Fails} {Q : List (Prop × Cause × Word)}
    (hp : p ↔ b = true) (hrest : ¬ p → FirstFailing (firstOf L) Q) : FirstFailing (firstOf (failIf b k v :: L)) ((p, k, v) :: Q) := by
  refine ⟨fun h => ?_, fun h => ?_⟩
  · rw [hp.1 h]; rfl
  · have hb : b = false := by simpa [hp] using h
    rw [hb]; exact hrest h

theorem FirstFailing.one {p : Prop} {b : Bool} {k : Cause} {v : Word} (hp : p ↔ b = true) :
    FirstFailing (failIf b k v) [(p, k, v)] := by
  rw [← firstOf_one (failIf b k v)]
  exact .cons hp fun _ => .none_nil

/-- A check for either of two reasons is two checks. -/
theorem FirstFailing.split {p q : Prop} {k : Cause} {v : Word} {f : Fails} {Q : List (Prop × Cause × Word)}
    (h : FirstFailing f ((p ∨ q, k, v) :: Q)) : FirstFailing f ((p, k, v) :: (q, k, v) :: Q) :=
  ⟨fun hp => h.1 (.inl hp), fun hp => ⟨fun hq => h.1 (.inr hq), fun hq => h.2 (not_or.2 ⟨hp, hq⟩)⟩⟩

theorem FirstFailing.last {f : Fails} {Q : List (Prop × Cause × Word)} (h : FirstFailing f Q) : FirstFailing (firstOf [f]) Q := by
  rwa [firstOf_one]

/-- One group of checks before others. -/
theorem FirstFailing.append {f : Fails} {L : List Fails} {P Q : List (Prop × Cause × Word)} (hf : FirstFailing f P)
    (hrest : FirstFailing (firstOf L) Q) : FirstFailing (firstOf (f :: L)) (P ++ Q) := by
  induction P with
  | nil => obtain rfl : f = none := hf; exact hrest
  | cons q P ih =>
    obtain ⟨p, k, v⟩ := q
    refine ⟨fun h => ?_, fun h => ih (hf.2 h)⟩
    rw [hf.1 h]; rfl

/-- An instruction guarded by checks raises the first one that fails, and otherwise has its effect. -/
theorem checked_guarded {i : Instr} {s : State} {P : State → Prop} {body g : State → Res} {f : Fails}
    {Q : List (Prop × Cause × Word)} (he : exec i s = run i s body) (hm : MayIssue i s) (hb : body s = guarded f s g)
    (hq : FirstFailing f Q) (hp : P ((g s).finish i)) : Checked i s P Q := by
  have hx : exec i s = .next ((guarded f s g).finish i) := by rw [he, run_ready hm, hb]
  clear he hb
  induction Q with
  | nil => obtain rfl : f = none := hq; exact ⟨_, hx, hp⟩
  | cons q Q ih =>
    obtain ⟨p, k, v⟩ := q
    refine ⟨fun h => ?_, fun h => ih (hq.2 h)⟩
    rw [hx, hq.1 h]; rfl

theorem trapsBy_of_checked {i : Instr} {s : State} {P : State → Prop} :
    ∀ {Q : List (Prop × Cause × Word)}, Checked i s P Q → TrapsBy i s Q
  | [], _ => trivial
  | _ :: _, h => ⟨h.1, fun hp => trapsBy_of_checked (h.2 hp)⟩

theorem checked_mono {i : Instr} {s : State} {P P' : State → Prop} (h : ∀ t, P t → P' t) :
    ∀ {Q : List (Prop × Cause × Word)}, Checked i s P Q → Checked i s P' Q
  | [], hc => let ⟨t, ht, hp⟩ := hc; ⟨t, ht, h t hp⟩
  | _ :: _, hc => ⟨hc.1, fun hq => checked_mono h (hc.2 hq)⟩

/-- An instruction whose checks pass and whose effect is one state ends in that state. -/
theorem exec_of_checked {i : Instr} {s u : State} {Q : List (Prop × Cause × Word)} (h : Checked i s (· = u) Q)
    (hpass : ∀ x ∈ Q, ¬ x.1) : exec i s = .next u := by
  obtain ⟨t, ht, rfl⟩ := completes_of_checked h hpass
  exact ht

/-! ### How an effect on the core alone ends (R34, R170) -/

theorem Core.after_congr {c x : Core} (hpc : x.pc = c.pc) (hrep : x.rep = c.rep) (n : Nat) : x.after n = c.after n := by
  simp only [Core.after, hpc, hrep]

/-- A core changed in neither its PC nor its repetition goes on to what comes next. -/
theorem Core.retire_wentOn {i : Instr} {c x : Core} (hpc : x.pc = c.pc) (hrep : x.rep = c.rep) :
    x.retire (instrBytes i) = wentOn i c x := by
  simp only [Core.retire, wentOn, Core.after_congr hpc hrep]

/-- What a change of the core does rests on that core alone. -/
theorem mapCore_congr {s : State} {f g : Core → Core} (h : f s.core = g s.core) : s.mapCore f = s.mapCore g := by
  simp only [State.mapCore, h]

/-- An effect that leaves the core's place in its program to the instruction's end. -/
theorem finish_done {i : Instr} {s t : State} {x : Core} (ht : t = { s with core := x }) (hpc : x.pc = s.core.pc)
    (hrep : x.rep = s.core.rep) : (Res.done t).finish i = { s with core := wentOn i s.core x } := by
  subst ht; rw [← Core.retire_wentOn hpc hrep]; rfl

/-! ### A lens that may be switched to (R72, R75) -/

/-- The checks of R75 on a lens, which R72 makes too. -/
def lnsChecks (n : Name) (k : Cap) : List (Prop × Cause × Word) :=
  [(k.tag = false, .tag, nameVal n), (k.otype ≠ 2, .seal, nameVal n),
    (k.perm.getLsbD 0 = false ∨ k.perm.getLsbD 1 = false, .perm, nameVal n),
    (4096 < k.top ∨ k.top - k.base < 1 ∨ 4080 < k.top - k.base ∨ (k.addr.toNat : Int) < k.base + 1 ∨ k.top < k.addr.toNat,
      .bounds, k.addr)]

theorem Cap.lensOk_iff (k : Cap) : k.lensOk = true ↔ k.top ≤ 4096 ∧ 1 ≤ k.top - k.base ∧ k.top - k.base ≤ 4080 ∧
    k.base + 1 ≤ (k.addr.toNat : Int) ∧ (k.addr.toNat : Int) ≤ k.top := by
  simp only [Cap.lensOk, decide_eq_true_eq]

theorem lnsTrap_first (n : Name) (k : Cap) : FirstFailing (lnsTrap n k) (lnsChecks n k) := by
  have hperm : (k.perm.getLsbD 0 = false ∨ k.perm.getLsbD 1 = false) ↔ (!(k.can .load && k.can .store)) = true := by
    simp [Cap.can, Perm.bit]
  have hlens : (4096 < k.top ∨ k.top - k.base < 1 ∨ 4080 < k.top - k.base ∨ (k.addr.toNat : Int) < k.base + 1 ∨
      k.top < k.addr.toNat) ↔ (!k.lensOk) = true := by
    rw [Bool.not_eq_true', ← Bool.not_eq_true, Cap.lensOk_iff]; omega
  exact .cons (by simp) fun _ => .cons (by simp) fun _ => .cons hperm fun _ => .cons hlens fun _ => .none_nil

/-- A lens that passes the checks of R75. -/
theorem lnsChecks_pass {n : Name} {k : Cap} (htag : k.tag = true) (hseal : k.otype = 2) (hload : k.perm.getLsbD 0 = true)
    (hstore : k.perm.getLsbD 1 = true) (hlens : k.lensOk = true) : ∀ x ∈ lnsChecks n k, ¬ x.1 := by
  rw [Cap.lensOk_iff] at hlens
  simp only [lnsChecks, List.forall_mem_cons]
  exact ⟨by simp [htag], by simp [hseal], by simp [hload, hstore], by omega, fun _ hx => (List.not_mem_nil hx).elim⟩

end Sys2Proof.Machine
end

section
/-! SUPPORT. LNS, LGET and LDRAIN (O13). -/

namespace Sys2Proof.Machine

open Sys2Proof

/-! ### The lens switched (R62, R63, R75) -/

/-- What a late write's place becomes when a later instruction writes a place (R48). -/
def TWrite.cancelled (t : Tgt) (w : TWrite) : TWrite := (w.without t).getD { w with tgt := w.tgt.gone }

/-- A place of the core itself is one of q and o0 to o7. -/
def coreTgts : List Tgt := .q :: (List.range 8).map .o

theorem ofCore_iff (t : Tgt) : ofCore t = true ↔ t ∈ coreTgts := by
  cases t <;> simp [ofCore, coreTgts]

/-- A write of a place of the core leaves nothing of a late write there, and every other late write as it is. -/
theorem TWrite.cancelled_ofCore {t : Tgt} (ht : ofCore t = true) (w : TWrite) :
    w.cancelled t = if w.tgt = t then { w with tgt := .nowhere } else w := by
  have hentries : t.entries = [] := by cases t <;> simp [ofCore, Tgt.entries] at ht ⊢
  obtain ⟨x, lo, hi, tag, lab⟩ := w
  by_cases hx : x = t
  · subst hx
    cases x <;> simp [ofCore] at ht <;> simp [TWrite.cancelled, TWrite.without, Tgt.gone]
    omega
  · cases x <;> simp [TWrite.cancelled, TWrite.without, hentries, hx]

theorem foldl_cancelled (w : TWrite) : ∀ {ts : List Tgt}, (∀ t ∈ ts, ofCore t = true) →
    ts.foldl (fun w t => w.cancelled t) w = if w.tgt ∈ ts then { w with tgt := .nowhere } else w := by
  intro ts
  induction ts generalizing w with
  | nil => intro _; simp
  | cons t ts ih =>
    intro h
    have hnowhere : Tgt.nowhere ∉ ts := fun hm => by simpa [ofCore, Tgt.nowhere] using h _ (List.mem_cons_of_mem _ hm)
    rw [List.foldl_cons, ih _ (fun x hx => h x (List.mem_cons_of_mem _ hx)), TWrite.cancelled_ofCore (h t List.mem_cons_self)]
    by_cases hw : w.tgt = t <;> simp [hw, hnowhere]

theorem foldl_cancel (ts : List Tgt) (c : Core) : ts.foldl Core.cancel c = { c with pending := c.pending.map (fun p =>
    { p with writes := p.writes.map (fun w => ts.foldl (fun w t => w.cancelled t) w) }) } := by
  induction ts generalizing c with
  | nil => simp
  | cons t ts ih => rw [List.foldl_cons, ih]; simp [Core.cancel, TWrite.cancelled, Function.comp_def]

theorem noteVals_alone {α : Type} {c : Core} (h : c.interval = none) (v : LVal) (xs : List α) :
    xs.foldl (fun c _ => c.noteVal v) c = c := by
  induction xs with
  | nil => rfl
  | cons x xs ih => rw [List.foldl_cons, Core.noteVal_alone h, ih]

/-- LNS on a core alone: the lens, the nine values, and the late writes to them void. -/
theorem Core.switchLens_alone {c : Core} (h : c.interval = none) (k : Cap) : c.switchLens k = { c with
    lens := k, opf := [], q := ⟨0, 0⟩
    pending := c.pending.map (fun p => { p with writes := p.writes.map (fun w =>
      if ofCore w.tgt then { w with tgt := Tgt.nowhere } else w) }) } := by
  have hcancel : (List.range 8).foldl (fun c i => c.cancel (.o i)) (c.cancel .q) = coreTgts.foldl Core.cancel c := by
    rw [coreTgts, List.foldl_cons, List.foldl_map]
  have hvoid : ∀ w : TWrite, coreTgts.foldl (fun w t => w.cancelled t) w =
      if ofCore w.tgt = true then { w with tgt := .nowhere } else w := fun w => by
    rw [foldl_cancelled w (fun t ht => (ofCore_iff t).2 ht)]; simp only [ofCore_iff]
  unfold Core.switchLens
  dsimp only
  rw [noteVals_alone (by rw [hcancel, foldl_cancel]; exact h), hcancel, foldl_cancel]
  simp only [hvoid]
  rfl

theorem lns_checked {h : Hd} {a : Name} {s : State} (hm : MayIssue (.lns h a) s) :
    Checked (.lns h a) s (· = { s with core := wentOn (.lns h a) s.core { s.core with
      lens := s.core.rdCap a, opf := [], q := ⟨0, 0⟩
      pending := s.core.pending.map (fun p => { p with writes := p.writes.map (fun w =>
        if ofCore w.tgt then { w with tgt := Tgt.nowhere } else w) }) } }) (lnsChecks a (s.core.rdCap a)) := by
  refine checked_guarded rfl hm rfl (lnsTrap_first a _) ?_
  exact finish_done (congrArg (fun c => { s with core := c }) (Core.switchLens_alone hm.1.2 _)) rfl rfl

/-! ### What LDRAIN waits for (R66, R68, R77) -/

theorem ranges_meet_iff (lo top b n : Nat) : max lo b < min top (b + n) ↔ ∃ e, lo ≤ e ∧ e < top ∧ b ≤ e ∧ e < b + n :=
  ⟨fun h => ⟨max lo b, by omega⟩, fun ⟨e, h⟩ => by omega⟩

/-- The engine's test on a request is whether it holds an entry of the region. -/
theorem SpillReq.meets_iff (r : SpillReq) (lo top : Nat) : (match r.kind with
      | .spill => decide (max lo r.src < min top (r.src + r.n))
      | .fill => decide (max lo r.dst < min top (r.dst + r.n))
      | .move => decide (max lo r.src < min top (r.src + r.n)) || decide (max lo r.dst < min top (r.dst + r.n))) = true ↔
    ∃ e, lo ≤ e ∧ e < top ∧ r.holds e = true := by
  cases hk : r.kind <;> simp only [SpillReq.holds, hk, Bool.or_eq_true, decide_eq_true_eq, ranges_meet_iff]
  case move => simp only [← exists_or, ← and_or_left]

theorem Core.engineHolds_iff (c : Core) (lo top : Nat) : c.engineHolds lo top = true ↔
    ∃ e, lo ≤ e ∧ e < top ∧ ∃ r ∈ c.spillq, r.holds e = true := by
  have hmeets : c.engineHolds lo top = true ↔ ∃ r ∈ c.spillq, ∃ e, lo ≤ e ∧ e < top ∧ r.holds e = true := by
    simp only [← SpillReq.meets_iff]
    exact List.any_eq_true
  rw [hmeets]
  exact ⟨fun ⟨r, hr, e, hlo, htop, he⟩ => ⟨e, hlo, htop, r, hr, he⟩, fun ⟨e, hlo, htop, r, hr, he⟩ => ⟨r, hr, e, hlo, htop, he⟩⟩

/-- A late write, or its flags, land in a region. -/
def Core.landsIn (c : Core) (lo top : Nat) : Bool :=
  c.pending.any (fun p => p.writes.any (fun w => w.tgt.entries.any (fun e => decide (lo ≤ e ∧ e < top))) ||
    (decide (p.flags ≠ 0) && decide (lo ≤ p.flagsLo ∧ p.flagsLo < top)))

theorem Core.landsIn_iff (c : Core) (lo top : Nat) : c.landsIn lo top = true ↔ ∃ e, lo ≤ e ∧ e < top ∧
    ∃ p ∈ c.pending, (∃ w ∈ p.writes, e ∈ w.tgt.entries) ∨ (p.flags ≠ 0 ∧ p.flagsLo = e) := by
  simp only [Core.landsIn, List.any_eq_true, Bool.or_eq_true, Bool.and_eq_true, decide_eq_true_eq]
  constructor
  · rintro ⟨p, hp, ⟨w, hw, e, he, hlo, htop⟩ | ⟨hf, hlo, htop⟩⟩
    · exact ⟨e, hlo, htop, p, hp, .inl ⟨w, hw, he⟩⟩
    · exact ⟨_, hlo, htop, p, hp, .inr ⟨hf, rfl⟩⟩
  · rintro ⟨e, hlo, htop, p, hp, ⟨w, hw, he⟩ | ⟨hf, rfl⟩⟩
    · exact ⟨p, hp, .inl ⟨w, hw, e, he, hlo, htop⟩⟩
    · exact ⟨p, hp, .inr ⟨hf, hlo, htop⟩⟩

/-- The stores of a spill from a region are not acknowledged. -/
def Core.spillsFrom (c : Core) (lo top : Nat) : Bool :=
  c.unacked.any (fun u => match u.spill with
    | some r => decide (max lo r.src < min top (r.src + r.n))
    | none => false)

theorem Core.spillsFrom_iff (c : Core) (lo top : Nat) : c.spillsFrom lo top = true ↔ ∃ e, lo ≤ e ∧ e < top ∧
    ∃ u ∈ c.unacked, ∃ r, u.spill = some r ∧ r.src ≤ e ∧ e < r.src + r.n := by
  have hone : ∀ u : Unacked, (match u.spill with
      | some r => decide (max lo r.src < min top (r.src + r.n))
      | none => false) = true ↔ ∃ r e, u.spill = some r ∧ lo ≤ e ∧ e < top ∧ r.src ≤ e ∧ e < r.src + r.n := fun u => by
    rcases u.spill with _ | r <;> simp only [decide_eq_true_eq, ranges_meet_iff, Bool.false_eq_true, reduceCtorEq, false_and,
      exists_false, Option.some.injEq, exists_and_left, exists_eq_left']
  simp only [Core.spillsFrom, List.any_eq_true, hone]
  exact ⟨fun ⟨u, hu, r, e, hr, hlo, htop, he⟩ => ⟨e, hlo, htop, u, hu, r, hr, he⟩,
    fun ⟨e, hlo, htop, u, hu, r, hr, he⟩ => ⟨u, hu, r, e, hr, hlo, htop, he⟩⟩

/-- What LDRAIN waits for is what is under way in its region. -/
theorem regionBusy_iff (c : Core) (lo top : Nat) :
    (c.landsIn lo top || c.engineHolds lo top || c.spillsFrom lo top) = true ↔ RegionBusy c lo top := by
  simp only [Bool.or_eq_true, Core.landsIn_iff, Core.engineHolds_iff, Core.spillsFrom_iff, RegionBusy, ← exists_or, ← and_or_left,
    or_assoc]

/-- The checks of R77. -/
def ldrainChecks (n : Name) (k : Cap) : List (Prop × Cause × Word) :=
  [(k.tag = false, .tag, nameVal n), (k.otype ≠ 2, .seal, nameVal n)]

theorem ldrainChecks_first (n : Name) (k : Cap) :
    FirstFailing (firstOf [failIf (!k.tag) .tag (nameVal n), failIf (decide (k.otype ≠ 2)) .seal (nameVal n)]) (ldrainChecks n k) :=
  .cons (by simp) fun _ => .cons (by simp) fun _ => .none_nil

theorem ldrainChecks_pass {n : Name} {k : Cap} (htag : k.tag = true) (hseal : k.otype = 2) : ∀ x ∈ ldrainChecks n k, ¬ x.1 := by
  simp [ldrainChecks, htag, hseal]

section
variable {h : Hd} {a : Name} {s : State} (hm : MayIssue (.ldrain h a) s)
include hm

theorem ldrain_passes (hbusy : ¬ RegionBusy s.core (s.core.rdCap a).base.toNat (s.core.rdCap a).top.toNat) :
    Checked (.ldrain h a) s (· = { s with core := wentOn (.ldrain h a) s.core s.core }) (ldrainChecks a (s.core.rdCap a)) := by
  refine checked_guarded rfl hm rfl (ldrainChecks_first a _) ?_
  show Res.finish _ (if (s.core.landsIn _ _ || s.core.engineHolds _ _ || s.core.spillsFrom _ _) = true then _ else _) = _
  rw [if_neg (mt (regionBusy_iff _ _ _).1 hbusy)]
  exact finish_done rfl rfl rfl

theorem ldrain_waits (hbusy : RegionBusy s.core (s.core.rdCap a).base.toNat (s.core.rdCap a).top.toNat) :
    Checked (.ldrain h a) s (· = { s with core := { s.core with stalled := true } }) (ldrainChecks a (s.core.rdCap a)) := by
  refine checked_guarded rfl hm rfl (ldrainChecks_first a _) ?_
  show Res.finish _ (if (s.core.landsIn _ _ || s.core.engineHolds _ _ || s.core.spillsFrom _ _) = true then _ else _) = _
  rw [if_pos ((regionBusy_iff _ _ _).2 hbusy)]
  rfl

end

theorem exec_lget (h : Hd) (d : Name) (s : State) :
    exec (.lget h d) s = run (.lget h d) s (fun s => capOut d { s.core.lens with tag := true } 0 s) :=
  congrArg (run (.lget h d) s) (funext fun _ => congrArg Res.done (mapCore_congr rfl))

theorem lget_done {h : Hd} {d : Name} {s : State} (hm : MayIssue (.lget h d) s) :
    Completes (.lget h d) s (CapDone (.lget h d) d { s.core.lens with tag := true } 0 s) :=
  completes_of_run (exec_lget h d s) hm (capOut_done hm (r := .d) (List.mem_singleton.2 rfl) _ _)

end Sys2Proof.Machine

namespace Sys2Proof

open Sys2Proof.Machine

/-- Settles O13: LNS and LDRAIN behind their checks, LGET without any. -/
theorem lensInstructions : Obligations.LensInstructions := by
  unfold Obligations.LensInstructions
  intro h a d s k
  refine ⟨?lns, fun hm => trapsBy_of_checked (lns_checked hm), lget_done, ?passes, ?traps, ?waits⟩
  case lns =>
    intro hm htag hseal hload hstore htop hmin hmax hlo hhi
    exact exec_of_checked (lns_checked hm)
      (lnsChecks_pass htag hseal hload hstore ((Cap.lensOk_iff k).2 ⟨htop, hmin, hmax, hlo, hhi⟩))
  case passes =>
    exact fun hm htag hseal hbusy => exec_of_checked (ldrain_passes hm hbusy) (ldrainChecks_pass htag hseal)
  case traps =>
    intro hm
    by_cases hbusy : RegionBusy s.core k.base.toNat k.top.toNat
    · exact trapsBy_of_checked (ldrain_waits hm hbusy)
    · exact trapsBy_of_checked (ldrain_passes hm hbusy)
  case waits =>
    exact fun hm hbusy htag hseal => exec_of_checked (ldrain_waits hm hbusy) (ldrainChecks_pass htag hseal)

end Sys2Proof
end

section
/-! SUPPORT. CALL, CALLC and RET (O14). -/

namespace Sys2Proof.Machine

open Sys2Proof

/-- The window moved up on a core alone: one pair written, and the lens's address. -/
theorem Core.pushWindow_alone {c : Core} (h : c.interval = none) (k bytes : Nat) : c.pushWindow k bytes =
    { (c.cancel (.pair (c.lb + k))).putPair (c.lb + k) (c.returnCap bytes) 0 with
      lens := { c.lens with addr := BitVec.ofNat 64 (c.lb + k) } } := by
  have hi : ((c.cancel (.pair (c.lb + k))).putPair (c.lb + k) (c.returnCap bytes) 0).interval = none := by simpa using h
  unfold Core.pushWindow
  dsimp only
  rw [Core.noteVal_alone hi, Core.noteVal_alone hi, Core.noteEntries_alone hi]

theorem Core.pushWindow_pcc {c : Core} (h : c.interval = none) (k bytes : Nat) :
    { c.pushWindow k bytes with pcc := c.pcc } = c.pushWindow k bytes := by
  rw [Core.pushWindow_alone h]; rfl

/-- A capability written to a pair of entries, and no other entry and no other pair's tag changed. -/
structure PairHolds (e : Nat) (k : Cap) (l : Label) (c c' : Core) : Prop where
  value : c'.capAt e = k
  lower : (c'.ent e).l = l
  upper : (c'.ent (e + 1)).l = l
  entries : ∀ x, x ≠ e → x ≠ e + 1 → c'.ent x = c.ent x
  pairs : ∀ x, x / 2 ≠ e / 2 → c'.tagAt x = c.tagAt x

theorem Core.putPair_holds (c : Core) (e : Nat) (k : Cap) (l : Label) : PairHolds e k l c (c.putPair e k l) := by
  refine ⟨?_, by simp [Core.putPair_ent], by simp [Core.putPair_ent], fun x h1 h2 => by simp [Core.putPair_ent, h1, h2],
    fun x h => by simp [Core.putPair_tagAt, h]⟩
  simp [Core.capAt, Core.putPair_ent, Core.putPair_tagAt]

/-- What CALL and CALLC leave behind (R78): the return capability in the pair `e`, where the window now begins, and nothing else of the
core changed but its late writes to that pair, the PC and the PCC. -/
structure WindowPushed (e : Nat) (back : Cap) (pc : Word) (pcc : Cap) (s t : State) : Prop where
  frame : t = { s with core := jumpedTo pc { s.core with
    regs := t.core.regs, tags := t.core.tags, pending := t.core.pending,
    lens := { s.core.lens with addr := BitVec.ofNat 64 e }, pcc := pcc } }
  holds : PairHolds e back 0 s.core t.core
  late : s.core.pending = [] → t.core.pending = []

/-- A jump from a core whose window has moved up. -/
theorem finish_pushWindow {i : Instr} {s t : State} (ha : Alone s) (k bytes : Nat) (pc : Word) (pcc : Cap)
    (ht : t = { s with core := { s.core.pushWindow k bytes with pcc := pcc } }) :
    WindowPushed (s.core.lb + k) (s.core.returnCap bytes) pc pcc s ((Res.jump t pc).finish i) := by
  rw [Core.pushWindow_alone ha.2] at ht
  subst ht
  obtain ⟨value, lower, upper, entries, pairs⟩ :=
    (s.core.cancel (.pair (s.core.lb + k))).putPair_holds (s.core.lb + k) (s.core.returnCap bytes) 0
  exact ⟨rfl, ⟨value, lower, upper, entries, pairs⟩, fun hp => Core.cancel_pending_nil _ _ hp⟩

/-- The checks of R65 and R78 on the window. -/
def windowChecks (c : Core) (k : Nat) : List (Prop × Cause × Word) :=
  [(c.lb % 2 = 1, .align, 0), (c.top < c.lb + k + 48, .window, BitVec.ofNat 64 k)]

theorem windowTrap_first (c : Core) (k : Nat) : FirstFailing (windowTrap c k) (windowChecks c k) :=
  .cons decide_eq_true_iff.symm fun _ => .cons decide_eq_true_iff.symm fun _ => .none_nil

theorem call_checked {h : Hd} {k : Nat} {disp : Int} {s : State} (hm : MayIssue (.call h k disp) s) :
    Checked (.call h k disp) s (WindowPushed (s.core.lb + k) (s.core.returnCap (4 * h.len.words))
      (s.core.pc + BitVec.ofInt 64 disp) s.core.pcc s) (windowChecks s.core k) := by
  have hpcc := Core.pushWindow_pcc hm.1.2 k (4 * h.len.words)
  exact checked_guarded rfl hm rfl (windowTrap_first s.core k)
    (finish_pushWindow hm.1 k _ _ _ (congrArg (fun c => { s with core := c }) hpcc.symm))

/-- The checks of R78 on the gate, and then on the window. -/
def gateChecks (a : Name) (g : Cap) (c : Core) (k : Nat) : List (Prop × Cause × Word) :=
  [(g.tag = false, .tag, nameVal a), (g.otype ≠ 1, .seal, nameVal a), (g.perm.getLsbD 2 = false, .perm, nameVal a)] ++ windowChecks c k

theorem callc_checked {h : Hd} {k : Nat} {a : Name} {s : State} (hm : MayIssue (.callc h k a) s) :
    Checked (.callc h k a) s (WindowPushed (s.core.lb + k) (s.core.returnCap (4 * h.len.words)) (s.core.rdCap a).addr
      { s.core.rdCap a with otype := 0 } s) (gateChecks a (s.core.rdCap a) s.core k) := by
  refine checked_guarded rfl hm rfl (.cons (by simp) fun _ => .cons (by simp) fun _ => .cons (by simp [Cap.can, Perm.bit]) fun _ => ?_)
    (finish_pushWindow hm.1 k _ _ _ rfl)
  rw [firstOf_one]
  exact windowTrap_first s.core k

/-- The checks of R79. -/
def retChecks (c : Core) (k : Nat) : List (Prop × Cause × Word) :=
  [(c.lb % 2 = 1, .align, 0), (c.top ≤ c.lb + 1, .lenslimit, 0), ((c.capAt c.lb).tag = false, .tag, 0),
    ((c.capAt c.lb).otype ≠ 7, .seal, 0), (c.lb < c.lo + 1 + k, .windowunder, BitVec.ofNat 64 k)]

theorem ret_checked {h : Hd} {k : Nat} {s : State} (hm : MayIssue (.ret h k) s) :
    Checked (.ret h k) s (fun t => t = { s with core := jumpedTo (s.core.capAt s.core.lb).addr { s.core with
      lens := { s.core.lens with addr := BitVec.ofNat 64 (s.core.lb - k) }
      pcc := { s.core.capAt s.core.lb with otype := 0 } } }) (retChecks s.core k) :=
  checked_guarded rfl hm rfl (.cons decide_eq_true_iff.symm fun _ => .cons decide_eq_true_iff.symm fun _ => .cons (by simp) fun _ =>
    .cons decide_eq_true_iff.symm fun _ => .cons decide_eq_true_iff.symm fun _ => .none_nil) rfl

end Sys2Proof.Machine

namespace Sys2Proof

open Sys2Proof.Machine

/-- Settles O14: CALL and CALLC move the window up with the return capability in its first pair, RET moves it down. -/
theorem callsAndReturns : Obligations.CallsAndReturns := by
  unfold Obligations.CallsAndReturns
  refine ⟨?calls, fun h k s hm => ret_checked hm⟩
  case calls =>
    intro h k disp a s g e back checks saved
    have hsaved : ∀ pc pcc t, WindowPushed e (s.core.returnCap (4 * h.len.words)) pc pcc s t → saved pc pcc t := by
      rintro pc pcc t ⟨frame, ⟨value, lower, upper, entries, pairs⟩, late⟩
      exact ⟨frame, value, lower, upper, entries, pairs, late⟩
    exact ⟨fun hm => checked_mono (hsaved _ _) (call_checked hm), fun hm => checked_mono (hsaved _ _) (callc_checked hm)⟩

end Sys2Proof
end

section
/-! SUPPORT. TRAP and ERET (O15). -/

namespace Sys2Proof

open Sys2Proof.Machine

/-- Settles O15: TRAP takes its trap behind itself, and ERET is the way back from one. -/
theorem systemCallsAndReturns : Obligations.SystemCallsAndReturns := by
  unfold Obligations.SystemCallsAndReturns
  intro h a s
  refine ⟨fun hm htakes => completes_of_run rfl hm ?_, fun hm => run_ready hm _⟩
  exact raiseAt_entered htakes _ _ _

end Sys2Proof
end

section
/-! SUPPORT. LSPILL, LFILL and LMOVE (O16). -/

namespace Sys2Proof.Machine

open Sys2Proof

/-! ### The checks of R84 -/

theorem outsideTrap_first (lo top : Int) (x n : Nat) :
    FirstFailing (outsideTrap lo top x n) [(Outside lo top x n, .bounds, firstOutside lo top x)] := by
  unfold outsideTrap outside Outside firstOutside
  by_cases hx : (x : Int) < lo ∨ top ≤ (x : Int)
  · rw [if_pos hx, if_pos hx]
    exact ⟨fun _ => rfl, fun h => absurd (hx.imp_right Or.inl) h⟩
  · rw [if_neg hx, if_neg hx]
    by_cases hend : top < (x : Int) + n
    · have htop : BitVec.ofNat 64 top.toNat = BitVec.ofInt 64 top := by
        rw [← BitVec.ofInt_natCast, Int.toNat_of_nonneg (by omega)]
      rw [if_pos hend, Option.map_some, htop]
      exact ⟨fun _ => rfl, fun h => absurd (.inr (.inr hend)) h⟩
    · rw [if_neg hend]
      exact ⟨fun h => absurd h (by omega), fun _ => rfl⟩

/-- The checks on a lens operand. -/
def lensUseChecks (nm : Name) (k : Cap) (bit : Nat) : List (Prop × Cause × Word) :=
  [(k.tag = false, .tag, nameVal nm), (k.otype ≠ 2, .seal, nameVal nm), (k.perm.getLsbD bit = false, .perm, nameVal nm)]

theorem lensUse_first (nm : Name) (k : Cap) (p : Perm) : FirstFailing (lensUse nm k p) (lensUseChecks nm k p.bit) :=
  .cons (by simp) fun _ => .cons decide_eq_true_iff.symm fun _ => .cons (by simp [Cap.can]) fun _ => .none_nil

/-- The checks of R95 on a memory operand that go before its permission. -/
def memoryUseChecks (s : State) (nm : Name) (k : Cap) : List (Prop × Cause × Word) :=
  [(k.tag = false, .tag, nameVal nm), (s.revoked s.core k = true, .revoked, nameVal nm), (k.otype ≠ 0, .seal, nameVal nm)]

theorem useTrap_first (s : State) (nm : Name) (k : Cap) {perm : Bool} {Q : List (Prop × Cause × Word)}
    (hperm : FirstFailing (failIf (!perm) .perm (nameVal nm)) Q) :
    FirstFailing (s.useTrap nm k perm) (memoryUseChecks s nm k ++ Q) :=
  .cons (by simp) fun _ => .cons Iff.rfl fun _ => .cons decide_eq_true_iff.symm fun _ => by
    rw [firstOf_one]; exact hperm

/-- The checks on the place of an image. -/
def imageChecks (s : State) (k : Cap) (bytes : Nat) : List (Prop × Cause × Word) :=
  [(Outside k.base k.top k.addr.toNat bytes, .bounds, firstOutside k.base k.top k.addr.toNat),
    (s.reach s.core k.addr bytes = none, .bounds, k.addr)]

theorem imageTrap_first (s : State) (k : Cap) (bytes : Nat) : FirstFailing (s.imageTrap k bytes) (imageChecks s k bytes) :=
  .append (outsideTrap_first _ _ _ _) (.cons Option.isNone_iff_eq_none.symm fun _ => .none_nil)

/-- The check on the range of a lens operand. -/
def rangeCheck (k : Cap) (n : Nat) : Prop × Cause × Word :=
  (Outside k.base (min k.top 4096) k.addr.toNat n, .bounds, firstOutside k.base (min k.top 4096) k.addr.toNat)

theorem lensRange_first (k : Cap) (n : Nat) : FirstFailing (lensRange k n) [rangeCheck k n] := outsideTrap_first _ _ _ _

/-! ### The capabilities that a spill would store (R96) -/

theorem Cap.mayHold_iff (m k : Cap) : m.mayHold k = false ↔ Unwritable m k := by
  simp only [Cap.mayHold, Unwritable, Cap.can, Perm.bit, Bool.or_eq_false_iff, Bool.not_eq_false', Bool.and_eq_false_iff]

theorem Core.mem_taggedPairs {c : Core} {e n : Nat} (hn : n ≤ 4080) (k : Cap) : k ∈ c.taggedPairs e n ↔
    ∃ x, x % 2 = 0 ∧ e ≤ x ∧ x + 1 < e + n ∧ c.tagAt x = true ∧ c.capAt x = k := by
  simp only [Core.taggedPairs, List.mem_filterMap, List.mem_map, List.mem_range, Nat.min_eq_left hn, Option.ite_none_right_eq_some,
    Option.some.injEq]
  constructor
  · rintro ⟨x, ⟨i, -, rfl⟩, ⟨hx, ht⟩, hk⟩
    exact ⟨_, by omega, by omega, hx, ht, hk⟩
  · rintro ⟨x, heven, he, hx, ht, hk⟩
    exact ⟨x, ⟨(x - (e + 1) / 2 * 2) / 2, by omega, by omega⟩, ⟨hx, ht⟩, hk⟩

theorem Core.taggedPairs_unwritable {c : Core} {e n : Nat} (hn : n ≤ 4080) (m : Cap) : (c.taggedPairs e n).all m.mayHold = false ↔
    ∃ x, x % 2 = 0 ∧ e ≤ x ∧ x + 1 < e + n ∧ Unwritable m (c.capAt x) := by
  simp only [List.all_eq_false, Bool.not_eq_true, Cap.mayHold_iff, Core.mem_taggedPairs hn]
  constructor
  · rintro ⟨k, ⟨x, heven, he, hx, ht, rfl⟩, hk⟩
    exact ⟨x, heven, he, hx, hk⟩
  · rintro ⟨x, heven, he, hx, hk⟩
    exact ⟨_, ⟨x, heven, he, hx, hk.1, rfl⟩, hk⟩

/-! ### A request queued (R66, R68) -/

theorem Core.cancelRange_frame (c : Core) (e n : Nat) : c.cancelRange e n = { c with pending := (c.cancelRange e n).pending } := by
  have hfold : (List.range n).foldl (fun c i => c.cancel (.entry (e + i))) c =
      ((List.range n).map (fun i => Tgt.entry (e + i))).foldl Core.cancel c := by rw [List.foldl_map]
  unfold Core.cancelRange
  split
  · rfl
  · rw [hfold, foldl_cancel]

theorem Core.cancelMoved_frame (c : Core) (r : SpillReq) : c.cancelMoved r = { c with pending := (c.cancelMoved r).pending } := by
  unfold Core.cancelMoved
  split
  · rfl
  · exact Core.cancelRange_frame c _ _

/-- A request as the engine takes it: with its number and the lens of its issue. -/
def SpillReq.numbered (c : Core) (r : SpillReq) : SpillReq := { r with id := c.nextId, lo := c.lo }

/-- While moves wait for their events, a request only takes its place in the engine. -/
theorem addSpill_hold {s : State} (hhold : s.hold = true) (r : SpillReq) : s.addSpill r = { s with core := { s.core with
    pending := (s.core.cancelMoved r).pending
    spillq := s.core.spillq ++ [r.numbered s.core]
    unacked := s.core.unacked ++ s.spillCounts s.core (r.numbered s.core)
    nextId := s.core.nextId + 1 } } := by
  unfold State.addSpill
  dsimp only
  rw [if_pos hhold, Core.cancelMoved_frame]
  rfl

/-- A bulk move that has been handed to the engine: its request is the last, with what counts as outstanding for it. -/
def Queued (i : Instr) (r : SpillReq) (u : List Unacked) (dst n : Nat) (s t : State) : Prop :=
  t = { s with core := wentOn i s.core { s.core with
    pending := if r.kind = .spill then s.core.pending else (s.core.cancelRange dst n).pending
    spillq := s.core.spillq ++ [r], nextId := s.core.nextId + 1, unacked := s.core.unacked ++ u } }

theorem finish_addSpill {i : Instr} {s : State} (hhold : s.hold = true) (r : SpillReq) {dst : Nat}
    (hdst : r.kind ≠ .spill → r.dst = dst) :
    Queued i (r.numbered s.core) (s.spillCounts s.core (r.numbered s.core)) dst r.n s ((Res.done (s.addSpill r)).finish i) := by
  have hpending : (s.core.cancelMoved r).pending =
      if r.kind = .spill then s.core.pending else (s.core.cancelRange dst r.n).pending := by
    unfold Core.cancelMoved
    cases hk : r.kind
    case spill => rfl
    case fill => rw [← hdst (by simp [hk])]; rfl
    case move => rw [← hdst (by simp [hk])]; rfl
  rw [finish_done (addSpill_hold hhold r) rfl rfl, hpending]
  rfl

/-- The earlier spills that count under the lens of a fill from their images (R68). -/
theorem spillCounts_fill (s : State) {r : SpillReq} (hr : r.kind = .fill) : s.spillCounts s.core r =
    s.core.unacked.filterMap (fun u => u.spill.bind (fun x =>
      if s.imagesMeet s.core.phys x r then some ⟨u.id, u.left, false, s.core.lo, s.core.top, false, none⟩ else none)) := by
  unfold State.spillCounts
  rw [hr]
  dsimp only
  congr 1
  funext u
  cases u.spill <;> rfl

/-! ### The three moves (R83) -/

section
variable {h : Hd} {d a b : Name} {s : State} (hhold : s.hold = true)
include hhold

theorem lspill_checked (hm : MayIssue (.lspill h d a b) s) :
    let n := (s.core.rd b).v.toNat
    let m := s.core.rdCap d
    let l := s.core.rdCap a
    let r : SpillReq := ⟨.spill, l.addr.toNat, 0, m.addr, n, m.label, false, s.core.nextId, s.core.lo⟩
    Checked (.lspill h d a b) s (Queued (.lspill h d a b) r [⟨r.id, 1, false, s.core.lo, s.core.top, false, some r⟩] m.addr.toNat n s)
      ((n < 1 ∨ 4080 < n, .bounds, (s.core.rd b).v) :: (memoryUseChecks s d m ++ [(m.perm.getLsbD 1 = false, .perm, nameVal d),
          (∃ e, e % 2 = 0 ∧ l.addr.toNat ≤ e ∧ e + 1 < l.addr.toNat + n ∧ Unwritable m (s.core.capAt e), .perm, nameVal d)] ++
        (lensUseChecks a l 0 ++ (m.addr.toNat % 16 ≠ 0, .align, nameVal d) :: rangeCheck l n ::
          imageChecks s m (imageBytes l.addr.toNat n)))) := by
  intro n m l r
  refine checked_guarded rfl hm rfl (.cons decide_eq_true_iff.symm fun hn => .append (useTrap_first s d m (.split (.one ?_))) <|
    .append (lensUse_first a l .load) <| .cons decide_eq_true_iff.symm fun _ => .append (lensRange_first l n) <|
    .last (imageTrap_first s m _)) (finish_addSpill hhold ⟨.spill, l.addr.toNat, 0, m.addr, n, m.label, false, 0, 0⟩ ?_)
  · rw [Bool.not_eq_true', Bool.and_eq_false_iff, Core.taggedPairs_unwritable (by omega)]
    rfl
  · exact fun hk => absurd rfl hk

theorem lfill_checked (hm : MayIssue (.lfill h d a b) s) :
    let n := (s.core.rd b).v.toNat
    let l := s.core.rdCap d
    let m := s.core.rdCap a
    let r : SpillReq := ⟨.fill, 0, l.addr.toNat, m.addr, n, 0, m.perm.getLsbD 7, s.core.nextId, s.core.lo⟩
    Checked (.lfill h d a b) s (Queued (.lfill h d a b) r (s.spillCounts s.core r) l.addr.toNat n s)
      ((n < 1 ∨ 4080 < n, .bounds, (s.core.rd b).v) :: (lensUseChecks d l 1 ++ (memoryUseChecks s a m ++
        [(m.perm.getLsbD 0 = false, .perm, nameVal a)] ++ (m.addr.toNat % 16 ≠ 0, .align, nameVal a) :: rangeCheck l n ::
          imageChecks s m (imageBytes l.addr.toNat n)))) := by
  intro n l m r
  refine checked_guarded rfl hm rfl (.cons decide_eq_true_iff.symm fun _ => .append (lensUse_first d l .store) <|
    .append (useTrap_first s a m (.one ?_)) <| .cons decide_eq_true_iff.symm fun _ => .append (lensRange_first l n) <|
    .last (imageTrap_first s m _)) (finish_addSpill hhold ⟨.fill, 0, l.addr.toNat, m.addr, n, 0, m.can .caprd, 0, 0⟩ ?_)
  · simp [Cap.can, Perm.bit, m]
  · exact fun _ => rfl

theorem lmove_checked (hm : MayIssue (.lmove h d a b) s) :
    let n := (s.core.rd b).v.toNat
    let t := s.core.rdCap d
    let l := s.core.rdCap a
    Checked (.lmove h d a b) s (Queued (.lmove h d a b)
        ⟨.move, l.addr.toNat, t.addr.toNat, 0, n, 0, false, s.core.nextId, s.core.lo⟩ [] t.addr.toNat n s)
      ((n < 1 ∨ 4080 < n, .bounds, (s.core.rd b).v) :: (lensUseChecks d t 1 ++ (lensUseChecks a l 0 ++
        [rangeCheck t n, rangeCheck l n]))) := by
  intro n t l
  exact checked_guarded rfl hm rfl (.cons decide_eq_true_iff.symm fun _ => .append (lensUse_first d t .store) <|
    .append (lensUse_first a l .load) <| .append (lensRange_first t n) <| .last (lensRange_first l n))
    (finish_addSpill hhold ⟨.move, l.addr.toNat, t.addr.toNat, 0, n, 0, false, 0, 0⟩ fun _ => rfl)

end

end Sys2Proof.Machine

namespace Sys2Proof

open Sys2Proof.Machine

/-- Settles O16: behind its checks in their order, each of the three hands one request to the engine. -/
theorem bulkMoves : Obligations.BulkMoves := by
  unfold Obligations.BulkMoves
  intro h d a b s hhold n x y count lens memory aligned queued bytes out spill fill
  refine ⟨fun hm => lspill_checked hhold hm, fun hm => ?_, fun hm => lmove_checked hhold hm⟩
  rw [← spillCounts_fill s (r := fill) rfl]
  exact lfill_checked hhold hm

end Sys2Proof
end

section
/-! SUPPORT. SRD, SWR and BKPT (O25). -/

namespace Sys2Proof.Machine

open Sys2Proof

/-! ### Which registers a mode may read and write (R475) -/

theorem mayRead_iff (m : Mode) (reg : Nat) : mayRead m reg = true ↔ (m = .u → reg = 0 ∨ 7 ≤ reg) := by
  simp only [mayRead, Bool.or_eq_true, decide_eq_true_eq, imp_iff_not_or, ne_eq]

theorem mayWrite_iff (m : Mode) (reg : Nat) : mayWrite m reg = true ↔ (m = .u → reg = 12 ∨ reg = 16) ∧
    (reg = 0 ∨ reg = 1 ∨ reg = 2 ∨ reg = 3 ∨ reg = 4 ∨ reg = 5 ∨ reg = 6 ∨ reg = 12 ∨ reg = 13 ∨ reg = 14 ∨ reg = 15 ∨ reg = 16 ∨
      reg = 22) := by
  unfold mayWrite
  split <;> rename_i hm <;> simp only [hm, decide_eq_true_eq, true_imp_iff, false_imp_iff, true_and] <;> omega

theorem srKind_cap {reg : Nat} (h : 3 ≤ reg ∧ reg ≤ 6) : srKind reg = .cap := if_pos h
theorem srKind_word {reg : Nat} (h : ¬ (3 ≤ reg ∧ reg ≤ 6)) : srKind reg ≠ .cap := by
  rw [srKind, if_neg h]; exact OpKind.noConfusion

/-! ### Fields of the words that are read -/

theorem modeWord_toNat (c : Core) : (BitVec.ofNat 64 (c.prevMode.code * 4 + c.mode.code)).toNat = 4 * c.prevMode.code + c.mode.code := by
  cases c.prevMode <;> cases c.mode <;> rfl

theorem rptWord_toNat (c : Core) : c.rptWord.toNat = c.rptValid.toNat * 2 ^ 63 + c.rptRemain % 128 := by
  have := c.rptValid.toNat_lt
  unfold Core.rptWord
  rw [BitVec.toNat_ofNat]
  omega

theorem rptWord_valid (c : Core) : c.rptWord.getLsbD 63 = c.rptValid := by
  rw [BitVec.getLsbD, Nat.testBit_eq_decide_div_mod_eq, rptWord_toNat]
  cases c.rptValid <;> simp only [Bool.toNat_true, Bool.toNat_false, decide_eq_true_eq, decide_eq_false_iff_not] <;> omega

theorem PState.code_le (p : PState) : p.code ≤ 5 := by cases p <;> decide

theorem pairWord_toNat {p : PairReg} (h : p.n < 512) : p.word.toNat = p.n + p.report.toNat * 2 ^ 9 + p.partner.toNat * 2 ^ 12 +
    p.pstate.code * 2 ^ 16 + p.intv.toNat * 2 ^ 32 + p.rbcount.toNat * 2 ^ 48 := by
  have hstate := p.pstate.code_le
  have hreport := p.report.toNat_lt
  unfold PairReg.word
  rw [BitVec.toNat_ofNat]
  omega

theorem gangWord_toNat (g : GangReg) : g.word.toNat = g.members.toNat + g.fused.toNat * 2 ^ 16 + g.lsize.toNat * 2 ^ 17 +
    g.leader.toNat * 2 ^ 24 + g.cause.toNat * 2 ^ 28 := by
  have hfused := g.fused.toNat_lt
  unfold GangReg.word
  rw [BitVec.toNat_ofNat]
  omega

theorem healthState_eq (s : State) : s.healthState = if (∃ e ∈ s.spused, e.2 = 8) ∨ (∃ e ∈ s.pcdrop, 2 ≤ e.2) then 2
    else if (∃ e ∈ s.spused, e.2 ≠ 0) ∨ (∃ e ∈ s.pcdrop, e.2 ≠ 0) then 1 else 0 := by
  simp only [State.healthState, List.any_eq_true, decide_eq_true_eq]

theorem healthState_two (s : State) : s.healthState = 2 ↔ (∃ e ∈ s.spused, e.2 = 8) ∨ ∃ e ∈ s.pcdrop, 2 ≤ e.2 := by
  rw [healthState_eq]
  split_ifs with hfull hsome
  · exact iff_of_true rfl hfull
  · exact iff_of_false (by decide) hfull
  · exact iff_of_false (by decide) hfull

theorem healthState_zero (s : State) : s.healthState = 0 ↔ (∀ e ∈ s.spused, e.2 = 0) ∧ ∀ e ∈ s.pcdrop, e.2 = 0 := by
  have hnone : ((∀ e ∈ s.spused, e.2 = 0) ∧ ∀ e ∈ s.pcdrop, e.2 = 0) ↔
      ¬ ((∃ e ∈ s.spused, e.2 ≠ 0) ∨ ∃ e ∈ s.pcdrop, e.2 ≠ 0) := by push Not; rfl
  rw [healthState_eq, hnone]
  split_ifs with hfull hsome
  · refine iff_of_false (by decide) (not_not_intro ?_)
    obtain ⟨e, he, h⟩ | ⟨e, he, h⟩ := hfull
    · exact .inl ⟨e, he, by omega⟩
    · exact .inr ⟨e, he, by omega⟩
  · exact iff_of_false (by decide) (not_not_intro hsome)
  · exact iff_of_true rfl hsome

theorem healthState_lt (s : State) : s.healthState < 3 := by
  unfold State.healthState
  split
  · decide
  · split <;> decide

theorem healthWord_toNat (s : State) (die : Nat) : (s.healthWord die).toNat = min s.kills (2 ^ 32 - 1) * 2 ^ 32 +
    s.pcdrop.look (fun _ => 0) die % 256 * 2 ^ 16 + s.spused.look (fun _ => 0) die % 256 * 2 ^ 8 + s.healthState := by
  have := healthState_lt s
  unfold State.healthWord
  rw [BitVec.toNat_ofNat]
  omega

/-- The fields of sy.health (R473). -/
theorem healthWord_fields (s : State) (die : Nat) :
    (s.healthWord die).toNat / 2 ^ 32 = min s.kills (2 ^ 32 - 1) ∧
    (s.healthWord die).toNat / 2 ^ 16 % 2 ^ 16 = s.pcdrop.look (fun _ => 0) die % 256 ∧
    (s.healthWord die).toNat / 2 ^ 8 % 2 ^ 8 = s.spused.look (fun _ => 0) die % 256 ∧
    ((s.healthWord die).toNat % 2 ^ 8 = 2 ↔ (∃ e ∈ s.spused, e.2 = 8) ∨ ∃ e ∈ s.pcdrop, 2 ≤ e.2) ∧
    ((s.healthWord die).toNat % 2 ^ 8 = 0 ↔ (∀ e ∈ s.spused, e.2 = 0) ∧ ∀ e ∈ s.pcdrop, e.2 = 0) ∧
    (s.healthWord die).toNat % 2 ^ 8 < 3 := by
  have hlt := healthState_lt s
  have hstate : (s.healthWord die).toNat % 2 ^ 8 = s.healthState := by rw [healthWord_toNat]; omega
  rw [hstate, healthWord_toNat]
  exact ⟨by omega, by omega, by omega, healthState_two s, healthState_zero s, hlt⟩

/-! ### Late results (R48) -/

/-- Two cores have the same lens, register store, tags, operand file and q. -/
structure RegsAlike (c x : Core) : Prop where
  lens : x.lens = c.lens
  regs : x.regs = c.regs
  tags : x.tags = c.tags
  opf : x.opf = c.opf
  q : x.q = c.q

/-- A write says the same of a core that has the same registers before it. -/
theorem RegsAlike.written {c x x' : Core} (h : RegsAlike c x) {d : Name} {v : LVal} {withQ : Bool} (hw : WordWritten d v withQ x x') :
    WordWritten d v withQ c x' :=
  written_congr hw h.lens.symm h.regs.symm h.tags.symm h.opf.symm h.q.symm rfl rfl rfl rfl rfl

theorem RegsAlike.place {c x : Core} (h : RegsAlike c x) (d : Name) : x.place d = c.place d := by
  cases d <;> simp [Core.place, Core.lb, Core.lo, h.lens]

theorem RegsAlike.ent {c x : Core} (h : RegsAlike c x) (e : Nat) : x.ent e = c.ent e := by
  unfold Core.ent; rw [h.regs]

theorem RegsAlike.tagAt {c x : Core} (h : RegsAlike c x) (e : Nat) : x.tagAt e = c.tagAt e := by
  unfold Core.tagAt; rw [h.tags]

/-- Where no other late write waits, the one just issued lands in the registers that the core had. -/
theorem later_landReady (i : Instr) {s : State} (ha : Alone s) (hp : s.core.pending = []) (ws : List TWrite) :
    ∃ x : Core, x.pending = [] ∧ RegsAlike s.core x ∧
      ((Res.done (s.mapCore (fun c => c.later ws 0 0 0 false))).finish i).core.landReady = ws.foldl Core.landOne x := by
  have hlater := Core.later_alone ha.2 ws 0 0 0 false
  have hpending := Core.later_pending hp ws 0 0 0 false
  have hinterval : ((s.core.later ws 0 0 0 false).retire (instrBytes i)).interval = none := by rw [hlater]; exact ha.2
  refine ⟨_, rfl, ⟨?_, ?_, ?_, ?_, ?_⟩, Core.landReady_one hinterval (show Core.pending (Core.retire _ _) = _ from hpending) rfl rfl rfl⟩
  all_goals rw [hlater]; rfl

theorem RegsAlike.latePlace_lands {c x : Core} (h : RegsAlike c x) (d : Name) (v : LVal) :
    WordWritten d v false c ((c.latePlace d v).foldl Core.landOne x) := by
  rcases ht : c.place d with _ | t
  · have hnone : c.latePlace d v = [] := by rw [Core.latePlace, ht]
    have halone : RegsAlike c { x with interval := none } := ⟨h.lens, h.regs, h.tags, h.opf, h.q⟩
    have hkept := Core.wr_written (c := { x with interval := none }) rfl d v
    rw [Core.wr, halone.place, ht] at hkept
    rw [hnone]
    exact written_congr (halone.written hkept) rfl rfl rfl rfl rfl rfl rfl rfl rfl rfl
  · have hone : c.latePlace d v = [⟨t, v.v, 0, false, v.l⟩] := by rw [Core.latePlace, ht]
    have hland : Core.landOne x ⟨t, v.v, 0, false, v.l⟩ = x.setTgt t v := by cases d <;> cases ht <;> rfl
    rw [hone, List.foldl_cons, List.foldl_nil, hland]
    exact h.written (Core.setTgt_written x d t v ((h.place d).trans ht))

/-- A late scalar result. -/
theorem latePlace_done {i : Instr} {s : State} (ha : Alone s) (d : Name) (v : LVal) :
    WordLate i d v false s ((Res.done (s.mapCore (fun c => c.later (c.latePlace d v) 0 0 0 false))).finish i) := by
  refine ⟨later_issued ha (s.core.latePlace d v) _ _ _ _, fun hp => ?_⟩
  obtain ⟨x, hpending, halike, hland⟩ := later_landReady i ha hp (s.core.latePlace d v)
  have hland' : ((Res.done (s.mapCore (fun c => c.later (c.latePlace d v) 0 0 0 false))).finish i).core.landReady = _ := hland
  rw [hland']
  exact ⟨halike.latePlace_lands d v, by rw [landOne_pending, hpending]⟩

/-- A capability lands in the pair of a c name. -/
theorem RegsAlike.landPair_written {c x : Core} (h : RegsAlike c x) (n : Nat) (k : Cap) (l : Label) :
    CapWritten (.w n) k l c (x.landOne ⟨.pair (c.physOf (.w n)), k.addr, k.hi, k.tag, l⟩) := by
  have hland : x.landOne ⟨.pair (c.physOf (.w n)), k.addr, k.hi, k.tag, l⟩ = x.putPair (c.physOf (.w n)) k l := by
    simp only [Core.landOne, Cap.ofWords_words]
  have hphys : (x.putPair (c.physOf (.w n)) k l).lb + n = c.physOf (.w n) := by
    rw [Core.lb, Core.putPair_lens, h.lens]; rfl
  obtain ⟨value, lower, upper, entries, pairs⟩ := x.putPair_holds (c.physOf (.w n)) k l
  rw [hland]
  exact ⟨by rw [Core.rdCap, hphys, value], lower, upper, fun e h1 h2 => (entries e h1 h2).trans (h.ent e),
    fun e he => (pairs e he).trans (h.tagAt e), h.opf, h.q⟩

/-! ### SRD (R475, R479) -/

theorem guarded_failIf_one (p : Bool) (k : Cause) (v : Word) (s : State) (f : State → Res) :
    guarded (failIf p k v) s f = if p = true then .trap s k v else f s := by
  cases p <;> rfl

/-- The check of R475 on a read. -/
def readCheck (s : State) (reg : Nat) : Prop × Cause × Word :=
  (¬ (s.core.mode = .u → reg = 0 ∨ 7 ≤ reg), .priv, BitVec.ofNat 64 s.core.word)

theorem readCheck_first (s : State) (reg : Nat) :
    FirstFailing (failIf (!mayRead s.core.mode reg) .priv (BitVec.ofNat 64 s.core.word)) [readCheck s reg] :=
  .one (by rw [Bool.not_eq_true', ← Bool.not_eq_true, mayRead_iff])

section
variable {h : Hd} {d : Name} {reg : Nat} {s : State} (hm : MayIssue (.srd h d reg) s)
include hm

theorem srd_cap_checked (hcap : 3 ≤ reg ∧ reg ≤ 6) : Checked (.srd h d reg) s (fun t => LateIssued (.srd h d reg) s t ∧
    (s.core.pending = [] → CapWritten d (s.core.sysCap reg) 0 s.core t.core.landReady)) [readCheck s reg] := by
  obtain ⟨n, rfl, -⟩ := cap_name hm.2 (r := .d) (n := d) (by rw [← srKind_cap hcap]; exact List.mem_singleton.2 rfl)
  refine checked_guarded (g := fun s => .done (s.mapCore (fun c =>
    c.later [⟨.pair (c.physOf (.w n)), (s.core.sysCap reg).addr, (s.core.sysCap reg).hi, (s.core.sysCap reg).tag, 0⟩] 0 0 0 false)))
    rfl hm ?_ (readCheck_first s reg) ?_
  · dsimp only
    rw [guarded_failIf_one, if_pos (srKind_cap hcap)]
  · refine ⟨later_issued hm.1 _ _ _ _ _, fun hp => ?_⟩
    obtain ⟨x, -, halike, hland⟩ := later_landReady (.srd h (.w n) reg) hm.1 hp
      [⟨.pair (s.core.physOf (.w n)), (s.core.sysCap reg).addr, (s.core.sysCap reg).hi, (s.core.sysCap reg).tag, 0⟩]
    have hwritten := halike.landPair_written n (s.core.sysCap reg) 0
    rw [← List.foldl_nil (f := Core.landOne) (b := x.landOne _), ← List.foldl_cons, ← hland] at hwritten
    exact hwritten

theorem srd_word_checked (hword : ¬ (3 ≤ reg ∧ reg ≤ 6)) {P : State → Prop}
    (hp : P ((Res.done (srdWord d reg (s.sysRead s.core reg) s)).finish (.srd h d reg))) :
    Checked (.srd h d reg) s P [readCheck s reg] := by
  have hsome : ¬ s.core.interval.isSome = true := by rw [hm.1.2]; exact Bool.false_ne_true
  have hcore : s.srdCore reg = s.core := if_neg (fun hc => hsome hc.1)
  refine checked_guarded (g := fun s => .done (srdWord d reg (s.sysRead s.core reg) s)) rfl hm ?_ (readCheck_first s reg) hp
  dsimp only
  rw [guarded_failIf_one, if_neg (srKind_word hword), hcore, if_neg (c := _ ∧ _) (fun hc => hsome hc.1)]

theorem srd_late_checked (hword : ¬ (3 ≤ reg ∧ reg ≤ 6)) (hseed : reg ≠ 19) : Checked (.srd h d reg) s
    (WordLate (.srd h d reg) d ⟨s.sysRead s.core reg, 0⟩ false s) [readCheck s reg] := by
  refine srd_word_checked hm hword ?_
  rw [srdWord, if_neg hseed]
  exact latePlace_done hm.1 d _

end

/-- SRD of sy.seed: the value is drawn, and the counter of free values goes on. -/
theorem srd_seed_completes {h : Hd} {d : Name} {s : State} (hm : MayIssue (.srd h d 19) s) : Completes (.srd h d 19) s (fun t =>
    t.freeCtr = s.freeCtr + 1 ∧
      WordLate (.srd h d 19) d ⟨s.sysRead s.core 19, 0⟩ false s { t with freeCtr := s.freeCtr }) := by
  refine completes_of_checked (srd_word_checked hm (by decide) ⟨rfl, latePlace_done hm.1 d ⟨s.sysRead s.core 19, 0⟩⟩) ?_
  exact fun x hx => by rw [List.mem_singleton.1 hx]; exact not_not_intro fun _ => .inr (by decide)

/-! ### SWR (R72, R479) -/

/-- The check of R475 on a write. -/
def writeCheck (s : State) (reg : Nat) : Prop × Cause × Word :=
  (¬ ((s.core.mode = .u → reg = 12 ∨ reg = 16) ∧
    (reg = 0 ∨ reg = 1 ∨ reg = 2 ∨ reg = 3 ∨ reg = 4 ∨ reg = 5 ∨ reg = 6 ∨ reg = 12 ∨ reg = 13 ∨ reg = 14 ∨ reg = 15 ∨ reg = 16 ∨
      reg = 22)), .priv, BitVec.ofNat 64 s.core.word)

theorem writeCheck_first (s : State) (reg : Nat) :
    FirstFailing (failIf (!mayWrite s.core.mode reg) .priv (BitVec.ofNat 64 s.core.word)) [writeCheck s reg] :=
  .one (by rw [Bool.not_eq_true', ← Bool.not_eq_true, mayWrite_iff])

/-- The checks of R72: a lens as LNS takes it, or an unsealed capability. -/
def sysCapChecks (reg : Nat) (n : Name) (k : Cap) : List (Prop × Cause × Word) :=
  (k.tag = false, .tag, nameVal n) :: if reg = 4 ∨ reg = 5 then (lnsChecks n k).tail else [(k.otype ≠ 0, .seal, nameVal n)]

theorem swrTrap_first (reg : Nat) (n : Name) (k : Cap) : FirstFailing (swrTrap reg n k) (sysCapChecks reg n k) := by
  unfold swrTrap sysCapChecks
  split
  · exact lnsTrap_first n k
  · exact .cons (by simp) fun _ => .cons decide_eq_true_iff.symm fun _ => .none_nil

/-- A write of a system register changes that register alone: the core's place in its program stays. -/
theorem Core.setSys_keeps (c : Core) (reg : Nat) (v : Word) :
    (c.setSys reg v).interval = c.interval ∧ (c.setSys reg v).pc = c.pc ∧ (c.setSys reg v).rep = c.rep := by
  unfold Core.setSys
  split <;> exact ⟨rfl, rfl, rfl⟩

theorem Core.setSysCap_keeps (c : Core) (reg : Nat) (k : Cap) :
    (c.setSysCap reg k).interval = c.interval ∧ (c.setSysCap reg k).pc = c.pc ∧ (c.setSysCap reg k).rep = c.rep := by
  unfold Core.setSysCap
  split <;> exact ⟨rfl, rfl, rfl⟩

section
variable {h : Hd} {a : Name} {reg : Nat} {s : State} (hm : MayIssue (.swr h a reg) s)
include hm

theorem swr_cap_checked (hcap : 3 ≤ reg ∧ reg ≤ 6) : Checked (.swr h a reg) s
    (· = { s with core := wentOn (.swr h a reg) s.core (s.core.setSysCap reg (s.core.rdCap a)) })
    (writeCheck s reg :: sysCapChecks reg a (s.core.rdCap a)) := by
  obtain ⟨hinterval, hpc, hrep⟩ := s.core.setSysCap_keeps reg (s.core.rdCap a)
  rw [hm.1.2] at hinterval
  refine checked_guarded (f := firstOf [failIf (!mayWrite s.core.mode reg) .priv (BitVec.ofNat 64 s.core.word),
      swrTrap reg a (s.core.rdCap a)])
    (g := fun t => .done (t.mapCore (fun c =>
      ((c.setSysCap reg (s.core.rdCap a)).noteVal ⟨(s.core.rdCap a).addr, 0⟩).noteVal ⟨(s.core.rdCap a).hi, 0⟩)))
    rfl hm ?_ (.append (writeCheck_first s reg) (.last (swrTrap_first reg a _))) ?_
  · dsimp only
    rw [guarded_failIf, firstOf_one, if_pos (srKind_cap hcap)]
  · refine finish_done (congrArg (fun c => { s with core := c }) ?_) hpc hrep
    exact (Core.noteVal_alone (by rw [Core.noteVal_alone hinterval]; exact hinterval) _).trans (Core.noteVal_alone hinterval _)

theorem swr_word_checked (hword : ¬ (3 ≤ reg ∧ reg ≤ 6)) : Checked (.swr h a reg) s
    (· = { s with core := wentOn (.swr h a reg) s.core (s.core.setSys reg (s.core.rd a).v) }) [writeCheck s reg] := by
  obtain ⟨hinterval, hpc, hrep⟩ := s.core.setSys_keeps reg (s.core.rd a).v
  rw [hm.1.2] at hinterval
  refine checked_guarded (g := fun s => .done (s.mapCore (fun c => (c.setSys reg (c.rd a).v).noteVal (c.rd a)))) rfl hm ?_
    (writeCheck_first s reg) (finish_done (congrArg (fun c => { s with core := c }) (Core.noteVal_alone hinterval _)) hpc hrep)
  dsimp only
  rw [guarded_failIf_one, if_neg (srKind_word hword)]

end

/-! ### What the fields of each register are -/

theorem Core.sysCap_eq (c : Core) (reg : Nat) : c.sysCap reg =
    if reg = 3 then c.epcc else if reg = 4 then c.elens else if reg = 5 then c.hlens else c.hpcc := by
  unfold Core.sysCap
  split
  case h_4 h3 h4 h5 => rw [if_neg h3, if_neg h4, if_neg h5]
  all_goals rfl

theorem Core.setSysCap_eq (c : Core) (reg : Nat) (k : Cap) : c.setSysCap reg k =
    if reg = 3 then { c with epcc := k } else if reg = 4 then { c with elens := k } else if reg = 5 then { c with hlens := k }
    else { c with hpcc := k } := by
  unfold Core.setSysCap
  split
  case h_4 h3 h4 h5 => rw [if_neg h3, if_neg h4, if_neg h5]
  all_goals rfl

theorem clampN_eq (n : Nat) : clampN n = max 16 (min 256 n) := by
  unfold clampN
  split_ifs <;> omega

/-- sy.slice (R475): nothing without a kernel, and what is left of its team's slice where the kernel is of class PAR. -/
theorem sliceOf_none {s : State} {c : Core} (h : c.kernel = none) : s.sliceOf c = 0 := by
  simp only [State.sliceOf, h, Option.bind_none]

theorem sliceOf_team {s : State} {c : Core} {n : Nat} {x : Kernel} {y : Team} (hn : c.kernel = some n)
    (hx : s.kernels.listed n = some x) (hy : x.teams[c.team]? = some y) :
    s.sliceOf c = if x.cls = 1 then BitVec.ofNat 64 (y.left - y.ran s.clock) else 0 := by
  simp only [State.sliceOf, hn, Option.bind_some, hx, hy]

/-- The previous mode that a value written to sy.mode names (R469). -/
theorem setSys_mode (c : Core) (v : Word) : ∃ m, c.setSys 0 v = { c with prevMode := m } ∧ (v.toNat / 4 % 4 = 0 → m = .u) ∧
    (v.toNat / 4 % 4 = 1 → m = .s) ∧ (v.toNat / 4 % 4 = 2 → m = if c.mode = .f then .f else c.prevMode) ∧
    (v.toNat / 4 % 4 = 3 → m = c.prevMode) := by
  refine ⟨_, rfl, ?_, ?_, ?_, ?_⟩ <;> intro h <;> simp only [prevModeOf, h, Option.getD_some, Option.getD_none]
  split <;> rfl

end Sys2Proof.Machine

namespace Sys2Proof

open Sys2Proof.Machine

/-- Settles O25: each register is read and written by its row, behind the checks of the mode and, for a capability, of R72. -/
theorem systemRegisters : Obligations.SystemRegisters := by
  unfold Obligations.SystemRegisters
  intro h d a reg s hreg k readable writable isCap denied refused after held
  have hheld : held = s.core.sysCap reg := (s.core.sysCap_eq reg).symm
  have hafter : after = s.core.setSysCap reg k := (s.core.setSysCap_eq reg k).symm
  refine ⟨?readCap, ?read, fun hm => ⟨_, srd_seed_completes hm⟩, ?writeCap, ?write, ?bkpt⟩
  case readCap =>
    intro hm hcap
    rw [hheld]
    exact srd_cap_checked hm hcap
  case read =>
    intro hm hword hseed
    refine ⟨s.sysRead s.core reg, ?mode, ?cause, ?tval, ?rank, ?phys, ?base, ?len, ?part, ?evt, ?evmask, ?fpsup, ?rpt, ?pair, ?gang,
      ?clock, ?slice, ?health, ?ptimer, srd_late_checked hm hword hseed⟩
    all_goals rintro rfl
    case mode => exact modeWord_toNat s.core
    case cause | evt | evmask => exact BitVec.toNat_setWidth_of_le (by decide)
    case rpt =>
      refine ⟨rptWord_valid s.core, fun hr => ?_⟩
      show s.core.rptWord.toNat % 2 ^ 63 = _
      rw [rptWord_toNat]
      omega
    case pair => exact pairWord_toNat
    case gang => exact gangWord_toNat _
    case slice => exact ⟨sliceOf_none, fun n x y => sliceOf_team⟩
    case health => exact healthWord_fields s _
    all_goals rfl
  case writeCap =>
    intro hm hcap
    rw [hafter]
    exact swr_cap_checked hm hcap
  case write =>
    intro hm hword
    refine ⟨s.core.setSys reg (s.core.rd a).v, ⟨?newMode, ?newCause, ?newTval, ?newEvt, ?newEvmask,
      ?newFpsup, ?newRpt, ?newPair, ?newPtimer⟩, swr_word_checked hm hword⟩
    all_goals rintro rfl
    case newMode => exact setSys_mode _ _
    case newPair => exact ⟨by rw [← clampN_eq]; rfl, rfl⟩
    all_goals rfl
  case bkpt => exact fun hm htakes => completes_of_run rfl hm (raiseAt_entered htakes _ _ _)

end Sys2Proof
end

section
/-! SUPPORT. Rounding to a floating-point format (O34): the magnitudes of a format, counted by their bit patterns, rise strictly,
an exact magnitude lies between two neighbours of them, and each mode takes the lower or the upper one. -/

namespace Sys2Proof.Machine

open Sys2Proof

variable {g : FFmt}

/-! ### The magnitudes of a format in the order of their bits (R121) -/

/-- What R121 reads from the exponent and fraction fields `b`. -/
def FFmt.number (g : FFmt) (neg : Bool) (b : Nat) : FVal :=
  if b / 2 ^ g.mbits = 0 then .fin neg (b % 2 ^ g.mbits) g.emin
  else .fin neg (2 ^ g.mbits + b % 2 ^ g.mbits) (g.emin + (b / 2 ^ g.mbits : Nat) - 1)

/-- The magnitude of the fields `b`, as if exponents went on past the format's own: what the neighbour above the largest finite
value is for overflow (R126). -/
noncomputable def FFmt.mag (g : FFmt) (b : Nat) : ℚ := ratOf (g.number false b)

@[simp] theorem number_isNan (neg : Bool) (b : Nat) : (g.number neg b).isNan = false := by
  unfold FFmt.number
  split <;> rfl

theorem ratOf_fin (neg : Bool) (m : Nat) (e : Int) : ratOf (.fin neg m e) = (if neg then -1 else 1) * ((m : ℚ) * 2 ^ e) :=
  mul_assoc _ _ _

theorem ratOf_number (neg : Bool) (b : Nat) : ratOf (g.number neg b) = (if neg then -1 else 1) * g.mag b := by
  unfold FFmt.mag FFmt.number
  split <;> simp only [ratOf_fin, Bool.false_eq_true, if_false, one_mul]

/-- The pattern that holds the significand `M` at the exponent `t` above the least one has the magnitude that this says, also
for the significand that carries into the next exponent. -/
theorem mag_pattern {t M : Nat} (hM : M ≤ 2 ^ (g.mbits + 1)) (ht : t = 0 ∨ 2 ^ g.mbits ≤ M) :
    g.mag (t * 2 ^ g.mbits + M) = M * 2 ^ (g.emin + t) := by
  have hpos : 0 < 2 ^ g.mbits := Nat.two_pow_pos _
  rw [pow_succ] at hM
  unfold FFmt.mag FFmt.number
  rcases Nat.lt_or_ge M (2 ^ g.mbits) with hlt | hge
  · obtain rfl : t = 0 := by omega
    simp [Nat.div_eq_of_lt hlt, Nat.mod_eq_of_lt hlt, ratOf_fin]
  · obtain ⟨r, rfl⟩ := Nat.exists_eq_add_of_le hge
    rcases Nat.lt_or_ge r (2 ^ g.mbits) with hr | hr
    · have hb : t * 2 ^ g.mbits + (2 ^ g.mbits + r) = r + 2 ^ g.mbits * (t + 1) := by ring
      rw [hb, Nat.add_mul_div_left _ _ hpos, Nat.add_mul_mod_self_left, Nat.div_eq_of_lt hr, Nat.mod_eq_of_lt hr,
        if_neg (by omega), ratOf_fin]
      push_cast
      ring_nf
    · obtain rfl : r = 2 ^ g.mbits := by omega
      have hb : t * 2 ^ g.mbits + (2 ^ g.mbits + 2 ^ g.mbits) = 2 ^ g.mbits * (t + 2) := by ring
      have he : g.emin + ((t + 2 : Nat) : Int) - 1 = g.emin + t + 1 := by push_cast; ring
      rw [hb, Nat.mul_div_cancel_left _ hpos, Nat.mul_mod_right, if_neg (by omega), ratOf_fin, he, zpow_add_one₀ two_ne_zero]
      push_cast
      ring_nf

/-- Every pattern is one of those of `mag_pattern`, below the carry. -/
theorem exists_pattern (g : FFmt) (b : Nat) : ∃ t M, b = t * 2 ^ g.mbits + M ∧ M < 2 ^ (g.mbits + 1) ∧ (t = 0 ∨ 2 ^ g.mbits ≤ M) := by
  have hpos : 0 < 2 ^ g.mbits := Nat.two_pow_pos _
  have hmod := Nat.mod_lt b hpos
  have hdiv := Nat.div_add_mod' b (2 ^ g.mbits)
  rw [pow_succ]
  rcases h : b / 2 ^ g.mbits with _ | t
  · exact ⟨0, b % 2 ^ g.mbits, by rw [h] at hdiv; omega, by omega, .inl rfl⟩
  · refine ⟨t, 2 ^ g.mbits + b % 2 ^ g.mbits, ?_, by omega, .inr (by omega)⟩
    rw [h, add_mul] at hdiv
    omega

theorem mag_strictMono (g : FFmt) : StrictMono g.mag := by
  refine strictMono_nat_of_lt_succ fun b => ?_
  obtain ⟨t, M, rfl, hM, ht⟩ := exists_pattern g b
  rw [add_assoc, mag_pattern hM.le ht, mag_pattern hM (ht.imp_right (by omega))]
  gcongr
  omega

theorem mag_zero (g : FFmt) : g.mag 0 = 0 := by
  simpa using mag_pattern (g := g) (t := 0) (M := 0) (Nat.zero_le _) (.inl rfl)

theorem mag_nonneg (g : FFmt) (b : Nat) : 0 ≤ g.mag b := mag_zero g ▸ (mag_strictMono g).monotone b.zero_le

/-! ### The finite values that a format represents -/

theorem le_maxBits_iff {b : Nat} (he : 1 ≤ g.ebits) (hb : b < 2 ^ (g.ebits + g.mbits)) : b ≤ g.maxBits ↔
    ¬ (g.inf ∧ b / 2 ^ g.mbits = 2 ^ g.ebits - 1) ∧ ¬ (!g.inf ∧ b = 2 ^ (g.ebits + g.mbits) - 1) := by
  have hpos : 0 < 2 ^ g.mbits := Nat.two_pow_pos _
  have htwo : 2 ^ 1 ≤ 2 ^ g.ebits := Nat.pow_le_pow_right (by decide) he
  have hwide : 2 ^ 1 ≤ 2 ^ (g.ebits + g.mbits) := Nat.pow_le_pow_right (by decide) (by omega)
  unfold FFmt.maxBits
  cases g.inf
  · simp only [Bool.false_eq_true, if_false, false_and, not_false_eq_true, Bool.not_false, true_and]
    omega
  · have hinf : 0 < (2 ^ g.ebits - 1) * 2 ^ g.mbits := Nat.mul_pos (by omega) hpos
    have hdiv : b / 2 ^ g.mbits < 2 ^ g.ebits := by rwa [Nat.div_lt_iff_lt_mul hpos, ← pow_add]
    have hlt := Nat.div_lt_iff_lt_mul (x := b) (y := 2 ^ g.ebits - 1) hpos
    simp only [if_true, true_and, Bool.not_true, Bool.false_eq_true, false_and, not_false_eq_true, and_true]
    omega

theorem maxBits_lt (g : FFmt) : g.maxBits < 2 ^ (g.ebits + g.mbits) := by
  unfold FFmt.maxBits
  split
  · rw [pow_add]
    exact (Nat.sub_le _ _).trans_lt
      (Nat.mul_lt_mul_of_pos_right (Nat.sub_lt (Nat.two_pow_pos _) one_pos) (Nat.two_pow_pos _))
  · exact Nat.sub_lt (Nat.two_pow_pos _) two_pos

theorem decode_finite {bits : Nat} (he : 1 ≤ g.ebits) (h : bits % 2 ^ (g.ebits + g.mbits) ≤ g.maxBits) :
    g.decode bits = g.number (bits.testBit (g.ebits + g.mbits)) (bits % 2 ^ (g.ebits + g.mbits)) := by
  obtain ⟨hinf, hnan⟩ := (le_maxBits_iff he (Nat.mod_lt _ (Nat.two_pow_pos _))).1 h
  simp only [FFmt.decode, if_neg hinf, if_neg hnan]
  rfl

theorem le_maxBits_of_decode {bits m : Nat} {neg : Bool} {e : Int} (he : 1 ≤ g.ebits) (h : g.decode bits = .fin neg m e) :
    bits % 2 ^ (g.ebits + g.mbits) ≤ g.maxBits := by
  refine (le_maxBits_iff he (Nat.mod_lt _ (Nat.two_pow_pos _))).2 ⟨fun hinf => ?_, fun hnan => ?_⟩
  · simp only [FFmt.decode, if_pos hinf] at h
    split at h <;> cases h
  · have hinf : ¬ (g.inf ∧ bits % 2 ^ (g.ebits + g.mbits) / 2 ^ g.mbits = 2 ^ g.ebits - 1) := fun hinf => by
      simp [hinf.1] at hnan
    simp only [FFmt.decode, if_neg hinf, if_pos hnan] at h
    cases h

theorem decode_signed {b : Nat} (he : 1 ≤ g.ebits) (h : b ≤ g.maxBits) (neg : Bool) :
    g.decode (g.signed neg b) = g.number neg b := by
  have hlt := h.trans_lt (maxBits_lt g)
  have hmod : g.signed neg b % 2 ^ (g.ebits + g.mbits) = b := by
    unfold FFmt.signed
    split
    · rw [Nat.add_mod_left, Nat.mod_eq_of_lt hlt]
    · exact Nat.mod_eq_of_lt hlt
  have hsign : (g.signed neg b).testBit (g.ebits + g.mbits) = neg := by
    cases neg
    · exact Nat.testBit_lt_two_pow hlt
    · exact (Nat.testBit_two_pow_add_eq b _).trans (by rw [Nat.testBit_lt_two_pow hlt]; rfl)
  rw [decode_finite he (hmod.symm ▸ h), hmod, hsign]

theorem signed_lt {b : Nat} (hb : b < 2 ^ (g.ebits + g.mbits)) (neg : Bool) : g.signed neg b < 2 ^ g.width := by
  have hw : 2 ^ g.width = 2 * 2 ^ (g.ebits + g.mbits) := by rw [FFmt.width, add_assoc, pow_add, pow_one]
  unfold FFmt.signed
  split <;> omega

theorem signed_mod_two (hm : 1 ≤ g.mbits) (neg : Bool) (b : Nat) : g.signed neg b % 2 = b % 2 := by
  have heven : 2 ∣ 2 ^ (g.ebits + g.mbits) := dvd_pow_self 2 (by omega)
  unfold FFmt.signed
  split <;> omega

/-- A format represents the rationals whose magnitudes its finite patterns have, with either sign (R121). -/
theorem represents_iff (he : 1 ≤ g.ebits) (y : ℚ) : Represents g y ↔ ∃ k ≤ g.maxBits, |y| = g.mag k := by
  constructor
  · rintro ⟨bits, n, m, e, -, hdec, rfl⟩
    have hmax := le_maxBits_of_decode he hdec
    refine ⟨_, hmax, ?_⟩
    rw [← hdec, decode_finite he hmax, ratOf_number, abs_mul, abs_of_nonneg (mag_nonneg g _)]
    split <;> simp
  · rintro ⟨k, hk, hy⟩
    have hdec := decode_signed he hk (decide (y < 0))
    have hval := ratOf_number (g := g) (decide (y < 0)) k
    have hfin : ∃ m e, g.number (decide (y < 0)) k = .fin (decide (y < 0)) m e := by
      unfold FFmt.number
      split <;> exact ⟨_, _, rfl⟩
    obtain ⟨m, e, hfin⟩ := hfin
    refine ⟨_, _, m, e, signed_lt (hk.trans_lt (maxBits_lt g)) _, hdec.trans hfin, ?_⟩
    rw [← hfin, hval, ← hy]
    by_cases hneg : y < 0
    · simp [hneg, abs_of_neg hneg]
    · simp [hneg, abs_of_nonneg (not_lt.1 hneg)]

/-! ### Where an exact magnitude lies, and which neighbour a mode takes -/

/-- `a` lies at the magnitude of the pattern `c`, or between it and the next. -/
def FFmt.Brackets (g : FFmt) (a : ℚ) (c : Nat) : Prop := g.mag c ≤ a ∧ a < g.mag (c + 1)

/-- A mode takes the greater of the two neighbours of `a` (R125). -/
def FFmt.TakesUpper (g : FFmt) (mode : RMode) (neg : Bool) (a : ℚ) (c : Nat) : Prop :=
  g.mag c ≠ a ∧ match mode with
    | .rne => g.mag (c + 1) - a < a - g.mag c ∨ (a - g.mag c = g.mag (c + 1) - a ∧ c % 2 = 1)
    | .rdn => neg = true
    | .rup => neg = false
    | _ => False

/-- `splitAt` divides the exact magnitude by 2^q, the rest as a part of it. -/
theorem splitAt_value (m : Nat) (e q : Int) :
    (m : ℚ) * 2 ^ e = ((splitAt m e q false).lower + (splitAt m e q false).rem / 2 ^ (splitAt m e q false).shift) * 2 ^ q := by
  unfold splitAt
  split_ifs with h
  · obtain ⟨n, hn⟩ := Int.eq_ofNat_of_zero_le (sub_nonneg.2 h)
    obtain rfl : e = n + q := by omega
    simp [zpow_add₀ (two_ne_zero (α := ℚ)), mul_assoc]
  · obtain ⟨n, hn⟩ := Int.eq_ofNat_of_zero_le (sub_nonneg.2 (not_le.1 h).le)
    obtain rfl : q = n + e := by omega
    have hdiv : (m : ℚ) = 2 ^ n * (m / 2 ^ n : Nat) + (m % 2 ^ n : Nat) := by exact_mod_cast (Nat.div_add_mod m (2 ^ n)).symm
    have hpow : (2 : ℚ) ^ n ≠ 0 := by positivity
    simp only [add_sub_cancel_right, Int.toNat_natCast, zpow_add₀ (two_ne_zero (α := ℚ)), zpow_natCast]
    field_simp
    linarith

theorem splitAt_rem_lt (m : Nat) (e q : Int) : (splitAt m e q false).rem < 2 ^ (splitAt m e q false).shift := by
  unfold splitAt
  split
  · exact one_pos
  · exact Nat.mod_lt _ (Nat.two_pow_pos _)

theorem splitAt_sticky (m : Nat) (e q : Int) (sticky : Bool) : (splitAt m e q sticky).sticky = sticky := by
  unfold splitAt
  split <;> rfl

theorem inexact_iff {x : Split} (hs : x.sticky = false) : x.inexact = true ↔ x.rem ≠ 0 := by
  simp [Split.inexact, hs]

theorem up_rne_iff {x : Split} (hs : x.sticky = false) (hrem : x.rem < 2 ^ x.shift) (neg : Bool) (r : Nat) :
    x.up .rne neg r = true ↔ x.rem ≠ 0 ∧ (2 ^ x.shift < 2 * x.rem ∨ (2 * x.rem = 2 ^ x.shift ∧ x.lower % 2 = 1)) := by
  rw [Split.up, Bool.and_eq_true, inexact_iff hs]
  refine and_congr_right fun hne => ?_
  rcases h : x.shift with _ | k
  · rw [h, pow_zero] at hrem
    omega
  · rw [pow_succ]
    simp only [hs, Bool.false_or, Nat.mul_div_cancel _ two_pos, Nat.succ_ne_zero, if_false]
    split_ifs <;> simp <;> omega

/-- The exponent of the unit in which `round` counts the magnitude m × 2^e: that of the value's last fraction bit, or of the
smallest subnormal. -/
def FFmt.unitExp (g : FFmt) (m : Nat) (e : Int) : Int := max ((Nat.log2 m : Int) + e - g.mbits) g.emin

/-- The bits of the greatest magnitude not above m × 2^e. -/
def FFmt.floorBits (g : FFmt) (m : Nat) (e : Int) : Nat :=
  (g.unitExp m e - g.emin).toNat * 2 ^ g.mbits + (splitAt m e (g.unitExp m e) false).lower

theorem value_bounds {m : Nat} (hm : m ≠ 0) (e : Int) :
    (2 : ℚ) ^ ((Nat.log2 m : Int) + e) ≤ m * 2 ^ e ∧ (m : ℚ) * 2 ^ e < 2 ^ ((Nat.log2 m : Int) + e + 1) := by
  have hlow : (2 : ℚ) ^ Nat.log2 m ≤ m := by exact_mod_cast Nat.log2_self_le hm
  have hhigh : (m : ℚ) < 2 ^ (Nat.log2 m + 1) := by exact_mod_cast Nat.lt_log2_self
  rw [add_right_comm, zpow_add₀ two_ne_zero, zpow_add₀ two_ne_zero (_ + 1)]
  constructor
  · gcongr
    exact_mod_cast hlow
  · gcongr
    exact_mod_cast hhigh

/-- In that unit the significand has its leading bit, or the unit is the least one, and it fits. -/
theorem lower_range {m : Nat} (hm : m ≠ 0) (e : Int) :
    (splitAt m e (g.unitExp m e) false).lower < 2 ^ (g.mbits + 1) ∧
    (g.unitExp m e = g.emin ∨ 2 ^ g.mbits ≤ (splitAt m e (g.unitExp m e) false).lower) := by
  set q := g.unitExp m e with hq
  have hval := splitAt_value m e q
  have hrem : ((splitAt m e q false).rem : ℚ) < 2 ^ (splitAt m e q false).shift := by exact_mod_cast splitAt_rem_lt m e q
  set x := splitAt m e q false
  obtain ⟨hlow, hhigh⟩ := value_bounds hm e
  have hunit : (0 : ℚ) < 2 ^ q := by positivity
  have hpart : (x.rem : ℚ) / 2 ^ x.shift < 1 := (div_lt_one (by positivity)).2 hrem
  have hpart0 : (0 : ℚ) ≤ (x.rem : ℚ) / 2 ^ x.shift := by positivity
  rw [hval] at hlow hhigh
  constructor
  · have hle : (2 : ℚ) ^ ((Nat.log2 m : Int) + e + 1) ≤ 2 ^ (g.mbits + 1) * 2 ^ q := by
      have := le_max_left ((Nat.log2 m : Int) + e - g.mbits) g.emin
      rw [← zpow_natCast, ← zpow_add₀ two_ne_zero]
      exact zpow_le_zpow_right₀ one_le_two (by rw [hq, FFmt.unitExp]; omega)
    have hlt := lt_of_mul_lt_mul_right (hhigh.trans_le hle) hunit.le
    have : (x.lower : ℚ) < 2 ^ (g.mbits + 1) := by linarith
    exact_mod_cast this
  · refine (max_choice ((Nat.log2 m : Int) + e - g.mbits) g.emin).symm.imp (hq.trans ·) fun htop => ?_
    have hle : (2 : ℚ) ^ g.mbits * 2 ^ q ≤ 2 ^ ((Nat.log2 m : Int) + e) := by
      rw [← zpow_natCast, ← zpow_add₀ two_ne_zero]
      exact zpow_le_zpow_right₀ one_le_two (by rw [hq, FFmt.unitExp]; omega)
    have hge := le_of_mul_le_mul_right (hle.trans hlow) hunit
    have : (2 : ℚ) ^ g.mbits < x.lower + 1 := by linarith
    exact Nat.lt_succ_iff.1 (by exact_mod_cast this)

theorem emin_add_unit (m : Nat) (e : Int) : g.emin + ((g.unitExp m e - g.emin).toNat : Int) = g.unitExp m e := by
  have := le_max_right ((Nat.log2 m : Int) + e - g.mbits) g.emin
  unfold FFmt.unitExp
  omega

/-- The lower neighbour's bits or the next, as `encodeMag` writes them. -/
theorem encodeMag_lower {m : Nat} (hm : m ≠ 0) (e : Int) (up : Bool) :
    g.encodeMag ((splitAt m e (g.unitExp m e) false).lower + up.toNat) (g.unitExp m e) = g.floorBits m e + up.toNat := by
  obtain ⟨hlt, hnormal⟩ := lower_range (g := g) hm e
  unfold FFmt.floorBits FFmt.encodeMag
  generalize (splitAt m e (g.unitExp m e) false).lower = lower at hlt hnormal
  have hup : up.toNat ≤ 1 := Bool.toNat_le up
  rw [pow_succ] at hlt ⊢
  split_ifs with hsub hcarry
  · have hleast : (g.unitExp m e - g.emin).toNat = 0 := by omega
    rw [hleast, zero_mul, zero_add]
  · rw [add_mul]
    omega
  · rw [add_mul]
    omega

theorem mag_floorBits {m : Nat} (hm : m ≠ 0) (e : Int) :
    g.mag (g.floorBits m e) = (splitAt m e (g.unitExp m e) false).lower * 2 ^ g.unitExp m e ∧
    g.mag (g.floorBits m e + 1) = ((splitAt m e (g.unitExp m e) false).lower + 1) * 2 ^ g.unitExp m e := by
  obtain ⟨hlt, hnormal⟩ := lower_range (g := g) hm e
  have ht : (g.unitExp m e - g.emin).toNat = 0 ∨ 2 ^ g.mbits ≤ (splitAt m e (g.unitExp m e) false).lower :=
    hnormal.imp_left (by omega)
  constructor
  · rw [FFmt.floorBits, mag_pattern hlt.le ht, emin_add_unit]
  · rw [FFmt.floorBits, add_assoc, mag_pattern hlt (ht.imp_right (by omega)), emin_add_unit, Nat.cast_succ]

theorem brackets_floorBits {m : Nat} (hm : m ≠ 0) (e : Int) : g.Brackets (m * 2 ^ e) (g.floorBits m e) := by
  obtain ⟨hlow, hhigh⟩ := mag_floorBits (g := g) hm e
  have hrem : ((splitAt m e (g.unitExp m e) false).rem : ℚ) < 2 ^ (splitAt m e (g.unitExp m e) false).shift := by
    exact_mod_cast splitAt_rem_lt m e _
  rw [FFmt.Brackets, hlow, hhigh, splitAt_value m e (g.unitExp m e)]
  constructor
  · gcongr
    exact le_add_of_nonneg_right (by positivity)
  · gcongr
    exact (div_lt_one (by positivity)).2 hrem

/-- The rest is nothing exactly where the value is its lower neighbour's. -/
theorem mag_floorBits_eq_iff {m : Nat} (hm : m ≠ 0) (e : Int) :
    g.mag (g.floorBits m e) = m * 2 ^ e ↔ (splitAt m e (g.unitExp m e) false).rem = 0 := by
  rw [(mag_floorBits hm e).1, splitAt_value m e (g.unitExp m e), mul_left_inj' (by positivity), left_eq_add,
    div_eq_zero_iff, Nat.cast_eq_zero]
  exact or_iff_left (by positivity)

theorem up_iff {mode : RMode} (hsr : mode ≠ .sr) (hmb : 1 ≤ g.mbits) {m : Nat} (hm : m ≠ 0) (e : Int) (neg : Bool) (r : Nat) :
    (splitAt m e (g.unitExp m e) false).up mode neg r = true ↔ g.TakesUpper mode neg (m * 2 ^ e) (g.floorBits m e) := by
  have hs := splitAt_sticky m e (g.unitExp m e) false
  have hexact := mag_floorBits_eq_iff (g := g) hm e
  cases mode
  case rne =>
    rw [up_rne_iff hs (splitAt_rem_lt m e _), FFmt.TakesUpper]
    refine and_congr hexact.not.symm ?_
    obtain ⟨hlow, hhigh⟩ := mag_floorBits (g := g) hm e
    have hodd : g.floorBits m e % 2 = (splitAt m e (g.unitExp m e) false).lower % 2 := by
      have heven : 2 ∣ (g.unitExp m e - g.emin).toNat * 2 ^ g.mbits := (dvd_pow_self 2 (by omega)).mul_left _
      unfold FFmt.floorBits
      omega
    have hval := splitAt_value m e (g.unitExp m e)
    rw [hodd, hlow, hhigh, hval]
    generalize splitAt m e (g.unitExp m e) false = x
    have hunit : (0 : ℚ) < 2 ^ g.unitExp m e := by positivity
    have hpow : (0 : ℚ) < 2 ^ x.shift := by positivity
    have hless : (2 ^ x.shift < 2 * x.rem) ↔ 1 - (x.rem : ℚ) / 2 ^ x.shift < x.rem / 2 ^ x.shift := by
      rw [sub_lt_iff_lt_add, ← add_div, one_lt_div hpow, ← two_mul]
      exact_mod_cast Iff.rfl
    have htie : (2 * x.rem = 2 ^ x.shift) ↔ (x.rem : ℚ) / 2 ^ x.shift = 1 - x.rem / 2 ^ x.shift := by
      rw [eq_sub_iff_add_eq, ← add_div, div_eq_one_iff_eq hpow.ne', ← two_mul]
      exact_mod_cast Iff.rfl
    rw [← sub_mul, ← sub_mul, mul_lt_mul_iff_left₀ hunit, mul_left_inj' hunit.ne', add_sub_add_left_eq_sub, add_sub_cancel_left,
      hless, htie]
  case sr => exact absurd rfl hsr
  all_goals simp [Split.up, FFmt.TakesUpper, inexact_iff hs, hexact]

/-- What `round` gives in any mode but SR: the lower or the upper neighbour of the value, and overflow where that lies above
the largest finite value (R125, R126). -/
theorem round_eq {mode : RMode} (hsr : mode ≠ .sr) (hmb : 1 ≤ g.mbits) (neg : Bool) {m : Nat} (hm : m ≠ 0) (e : Int) :
    ∃ up inexact tiny : Bool,
      (up = true ↔ g.TakesUpper mode neg (m * 2 ^ e) (g.floorBits m e)) ∧
      (inexact = true ↔ g.mag (g.floorBits m e) ≠ m * 2 ^ e) ∧
      g.round mode 0 neg m e false = if g.maxBits < g.floorBits m e + up.toNat then overflow g mode neg
        else ⟨g.signed neg (g.floorBits m e + up.toNat), ⟨false, false, false, tiny && inexact, inexact⟩⟩ := by
  refine ⟨_, _, ?tiny, up_iff hsr hmb hm e neg 0,
    (inexact_iff (splitAt_sticky m e _ false)).trans (mag_floorBits_eq_iff hm e).not.symm, ?eq⟩
  case eq =>
    rw [← encodeMag_lower hm]
    simp only [FFmt.round, hsr, false_and, or_false]
    rfl

/-! ### What the neighbour taken is among all magnitudes -/

theorem up_eq_false_of_exact {a : ℚ} {c : Nat} {mode : RMode} {neg up : Bool} (hup : up = true ↔ g.TakesUpper mode neg a c)
    (hc : g.mag c = a) : up = false :=
  Bool.eq_false_iff.2 fun ht => (hup.1 ht).1 hc

section

variable {a : ℚ} {c : Nat} (h : g.Brackets a c)
include h

theorem mag_le_iff (k : Nat) : g.mag k ≤ a ↔ k ≤ c :=
  ⟨fun hk => Nat.lt_succ_iff.1 ((mag_strictMono g).lt_iff_lt.1 (hk.trans_lt h.2)),
    fun hk => ((mag_strictMono g).monotone hk).trans h.1⟩

theorem bracketed_nonneg : 0 ≤ a := (mag_nonneg g c).trans h.1

theorem represents_bracketed_iff (he : 1 ≤ g.ebits) {v : ℚ} (hv : |v| = a) :
    Represents g v ↔ g.mag c = a ∧ c ≤ g.maxBits := by
  rw [represents_iff he, hv]
  constructor
  · rintro ⟨k, hk, rfl⟩
    obtain rfl : k = c := le_antisymm ((mag_le_iff h k).1 le_rfl) ((mag_strictMono g).le_iff_le.1 h.1)
    exact ⟨rfl, hk⟩
  · exact fun ⟨hc, hmax⟩ => ⟨c, hmax, hc.symm⟩

theorem lower_greatest : g.mag c ≤ a ∧ ∀ k, g.mag k ≤ a → g.mag k ≤ g.mag c :=
  ⟨h.1, fun k hk => (mag_strictMono g).monotone ((mag_le_iff h k).1 hk)⟩

theorem upper_least (hne : g.mag c ≠ a) : a ≤ g.mag (c + 1) ∧ ∀ k, a ≤ g.mag k → g.mag (c + 1) ≤ g.mag k :=
  ⟨h.2.le, fun _ hk => (mag_strictMono g).monotone ((mag_strictMono g).lt_iff_lt.1 ((h.1.lt_of_ne hne).trans_le hk))⟩

variable {mode : RMode} {neg up : Bool} (hup : up = true ↔ g.TakesUpper mode neg a c)
include hup

/-- A magnitude below the one taken lies below the value. -/
theorem mag_lt_of_lt_taken {k : Nat} (hk : k < c + up.toNat) : g.mag k < a := by
  cases up
  · exact ((mag_strictMono g) hk).trans_le h.1
  · exact ((mag_strictMono g).monotone (Nat.lt_succ_iff.1 hk)).trans_lt (h.1.lt_of_ne (hup.1 rfl).1)

/-- Toward zero (R125). -/
theorem taken_greatest (hdown : mode = .rtz ∨ (mode = .rdn ∧ neg = false) ∨ (mode = .rup ∧ neg = true)) :
    g.mag (c + up.toNat) ≤ a ∧ ∀ k, g.mag k ≤ a → g.mag k ≤ g.mag (c + up.toNat) := by
  have hfalse : up = false := Bool.eq_false_iff.2 fun ht => by
    obtain ⟨-, htakes⟩ := hup.1 ht
    rcases hdown with rfl | ⟨rfl, rfl⟩ | ⟨rfl, rfl⟩
    · exact htakes
    · cases htakes
    · cases htakes
  rw [hfalse]
  exact lower_greatest h

/-- Away from zero (R125). -/
theorem taken_least (haway : (mode = .rdn ∧ neg = true) ∨ (mode = .rup ∧ neg = false)) :
    a ≤ g.mag (c + up.toNat) ∧ ∀ k, a ≤ g.mag k → g.mag (c + up.toNat) ≤ g.mag k := by
  by_cases hc : g.mag c = a
  · rw [up_eq_false_of_exact hup hc, Bool.toNat_false, add_zero, hc]
    exact ⟨le_rfl, fun _ => id⟩
  · have htrue : up = true := hup.2 ⟨hc, by rcases haway with ⟨rfl, rfl⟩ | ⟨rfl, rfl⟩ <;> rfl⟩
    rw [htrue]
    exact upper_least h hc

/-- To the nearest, of two equally near to the even one (R125). -/
theorem taken_nearest (hrne : mode = .rne) (k : Nat) : |g.mag (c + up.toNat) - a| < |g.mag k - a| ∨
    (|g.mag (c + up.toNat) - a| = |g.mag k - a| ∧ (k = c + up.toNat ∨ (c + up.toNat) % 2 = 0)) := by
  subst hrne
  have hlow : |g.mag c - a| = a - g.mag c := by rw [abs_sub_comm, abs_of_nonneg (sub_nonneg.2 h.1)]
  have hhigh : |g.mag (c + 1) - a| = g.mag (c + 1) - a := abs_of_pos (sub_pos.2 h.2)
  have hmono := mag_strictMono g
  have hbelow : k < c → a - g.mag c < |g.mag k - a| := fun hk => by
    rw [abs_sub_comm]
    exact (sub_lt_sub_left (hmono hk) a).trans_le (le_abs_self _)
  have habove : c + 1 < k → g.mag (c + 1) - a < |g.mag k - a| := fun hk =>
    (sub_lt_sub_right (hmono hk) a).trans_le (le_abs_self _)
  cases up
  · have hnear : a - g.mag c < g.mag (c + 1) - a ∨ (a - g.mag c = g.mag (c + 1) - a ∧ c % 2 = 0) := by
      by_cases hc : g.mag c = a
      · exact .inl (by rw [hc, sub_self]; exact sub_pos.2 h.2)
      · have hnot : ¬ g.TakesUpper .rne neg a c := fun ht => Bool.false_ne_true (hup.2 ht)
        rcases lt_trichotomy (a - g.mag c) (g.mag (c + 1) - a) with hlt | heq | hgt
        · exact .inl hlt
        · exact .inr ⟨heq, Nat.mod_two_ne_one.1 fun hodd => hnot ⟨hc, .inr ⟨heq, hodd⟩⟩⟩
        · exact absurd ⟨hc, .inl hgt⟩ hnot
    rw [Bool.toNat_false, add_zero, hlow]
    rcases lt_trichotomy k c with hk | rfl | hk
    · exact .inl (hbelow hk)
    · exact .inr ⟨hlow.symm, .inl rfl⟩
    · rcases (Nat.succ_le_of_lt hk).eq_or_lt with rfl | hk
      · rw [hhigh]
        exact hnear.imp_right fun ⟨heq, heven⟩ => ⟨heq, .inr heven⟩
      · exact .inl ((hnear.elim le_of_lt fun ht => ht.1.le).trans_lt (habove hk))
  · obtain ⟨-, hnear⟩ := hup.1 rfl
    rw [Bool.toNat_true, hhigh]
    rcases lt_trichotomy k (c + 1) with hk | rfl | hk
    · rcases (Nat.lt_succ_iff.1 hk).eq_or_lt with rfl | hk
      · rw [hlow]
        exact hnear.imp_right fun ⟨heq, hodd⟩ => ⟨heq.symm, .inr (by omega)⟩
      · exact .inl ((hnear.elim le_of_lt fun ht => ht.1.ge).trans_lt (hbelow hk))
    · exact .inr ⟨hhigh.symm, .inl rfl⟩
    · exact .inl (habove hk)

end

/-! ### From magnitudes to the values with their signs -/

section

variable (he : 1 ≤ g.ebits) {a : ℚ} {b : Nat}
include he

theorem represents_neg_iff (y : ℚ) : Represents g (-y) ↔ Represents g y := by
  rw [represents_iff he, represents_iff he, abs_neg]

theorem represents_abs {y : ℚ} (hy : Represents g y) : ∃ k, |y| = g.mag k :=
  let ⟨k, _, hk⟩ := (represents_iff he y).1 hy
  ⟨k, hk⟩

theorem greatest_represented (h : ∀ k, g.mag k ≤ a → g.mag k ≤ g.mag b) {y : ℚ} (hy : Represents g y) (hya : y ≤ a) :
    y ≤ g.mag b := by
  rcases le_total y 0 with hneg | hpos
  · exact hneg.trans (mag_nonneg g b)
  · obtain ⟨k, hk⟩ := represents_abs he hy
    rw [abs_of_nonneg hpos] at hk
    exact hk ▸ h k (hk ▸ hya)

theorem least_represented (h : ∀ k, a ≤ g.mag k → g.mag b ≤ g.mag k) (ha : 0 ≤ a) {y : ℚ} (hy : Represents g y) (hya : a ≤ y) :
    g.mag b ≤ y := by
  obtain ⟨k, hk⟩ := represents_abs he hy
  rw [abs_of_nonneg (ha.trans hya)] at hk
  exact hk ▸ h k (hk ▸ hya)

theorem nearest_represented (h : ∀ k, |g.mag b - a| < |g.mag k - a| ∨ (|g.mag b - a| = |g.mag k - a| ∧ (k = b ∨ b % 2 = 0)))
    (ha : 0 ≤ a) {y : ℚ} (hy : Represents g y) :
    |g.mag b - a| < |y - a| ∨ (|g.mag b - a| = |y - a| ∧ (y = g.mag b ∨ b % 2 = 0)) := by
  rcases lt_or_ge y 0 with hneg | hpos
  · have hzero : |g.mag b - a| ≤ |g.mag 0 - a| := (h 0).elim le_of_lt fun heq => heq.1.le
    have hlt : |g.mag 0 - a| < |y - a| := by
      rw [mag_zero, zero_sub, abs_neg, abs_of_nonneg ha, abs_of_neg (by linarith)]
      linarith
    exact .inl (hzero.trans_lt hlt)
  · obtain ⟨k, hk⟩ := represents_abs he hy
    rw [abs_of_nonneg hpos] at hk
    rw [hk]
    exact (h k).imp_right fun ⟨heq, hor⟩ => ⟨heq, hor.imp_left (congrArg g.mag)⟩

end

theorem overflow_bits (mode : RMode) (neg : Bool) : (overflow g mode neg).bits =
    g.signed neg (if g.sat = false ∧ (mode = .rne ∨ (mode = .rdn ∧ neg = true) ∨ (mode = .rup ∧ neg = false))
      then g.infBits else g.maxBits) := by
  unfold overflow
  cases mode <;> simp

/-- Every format of R121 has exponent bits and fraction bits. -/
theorem formats_fields {g : FFmt} (hg : g ∈ [FFmt.f32, .f16, .bf16, .e4m3, .e5m2]) : 1 ≤ g.ebits ∧ 1 ≤ g.mbits := by
  revert g
  decide

/-! ### The clauses of R125 and R126 -/

section

variable (he : 1 ≤ g.ebits) {a : ℚ} {c : Nat} (h : g.Brackets a c) {mode : RMode} {neg up : Bool}
  (hup : up = true ↔ g.TakesUpper mode neg a c)
include he h hup

theorem overflow_clause (hover : g.maxBits < c + up.toNat) {y : ℚ} (hy : Represents g y) : |y| < a := by
  obtain ⟨k, hk, hyk⟩ := (represents_iff he y).1 hy
  rw [hyk]
  exact mag_lt_of_lt_taken h hup (hk.trans_lt hover)

theorem rtz_clause (hmode : mode = .rtz) : g.mag (c + up.toNat) ≤ a ∧
    ∀ y, Represents g y → |y| ≤ a → |y| ≤ g.mag (c + up.toNat) := by
  obtain ⟨hle, hbest⟩ := taken_greatest h hup (.inl hmode)
  refine ⟨hle, fun y hy hya => ?_⟩
  obtain ⟨k, hk⟩ := represents_abs he hy
  rw [hk] at hya ⊢
  exact hbest k hya

theorem rdn_clause (hmode : mode = .rdn) : ratOf (g.number neg (c + up.toNat)) ≤ (if neg then -1 else 1) * a ∧
    ∀ y, Represents g y → y ≤ (if neg then -1 else 1) * a → y ≤ ratOf (g.number neg (c + up.toNat)) := by
  rw [ratOf_number]
  cases neg
  · obtain ⟨hle, hbest⟩ := taken_greatest h hup (.inr (.inl ⟨hmode, rfl⟩))
    simp only [Bool.false_eq_true, if_false, one_mul]
    exact ⟨hle, fun y => greatest_represented he hbest⟩
  · obtain ⟨hle, hbest⟩ := taken_least h hup (.inl ⟨hmode, rfl⟩)
    simp only [if_true, neg_one_mul]
    exact ⟨neg_le_neg hle, fun y hy hya => le_neg.1
      (least_represented he hbest (bracketed_nonneg h) ((represents_neg_iff he y).2 hy) (le_neg.1 hya))⟩

theorem rup_clause (hmode : mode = .rup) : (if neg then -1 else 1) * a ≤ ratOf (g.number neg (c + up.toNat)) ∧
    ∀ y, Represents g y → (if neg then -1 else 1) * a ≤ y → ratOf (g.number neg (c + up.toNat)) ≤ y := by
  rw [ratOf_number]
  cases neg
  · obtain ⟨hle, hbest⟩ := taken_least h hup (.inr ⟨hmode, rfl⟩)
    simp only [Bool.false_eq_true, if_false, one_mul]
    exact ⟨hle, fun y => least_represented he hbest (bracketed_nonneg h)⟩
  · obtain ⟨hle, hbest⟩ := taken_greatest h hup (.inr (.inr ⟨hmode, rfl⟩))
    simp only [if_true, neg_one_mul]
    exact ⟨neg_le_neg hle, fun y hy hya => neg_le.1
      (greatest_represented he hbest ((represents_neg_iff he y).2 hy) (neg_le.1 hya))⟩

theorem rne_clause (hmode : mode = .rne) {y : ℚ} (hy : Represents g y) :
    |ratOf (g.number neg (c + up.toNat)) - (if neg then -1 else 1) * a| < |y - (if neg then -1 else 1) * a| ∨
    (|ratOf (g.number neg (c + up.toNat)) - (if neg then -1 else 1) * a| = |y - (if neg then -1 else 1) * a| ∧
      (y = ratOf (g.number neg (c + up.toNat)) ∨ (c + up.toNat) % 2 = 0)) := by
  have hnear := fun z => nearest_represented he (taken_nearest h hup hmode) (bracketed_nonneg h) (y := z)
  rw [ratOf_number]
  cases neg
  · simp only [Bool.false_eq_true, if_false, one_mul]
    exact hnear y hy
  · have hflip : ∀ z : ℚ, |z - -a| = |-z - a| := fun z => by rw [← abs_neg, neg_sub, sub_eq_add_neg, add_comm, sub_eq_add_neg]
    simp only [if_true, neg_one_mul, hflip, neg_neg, ← neg_eq_iff_eq_neg (a := y)]
    exact hnear (-y) ((represents_neg_iff he y).2 hy)

end

end Sys2Proof.Machine

namespace Sys2Proof

open Sys2Proof.Machine

/-- Settles O34: the value lies at a magnitude of the format or between two neighbours, and the mode takes one of them. -/
theorem rounding : Obligations.Rounding := by
  unfold Obligations.Rounding
  intro g mode neg m e hg hsr hm v r x
  obtain ⟨he, hmb⟩ := formats_fields hg
  have h := brackets_floorBits (g := g) hm e
  obtain ⟨up, inexact, tiny, hup, hinexact, hr⟩ := round_eq hsr hmb neg hm e
  have hv : v = (if neg then -1 else 1) * (m * 2 ^ e) := ratOf_fin neg m e
  have hx : x = ratOf (g.decode r.bits) := rfl
  generalize g.floorBits m e = c at *
  generalize (m : ℚ) * 2 ^ e = a at *
  have habs : ∀ {t : ℚ}, 0 ≤ t → |(if neg then -1 else 1) * t| = t := fun ht => by
    cases neg <;> simp [abs_of_nonneg ht]
  have hva : |v| = a := by rw [hv, habs (bracketed_nonneg h)]
  by_cases hover : g.maxBits < c + up.toNat
  · rw [if_pos hover] at hr
    have habove : ∀ y, Represents g y → |y| < |v| := fun y hy => hva ▸ overflow_clause he h hup hover hy
    have hnot : ¬ Represents g v := fun hrep => (habove v hrep).false
    have hfl : r.fl = ofFlag.or nxFlag := congrArg Rounded.fl hr
    rw [hfl]
    exact ⟨iff_of_true rfl hnot, fun hrep => absurd hrep hnot, fun hfalse => Bool.noConfusion hfalse,
      fun _ => ⟨habove, (congrArg Rounded.bits hr).trans (overflow_bits mode neg)⟩⟩
  · rw [if_neg hover] at hr
    have hle := not_lt.1 hover
    have hbits : r.bits = g.signed neg (c + up.toNat) := congrArg Rounded.bits hr
    have hfl : r.fl = ⟨false, false, false, tiny && inexact, inexact⟩ := congrArg Rounded.fl hr
    have hnum : g.decode r.bits = g.number neg (c + up.toNat) := by rw [hbits, decode_signed he hle]
    rw [hnum] at hx
    have hxa : |x| = g.mag (c + up.toNat) := by rw [hx, ratOf_number, habs (mag_nonneg g _)]
    have hrep : Represents g v ↔ g.mag c = a :=
      (represents_bracketed_iff h he hva).trans (and_iff_left (le_self_add.trans hle))
    rw [hfl, hva, hxa, hrep, hnum, number_isNan]
    refine ⟨hinexact, fun hc => ?exact, fun _ => ⟨?represented, rfl, ?sign, rtz_clause he h hup, ?rdn, ?rup, ?rne⟩,
      fun htrue => Bool.noConfusion htrue⟩
    case exact =>
      have hfalse : inexact = false := Bool.eq_false_iff.2 fun ht => hinexact.1 ht hc
      rw [hfalse, Bool.and_false, hx, ratOf_number, up_eq_false_of_exact hup hc, Bool.toNat_false, add_zero, hc, hv]
      exact ⟨rfl, rfl⟩
    case represented => exact (represents_iff he x).2 ⟨_, hle, hxa⟩
    case sign =>
      rw [hx, hv, ratOf_number, mul_mul_mul_comm]
      exact mul_nonneg (mul_self_nonneg _) (mul_nonneg (mag_nonneg g _) (bracketed_nonneg h))
    all_goals rw [hx, hv]
    case rdn => exact rdn_clause he h hup
    case rup => exact rup_clause he h hup
    case rne =>
      rw [hbits, signed_mod_two hmb]
      exact fun hmode y => rne_clause he h hup hmode

end Sys2Proof
end

section
/-! SUPPORT. Words by their bits and bytes, and what the functions of the scalar instructions compute (O1 to O4). -/

namespace Sys2Proof.Machine

open Sys2Proof

/-! ### Words by their bits -/

/-- The number whose bits below `n` are those of `f`, as `wordOfBits` adds it up. -/
def bitsBelow (f : Nat → Bool) (n : Nat) : Nat := (List.range n).foldl (fun acc i => acc + (f i).toNat * 2 ^ i) 0

theorem bitsBelow_succ (f : Nat → Bool) (n : Nat) : bitsBelow f (n + 1) = 2 ^ n * (f n).toNat + bitsBelow f n := by
  rw [bitsBelow, List.range_succ, List.foldl_append, List.foldl_cons, List.foldl_nil, add_comm, mul_comm]
  rfl

theorem bitsBelow_lt (f : Nat → Bool) (n : Nat) : bitsBelow f n < 2 ^ n := by
  induction n with
  | zero => exact Nat.one_pos
  | succ n ih => rw [bitsBelow_succ, Nat.pow_succ]; cases f n <;> simp <;> omega

theorem testBit_bitsBelow (f : Nat → Bool) {n i : Nat} (hi : i < n) : (bitsBelow f n).testBit i = f i := by
  induction n with
  | zero => exact absurd hi (Nat.not_lt_zero i)
  | succ n ih =>
    rw [bitsBelow_succ, Nat.testBit_two_pow_mul_add _ (bitsBelow_lt f n)]
    split
    · exact ih ‹_›
    · obtain rfl : i = n := by omega
      cases f i <;> simp

theorem wordOfBits_getLsbD (f : Nat → Bool) {i : Nat} (hi : i < 64) : (wordOfBits f).getLsbD i = f i := by
  show (BitVec.ofNat 64 (bitsBelow f 64)).getLsbD i = f i
  rw [BitVec.getLsbD_ofNat, testBit_bitsBelow f hi, decide_eq_true hi, Bool.true_and]

/-- The low bits of a shifted word are a field of the word (R164). -/
theorem setWidth_ushiftRight (x : Word) (pos n : Nat) : (x >>> pos).setWidth n = x.extractLsb' pos n := by
  ext i; simp

theorem setWidth_eq_low (x : Word) (n : Nat) : x.setWidth n = x.extractLsb' 0 n := by
  rw [← setWidth_ushiftRight, BitVec.ushiftRight_zero]

/-! ### Words by their bytes -/

theorem bytesOf_getD {n i : Nat} (v : Nat) (hi : i < n) : (bytesOf n v).getD i 0 = BitVec.ofNat 8 (v / 256 ^ i) := by
  induction n generalizing v i with
  | zero => exact absurd hi (Nat.not_lt_zero i)
  | succ n ih =>
    cases i with
    | zero => simp [bytesOf]
    | succ i => rw [bytesOf, List.getD_cons_succ, ih _ (by omega), Nat.div_div_eq_div_mul, Nat.pow_succ']

theorem ofBytes_digit (bs : List Byte) (i : Nat) : BitVec.ofNat 8 (ofBytes bs / 256 ^ i) = bs.getD i 0 := by
  induction bs generalizing i with
  | nil => simp [ofBytes]
  | cons b bs ih =>
    have hb := b.isLt
    cases i with
    | zero =>
      apply BitVec.eq_of_toNat_eq
      rw [pow_zero, Nat.div_one, ofBytes, BitVec.toNat_ofNat, List.getD_cons_zero]
      omega
    | succ i =>
      rw [Nat.pow_succ', ← Nat.div_div_eq_div_mul, ofBytes, show (b.toNat + 256 * ofBytes bs) / 256 = ofBytes bs by omega, ih,
        List.getD_cons_succ]

theorem extractLsb'_byte (v i : Nat) (hi : i < 8) :
    (BitVec.ofNat 64 v).extractLsb' (8 * i) 8 = BitVec.ofNat 8 (v / 256 ^ i) := by
  have hpow : v / 256 ^ i = v >>> (8 * i) := by rw [Nat.shiftRight_eq_div_pow, Nat.pow_mul]
  apply BitVec.eq_of_getLsbD_eq
  intro j hj
  rw [BitVec.getLsbD_extractLsb', BitVec.getLsbD_ofNat, BitVec.getLsbD_ofNat, hpow, Nat.testBit_shiftRight,
    decide_eq_true (show 8 * i + j < 64 by omega), Bool.true_and]

/-! ### Arithmetic (R156, R157) -/

theorem mulhS_eq (x y : Word) : mulhS x y = (x.signExtend 128 * y.signExtend 128).extractLsb' 64 64 := by
  rw [BitVec.signExtend, BitVec.signExtend, ← BitVec.ofInt_mul, mulhS]
  apply BitVec.eq_of_toNat_eq
  rw [BitVec.extractLsb'_toNat, BitVec.toNat_ofInt, BitVec.toNat_ofInt, Nat.shiftRight_eq_div_pow]
  omega

theorem mulhU_eq (x y : Word) : mulhU x y = (x.setWidth 128 * y.setWidth 128).extractLsb' 64 64 := by
  apply BitVec.eq_of_toNat_eq
  have hx := x.isLt
  have hy := y.isLt
  rw [mulhU, BitVec.extractLsb'_toNat, BitVec.toNat_mul, BitVec.toNat_setWidth, BitVec.toNat_setWidth, BitVec.toNat_ofNat,
    Nat.shiftRight_eq_div_pow, Nat.mod_eq_of_lt (a := x.toNat) (by omega), Nat.mod_eq_of_lt (a := y.toNat) (by omega)]
  omega

theorem remS_eq (x y : Word) :
    remS x y = if y = 0 then x else BitVec.ofInt 64 (x.toInt - y.toInt * x.toInt.tdiv y.toInt) := by
  rw [remS, Int.tmod_def]

/-! ### Order, signed and unsigned (R156, R165, R167) -/

theorem not_slt_iff (x y : Word) : (!(x.slt y)) = true ↔ y.toInt ≤ x.toInt := by
  rw [← BitVec.sle_eq_not_slt, BitVec.sle_iff_toInt_le]

theorem not_ult_iff (x y : Word) : (!(x.ult y)) = true ↔ y.toNat ≤ x.toNat := by
  rw [← BitVec.ule_eq_not_ult, BitVec.ule_iff_toNat_le]

/-- Words that read alike are one word, so that a choice between two by their order may as well take the first where they are
equal. -/
theorem choice_lt_eq_le {α : Type} [LinearOrder α] {f : Word → α} (hf : Function.Injective f) (g : Word → Word → Word)
    (x y : Word) : (if f x < f y then g x y else g y x) = if f x ≤ f y then g x y else g y x := by
  rcases lt_trichotomy (f x) (f y) with h | h | h
  · rw [if_pos h, if_pos h.le]
  · rw [hf h, ite_self, ite_self]
  · rw [if_neg h.not_gt, if_neg h.not_ge]

theorem toInt_injective : Function.Injective (BitVec.toInt : Word → Int) := fun _ _ => BitVec.toInt_inj.1

theorem minS_eq (x y : Word) : minS x y = if x.toInt ≤ y.toInt then x else y := by
  simp only [minS, BitVec.slt_iff_toInt_lt]
  exact choice_lt_eq_le toInt_injective (fun x _ => x) x y

theorem maxS_eq (x y : Word) : maxS x y = if x.toInt ≤ y.toInt then y else x := by
  simp only [maxS, BitVec.slt_iff_toInt_lt]
  exact choice_lt_eq_le toInt_injective (fun _ y => y) x y

theorem minU_eq (x y : Word) : minU x y = if x.toNat ≤ y.toNat then x else y := by
  simp only [minU, BitVec.ult_iff_toNat_lt]
  exact choice_lt_eq_le BitVec.toNat_injective (fun x _ => x) x y

theorem maxU_eq (x y : Word) : maxU x y = if x.toNat ≤ y.toNat then y else x := by
  simp only [maxU, BitVec.ult_iff_toNat_lt]
  exact choice_lt_eq_le BitVec.toNat_injective (fun _ y => y) x y

/-! ### Logic, shift counts and rotations (R159, R160, R166) -/

theorem table3_getLsbD (t : Nat) (x y z : Word) (i : Nat) (hi : i < 64) : (table3 t x y z).getLsbD i =
    t.testBit ((x.getLsbD i).toNat * 4 + (y.getLsbD i).toNat * 2 + (z.getLsbD i).toNat) := by
  rw [table3, wordOfBits_getLsbD _ hi, Nat.mul_comm 4, Nat.mul_comm 2]

theorem rotl_count6 (x y : Word) : rotl x (count6 y) = x.rotateLeft (y.toNat % 64) := by
  rw [BitVec.rotateLeft_def, Nat.mod_mod, rotl, count6]
  split
  · next h => rw [h]; ext i; simp
  · rfl

theorem count6_immWord {imm : Int} (h0 : 0 ≤ imm) (h64 : imm < 64) : count6 (immWord imm) = imm.toNat := by
  rw [count6, immWord, BitVec.toNat_ofInt]
  omega

/-! ### Bit counts and reversals (R162) -/

theorem clzW_counts (x : Word) : (x = 0 ∧ clzW x = 64) ∨ (x ≠ 0 ∧ (clzW x).toNat < 64 ∧ x.getLsbD (63 - (clzW x).toNat) = true ∧
    ∀ i, 63 - (clzW x).toNat < i → x.getLsbD i = false) := by
  by_cases hx : x = 0
  · exact .inl ⟨hx, if_pos hx⟩
  · have hn : x.toNat ≠ 0 := fun h => hx (BitVec.eq_of_toNat_eq h)
    have hlog : Nat.log2 x.toNat < 64 := (Nat.log2_lt hn).2 x.isLt
    have hv : (clzW x).toNat = 63 - Nat.log2 x.toNat := by
      rw [clzW, if_neg hx, BitVec.toNat_ofNat, log2]; omega
    have htop : 63 - (clzW x).toNat = Nat.log2 x.toNat := by omega
    rw [htop]
    refine .inr ⟨hx, by omega, Nat.testBit_log2 hn, fun i hi => Nat.testBit_lt_two_pow ?_⟩
    exact Nat.lt_log2_self.trans_le (Nat.pow_le_pow_right (by decide) hi)

/-- A word and its negative share the lowest set bit alone. -/
theorem and_neg_self {x : Word} {k : Nat} (hk : k < 64) (hbit : x.getLsbD k = true) (hlow : ∀ i, i < k → x.getLsbD i = false) :
    x &&& -x = BitVec.twoPow 64 k := by
  apply BitVec.eq_of_getLsbD_eq
  intro i hi
  rw [BitVec.getLsbD_and, BitVec.getLsbD_neg, BitVec.getLsbD_twoPow]
  rcases lt_trichotomy i k with h | rfl | h
  · simp [hlow i h, h.ne']
  · have hnone : ¬ ∃ j < i, x.getLsbD j = true := fun ⟨j, hj, hb⟩ => Bool.false_ne_true ((hlow j hj).symm.trans hb)
    simp [hbit, hnone, hk]
  · have hex : ∃ j < i, x.getLsbD j = true := ⟨k, h, hbit⟩
    simp [hex, hi, h.ne]

theorem ctzW_counts (x : Word) : (x = 0 ∧ ctzW x = 64) ∨ (x ≠ 0 ∧ (ctzW x).toNat < 64 ∧ x.getLsbD (ctzW x).toNat = true ∧
    ∀ i, i < (ctzW x).toNat → x.getLsbD i = false) := by
  by_cases hx : x = 0
  · exact .inl ⟨hx, if_pos hx⟩
  · have hbit : x.getLsbD x.ctz.toNat = true := BitVec.getLsbD_true_ctz_of_ne_zero hx
    have hlow : ∀ i, i < x.ctz.toNat → x.getLsbD i = false := fun i hi => BitVec.getLsbD_false_of_lt_ctz hi
    have hlt : x.ctz.toNat < 64 := BitVec.lt_of_getLsbD hbit
    have hv : (ctzW x).toNat = x.ctz.toNat := by
      rw [ctzW, if_neg hx, log2, and_neg_self hlt hbit hlow, BitVec.toNat_twoPow_of_lt hlt, Nat.log2_two_pow, BitVec.toNat_ofNat]
      omega
    rw [hv]
    exact .inr ⟨hx, hlt, hbit, hlow⟩

theorem popcW_toNat (x : Word) : (popcW x).toNat = ((List.range 64).filter (fun i => x.getLsbD i)).length := by
  have hle : ((List.range 64).filter x.getLsbD).length ≤ 64 := (List.length_filter_le _ _).trans_eq List.length_range
  rw [popcW, BitVec.toNat_ofNat]
  exact Nat.mod_eq_of_lt (by omega)

theorem bswapW_byte (x : Word) (i : Nat) (hi : i < 8) :
    (bswapW x).extractLsb' (8 * i) 8 = x.extractLsb' (8 * (7 - i)) 8 := by
  have hrev : (bytesOf 8 x.toNat).reverse.getD i 0 = (bytesOf 8 x.toNat).getD (7 - i) 0 := by
    rw [List.getD_reverse i (by rwa [length_bytesOf]), length_bytesOf]
  calc (bswapW x).extractLsb' (8 * i) 8
      = (bytesOf 8 x.toNat).reverse.getD i 0 := by rw [bswapW, extractLsb'_byte _ _ hi, ofBytes_digit]
    _ = BitVec.ofNat 8 (x.toNat / 256 ^ (7 - i)) := by rw [hrev, bytesOf_getD _ (by omega)]
    _ = x.extractLsb' (8 * (7 - i)) 8 := by
      rw [← extractLsb'_byte _ _ (by omega), BitVec.ofNat_toNat, BitVec.setWidth_eq]

/-! ### Truth values (R165) -/

theorem boolW_eq {b : Bool} {p : Prop} [Decidable p] (h : b = true ↔ p) : boolW b = if p then 1 else 0 := by
  simp only [boolW, h]

theorem boolW_eq_not {b : Bool} {p : Prop} [Decidable p] (h : b = true ↔ ¬ p) : boolW b = if p then 0 else 1 := by
  rw [boolW_eq h, ite_not]

end Sys2Proof.Machine
end

section
/-! SUPPORT. Scalar results (O1 to O4): each instruction runs one function of its operands, and each function is the one that its rule
names. -/

namespace Sys2Proof.Machine

open Sys2Proof

/-- A division, for an instruction whose body computes its result (R152, R157). -/
theorem divides {mk : Name → Name → Name → Instr} {f g : Word → Word → Word}
    (he : ∀ d a b s, exec (mk d a b) s = run (mk d a b) s (divide d a b g)) (hf : ∀ x y, g x y = f x y) : Divides mk f := by
  intro d a b s h
  refine completes_of_run (he d a b s) h ?_
  rw [← hf]
  exact lateQ_done h.1 d _

/-! ### Fields (R164) -/

theorem withField_inside {pos width1 : Nat} (h : pos + (width1 + 1) ≤ 64) (body : State → Res) : withField pos width1 body = body :=
  funext fun _ => if_neg (by omega)

theorem withField_outside {pos width1 : Nat} (h : 64 < pos + (width1 + 1)) (body : State → Res) (s : State) :
    withField pos width1 body s = .trap s .illegal (BitVec.ofNat 64 s.core.word) :=
  if_pos (by omega)

/-- An instruction on a field that leaves the word raises ILLEGAL. -/
theorem exec_withField_outside {i : Instr} {s : State} {pos width1 : Nat} {body : State → Res}
    (he : exec i s = run i s (withField pos width1 body)) (hm : MayIssue i s) (h : 64 < pos + (width1 + 1)) :
    exec i s = .next (s.raise .illegal (BitVec.ofNat 64 s.core.word)) := by
  rw [he, run_ready hm, withField_outside h]
  rfl

/-- BFI takes its destination as a source too. -/
theorem bfi_done {h : Hd} {d a : Name} {pos width1 : Nat} {s : State} (hin : pos + (width1 + 1) ≤ 64)
    (hm : MayIssue (.bfi h d a pos width1) s) : Completes (.bfi h d a pos width1) s (WordDone (.bfi h d a pos width1) d
      ⟨insertW pos (width1 + 1) (s.core.rd d).v (s.core.rd a).v, Label.max (s.core.rd d).l (s.core.rd a).l⟩ s) :=
  completes_of_run (congrArg (run _ s) (withField_inside hin _)) hm (scalarOut_done hm.1 _ _)

end Sys2Proof.Machine

namespace Sys2Proof

open Sys2Proof.Machine

/-- Settles O1: the bodies of ADD to MAXZ compute the table of R156 at once, those of the divisions the quotients and remainders of R157
late. -/
theorem arithmeticResults : Obligations.ArithmeticResults := by
  unfold Obligations.ArithmeticResults
  refine ⟨fun h => ⟨?add, ?sub, ?mul, ?mulh, ?mulhz, ?min, ?max, ?minz, ?maxz⟩, fun h => ⟨?div, ?rem, ?divz, ?remz⟩⟩
  case add => exact computes2 (fun _ _ _ _ => rfl) (fun _ _ => rfl)
  case sub => exact computes2 (fun _ _ _ _ => rfl) (fun _ _ => rfl)
  case mul => exact computes2 (fun _ _ _ _ => rfl) (fun _ _ => rfl)
  case mulh => exact computes2 (fun _ _ _ _ => rfl) mulhS_eq
  case mulhz => exact computes2 (fun _ _ _ _ => rfl) mulhU_eq
  case min => exact computes2 (fun _ _ _ _ => rfl) minS_eq
  case max => exact computes2 (fun _ _ _ _ => rfl) maxS_eq
  case minz => exact computes2 (fun _ _ _ _ => rfl) minU_eq
  case maxz => exact computes2 (fun _ _ _ _ => rfl) maxU_eq
  case div => exact divides (g := divS) (fun _ _ _ _ => rfl) (fun _ _ => rfl)
  case rem => exact divides (fun _ _ _ _ => rfl) remS_eq
  case divz => exact divides (g := divU) (fun _ _ _ _ => rfl) (fun _ _ => rfl)
  case remz => exact divides (g := remU) (fun _ _ _ _ => rfl) (fun _ _ => rfl)

/-- Settles O2: each body computes its function of two or three words. -/
theorem logicAndShiftResults : Obligations.LogicAndShiftResults := by
  unfold Obligations.LogicAndShiftResults
  intro h
  refine ⟨?and, ?or, ?xor, ?andn, ?orn, ?xnor, fun table => ?logt, ?shl, ?shr, ?sar, ?rot, ?fshl, ?fshr⟩
  case logt => exact computes3 (fun _ _ _ _ _ => rfl) (table3_getLsbD table)
  case rot => exact computes2 (fun _ _ _ _ => rfl) rotl_count6
  case fshl => exact computes3 (g := fshlW) (fun _ _ _ _ _ => rfl) (fun _ _ _ => rfl)
  case fshr => exact computes3 (g := fshrW) (fun _ _ _ _ _ => rfl) (fun _ _ _ => rfl)
  all_goals exact computes2 (fun _ _ _ _ => rfl) (fun _ _ => rfl)

/-- Settles O3: each body computes its function of one word, and past bit 63 there is no field. -/
theorem bitAndFieldResults : Obligations.BitAndFieldResults := by
  unfold Obligations.BitAndFieldResults
  refine ⟨fun h => ⟨?clz, ?ctz, ?popc, ?brev, ?bswap, ?mov, fun width1 => ?sext, fun width1 => ?zext⟩,
    fun h pos width1 => ⟨fun hin => ⟨?bfx, ?bfxz, fun d a s hm => ?bfi⟩, fun hout d a s hbfi hbfx hbfxz => ?outside⟩⟩
  case clz => exact computes1 (fun _ _ _ => rfl) clzW_counts
  case ctz => exact computes1 (fun _ _ _ => rfl) ctzW_counts
  case popc => exact computes1 (fun _ _ _ => rfl) popcW_toNat
  case brev => exact computes1 (g := brevW) (fun _ _ _ => rfl) (fun _ _ hi => wordOfBits_getLsbD _ hi)
  case bswap => exact computes1 (fun _ _ _ => rfl) bswapW_byte
  case mov => exact computes1 (g := fun x => x) (fun _ _ _ => rfl) (fun _ => rfl)
  case sext =>
    exact computes1 (g := sextW (width1 + 1)) (fun _ _ _ => rfl) (fun x => congrArg (BitVec.signExtend 64) (setWidth_eq_low x _))
  case zext =>
    exact computes1 (g := zextW (width1 + 1)) (fun _ _ _ => rfl) (fun x => congrArg (BitVec.setWidth 64) (setWidth_eq_low x _))
  case bfx =>
    exact computes1 (g := fun x => sextW (width1 + 1) (x >>> pos)) (fun _ _ s => congrArg (run _ s) (withField_inside hin _))
      (fun x => congrArg (BitVec.signExtend 64) (setWidth_ushiftRight x pos _))
  case bfxz =>
    exact computes1 (g := fun x => zextW (width1 + 1) (x >>> pos)) (fun _ _ s => congrArg (run _ s) (withField_inside hin _))
      (fun x => congrArg (BitVec.setWidth 64) (setWidth_ushiftRight x pos _))
  case bfi => exact ⟨_, fun i hi => wordOfBits_getLsbD _ hi, bfi_done hin hm⟩
  case outside =>
    simp only [List.forall_mem_cons]
    exact ⟨exec_withField_outside rfl hbfi hout, exec_withField_outside rfl hbfx hout, exec_withField_outside rfl hbfxz hout,
      fun _ hi => (List.not_mem_nil hi).elim⟩

/-- Settles O4: compares give a truth value as a word, SEL reads q as its first operand, and an immediate form is its register form
with the immediate for the second operand. -/
theorem compareAndImmediateResults : Obligations.CompareAndImmediateResults := by
  unfold Obligations.CompareAndImmediateResults
  refine ⟨fun h => ⟨?seq, ?sne, ?slt, ?sltz, fun d a b s hm => ?sel⟩,
    fun h imm => ⟨?addi, ?andi, ?ori, ?xori, fun h0 h64 => ⟨?shli, ?shri, ?sari⟩, ?slti, fun d s hm => ?li⟩⟩
  case seq => exact computes2 (fun _ _ _ _ => rfl) (fun _ _ => boolW_eq beq_iff_eq)
  case sne => exact computes2 (fun _ _ _ _ => rfl) (fun _ _ => boolW_eq_not bne_iff_ne)
  case slt => exact computes2 (fun _ _ _ _ => rfl) (fun _ _ => boolW_eq BitVec.slt_iff_toInt_lt)
  case sltz => exact computes2 (fun _ _ _ _ => rfl) (fun _ _ => boolW_eq BitVec.ult_iff_toNat_lt)
  case sel => exact completes_of_run rfl hm (scalarOut_done hm.1 _ _)
  case shli => exact computes1 (fun _ _ _ => rfl) (fun x => congrArg (x <<< ·) (count6_immWord h0 h64))
  case shri => exact computes1 (fun _ _ _ => rfl) (fun x => congrArg (x >>> ·) (count6_immWord h0 h64))
  case sari => exact computes1 (fun _ _ _ => rfl) (fun x => congrArg x.sshiftRight (count6_immWord h0 h64))
  case slti => exact computes1 (fun _ _ _ => rfl) (fun _ => boolW_eq BitVec.slt_iff_toInt_lt)
  case li => exact completes_of_run rfl hm (scalarOut_done hm.1 _ _)
  all_goals exact computes1 (fun _ _ _ => rfl) (fun _ => rfl)

end Sys2Proof
end

section
/-! SUPPORT. Branches, J and RPT (O5, O6). -/

namespace Sys2Proof.Machine

open Sys2Proof

/-- The remainder that ERET left names the repetition that RPT begins with, if it lies in 1 to `n` (R170). -/
theorem firstRep_resumed {r n : Nat} (h1 : 1 ≤ r) (hn : r ≤ n) : firstRep (some r) n = n - r := if_pos ⟨h1, hn⟩

theorem firstRep_first {resume : Option Nat} {n : Nat} (h : ∀ r, resume = some r → ¬ (1 ≤ r ∧ r ≤ n)) : firstRep resume n = 0 := by
  cases resume with
  | none => rfl
  | some r => exact if_neg (h r rfl)

end Sys2Proof.Machine

namespace Sys2Proof

open Sys2Proof.Machine

/-- Settles O5: each branch decides by its condition on the values, and J by none. -/
theorem branchTargets : Obligations.BranchTargets := by
  unfold Obligations.BranchTargets
  intro h
  refine ⟨?beq, ?bne, ?blt, ?bge, ?blo, ?bhs, fun a disp s hm => ?bz, fun a disp s hm => ?bnz, fun disp s hm => ?j⟩
  case beq => exact branches2 (fun _ _ _ _ => rfl) (fun _ _ => beq_iff_eq)
  case bne => exact branches2 (fun _ _ _ _ => rfl) (fun _ _ => bne_iff_ne)
  case blt => exact branches2 (fun _ _ _ _ => rfl) (fun _ _ => BitVec.slt_iff_toInt_lt)
  case bge => exact branches2 (fun _ _ _ _ => rfl) not_slt_iff
  case blo => exact branches2 (fun _ _ _ _ => rfl) (fun _ _ => BitVec.ult_iff_toNat_lt)
  case bhs => exact branches2 (fun _ _ _ _ => rfl) not_ult_iff
  case bz => exact ⟨_, beq_iff_eq, completes_of_run rfl hm (branch_done _ _)⟩
  case bnz => exact ⟨_, bne_iff_ne, completes_of_run rfl hm (branch_done _ _)⟩
  case j => exact completes_of_run rfl hm (branch_done true disp)

/-- Settles O6: RPT sets the repetition and takes no next PC. -/
theorem repeatBegins : Obligations.RepeatBegins := by
  unfold Obligations.RepeatBegins
  intro h n1 steps stride s hm
  refine ⟨firstRep s.core.resume (n1 + 1), fun r hr h1 hn => ?_, firstRep_first, run_ready hm _⟩
  rw [hr]
  exact firstRep_resumed h1 hn

end Sys2Proof
end
